-- ==== Sys2Proof/Word.lean ====
section
/-! DEFINITION. The word types of the Zeupra ZG8 (00 R4, 01 R17-R20, 03 R68) and the one sparse map the state is
built of. Nothing here computes more than the plainest arithmetic. -/

namespace Sys2Proof

/-- A byte of memory (00 R4). -/
abbrev Byte := BitVec 8

/-- One lane of one vector register, and one instruction word (01 R17, 03 R68). -/
abbrev Word32 := BitVec 32

/-- A scalar register, a CSR, an address (01 R19, R27, R32). -/
abbrev Word64 := BitVec 64

/-- One bit a lane of a team: an execute mask or a mask register (01 R12, R20). -/
abbrev Mask := BitVec 1024

/-- A sparse map with natural keys, as plain data: (key, value) pairs with strictly rising keys. What a key that
is not listed reads as is fixed where the map is used (see Machine/Store.lean). -/
abbrev FMap (α : Type) := List (Nat × α)

end Sys2Proof
end

