-- ==== Sys2Proof/Machine/Float.lean ====
section
/-! DEFINITION. Floating-point data as exact values, and the one rounding of each format (02 R40 to R59). An exact
value is a sign, a natural significand and a binary exponent, so that sums, products and fused sums are computed
without loss and rounded once. -/

namespace Sys2Proof.Machine

/-- How a format treats its top exponent (02 R40, R43): infinities and NaNs, NaN only (E4M3), neither. -/
inductive Specials where
  | ieee | nanOnly | none
  deriving DecidableEq, Repr

/-- A binary format (02 Tables 2.1 and 2.3): exponent bits, fraction bits, bias, width. -/
structure Fmt where
  eb : Nat
  mb : Nat
  bias : Nat
  width : Nat
  sp : Specials
  deriving DecidableEq, Repr

def fmtF64 : Fmt := ⟨11, 52, 1023, 64, .ieee⟩
def fmtF32 : Fmt := ⟨8, 23, 127, 32, .ieee⟩
def fmtF16 : Fmt := ⟨5, 10, 15, 16, .ieee⟩
def fmtBF16 : Fmt := ⟨8, 7, 127, 16, .ieee⟩
def fmtE4M3 : Fmt := ⟨4, 3, 7, 8, .nanOnly⟩
def fmtE5M2 : Fmt := ⟨5, 2, 15, 8, .ieee⟩
def fmtE2M3 : Fmt := ⟨2, 3, 1, 6, .none⟩
def fmtE3M2 : Fmt := ⟨3, 2, 3, 6, .none⟩
def fmtE2M1 : Fmt := ⟨2, 1, 1, 4, .none⟩

/-- A datum as its value: a NaN (signalling or quiet), an infinity, or (-1)^neg x m x 2^e (a zero has m = 0). -/
inductive FV where
  | nan (sig : Bool)
  | inf (neg : Bool)
  | fin (neg : Bool) (m : Nat) (e : Int)
  deriving DecidableEq, Repr

/-- Flags of `FLAGS` in its bit order (05 R138): NV 16, DZ 8, OF 4, UF 2, NX 1. -/
abbrev Fl := BitVec 5

def fNV : Fl := 16
def fDZ : Fl := 8
def fOF : Fl := 4
def fUF : Fl := 2
def fNX : Fl := 1

/-- Exponent of the smallest normal number. -/
def Fmt.emin (f : Fmt) : Int := 1 - (f.bias : Int)

/-- Weight of the last fraction bit of a subnormal number. -/
def Fmt.qmin (f : Fmt) : Int := f.emin - (f.mb : Int)

/-- The top exponent code. -/
def Fmt.topCode (f : Fmt) : Nat := 2 ^ f.eb - 1

/-- The largest finite magnitude as bits. -/
def Fmt.maxBits (f : Fmt) : Nat :=
  match f.sp with
  | .ieee => f.topCode * 2 ^ f.mb - 1
  | .nanOnly => f.topCode * 2 ^ f.mb + 2 ^ f.mb - 2
  | .none => f.topCode * 2 ^ f.mb + 2 ^ f.mb - 1

/-- The sign bit's weight. -/
def Fmt.signBit (f : Fmt) : Nat := 2 ^ (f.eb + f.mb)

/-- The canonical quiet NaN (02 Table 2.2); a format without NaNs has the zero code (02 Table 2.5). -/
def Fmt.qnan (f : Fmt) : Nat :=
  match f.sp with
  | .ieee => f.topCode * 2 ^ f.mb + 2 ^ (f.mb - 1)
  | .nanOnly => f.topCode * 2 ^ f.mb + 2 ^ f.mb - 1
  | .none => 0

/-- Magnitude bits of infinity under a format's reading of it (02 R44). -/
def Fmt.infBits (f : Fmt) : Nat :=
  match f.sp with
  | .ieee => f.topCode * 2 ^ f.mb
  | .nanOnly => f.topCode * 2 ^ f.mb + 2 ^ f.mb - 1
  | .none => f.maxBits

/-- The value of a datum's bits (02 R40, R43). -/
def Fmt.unpack (f : Fmt) (x : Nat) : FV :=
  let neg := x.testBit (f.eb + f.mb)
  let e := bitsAt' x f.mb f.eb
  let m := bitsAt' x 0 f.mb
  if e = f.topCode ∧ f.sp = .ieee then
    if m = 0 then .inf neg else .nan (!m.testBit (f.mb - 1))
  else if e = f.topCode ∧ f.sp = .nanOnly ∧ m = 2 ^ f.mb - 1 then .nan false
  else if e = 0 then .fin neg m f.qmin
  else .fin neg (2 ^ f.mb + m) (f.qmin + ((e : Int) - 1))
where
  /-- Bits `[lo + n - 1 : lo]`. -/
  bitsAt' (x lo n : Nat) : Nat := (x >>> lo) % 2 ^ n

/-- Is the datum a subnormal? -/
def Fmt.subnormal (f : Fmt) (x : Nat) : Bool := (x >>> f.mb) % 2 ^ f.eb == 0 && x % 2 ^ f.mb != 0

/-- A datum with subnormals read as zeros of their sign (02 R42). -/
def Fmt.unpackFlush (f : Fmt) (flush : Bool) (x : Nat) : FV :=
  if flush && f.subnormal x then .fin (x.testBit (f.eb + f.mb)) 0 0 else f.unpack x

/-- A rounding mode of 02 Table 2.8; the stochastic mode carries r = g[31:16] (02 R59). -/
inductive Rnd where
  | rne | rtz | rup | rdn | rna
  | rs (r : Nat)
  deriving DecidableEq, Repr

/-- Number of significant bits. -/
def bitLen (m : Nat) : Nat := if m = 0 then 0 else Nat.log2 m + 1

/-- The multiple of 2^q a magnitude m x 2^e (plus less than 2^e when `sticky`) rounds to, and whether that is
inexact (02 Table 2.8, R59). -/
def roundAt (rnd : Rnd) (neg : Bool) (m : Nat) (e : Int) (sticky : Bool) (q : Int) : Nat × Bool :=
  if q ≤ e then (m * 2 ^ (e - q).toNat, sticky) else
  let d := (q - e).toNat
  let n := m / 2 ^ d
  let rem := m % 2 ^ d
  let half := 2 ^ (d - 1)
  let inexact := rem != 0 || sticky
  let up := match rnd with
    | .rne => decide (half < rem) || (rem == half && (sticky || n % 2 == 1))
    | .rtz => false
    | .rup => !neg && inexact
    | .rdn => neg && inexact
    | .rna => decide (half ≤ rem)
    | .rs r => decide (r < rem * 65536 / 2 ^ d)
  (if up then n + 1 else n, inexact)

/-- Magnitude bits of n x 2^q, where n has at most mb + 2 bits and q is the weight of the last bit. -/
def Fmt.pack (f : Fmt) (n : Nat) (q : Int) : Nat := ((q - f.qmin).toNat) * 2 ^ f.mb + n

/-- Is m x 2^e (with `sticky` more than it) above the largest finite magnitude? -/
def Fmt.aboveMax (f : Fmt) (m : Nat) (e : Int) (sticky : Bool) : Bool :=
  match f.unpack f.maxBits with
  | .fin _ mm me =>
    let k := min e me
    let a := m * 2 ^ (e - k).toNat
    let b := mm * 2 ^ (me - k).toNat
    decide (b < a) || (sticky && a == b)
  | _ => false

/-- A value rounded once into a format: magnitude and sign bits, and the flags (02 R44, R45, R58, R59). `sat` is
`.sat` of 02 R45; `flush` writes a nonzero subnormal result as a zero (02 R42). -/
def Fmt.round (f : Fmt) (sat flush : Bool) (rnd : Rnd) (neg : Bool) (m : Nat) (e : Int) (sticky : Bool) : Nat × Fl :=
  let s := if neg then f.signBit else 0
  if m = 0 ∧ sticky = false then (s, 0) else
  let rnd := match rnd with
    | .rs r => if f.aboveMax m e sticky then .rne else .rs r
    | x => x
  let top := e + (bitLen m : Int) - 1
  let qn := top - (f.mb : Int)
  let q := if qn < f.qmin then f.qmin else qn
  let (n, inexact) := roundAt rnd neg m e sticky q
  let bits := f.pack n q
  if f.maxBits < bits then
    let big := match rnd with
      | .rtz => f.maxBits
      | .rup => if neg then f.maxBits else f.infBits
      | .rdn => if neg then f.infBits else f.maxBits
      | _ => f.infBits
    (s + (if sat then f.maxBits else big), fOF ||| fNX)
  else
    let (nu, _) := roundAt rnd neg m e sticky qn
    let tiny := decide (qn < f.qmin) && !(decide (2 ^ f.mb ≤ nu / 2 ^ (f.qmin - qn).toNat)) &&
      (nu != 0)
    if flush && decide (0 < bits) && decide (bits < 2 ^ f.mb) then (s, fUF ||| fNX)
    else (s + bits, (if inexact then fNX else 0) ||| (if tiny && inexact then fUF else 0))

/-- An arithmetic result written in a format: a NaN becomes the canonical NaN (02 R41). Flags of the operation itself
(an invalid operation) are the caller's. -/
def Fmt.write (f : Fmt) (sat flush : Bool) (rnd : Rnd) (x : FV) : Nat × Fl :=
  match x with
  | .nan _ => (f.qnan, 0)
  | .inf neg => ((if neg then f.signBit else 0) + f.infBits, 0)
  | .fin neg m e => f.round sat flush rnd neg m e false

/-- Is it a signalling NaN? -/
def FV.snan (x : FV) : Bool := x == .nan true

def FV.isNan (x : FV) : Bool :=
  match x with
  | .nan _ => true
  | _ => false

def FV.isInf (x : FV) : Bool :=
  match x with
  | .inf _ => true
  | _ => false

def FV.isZero (x : FV) : Bool :=
  match x with
  | .fin _ 0 _ => true
  | _ => false

def FV.neg (x : FV) : FV :=
  match x with
  | .nan s => .nan s
  | .inf n => .inf (!n)
  | .fin n m e => .fin (!n) m e

/-- The sign of a number. -/
def FV.sign (x : FV) : Bool :=
  match x with
  | .nan _ => false
  | .inf n => n
  | .fin n _ _ => n

/-- The signed significand. -/
def sgn (neg : Bool) (m : Nat) : Int := if neg then -(m : Int) else m

/-- The exact sum of two finite values; an exact zero from opposite signs is +0, and -0 under RDN (05 R148). -/
def addFin (rdn : Bool) (n1 : Bool) (m1 : Nat) (e1 : Int) (n2 : Bool) (m2 : Nat) (e2 : Int) : FV :=
  if m1 = 0 ∧ m2 = 0 then .fin (if n1 = n2 then n1 else rdn) 0 0
  else
    let e := min e1 e2
    let e := if m1 = 0 then e2 else if m2 = 0 then e1 else e
    let a := sgn n1 (m1 * 2 ^ (e1 - e).toNat)
    let b := sgn n2 (m2 * 2 ^ (e2 - e).toNat)
    let a := if m1 = 0 then 0 else a
    let b := if m2 = 0 then 0 else b
    let c := a + b
    if c = 0 then .fin rdn 0 0 else .fin (decide (c < 0)) c.natAbs e

/-- The exact sum of two values with its flags (05 Table 5.5). -/
def fvAdd (rdn : Bool) (a b : FV) : FV × Fl :=
  let nv := if a.snan || b.snan then fNV else 0
  match a, b with
  | .nan _, _ => (.nan false, nv)
  | _, .nan _ => (.nan false, nv)
  | .inf x, .inf y => if x = y then (.inf x, 0) else (.nan false, fNV)
  | .inf x, _ => (.inf x, 0)
  | _, .inf y => (.inf y, 0)
  | .fin n1 m1 e1, .fin n2 m2 e2 => (addFin rdn n1 m1 e1 n2 m2 e2, 0)

/-- The exact product of two values with its flags (05 Table 5.5). -/
def fvMul (a b : FV) : FV × Fl :=
  let nv := if a.snan || b.snan then fNV else 0
  match a, b with
  | .nan _, _ => (.nan false, nv)
  | _, .nan _ => (.nan false, nv)
  | .inf x, y => if y.isZero then (.nan false, fNV) else (.inf (x != y.sign), 0)
  | x, .inf y => if x.isZero then (.nan false, fNV) else (.inf (x.sign != y), 0)
  | .fin n1 m1 e1, .fin n2 m2 e2 => (.fin (n1 != n2) (m1 * m2) (e1 + e2), 0)

/-- The exact fused a x b + c with its flags; 0 x infinity raises NV also when c is a quiet NaN (05 Table 5.5). -/
def fvFma (rdn : Bool) (a b c : FV) : FV × Fl :=
  let nv := if a.snan || b.snan || c.snan then fNV else 0
  let (p, fp) := fvMul a b
  let (r, fr) := fvAdd rdn p c
  (r, nv ||| fp ||| fr)

/-- -1, 0 or 1 as a is less than, equal to or greater than b, for numbers; none when either is a NaN. -/
def fvCmp (a b : FV) : Option Int :=
  match a, b with
  | .nan _, _ => none
  | _, .nan _ => none
  | .inf x, .inf y => some (if x = y then 0 else if x then -1 else 1)
  | .inf x, _ => some (if x then -1 else 1)
  | _, .inf y => some (if y then 1 else -1)
  | .fin n1 m1 e1, .fin n2 m2 e2 =>
    let e := min e1 e2
    let a := sgn n1 (m1 * 2 ^ (e1 - e).toNat)
    let b := sgn n2 (m2 * 2 ^ (e2 - e).toNat)
    some (if a < b then -1 else if a = b then 0 else 1)

/-- A quotient of magnitudes as significand, exponent and sticky, with at least `p` significant bits. -/
def divMag (p : Nat) (m1 : Nat) (e1 : Int) (m2 : Nat) (e2 : Int) : Nat × Int × Bool :=
  let k := p + bitLen m2
  let n := m1 * 2 ^ k
  (n / m2, e1 - e2 - (k : Int), n % m2 != 0)

/-- Integer square root by bisection over `fuel` bits: the largest x below 2^fuel with x^2 at most n. -/
def isqrt (n fuel acc : Nat) : Nat :=
  match fuel with
  | 0 => acc
  | k + 1 => let c := acc + 2 ^ k; isqrt n k (if c * c ≤ n then c else acc)

/-- A square root of a magnitude as significand, exponent and sticky, with at least `p` significant bits. -/
def sqrtMag (p : Nat) (m : Nat) (e : Int) : Nat × Int × Bool :=
  let k := 2 * p + (if e % 2 = 0 then 0 else 1)
  let n := m * 2 ^ k
  let r := isqrt n (bitLen n / 2 + 1) 0
  (r, (e - (k : Int)) / 2, r * r != n)

/-- IEEE division rounded once (05 R158 steps, R162 RCP). -/
def Fmt.div (f : Fmt) (rnd : Rnd) (a b : FV) : Nat × Fl :=
  let nv := if a.snan || b.snan then fNV else 0
  match a, b with
  | .nan _, _ => (f.qnan, nv)
  | _, .nan _ => (f.qnan, nv)
  | .inf x, .inf _ => ((if x then f.qnan else f.qnan), fNV)
  | .inf x, y => ((if x != y.sign then f.signBit else 0) + f.infBits, 0)
  | x, .inf y => (if x.sign != y then f.signBit else 0, 0)
  | .fin n1 m1 e1, .fin n2 m2 e2 =>
    let s := n1 != n2
    if m2 = 0 then (if m1 = 0 then (f.qnan, fNV) else ((if s then f.signBit else 0) + f.infBits, fDZ))
    else if m1 = 0 then (if s then f.signBit else 0, 0)
    else let (m, e, st) := divMag (f.mb + 30) m1 e1 m2 e2
      f.round false false rnd s m e st

/-- IEEE square root rounded once. -/
def Fmt.sqrt (f : Fmt) (rnd : Rnd) (a : FV) : Nat × Fl :=
  match a with
  | .nan s => (f.qnan, if s then fNV else 0)
  | .inf n => if n then (f.qnan, fNV) else (f.infBits, 0)
  | .fin n m e =>
    if m = 0 then (if n then f.signBit else 0, 0)
    else if n then (f.qnan, fNV)
    else let (r, e, st) := sqrtMag (f.mb + 30) m e
      f.round false false rnd false r e st

/-- The sum, product and fused sum rounded once. -/
def Fmt.add (f : Fmt) (flush : Bool) (rnd : Rnd) (a b : FV) : Nat × Fl :=
  let (x, fl) := fvAdd (rnd == .rdn) a b
  let (r, g) := f.write false flush rnd x
  (r, fl ||| g)

def Fmt.mul (f : Fmt) (flush : Bool) (rnd : Rnd) (a b : FV) : Nat × Fl :=
  let (x, fl) := fvMul a b
  let (r, g) := f.write false flush rnd x
  (r, fl ||| g)

def Fmt.fma (f : Fmt) (flush : Bool) (rnd : Rnd) (a b c : FV) : Nat × Fl :=
  let (x, fl) := fvFma (rnd == .rdn) a b c
  let (r, g) := f.write false flush rnd x
  (r, fl ||| g)

/-- floor(log2) of a nonzero magnitude. -/
def floorLog2 (m : Nat) (e : Int) : Int := e + (bitLen m : Int) - 1

/-- One step of the stochastic generator (02 R59). -/
def genStep (g : Word32) : Word32 :=
  let g := g ^^^ (g <<< 13)
  let g := g ^^^ (g >>> 17)
  g ^^^ (g <<< 5)

/-- The rounding mode of a mode number 0 to 5, with the generator stepped under the stochastic mode (02 R57, R59). -/
def rndOf (mode : Nat) (g : Word32) : Rnd × Word32 :=
  match mode with
  | 0 => (.rne, g)
  | 1 => (.rtz, g)
  | 2 => (.rup, g)
  | 3 => (.rdn, g)
  | 4 => (.rna, g)
  | _ => let g := genStep g; (.rs (g.toNat >>> 16), g)

/-- A value rounded to an integer in a range, saturating; NaN gives 0 (02 R59). -/
def toIntRange (rnd : Rnd) (lo hi : Int) (x : FV) : Int × Fl :=
  match x with
  | .nan _ => (0, fNV)
  | .inf n => (if n then lo else hi, fNV)
  | .fin n m e =>
    let (k, inexact) := roundAt rnd n m e false 0
    let v := sgn n k
    if v < lo then (lo, fNV) else if hi < v then (hi, fNV) else (v, if inexact then fNX else 0)

end Sys2Proof.Machine
end

