-- ==== Sys2Proof/Machine/Store.lean ====
section
/-! DEFINITION. The sparse maps of the state: register files (`fget`, `fput`) and memory (`Memory.read`,
`Memory.write`), with the canonical form of memory. -/

namespace Sys2Proof.Machine

/-- What key `k` holds: its value, or `d` where it is not listed. -/
def fget {α : Type} (d : α) (m : FMap α) (k : Nat) : α :=
  match m with
  | [] => d
  | (j, v) :: r => if k < j then d else if k = j then v else fget d r k

/-- Key `k` set to `v`, keys kept in rising order. -/
def fput {α : Type} (m : FMap α) (k : Nat) (v : α) : FMap α :=
  match m with
  | [] => [(k, v)]
  | (j, w) :: r => if k < j then (k, v) :: (j, w) :: r else if k = j then (k, v) :: r else (j, w) :: fput r k v

/-- Key `k` no longer listed. -/
def fdel {α : Type} (m : FMap α) (k : Nat) : FMap α := m.filter fun e => e.1 != k

/-- Is key `k` listed? -/
def fhas {α : Type} (m : FMap α) (k : Nat) : Bool := m.any fun e => e.1 == k

/-- What key `k` holds, if it is listed. -/
def fget? {α : Type} (m : FMap α) (k : Nat) : Option α := (m.find? fun e => e.1 == k).map (·.2)

/-- Every key of `ks` set to `f` of it, in the order of `ks`. -/
def fputAll {α : Type} (m : FMap α) (ks : List Nat) (f : Nat → α) : FMap α :=
  ks.foldl (fun m k => fput m k (f k)) m

/-- Memory: (address, byte) pairs (00 R4), in the canonical form `Memory.wf`. -/
abbrev Memory := List Host.Cell

/-- What an address that is not listed reads as. DESIGN CHOICE (unsafe): the spec gives memory no contents after
power-on; notes/assumptions/2.md. -/
def Memory.unlisted : Byte := 0

/-- Addresses strictly rising, none below `lo`. -/
def Memory.rising (lo : Nat) (m : Memory) : Bool :=
  match m with
  | [] => true
  | (a, _) :: r => decide (lo ≤ a) && Memory.rising (a + 1) r

/-- The canonical form: addresses strictly rising, and no entry equal to what an unlisted address reads as. -/
def Memory.wf (m : Memory) : Bool := Memory.rising 0 m && m.all fun c => c.2 != Memory.unlisted

/-- The byte at an address. -/
def Memory.read (m : Memory) (a : Nat) : Byte := fget Memory.unlisted m a

/-- The byte at an address replaced, the canonical form kept: writing what an unlisted address reads as removes the
entry. -/
def Memory.write (m : Memory) (a : Nat) (b : Byte) : Memory :=
  match m with
  | [] => if b = Memory.unlisted then [] else [(a, b)]
  | (j, w) :: r =>
    if a < j then (if b = Memory.unlisted then (j, w) :: r else (a, b) :: (j, w) :: r)
    else if a = j then (if b = Memory.unlisted then r else (a, b) :: r)
    else (j, w) :: Memory.write r a b

/-- Consecutive bytes from an address. -/
def Memory.reads (m : Memory) (a n : Nat) : List Byte := (List.range n).map fun i => Memory.read m (a + i)

/-- Bytes written to consecutive addresses. -/
def Memory.writes (m : Memory) (a : Nat) (bs : List Byte) : Memory :=
  match bs with
  | [] => m
  | b :: r => Memory.writes (Memory.write m a b) (a + 1) r

/-- The `n` bytes from an address on put back to what an unlisted address reads as: none of them is listed. -/
def Memory.clear (m : Memory) (a n : Nat) : Memory := m.filter fun c => !(decide (a ≤ c.1) && decide (c.1 < a + n))

/-- The number a little-endian byte string denotes (00 R4). -/
def leNat (bs : List Byte) : Nat :=
  match bs with
  | [] => 0
  | b :: r => b.toNat + 256 * leNat r

/-- The `n` bytes of a number, little-endian (00 R4). -/
def leBytes (n v : Nat) : List Byte :=
  match n with
  | 0 => []
  | k + 1 => BitVec.ofNat 8 v :: leBytes k (v / 256)

/-- A little-endian word of `n` bytes. -/
def Memory.readLe (m : Memory) (a n : Nat) : Nat := leNat (Memory.reads m a n)

/-- A little-endian word of `n` bytes written. -/
def Memory.writeLe (m : Memory) (a n v : Nat) : Memory := Memory.writes m a (leBytes n v)

/-- Bits `[lo + n - 1 : lo]` of a natural number. -/
def bitsAt (x lo n : Nat) : Nat := (x >>> lo) % 2 ^ n

/-- One bit of a natural number. -/
def bitAt (x i : Nat) : Bool := x.testBit i

/-- `x` with bits `[lo + n - 1 : lo]` replaced by `v`. -/
def putBits (x lo n v : Nat) : Nat := x - (bitsAt x lo n) * 2 ^ lo + (v % 2 ^ n) * 2 ^ lo

end Sys2Proof.Machine
end

