-- ==== Sys2Proof/Machine/Exact.lean ====
section
/-! DEFINITION. Exact accumulator objects as 512-bit words: what an addend does to one, and the value one denotes (02 R62 to
R65, 06 R183, R184, 09 R258). -/

namespace Sys2Proof.Machine

/-- KIND: 1 X32, 2 X64; anything else is not an object (02 R62). -/
def objKind (x : Nat) : Nat := bitsAt x 504 8
def objCount (x : Nat) : Nat := bitsAt x 448 35

/-- ANCHOR of an X64 object, a signed 16-bit number. -/
def objAnchor (x : Nat) : Int := let a := bitsAt x 488 16; if a < 32768 then a else (a : Int) - 65536

/-- W: 416 bits signed for X32, 448 for X64. -/
def objBits (x : Nat) : Nat := if objKind x = 1 then 416 else 448
def objSum (x : Nat) : Int :=
  let w := bitsAt x 0 (objBits x)
  if w < 2 ^ (objBits x - 1) then w else (w : Int) - 2 ^ objBits x

/-- A flag bit set. -/
def objSet (x i : Nat) : Nat := putBits x i 1 1

/-- W and COUNT after an accepted finite addend, with UF when it was truncated. -/
def objAccept (x : Nat) (w : Int) (uf : Bool) : Nat :=
  let x := putBits x 0 (objBits x) ((objSum x + w) % 2 ^ objBits x).toNat
  let x := putBits x 448 35 (objCount x + 1)
  if uf then objSet x 487 else x

/-- floor((-1)^neg m 2^e), and whether that is inexact; a magnitude far below 1 is not shifted out bit by bit. -/
def floorFin (neg : Bool) (m : Nat) (e : Int) : Int × Bool :=
  if 0 ≤ e then (sgn neg (m * 2 ^ e.toNat), false)
  else if e + (bitLen m : Int) ≤ 0 then (if m = 0 then 0 else if neg then -1 else 0, m != 0)
  else let d := (-e).toNat; (sgn neg m / 2 ^ d, m % 2 ^ d != 0)

/-- An addend x times 2^k performed on an object (02 R63 to R65): a special is taken before any other check; a finite
one is refused for COUNT, for k outside -101 to 0 on X32, for its magnitude on X64. -/
def objAdd (x : Nat) (v : FV) (k : Int) : Nat :=
  if objKind x ≠ 1 ∧ objKind x ≠ 2 then x else
  match v with
  | .nan _ => objSet x 483
  | .inf n => objSet x (if n then 485 else 484)
  | .fin n m e =>
    if objCount x = 2 ^ 35 - 1 then objSet x 486
    else if objKind x = 1 then
      if k < -101 ∨ 0 < k then objSet x 486
      else objAccept x (floorFin n m (if m = 0 then 0 else e + k + 250)).1 false
    else
      let e' := e + k - objAnchor x
      if m ≠ 0 ∧ 412 ≤ floorLog2 m e' then objSet x 486
      else let r := floorFin n m (if m = 0 then 0 else e'); objAccept x r.1 r.2

/-- What `FXRD` reads before its rounding: the value, and the flags its row of 06 R184 gives. -/
def objValue (x : Nat) : FV × Fl :=
  if bitAt x 486 || (bitAt x 484 && bitAt x 485) then (.nan false, fNV)
  else if bitAt x 483 then (.nan false, 0)
  else if bitAt x 484 then (.inf false, 0)
  else if bitAt x 485 then (.inf true, 0)
  else
    let w := objSum x
    (.fin (decide (w < 0)) w.natAbs (if objKind x = 1 then -250 else objAnchor x),
     if objKind x = 2 && bitAt x 487 then fNX else 0)

end Sys2Proof.Machine
end

