-- ==== Sys2Proof/Machine/Bits.lean ====
section
/-! DEFINITION. Bit counts and integer operations on words of any width, shared by the scalar and the lane
instructions (04 Table 4.1, 05 Table 5.4, R143, R144). -/

namespace Sys2Proof.Machine

/-- Number of ones. -/
def popCount {w : Nat} (x : BitVec w) : Nat := ((List.range w).filter fun i => x.getLsbD i).length

/-- Leading zeros; the width for zero. -/
def clzBits {w : Nat} (x : BitVec w) : Nat := w - bitLen x.toNat

/-- Trailing zeros; the width for zero. -/
def ctzBits {w : Nat} (x : BitVec w) : Nat := ((List.range w).find? fun i => x.getLsbD i).getD w

/-- Bits in reverse order. -/
def revBits {w : Nat} (x : BitVec w) : BitVec w :=
  BitVec.ofNat w ((List.range w).foldl (fun a i => if x.getLsbD i then a + 2 ^ (w - 1 - i) else a) 0)

/-- High half of the signed double-width product. -/
def mulhS {w : Nat} (a b : BitVec w) : BitVec w := BitVec.ofInt w (a.toInt * b.toInt / 2 ^ w)

/-- High half of the unsigned double-width product. -/
def mulhU {w : Nat} (a b : BitVec w) : BitVec w := BitVec.ofNat w (a.toNat * b.toNat / 2 ^ w)

/-- The lesser and the greater, compared signed or unsigned. -/
def minS {w : Nat} (a b : BitVec w) : BitVec w := if a.slt b then a else b
def maxS {w : Nat} (a b : BitVec w) : BitVec w := if a.slt b then b else a
def minU {w : Nat} (a b : BitVec w) : BitVec w := if a.ult b then a else b
def maxU {w : Nat} (a b : BitVec w) : BitVec w := if a.ult b then b else a

/-- An integer saturated to the signed range. -/
def satS (w : Nat) (x : Int) : BitVec w := BitVec.ofInt w (max (-(2 ^ (w - 1))) (min (2 ^ (w - 1) - 1) x))

/-- An integer saturated to the unsigned range. -/
def satU (w : Nat) (x : Int) : BitVec w := BitVec.ofInt w (max 0 (min (2 ^ w - 1) x))

/-- Quotient truncated toward zero; all ones for a zero divisor (04 Table 4.1). -/
def quotS (a b : Word64) : Word64 := if b = 0 then BitVec.allOnes 64 else BitVec.ofInt 64 (a.toInt.tdiv b.toInt)
def quotU (a b : Word64) : Word64 := if b = 0 then BitVec.allOnes 64 else BitVec.ofNat 64 (a.toNat / b.toNat)

/-- Remainder with the sign of `a`; `a` for a zero divisor (04 Table 4.1). -/
def remS (a b : Word64) : Word64 := if b = 0 then a else BitVec.ofInt 64 (a.toInt.tmod b.toInt)
def remU (a b : Word64) : Word64 := if b = 0 then a else BitVec.ofNat 64 (a.toNat % b.toNat)

end Sys2Proof.Machine
end

