-- ==== Sys2Proof/Syntax.lean ====
section
/-! DEFINITION. The instructions and device events of the Zeupra ZG8: the word forms of 03 Table 3.1, the operands of
the device events, and the ONE inductive `Instr`, one constructor per row of spec/opcode_table.json. Fields are kept
as the raw bits of the encoding, must-be-zero bits included, since a word with a nonzero must-be-zero field executes
under a fallback of 03 Table 3.15. -/

namespace Sys2Proof

/-- The prefix word (03 R71, Table 3.2). -/
structure Pfx where
  k : BitVec 4
  z : BitVec 1
  rnd : BitVec 3
  vc : BitVec 7
  wa : BitVec 1
  wb : BitVec 1
  scope : BitVec 3
  reuse : BitVec 3
  os : BitVec 2
  deriving DecidableEq, Repr

/-- Lane register form (03 Table 3.1). -/
structure LR where
  vd : BitVec 7
  va : BitVec 7
  vb : BitVec 7
  w : BitVec 1
  deriving DecidableEq, Repr

/-- Lane immediate form. -/
structure LI where
  vd : BitVec 7
  va : BitVec 7
  imm : BitVec 8
  deriving DecidableEq, Repr

/-- Lane memory form. -/
structure LM where
  vd : BitVec 7
  sa : BitVec 6
  vo : BitVec 7
  pol : BitVec 2
  deriving DecidableEq, Repr

/-- Uniform register form. -/
structure UR where
  sd : BitVec 6
  sa : BitVec 6
  sb : BitVec 6
  aux : BitVec 4
  deriving DecidableEq, Repr

/-- Uniform immediate form. -/
structure UI where
  sd : BitVec 6
  imm : BitVec 16
  deriving DecidableEq, Repr

/-- Uniform branch form. -/
structure UB where
  k : BitVec 4
  off : BitVec 18
  deriving DecidableEq, Repr

/-- Uniform engine form. -/
structure UE where
  sd : BitVec 6
  sa : BitVec 6
  eng : BitVec 10
  deriving DecidableEq, Repr

/-- Uniform engine form of `CPYMG`, whose operation [9:7] is the constructor (03 Table 3.13). -/
structure UE7 where
  sd : BitVec 6
  sa : BitVec 6
  eng : BitVec 7
  deriving DecidableEq, Repr

/-- Uniform engine form of `PREF`, whose target [9:8] is the constructor (03 Table 3.13). -/
structure UE8 where
  sd : BitVec 6
  sa : BitVec 6
  eng : BitVec 8
  deriving DecidableEq, Repr

/-- The instructions and device events: one constructor per row of spec/opcode_table.json, those with operands
first, then the device events (their operand is `State.arg`) and the sixteen uniform rows with at most one operand
field (read from the issue record `State.iw`): the Lean runtime gives at most 244 constructors operands of their own. -/
inductive Instr where
  /-- ADD_I32 (R142): Lane wrapping add of signed 32-bit elements; W=1 works on i64 pairs. -/
  | addI32 (p : Option Pfx) (f : LR)
  /-- SUB_I32 (R142): Lane wrapping subtract of signed 32-bit elements; W=1 works on i64 pairs. -/
  | subI32 (p : Option Pfx) (f : LR)
  /-- MUL_I32 (R142): Lane low-half multiply of signed 32-bit elements; W=1 works on i64 pairs. -/
  | mulI32 (p : Option Pfx) (f : LR)
  /-- MULH_I32 (R142): Lane high half of the signed double-width product. -/
  | mulhI32 (p : Option Pfx) (f : LR)
  /-- MIN_I32 (R142): Lane signed minimum. -/
  | minI32 (p : Option Pfx) (f : LR)
  /-- MAX_I32 (R142): Lane signed maximum. -/
  | maxI32 (p : Option Pfx) (f : LR)
  /-- ADDS_I32 (R142): Lane signed saturating add. -/
  | addsI32 (p : Option Pfx) (f : LR)
  /-- SUBS_I32 (R142): Lane signed saturating subtract. -/
  | subsI32 (p : Option Pfx) (f : LR)
  /-- ADD_N32 (R142): Lane wrapping add of unsigned 32-bit elements; W=1 works on n64 pairs. -/
  | addN32 (p : Option Pfx) (f : LR)
  /-- SUB_N32 (R142): Lane wrapping subtract of unsigned elements. -/
  | subN32 (p : Option Pfx) (f : LR)
  /-- MUL_N32 (R142): Lane low-half multiply of unsigned elements. -/
  | mulN32 (p : Option Pfx) (f : LR)
  /-- MULH_N32 (R142): Lane high half of the unsigned double-width product. -/
  | mulhN32 (p : Option Pfx) (f : LR)
  /-- MIN_N32 (R142): Lane unsigned minimum. -/
  | minN32 (p : Option Pfx) (f : LR)
  /-- MAX_N32 (R142): Lane unsigned maximum. -/
  | maxN32 (p : Option Pfx) (f : LR)
  /-- ADDS_N32 (R142): Lane unsigned saturating add. -/
  | addsN32 (p : Option Pfx) (f : LR)
  /-- SUBS_N32 (R142): Lane unsigned saturating subtract, floored at 0. -/
  | subsN32 (p : Option Pfx) (f : LR)
  /-- ADD_I16 (R142): Packed signed i16 add; W=1 packs i8. -/
  | addI16 (p : Option Pfx) (f : LR)
  /-- SUB_I16 (R142): Packed signed subtract. -/
  | subI16 (p : Option Pfx) (f : LR)
  /-- MUL_I16 (R142): Packed signed low-half multiply. -/
  | mulI16 (p : Option Pfx) (f : LR)
  /-- MULH_I16 (R142): Packed signed high-half multiply. -/
  | mulhI16 (p : Option Pfx) (f : LR)
  /-- MIN_I16 (R142): Packed signed minimum. -/
  | minI16 (p : Option Pfx) (f : LR)
  /-- MAX_I16 (R142): Packed signed maximum. -/
  | maxI16 (p : Option Pfx) (f : LR)
  /-- ADDS_I16 (R142): Packed signed saturating add. -/
  | addsI16 (p : Option Pfx) (f : LR)
  /-- SUBS_I16 (R142): Packed signed saturating subtract. -/
  | subsI16 (p : Option Pfx) (f : LR)
  /-- ADD_N16 (R142): Packed unsigned n16 add; W=1 packs n8. -/
  | addN16 (p : Option Pfx) (f : LR)
  /-- SUB_N16 (R142): Packed unsigned subtract. -/
  | subN16 (p : Option Pfx) (f : LR)
  /-- MUL_N16 (R142): Packed unsigned low-half multiply. -/
  | mulN16 (p : Option Pfx) (f : LR)
  /-- MULH_N16 (R142): Packed unsigned high-half multiply. -/
  | mulhN16 (p : Option Pfx) (f : LR)
  /-- MIN_N16 (R142): Packed unsigned minimum. -/
  | minN16 (p : Option Pfx) (f : LR)
  /-- MAX_N16 (R142): Packed unsigned maximum. -/
  | maxN16 (p : Option Pfx) (f : LR)
  /-- ADDS_N16 (R142): Packed unsigned saturating add. -/
  | addsN16 (p : Option Pfx) (f : LR)
  /-- SUBS_N16 (R142): Packed unsigned saturating subtract. -/
  | subsN16 (p : Option Pfx) (f : LR)
  /-- AND_B32 (R143): Lane bitwise AND; W=1 on b64 pairs. -/
  | andB32 (p : Option Pfx) (f : LR)
  /-- OR_B32 (R143): Lane bitwise OR. -/
  | orB32 (p : Option Pfx) (f : LR)
  /-- XOR_B32 (R143): Lane bitwise XOR. -/
  | xorB32 (p : Option Pfx) (f : LR)
  /-- ANDN_B32 (R143): Lane a AND NOT b. -/
  | andnB32 (p : Option Pfx) (f : LR)
  /-- SHL_B32 (R143): Lane shift left by vb's low bits. -/
  | shlB32 (p : Option Pfx) (f : LR)
  /-- SHR_B32 (R143): Lane logical shift right. -/
  | shrB32 (p : Option Pfx) (f : LR)
  /-- SRA_B32 (R143): Lane arithmetic shift right. -/
  | sraB32 (p : Option Pfx) (f : LR)
  /-- ROL_B32 (R143): Lane rotate left. -/
  | rolB32 (p : Option Pfx) (f : LR)
  /-- NOT (R144): Lane bitwise inversion. -/
  | notB (p : Option Pfx) (f : LR)
  /-- POPC (R144): Lane population count. -/
  | popc (p : Option Pfx) (f : LR)
  /-- CLZ (R144): Lane count of leading zeros. -/
  | clz (p : Option Pfx) (f : LR)
  /-- CTZ (R144): Lane count of trailing zeros. -/
  | ctz (p : Option Pfx) (f : LR)
  /-- BREV (R144): Lane bit reversal. -/
  | brev (p : Option Pfx) (f : LR)
  /-- IABS (R144): Lane integer absolute value, wrapping. -/
  | iabs (p : Option Pfx) (f : LR)
  /-- INEG (R144): Lane integer negation, wrapping. -/
  | ineg (p : Option Pfx) (f : LR)
  /-- ICMP_EQ (R145): Lane integer compare for equality, writing 1 or 0. -/
  | icmpEq (p : Option Pfx) (f : LR)
  /-- ICMP_NE (R145): Lane integer compare for inequality. -/
  | icmpNe (p : Option Pfx) (f : LR)
  /-- ICMP_LT_I (R145): Lane signed less-than compare. -/
  | icmpLtI (p : Option Pfx) (f : LR)
  /-- ICMP_LE_I (R145): Lane signed less-or-equal compare. -/
  | icmpLeI (p : Option Pfx) (f : LR)
  /-- ICMP_LT_N (R145): Lane unsigned less-than compare. -/
  | icmpLtN (p : Option Pfx) (f : LR)
  /-- ICMP_LE_N (R145): Lane unsigned less-or-equal compare. -/
  | icmpLeN (p : Option Pfx) (f : LR)
  /-- SEL (R145): Lane select of va or vb by the vc element (vd without prefix). -/
  | selLane (p : Option Pfx) (f : LR)
  /-- ADD_IMM (R146): Lane 32-bit add of a sign-extended imm8. -/
  | addImm (p : Option Pfx) (f : LI)
  /-- MUL_IMM (R146): Lane 32-bit multiply by a sign-extended imm8. -/
  | mulImm (p : Option Pfx) (f : LI)
  /-- AND_IMM (R146): Lane AND with a zero-extended imm8. -/
  | andImm (p : Option Pfx) (f : LI)
  /-- OR_IMM (R146): Lane OR with a zero-extended imm8. -/
  | orImm (p : Option Pfx) (f : LI)
  /-- XOR_IMM (R146): Lane XOR with a zero-extended imm8. -/
  | xorImm (p : Option Pfx) (f : LI)
  /-- SHL_IMM (R146): Lane shift left by imm8[4:0]. -/
  | shlImm (p : Option Pfx) (f : LI)
  /-- SHR_IMM (R146): Lane logical shift right by imm8[4:0]. -/
  | shrImm (p : Option Pfx) (f : LI)
  /-- SRA_IMM (R146): Lane arithmetic shift right by imm8[4:0]. -/
  | sraImm (p : Option Pfx) (f : LI)
  /-- ICMP_EQ_IMM (R146): Lane signed compare with imm8 for equality. -/
  | icmpEqImm (p : Option Pfx) (f : LI)
  /-- ICMP_NE_IMM (R146): Lane compare with imm8 for inequality. -/
  | icmpNeImm (p : Option Pfx) (f : LI)
  /-- ICMP_LT_IMM (R146): Lane signed less-than against imm8. -/
  | icmpLtImm (p : Option Pfx) (f : LI)
  /-- ICMP_LE_IMM (R146): Lane signed less-or-equal against imm8. -/
  | icmpLeImm (p : Option Pfx) (f : LI)
  /-- ICMP_GT_IMM (R146): Lane signed greater-than against imm8. -/
  | icmpGtImm (p : Option Pfx) (f : LI)
  /-- ICMP_GE_IMM (R146): Lane signed greater-or-equal against imm8. -/
  | icmpGeImm (p : Option Pfx) (f : LI)
  /-- MOVI (R146): Writes the sign-extended imm8 to every acting lane. -/
  | movi (p : Option Pfx) (f : LI)
  /-- FADD (R148): Lane FP32 (W=1 FP64) add rounded once. -/
  | fadd (p : Option Pfx) (f : LR)
  /-- FSUB (R148): Lane FP32/FP64 subtract. -/
  | fsub (p : Option Pfx) (f : LR)
  /-- FMUL (R148): Lane FP32/FP64 multiply. -/
  | fmul (p : Option Pfx) (f : LR)
  /-- FMA (R148): Lane fused multiply-add with vd or vc as addend. -/
  | fma (p : Option Pfx) (f : LR)
  /-- FMIN (R149): Lane FP32/FP64 minimum with NaN and signed-zero rules. -/
  | fmin (p : Option Pfx) (f : LR)
  /-- FMAX (R149): Lane FP32/FP64 maximum. -/
  | fmax (p : Option Pfx) (f : LR)
  /-- FABS (R149): Clears the sign bit. -/
  | fabs (p : Option Pfx) (f : LR)
  /-- FNEG (R149): Inverts the sign bit. -/
  | fneg (p : Option Pfx) (f : LR)
  /-- FADD_BF16 (R148): Packed BF16 (W=1 FP16) add. -/
  | faddBf16 (p : Option Pfx) (f : LR)
  /-- FSUB_BF16 (R148): Packed BF16/FP16 subtract. -/
  | fsubBf16 (p : Option Pfx) (f : LR)
  /-- FMUL_BF16 (R148): Packed BF16/FP16 multiply. -/
  | fmulBf16 (p : Option Pfx) (f : LR)
  /-- FMA_BF16 (R148): Packed BF16/FP16 fused multiply-add. -/
  | fmaBf16 (p : Option Pfx) (f : LR)
  /-- FMIN_BF16 (R149): Packed BF16/FP16 minimum. -/
  | fminBf16 (p : Option Pfx) (f : LR)
  /-- FMAX_BF16 (R149): Packed BF16/FP16 maximum. -/
  | fmaxBf16 (p : Option Pfx) (f : LR)
  /-- FABS_BF16 (R149): Packed sign clear. -/
  | fabsBf16 (p : Option Pfx) (f : LR)
  /-- FNEG_BF16 (R149): Packed sign inversion. -/
  | fnegBf16 (p : Option Pfx) (f : LR)
  /-- FCMP_EQ (R151): Lane FP compare equal. -/
  | fcmpEq (p : Option Pfx) (f : LR)
  /-- FCMP_NE (R151): Lane FP compare not equal or unordered. -/
  | fcmpNe (p : Option Pfx) (f : LR)
  /-- FCMP_LT (R151): Lane FP less-than. -/
  | fcmpLt (p : Option Pfx) (f : LR)
  /-- FCMP_LE (R151): Lane FP less-or-equal. -/
  | fcmpLe (p : Option Pfx) (f : LR)
  /-- FCMP_GT (R151): Lane FP greater-than. -/
  | fcmpGt (p : Option Pfx) (f : LR)
  /-- FCMP_GE (R151): Lane FP greater-or-equal. -/
  | fcmpGe (p : Option Pfx) (f : LR)
  /-- FCMP_UN (R151): Lane FP unordered test. -/
  | fcmpUn (p : Option Pfx) (f : LR)
  /-- FCLASS (R152): Writes the class of va as one set bit. -/
  | fclass (p : Option Pfx) (f : LR)
  /-- FADDX (R156): Rounded sum and its exact error as an error pair. -/
  | faddx (p : Option Pfx) (f : LR)
  /-- FSUBX (R156): Rounded difference and its exact error. -/
  | fsubx (p : Option Pfx) (f : LR)
  /-- FMULX (R157): Rounded product and its error. -/
  | fmulx (p : Option Pfx) (f : LR)
  /-- DWADD (R159): Double-word add by the fixed sequence. -/
  | dwadd (p : Option Pfx) (f : LR)
  /-- DWMUL (R159): Double-word multiply. -/
  | dwmul (p : Option Pfx) (f : LR)
  /-- DWFMA (R159): Double-word fused multiply-add. -/
  | dwfma (p : Option Pfx) (f : LR)
  /-- DWDIV (R159): Double-word divide. -/
  | dwdiv (p : Option Pfx) (f : LR)
  /-- DWSQRT (R159): Double-word square root. -/
  | dwsqrt (p : Option Pfx) (f : LR)
  /-- RCP (R162): Correctly rounded reciprocal in the transform pipe. -/
  | rcp (p : Option Pfx) (f : LR)
  /-- RSQ (R162): Correctly rounded reciprocal square root. -/
  | rsq (p : Option Pfx) (f : LR)
  /-- EXP2 (R162): Correctly rounded 2^x. -/
  | exp2 (p : Option Pfx) (f : LR)
  /-- LOG2 (R162): Correctly rounded log2 x. -/
  | log2 (p : Option Pfx) (f : LR)
  /-- SIN (R162): Correctly rounded sine. -/
  | sin (p : Option Pfx) (f : LR)
  /-- COS (R162): Correctly rounded cosine. -/
  | cos (p : Option Pfx) (f : LR)
  /-- GELU (R165): Table-defined GELU activation. -/
  | gelu (p : Option Pfx) (f : LR)
  /-- SILU (R165): Table-defined SiLU activation. -/
  | silu (p : Option Pfx) (f : LR)
  /-- SPLUS (R165): Table-defined softplus activation. -/
  | splus (p : Option Pfx) (f : LR)
  /-- TANH (R165): Table-defined hyperbolic tangent. -/
  | tanh (p : Option Pfx) (f : LR)
  /-- SIGM (R165): Table-defined sigmoid. -/
  | sigm (p : Option Pfx) (f : LR)
  /-- CVT (R154): Per-element format conversion between tag codes. -/
  | cvt (p : Option Pfx) (c : BitVec 3) (f : LR)
  /-- CVTMX (R155): Conversion to or from MX blocks with a scale register; always prefixed. -/
  | cvtmx (p : Option Pfx) (c : BitVec 3) (f : LR)
  /-- MOV (R147): Lane register copy with tag. -/
  | mov (p : Option Pfx) (f : LR)
  /-- MOVS (R147): Broadcasts a scalar to every acting lane. -/
  | movs (p : Option Pfx) (f : LR)
  /-- MOVX (R147): Moves the lowest acting lane's element to a scalar. -/
  | movx (p : Option Pfx) (f : LR)
  /-- IDX (R147): Writes each acting lane its lane number. -/
  | idx (p : Option Pfx) (f : LR)
  /-- BALLOT (R191): Mask of tile positions with nonzero va. -/
  | ballot (p : Option Pfx) (f : LR)
  /-- CRED (R160): Compensated tile reduction into a double-word pair. -/
  | cred (p : Option Pfx) (f : LR)
  /-- TCRED (R161): Compensated team reduction into a scalar pair. -/
  | tcred (p : Option Pfx) (f : LR)
  /-- SHFL_IDX (R189): Pulls va from tile position d mod z. -/
  | shflIdx (p : Option Pfx) (f : LR)
  /-- SHFL_XOR (R189): Pulls va from position p xor d. -/
  | shflXor (p : Option Pfx) (f : LR)
  /-- SHFL_UP (R189): Pulls va from position p - d. -/
  | shflUp (p : Option Pfx) (f : LR)
  /-- SHFL_DN (R189): Pulls va from position p + d. -/
  | shflDn (p : Option Pfx) (f : LR)
  /-- PSHW (R190): Pushes va to a tile position and writes conflict masks. -/
  | pshw (p : Option Pfx) (f : LR)
  /-- VOTE_ANY (R191): 1 if any acting lane of the tile holds nonzero va. -/
  | voteAny (p : Option Pfx) (f : LR)
  /-- VOTE_ALL (R191): 1 if every acting lane of the tile holds nonzero va. -/
  | voteAll (p : Option Pfx) (f : LR)
  /-- VOTE_EQ (R191): Mask of lanes agreeing with this lane under vb. -/
  | voteEq (p : Option Pfx) (f : LR)
  /-- LD (R174): Lane load with vector offsets; type by major bit and type field. -/
  | ld (p : Option Pfx) (ty : BitVec 4) (f : LM)
  /-- ST (R174): Lane store with vector offsets. -/
  | st (p : Option Pfx) (ty : BitVec 4) (f : LM)
  /-- LD_IMM (R173): Lane load at s[sa] + (imm7 + n) x size. -/
  | ldImm (p : Option Pfx) (ty : BitVec 4) (f : LM)
  /-- ST_IMM (R173): Lane store at an immediate offset. -/
  | stImm (p : Option Pfx) (ty : BitVec 4) (f : LM)
  /-- LD_ACQ (R175): Lane load that is an acquire at its scope. -/
  | ldAcq (p : Option Pfx) (ty : BitVec 3) (f : LM)
  /-- ST_REL (R175): Lane store that is a release at its scope. -/
  | stRel (p : Option Pfx) (ty : BitVec 3) (f : LM)
  /-- LDB (R178): Loads MX blocks and their E8M0 scales. -/
  | ldb (p : Option Pfx) (ty : BitVec 3) (f : LM)
  /-- LDW (R179): Loads group-scaled weights expanded to i8 with scales. -/
  | ldw (p : Option Pfx) (ty : BitVec 3) (f : LM)
  /-- LDT (R181): Transposing load from cluster memory. -/
  | ldt (p : Option Pfx) (ty : BitVec 3) (f : LM)
  /-- ATOM_I32 (R182): Lane i32 atomic read-modify-write at the home; op by sub. -/
  | atomI32 (p : Option Pfx) (op : BitVec 3) (f : LM)
  /-- ATOM_N32 (R182): Lane n32 atomic. -/
  | atomN32 (p : Option Pfx) (op : BitVec 3) (f : LM)
  /-- ATOM_I64 (R182): Lane i64 atomic. -/
  | atomI64 (p : Option Pfx) (op : BitVec 3) (f : LM)
  /-- ATOM_N64 (R182): Lane n64 atomic. -/
  | atomN64 (p : Option Pfx) (op : BitVec 3) (f : LM)
  /-- ATOM_CAS (R182): Lane compare-and-swap with the compare value in vc; always prefixed. -/
  | atomCas (p : Option Pfx) (aty : BitVec 2) (f : LM)
  /-- FXACC (R183): Adds FP32 or FP64 lane values to exact accumulator objects. -/
  | fxacc (p : Option Pfx) (t : BitVec 1) (f : LM)
  /-- FXACC_SC (R183): Adds x x 2^k with k from vc; always prefixed. -/
  | fxaccSc (p : Option Pfx) (f : LM)
  /-- FXRD (R184): Reads an accumulator object rounded once. -/
  | fxrd (p : Option Pfx) (t : BitVec 1) (f : LM)
  /-- RWB (R186): Writes back dirty bytes of each lane's range. -/
  | rwb (p : Option Pfx) (f : LM)
  /-- RINV (R186): Writes back and invalidates words of each lane's range. -/
  | rinv (p : Option Pfx) (f : LM)
  /-- RDISC (R186): Discards dirty bytes in range on scratch pages, else acts as RINV. -/
  | rdisc (p : Option Pfx) (f : LM)
  /-- DECODE (R195): Expands a compressed block from cluster memory into vd. -/
  | decode (p : Option Pfx) (f : LM)
  /-- VSAMP_NEAR (R198): Nearest-voxel sample of an FP32 volume. -/
  | vsampNear (p : Option Pfx) (f : LM)
  /-- VSAMP_TRI (R198): Trilinear sample of an FP32 volume rounded once. -/
  | vsampTri (p : Option Pfx) (f : LM)
  /-- RBOX (R201): Ray–box entry and exit distances against one box. -/
  | rbox (p : Option Pfx) (f : LM)
  /-- RBOX_IDX (R201): Ray–box test against a per-lane indexed box. -/
  | rboxIdx (p : Option Pfx) (f : LM)
  /-- SCALAR_ADD (R95): Scalar 64-bit add. -/
  | scalarAdd (f : UR)
  /-- SCALAR_SUB (R95): Scalar subtract. -/
  | scalarSub (f : UR)
  /-- SCALAR_MUL (R95): Scalar low-64 multiply. -/
  | scalarMul (f : UR)
  /-- MULH_I64 (R95): Scalar signed high multiply. -/
  | mulhI64 (f : UR)
  /-- MULH_N64 (R95): Scalar unsigned high multiply. -/
  | mulhN64 (f : UR)
  /-- DIV_I64 (R95): Scalar signed divide that never traps. -/
  | divI64 (f : UR)
  /-- DIV_N64 (R95): Scalar unsigned divide. -/
  | divN64 (f : UR)
  /-- REM_I64 (R95): Scalar signed remainder. -/
  | remI64 (f : UR)
  /-- REM_N64 (R95): Scalar unsigned remainder. -/
  | remN64 (f : UR)
  /-- MIN_I64 (R95): Scalar signed minimum. -/
  | minI64 (f : UR)
  /-- MIN_N64 (R95): Scalar unsigned minimum. -/
  | minN64 (f : UR)
  /-- MAX_I64 (R95): Scalar signed maximum. -/
  | maxI64 (f : UR)
  /-- MAX_N64 (R95): Scalar unsigned maximum. -/
  | maxN64 (f : UR)
  /-- SCALAR_ICMP (R95): Scalar compare named by aux, writing 1 or 0. -/
  | scalarIcmp (f : UR)
  /-- SCALAR_SEL (R95): Scalar select by a condition register s0-s15. -/
  | scalarSel (f : UR)
  /-- SCALAR_AND (R95): Scalar AND. -/
  | scalarAnd (f : UR)
  /-- SCALAR_OR (R95): Scalar OR. -/
  | scalarOr (f : UR)
  /-- SCALAR_XOR (R95): Scalar XOR. -/
  | scalarXor (f : UR)
  /-- SCALAR_ANDN (R95): Scalar a AND NOT b. -/
  | scalarAndn (f : UR)
  /-- SCALAR_SHL (R95): Scalar shift left. -/
  | scalarShl (f : UR)
  /-- SCALAR_SHR (R95): Scalar logical shift right. -/
  | scalarShr (f : UR)
  /-- SCALAR_SRA (R95): Scalar arithmetic shift right. -/
  | scalarSra (f : UR)
  /-- SCALAR_ROL (R95): Scalar rotate left. -/
  | scalarRol (f : UR)
  /-- SCALAR_ADD_IMM (R96): sd += sign-extended imm16. -/
  | scalarAddImm (f : UI)
  /-- SCALAR_MUL_IMM (R96): sd *= sign-extended imm16. -/
  | scalarMulImm (f : UI)
  /-- SCALAR_AND_IMM (R96): sd AND zero-extended imm16. -/
  | scalarAndImm (f : UI)
  /-- SCALAR_OR_IMM (R96): sd OR zero-extended imm16. -/
  | scalarOrImm (f : UI)
  /-- SCALAR_XOR_IMM (R96): sd XOR zero-extended imm16. -/
  | scalarXorImm (f : UI)
  /-- SCALAR_SHL_IMM (R96): sd shifted left by imm16[5:0]. -/
  | scalarShlImm (f : UI)
  /-- SCALAR_SHR_IMM (R96): sd logical shift right by imm16[5:0]. -/
  | scalarShrImm (f : UI)
  /-- SCALAR_SRA_IMM (R96): sd arithmetic shift right by imm16[5:0]. -/
  | scalarSraImm (f : UI)
  /-- MOVL (R96): Sets sd to the sign-extended imm16. -/
  | movl (f : UI)
  /-- MOVH_H1 (R96): Replaces bits [31:16] of sd. -/
  | movhH1 (f : UI)
  /-- MOVH_H2 (R96): Replaces bits [47:32] of sd. -/
  | movhH2 (f : UI)
  /-- MOVH_H3 (R96): Replaces bits [63:48] of sd. -/
  | movhH3 (f : UI)
  /-- SCALAR_MOV (R97): Scalar copy. -/
  | scalarMov (f : UR)
  /-- SCALAR_NOT (R97): Scalar inversion. -/
  | scalarNot (f : UR)
  /-- SCALAR_POPC (R97): Scalar population count. -/
  | scalarPopc (f : UR)
  /-- SCALAR_CLZ (R97): Scalar leading zeros. -/
  | scalarClz (f : UR)
  /-- SCALAR_CTZ (R97): Scalar trailing zeros. -/
  | scalarCtz (f : UR)
  /-- SCALAR_BREV (R97): Scalar bit reversal. -/
  | scalarBrev (f : UR)
  /-- CSRR (R121): Reads a CSR into a scalar. -/
  | csrr (f : UI)
  /-- CSRW (R121): Writes a scalar to a CSR with its field checks. -/
  | csrw (f : UI)
  /-- SCALAR_LD (R98): Scalar load with scope, ordering and policy. -/
  | scalarLd (sc : BitVec 3) (f : UR)
  /-- SCALAR_ST (R98): Scalar store with scope, ordering and policy. -/
  | scalarSt (sc : BitVec 3) (f : UR)
  /-- SCALAR_ATOM_ADD (R100): Scalar atomic add at the home. -/
  | scalarAtomAdd (f : UR)
  /-- SCALAR_ATOM_MIN (R100): Scalar atomic minimum. -/
  | scalarAtomMin (f : UR)
  /-- SCALAR_ATOM_MAX (R100): Scalar atomic maximum. -/
  | scalarAtomMax (f : UR)
  /-- SCALAR_ATOM_AND (R100): Scalar atomic AND. -/
  | scalarAtomAnd (f : UR)
  /-- SCALAR_ATOM_OR (R100): Scalar atomic OR. -/
  | scalarAtomOr (f : UR)
  /-- SCALAR_ATOM_XOR (R100): Scalar atomic XOR. -/
  | scalarAtomXor (f : UR)
  /-- SCALAR_ATOM_XCHG (R100): Scalar atomic exchange. -/
  | scalarAtomXchg (f : UR)
  /-- SCALAR_ATOM_CAS (R100): Scalar compare-and-swap with compare in sd+1. -/
  | scalarAtomCas (f : UR)
  /-- BRA (R107): Uniform branch of the top divergence entry. -/
  | bra (f : UB)
  /-- BRC_EQZ (R107): Branch when s[k] is zero. -/
  | brcEqz (f : UB)
  /-- BRC_NEZ (R107): Branch when s[k] is nonzero. -/
  | brcNez (f : UB)
  /-- BRC_LTZ (R107): Branch when s[k] is negative. -/
  | brcLtz (f : UB)
  /-- BRC_GEZ (R107): Branch when s[k] is not negative. -/
  | brcGez (f : UB)
  /-- BRV (R112): Divergent split of the top entry by a mask, per Table 4.3. -/
  | brv (f : UB)
  /-- BRV_ANY (R113): Uniform branch when any lane of E and k is set. -/
  | brvAny (f : UB)
  /-- BRV_ALL (R113): Uniform branch when all of E is in k. -/
  | brvAll (f : UB)
  /-- BRV_NONE (R113): Uniform branch when no lane of E is in k. -/
  | brvNone (f : UB)
  /-- CALL (R116): Pushes pc+4 on the return stack and jumps. -/
  | call (f : UB)
  /-- REC (R110): Sets the pending reconvergence address rp. -/
  | recMark (f : UB)
  /-- SETM_AND (R119): kd := ka AND kb. -/
  | setmAnd (f : UR)
  /-- SETM_OR (R119): kd := ka OR kb. -/
  | setmOr (f : UR)
  /-- SETM_XOR (R119): kd := ka XOR kb. -/
  | setmXor (f : UR)
  /-- SETM_ANDN (R119): kd := ka AND NOT kb. -/
  | setmAndn (f : UR)
  /-- SETM_NOT (R119): kd := NOT ka. -/
  | setmNot (f : UR)
  /-- SETM_MOV (R119): kd := ka. -/
  | setmMov (f : UR)
  /-- SETM_ALL (R119): kd := all L lanes. -/
  | setmAll (f : UR)
  /-- SETM_NONE (R119): kd := zero. -/
  | setmNone (f : UR)
  /-- GETM (R120): Builds a mask from nonzero va elements of the execute mask. -/
  | getm (f : UI)
  /-- FENCE (R104): Acquire, release or both at a scope. -/
  | fence (f : UR)
  /-- MMA (R208): Adds one 64x64x64 product into an accumulator set. -/
  | mma (sb : BitVec 3) (f : UE)
  /-- MMAG (R213): Ganged matrix product after the rendezvous latch. -/
  | mmag (sb : BitVec 3) (f : UE)
  /-- MDRAIN (R216): Rounds a set once into registers, sets MBOUND and empties the set. -/
  | mdrain (f : UE)
  /-- CPY (R223): Queues a copy command of s[sl] bytes. -/
  | cpy (sc : BitVec 3) (f : UE)
  /-- CPYMG_INJ (R339): Multigrid injection transfer command. -/
  | cpymgInj (sc : BitVec 3) (f : UE7)
  /-- CPYMG_FW (R339): Multigrid full-weighting restriction command. -/
  | cpymgFw (sc : BitVec 3) (f : UE7)
  /-- CPYMG_PRO (R339): Multigrid prolongation command. -/
  | cpymgPro (sc : BitVec 3) (f : UE7)
  /-- CPYMG_PROADD (R339): Prolongation added into the destination. -/
  | cpymgProadd (sc : BitVec 3) (f : UE7)
  /-- CPYMG_CVT (R339): Grid format conversion command. -/
  | cpymgCvt (sc : BitVec 3) (f : UE7)
  /-- CPYRED (R226): Residual-carrying quantised sum across members. -/
  | cpyred (sc : BitVec 3) (f : UE)
  /-- EMIT (R230): Sends one lane record per lane to the gatherer. -/
  | emit (f : UE)
  /-- SPAWN (R229): Appends a launch record to a device-produced queue. -/
  | spawn (f : UE)
  /-- PHARV (R233): Arrives at a phase barrier after the lead check. -/
  | pharv (f : UE)
  /-- PHWAIT (R234): Waits until a phase has completed. -/
  | phwait (f : UE)
  /-- PREF_BW (R236): Hints the migrator to bring a range into the bandwidth tier. -/
  | prefBw (f : UE8)
  /-- PREF_TC (R236): Hints a range into the tier cache. -/
  | prefTc (f : UE8)
  /-- FCTL_RESEED (R59): Writing 1 to FCTL.RS reseeds every lane's stochastic generator. -/
  | fctlReseed
  /-- RET (R116): Pops the return stack into the PC. -/
  | ret
  /-- CALLR (R116): Calls the address in s[sa]. -/
  | callr
  /-- JMPR (R108): Jumps to the address in s[sa]. -/
  | jmpr
  /-- JOIN (R114): Pops the top divergence entry, ending the path. -/
  | join
  /-- END (R115): Ends the team, discards stacks, writes back the stack cache. -/
  | endTeam
  /-- YIELD (R123): Gives other ready teams of the core an issue opportunity. -/
  | yield
  /-- RFT (R131): Returns from a trap handler to TEPC and clears H. -/
  | rft
  /-- TRAP (R130): Raises cause 9 with the code as ARG. -/
  | trapCode
  /-- CALLV (R117): Calls each lane's own target, one target per pass. -/
  | callv
  /-- BAR (R105): Waits for every earlier instruction of the team to retire. -/
  | bar
  /-- CBAR (R106): Arrives at the cluster-group barrier and waits for the generation. -/
  | cbar
  /-- DBAR (R106): Arrives at the die-share barrier and waits. -/
  | dbar
  /-- MZERO (R218): Clears a set to EMPTY. -/
  | mzero
  /-- CPYCLOSE (R221): Closes pending copy commands into a numbered batch. -/
  | cpyclose
  /-- CPYWAIT (R221): Waits until a batch has completed, then acquires. -/
  | cpywait
  /-- PACK (R237): Asks the home to recompress a 256-byte block. -/
  | pack
  /-- PRODUCER_ROW_FULL (R22): A long-latency producer lands a row and marks it full. -/
  | producerRowFull
  /-- MATRIX_COMPLETE (R241): An MMA or MMAG finishes its passes into the set. -/
  | matrixComplete
  /-- GANG_LATCH_COMPLETE (R213): Every gang member has arrived; the ganged operation starts. -/
  | gangLatchComplete
  /-- BARRIER_COMPLETE (R106): Every team has arrived; the generation departs. -/
  | barrierComplete
  /-- COPY_COMMAND_COMPLETE (R219): A copy engine finishes a command, with write-backs and release. -/
  | copyCommandComplete
  /-- CPYRED_CONTRIBUTION (R226): A member receives another member's quantised contribution. -/
  | cpyredContribution
  /-- TEAM_START (R21): A dispatched team becomes resident and starts with its initial state. -/
  | teamStart
  /-- CONTEXT_SAVE (R366): Stops issue, completes in-flight work and writes the frame. -/
  | contextSave
  /-- TEAM_RESTORE (R367): Checks a frame and resumes the team on a core. -/
  | teamRestore
  /-- TIME_SLICE (R357): SLICE expiry with a waiting queue saves a victim and restores the head. -/
  | timeSlice
  /-- TEAM_RETIRE (R231): An ended team retires once batches and children are done, decrementing JOIN. -/
  | teamRetire
  /-- QUEUE_DOORBELL (R347): Host write of a queue TAIL, refused when out of range. -/
  | queueDoorbell
  /-- DISPATCH_DECISION (R349): Chooses and admits a queue's head record for a die with a free slot. -/
  | dispatchDecision
  /-- QUEUE_PROMOTION (R348): Passed-over count reaching 4,096 raises the promotion count. -/
  | queuePromotion
  /-- BIN_FLUSH (R352): Flushes a gatherer bin into a team in a pool slot. -/
  | binFlush
  /-- GATHER_TIMEOUT (R352): GTO expiry flushes a partial bin. -/
  | gatherTimeout
  /-- AGGREGATOR_FLUSH (R354): Flushes an aggregator key into a grid of teams. -/
  | aggregatorFlush
  /-- AGGREGATOR_TIMEOUT (R354): AGTM x GTO expiry flushes an aggregator key. -/
  | aggregatorTimeout
  /-- DRAIN (R360): DRAIN.OP=1 stops dispatch for the scope. -/
  | drain
  /-- DRAIN_ESCALATION (R360): DLIM expiry force-saves the scope's resident teams and flushes bins. -/
  | drainEscalation
  /-- DRAIN_COMPLETE (R360): Releases at system scope and sets DSTAT.DONE. -/
  | drainComplete
  /-- RESUME (R361): DRAIN.OP=2 clears the stop and requeues saved teams. -/
  | resume
  /-- GETH (R288): Home serves a wt load request. -/
  | geth
  /-- GETU (R288): Home serves an si load or store miss. -/
  | getu
  /-- GETT (R288): Home serves a wi load, tracking the sharer. -/
  | gett
  /-- GETO (R289): Home strips, invalidates and grants ownership. -/
  | geto
  /-- OPH (R288): Home performs an atomic, accumulate or amax merge. -/
  | oph
  /-- PACK_MESSAGE (R297): Home strips and recompresses a block. -/
  | packMessage
  /-- PUTP (R288): Home merges a wt store. -/
  | putp
  /-- PUTT (R288): Home merges a wi store and tracks the writer. -/
  | putt
  /-- WB (R292): Home merges written-back dirty bytes and releases words. -/
  | wb
  /-- STRIP (R290): Owner returns dirty bytes and gives up ownership. -/
  | strip
  /-- FLUSH (R286): Owner returns dirty bytes and keeps ownership. -/
  | flush
  /-- INV (R291): Holder drops the named words. -/
  | invMsg
  /-- STRIPACK (R288): Home merges a strip answer. -/
  | stripack
  /-- FLUSHACK (R286): Home merges a flush answer. -/
  | flushack
  /-- INVACK (R288): Home counts an invalidation answer. -/
  | invack
  /-- DATA (R291): Requester receives line data and grants. -/
  | dataMsg
  /-- CMP (R288): Requester receives completion of a put, operation or pack. -/
  | cmpMsg
  /-- DONE (R292): Owner frees its write-back buffer after the home's merge. -/
  | doneMsg
  /-- SNPDATA (R300): Host snoop stripping owned words; proxy state S. -/
  | snpdata
  /-- SNPINV (R300): Host snoop stripping and invalidating; proxy state I. -/
  | snpinv
  /-- SNPCUR (R300): Host snoop flushing owned words for current data. -/
  | snpcur
  /-- CXL_CACHE_RESPONSE (R299): Host answer to a host-proxy D2H request arrives. -/
  | cxlCacheResponse
  /-- MEMRD (R301): CXL.mem host read served as GetT. -/
  | memrd
  /-- MEMWR (R301): CXL.mem host write served as PutP. -/
  | memwr
  /-- BIRSP (R301): Host back-invalidation response counted as an InvAck. -/
  | birsp
  /-- WINDOW_READ (R382): Host read through the window BAR served as GetH. -/
  | windowRead
  /-- WINDOW_WRITE (R382): Host write through the window BAR served as PutP. -/
  | windowWrite
  /-- ROUTE_FAILURE (R302): A pass or col fails; traffic switches route and lost messages are resent. -/
  | routeFailure
  /-- RESEND_TIMEOUT (R302): 32 us without an answer resends an awaited message. -/
  | resendTimeout
  /-- TIER_CACHE_FILL (R310): A tier-cache fill line lands and the waiting access completes. -/
  | tierCacheFill
  /-- HOTNESS_SAMPLE (R320): Countdown expiry samples a request and advances HOT. -/
  | hotnessSample
  /-- HOTNESS_HALVING (R320): SWEEP expiry halves HOT in every tiered leaf. -/
  | hotnessHalving
  /-- THROTTLE_EXPIRY (R325): A throttled page becomes eligible again after THROT. -/
  | throttleExpiry
  /-- MIGRATE_BLOCK (R323): Migrator blocks the page, strips and drops copies. -/
  | migrateBlock
  /-- MIGRATE_COPY (R323): Copies page bytes and metadata after blocking completes. -/
  | migrateCopy
  /-- MIGRATE_MAP (R323): Compare-and-swaps the new leaf and posts an invalidation. -/
  | migrateMap
  /-- MIGRATE_REPLAY (R324): New home serves queued requests and returns the old frame. -/
  | migrateReplay
  /-- FREE_FRAME_RECORD (R322): Migrator takes a free frame from the ring. -/
  | freeFrameRecord
  /-- MIGRATION_REQUEST (R322): Migrator takes a driver migration request. -/
  | migrationRequest
  /-- FAULT_REPLY (R328): Driver retry or abort answer to a fault record. -/
  | faultReply
  /-- INVALIDATION_RECORD (R319): Device takes a translation-invalidation record. -/
  | invalidationRecord
  /-- INVALIDATION_COMPLETE (R319): All effects done; SEQ written to the completion word. -/
  | invalidationComplete
  /-- RING_TAIL_WRITE (R384): Driver TAIL write is a driver-produced ring's doorbell. -/
  | ringTailWrite
  /-- RING_HEAD_WRITE (R384): Driver HEAD write consumes device records and acknowledges errors. -/
  | ringHeadWrite
  /-- DEVICE_ERROR_RECORD (R377): Writes a device error record and its team list when space allows. -/
  | deviceErrorRecord
  /-- CONTROL_REGISTER_WRITE (R383): Host write to a control-block register with no row of its own. -/
  | controlRegisterWrite
  /-- ATTEST_REPORT (R402): Mailbox OP 1: signed attestation report. -/
  | attestReport
  /-- ATTEST_CERT_CHAIN (R402): Mailbox OP 2: certificate chain. -/
  | attestCertChain
  /-- ATTEST_STAGE_IMAGE (R398): Mailbox OP 3: verifies and stages a firmware image. -/
  | attestStageImage
  /-- ATTEST_IDENTITY_KEY (R402): Mailbox OP 4: returns the identity public key. -/
  | attestIdentityKey
  /-- ATTEST_DONE (R402): Mailbox operation completes; DONE and vector 6. -/
  | attestDone
  /-- ABFORT_FLIT_RECEIVE (R392): A port receives a flit, checks CRC, acknowledges or NAKs. -/
  | abfortFlitReceive
  /-- LINK_ACK_TIMEOUT (R392): 100 us without ACK or 16 resends fails the port. -/
  | linkAckTimeout
  /-- PEER_INBOUND_REQUEST (R394): Serves a peer's request within the inbound window. -/
  | peerInboundRequest
  /-- ROW_REMAP (R375): HBM row sparing copy completes and lines unblock. -/
  | rowRemap
  /-- EVACUATION (R373): Saves a failed core's teams and moves them to a spare or other cores. -/
  | evacuation
  /-- DIE_LOST (R376): A compute die is lost; launches end and homes clear its slots. -/
  | dieLost
  /-- POWER_MANAGER_TICK (R396): Every 10 us chooses the arithmetic clock within PLIM. -/
  | powerManagerTick
  /-- COLD_RESET (R389): Power-on: ROM boot, identity key, configuration record. -/
  | coldReset
  /-- HOST_LINK_TRAINED (R389): Host link training ends; configuration requests answered. -/
  | hostLinkTrained
  /-- DIE_SELF_TEST_DONE (R389): Sets CORE and ENG bits of a die. -/
  | dieSelfTestDone
  /-- HBM_TRAINING_DONE (R389): Sets an HBM stack's bit after training and ECC init. -/
  | hbmTrainingDone
  /-- CXL_ENABLE (R389): Host enables CXL.cache and CXL.mem; CXLC and CXLM set. -/
  | cxlEnable
  /-- ABFORT_TRAINING_DONE (R389): A port finishes training; up unless authentication follows. -/
  | abfortTrainingDone
  /-- PEER_AUTHENTICATION (R401): Verifies a peer's report; LINK bit or STATE 4. -/
  | peerAuthentication
  /-- STEPPE_READY (R389): LPDDR 6 training and ECC init end; STEPPE set. -/
  | steppeReady
  /-- FUNCTION_LEVEL_RESET (R390): Ends every launch, cancels copies, resets control registers. -/
  | functionLevelReset
  /-- ILLEGAL_INSTRUCTION (R84): A fetched word that is not an instruction (reserved major, sub or field value, or a prefix followed by a uniform word or a prefix) raises the illegal-instruction trap with no effect. -/
  | illegalInstruction
  /-- FETCH_FAULT (R32): An instruction fetch from the reserved window range, a page without execute right or an absent page raises a protection fault or a page fault at the fetched address. -/
  | fetchFault
  /-- SPDM_REQUEST (R402): An SPDM 1.3 request over DOE sets IDE keys or returns the attestation report as MEASUREMENTS. -/
  | spdmRequest
  /-- CONFIGURATION_REQUEST (R389): A PCI Express configuration request from the host is answered with Configuration Request Retry Status until host link training ends, and normally after it. -/
  | configurationRequest
  deriving DecidableEq, Repr

end Sys2Proof
end

