-- ==== Sys2Proof/WellFormed.lean ====
section
/-! DEFINITION. Well-formedness of an instruction: what 03 Table 3.14 checks on the encoding alone. -/

namespace Sys2Proof

/-- RND 7 and SCOPE 5 to 7 are reserved, whether or not the instruction uses them (03 R84 check 4). -/
def pfxOk (p : Option Pfx) : Bool :=
  match p with
  | none => true
  | some x => x.rnd != 7 && decide (x.scope.toNat < 5)

/-- A scope takes the values 0 to 4 (03 R79). -/
def scopeOk (sc : BitVec 3) : Bool := decide (sc.toNat < 5)

/-- Load and store types: 0 to 5 under the even major, 0 to 6 under the odd one (03 Table 3.5). -/
def typeOk (ty : BitVec 4) : Bool :=
  decide (ty.toNat < 6) || (decide (8 ≤ ty.toNat) && decide (ty.toNat < 15))

/-- The destination code of `CVT` and `CVTMX`: D = sub x 2 + W (03 R78). -/
def cvtD (c : BitVec 3) (f : LR) : Nat := c.toNat * 2 + f.w.toNat

/-- The source code of `CVT` and `CVTMX`: bits [7:4] (03 R78). -/
def cvtS (f : LR) : Nat := (f.vb.extractLsb' 3 4).toNat

/-- `CVT`: D and S lie in 1 to 14, and code 10 is legal only as a source (03 R78). -/
def cvtCodesOk (c : BitVec 3) (f : LR) : Bool :=
  decide (1 ≤ cvtD c f) && decide (cvtD c f ≤ 14) && cvtD c f != 10 &&
  decide (1 ≤ cvtS f) && decide (cvtS f ≤ 14)

/-- The MX element codes 5, 6, 7, 8, 9 and 11 (03 R78). -/
def mxCode (n : Nat) : Bool := (decide (5 ≤ n) && decide (n ≤ 9)) || n == 11

/-- The wide codes `CVTMX` pairs with an MX element: 1, 2, 3 and 4 (03 R78). -/
def wideCode (n : Nat) : Bool := decide (1 ≤ n) && decide (n ≤ 4)

/-- `CVTMX`: exactly one of D and S is an MX element code and the other is a wide code (03 R78). -/
def cvtmxCodesOk (c : BitVec 3) (f : LR) : Bool :=
  (mxCode (cvtD c f) && wideCode (cvtS f)) || (wideCode (cvtD c f) && mxCode (cvtS f))

/-- S is 1 to 9 and FMT is not 15 (03 Table 3.10). -/
def mmaFieldsOk (f : UE) : Bool :=
  decide (1 ≤ (f.eng.extractLsb' 6 4).toNat) && decide ((f.eng.extractLsb' 6 4).toNat ≤ 9) &&
  f.eng.extractLsb' 0 4 != 15

/-- The CSR numbers of 01 Table 1.2. -/
def csrAssigned (n : BitVec 12) : Bool :=
  decide (n.toNat ≤ 3) || (decide (0x10 ≤ n.toNat) && decide (n.toNat ≤ 0x14)) ||
  (decide (0x20 ≤ n.toNat) && decide (n.toNat ≤ 0x23)) ||
  (decide (0x30 ≤ n.toNat) && decide (n.toNat ≤ 0x36)) ||
  (decide (0x40 ≤ n.toNat) && decide (n.toNat ≤ 0x7F))

/-- The CSRs of 01 Table 1.2 whose access is RW or W1C. -/
def csrWritable (n : BitVec 12) : Bool :=
  decide (n.toNat ≤ 2) || (decide (0x10 ≤ n.toNat) && decide (n.toNat ≤ 0x12)) || n == 0x14 ||
  n == 0x20 || n == 0x22

/-- Checks 4 to 6 of 03 Table 3.14 (reserved field values, a required prefix, CSR numbers) and, for a row that
covers several type codes, the codes the opcode map assigns. A device event is always well formed. -/
def Instr.wf (i : Instr) : Bool :=
  match i with
  | .addI32 p _ => pfxOk p
  | .subI32 p _ => pfxOk p
  | .mulI32 p _ => pfxOk p
  | .mulhI32 p _ => pfxOk p
  | .minI32 p _ => pfxOk p
  | .maxI32 p _ => pfxOk p
  | .addsI32 p _ => pfxOk p
  | .subsI32 p _ => pfxOk p
  | .addN32 p _ => pfxOk p
  | .subN32 p _ => pfxOk p
  | .mulN32 p _ => pfxOk p
  | .mulhN32 p _ => pfxOk p
  | .minN32 p _ => pfxOk p
  | .maxN32 p _ => pfxOk p
  | .addsN32 p _ => pfxOk p
  | .subsN32 p _ => pfxOk p
  | .addI16 p _ => pfxOk p
  | .subI16 p _ => pfxOk p
  | .mulI16 p _ => pfxOk p
  | .mulhI16 p _ => pfxOk p
  | .minI16 p _ => pfxOk p
  | .maxI16 p _ => pfxOk p
  | .addsI16 p _ => pfxOk p
  | .subsI16 p _ => pfxOk p
  | .addN16 p _ => pfxOk p
  | .subN16 p _ => pfxOk p
  | .mulN16 p _ => pfxOk p
  | .mulhN16 p _ => pfxOk p
  | .minN16 p _ => pfxOk p
  | .maxN16 p _ => pfxOk p
  | .addsN16 p _ => pfxOk p
  | .subsN16 p _ => pfxOk p
  | .andB32 p _ => pfxOk p
  | .orB32 p _ => pfxOk p
  | .xorB32 p _ => pfxOk p
  | .andnB32 p _ => pfxOk p
  | .shlB32 p _ => pfxOk p
  | .shrB32 p _ => pfxOk p
  | .sraB32 p _ => pfxOk p
  | .rolB32 p _ => pfxOk p
  | .notB p _ => pfxOk p
  | .popc p _ => pfxOk p
  | .clz p _ => pfxOk p
  | .ctz p _ => pfxOk p
  | .brev p _ => pfxOk p
  | .iabs p _ => pfxOk p
  | .ineg p _ => pfxOk p
  | .icmpEq p _ => pfxOk p
  | .icmpNe p _ => pfxOk p
  | .icmpLtI p _ => pfxOk p
  | .icmpLeI p _ => pfxOk p
  | .icmpLtN p _ => pfxOk p
  | .icmpLeN p _ => pfxOk p
  | .selLane p _ => pfxOk p
  | .addImm p _ => pfxOk p
  | .mulImm p _ => pfxOk p
  | .andImm p _ => pfxOk p
  | .orImm p _ => pfxOk p
  | .xorImm p _ => pfxOk p
  | .shlImm p _ => pfxOk p
  | .shrImm p _ => pfxOk p
  | .sraImm p _ => pfxOk p
  | .icmpEqImm p _ => pfxOk p
  | .icmpNeImm p _ => pfxOk p
  | .icmpLtImm p _ => pfxOk p
  | .icmpLeImm p _ => pfxOk p
  | .icmpGtImm p _ => pfxOk p
  | .icmpGeImm p _ => pfxOk p
  | .movi p _ => pfxOk p
  | .fadd p _ => pfxOk p
  | .fsub p _ => pfxOk p
  | .fmul p _ => pfxOk p
  | .fma p _ => pfxOk p
  | .fmin p _ => pfxOk p
  | .fmax p _ => pfxOk p
  | .fabs p _ => pfxOk p
  | .fneg p _ => pfxOk p
  | .faddBf16 p _ => pfxOk p
  | .fsubBf16 p _ => pfxOk p
  | .fmulBf16 p _ => pfxOk p
  | .fmaBf16 p _ => pfxOk p
  | .fminBf16 p _ => pfxOk p
  | .fmaxBf16 p _ => pfxOk p
  | .fabsBf16 p _ => pfxOk p
  | .fnegBf16 p _ => pfxOk p
  | .fcmpEq p _ => pfxOk p
  | .fcmpNe p _ => pfxOk p
  | .fcmpLt p _ => pfxOk p
  | .fcmpLe p _ => pfxOk p
  | .fcmpGt p _ => pfxOk p
  | .fcmpGe p _ => pfxOk p
  | .fcmpUn p _ => pfxOk p
  | .fclass p _ => pfxOk p
  | .faddx p _ => pfxOk p
  | .fsubx p _ => pfxOk p
  | .fmulx p _ => pfxOk p
  | .dwadd p _ => pfxOk p
  | .dwmul p _ => pfxOk p
  | .dwfma p _ => pfxOk p
  | .dwdiv p _ => pfxOk p
  | .dwsqrt p _ => pfxOk p
  | .rcp p _ => pfxOk p
  | .rsq p _ => pfxOk p
  | .exp2 p _ => pfxOk p
  | .log2 p _ => pfxOk p
  | .sin p _ => pfxOk p
  | .cos p _ => pfxOk p
  | .gelu p _ => pfxOk p
  | .silu p _ => pfxOk p
  | .splus p _ => pfxOk p
  | .tanh p _ => pfxOk p
  | .sigm p _ => pfxOk p
  | .cvt p c f => pfxOk p && cvtCodesOk c f
  | .cvtmx p c f => pfxOk p && p.isSome && cvtmxCodesOk c f
  | .mov p _ => pfxOk p
  | .movs p _ => pfxOk p
  | .movx p _ => pfxOk p
  | .idx p _ => pfxOk p
  | .ballot p _ => pfxOk p
  | .cred p _ => pfxOk p
  | .tcred p _ => pfxOk p
  | .shflIdx p _ => pfxOk p
  | .shflXor p _ => pfxOk p
  | .shflUp p _ => pfxOk p
  | .shflDn p _ => pfxOk p
  | .pshw p _ => pfxOk p
  | .voteAny p _ => pfxOk p
  | .voteAll p _ => pfxOk p
  | .voteEq p _ => pfxOk p
  | .ld p ty _ => pfxOk p && typeOk ty
  | .st p ty _ => pfxOk p && typeOk ty
  | .ldImm p ty _ => pfxOk p && typeOk ty
  | .stImm p ty _ => pfxOk p && typeOk ty
  | .ldAcq p ty _ => pfxOk p && decide (ty.toNat < 6)
  | .stRel p ty _ => pfxOk p && decide (ty.toNat < 6)
  | .ldb p ty _ => pfxOk p && decide (ty.toNat < 6)
  | .ldw p ty _ => pfxOk p && ty != 3 && ty != 7
  | .ldt p ty _ => pfxOk p && ty != 7
  | .atomI32 p op _ => pfxOk p && op != 7
  | .atomN32 p op _ => pfxOk p && op != 7
  | .atomI64 p op _ => pfxOk p && op != 7
  | .atomN64 p op _ => pfxOk p && op != 7
  | .atomCas p _ _ => pfxOk p && p.isSome
  | .fxacc p _ _ => pfxOk p
  | .fxaccSc p _ => pfxOk p && p.isSome
  | .fxrd p _ _ => pfxOk p
  | .rwb p _ => pfxOk p
  | .rinv p _ => pfxOk p
  | .rdisc p _ => pfxOk p
  | .decode p _ => pfxOk p
  | .vsampNear p _ => pfxOk p
  | .vsampTri p _ => pfxOk p
  | .rbox p _ => pfxOk p
  | .rboxIdx p _ => pfxOk p
  | .scalarAdd _ => true
  | .scalarSub _ => true
  | .scalarMul _ => true
  | .mulhI64 _ => true
  | .mulhN64 _ => true
  | .divI64 _ => true
  | .divN64 _ => true
  | .remI64 _ => true
  | .remN64 _ => true
  | .minI64 _ => true
  | .minN64 _ => true
  | .maxI64 _ => true
  | .maxN64 _ => true
  | .scalarIcmp f => decide (f.aux.toNat < 6)
  | .scalarSel _ => true
  | .scalarAnd _ => true
  | .scalarOr _ => true
  | .scalarXor _ => true
  | .scalarAndn _ => true
  | .scalarShl _ => true
  | .scalarShr _ => true
  | .scalarSra _ => true
  | .scalarRol _ => true
  | .scalarAddImm _ => true
  | .scalarMulImm _ => true
  | .scalarAndImm _ => true
  | .scalarOrImm _ => true
  | .scalarXorImm _ => true
  | .scalarShlImm _ => true
  | .scalarShrImm _ => true
  | .scalarSraImm _ => true
  | .movl _ => true
  | .movhH1 _ => true
  | .movhH2 _ => true
  | .movhH3 _ => true
  | .scalarMov _ => true
  | .scalarNot _ => true
  | .scalarPopc _ => true
  | .scalarClz _ => true
  | .scalarCtz _ => true
  | .scalarBrev _ => true
  | .csrr f => csrAssigned (f.imm.extractLsb' 0 12)
  | .csrw f => csrWritable (f.imm.extractLsb' 0 12)
  | .scalarLd sc _ => scopeOk sc
  | .scalarSt sc _ => scopeOk sc
  | .scalarAtomAdd f => scopeOk (f.sb.extractLsb' 3 3)
  | .scalarAtomMin f => scopeOk (f.sb.extractLsb' 3 3)
  | .scalarAtomMax f => scopeOk (f.sb.extractLsb' 3 3)
  | .scalarAtomAnd f => scopeOk (f.sb.extractLsb' 3 3)
  | .scalarAtomOr f => scopeOk (f.sb.extractLsb' 3 3)
  | .scalarAtomXor f => scopeOk (f.sb.extractLsb' 3 3)
  | .scalarAtomXchg f => scopeOk (f.sb.extractLsb' 3 3)
  | .scalarAtomCas f => scopeOk (f.sb.extractLsb' 3 3)
  | .bra _ => true
  | .brcEqz _ => true
  | .brcNez _ => true
  | .brcLtz _ => true
  | .brcGez _ => true
  | .brv _ => true
  | .brvAny _ => true
  | .brvAll _ => true
  | .brvNone _ => true
  | .call _ => true
  | .recMark _ => true
  | .setmAnd _ => true
  | .setmOr _ => true
  | .setmXor _ => true
  | .setmAndn _ => true
  | .setmNot _ => true
  | .setmMov _ => true
  | .setmAll _ => true
  | .setmNone _ => true
  | .getm _ => true
  | .fence f => f.sb.extractLsb' 0 2 != 0 && scopeOk (f.aux.extractLsb' 0 3)
  | .mma _ f => mmaFieldsOk f
  | .mmag _ f => mmaFieldsOk f
  | .mdrain f => decide ((f.eng.extractLsb' 7 3).toNat < 6) && f.eng.extractLsb' 4 3 != 7
  | .cpy sc _ => scopeOk sc
  | .cpymgInj sc f => scopeOk sc && f.eng.extractLsb' 5 2 != 3 && f.eng.extractLsb' 2 3 != 7
  | .cpymgFw sc f => scopeOk sc && f.eng.extractLsb' 5 2 != 3 && f.eng.extractLsb' 2 3 != 7
  | .cpymgPro sc f => scopeOk sc && f.eng.extractLsb' 5 2 != 3 && f.eng.extractLsb' 2 3 != 7
  | .cpymgProadd sc f => scopeOk sc && f.eng.extractLsb' 5 2 != 3 && f.eng.extractLsb' 2 3 != 7
  | .cpymgCvt sc f => scopeOk sc && f.eng.extractLsb' 5 2 != 3 && f.eng.extractLsb' 2 3 != 7
  | .cpyred sc f => scopeOk sc && decide ((f.eng.extractLsb' 6 4).toNat < 6)
  | .emit _ => true
  | .spawn _ => true
  | .pharv _ => true
  | .phwait _ => true
  | .prefBw _ => true
  | .prefTc _ => true
  | .fctlReseed => true
  | .ret => true
  | .callr => true
  | .jmpr => true
  | .join => true
  | .endTeam => true
  | .yield => true
  | .rft => true
  | .trapCode => true
  | .callv => true
  | .bar => true
  | .cbar => true
  | .dbar => true
  | .mzero => true
  | .cpyclose => true
  | .cpywait => true
  | .pack => true
  | .producerRowFull => true
  | .matrixComplete => true
  | .gangLatchComplete => true
  | .barrierComplete => true
  | .copyCommandComplete => true
  | .cpyredContribution => true
  | .teamStart => true
  | .contextSave => true
  | .teamRestore => true
  | .timeSlice => true
  | .teamRetire => true
  | .queueDoorbell => true
  | .dispatchDecision => true
  | .queuePromotion => true
  | .binFlush => true
  | .gatherTimeout => true
  | .aggregatorFlush => true
  | .aggregatorTimeout => true
  | .drain => true
  | .drainEscalation => true
  | .drainComplete => true
  | .resume => true
  | .geth => true
  | .getu => true
  | .gett => true
  | .geto => true
  | .oph => true
  | .packMessage => true
  | .putp => true
  | .putt => true
  | .wb => true
  | .strip => true
  | .flush => true
  | .invMsg => true
  | .stripack => true
  | .flushack => true
  | .invack => true
  | .dataMsg => true
  | .cmpMsg => true
  | .doneMsg => true
  | .snpdata => true
  | .snpinv => true
  | .snpcur => true
  | .cxlCacheResponse => true
  | .memrd => true
  | .memwr => true
  | .birsp => true
  | .windowRead => true
  | .windowWrite => true
  | .routeFailure => true
  | .resendTimeout => true
  | .tierCacheFill => true
  | .hotnessSample => true
  | .hotnessHalving => true
  | .throttleExpiry => true
  | .migrateBlock => true
  | .migrateCopy => true
  | .migrateMap => true
  | .migrateReplay => true
  | .freeFrameRecord => true
  | .migrationRequest => true
  | .faultReply => true
  | .invalidationRecord => true
  | .invalidationComplete => true
  | .ringTailWrite => true
  | .ringHeadWrite => true
  | .deviceErrorRecord => true
  | .controlRegisterWrite => true
  | .attestReport => true
  | .attestCertChain => true
  | .attestStageImage => true
  | .attestIdentityKey => true
  | .attestDone => true
  | .abfortFlitReceive => true
  | .linkAckTimeout => true
  | .peerInboundRequest => true
  | .rowRemap => true
  | .evacuation => true
  | .dieLost => true
  | .powerManagerTick => true
  | .coldReset => true
  | .hostLinkTrained => true
  | .dieSelfTestDone => true
  | .hbmTrainingDone => true
  | .cxlEnable => true
  | .abfortTrainingDone => true
  | .peerAuthentication => true
  | .steppeReady => true
  | .functionLevelReset => true
  | .illegalInstruction => true
  | .fetchFault => true
  | .spdmRequest => true
  | .configurationRequest => true

end Sys2Proof
end

