-- ==== Sys2Proof/Decode.lean ====
section
/-! DEFINITION. Decoding and encoding of instruction words (03 R68 to R83). The decoder reads two words, so that a
prefix and its lane word are one instruction; it refuses, by name, what checks 1 to 3 of 03 Table 3.14 refuse and
what no constructor stands for. Checks 4 to 8 are made by the instruction's meaning. -/

namespace Sys2Proof

/-- Why two words are no instruction (03 Table 3.14). -/
inductive DecodeError where
  /-- check 1: a prefix is followed by a uniform word or by a prefix -/
  | prefixNotBound
  /-- check 2: the major is reserved -/
  | reservedMajor
  /-- check 3: the sub, type or cond value is reserved for the major -/
  | reservedSub
  /-- check 4, where the reserved field is part of the opcode: a `CPYMG` operation or a `PREF` target -/
  | reservedField
  deriving DecidableEq, Repr

/-! ### Fields of a word (03 Table 3.1) -/

def setOf (w : Word32) : BitVec 1 := w.extractLsb' 31 1
def majorOf (w : Word32) : BitVec 6 := w.extractLsb' 25 6
def subOf (w : Word32) : BitVec 3 := w.extractLsb' 22 3
/-- Bit [22], the type bit of `FXACC` and `FXRD`. -/
def bitOf (w : Word32) : BitVec 1 := w.extractLsb' 22 1
/-- The 4-bit type of a load or store: the low bit of the major, then the type field. -/
def tyOf (b : BitVec 1) (w : Word32) : BitVec 4 := b ++ subOf w

def lrOf (w : Word32) : LR := ⟨w.extractLsb' 15 7, w.extractLsb' 8 7, w.extractLsb' 1 7, w.extractLsb' 0 1⟩
def liOf (w : Word32) : LI := ⟨w.extractLsb' 15 7, w.extractLsb' 8 7, w.extractLsb' 0 8⟩
def lmOf (w : Word32) : LM := ⟨w.extractLsb' 15 7, w.extractLsb' 9 6, w.extractLsb' 2 7, w.extractLsb' 0 2⟩
def urOf (w : Word32) : UR := ⟨w.extractLsb' 16 6, w.extractLsb' 10 6, w.extractLsb' 4 6, w.extractLsb' 0 4⟩
def uiOf (w : Word32) : UI := ⟨w.extractLsb' 16 6, w.extractLsb' 0 16⟩
def ubOf (w : Word32) : UB := ⟨w.extractLsb' 18 4, w.extractLsb' 0 18⟩
def ueOf (w : Word32) : UE := ⟨w.extractLsb' 16 6, w.extractLsb' 10 6, w.extractLsb' 0 10⟩
def ue7Of (w : Word32) : UE7 := ⟨w.extractLsb' 16 6, w.extractLsb' 10 6, w.extractLsb' 0 7⟩
def ue8Of (w : Word32) : UE8 := ⟨w.extractLsb' 16 6, w.extractLsb' 10 6, w.extractLsb' 0 8⟩

/-- The fields of a prefix word (03 Table 3.2). -/
def pfxOf (w : Word32) : Pfx :=
  ⟨w.extractLsb' 21 4, w.extractLsb' 20 1, w.extractLsb' 17 3, w.extractLsb' 10 7, w.extractLsb' 9 1,
   w.extractLsb' 8 1, w.extractLsb' 5 3, w.extractLsb' 2 3, w.extractLsb' 0 2⟩

/-- A prefix word: lane set, major 0x3F (03 R71). -/
def isPrefix (w : Word32) : Bool := setOf w == 0 && majorOf w == 0x3F

/-- Lane major 0x01 (03 Table 3.5). -/
def decLane01 (p : Option Pfx) (w : Word32) : Except DecodeError Instr :=
  match (subOf w).toNat with
  | 0 => .ok (.addI32 p (lrOf w))
  | 1 => .ok (.subI32 p (lrOf w))
  | 2 => .ok (.mulI32 p (lrOf w))
  | 3 => .ok (.mulhI32 p (lrOf w))
  | 4 => .ok (.minI32 p (lrOf w))
  | 5 => .ok (.maxI32 p (lrOf w))
  | 6 => .ok (.addsI32 p (lrOf w))
  | 7 => .ok (.subsI32 p (lrOf w))
  | _ => .error .reservedSub

/-- Lane major 0x02 (03 Table 3.5). -/
def decLane02 (p : Option Pfx) (w : Word32) : Except DecodeError Instr :=
  match (subOf w).toNat with
  | 0 => .ok (.addN32 p (lrOf w))
  | 1 => .ok (.subN32 p (lrOf w))
  | 2 => .ok (.mulN32 p (lrOf w))
  | 3 => .ok (.mulhN32 p (lrOf w))
  | 4 => .ok (.minN32 p (lrOf w))
  | 5 => .ok (.maxN32 p (lrOf w))
  | 6 => .ok (.addsN32 p (lrOf w))
  | 7 => .ok (.subsN32 p (lrOf w))
  | _ => .error .reservedSub

/-- Lane major 0x03 (03 Table 3.5). -/
def decLane03 (p : Option Pfx) (w : Word32) : Except DecodeError Instr :=
  match (subOf w).toNat with
  | 0 => .ok (.addI16 p (lrOf w))
  | 1 => .ok (.subI16 p (lrOf w))
  | 2 => .ok (.mulI16 p (lrOf w))
  | 3 => .ok (.mulhI16 p (lrOf w))
  | 4 => .ok (.minI16 p (lrOf w))
  | 5 => .ok (.maxI16 p (lrOf w))
  | 6 => .ok (.addsI16 p (lrOf w))
  | 7 => .ok (.subsI16 p (lrOf w))
  | _ => .error .reservedSub

/-- Lane major 0x04 (03 Table 3.5). -/
def decLane04 (p : Option Pfx) (w : Word32) : Except DecodeError Instr :=
  match (subOf w).toNat with
  | 0 => .ok (.addN16 p (lrOf w))
  | 1 => .ok (.subN16 p (lrOf w))
  | 2 => .ok (.mulN16 p (lrOf w))
  | 3 => .ok (.mulhN16 p (lrOf w))
  | 4 => .ok (.minN16 p (lrOf w))
  | 5 => .ok (.maxN16 p (lrOf w))
  | 6 => .ok (.addsN16 p (lrOf w))
  | 7 => .ok (.subsN16 p (lrOf w))
  | _ => .error .reservedSub

/-- Lane major 0x05 (03 Table 3.5). -/
def decLane05 (p : Option Pfx) (w : Word32) : Except DecodeError Instr :=
  match (subOf w).toNat with
  | 0 => .ok (.andB32 p (lrOf w))
  | 1 => .ok (.orB32 p (lrOf w))
  | 2 => .ok (.xorB32 p (lrOf w))
  | 3 => .ok (.andnB32 p (lrOf w))
  | 4 => .ok (.shlB32 p (lrOf w))
  | 5 => .ok (.shrB32 p (lrOf w))
  | 6 => .ok (.sraB32 p (lrOf w))
  | 7 => .ok (.rolB32 p (lrOf w))
  | _ => .error .reservedSub

/-- Lane major 0x06 (03 Table 3.5). -/
def decLane06 (p : Option Pfx) (w : Word32) : Except DecodeError Instr :=
  match (subOf w).toNat with
  | 0 => .ok (.notB p (lrOf w))
  | 1 => .ok (.popc p (lrOf w))
  | 2 => .ok (.clz p (lrOf w))
  | 3 => .ok (.ctz p (lrOf w))
  | 4 => .ok (.brev p (lrOf w))
  | 5 => .ok (.iabs p (lrOf w))
  | 6 => .ok (.ineg p (lrOf w))
  | _ => .error .reservedSub

/-- Lane major 0x07 (03 Table 3.5). -/
def decLane07 (p : Option Pfx) (w : Word32) : Except DecodeError Instr :=
  match (subOf w).toNat with
  | 0 => .ok (.icmpEq p (lrOf w))
  | 1 => .ok (.icmpNe p (lrOf w))
  | 2 => .ok (.icmpLtI p (lrOf w))
  | 3 => .ok (.icmpLeI p (lrOf w))
  | 4 => .ok (.icmpLtN p (lrOf w))
  | 5 => .ok (.icmpLeN p (lrOf w))
  | 6 => .ok (.selLane p (lrOf w))
  | _ => .error .reservedSub

/-- Lane major 0x08 (03 Table 3.5). -/
def decLane08 (p : Option Pfx) (w : Word32) : Except DecodeError Instr :=
  match (subOf w).toNat with
  | 0 => .ok (.addImm p (liOf w))
  | 1 => .ok (.mulImm p (liOf w))
  | 2 => .ok (.andImm p (liOf w))
  | 3 => .ok (.orImm p (liOf w))
  | 4 => .ok (.xorImm p (liOf w))
  | 5 => .ok (.shlImm p (liOf w))
  | 6 => .ok (.shrImm p (liOf w))
  | 7 => .ok (.sraImm p (liOf w))
  | _ => .error .reservedSub

/-- Lane major 0x09 (03 Table 3.5). -/
def decLane09 (p : Option Pfx) (w : Word32) : Except DecodeError Instr :=
  match (subOf w).toNat with
  | 0 => .ok (.icmpEqImm p (liOf w))
  | 1 => .ok (.icmpNeImm p (liOf w))
  | 2 => .ok (.icmpLtImm p (liOf w))
  | 3 => .ok (.icmpLeImm p (liOf w))
  | 4 => .ok (.icmpGtImm p (liOf w))
  | 5 => .ok (.icmpGeImm p (liOf w))
  | 6 => .ok (.movi p (liOf w))
  | _ => .error .reservedSub

/-- Lane major 0x10 (03 Table 3.5). -/
def decLane10 (p : Option Pfx) (w : Word32) : Except DecodeError Instr :=
  match (subOf w).toNat with
  | 0 => .ok (.fadd p (lrOf w))
  | 1 => .ok (.fsub p (lrOf w))
  | 2 => .ok (.fmul p (lrOf w))
  | 3 => .ok (.fma p (lrOf w))
  | 4 => .ok (.fmin p (lrOf w))
  | 5 => .ok (.fmax p (lrOf w))
  | 6 => .ok (.fabs p (lrOf w))
  | 7 => .ok (.fneg p (lrOf w))
  | _ => .error .reservedSub

/-- Lane major 0x11 (03 Table 3.5). -/
def decLane11 (p : Option Pfx) (w : Word32) : Except DecodeError Instr :=
  match (subOf w).toNat with
  | 0 => .ok (.faddBf16 p (lrOf w))
  | 1 => .ok (.fsubBf16 p (lrOf w))
  | 2 => .ok (.fmulBf16 p (lrOf w))
  | 3 => .ok (.fmaBf16 p (lrOf w))
  | 4 => .ok (.fminBf16 p (lrOf w))
  | 5 => .ok (.fmaxBf16 p (lrOf w))
  | 6 => .ok (.fabsBf16 p (lrOf w))
  | 7 => .ok (.fnegBf16 p (lrOf w))
  | _ => .error .reservedSub

/-- Lane major 0x12 (03 Table 3.5). -/
def decLane12 (p : Option Pfx) (w : Word32) : Except DecodeError Instr :=
  match (subOf w).toNat with
  | 0 => .ok (.fcmpEq p (lrOf w))
  | 1 => .ok (.fcmpNe p (lrOf w))
  | 2 => .ok (.fcmpLt p (lrOf w))
  | 3 => .ok (.fcmpLe p (lrOf w))
  | 4 => .ok (.fcmpGt p (lrOf w))
  | 5 => .ok (.fcmpGe p (lrOf w))
  | 6 => .ok (.fcmpUn p (lrOf w))
  | 7 => .ok (.fclass p (lrOf w))
  | _ => .error .reservedSub

/-- Lane major 0x13 (03 Table 3.5). -/
def decLane13 (p : Option Pfx) (w : Word32) : Except DecodeError Instr :=
  match (subOf w).toNat with
  | 0 => .ok (.faddx p (lrOf w))
  | 1 => .ok (.fsubx p (lrOf w))
  | 2 => .ok (.fmulx p (lrOf w))
  | 3 => .ok (.dwadd p (lrOf w))
  | 4 => .ok (.dwmul p (lrOf w))
  | 5 => .ok (.dwfma p (lrOf w))
  | 6 => .ok (.dwdiv p (lrOf w))
  | 7 => .ok (.dwsqrt p (lrOf w))
  | _ => .error .reservedSub

/-- Lane major 0x14 (03 Table 3.5). -/
def decLane14 (p : Option Pfx) (w : Word32) : Except DecodeError Instr :=
  match (subOf w).toNat with
  | 0 => .ok (.rcp p (lrOf w))
  | 1 => .ok (.rsq p (lrOf w))
  | 2 => .ok (.exp2 p (lrOf w))
  | 3 => .ok (.log2 p (lrOf w))
  | 4 => .ok (.sin p (lrOf w))
  | 5 => .ok (.cos p (lrOf w))
  | _ => .error .reservedSub

/-- Lane major 0x15 (03 Table 3.5). -/
def decLane15 (p : Option Pfx) (w : Word32) : Except DecodeError Instr :=
  match (subOf w).toNat with
  | 0 => .ok (.gelu p (lrOf w))
  | 1 => .ok (.silu p (lrOf w))
  | 2 => .ok (.splus p (lrOf w))
  | 3 => .ok (.tanh p (lrOf w))
  | 4 => .ok (.sigm p (lrOf w))
  | _ => .error .reservedSub

/-- Lane major 0x16 (03 Table 3.5). -/
def decLane16 (p : Option Pfx) (w : Word32) : Except DecodeError Instr :=
  .ok (.cvt p (subOf w) (lrOf w))

/-- Lane major 0x17 (03 Table 3.5). -/
def decLane17 (p : Option Pfx) (w : Word32) : Except DecodeError Instr :=
  .ok (.cvtmx p (subOf w) (lrOf w))

/-- Lane major 0x18 (03 Table 3.5). -/
def decLane18 (p : Option Pfx) (w : Word32) : Except DecodeError Instr :=
  match (subOf w).toNat with
  | 0 => .ok (.mov p (lrOf w))
  | 1 => .ok (.movs p (lrOf w))
  | 2 => .ok (.movx p (lrOf w))
  | 3 => .ok (.idx p (lrOf w))
  | 4 => .ok (.ballot p (lrOf w))
  | 5 => .ok (.cred p (lrOf w))
  | 6 => .ok (.tcred p (lrOf w))
  | _ => .error .reservedSub

/-- Lane major 0x19 (03 Table 3.5). -/
def decLane19 (p : Option Pfx) (w : Word32) : Except DecodeError Instr :=
  match (subOf w).toNat with
  | 0 => .ok (.shflIdx p (lrOf w))
  | 1 => .ok (.shflXor p (lrOf w))
  | 2 => .ok (.shflUp p (lrOf w))
  | 3 => .ok (.shflDn p (lrOf w))
  | 4 => .ok (.pshw p (lrOf w))
  | 5 => .ok (.voteAny p (lrOf w))
  | 6 => .ok (.voteAll p (lrOf w))
  | 7 => .ok (.voteEq p (lrOf w))
  | _ => .error .reservedSub

/-- Lane major 0x20 (03 Table 3.5). -/
def decLane20 (p : Option Pfx) (w : Word32) : Except DecodeError Instr :=
  match (subOf w).toNat with
  | 0 => .ok (.ld p (tyOf 0 w) (lmOf w))
  | 1 => .ok (.ld p (tyOf 0 w) (lmOf w))
  | 2 => .ok (.ld p (tyOf 0 w) (lmOf w))
  | 3 => .ok (.ld p (tyOf 0 w) (lmOf w))
  | 4 => .ok (.ld p (tyOf 0 w) (lmOf w))
  | 5 => .ok (.ld p (tyOf 0 w) (lmOf w))
  | _ => .error .reservedSub

/-- Lane major 0x21 (03 Table 3.5). -/
def decLane21 (p : Option Pfx) (w : Word32) : Except DecodeError Instr :=
  match (subOf w).toNat with
  | 0 => .ok (.ld p (tyOf 1 w) (lmOf w))
  | 1 => .ok (.ld p (tyOf 1 w) (lmOf w))
  | 2 => .ok (.ld p (tyOf 1 w) (lmOf w))
  | 3 => .ok (.ld p (tyOf 1 w) (lmOf w))
  | 4 => .ok (.ld p (tyOf 1 w) (lmOf w))
  | 5 => .ok (.ld p (tyOf 1 w) (lmOf w))
  | 6 => .ok (.ld p (tyOf 1 w) (lmOf w))
  | _ => .error .reservedSub

/-- Lane major 0x22 (03 Table 3.5). -/
def decLane22 (p : Option Pfx) (w : Word32) : Except DecodeError Instr :=
  match (subOf w).toNat with
  | 0 => .ok (.st p (tyOf 0 w) (lmOf w))
  | 1 => .ok (.st p (tyOf 0 w) (lmOf w))
  | 2 => .ok (.st p (tyOf 0 w) (lmOf w))
  | 3 => .ok (.st p (tyOf 0 w) (lmOf w))
  | 4 => .ok (.st p (tyOf 0 w) (lmOf w))
  | 5 => .ok (.st p (tyOf 0 w) (lmOf w))
  | _ => .error .reservedSub

/-- Lane major 0x23 (03 Table 3.5). -/
def decLane23 (p : Option Pfx) (w : Word32) : Except DecodeError Instr :=
  match (subOf w).toNat with
  | 0 => .ok (.st p (tyOf 1 w) (lmOf w))
  | 1 => .ok (.st p (tyOf 1 w) (lmOf w))
  | 2 => .ok (.st p (tyOf 1 w) (lmOf w))
  | 3 => .ok (.st p (tyOf 1 w) (lmOf w))
  | 4 => .ok (.st p (tyOf 1 w) (lmOf w))
  | 5 => .ok (.st p (tyOf 1 w) (lmOf w))
  | 6 => .ok (.st p (tyOf 1 w) (lmOf w))
  | _ => .error .reservedSub

/-- Lane major 0x24 (03 Table 3.5). -/
def decLane24 (p : Option Pfx) (w : Word32) : Except DecodeError Instr :=
  match (subOf w).toNat with
  | 0 => .ok (.ldImm p (tyOf 0 w) (lmOf w))
  | 1 => .ok (.ldImm p (tyOf 0 w) (lmOf w))
  | 2 => .ok (.ldImm p (tyOf 0 w) (lmOf w))
  | 3 => .ok (.ldImm p (tyOf 0 w) (lmOf w))
  | 4 => .ok (.ldImm p (tyOf 0 w) (lmOf w))
  | 5 => .ok (.ldImm p (tyOf 0 w) (lmOf w))
  | _ => .error .reservedSub

/-- Lane major 0x25 (03 Table 3.5). -/
def decLane25 (p : Option Pfx) (w : Word32) : Except DecodeError Instr :=
  match (subOf w).toNat with
  | 0 => .ok (.ldImm p (tyOf 1 w) (lmOf w))
  | 1 => .ok (.ldImm p (tyOf 1 w) (lmOf w))
  | 2 => .ok (.ldImm p (tyOf 1 w) (lmOf w))
  | 3 => .ok (.ldImm p (tyOf 1 w) (lmOf w))
  | 4 => .ok (.ldImm p (tyOf 1 w) (lmOf w))
  | 5 => .ok (.ldImm p (tyOf 1 w) (lmOf w))
  | 6 => .ok (.ldImm p (tyOf 1 w) (lmOf w))
  | _ => .error .reservedSub

/-- Lane major 0x26 (03 Table 3.5). -/
def decLane26 (p : Option Pfx) (w : Word32) : Except DecodeError Instr :=
  match (subOf w).toNat with
  | 0 => .ok (.stImm p (tyOf 0 w) (lmOf w))
  | 1 => .ok (.stImm p (tyOf 0 w) (lmOf w))
  | 2 => .ok (.stImm p (tyOf 0 w) (lmOf w))
  | 3 => .ok (.stImm p (tyOf 0 w) (lmOf w))
  | 4 => .ok (.stImm p (tyOf 0 w) (lmOf w))
  | 5 => .ok (.stImm p (tyOf 0 w) (lmOf w))
  | _ => .error .reservedSub

/-- Lane major 0x27 (03 Table 3.5). -/
def decLane27 (p : Option Pfx) (w : Word32) : Except DecodeError Instr :=
  match (subOf w).toNat with
  | 0 => .ok (.stImm p (tyOf 1 w) (lmOf w))
  | 1 => .ok (.stImm p (tyOf 1 w) (lmOf w))
  | 2 => .ok (.stImm p (tyOf 1 w) (lmOf w))
  | 3 => .ok (.stImm p (tyOf 1 w) (lmOf w))
  | 4 => .ok (.stImm p (tyOf 1 w) (lmOf w))
  | 5 => .ok (.stImm p (tyOf 1 w) (lmOf w))
  | 6 => .ok (.stImm p (tyOf 1 w) (lmOf w))
  | _ => .error .reservedSub

/-- Lane major 0x28 (03 Table 3.5). -/
def decLane28 (p : Option Pfx) (w : Word32) : Except DecodeError Instr :=
  match (subOf w).toNat with
  | 0 => .ok (.ldAcq p (subOf w) (lmOf w))
  | 1 => .ok (.ldAcq p (subOf w) (lmOf w))
  | 2 => .ok (.ldAcq p (subOf w) (lmOf w))
  | 3 => .ok (.ldAcq p (subOf w) (lmOf w))
  | 4 => .ok (.ldAcq p (subOf w) (lmOf w))
  | 5 => .ok (.ldAcq p (subOf w) (lmOf w))
  | _ => .error .reservedSub

/-- Lane major 0x29 (03 Table 3.5). -/
def decLane29 (p : Option Pfx) (w : Word32) : Except DecodeError Instr :=
  match (subOf w).toNat with
  | 0 => .ok (.stRel p (subOf w) (lmOf w))
  | 1 => .ok (.stRel p (subOf w) (lmOf w))
  | 2 => .ok (.stRel p (subOf w) (lmOf w))
  | 3 => .ok (.stRel p (subOf w) (lmOf w))
  | 4 => .ok (.stRel p (subOf w) (lmOf w))
  | 5 => .ok (.stRel p (subOf w) (lmOf w))
  | _ => .error .reservedSub

/-- Lane major 0x2A (03 Table 3.5). -/
def decLane2A (p : Option Pfx) (w : Word32) : Except DecodeError Instr :=
  match (subOf w).toNat with
  | 0 => .ok (.ldb p (subOf w) (lmOf w))
  | 1 => .ok (.ldb p (subOf w) (lmOf w))
  | 2 => .ok (.ldb p (subOf w) (lmOf w))
  | 3 => .ok (.ldb p (subOf w) (lmOf w))
  | 4 => .ok (.ldb p (subOf w) (lmOf w))
  | 5 => .ok (.ldb p (subOf w) (lmOf w))
  | _ => .error .reservedSub

/-- Lane major 0x2B (03 Table 3.5). -/
def decLane2B (p : Option Pfx) (w : Word32) : Except DecodeError Instr :=
  match (subOf w).toNat with
  | 0 => .ok (.ldw p (subOf w) (lmOf w))
  | 1 => .ok (.ldw p (subOf w) (lmOf w))
  | 2 => .ok (.ldw p (subOf w) (lmOf w))
  | 4 => .ok (.ldw p (subOf w) (lmOf w))
  | 5 => .ok (.ldw p (subOf w) (lmOf w))
  | 6 => .ok (.ldw p (subOf w) (lmOf w))
  | _ => .error .reservedSub

/-- Lane major 0x2C (03 Table 3.5). -/
def decLane2C (p : Option Pfx) (w : Word32) : Except DecodeError Instr :=
  match (subOf w).toNat with
  | 0 => .ok (.ldt p (subOf w) (lmOf w))
  | 1 => .ok (.ldt p (subOf w) (lmOf w))
  | 2 => .ok (.ldt p (subOf w) (lmOf w))
  | 3 => .ok (.ldt p (subOf w) (lmOf w))
  | 4 => .ok (.ldt p (subOf w) (lmOf w))
  | 5 => .ok (.ldt p (subOf w) (lmOf w))
  | 6 => .ok (.ldt p (subOf w) (lmOf w))
  | _ => .error .reservedSub

/-- Lane major 0x2D (03 Table 3.5). -/
def decLane2D (p : Option Pfx) (w : Word32) : Except DecodeError Instr :=
  match (subOf w).toNat with
  | 0 => .ok (.atomI32 p (subOf w) (lmOf w))
  | 1 => .ok (.atomI32 p (subOf w) (lmOf w))
  | 2 => .ok (.atomI32 p (subOf w) (lmOf w))
  | 3 => .ok (.atomI32 p (subOf w) (lmOf w))
  | 4 => .ok (.atomI32 p (subOf w) (lmOf w))
  | 5 => .ok (.atomI32 p (subOf w) (lmOf w))
  | 6 => .ok (.atomI32 p (subOf w) (lmOf w))
  | 7 => .ok (.atomCas p 0 (lmOf w))
  | _ => .error .reservedSub

/-- Lane major 0x2E (03 Table 3.5). -/
def decLane2E (p : Option Pfx) (w : Word32) : Except DecodeError Instr :=
  match (subOf w).toNat with
  | 0 => .ok (.atomN32 p (subOf w) (lmOf w))
  | 1 => .ok (.atomN32 p (subOf w) (lmOf w))
  | 2 => .ok (.atomN32 p (subOf w) (lmOf w))
  | 3 => .ok (.atomN32 p (subOf w) (lmOf w))
  | 4 => .ok (.atomN32 p (subOf w) (lmOf w))
  | 5 => .ok (.atomN32 p (subOf w) (lmOf w))
  | 6 => .ok (.atomN32 p (subOf w) (lmOf w))
  | 7 => .ok (.atomCas p 1 (lmOf w))
  | _ => .error .reservedSub

/-- Lane major 0x2F (03 Table 3.5). -/
def decLane2F (p : Option Pfx) (w : Word32) : Except DecodeError Instr :=
  match (subOf w).toNat with
  | 0 => .ok (.atomI64 p (subOf w) (lmOf w))
  | 1 => .ok (.atomI64 p (subOf w) (lmOf w))
  | 2 => .ok (.atomI64 p (subOf w) (lmOf w))
  | 3 => .ok (.atomI64 p (subOf w) (lmOf w))
  | 4 => .ok (.atomI64 p (subOf w) (lmOf w))
  | 5 => .ok (.atomI64 p (subOf w) (lmOf w))
  | 6 => .ok (.atomI64 p (subOf w) (lmOf w))
  | 7 => .ok (.atomCas p 2 (lmOf w))
  | _ => .error .reservedSub

/-- Lane major 0x30 (03 Table 3.5). -/
def decLane30 (p : Option Pfx) (w : Word32) : Except DecodeError Instr :=
  match (subOf w).toNat with
  | 0 => .ok (.atomN64 p (subOf w) (lmOf w))
  | 1 => .ok (.atomN64 p (subOf w) (lmOf w))
  | 2 => .ok (.atomN64 p (subOf w) (lmOf w))
  | 3 => .ok (.atomN64 p (subOf w) (lmOf w))
  | 4 => .ok (.atomN64 p (subOf w) (lmOf w))
  | 5 => .ok (.atomN64 p (subOf w) (lmOf w))
  | 6 => .ok (.atomN64 p (subOf w) (lmOf w))
  | 7 => .ok (.atomCas p 3 (lmOf w))
  | _ => .error .reservedSub

/-- Lane major 0x31 (03 Table 3.5). -/
def decLane31 (p : Option Pfx) (w : Word32) : Except DecodeError Instr :=
  match (subOf w).toNat with
  | 0 => .ok (.fxacc p (bitOf w) (lmOf w))
  | 1 => .ok (.fxacc p (bitOf w) (lmOf w))
  | 2 => .ok (.fxaccSc p (lmOf w))
  | 4 => .ok (.fxrd p (bitOf w) (lmOf w))
  | 5 => .ok (.fxrd p (bitOf w) (lmOf w))
  | _ => .error .reservedSub

/-- Lane major 0x32 (03 Table 3.5). -/
def decLane32 (p : Option Pfx) (w : Word32) : Except DecodeError Instr :=
  match (subOf w).toNat with
  | 0 => .ok (.rwb p (lmOf w))
  | 1 => .ok (.rinv p (lmOf w))
  | 2 => .ok (.rdisc p (lmOf w))
  | _ => .error .reservedSub

/-- Lane major 0x33 (03 Table 3.5). -/
def decLane33 (p : Option Pfx) (w : Word32) : Except DecodeError Instr :=
  match (subOf w).toNat with
  | 0 => .ok (.decode p (lmOf w))
  | _ => .error .reservedSub

/-- Lane major 0x34 (03 Table 3.5). -/
def decLane34 (p : Option Pfx) (w : Word32) : Except DecodeError Instr :=
  match (subOf w).toNat with
  | 0 => .ok (.vsampNear p (lmOf w))
  | 1 => .ok (.vsampTri p (lmOf w))
  | _ => .error .reservedSub

/-- Lane major 0x35 (03 Table 3.5). -/
def decLane35 (p : Option Pfx) (w : Word32) : Except DecodeError Instr :=
  match (subOf w).toNat with
  | 0 => .ok (.rbox p (lmOf w))
  | 1 => .ok (.rboxIdx p (lmOf w))
  | _ => .error .reservedSub

/-- A lane word by its major (03 Table 3.5); every major not listed is reserved. -/
def decLane (p : Option Pfx) (w : Word32) : Except DecodeError Instr :=
  match (majorOf w).toNat with
  | 0x01 => decLane01 p w
  | 0x02 => decLane02 p w
  | 0x03 => decLane03 p w
  | 0x04 => decLane04 p w
  | 0x05 => decLane05 p w
  | 0x06 => decLane06 p w
  | 0x07 => decLane07 p w
  | 0x08 => decLane08 p w
  | 0x09 => decLane09 p w
  | 0x10 => decLane10 p w
  | 0x11 => decLane11 p w
  | 0x12 => decLane12 p w
  | 0x13 => decLane13 p w
  | 0x14 => decLane14 p w
  | 0x15 => decLane15 p w
  | 0x16 => decLane16 p w
  | 0x17 => decLane17 p w
  | 0x18 => decLane18 p w
  | 0x19 => decLane19 p w
  | 0x20 => decLane20 p w
  | 0x21 => decLane21 p w
  | 0x22 => decLane22 p w
  | 0x23 => decLane23 p w
  | 0x24 => decLane24 p w
  | 0x25 => decLane25 p w
  | 0x26 => decLane26 p w
  | 0x27 => decLane27 p w
  | 0x28 => decLane28 p w
  | 0x29 => decLane29 p w
  | 0x2A => decLane2A p w
  | 0x2B => decLane2B p w
  | 0x2C => decLane2C p w
  | 0x2D => decLane2D p w
  | 0x2E => decLane2E p w
  | 0x2F => decLane2F p w
  | 0x30 => decLane30 p w
  | 0x31 => decLane31 p w
  | 0x32 => decLane32 p w
  | 0x33 => decLane33 p w
  | 0x34 => decLane34 p w
  | 0x35 => decLane35 p w
  | _ => .error .reservedMajor

/-- Uniform major 0x01 (03 Table 3.8). -/
def decUniform01 (w : Word32) : Except DecodeError Instr :=
  match (subOf w).toNat with
  | 0 => .ok (.scalarAdd (urOf w))
  | 1 => .ok (.scalarSub (urOf w))
  | 2 => .ok (.scalarMul (urOf w))
  | 3 => .ok (.mulhI64 (urOf w))
  | 4 => .ok (.mulhN64 (urOf w))
  | 5 => .ok (.divI64 (urOf w))
  | 6 => .ok (.divN64 (urOf w))
  | 7 => .ok (.remI64 (urOf w))
  | _ => .error .reservedSub

/-- Uniform major 0x02 (03 Table 3.8). -/
def decUniform02 (w : Word32) : Except DecodeError Instr :=
  match (subOf w).toNat with
  | 0 => .ok (.remN64 (urOf w))
  | 1 => .ok (.minI64 (urOf w))
  | 2 => .ok (.minN64 (urOf w))
  | 3 => .ok (.maxI64 (urOf w))
  | 4 => .ok (.maxN64 (urOf w))
  | 5 => .ok (.scalarIcmp (urOf w))
  | 6 => .ok (.scalarSel (urOf w))
  | _ => .error .reservedSub

/-- Uniform major 0x03 (03 Table 3.8). -/
def decUniform03 (w : Word32) : Except DecodeError Instr :=
  match (subOf w).toNat with
  | 0 => .ok (.scalarAnd (urOf w))
  | 1 => .ok (.scalarOr (urOf w))
  | 2 => .ok (.scalarXor (urOf w))
  | 3 => .ok (.scalarAndn (urOf w))
  | 4 => .ok (.scalarShl (urOf w))
  | 5 => .ok (.scalarShr (urOf w))
  | 6 => .ok (.scalarSra (urOf w))
  | 7 => .ok (.scalarRol (urOf w))
  | _ => .error .reservedSub

/-- Uniform major 0x04 (03 Table 3.8). -/
def decUniform04 (w : Word32) : Except DecodeError Instr :=
  match (subOf w).toNat with
  | 0 => .ok (.scalarAddImm (uiOf w))
  | 1 => .ok (.scalarMulImm (uiOf w))
  | 2 => .ok (.scalarAndImm (uiOf w))
  | 3 => .ok (.scalarOrImm (uiOf w))
  | 4 => .ok (.scalarXorImm (uiOf w))
  | 5 => .ok (.scalarShlImm (uiOf w))
  | 6 => .ok (.scalarShrImm (uiOf w))
  | 7 => .ok (.scalarSraImm (uiOf w))
  | _ => .error .reservedSub

/-- Uniform major 0x05 (03 Table 3.8). -/
def decUniform05 (w : Word32) : Except DecodeError Instr :=
  match (subOf w).toNat with
  | 0 => .ok (.movl (uiOf w))
  | 1 => .ok (.movhH1 (uiOf w))
  | 2 => .ok (.movhH2 (uiOf w))
  | 3 => .ok (.movhH3 (uiOf w))
  | _ => .error .reservedSub

/-- Uniform major 0x06 (03 Table 3.8). -/
def decUniform06 (w : Word32) : Except DecodeError Instr :=
  match (subOf w).toNat with
  | 0 => .ok (.scalarMov (urOf w))
  | 1 => .ok (.scalarNot (urOf w))
  | 2 => .ok (.scalarPopc (urOf w))
  | 3 => .ok (.scalarClz (urOf w))
  | 4 => .ok (.scalarCtz (urOf w))
  | 5 => .ok (.scalarBrev (urOf w))
  | _ => .error .reservedSub

/-- Uniform major 0x07 (03 Table 3.8). -/
def decUniform07 (w : Word32) : Except DecodeError Instr :=
  match (subOf w).toNat with
  | 0 => .ok (.csrr (uiOf w))
  | 1 => .ok (.csrw (uiOf w))
  | _ => .error .reservedSub

/-- Uniform major 0x08 (03 Table 3.8). -/
def decUniform08 (w : Word32) : Except DecodeError Instr :=
  .ok (.scalarLd (subOf w) (urOf w))

/-- Uniform major 0x09 (03 Table 3.8). -/
def decUniform09 (w : Word32) : Except DecodeError Instr :=
  .ok (.scalarSt (subOf w) (urOf w))

/-- Uniform major 0x0A (03 Table 3.8). -/
def decUniform0A (w : Word32) : Except DecodeError Instr :=
  match (subOf w).toNat with
  | 0 => .ok (.scalarAtomAdd (urOf w))
  | 1 => .ok (.scalarAtomMin (urOf w))
  | 2 => .ok (.scalarAtomMax (urOf w))
  | 3 => .ok (.scalarAtomAnd (urOf w))
  | 4 => .ok (.scalarAtomOr (urOf w))
  | 5 => .ok (.scalarAtomXor (urOf w))
  | 6 => .ok (.scalarAtomXchg (urOf w))
  | 7 => .ok (.scalarAtomCas (urOf w))
  | _ => .error .reservedSub

/-- Uniform major 0x10 (03 Table 3.8). -/
def decUniform10 (w : Word32) : Except DecodeError Instr :=
  match (subOf w).toNat with
  | 0 => .ok (.bra (ubOf w))
  | 1 => .ok (.brcEqz (ubOf w))
  | 2 => .ok (.brcNez (ubOf w))
  | 3 => .ok (.brcLtz (ubOf w))
  | 4 => .ok (.brcGez (ubOf w))
  | _ => .error .reservedSub

/-- Uniform major 0x11 (03 Table 3.8). -/
def decUniform11 (w : Word32) : Except DecodeError Instr :=
  match (subOf w).toNat with
  | 0 => .ok (.brv (ubOf w))
  | 1 => .ok (.brvAny (ubOf w))
  | 2 => .ok (.brvAll (ubOf w))
  | 3 => .ok (.brvNone (ubOf w))
  | _ => .error .reservedSub

/-- Uniform major 0x12 (03 Table 3.8). -/
def decUniform12 (w : Word32) : Except DecodeError Instr :=
  match (subOf w).toNat with
  | 0 => .ok (.call (ubOf w))
  | _ => .error .reservedSub

/-- Uniform major 0x13 (03 Table 3.8). -/
def decUniform13 (w : Word32) : Except DecodeError Instr :=
  match (subOf w).toNat with
  | 0 => .ok (.recMark (ubOf w))
  | _ => .error .reservedSub

/-- Uniform major 0x14 (03 Table 3.8). -/
def decUniform14 (w : Word32) : Except DecodeError Instr :=
  match (subOf w).toNat with
  | 0 => .ok (.ret )
  | 1 => .ok (.callr )
  | 2 => .ok (.jmpr )
  | 3 => .ok (.join )
  | 4 => .ok (.endTeam )
  | 5 => .ok (.yield )
  | 6 => .ok (.rft )
  | _ => .error .reservedSub

/-- Uniform major 0x15 (03 Table 3.8). -/
def decUniform15 (w : Word32) : Except DecodeError Instr :=
  match (subOf w).toNat with
  | 0 => .ok (.trapCode )
  | _ => .error .reservedSub

/-- Uniform major 0x16 (03 Table 3.8). -/
def decUniform16 (w : Word32) : Except DecodeError Instr :=
  match (subOf w).toNat with
  | 0 => .ok (.callv )
  | _ => .error .reservedSub

/-- Uniform major 0x17 (03 Table 3.8). -/
def decUniform17 (w : Word32) : Except DecodeError Instr :=
  match (subOf w).toNat with
  | 0 => .ok (.setmAnd (urOf w))
  | 1 => .ok (.setmOr (urOf w))
  | 2 => .ok (.setmXor (urOf w))
  | 3 => .ok (.setmAndn (urOf w))
  | 4 => .ok (.setmNot (urOf w))
  | 5 => .ok (.setmMov (urOf w))
  | 6 => .ok (.setmAll (urOf w))
  | 7 => .ok (.setmNone (urOf w))
  | _ => .error .reservedSub

/-- Uniform major 0x18 (03 Table 3.8). -/
def decUniform18 (w : Word32) : Except DecodeError Instr :=
  match (subOf w).toNat with
  | 0 => .ok (.getm (uiOf w))
  | _ => .error .reservedSub

/-- Uniform major 0x19 (03 Table 3.8). -/
def decUniform19 (w : Word32) : Except DecodeError Instr :=
  match (subOf w).toNat with
  | 0 => .ok (.fence (urOf w))
  | 1 => .ok (.bar )
  | 2 => .ok (.cbar )
  | 3 => .ok (.dbar )
  | _ => .error .reservedSub

/-- Uniform major 0x20 (03 Table 3.8). -/
def decUniform20 (w : Word32) : Except DecodeError Instr :=
  .ok (.mma (subOf w) (ueOf w))

/-- Uniform major 0x21 (03 Table 3.8). -/
def decUniform21 (w : Word32) : Except DecodeError Instr :=
  .ok (.mmag (subOf w) (ueOf w))

/-- Uniform major 0x22 (03 Table 3.8). -/
def decUniform22 (w : Word32) : Except DecodeError Instr :=
  match (subOf w).toNat with
  | 0 => .ok (.mdrain (ueOf w))
  | _ => .error .reservedSub

/-- Uniform major 0x23 (03 Table 3.8). -/
def decUniform23 (w : Word32) : Except DecodeError Instr :=
  match (subOf w).toNat with
  | 0 => .ok (.mzero )
  | _ => .error .reservedSub

/-- Uniform major 0x24 (03 Table 3.8). -/
def decUniform24 (w : Word32) : Except DecodeError Instr :=
  .ok (.cpy (subOf w) (ueOf w))

/-- Uniform major 0x25 (03 Table 3.8). -/
def decUniform25 (w : Word32) : Except DecodeError Instr :=
  match (ueOf w).eng.extractLsb' 7 3 |>.toNat with
  | 0 => .ok (.cpymgInj (subOf w) (ue7Of w))
  | 1 => .ok (.cpymgFw (subOf w) (ue7Of w))
  | 2 => .ok (.cpymgPro (subOf w) (ue7Of w))
  | 3 => .ok (.cpymgProadd (subOf w) (ue7Of w))
  | 4 => .ok (.cpymgCvt (subOf w) (ue7Of w))
  | _ => .error .reservedField

/-- Uniform major 0x26 (03 Table 3.8). -/
def decUniform26 (w : Word32) : Except DecodeError Instr :=
  .ok (.cpyred (subOf w) (ueOf w))

/-- Uniform major 0x27 (03 Table 3.8). -/
def decUniform27 (w : Word32) : Except DecodeError Instr :=
  match (subOf w).toNat with
  | 0 => .ok (.cpyclose )
  | 1 => .ok (.cpywait )
  | _ => .error .reservedSub

/-- Uniform major 0x28 (03 Table 3.8). -/
def decUniform28 (w : Word32) : Except DecodeError Instr :=
  match (subOf w).toNat with
  | 0 => .ok (.emit (ueOf w))
  | 1 => .ok (.spawn (ueOf w))
  | 2 => .ok (.pharv (ueOf w))
  | 3 => .ok (.phwait (ueOf w))
  | 5 => .ok (.pack )
  | 4 =>
    match (ueOf w).eng.extractLsb' 8 2 |>.toNat with
    | 0 => .ok (.prefBw (ue8Of w))
    | 1 => .ok (.prefTc (ue8Of w))
    | _ => .error .reservedField
  | _ => .error .reservedSub

/-- A uniform word by its major (03 Table 3.8); every major not listed is reserved. -/
def decUniform (w : Word32) : Except DecodeError Instr :=
  match (majorOf w).toNat with
  | 0x01 => decUniform01 w
  | 0x02 => decUniform02 w
  | 0x03 => decUniform03 w
  | 0x04 => decUniform04 w
  | 0x05 => decUniform05 w
  | 0x06 => decUniform06 w
  | 0x07 => decUniform07 w
  | 0x08 => decUniform08 w
  | 0x09 => decUniform09 w
  | 0x0A => decUniform0A w
  | 0x10 => decUniform10 w
  | 0x11 => decUniform11 w
  | 0x12 => decUniform12 w
  | 0x13 => decUniform13 w
  | 0x14 => decUniform14 w
  | 0x15 => decUniform15 w
  | 0x16 => decUniform16 w
  | 0x17 => decUniform17 w
  | 0x18 => decUniform18 w
  | 0x19 => decUniform19 w
  | 0x20 => decUniform20 w
  | 0x21 => decUniform21 w
  | 0x22 => decUniform22 w
  | 0x23 => decUniform23 w
  | 0x24 => decUniform24 w
  | 0x25 => decUniform25 w
  | 0x26 => decUniform26 w
  | 0x27 => decUniform27 w
  | 0x28 => decUniform28 w
  | _ => .error .reservedMajor

/-- One word, under the prefix before it if there is one. -/
def decodeWord (p : Option Pfx) (w : Word32) : Except DecodeError Instr :=
  if setOf w == 0 then decLane p w else decUniform w

/-- The instruction that starts at word `w0`, `w1` being the word after it, with its length in bytes (03 R68, R72,
R84 check 1). -/
def decodeWords (w0 w1 : Word32) : Except DecodeError (Instr × Nat) :=
  if isPrefix w0 then
    if isPrefix w1 || setOf w1 == 1 then .error .prefixNotBound
    else (decodeWord (some (pfxOf w0)) w1).map fun i => (i, 8)
  else (decodeWord none w0).map fun i => (i, 4)

/-- A word from its four bytes, little-endian (03 R68). -/
def wordFromBytes (b0 b1 b2 b3 : Byte) : Word32 := b3 ++ b2 ++ b1 ++ b0

/-- The decoder on memory bytes: the first eight bytes at the instruction's address, missing ones reading zero. -/
def decodeBytes (bs : List Byte) : Except DecodeError (Instr × Nat) :=
  decodeWords (wordFromBytes (bs.getD 0 0) (bs.getD 1 0) (bs.getD 2 0) (bs.getD 3 0))
    (wordFromBytes (bs.getD 4 0) (bs.getD 5 0) (bs.getD 6 0) (bs.getD 7 0))

/-! ### Encoding -/

def LR.bits (f : LR) : BitVec 22 := f.vd ++ f.va ++ f.vb ++ f.w
def LI.bits (f : LI) : BitVec 22 := f.vd ++ f.va ++ f.imm
def LM.bits (f : LM) : BitVec 22 := f.vd ++ f.sa ++ f.vo ++ f.pol
def UR.bits (f : UR) : BitVec 22 := f.sd ++ f.sa ++ f.sb ++ f.aux
def UI.bits (f : UI) : BitVec 22 := f.sd ++ f.imm
def UB.bits (f : UB) : BitVec 22 := f.k ++ f.off
def UE.bits (f : UE) : BitVec 22 := f.sd ++ f.sa ++ f.eng
def UE7.bits (f : UE7) (op : BitVec 3) : BitVec 22 := f.sd ++ f.sa ++ op ++ f.eng
def UE8.bits (f : UE8) (op : BitVec 2) : BitVec 22 := f.sd ++ f.sa ++ op ++ f.eng

/-- A word from its set, major, sub and the 22 bits below them (03 Table 3.1). -/
def wordOf (set : BitVec 1) (major : BitVec 6) (sub : BitVec 3) (body : BitVec 22) : Word32 :=
  set ++ major ++ sub ++ body

/-- The prefix word (03 Table 3.2). -/
def Pfx.word (p : Pfx) : Word32 :=
  (0 : BitVec 1) ++ (0x3F : BitVec 6) ++ p.k ++ p.z ++ p.rnd ++ p.vc ++ p.wa ++ p.wb ++ p.scope ++ p.reuse ++ p.os

/-- A lane word with its prefix before it. -/
def withPrefix (p : Option Pfx) (w : Word32) : List Word32 :=
  match p with
  | none => [w]
  | some x => [x.word, w]

/-- The words of an instruction (03 Tables 3.1, 3.5, 3.8): the prefix if there is one, then the word. A
device event has none; a row whose operands stand in the issue record gives its word with those fields zero. -/
def encode (i : Instr) : List Word32 :=
  match i with
  | .addI32 p f => withPrefix p (wordOf 0 1 0 f.bits)
  | .subI32 p f => withPrefix p (wordOf 0 1 1 f.bits)
  | .mulI32 p f => withPrefix p (wordOf 0 1 2 f.bits)
  | .mulhI32 p f => withPrefix p (wordOf 0 1 3 f.bits)
  | .minI32 p f => withPrefix p (wordOf 0 1 4 f.bits)
  | .maxI32 p f => withPrefix p (wordOf 0 1 5 f.bits)
  | .addsI32 p f => withPrefix p (wordOf 0 1 6 f.bits)
  | .subsI32 p f => withPrefix p (wordOf 0 1 7 f.bits)
  | .addN32 p f => withPrefix p (wordOf 0 2 0 f.bits)
  | .subN32 p f => withPrefix p (wordOf 0 2 1 f.bits)
  | .mulN32 p f => withPrefix p (wordOf 0 2 2 f.bits)
  | .mulhN32 p f => withPrefix p (wordOf 0 2 3 f.bits)
  | .minN32 p f => withPrefix p (wordOf 0 2 4 f.bits)
  | .maxN32 p f => withPrefix p (wordOf 0 2 5 f.bits)
  | .addsN32 p f => withPrefix p (wordOf 0 2 6 f.bits)
  | .subsN32 p f => withPrefix p (wordOf 0 2 7 f.bits)
  | .addI16 p f => withPrefix p (wordOf 0 3 0 f.bits)
  | .subI16 p f => withPrefix p (wordOf 0 3 1 f.bits)
  | .mulI16 p f => withPrefix p (wordOf 0 3 2 f.bits)
  | .mulhI16 p f => withPrefix p (wordOf 0 3 3 f.bits)
  | .minI16 p f => withPrefix p (wordOf 0 3 4 f.bits)
  | .maxI16 p f => withPrefix p (wordOf 0 3 5 f.bits)
  | .addsI16 p f => withPrefix p (wordOf 0 3 6 f.bits)
  | .subsI16 p f => withPrefix p (wordOf 0 3 7 f.bits)
  | .addN16 p f => withPrefix p (wordOf 0 4 0 f.bits)
  | .subN16 p f => withPrefix p (wordOf 0 4 1 f.bits)
  | .mulN16 p f => withPrefix p (wordOf 0 4 2 f.bits)
  | .mulhN16 p f => withPrefix p (wordOf 0 4 3 f.bits)
  | .minN16 p f => withPrefix p (wordOf 0 4 4 f.bits)
  | .maxN16 p f => withPrefix p (wordOf 0 4 5 f.bits)
  | .addsN16 p f => withPrefix p (wordOf 0 4 6 f.bits)
  | .subsN16 p f => withPrefix p (wordOf 0 4 7 f.bits)
  | .andB32 p f => withPrefix p (wordOf 0 5 0 f.bits)
  | .orB32 p f => withPrefix p (wordOf 0 5 1 f.bits)
  | .xorB32 p f => withPrefix p (wordOf 0 5 2 f.bits)
  | .andnB32 p f => withPrefix p (wordOf 0 5 3 f.bits)
  | .shlB32 p f => withPrefix p (wordOf 0 5 4 f.bits)
  | .shrB32 p f => withPrefix p (wordOf 0 5 5 f.bits)
  | .sraB32 p f => withPrefix p (wordOf 0 5 6 f.bits)
  | .rolB32 p f => withPrefix p (wordOf 0 5 7 f.bits)
  | .notB p f => withPrefix p (wordOf 0 6 0 f.bits)
  | .popc p f => withPrefix p (wordOf 0 6 1 f.bits)
  | .clz p f => withPrefix p (wordOf 0 6 2 f.bits)
  | .ctz p f => withPrefix p (wordOf 0 6 3 f.bits)
  | .brev p f => withPrefix p (wordOf 0 6 4 f.bits)
  | .iabs p f => withPrefix p (wordOf 0 6 5 f.bits)
  | .ineg p f => withPrefix p (wordOf 0 6 6 f.bits)
  | .icmpEq p f => withPrefix p (wordOf 0 7 0 f.bits)
  | .icmpNe p f => withPrefix p (wordOf 0 7 1 f.bits)
  | .icmpLtI p f => withPrefix p (wordOf 0 7 2 f.bits)
  | .icmpLeI p f => withPrefix p (wordOf 0 7 3 f.bits)
  | .icmpLtN p f => withPrefix p (wordOf 0 7 4 f.bits)
  | .icmpLeN p f => withPrefix p (wordOf 0 7 5 f.bits)
  | .selLane p f => withPrefix p (wordOf 0 7 6 f.bits)
  | .addImm p f => withPrefix p (wordOf 0 8 0 f.bits)
  | .mulImm p f => withPrefix p (wordOf 0 8 1 f.bits)
  | .andImm p f => withPrefix p (wordOf 0 8 2 f.bits)
  | .orImm p f => withPrefix p (wordOf 0 8 3 f.bits)
  | .xorImm p f => withPrefix p (wordOf 0 8 4 f.bits)
  | .shlImm p f => withPrefix p (wordOf 0 8 5 f.bits)
  | .shrImm p f => withPrefix p (wordOf 0 8 6 f.bits)
  | .sraImm p f => withPrefix p (wordOf 0 8 7 f.bits)
  | .icmpEqImm p f => withPrefix p (wordOf 0 9 0 f.bits)
  | .icmpNeImm p f => withPrefix p (wordOf 0 9 1 f.bits)
  | .icmpLtImm p f => withPrefix p (wordOf 0 9 2 f.bits)
  | .icmpLeImm p f => withPrefix p (wordOf 0 9 3 f.bits)
  | .icmpGtImm p f => withPrefix p (wordOf 0 9 4 f.bits)
  | .icmpGeImm p f => withPrefix p (wordOf 0 9 5 f.bits)
  | .movi p f => withPrefix p (wordOf 0 9 6 f.bits)
  | .fadd p f => withPrefix p (wordOf 0 16 0 f.bits)
  | .fsub p f => withPrefix p (wordOf 0 16 1 f.bits)
  | .fmul p f => withPrefix p (wordOf 0 16 2 f.bits)
  | .fma p f => withPrefix p (wordOf 0 16 3 f.bits)
  | .fmin p f => withPrefix p (wordOf 0 16 4 f.bits)
  | .fmax p f => withPrefix p (wordOf 0 16 5 f.bits)
  | .fabs p f => withPrefix p (wordOf 0 16 6 f.bits)
  | .fneg p f => withPrefix p (wordOf 0 16 7 f.bits)
  | .faddBf16 p f => withPrefix p (wordOf 0 17 0 f.bits)
  | .fsubBf16 p f => withPrefix p (wordOf 0 17 1 f.bits)
  | .fmulBf16 p f => withPrefix p (wordOf 0 17 2 f.bits)
  | .fmaBf16 p f => withPrefix p (wordOf 0 17 3 f.bits)
  | .fminBf16 p f => withPrefix p (wordOf 0 17 4 f.bits)
  | .fmaxBf16 p f => withPrefix p (wordOf 0 17 5 f.bits)
  | .fabsBf16 p f => withPrefix p (wordOf 0 17 6 f.bits)
  | .fnegBf16 p f => withPrefix p (wordOf 0 17 7 f.bits)
  | .fcmpEq p f => withPrefix p (wordOf 0 18 0 f.bits)
  | .fcmpNe p f => withPrefix p (wordOf 0 18 1 f.bits)
  | .fcmpLt p f => withPrefix p (wordOf 0 18 2 f.bits)
  | .fcmpLe p f => withPrefix p (wordOf 0 18 3 f.bits)
  | .fcmpGt p f => withPrefix p (wordOf 0 18 4 f.bits)
  | .fcmpGe p f => withPrefix p (wordOf 0 18 5 f.bits)
  | .fcmpUn p f => withPrefix p (wordOf 0 18 6 f.bits)
  | .fclass p f => withPrefix p (wordOf 0 18 7 f.bits)
  | .faddx p f => withPrefix p (wordOf 0 19 0 f.bits)
  | .fsubx p f => withPrefix p (wordOf 0 19 1 f.bits)
  | .fmulx p f => withPrefix p (wordOf 0 19 2 f.bits)
  | .dwadd p f => withPrefix p (wordOf 0 19 3 f.bits)
  | .dwmul p f => withPrefix p (wordOf 0 19 4 f.bits)
  | .dwfma p f => withPrefix p (wordOf 0 19 5 f.bits)
  | .dwdiv p f => withPrefix p (wordOf 0 19 6 f.bits)
  | .dwsqrt p f => withPrefix p (wordOf 0 19 7 f.bits)
  | .rcp p f => withPrefix p (wordOf 0 20 0 f.bits)
  | .rsq p f => withPrefix p (wordOf 0 20 1 f.bits)
  | .exp2 p f => withPrefix p (wordOf 0 20 2 f.bits)
  | .log2 p f => withPrefix p (wordOf 0 20 3 f.bits)
  | .sin p f => withPrefix p (wordOf 0 20 4 f.bits)
  | .cos p f => withPrefix p (wordOf 0 20 5 f.bits)
  | .gelu p f => withPrefix p (wordOf 0 21 0 f.bits)
  | .silu p f => withPrefix p (wordOf 0 21 1 f.bits)
  | .splus p f => withPrefix p (wordOf 0 21 2 f.bits)
  | .tanh p f => withPrefix p (wordOf 0 21 3 f.bits)
  | .sigm p f => withPrefix p (wordOf 0 21 4 f.bits)
  | .cvt p c f => withPrefix p (wordOf 0 22 c f.bits)
  | .cvtmx p c f => withPrefix p (wordOf 0 23 c f.bits)
  | .mov p f => withPrefix p (wordOf 0 24 0 f.bits)
  | .movs p f => withPrefix p (wordOf 0 24 1 f.bits)
  | .movx p f => withPrefix p (wordOf 0 24 2 f.bits)
  | .idx p f => withPrefix p (wordOf 0 24 3 f.bits)
  | .ballot p f => withPrefix p (wordOf 0 24 4 f.bits)
  | .cred p f => withPrefix p (wordOf 0 24 5 f.bits)
  | .tcred p f => withPrefix p (wordOf 0 24 6 f.bits)
  | .shflIdx p f => withPrefix p (wordOf 0 25 0 f.bits)
  | .shflXor p f => withPrefix p (wordOf 0 25 1 f.bits)
  | .shflUp p f => withPrefix p (wordOf 0 25 2 f.bits)
  | .shflDn p f => withPrefix p (wordOf 0 25 3 f.bits)
  | .pshw p f => withPrefix p (wordOf 0 25 4 f.bits)
  | .voteAny p f => withPrefix p (wordOf 0 25 5 f.bits)
  | .voteAll p f => withPrefix p (wordOf 0 25 6 f.bits)
  | .voteEq p f => withPrefix p (wordOf 0 25 7 f.bits)
  | .ld p ty f => withPrefix p (wordOf 0 (32 + (ty.extractLsb' 3 1).setWidth 6) (ty.extractLsb' 0 3) f.bits)
  | .st p ty f => withPrefix p (wordOf 0 (34 + (ty.extractLsb' 3 1).setWidth 6) (ty.extractLsb' 0 3) f.bits)
  | .ldImm p ty f => withPrefix p (wordOf 0 (36 + (ty.extractLsb' 3 1).setWidth 6) (ty.extractLsb' 0 3) f.bits)
  | .stImm p ty f => withPrefix p (wordOf 0 (38 + (ty.extractLsb' 3 1).setWidth 6) (ty.extractLsb' 0 3) f.bits)
  | .ldAcq p ty f => withPrefix p (wordOf 0 40 ty f.bits)
  | .stRel p ty f => withPrefix p (wordOf 0 41 ty f.bits)
  | .ldb p ty f => withPrefix p (wordOf 0 42 ty f.bits)
  | .ldw p ty f => withPrefix p (wordOf 0 43 ty f.bits)
  | .ldt p ty f => withPrefix p (wordOf 0 44 ty f.bits)
  | .atomI32 p op f => withPrefix p (wordOf 0 45 op f.bits)
  | .atomN32 p op f => withPrefix p (wordOf 0 46 op f.bits)
  | .atomI64 p op f => withPrefix p (wordOf 0 47 op f.bits)
  | .atomN64 p op f => withPrefix p (wordOf 0 48 op f.bits)
  | .atomCas p aty f => withPrefix p (wordOf 0 (45 + aty.setWidth 6) 7 f.bits)
  | .fxacc p t f => withPrefix p (wordOf 0 49 (0 + t.setWidth 3) f.bits)
  | .fxaccSc p f => withPrefix p (wordOf 0 49 2 f.bits)
  | .fxrd p t f => withPrefix p (wordOf 0 49 (4 + t.setWidth 3) f.bits)
  | .rwb p f => withPrefix p (wordOf 0 50 0 f.bits)
  | .rinv p f => withPrefix p (wordOf 0 50 1 f.bits)
  | .rdisc p f => withPrefix p (wordOf 0 50 2 f.bits)
  | .decode p f => withPrefix p (wordOf 0 51 0 f.bits)
  | .vsampNear p f => withPrefix p (wordOf 0 52 0 f.bits)
  | .vsampTri p f => withPrefix p (wordOf 0 52 1 f.bits)
  | .rbox p f => withPrefix p (wordOf 0 53 0 f.bits)
  | .rboxIdx p f => withPrefix p (wordOf 0 53 1 f.bits)
  | .scalarAdd f => [wordOf 1 1 0 f.bits]
  | .scalarSub f => [wordOf 1 1 1 f.bits]
  | .scalarMul f => [wordOf 1 1 2 f.bits]
  | .mulhI64 f => [wordOf 1 1 3 f.bits]
  | .mulhN64 f => [wordOf 1 1 4 f.bits]
  | .divI64 f => [wordOf 1 1 5 f.bits]
  | .divN64 f => [wordOf 1 1 6 f.bits]
  | .remI64 f => [wordOf 1 1 7 f.bits]
  | .remN64 f => [wordOf 1 2 0 f.bits]
  | .minI64 f => [wordOf 1 2 1 f.bits]
  | .minN64 f => [wordOf 1 2 2 f.bits]
  | .maxI64 f => [wordOf 1 2 3 f.bits]
  | .maxN64 f => [wordOf 1 2 4 f.bits]
  | .scalarIcmp f => [wordOf 1 2 5 f.bits]
  | .scalarSel f => [wordOf 1 2 6 f.bits]
  | .scalarAnd f => [wordOf 1 3 0 f.bits]
  | .scalarOr f => [wordOf 1 3 1 f.bits]
  | .scalarXor f => [wordOf 1 3 2 f.bits]
  | .scalarAndn f => [wordOf 1 3 3 f.bits]
  | .scalarShl f => [wordOf 1 3 4 f.bits]
  | .scalarShr f => [wordOf 1 3 5 f.bits]
  | .scalarSra f => [wordOf 1 3 6 f.bits]
  | .scalarRol f => [wordOf 1 3 7 f.bits]
  | .scalarAddImm f => [wordOf 1 4 0 f.bits]
  | .scalarMulImm f => [wordOf 1 4 1 f.bits]
  | .scalarAndImm f => [wordOf 1 4 2 f.bits]
  | .scalarOrImm f => [wordOf 1 4 3 f.bits]
  | .scalarXorImm f => [wordOf 1 4 4 f.bits]
  | .scalarShlImm f => [wordOf 1 4 5 f.bits]
  | .scalarShrImm f => [wordOf 1 4 6 f.bits]
  | .scalarSraImm f => [wordOf 1 4 7 f.bits]
  | .movl f => [wordOf 1 5 0 f.bits]
  | .movhH1 f => [wordOf 1 5 1 f.bits]
  | .movhH2 f => [wordOf 1 5 2 f.bits]
  | .movhH3 f => [wordOf 1 5 3 f.bits]
  | .scalarMov f => [wordOf 1 6 0 f.bits]
  | .scalarNot f => [wordOf 1 6 1 f.bits]
  | .scalarPopc f => [wordOf 1 6 2 f.bits]
  | .scalarClz f => [wordOf 1 6 3 f.bits]
  | .scalarCtz f => [wordOf 1 6 4 f.bits]
  | .scalarBrev f => [wordOf 1 6 5 f.bits]
  | .csrr f => [wordOf 1 7 0 f.bits]
  | .csrw f => [wordOf 1 7 1 f.bits]
  | .scalarLd sc f => [wordOf 1 8 sc f.bits]
  | .scalarSt sc f => [wordOf 1 9 sc f.bits]
  | .scalarAtomAdd f => [wordOf 1 10 0 f.bits]
  | .scalarAtomMin f => [wordOf 1 10 1 f.bits]
  | .scalarAtomMax f => [wordOf 1 10 2 f.bits]
  | .scalarAtomAnd f => [wordOf 1 10 3 f.bits]
  | .scalarAtomOr f => [wordOf 1 10 4 f.bits]
  | .scalarAtomXor f => [wordOf 1 10 5 f.bits]
  | .scalarAtomXchg f => [wordOf 1 10 6 f.bits]
  | .scalarAtomCas f => [wordOf 1 10 7 f.bits]
  | .bra f => [wordOf 1 16 0 f.bits]
  | .brcEqz f => [wordOf 1 16 1 f.bits]
  | .brcNez f => [wordOf 1 16 2 f.bits]
  | .brcLtz f => [wordOf 1 16 3 f.bits]
  | .brcGez f => [wordOf 1 16 4 f.bits]
  | .brv f => [wordOf 1 17 0 f.bits]
  | .brvAny f => [wordOf 1 17 1 f.bits]
  | .brvAll f => [wordOf 1 17 2 f.bits]
  | .brvNone f => [wordOf 1 17 3 f.bits]
  | .call f => [wordOf 1 18 0 f.bits]
  | .recMark f => [wordOf 1 19 0 f.bits]
  | .setmAnd f => [wordOf 1 23 0 f.bits]
  | .setmOr f => [wordOf 1 23 1 f.bits]
  | .setmXor f => [wordOf 1 23 2 f.bits]
  | .setmAndn f => [wordOf 1 23 3 f.bits]
  | .setmNot f => [wordOf 1 23 4 f.bits]
  | .setmMov f => [wordOf 1 23 5 f.bits]
  | .setmAll f => [wordOf 1 23 6 f.bits]
  | .setmNone f => [wordOf 1 23 7 f.bits]
  | .getm f => [wordOf 1 24 0 f.bits]
  | .fence f => [wordOf 1 25 0 f.bits]
  | .mma sb f => [wordOf 1 32 sb f.bits]
  | .mmag sb f => [wordOf 1 33 sb f.bits]
  | .mdrain f => [wordOf 1 34 0 f.bits]
  | .cpy sc f => [wordOf 1 36 sc f.bits]
  | .cpymgInj sc f => [wordOf 1 37 sc (f.bits 0)]
  | .cpymgFw sc f => [wordOf 1 37 sc (f.bits 1)]
  | .cpymgPro sc f => [wordOf 1 37 sc (f.bits 2)]
  | .cpymgProadd sc f => [wordOf 1 37 sc (f.bits 3)]
  | .cpymgCvt sc f => [wordOf 1 37 sc (f.bits 4)]
  | .cpyred sc f => [wordOf 1 38 sc f.bits]
  | .emit f => [wordOf 1 40 0 f.bits]
  | .spawn f => [wordOf 1 40 1 f.bits]
  | .pharv f => [wordOf 1 40 2 f.bits]
  | .phwait f => [wordOf 1 40 3 f.bits]
  | .prefBw f => [wordOf 1 40 4 (f.bits 0)]
  | .prefTc f => [wordOf 1 40 4 (f.bits 1)]
  | .fctlReseed => []
  | .ret => [wordOf 1 20 0 0]
  | .callr => [wordOf 1 20 1 0]
  | .jmpr => [wordOf 1 20 2 0]
  | .join => [wordOf 1 20 3 0]
  | .endTeam => [wordOf 1 20 4 0]
  | .yield => [wordOf 1 20 5 0]
  | .rft => [wordOf 1 20 6 0]
  | .trapCode => [wordOf 1 21 0 0]
  | .callv => [wordOf 1 22 0 0]
  | .bar => [wordOf 1 25 1 0]
  | .cbar => [wordOf 1 25 2 0]
  | .dbar => [wordOf 1 25 3 0]
  | .mzero => [wordOf 1 35 0 0]
  | .cpyclose => [wordOf 1 39 0 0]
  | .cpywait => [wordOf 1 39 1 0]
  | .pack => [wordOf 1 40 5 0]
  | .producerRowFull => []
  | .matrixComplete => []
  | .gangLatchComplete => []
  | .barrierComplete => []
  | .copyCommandComplete => []
  | .cpyredContribution => []
  | .teamStart => []
  | .contextSave => []
  | .teamRestore => []
  | .timeSlice => []
  | .teamRetire => []
  | .queueDoorbell => []
  | .dispatchDecision => []
  | .queuePromotion => []
  | .binFlush => []
  | .gatherTimeout => []
  | .aggregatorFlush => []
  | .aggregatorTimeout => []
  | .drain => []
  | .drainEscalation => []
  | .drainComplete => []
  | .resume => []
  | .geth => []
  | .getu => []
  | .gett => []
  | .geto => []
  | .oph => []
  | .packMessage => []
  | .putp => []
  | .putt => []
  | .wb => []
  | .strip => []
  | .flush => []
  | .invMsg => []
  | .stripack => []
  | .flushack => []
  | .invack => []
  | .dataMsg => []
  | .cmpMsg => []
  | .doneMsg => []
  | .snpdata => []
  | .snpinv => []
  | .snpcur => []
  | .cxlCacheResponse => []
  | .memrd => []
  | .memwr => []
  | .birsp => []
  | .windowRead => []
  | .windowWrite => []
  | .routeFailure => []
  | .resendTimeout => []
  | .tierCacheFill => []
  | .hotnessSample => []
  | .hotnessHalving => []
  | .throttleExpiry => []
  | .migrateBlock => []
  | .migrateCopy => []
  | .migrateMap => []
  | .migrateReplay => []
  | .freeFrameRecord => []
  | .migrationRequest => []
  | .faultReply => []
  | .invalidationRecord => []
  | .invalidationComplete => []
  | .ringTailWrite => []
  | .ringHeadWrite => []
  | .deviceErrorRecord => []
  | .controlRegisterWrite => []
  | .attestReport => []
  | .attestCertChain => []
  | .attestStageImage => []
  | .attestIdentityKey => []
  | .attestDone => []
  | .abfortFlitReceive => []
  | .linkAckTimeout => []
  | .peerInboundRequest => []
  | .rowRemap => []
  | .evacuation => []
  | .dieLost => []
  | .powerManagerTick => []
  | .coldReset => []
  | .hostLinkTrained => []
  | .dieSelfTestDone => []
  | .hbmTrainingDone => []
  | .cxlEnable => []
  | .abfortTrainingDone => []
  | .peerAuthentication => []
  | .steppeReady => []
  | .functionLevelReset => []
  | .illegalInstruction => []
  | .fetchFault => []
  | .spdmRequest => []
  | .configurationRequest => []

/-- The four bytes of a word, little-endian (03 R68). -/
def wordBytes (w : Word32) : List Byte :=
  [w.extractLsb' 0 8, w.extractLsb' 8 8, w.extractLsb' 16 8, w.extractLsb' 24 8]

/-- The bytes of an instruction in memory, first word first. -/
def encodeBytes (i : Instr) : List Byte := (encode i).flatMap wordBytes

/-- The words of a table word: the low 32 bits are the first word, the next 32 the second. -/
def tableWords (w : Nat) : Word32 × Word32 := (BitVec.ofNat 32 w, BitVec.ofNat 32 (w / 2 ^ 32))

/-- The instruction this decoder reads from a word numbered as spec/opcode_table.json numbers it: `nbits` bits of
`w`, every bit above them 0, laid out little-endian and given to `decodeBytes`. -/
def decodeTableWord (nbits w : Nat) : Option Instr :=
  let v := tableWords (w % 2 ^ nbits)
  match decodeBytes (wordBytes v.1 ++ wordBytes v.2) with
  | .ok (i, _) => some i
  | .error _ => none

end Sys2Proof
end

