-- ==== Sys2Proof/Config.lean ====
section
/-! DEFINITION. What an implementation fixes and the free values: constants with no body, so that no proof can rest
on a value the spec leaves open. Each is applied to the model's counter of free values (or to the operands it
depends on) and is named in a row of notes/assumptions. -/

namespace Sys2Proof

/-- Which of a number of things is taken where the spec leaves the choice open (10 R264-R266 fix no order between agents, 14 R350
no placing): by the model's counter of free values, what is chosen, and how many there are: log 3. -/
opaque Config.choose : Nat → Nat → Nat → Nat

/-- Nanoseconds that pass in a step (the model counts no clocks; 01 R30): log 6. -/
opaque Config.elapsed : Nat → Nat

/-- Clocks that pass in a step, for the charges of 14 R349 (the model counts no clocks; 01 R30): log 6. -/
opaque Config.clocks : Nat → Nat

/-- The compressed form the home's codec finds for a block (11 R297): log 8. -/
opaque Config.compress : Nat → List Byte → List Byte

/-- The directory set a line falls into (11 R293 gives ways and no index): log 9. -/
opaque Config.dirSet : Nat → Nat

/-- The set a line falls into in a slice of a last-level cache, modulo its 6,144 (06 R172, 16 R387 give ways and no index):
log 9. -/
opaque Config.llcSet : Nat → Nat

/-- The set a host line falls into in the host-proxy home's buffer, modulo its 16,384 (11 R299 gives size and ways): log 9. -/
opaque Config.hostSet : Nat → Nat

/-- The walker of its die, of 16, that a walk is made by (12 R318): log 16. -/
opaque Config.walker : Nat → Nat

/-- The participants, minus 1, that a phase barrier's NM above 31 names (07 R232 gives 0 to 31): log 23. -/
opaque Config.phaseNm : Nat → Nat

/-- A byte a peer's memory returns (16 R393: the peer answers): log 10. -/
opaque Config.peerByte : Nat → Nat → BitVec 8

/-- Does a peer accept an access at its address (16 R393: only within its own inbound range): log 10. -/
opaque Config.peerAccepts : Nat → Bool

/-- What the host has written to a byte of its memory since the device last had it, if it has (11 R299): log 10. -/
opaque Config.hostWrote : Nat → Nat → Option (BitVec 8)

/-- A byte of a frame the migrator has returned, whose contents are undefined (12 R322): log 24. -/
opaque Config.frameByte : Nat → Nat → BitVec 8

/-- The 240 bytes of slots that carry an access to a line of a peer, and the virtual channel of it (16 R391 gives no message
header): log 67. -/
opaque Config.flitSlots : Nat → Nat → List (BitVec 8)
opaque Config.flitChannel : Nat → Nat

/-- What a slot of a received flit is the header of (16 R391): none, or a request of the peer: 0 a read, 1 a write, 2 and up an
operation by its code; its address and its bytes: log 67. -/
opaque Config.flitHeader : List (BitVec 8) → Option (Nat × Nat × Nat)

/-! ### The security block and the non-volatile store (16 R398 to R402): log 25 -/

/-- The SHAKE256 digest of the firmware key that the ROM holds, and the serial number it holds. -/
opaque Config.romDigest : List (BitVec 8)
opaque Config.romSerial : Nat

/-- The key in an image's header, and whether the image's signature under it holds. -/
opaque Config.imageKey : List (BitVec 8) → List (BitVec 8)
opaque Config.imageSigned : List (BitVec 8) → Bool

/-- The security version an image's header gives. -/
opaque Config.imageVersion : List (BitVec 8) → Nat

/-- The advance flag of an image's header. -/
opaque Config.imageAdvance : List (BitVec 8) → Bool

/-- The start-up response of the reserved SRAM, corrected: 128 bytes (16 R399). -/
opaque Config.sramResponse : List (BitVec 8)

/-- PK.root of SLH-DSA-SHAKE-256s, 32 bytes, from SK.seed and PK.seed (16 R399: FIPS 205). -/
opaque Config.slhRoot : List (BitVec 8) → List (BitVec 8) → List (BitVec 8)

/-- What follows the randomiser in an SLH-DSA-SHAKE-256s signature, 29,760 bytes, from the private key, the randomiser and the
message. -/
opaque Config.slhSign : List (BitVec 8) → List (BitVec 8) → List (BitVec 8) → List (BitVec 8)

/-- The certificate chain of the identity key. -/
opaque Config.certChain : List (BitVec 8)

/-- Does the signature of the stored configuration record hold? -/
opaque Config.recordSigned : Bool

/-- The stored configuration record, and its fields: SERIAL, TCSZ, SPARE, LINKEN, LINKAUTH, PMAX, CXLEN. -/
opaque Config.recordBytes : List (BitVec 8)
opaque Config.recordField : Nat → Nat

/-! ### Package: log 26 -/

/-- The silicon stepping (16 R383). -/
opaque Config.stepping : Nat

/-- Does a function train, by the model's counter of free values (16 R388, R389)? -/
opaque Config.trains : Nat → Bool

/-- What training finds at the other end of a port (16 R394): the peer's SERIAL and port. -/
opaque Config.peerSerial : Nat → Nat
opaque Config.peerPort : Nat → Nat

/-- Does a peer's report verify, and the SERIAL in it (16 R401)? -/
opaque Config.peerReportOk : Nat → Bool
opaque Config.peerReportSerial : Nat → Nat

/-- How busy a part is, in millionths of its full rate: 0 arrays, 1 vector pipes, 2 HBM, 3 fabric (16 R397). -/
opaque Config.rate : Nat → Nat → Nat

/-- The module power measured over the last 10 us, in watts (16 R396). -/
opaque Config.watts : Nat → Nat

end Sys2Proof
end

