-- ==== Sys2Proof/Machine/State.lean ====
section
/-! DEFINITION. The state of the whole device as plain data: every team, and every unit the spec gives the machine
(INVENTORY.md, '## State'), with the state after reset, the faults and the refusals. -/

namespace Sys2Proof.Machine

/-! ### Operands of device events -/

/-- An agent of 11 Table 11.2: a core's L1 and stack cache (die, cluster x 8 + core), the last-level cache of a die,
the host through CXL.mem; and a unit of a socket that makes requests and keeps no copy: a dispatcher, the migrator, the rings'
units of the I/O die, socket 8 (11 R279, 01 Table 1.1). -/
inductive Agent where
  | core (die idx : Nat)
  | llc (die : Nat)
  | host
  | unit (socket : Nat)
  deriving DecidableEq, Repr

/-- A place that keeps directory entries (11 Table 11.1, R280): the slices of a compute die (home of its own lines,
proxy home of all others), a tier die, the host-proxy home, a peer. -/
inductive Site where
  | die (d : Nat)
  | tier (d : Nat)
  | hostProxy
  | peer (p : Nat)
  deriving DecidableEq, Repr

/-- What an OpH asks the home to perform (11 Table 11.7): an atomic with its operation and type codes, an
accumulation of x times 2^k, an accumulator read, the maximum merge of `MDRAIN.amax`. -/
inductive HomeOp where
  | atom (pa : Nat) (op : BitVec 3) (ty : BitVec 2) (x c : BitVec 64)
  | fxacc (pa : Nat) (f64 : Bool) (x : BitVec 64) (k : Int)
  | fxrd (pa : Nat) (f64 : Bool) (rnd : BitVec 3)
  | amax (pa : Nat) (x : BitVec 32)
  deriving DecidableEq, Repr

/-- The request kinds of 11 Table 11.7. -/
inductive ReqKind where
  | getH | getU | getT | getO | putP | putT | opH | wb | pack
  deriving DecidableEq, Repr

/-- One message of 11 Table 11.6 between an agent and a home or proxy: the line (physical address / 64), the word
mask, the byte mask and bytes, the grant, valid and released words, the operation of an OpH, the result of one, the
compressed block of a Data message and the compression attribute of a request's mapping (11 R295), and the tag (11
R286). -/
structure Msg where
  agent : Agent
  site : Site
  line : Nat
  mask : BitVec 16
  bmask : BitVec 64
  data : BitVec 512
  grant : BitVec 16
  valid : BitVec 16
  released : BitVec 16
  op : Option HomeOp
  result : BitVec 64
  block : List Byte
  record : BitVec 11
  seq : BitVec 2
  cmp : Bool
  deriving DecidableEq, Repr

/-- One member's quantised contribution to a collective, on its way to another member (07 R226): the collective number,
the sender's rank, NM, COUNT and wire format, the receiving die and rank, whether it left the device or came from a
peer, and the wire bytes. -/
structure Contribution where
  asid : Option Nat
  group : BitVec 32
  rank : Nat
  nm : Nat
  count : Nat
  wire : Nat
  die : Nat
  target : Nat
  bytes : List Byte
  deriving DecidableEq, Repr

/-- A flit on an Abfort link: its 256 bytes, laid out as 16 R391 gives (Machine/Links.lean). -/
structure Flit where
  bytes : List Byte
  deriving DecidableEq, Repr

/-- A request of a peer (16 R394). -/
structure PeerRequest where
  port : Nat
  write : Bool
  op : Option HomeOp
  addr : Nat
  len : Nat
  bytes : List Byte
  deriving DecidableEq, Repr

/-- The operand of a device event: numbers (which team, die, ring ...), a 64-bit value, a message, and the payloads
of single events. An event reads the fields its rule names and no other. -/
structure EvArg where
  a : Nat := 0
  b : Nat := 0
  c : Nat := 0
  v : BitVec 64 := 0
  m : Option Msg := none
  bytes : List Byte := []
  con : Option Contribution := none
  flit : Option Flit := none
  peer : Option PeerRequest := none
  deriving DecidableEq, Repr

/-- A device event that is due or in flight: the row and its operand. -/
structure Event where
  row : Instr
  arg : EvArg
  deriving DecidableEq, Repr

/-! ### Teams -/

/-- An entry of the divergence stack (04 R109). -/
structure DivEntry where
  pc : BitVec 64
  mask : Mask
  reconv : BitVec 64
  deriving DecidableEq, Repr

/-- One element of a recombination accumulator set (02 R61). -/
structure AccElem where
  acc : BitVec 192
  anchor : BitVec 16
  loss : BitVec 16
  ov : Bool
  deriving DecidableEq, Repr

/-- A recombination accumulator set with its bound words (02 R61, 08 R245); element e = 64 i + j. -/
structure AccSet where
  active : Bool
  elems : FMap AccElem
  bounds : FMap Word32
  deriving DecidableEq, Repr

/-- A matrix operation issued whose passes are not finished, with the operands its slicing buffers captured (08 R241,
15 R374): the A fragment and its scale register, register r of it at r x 1024 + lane, and B's at (512 + r) x 1024 +
lane. -/
structure MatOp where
  gang : Bool
  fmt : BitVec 4
  slices : Nat
  tri : Bool
  set : Nat
  sb : BitVec 2
  lanes : Nat
  captured : FMap Word32
  deriving DecidableEq, Repr

/-- A row a long-latency producer still has to land (01 R22): the register, the row and the lanes it writes; the first register
of a producer that lands its rows in ascending order (06 R196, 07 R216); whether a floating-point instruction is the
producer (04 R127). -/
structure ProdRow where
  reg : Nat
  row : Nat
  vals : List (Nat × Word32)
  group : Option Nat
  fp : Bool
  deriving DecidableEq, Repr

/-- What the instruction at the PC waits for; the codes of WAIT (15 R365), and 9 to 12 of the model: a row of a
sweep, an earlier instruction, room in a queue or bin, a busy line or unit. -/
inductive Wait where
  | none | cbar | dbar | pharv | phwait | cpywait | latch | pageFault | array | row | earlier | room | busy
  deriving DecidableEq, Repr

/-- Where a team is in its life (14 R350, R355, 15 R362 to R368, 07 R231). -/
inductive TStatus where
  /-- admitted or restorable, in its die's residency queue or about to be -/
  | ready
  /-- on a core -/
  | resident
  /-- saved, waiting for a fault reply -/
  | faulted
  /-- saved by a drain, until resume -/
  | drained
  /-- has executed `END` -/
  | ended
  | retired
  /-- its launch has ended with an error -/
  | dead
  deriving DecidableEq, Repr

/-- A team and every piece of state it owns (01 R19 to R37, 04 R109, R118, 15 R364, R365). `badWords` are its register words in
error (15 R371), by register and lane; `emit` what an `EMIT` under way goes on with: its PC, its template and the lane of its
next record (07 R230, 14 R351). -/
structure Team where
  status : TStatus
  launch : Nat
  die : Nat
  group : Nat
  dix : Nat
  gix : Nat
  tix : Nat
  ndie : Nat
  ngrp : Nat
  nteam : Nat
  cluster : Nat
  core : Nat
  slot : Nat
  lanes : Nat
  vregs : Nat
  depth : Nat
  record : BitVec 512
  recAddr : BitVec 64
  joins : List (BitVec 64)
  sreg : FMap Word64
  vreg : FMap Word32
  mask : FMap Mask
  empty : FMap Word32
  tag : FMap (BitVec 4)
  genSeed : Word32
  gen : FMap Word32
  div : List DivEntry
  ret : List (BitVec 64)
  rp : BitVec 64
  spBase : BitVec 64
  spPtr : BitVec 64
  ndsp : Nat
  nrsp : Nat
  fp : BitVec 64
  stk : FMap Byte
  flags : Word64
  fctl : Word64
  iwarn : Word64
  mbound : Word64
  tile : Word64
  gang : Word64
  allow : Word64
  closed : BitVec 32
  done : BitVec 32
  slim : Word64
  tvec : Word64
  tcause : Word64
  tepc : Word64
  tmask : Mask
  acc0 : AccSet
  acc1 : AccSet
  holder : Bool
  matq : List MatOp
  prods : List ProdRow
  wait : Wait
  arr : Bool
  prow : Option Nat
  exc : Mask
  excFlags : BitVec 5
  fseq : BitVec 32
  cause : BitVec 4
  nsave : BitVec 32
  frameSlot : Option Nat
  children : Nat
  sliceStart : Nat
  owed : List Nat
  badWords : List (Nat × Nat)
  pool : Option (Nat × Nat)
  emitters : List Nat
  emit : Option (BitVec 64 × BitVec 512 × Nat)
  deriving DecidableEq, Repr

/-! ### Launches, groups, queues -/

/-- A launch (01 R11, 07 R227 to R231, 14 R350): the queue and address space it came from, its record, the team that
issued it (none for a top-level launch), whether it came from a queue ring, how it ended, the aggregator table its
teams read (14 R354). -/
structure Launch where
  queue : Nat
  asid : Nat
  recAddr : BitVec 64
  record : BitVec 512
  parent : Option Nat
  depth : Nat
  top : Bool
  ended : Bool
  complete : Bool
  table : Option Nat
  deriving DecidableEq, Repr

/-- A ganged operation waiting at its latch (07 R213): the team and the fields of its `MMAG`. -/
structure LatchArrival where
  team : Nat
  sb : BitVec 3
  f : UE
  deriving DecidableEq, Repr

/-- A cluster group (01 R33, 04 R106, 07 R213): its launch and die share, where it sits, its cluster-memory
allocation, the arrivals of its `CBAR` generation and of its latch. -/
structure Group where
  launch : Nat
  share : Nat
  gix : Nat
  die : Nat
  cluster : Option Nat
  cmem : Nat
  arrivals : List Nat
  gen : Nat
  latch : List LatchArrival
  live : Bool
  deriving DecidableEq, Repr

/-- A die share (01 R11, 04 R106): its launch, index, die, and the arrivals of its `DBAR` generation. -/
structure Share where
  launch : Nat
  dix : Nat
  die : Nat
  arrivals : List Nat
  gen : Nat
  deriving DecidableEq, Repr

/-- A hardware queue's scheduling counts (14 R348, R349). -/
structure QueueSt where
  deficit : Int
  passed : Nat
  promo : Nat
  stopped : Bool
  deriving DecidableEq, Repr

/-- A lane record on its way to a gathered team (07 R230). -/
structure LaneRec where
  record : BitVec 512
  team : Nat
  launch : Nat
  deriving DecidableEq, Repr

/-- An open bin or aggregator key (14 R351 to R354): die, queue, template entry and shape, depth, records, when the
first came; closed once it is to flush (14 R352). -/
structure Bin where
  die : Nat
  agg : Option Nat
  queue : Nat
  entry : BitVec 64
  shape : BitVec 64
  depth : Nat
  recs : List LaneRec
  since : Nat
  closed : Bool
  deriving DecidableEq, Repr

/-- What a copy command does: CPY with its destination policy; CPYMG with its operation (0 inj, 1 fw, 2 pro, 3 proadd,
4 cvt), boundary and rounding mode; CPYRED with its wire format (03 Table 3.13). -/
inductive CopyKind where
  | cpy (pol : Nat)
  | mg (op bnd mode : Nat)
  | red (wire : Nat)
  deriving DecidableEq, Repr

/-- A copy command (07 R219 to R226, 13 R332): its team and batch (none while open), and the fields captured at issue:
addresses and length, the descriptor, both grid descriptors, the weights, the member table, the generator seed, the PC
of the instruction, the page fault it waits on; `phase` 1 once a CPYRED has sent its contributions; `wrote` what it has written
of its destination, piece by piece, with the flags of each (13 R344). -/
structure Copy where
  id : Nat
  team : Nat
  launch : Nat
  die : Nat
  asid : Nat
  group : Nat
  kind : CopyKind
  scope : Nat
  acq : Bool
  rel : Bool
  batch : Option (BitVec 32)
  dst : BitVec 64
  src : BitVec 64
  len : Nat
  desc : BitVec 512
  grids : BitVec 512
  weights : List Word32
  members : List (BitVec 64)
  seed : Word32
  pc : BitVec 64
  held : Option (BitVec 32)
  phase : Nat
  wrote : List (Nat × Nat)
  deriving DecidableEq, Repr

/-! ### Errors, faults, rings -/

/-- A device error record waiting to be written, with its team entries (15 R377, R378). -/
structure ErrRec where
  record : BitVec 512
  teams : List Nat
  lines : List (BitVec 192)
  deriving DecidableEq, Repr

/-- List space in use by a record of the error ring (16 R384). -/
structure ListUse where
  slot : Nat
  off : Nat
  len : Nat
  teams : List Nat
  deriving DecidableEq, Repr

/-- A page fault pending (12 R327): its sequence number, address space, 64 KiB page, whether its record has been
written, its waiting teams, copy commands, teams whose retirement waits and bins whose flush does, and its record. -/
structure PendFault where
  fseq : BitVec 32
  asid : Nat
  page : Nat
  posted : Bool
  teams : List Nat
  copies : List Nat
  retires : List Nat
  flushes : List Bin
  record : BitVec 256
  deriving DecidableEq, Repr

/-! ### Coherence -/

/-- A directory entry with the layout of 11 R283 as fields, the site and line it belongs to, and its way of its set
(11 R293). -/
structure DirEntry where
  site : Site
  line : Nat
  st : BitVec 4
  o0 : Option Agent
  m0 : BitVec 16
  o1 : Option Agent
  m1 : BitVec 16
  sh : BitVec 17
  record : Nat
  acks : Nat
  way : Nat
  deriving DecidableEq, Repr

/-- What a record at a home works for: an agent's request, a host snoop (11 R300), the eviction of an entry (11 R293). -/
inductive TxnFor where
  | agent | snoop | evict
  deriving DecidableEq, Repr

/-- A request record (11 R285, R302): what is in progress at a site's line, for whom, how far it is (0 begun, 1 strips, 2 the
strip that frees a slot, 3 invalidations, 4 to be performed, 5 the block to be expanded), the answers still awaited since
when, the requests queued behind it. -/
structure Txn where
  id : Nat
  site : Site
  line : Nat
  kind : ReqKind
  req : Msg
  stage : Nat
  awaiting : List Agent
  since : Nat
  queued : List (ReqKind × Msg)
  cause : TxnFor
  deriving DecidableEq, Repr

/-- A cached line of an agent (11 R281, R282, 10 R267): the words valid, owned and tracked, the bytes dirty, the data
of an si copy, and for owned dirty bytes what the home last merged (11 R303). -/
structure CLine where
  agent : Agent
  line : Nat
  valid : BitVec 16
  owned : BitVec 16
  tracked : Bool
  dirty : BitVec 64
  data : BitVec 512
  behind : BitVec 512
  deriving DecidableEq, Repr

/-- A line in a way of a last-level cache with its re-reference value (06 R172): the die, the line, the way of its set. -/
structure LlcWay where
  die : Nat
  line : Nat
  way : Nat
  rrpv : Nat
  deriving DecidableEq, Repr

/-- A request of an agent whose answer is awaited (11 R302), with the probes held until its grant, `true` for a Flush
(11 R290), and the words an Inv took from its fill (11 R291): word w of line i of the request's block is bit 16 i + w. -/
structure Miss where
  agent : Agent
  site : Site
  line : Nat
  kind : ReqKind
  req : Msg
  since : Nat
  held : List (Bool × Msg)
  dropped : BitVec 64
  deriving DecidableEq, Repr

/-- What a write-back buffer holds until Done: a WB, a StripAck or a FlushAck (11 R292, R302). -/
inductive BackKind where
  | wb | strip | flush
  deriving DecidableEq, Repr

/-- A write-back buffer (11 R292): the message it keeps, when it was sent, and what the home had last merged of its bytes
(11 R303). -/
structure WBuf where
  kind : BackKind
  msg : Msg
  since : Nat
  behind : BitVec 512
  deriving DecidableEq, Repr

/-- CXL.cache state of a host line at the host-proxy home (11 R299). -/
inductive CxlState where
  | i | s | e | m
  deriving DecidableEq, Repr

/-! ### Tiers and translation -/

/-- A cached translation (12 R318): where it is cached, its address space, the page's first address and size, the
leaf and the leaf's address, and the hotness countdown of R320. -/
structure TlbEntry where
  level : Nat
  die : Nat
  idx : Nat
  asid : Nat
  base : Nat
  size : Nat
  leaf : BitVec 64
  leafAddr : Nat
  count : Nat
  deriving DecidableEq, Repr

/-- The pointer entries of one walk that a walker of a die keeps (12 Table 12.10): for each its level and what it held; the
address space and the address walked for. -/
structure Walked where
  die : Nat
  walker : Nat
  asid : Nat
  va : Nat
  ptrs : List (Nat × BitVec 64)
  deriving DecidableEq, Repr

/-- The states of a migrator move (12 Table 12.12). -/
inductive MigState where
  | block | copy | map | replay | abandon
  deriving DecidableEq, Repr

/-- A move in progress (12 R322 to R324). -/
structure Move where
  leafAddr : Nat
  leaf : BitVec 64
  va : Nat
  asid : Nat
  frame : BitVec 64
  request : Bool
  state : MigState
  queued : List (ReqKind × Msg)
  deriving DecidableEq, Repr

/-- An invalidation record taken, not complete (12 R319). -/
structure InvRec where
  seq : BitVec 32
  asid : Nat
  all : Bool
  va : Nat
  len : Nat
  deriving DecidableEq, Repr

/-- What the thrash detector keeps of a page (12 R325): the times of its last moves, and until when it is
throttled. -/
structure Thrash where
  page : Nat
  moves : List Nat
  until_ : Option Nat
  deriving DecidableEq, Repr

/-! ### Package -/

/-- An Abfort port's link state (16 R391, R392): the sequence numbers last sent and last received in order; the retry buffer: each
flit outstanding with the line it is about and its resends; since when flits are outstanding without an ACK; what waits for
room in the retry buffer, by line with the slots; the flits received in order; the flit last put on the link. -/
structure Port where
  txSeq : BitVec 12
  rxSeq : BitVec 12
  retry : List (Flit × Nat × Nat)
  since : Nat
  backlog : List (Nat × List Byte)
  received : List Flit
  sent : Option Flit
  deriving DecidableEq, Repr

/-- The configuration record's fields in force (16 R400). -/
structure ConfigRec where
  serial : BitVec 48
  tcsz : BitVec 3
  spare : Nat
  linken : BitVec 8
  linkauth : Bool
  pmax : Nat
  cxlen : Bool
  valid : Bool
  deriving DecidableEq, Repr

/-- The security block and the non-volatile store (16 R398 to R402): whether the device is in recovery, the running image and
its version, MINSVN, the staged, primary and backup images, the identity key pair; whether IDE keys are set (16 R381), the
host link has trained, and how the last configuration request was answered (`true`: Configuration Request Retry Status). -/
structure Security where
  recovery : Bool
  image : List Byte
  version : Nat
  minsvn : Nat
  staged : Option (List Byte)
  primary : List Byte
  backup : List Byte
  publicKey : List Byte
  privateKey : List Byte
  ide : Bool
  hostTrained : Bool
  retried : Option Bool
  deriving DecidableEq, Repr

/-- Who moves in the next step. -/
inductive Turn where
  | team (k : Nat)
  | event (i : Nat)
  deriving DecidableEq, Repr

/-- The state of the device. Fields marked MODEL are the model's own and no register of the spec: `tick` counts free
values (a statement about a free value holds for every tick), `turn` says who moves next, `cur`, `iw` and `arg` are the issue record of the instruction or event being executed (15 R372 keeps one for every instruction). -/
structure State where
  /-- every byte of physical memory, and beyond 2^53 the scratchpads and cluster-memory allocations -/
  mem : Memory
  clock : Word64
  tick : Nat
  turn : Option Turn
  cur : Nat
  iw : Word32
  arg : EvArg
  events : List Event
  teams : List Team
  launches : List Launch
  groups : List Group
  shares : List Share
  resq : List (Nat × Nat)
  reserved : List (Nat × Nat × Nat × Nat)
  sparesUsed : List (Nat × Nat)
  coreDown : List (Nat × Nat × Nat)
  ctl : FMap Word64
  queues : FMap QueueSt
  ptr : FMap Nat
  bins : List Bin
  copies : List Copy
  nextCopy : Nat
  collected : List Contribution
  faults : List PendFault
  nextFseq : BitVec 32
  errors : List ErrRec
  listUse : List ListUse
  listNext : Nat
  msix : BitVec 8
  msiSent : FMap Nat
  dir : List DirEntry
  txns : List Txn
  nextTxn : Nat
  lines : List CLine
  llc : List LlcWay
  wbuf : List WBuf
  miss : List Miss
  delivered : List (Msg × BitVec 512)
  buffered : List (ReqKind × Msg)
  seenTags : List (Msg × ReqKind)
  biWait : List Nat
  biReady : List Nat
  cxl : FMap CxlState
  cxlNoData : List Nat
  cxlWait : List (Nat × Nat)
  llcCount : FMap Nat
  tcSpare : FMap (BitVec 16)
  tcFills : List (Nat × Nat × List Nat)
  tlb : List TlbEntry
  walks : List Walked
  invs : List InvRec
  moves : List Move
  framePool : List (BitVec 64)
  offers : List (Nat × Nat × Nat)
  thrash : List Thrash
  lastHalve : Nat
  poison : List Nat
  remaps : List (Nat × Nat)
  routesDown : List (Nat × Nat × Nat)
  lostDies : List Nat
  ports : FMap Port
  config : ConfigRec
  sec : Security
  drainNow : Word64
  drainSince : Nat
  drainQueued : List Word64
  savedOrder : List Nat
  powerDown : Nat
  powerLog : List Nat
  unitFails : List (Nat × Nat × Nat × Nat × Nat)
  hostReady : List Nat
  hostAnswer : Option (BitVec 512 × Bool)
  spawned : List (Nat × Nat × Nat)
  deriving DecidableEq, Repr

/-- Faults of the model. No meaning raises one: every trap, protection fault and page fault of the spec is a next
state (04 R128, R129, 15 R370). Kept so that a step that meets a state the model cannot have says so. -/
inductive Fault where
  /-- raised by `step` when `turn` names a team or event that does not exist; safe: the spec's device has no such
  state -/
  | noSuchTurn
  deriving DecidableEq, Repr

/-- Refusals of the model. -/
inductive Refusal where
  /-- raised by `exec` for a row that has no meaning yet; safe -/
  | notModelled (mnemonic : String)
  deriving DecidableEq, Repr

/-! ### Reset -/

/-- The control block's registers that are not zero at reset, by offset / 8 (16 Table 16.3 and the register maps of
12 R321, 14 R356, 16 R383, R396). ID.PART is 0x08; ID.SERIAL and ID.STEP have no reset value before bring-up
(DESIGN CHOICE 0, notes/assumptions/5.md). TIERCFG.TCSZ is the default 4 of 12 R307 until COLD_RESET. -/
def resetCtl : FMap Word64 :=
  [(0, 0x800), (10, (48 <<< 58) ||| (6 <<< 54) ||| (10 <<< 46) ||| (4 <<< 42) ||| (10 <<< 34) ||| (100 <<< 18) ||| 4),
   (11, (200 <<< 48) ||| (2000 <<< 32) ||| (16 <<< 16) ||| (4 <<< 8)),
   (64, (3200 <<< 52) ||| (1 <<< 51)), (65, 120 <<< 44)]

/-- The configuration record's fallback (16 R400), in force until COLD_RESET reads a record. -/
def resetConfig : ConfigRec :=
  { serial := 0, tcsz := 4, spare := 0, linken := 0, linkauth := false, pmax := 3200, cxlen := true, valid := false }

/-- The security block before COLD_RESET runs the ROM (16 R398); the store's contents are of the implementation. -/
def resetSec : Security :=
  { recovery := false, image := [], version := 0, minsvn := 0, staged := none, primary := [], backup := [], publicKey := [],
    privateKey := [],
    ide := false, hostTrained := false, retried := none }

/-- The device right after reset: no launch, team, command or message exists; registers at their reset values; the first
stage of bring-up, COLD_RESET, is due (16 R389). -/
def State.reset : State :=
  { mem := [], clock := 0, tick := 0, turn := none, cur := 0, iw := 0, arg := {}, events := [⟨.coldReset, {}⟩],
    teams := [], launches := [], groups := [], shares := [], resq := [], reserved := [], sparesUsed := [],
    coreDown := [], ctl := resetCtl, queues := [], ptr := [], bins := [],
    copies := [], nextCopy := 0, collected := [], faults := [], nextFseq := 0, errors := [], listUse := [], listNext := 0,
    msix := 0, msiSent := [], dir := [], txns := [], nextTxn := 0, lines := [], llc := [],
    wbuf := [], miss := [], delivered := [], buffered := [], seenTags := [], biWait := [], biReady := [], cxl := [],
    cxlNoData := [], cxlWait := [], llcCount := [], tcSpare := [], tcFills := [], tlb := [], walks := [],
    invs := [],
    moves := [], framePool := [], offers := [], thrash := [], lastHalve := 0, poison := [], remaps := [],
    routesDown := [], lostDies := [], ports := [], config := resetConfig, sec := resetSec, drainNow := 0, drainSince := 0, drainQueued := [],
    savedOrder := [], powerDown := 0, powerLog := [], unitFails := [], hostReady := [], hostAnswer := none, spawned := [] }

end Sys2Proof.Machine
end

