-- ==== Sys2Proof/Machine/Base.lean ====
section
/-! DEFINITION. Named reads and writes of the team that executes and of the control block: registers, masks, the top
divergence entry, the CSR fields. Every hard-wired behaviour of a register (k0, rows beyond L, reserved bits) is
here. -/

namespace Sys2Proof.Machine

/-- An accumulator set that is EMPTY (07 R203). -/
def emptySet : AccSet := { active := false, elems := [], bounds := [] }

/-- A team with every field at its start value (01 R21), before its launch sets the launch's fields. The mask of the
one divergence entry is set with the lanes. -/
def blankTeam : Team :=
  { status := .ready, launch := 0, die := 0, group := 0, dix := 0, gix := 0, tix := 0, ndie := 0, ngrp := 0,
    nteam := 0, cluster := 0, core := 0, slot := 0, lanes := 32, vregs := 8, depth := 0, record := 0, recAddr := 0,
    joins := [], sreg := [], vreg := [], mask := [], empty := [], tag := [], genSeed := 0, gen := [],
    div := [⟨0, 0, BitVec.allOnes 64⟩], ret := [], rp := BitVec.allOnes 64, spBase := 0, spPtr := 0, ndsp := 0,
    nrsp := 0, fp := 0, stk := [], flags := 0, fctl := 0x40000, iwarn := 0, mbound := 0x300000000,
    tile := 5, gang := 0, allow := 7, closed := 0, done := 0, slim := 0, tvec := 0, tcause := 0, tepc := 0,
    tmask := 0, acc0 := emptySet, acc1 := emptySet, holder := false, matq := [], prods := [], wait := .none,
    arr := false, prow := none, exc := 0, excFlags := 0, fseq := 0, cause := 0, nsave := 0, frameSlot := none,
    children := 0, sliceStart := 0, owed := [], badWords := [], pool := none, emitters := [], emit := none }

/-- Team number `k`. -/
def State.teamAt (s : State) (k : Nat) : Team := s.teams.getD k blankTeam

/-- Team `k` replaced. -/
def State.setTeam (s : State) (k : Nat) (t : Team) : State := { s with teams := s.teams.set k t }

/-- The team the instruction being executed belongs to. -/
def State.team (s : State) : Team := s.teamAt s.cur

/-- The executing team replaced. -/
def State.withTeam (s : State) (t : Team) : State := s.setTeam s.cur t

/-- A field of a 64-bit register: bits `[lo + n - 1 : lo]`. -/
def field (x : Word64) (lo n : Nat) : Nat := bitsAt x.toNat lo n

/-- A 64-bit register with a field replaced. -/
def setField (x : Word64) (lo n v : Nat) : Word64 := BitVec.ofNat 64 (putBits x.toNat lo n v)

/-! ### The top divergence entry (04 R109) -/

/-- NONE, the reconvergence address no PC equals (04 R109). -/
def noAddr : BitVec 64 := BitVec.allOnes 64

/-- The top entry of the divergence stack; a live team always holds one (04 R109). -/
def Team.top (t : Team) : DivEntry := t.div.headD ⟨0, 0, noAddr⟩

/-- The team's PC. -/
def Team.pc (t : Team) : BitVec 64 := t.top.pc

/-- The execute mask (01 R12). -/
def Team.exec (t : Team) : Mask := t.top.mask

/-- The top entry's PC replaced. -/
def Team.setPc (t : Team) (pc : BitVec 64) : Team :=
  match t.div with
  | [] => { t with div := [⟨pc, 0, noAddr⟩] }
  | e :: r => { t with div := { e with pc := pc } :: r }

/-- The instruction retires: the PC moves past its `n` bytes, and nothing of it waits any more. -/
def Team.advance (t : Team) (n : Nat) : Team :=
  { t.setPc (t.pc + BitVec.ofNat 64 n) with wait := .none, arr := false, prow := none }

/-- Does lane `n` stand in mask `m`? -/
def inMask (m : Mask) (n : Nat) : Bool := m.getLsbD n

/-- All lanes of a team of `l` lanes (01 R20: what k0 reads as). -/
def allLanes (l : Nat) : Mask := BitVec.ofNat 1024 (2 ^ l - 1)

/-- A mask from a predicate on lanes. -/
def maskOf (l : Nat) (f : Nat → Bool) : Mask :=
  BitVec.ofNat 1024 ((List.range l).foldl (fun a n => if f n then a + 2 ^ n else a) 0)

/-- A mask from a list of distinct lanes. -/
def maskOfList (ls : List Nat) : Mask := ls.foldl (fun a n => a ||| BitVec.ofNat 1024 (2 ^ n)) 0

/-- Row word `r` of a mask (01 R12). -/
def rowWord (m : Mask) (r : Nat) : Word32 := m.extractLsb' (32 * r) 32

/-- The row summary: bit i is 1 exactly when row word i is nonzero (01 R12). -/
def summary (m : Mask) : Word32 :=
  BitVec.ofNat 32 ((List.range 32).foldl (fun a r => if rowWord m r == 0 then a else a + 2 ^ r) 0)

/-- The lanes of row `r`. -/
def rowLanes (r : Nat) : List Nat := (List.range 32).map (32 * r + ·)

/-- The rows of a team. -/
def Team.rows (t : Team) : List Nat := List.range (t.lanes / 32)

/-- The rows a lane instruction sweeps: those with an active lane, ascending (01 R13). -/
def Team.sweptRows (t : Team) : List Nat := t.rows.filter fun r => rowWord t.exec r != 0

/-! ### Registers -/

/-- Scalar register (01 R19). -/
def Team.s (t : Team) (r : BitVec 6) : Word64 := fget 0 t.sreg r.toNat

/-- Scalar register written. -/
def Team.setS (t : Team) (r : BitVec 6) (v : Word64) : Team := { t with sreg := fput t.sreg r.toNat v }

/-- One lane of a vector register (01 R17). -/
def Team.v (t : Team) (reg lane : Nat) : Word32 := fget 0 t.vreg (reg * 1024 + lane)

/-- One lane of a vector register written; the word is in error no more (15 R371). -/
def Team.setV (t : Team) (reg lane : Nat) (x : Word32) : Team :=
  { t with vreg := fput t.vreg (reg * 1024 + lane) x, badWords := t.badWords.filter fun b => b != (reg, lane) }

/-- A 64-bit element of a pair: the named register holds the low half (02 Table 2.7). -/
def Team.v64 (t : Team) (reg lane : Nat) : Word64 := t.v (reg + 1) lane ++ t.v reg lane

/-- Mask register; k0 always reads as all L lanes (01 R20). -/
def Team.k (t : Team) (k : Nat) : Mask := if k = 0 then allLanes t.lanes else fget 0 t.mask k

/-- Mask register written; a write to k0 is discarded, bits at or above L are written zero (01 R20, 04 R119). -/
def Team.setK (t : Team) (k : Nat) (m : Mask) : Team :=
  if k = 0 then t else { t with mask := fput t.mask k (m &&& allLanes t.lanes) }

/-- The row bits of a register that are empty (01 R22). -/
def Team.emptyRows (t : Team) (reg : Nat) : Word32 := fget 0 t.empty reg

/-- Is row `r` of a register empty? -/
def Team.rowEmpty (t : Team) (reg r : Nat) : Bool := (t.emptyRows reg).getLsbD r

/-- Row `r` of a register marked empty or full. -/
def Team.setRow (t : Team) (reg r : Nat) (e : Bool) : Team :=
  let w := t.emptyRows reg
  let b : Word32 := BitVec.ofNat 32 (2 ^ r)
  { t with empty := fput t.empty reg (if e then w ||| b else w &&& ~~~b) }

/-- Format tag of a register (01 R26). -/
def Team.tagOf (t : Team) (reg : Nat) : BitVec 4 := fget 0 t.tag reg

/-- Format tags of registers set. -/
def Team.setTags (t : Team) (regs : List Nat) (g : BitVec 4) : Team :=
  { t with tag := fputAll t.tag regs fun _ => g }

/-- The stochastic generator a lane is seeded with (02 R59). -/
def genSeedOf (seed : Word32) (lane : Nat) : Word32 :=
  let g := seed ^^^ BitVec.ofNat 32 ((lane + 1) * 0x9E3779B9)
  if g = 0 then 1 else g

/-- The stochastic generator of a lane: as last stepped, or as seeded (02 R59). -/
def Team.g (t : Team) (lane : Nat) : Word32 := fget (genSeedOf t.genSeed lane) t.gen lane

/-- A generator written. -/
def Team.setG (t : Team) (lane : Nat) (g : Word32) : Team := { t with gen := fput t.gen lane g }

/-- Accumulator set 0 or 1. -/
def Team.acc (t : Team) (i : Nat) : AccSet := if i = 0 then t.acc0 else t.acc1

/-- Accumulator set written. -/
def Team.setAcc (t : Team) (i : Nat) (a : AccSet) : Team :=
  if i = 0 then { t with acc0 := a } else { t with acc1 := a }

/-! ### Register words in error (15 R371) -/

/-- The erasure lane of a row of a register: the exclusive or of its 32 words, kept up with every write of the row. -/
def Team.erasure (t : Team) (r w : Nat) : Word32 := (rowLanes w).foldl (fun x l => x ^^^ t.v r l) 0

/-- A word in error rebuilt: the exclusive or of the erasure lane and the row's other 31 words. -/
def Team.rebuilt (t : Team) (r l : Nat) : Word32 :=
  ((rowLanes (l / 32)).filter (· != l)).foldl (fun x i => x ^^^ t.v r i) (t.erasure r (l / 32))

/-- A row of registers as it is read: its words in error are rebuilt and written back. -/
def Team.heal (t : Team) (regs : List Nat) (w : Nat) : Team :=
  if t.badWords.isEmpty then t else
  (t.badWords.filter fun b => regs.contains b.1 && b.2 / 32 == w).foldl
    (fun (t : Team) b => t.setV b.1 b.2 (t.rebuilt b.1 b.2)) t

/-- Every row of registers as it is read. -/
def Team.healRows (t : Team) (regs : List Nat) : Team :=
  if t.badWords.isEmpty then t else t.rows.foldl (fun (t : Team) w => t.heal regs w) t

/-- Is a row of one of these registers lost: two words of it in error (15 R371)? -/
def Team.lostAt (t : Team) (regs : List Nat) (w : Nat) : Bool :=
  !t.badWords.isEmpty && regs.any fun r => decide (2 ≤ (t.badWords.filter fun b => b.1 == r && b.2 / 32 == w).length)

/-- Is any row of one of these registers lost? -/
def Team.lostRegs (t : Team) (regs : List Nat) : Bool := t.rows.any (t.lostAt regs)

/-! ### CSR fields -/

def Team.rm (t : Team) : Nat := field t.fctl 0 3
def Team.f16z (t : Team) : Bool := bitAt t.fctl.toNat 16
def Team.dtrap (t : Team) : Bool := bitAt t.fctl.toNat 17
def Team.tagt (t : Team) : Bool := bitAt t.fctl.toNat 18
/-- Trap enables, NV DZ OF UF NX from high to low, in the bit order of FLAGS (02 R60, 05 R138). -/
def Team.te (t : Team) : BitVec 5 := t.fctl.extractLsb' 19 5
def Team.handler (t : Team) : Bool := bitAt t.tcause.toNat 8
/-- Lanes in a tile: 2, 4, 8, 16 or 32 (01 R28). -/
def Team.tileSize (t : Team) : Nat := 2 ^ field t.tile 0 3
def Team.limit (t : Team) : Nat := field t.slim 4 53 * 16

/-- Bits of `IWARN` set (03 R86). -/
def Team.warn (t : Team) (bits : Nat) : Team := { t with iwarn := t.iwarn ||| BitVec.ofNat 64 bits }

/-! ### `IWARN` bits (03 R86) -/

def wTAG : Nat := 0x1
def wWIN : Nat := 0x2
def wPDN : Nat := 0x4
def wSCOPE : Nat := 0x8
def wHINT : Nat := 0x10
def wRND : Nat := 0x20
def wOPND : Nat := 0x40
def wZERO : Nat := 0x80
def wWAIT : Nat := 0x100
def wKZERO : Nat := 0x200
def wORD : Nat := 0x400
def wSAT : Nat := 0x800
def wDISC : Nat := 0x1000
def wSLICE : Nat := 0x2000

/-- A bit where a condition holds. -/
def wIf (c : Bool) (bit : Nat) : Nat := if c then bit else 0

/-! ### The control block (16 R383) -/

/-- The 64-bit register at a byte offset of the control block. -/
def State.creg (s : State) (off : Nat) : Word64 := fget 0 s.ctl (off / 8)

/-- A control-block register written. -/
def State.setCreg (s : State) (off : Nat) (v : Word64) : State := { s with ctl := fput s.ctl (off / 8) v }

/-- An event queued after those already due. -/
def State.post (s : State) (i : Instr) (arg : EvArg := {}) : State := { s with events := s.events ++ [⟨i, arg⟩] }

/-- An event put before those already due: one that keeps its place in an order. -/
def State.postFirst (s : State) (i : Instr) (arg : EvArg) : State := { s with events := ⟨i, arg⟩ :: s.events }

/-- An event queued unless the same one is already due. -/
def State.postOnce (s : State) (i : Instr) (arg : EvArg) : State :=
  if s.events.any fun e => e.row == i && e.arg == arg then s else s.post i arg

/-- One of a list: the only one, or a free choice; `w` says what is chosen, so that the choices of one step are free of each
other (14 R350: the dispatcher chooses as it sees fit). -/
def State.pickFrom {α : Type} (s : State) (w : Nat) (xs : List α) : Option α :=
  match xs with
  | [] => none
  | [x] => some x
  | _ => xs[Config.choose s.tick w xs.length % xs.length]?

/-! What is chosen, by number: 0 who moves, 1 an eviction, 2 a row that lands, 3 messages lost, 4 an interrupt delivered, 5 a way of
the host-proxy buffer; and with 16 times the item added: 6 a cached translation's place, 7 a frame slot, 8 a cluster, 9 a
core, 10 a core's slot, 11 a pool slot, 12 a bin. -/

/-- A launch. -/
def State.launch (s : State) (l : Nat) : Launch :=
  s.launches.getD l ⟨0, 0, 0, 0, none, 0, false, false, false, none⟩

/-- A launch replaced. -/
def State.setLaunch (s : State) (l : Nat) (x : Launch) : State := { s with launches := s.launches.set l x }

/-- The launch of the executing team. -/
def State.myLaunch (s : State) : Launch := s.launch s.team.launch

/-- The address space of the executing team. -/
def State.asid (s : State) : Nat := s.myLaunch.asid

/-- A cluster group. -/
def State.group (s : State) (g : Nat) : Group := s.groups.getD g ⟨0, 0, 0, 0, none, 0, [], 0, [], false⟩

/-- A cluster group replaced. -/
def State.setGroup (s : State) (g : Nat) (x : Group) : State := { s with groups := s.groups.set g x }

/-- A die share. -/
def State.share (s : State) (d : Nat) : Share := s.shares.getD d ⟨0, 0, 0, [], 0⟩

/-- A die share replaced. -/
def State.setShare (s : State) (d : Nat) (x : Share) : State := { s with shares := s.shares.set d x }

/-- The numbers of the teams that satisfy a predicate. -/
def State.teamsWith (s : State) (f : Team → Bool) : List Nat :=
  (List.range s.teams.length).filter fun k => f (s.teamAt k)

/-- Bytes of an instruction: a prefix and its lane word are 8, every other instruction 4 (03 R68). -/
def plen (p : Option Pfx) : Nat := if p.isSome then 8 else 4

end Sys2Proof.Machine
end

