-- ==== Sys2Proof/Machine/Codec.lean ====
section
/-! DEFINITION. The compressed block format (06 R193 to R196): the decoder that `DECODE` and the home's codec share.
A block is read through a function from offset to byte. -/

namespace Sys2Proof.Machine

/-- The 32-bit header of a block (06 R193). -/
structure BlockHead where
  rsvd : Nat
  ulen : Nat
  mode : Nat
  clen : Nat
  deriving DecidableEq, Repr

/-- The header read from four bytes (06 R193). -/
def blockHead (rd : Nat → Byte) : BlockHead :=
  let h := leNat ((List.range 4).map rd)
  ⟨bitsAt h 29 3, bitsAt h 16 13, bitsAt h 13 3, bitsAt h 0 13⟩

/-- Code length of a symbol (06 R193). -/
def codeLen (rd : Nat → Byte) (s : Nat) : Nat := bitsAt (rd (4 + s / 2)).toNat (4 * (s % 2)) 4

/-- Is the code over-subscribed: is the sum of 2^-len above 1 (06 R194)? -/
def overSubscribed (lens : List Nat) : Bool :=
  decide (2 ^ 15 < lens.foldl (fun a l => if l = 0 then a else a + 2 ^ (15 - l)) 0)

/-- The first code of each length 1 to 15, as (length, code) pairs (06 R194). -/
def firstCodes (lens : List Nat) : List (Nat × Nat) :=
  ((List.range 15).foldl (fun (acc : Nat × List (Nat × Nat)) i =>
    let l := i + 1
    let prev := if l = 1 then 0 else (lens.filter (· == l - 1)).length
    let code := (acc.1 + prev) * 2
    (code, acc.2 ++ [(l, code)])) (0, [])).2

/-- The code of every symbol of nonzero length: (length, code, symbol) (06 R194). -/
def codeTable (lens : List Nat) : List (Nat × Nat × Nat) :=
  (firstCodes lens).flatMap fun (l, c) =>
    (((lens.zipIdx.filter fun x => x.1 == l).map (·.2)).zipIdx).map fun (s, i) => (l, c + i, s)

/-- What reading a code gives: a symbol and the bit position after it, a bit pattern that is no code, or the end of
the input (06 R195). -/
inductive CodeRead where
  | sym (s pos : Nat)
  | absent (pos : Nat)
  | exhausted (pos : Nat)
  deriving DecidableEq, Repr

/-- Bit `k` of the stream, if it lies below CLEN (06 R194). -/
def streamBit (rd : Nat → Byte) (clen k : Nat) : Option Bool :=
  if 141 + k / 8 < clen then some ((rd (141 + k / 8)).getLsbD (k % 8)) else none

/-- A code read most significant bit first and matched at the first length that forms an assigned code
(06 R194). -/
def readCode (rd : Nat → Byte) (clen : Nat) (tab : List (Nat × Nat × Nat)) (fuel len code pos : Nat) : CodeRead :=
  match fuel with
  | 0 => .absent pos
  | f + 1 =>
    match streamBit rd clen pos with
    | none => .exhausted pos
    | some b =>
      let code := 2 * code + (if b then 1 else 0)
      match tab.find? fun x => x.1 == len + 1 && x.2.1 == code with
      | some x => .sym x.2.2 (pos + 1)
      | none => readCode rd clen tab f (len + 1) code (pos + 1)

/-- `n` bits least significant first, or the position of the bit that lies past CLEN (06 R194). -/
def readBits (rd : Nat → Byte) (clen n pos : Nat) : Nat × Nat :=
  match n with
  | 0 => (0, pos)
  | k + 1 =>
    match streamBit rd clen pos with
    | none => (0, pos)
    | some b =>
      let (v, p) := readBits rd clen k (pos + 1)
      ((if b then 1 else 0) + 2 * v, p)

/-- What a block decodes to: the bytes produced, newest first, the bytes consumed, and the code of 06 Table 6.5. -/
structure Decoded where
  out : List Byte
  consumed : Nat
  code : Nat
  deriving DecidableEq, Repr

/-- Bytes consumed after `pos` bits of the stream (06 R196). -/
def consumedAt (pos : Nat) : Nat := 141 + (pos + 7) / 8

/-- `n` bytes copied from distance `d` (06 R195); `out` is newest first. -/
def copyBack (out : List Byte) (d n : Nat) : List Byte :=
  match n with
  | 0 => out
  | k + 1 => copyBack (out.getD (d - 1) 0 :: out) d k

/-- The decoding loop of a coded block (06 R195); every pass produces a byte or stops. -/
def decodeLoop (rd : Nat → Byte) (h : BlockHead) (limit : Nat) (tab : List (Nat × Nat × Nat)) (fuel : Nat)
    (out : List Byte) (n pos : Nat) : Decoded :=
  match fuel with
  | 0 => ⟨out, consumedAt pos, 4⟩
  | f + 1 =>
    match readCode rd h.clen tab 15 0 0 pos with
    | .exhausted p => ⟨out, consumedAt p, 3⟩
    | .absent p => ⟨out, consumedAt p, 2⟩
    | .sym s p =>
      if s < 256 then
        if n = limit then ⟨out, consumedAt p, 4⟩
        else decodeLoop rd h limit tab f (BitVec.ofNat 8 s :: out) (n + 1) p
      else if s = 256 then ⟨out, consumedAt p, if n = h.ulen then 0 else 5⟩
      else
        let eb := if s = 272 then 8 else 0
        let (e, p1) := readBits rd h.clen eb p
        let (d, p2) := readBits rd h.clen 12 p1
        let k := if s = 272 then 18 + e else s - 254
        if p1 < p + eb then ⟨out, consumedAt p1, 3⟩
        else if p2 < p1 + 12 then ⟨out, consumedAt p2, 3⟩
        else if n < d + 1 then ⟨out, consumedAt p2, 1⟩
        else if limit < n + k then ⟨out, consumedAt p2, 4⟩
        else decodeLoop rd h limit tab f (copyBack out (d + 1) k) (n + k) p2

/-- A block decoded with room for `cap` bytes (06 R195). -/
def decodeBlock (rd : Nat → Byte) (cap : Nat) : Decoded :=
  let h := blockHead rd
  if h.rsvd ≠ 0 ∨ 1 < h.mode ∨ h.clen < 4 ∨ 4096 < h.clen ∨ 4096 < h.ulen then ⟨[], 4, 6⟩
  else if h.mode = 0 then
    let n := min h.ulen (min cap (h.clen - 4))
    let out := ((List.range n).map fun i => rd (4 + i)).reverse
    ⟨out, 4 + n, if n = h.ulen then 0 else if n = cap then 4 else 3⟩
  else if h.clen < 141 then ⟨[], 4, 3⟩
  else
    let lens := (List.range 273).map (codeLen rd)
    if bitsAt (rd 140).toNat 4 4 ≠ 0 ∨ overSubscribed lens then ⟨[], 141, 6⟩
    else
      let limit := min h.ulen cap
      decodeLoop rd h limit (codeTable lens) (limit + 2) [] 0 0

/-- The status word of `DECODE` (06 R196). -/
def Decoded.status (d : Decoded) : Word64 := BitVec.ofNat 64 (d.consumed <<< 32 ||| d.out.length <<< 16 ||| d.code)

end Sys2Proof.Machine
end

