-- ==== Sys2Proof/Machine/Phys.lean ====
section
/-! DEFINITION. Physical memory: the map of 12 Table 12.6, the tier cache in front of Steppe (12 R308 to R311),
readiness (16 R390) and poisoned words (15 R375). -/

namespace Sys2Proof.Machine

/-- What a physical address belongs to (12 Table 12.6). -/
inductive PRange where
  | flat (d : Nat)
  | steppe
  | host
  | peer (p : Nat)
  | unmapped
  deriving DecidableEq, Repr

/-- The size of the tier cache in bytes by its code (12 R307, R321). -/
def tcBytes (code : Nat) : Nat :=
  match code with
  | 1 => 2 ^ 34
  | 2 => 2 ^ 35
  | 3 => 2 ^ 36
  | 4 => 2 ^ 37
  | 5 => 2 ^ 38
  | _ => 0

/-- The tier cache's size in force: `TIERCFG`.TCSZ. -/
def State.tc (s : State) : Nat := tcBytes (field (s.creg 0x50) 0 3)

/-- Bytes of HBM of one die (12 Table 12.6). -/
def dieSpan : Nat := 0x1800000000

/-- First byte of Steppe, of the metadata arrays, of host memory, of the peer windows (12 Table 12.6). -/
def steppeBase : Nat := 0x10000000000
def metaBase : Nat := 0x30000000000
def hostBase : Nat := 0x4000000000000
def peerBase : Nat := 0x8000000000000

/-- The range a physical address lies in; the tier-cache regions and the metadata arrays are not mapped. -/
def physRange (tc pa : Nat) : PRange :=
  if pa < 8 * dieSpan then
    if pa % dieSpan < dieSpan - tc / 8 then .flat (pa / dieSpan) else .unmapped
  else if decide (steppeBase ≤ pa) && decide (pa < metaBase) then .steppe
  else if decide (hostBase ≤ pa) && decide (pa < peerBase) then .host
  else if decide (peerBase ≤ pa) && decide (pa < peerBase + 8 * 2 ^ 44) then .peer ((pa - peerBase) / 2 ^ 44)
  else .unmapped

/-- The home of a line (11 Table 11.1, 12 Table 12.6). -/
def homeOf (tc pa : Nat) : Site :=
  match physRange tc pa with
  | .flat d => .die d
  | .steppe => .tier (9 + bitsAt pa 12 1)
  | .peer p => .peer p
  | _ => .hostProxy

/-- Is a line of host memory? -/
def hostLine (tc l : Nat) : Bool := physRange tc (64 * l) == .host

/-- The slice of a line in a last-level cache of 16 (11 Table 11.1): pa[9:6] xor pa[13:10] xor pa[17:14]. -/
def sliceOf (l : Nat) : Nat := bitsAt l 0 4 ^^^ bitsAt l 4 4 ^^^ bitsAt l 8 4

/-- The readiness bit of `READY` and `FAILED` that covers an address (16 R388, R390); none for a peer window. -/
def readyBit (tc pa : Nat) : Option Nat :=
  match physRange tc pa with
  | .flat d => some (16 + 2 * d + bitsAt pa 12 1)
  | .steppe => some 32
  | .host => some 33
  | _ => none

/-- Has the function that serves an address come up? (16 R390) -/
def State.memReady (s : State) (pa : Nat) : Bool :=
  match readyBit s.tc pa with
  | none => true
  | some b => bitAt (s.creg 0x10).toNat b

/-- Has it failed, or is the address homed on a die that is lost? (16 R388, R390, 11 R303, 15 R376) -/
def State.memFailed (s : State) (pa : Nat) : Bool :=
  (match readyBit s.tc pa with
   | none => false
   | some b => bitAt (s.creg 0x20).toNat b) ||
  (match physRange s.tc pa with
   | .flat d => bitAt (s.creg 0x20).toNat d
   | _ => false)

/-! ### The tier cache (12 R308 to R310) -/

/-- Sets of the tier cache. -/
def tcSets (tc : Nat) : Nat := tc / 2048

/-- Sector of a Steppe address. -/
def sectorOf (pa : Nat) : Nat := (pa - steppeBase) / 2048

/-- Set, tag and line of a Steppe address (12 R308). -/
def tcSet (tc pa : Nat) : Nat := sectorOf pa % tcSets tc
def tcTag (tc pa : Nat) : Nat := sectorOf pa / tcSets tc
def tcLine (pa : Nat) : Nat := bitsAt (pa - steppeBase) 6 5

/-- Where a line of a set lies in HBM (12 R308: die k[2:0], byte (k >> 3) x 2,048 of its tier-cache region). -/
def tcLoc (tc k l : Nat) : Nat := (k % 8) * dieSpan + (dieSpan - tc / 8) + (k / 8) * 2048 + l % 32 * 64

/-- Spare bits of a tier-cache line (12 Table 12.7). -/
def State.spare (s : State) (k l : Nat) : BitVec 16 := fget 0 s.tcSpare (k * 32 + l)

/-- Spare bits written. -/
def State.setSpare (s : State) (k l : Nat) (x : BitVec 16) : State :=
  { s with tcSpare := fput s.tcSpare (k * 32 + l) x }

/-- Spare bits with TAG, V and D (12 Table 12.7). -/
def spareBits (tag : Nat) (v d : Bool) : BitVec 16 :=
  BitVec.ofNat 16 (tag * 512 + (if v then 256 else 0) + (if d then 128 else 0))

/-- Does the line hold valid data of the sector of tag `t`? -/
def spareHit (x : BitVec 16) (t : Nat) : Bool := bitAt x.toNat 8 && bitsAt x.toNat 9 7 == t

/-- Is a word of the 64 bytes from an address on stored in error? -/
def State.lineBad (s : State) (a : Nat) : Bool := s.poison.any fun w => decide (a / 4 ≤ w) && decide (w < a / 4 + 16)

/-- Copy 64 bytes within physical memory. -/
def copyLine (m : Memory) (dst src : Nat) : Memory := Memory.writes m dst (Memory.reads m src 64)

/-- The words in error after 64 bytes have been copied: those of the source are in error at the target too (15 R375). -/
def copyPoison (ps : List Nat) (dst src : Nat) : List Nat :=
  if ps.isEmpty then ps else
  (ps.filter fun w => !(decide (dst / 4 ≤ w) && decide (w < dst / 4 + 16))) ++
  (ps.filter fun w => decide (src / 4 ≤ w) && decide (w < src / 4 + 16)).map fun w => w - src / 4 + dst / 4

/-- Does line `l` of set `k` serve the sector of tag `t`: valid data of it, and not a clean line in error, which is refilled
(12 R310, R311)? -/
def State.tcHit (s : State) (k t l : Nat) : Bool :=
  spareHit (s.spare k l) t && (bitAt (s.spare k l).toNat 7 || !s.lineBad (tcLoc s.tc k l))

/-- Where line `l` of the sector with tag `t` in set `k` lies in Steppe. -/
def steppeLine (tc k t l : Nat) : Nat := steppeBase + (t * tcSets tc + k) * 2048 + l * 64

/-- A line of a fill lands: TAG := t, V := 1, D := 0 (12 R310). -/
def State.landLine (s : State) (k t l : Nat) : State :=
  { s.setSpare k l (spareBits t true false) with
    mem := copyLine s.mem (tcLoc s.tc k l) (steppeLine s.tc k t l)
    poison := copyPoison s.poison (tcLoc s.tc k l) (steppeLine s.tc k t l) }

/-- Every dirty line of a set written back to Steppe, and the set emptied (12 R310). -/
def State.evictSet (s : State) (k : Nat) : State :=
  (List.range 32).foldl (fun s l =>
    let x := s.spare k l
    let s := if bitAt x.toNat 8 && bitAt x.toNat 7
             then { s with
               mem := copyLine s.mem (steppeLine s.tc k (bitsAt x.toNat 9 7) l) (tcLoc s.tc k l)
               poison := copyPoison s.poison (steppeLine s.tc k (bitsAt x.toNat 9 7) l) (tcLoc s.tc k l) }
             else s
    s.setSpare k l (x &&& 0xFEFF)) s

/-- The fill of a set that is still landing: its tag and the lines to come. -/
def State.fillOf (s : State) (k : Nat) : Option (Nat × List Nat) :=
  (s.tcFills.find? fun f => f.1 == k).map (·.2)

/-- The rest of a fill lands (an access that needs the whole set waits for it, 12 R310). -/
def State.landAll (s : State) (k : Nat) : State :=
  match s.fillOf k with
  | none => s
  | some (t, ls) => { ls.foldl (fun s l => s.landLine k t l) s with tcFills := s.tcFills.filter fun f => f.1 != k }

/-- An access to a set whose fill is still landing waits for the whole set, unless it hits a landed line of the same
sector (12 R310). -/
def State.tcSettle (s : State) (k t l : Nat) : State :=
  match s.fillOf k with
  | none => s
  | some (t', ls) => if t' == t && !ls.contains l then s else s.landAll k

/-- A miss in set `k`: the dirty lines are written back, the set is emptied, line `l` of the sector with tag `t` lands
first and the others are left to land (TIER_CACHE_FILL); nothing on a hit; a clean line in error is refilled alone (12
R310, R311). -/
def State.tcFetch (s : State) (k t l : Nat) : State :=
  if s.tcHit k t l then s else
  if spareHit (s.spare k l) t then s.landLine k t l else
  let s := ((s.landAll k).evictSet k).landLine k t l
  { s with
    tcFills := s.tcFills ++ [(k, t, ((List.range 31).map fun i => (l + 1 + i) % 32))]
    events := s.events ++ [⟨.tierCacheFill, { a := k }⟩] }

/-- The line of a Steppe address brought into the tier cache (12 R310). -/
def State.tcEnsure (s : State) (pa : Nat) : State :=
  let tc := s.tc
  if tc = 0 then s else
  (s.tcSettle (tcSet tc pa) (tcTag tc pa) (tcLine pa)).tcFetch (tcSet tc pa) (tcTag tc pa) (tcLine pa)

/-- Where the current value of a byte of physical memory stands: its own address, or the tier-cache line that holds
it (12 R310, R311). -/
def State.placeOf (s : State) (pa : Nat) : Nat :=
  match physRange s.tc pa with
  | .steppe =>
    let tc := s.tc
    if tc = 0 then pa else
    if s.tcHit (tcSet tc pa) (tcTag tc pa) (tcLine pa)
    then tcLoc tc (tcSet tc pa) (tcLine pa) + (pa - steppeBase) % 64 else pa
  | _ => pa

/-- A byte as its home stores it; what a peer's memory answers is the peer's (16 R393), a free value. -/
def State.rawPhys (s : State) (pa : Nat) : Byte :=
  match physRange s.tc pa with
  | .peer _ => Config.peerByte s.tick pa
  | _ => s.mem.read (s.placeOf pa)

/-- The metadata byte of the 256-byte block of an address (11 R294). -/
def State.metaByte (s : State) (pa : Nat) : Byte := s.mem.read (metaBase + pa / 256)

/-- Is the block of an address held compressed (11 R294)? Only bandwidth-tier and Steppe blocks have metadata. -/
def State.packed (s : State) (pa : Nat) : Bool := decide (pa < metaBase) && (s.metaByte pa).getLsbD 7

/-- The block of an address decoded (11 R294, R295). -/
def State.unpackBlock (s : State) (pa : Nat) : Decoded :=
  decodeBlock (fun i => s.rawPhys (pa / 256 * 256 + i)) 256

/-- A byte of physical memory as last performed at its home, which alone reads a compressed block (11 R294). -/
def State.readPhys (s : State) (pa : Nat) : Byte :=
  if s.packed pa then (s.unpackBlock pa).out.reverse.getD (pa % 256) 0 else s.rawPhys pa

/-- Consecutive bytes of physical memory. -/
def State.readsPhys (s : State) (pa n : Nat) : List Byte := (List.range n).map fun i => s.readPhys (pa + i)

/-- A little-endian word of physical memory. -/
def State.readPhysLe (s : State) (pa n : Nat) : Nat := leNat (s.readsPhys pa n)

/-- The line of a Steppe address marked dirty in the tier cache. -/
def State.tcDirty (s : State) (pa : Nat) : State :=
  let tc := s.tc
  if tc = 0 then s else
  s.setSpare (tcSet tc pa) (tcLine pa) (s.spare (tcSet tc pa) (tcLine pa) ||| 0x80)

/-- A byte stored by its home: Steppe stores allocate in the tier cache and mark the line dirty (12 R310); a byte for a
peer leaves the device (16 R393). -/
def State.writeRaw (s : State) (pa : Nat) (b : Byte) : State :=
  match physRange s.tc pa with
  | .steppe =>
    let s := (s.tcEnsure pa).tcDirty pa
    { s with mem := s.mem.write (s.placeOf pa) b }
  | .peer _ => s
  | _ => { s with mem := s.mem.write pa b }

/-- Consecutive bytes stored by their home. -/
def State.writesRaw (s : State) (pa : Nat) (bs : List Byte) : State :=
  match bs with
  | [] => s
  | b :: r => (s.writeRaw pa b).writesRaw (pa + 1) r

/-- A compressed block expanded: its 256 bytes written uncompressed, C and CU cleared (11 R296). -/
def State.expand (s : State) (pa : Nat) : State :=
  if s.packed pa then
    let bs := (List.range 256).map fun i => (s.unpackBlock pa).out.reverse.getD i 0
    { s.writesRaw (pa / 256 * 256) bs with
      mem := (s.writesRaw (pa / 256 * 256) bs).mem.write (metaBase + pa / 256) 0 }
  else s

/-- A byte written at its home; a compressed block is expanded before anything else (11 R296). -/
def State.writePhys (s : State) (pa : Nat) (b : Byte) : State := (s.expand pa).writeRaw pa b

/-- Consecutive bytes written at their homes. -/
def State.writesPhys (s : State) (pa : Nat) (bs : List Byte) : State :=
  match bs with
  | [] => s
  | b :: r => (s.writePhys pa b).writesPhys (pa + 1) r

/-- A little-endian word written at its home. -/
def State.writePhysLe (s : State) (pa n v : Nat) : State := s.writesPhys pa (leBytes n v)

/-- A block of 256 bytes compressed by the home's codec when its form of 06 R193 fits 240 bytes (11 R297). Which
form the codec finds is a free value (`Config.compress`); it is used only if it decodes to the block's bytes. -/
def State.packBlock (s : State) (pa : Nat) : State :=
  let base := pa / 256 * 256
  if s.packed pa then s else
  let bytes := s.readsPhys base 256
  let blk := Config.compress s.tick bytes
  let rd := fun i => blk.getD i 0
  let h := blockHead rd
  let d := decodeBlock rd 256
  let cu := (h.clen + 15) / 16
  if d.code = 0 ∧ d.out.reverse = bytes ∧ h.ulen = 256 ∧ h.clen = blk.length ∧ 1 ≤ cu ∧ cu ≤ 15 then
    let s := s.writesRaw base blk
    { s with mem := s.mem.write (metaBase + base / 256) (BitVec.ofNat 8 (128 + cu)) }
  else s

/-- Does the compressed block of an address fail to decode, or hold a word in error: an uncorrectable memory error (11 R296,
15 R375)? -/
def State.badBlock (s : State) (pa : Nat) : Bool :=
  s.packed pa && ((s.unpackBlock pa).code != 0 ||
    (List.range (4 * bitsAt (s.metaByte pa).toNat 0 4)).any fun i => s.poison.contains (s.placeOf (pa / 256 * 256 + 4 * i) / 4))

/-- Is the 4-byte word of an address poisoned, where its current value stands (15 R375)? -/
def State.poisoned (s : State) (pa : Nat) : Bool := if s.packed pa then s.badBlock pa else s.poison.contains (s.placeOf pa / 4)

/-- A store of `n` bytes of a line that writes a whole poisoned word clears its poison (15 R375). -/
def State.clearPoison (s : State) (pa n : Nat) : State :=
  if s.poison.isEmpty then s else
  let a := s.placeOf pa
  { s with poison := s.poison.filter fun w => !(decide (a ≤ 4 * w) && decide (4 * w + 4 ≤ a + n)) }

/-- A home reads or writes a line of Steppe through the tier cache (12 R310); other memory has none. -/
def State.tcTouch (s : State) (l : Nat) : State := if physRange s.tc (64 * l) = .steppe then s.tcEnsure (64 * l) else s

end Sys2Proof.Machine
end

