-- ==== Sys2Proof/Machine/Links.lean ====
section
/-! DEFINITION. The Abfort ports (16 R391, R392, R394): the flit's layout, the retry buffer, and the port that carries a
line. -/

namespace Sys2Proof.Machine

/-! ### Flits (16 R391) -/

/-- One byte into a CRC-64 with the ECMA-182 polynomial, highest bit first. -/
def crcByte (c : BitVec 64) (b : Byte) : BitVec 64 :=
  (List.range 8).foldl (fun c _ => if c.msb then (c <<< 1) ^^^ 0x42F0E1EBA9EA3693 else c <<< 1) (c ^^^ (b.setWidth 64 <<< 56))

/-- The CRC over bytes, from zero (PRESUMED: notes/assumptions/67.md). -/
def crc64 (bs : List Byte) : BitVec 64 := bs.foldl crcByte 0

/-- Bits of `n` bytes of a flit. -/
def Flit.word (f : Flit) (o n : Nat) : Nat := leNat ((f.bytes.drop o).take n)

def Flit.type (f : Flit) : Nat := bitsAt (f.word 0 1) 4 4
def Flit.vc (f : Flit) : Nat := bitsAt (f.word 0 1) 2 2
def Flit.seq (f : Flit) : BitVec 12 := BitVec.ofNat 12 (f.word 1 2)
def Flit.ack (f : Flit) : BitVec 12 := BitVec.ofNat 12 (f.word 3 2)
def Flit.nak (f : Flit) : Bool := bitAt (f.word 3 2) 12

/-- The fifteen slots of 16 bytes. -/
def Flit.slots (f : Flit) : List (List Byte) := (List.range 15).map fun i => (f.bytes.drop (8 + 16 * i)).take 16

/-- Is a flit whole, with the CRC that its bytes have? -/
def Flit.crcOk (f : Flit) : Bool := f.bytes.length == 256 && crc64 (f.bytes.take 248) == BitVec.ofNat 64 (f.word 248 8)

/-- A flit from its fields; its zero fields are zero. -/
def Flit.make (type vc : Nat) (seq ack : BitVec 12) (nak : Bool) (slots : List Byte) : Flit :=
  let body := leBytes 1 (type % 16 * 16 + vc % 4 * 4) ++ leBytes 2 seq.toNat ++
    leBytes 2 (ack.toNat + if nak then 4096 else 0) ++ leBytes 3 0 ++ (List.range 240).map fun i => slots.getD i 0
  ⟨body ++ leBytes 8 (crc64 body).toNat⟩

/-! ### Ports (16 R392, R394) -/

/-- A port's link state; none sent or received yet. -/
def State.port (s : State) (p : Nat) : Port := fget ⟨0, 0, [], 0, [], [], none⟩ s.ports p

/-- A port's link state written. -/
def State.setPort (s : State) (p : Nat) (x : Port) : State := { s with ports := fput s.ports p x }

/-- The state a port is in (16 R394): its STATE, but a port that has trained goes on where a function-level reset has returned the
register to 0 (R390). -/
def State.linkState (s : State) (p : Nat) : Nat :=
  let st := field (s.creg (0x800 + 32 * p)) 0 3
  if st = 0 && bitAt (s.creg 0x10).toNat (40 + p) then 3 else st

/-- A port put into a STATE (16 R394). -/
def State.setLinkState (s : State) (p st : Nat) : State := s.setCreg (0x800 + 32 * p) (setField (s.creg (0x800 + 32 * p)) 0 3 st)

/-- Resends counted, saturating (16 R394). -/
def State.countResends (s : State) (p n : Nat) : State :=
  let o := 0x800 + 32 * p
  s.setCreg o (setField (s.creg o) 32 32 (min (field (s.creg o) 32 32 + n) (2 ^ 32 - 1)))

/-- The ports of the group of peer window `p`, those whose peer is the same, that are in one of some states (16 R392). -/
def State.peerPorts (s : State) (p : Nat) (states : List Nat) : List Nat :=
  (List.range 8).filter fun q =>
    (q == p || (s.creg (0x808 + 32 * q) == s.creg (0x808 + 32 * p) && s.creg (0x808 + 32 * p) != 0)) &&
    states.contains (s.linkState q)

/-- The port that carries a line of peer window `p`: the group's up port at index (line address / 64) mod n (16 R392). -/
def State.portFor (s : State) (p l : Nat) : Option Nat :=
  let ps := s.peerPorts p [3]
  ps[l % ps.length]?

/-- A watch on a port's outstanding flits is due. -/
def State.watchPort (s : State) (p : Nat) : State :=
  if (s.port p).retry.isEmpty then s else s.postOnce .linkAckTimeout { a := p }

/-- A flit of messages about a line sent on a port: it stays in the retry buffer of 1,024 until it is acknowledged; with the
buffer full it waits (16 R392). -/
def State.sendFlit (s : State) (p l : Nat) (slots : List Byte) : State :=
  let x := s.port p
  if 1024 ≤ x.retry.length then s.setPort p { x with backlog := x.backlog ++ [(l, slots)] } else
  let f := Flit.make 1 (Config.flitChannel l) (x.txSeq + 1) x.rxSeq false slots
  let x : Port := { x with
    txSeq := x.txSeq + 1, retry := x.retry ++ [(f, l, 0)], sent := some f
    since := if x.retry.isEmpty then s.clock.toNat else x.since }
  (s.setPort p x).watchPort p

/-- What waits for room in a port's retry buffer is sent. -/
def State.sendBacklog (s : State) (p : Nat) : State :=
  let q := (s.port p).backlog
  q.foldl (fun (s : State) x => s.sendFlit p x.1 x.2) (s.setPort p { s.port p with backlog := [] })

/-- An access to a line of peer window `p` leaves the device on the line's port (16 R392, R393); how slots encode a message is not
in the spec (`Config.flitSlots`). -/
def State.peerSend (s : State) (p l : Nat) : State :=
  match s.portFor p l with
  | none => s
  | some q => s.sendFlit q l (Config.flitSlots s.tick l)

/-- Flits acknowledged: those up to a sequence number leave the retry buffer. -/
def Port.acked (x : Port) (ack : BitVec 12) (now : Nat) : Port :=
  let r := x.retry.filter fun f => decide (2048 ≤ (ack - f.1.seq).toNat)
  if r.length = x.retry.length then x else { x with retry := r, since := now }

/-- An acknowledgement, or with `nak` a NAK, sent on a port (16 R392). -/
def State.answerFlit (s : State) (p : Nat) (nak : Bool) : State :=
  let x := s.port p
  s.setPort p { x with sent := some (Flit.make 2 0 x.txSeq x.rxSeq nak []) }

end Sys2Proof.Machine
end

