-- ==== Sys2Proof/Machine/Coh.lean ====
section
/-! DEFINITION. Caches, homes and proxies (11 R278 to R293), as whole transactions: what one request does to the
directory entry of its line, to the other holders, and to memory. The messages of Table 11.6 one by one are in
Machine/CohMsg.lean, over the same operations.

Memory holds the latest value performed under own, wt or wi (10 R265): the dirty bytes of an owner are already in
`mem`, and its cached line keeps in `behind` what the home last merged (11 R303). An si copy keeps its own bytes in
`data` (10 R267). -/

namespace Sys2Proof.Machine

/-! ### Masks of words and bytes -/

/-- The byte mask of a word mask: word w is bytes 4w to 4w + 3 (11 R281). -/
def wordsToBytes (w : BitVec 16) : BitVec 64 :=
  BitVec.ofNat 64 ((List.range 16).foldl (fun a i => if w.getLsbD i then a + 15 * 2 ^ (4 * i) else a) 0)

/-- The words a byte mask touches. -/
def bytesToWords (b : BitVec 64) : BitVec 16 :=
  BitVec.ofNat 16 ((List.range 16).foldl (fun a i => if b.extractLsb' (4 * i) 4 != 0 then a + 2 ^ i else a) 0)

/-- The byte mask of `n` bytes from offset `o` of a line. -/
def byteMask (o n : Nat) : BitVec 64 := BitVec.ofNat 64 ((2 ^ n - 1) * 2 ^ o)

/-- Words in a mask. -/
def popc16 (m : BitVec 16) : Nat := ((List.range 16).filter fun i => m.getLsbD i).length

/-- Byte `i` of a line's data. -/
def dataByte (d : BitVec 512) (i : Nat) : Byte := d.extractLsb' (8 * i) 8

/-- Byte `i` of a line's data replaced. -/
def putDataByte (d : BitVec 512) (i : Nat) (b : Byte) : BitVec 512 :=
  BitVec.ofNat 512 (putBits d.toNat (8 * i) 8 b.toNat)

/-- The bytes in a mask. -/
def maskBytes (m : BitVec 64) : List Nat := (List.range 64).filter fun i => m.getLsbD i

/-- A line's data with the bytes of a mask taken from another. -/
def blend (old new : BitVec 512) (m : BitVec 64) : BitVec 512 :=
  (maskBytes m).foldl (fun x i => putDataByte x i (dataByte new i)) old

/-! ### Messages and requests to the host -/

/-- A message sent: it is due at its receiver. -/
def State.send (s : State) (row : Instr) (m : Msg) : State := s.post row { m := some m }

/-- A message with nothing but its addresses and tag. -/
def Msg.bare (m : Msg) : Msg :=
  { m with mask := 0, bmask := 0, data := 0, grant := 0, valid := 0, released := 0, op := none, result := 0, block := [] }

/-- One poll of what is outstanding is due (11 R302: 32 us without an answer). -/
def State.watch (s : State) : State :=
  if s.events.any fun e => e.row == .resendTimeout then s else s.post .resendTimeout

/-- A message of the host-proxy home to the host about a line (11 Table 11.9): `want` 0 RdCurr, 1 RdShared, 2 RdOwn,
3 RdOwnNoData, 4 WOWrInv, 5 DirtyEvict, 6 CleanEvict, 7 CleanEvictNoData. -/
def State.askHost (s : State) (line want : Nat) : State :=
  if s.cxlWait.contains (line, want) then s else
  let s : State := { s with cxlWait := s.cxlWait ++ [(line, want)] }
  s.post .cxlCacheResponse { a := line, b := want }

/-- Bytes merged at the host-proxy home into a host line (11 Table 11.9): E becomes M; of a line the buffer lacks they go to
the host by WOWrInv. -/
def State.hostMerged (s : State) (l : Nat) (m : BitVec 64) : State :=
  if m = 0 || !hostLine s.tc l then s else
  match fget .i s.cxl l with
  | .i => s.askHost l 4
  | .e => { s with cxl := fput s.cxl l .m }
  | _ => s

/-- A host line written by the device becomes M: from E, or where all of it is written from the ownership that came without
data (11 Table 11.9). -/
def State.hostWritten (s : State) (l : Nat) : State :=
  if fget .i s.cxl l = .e ∨ s.cxlNoData.contains l then
    { s with cxl := fput s.cxl l .m, cxlNoData := s.cxlNoData.filter (· != l) } else s

/-! ### Pages under migration (12 R323, R324) -/

/-- Page size by SIZE. -/
def pageSize (size : Nat) : Nat :=
  match size with
  | 1 => 2 ^ 16
  | 2 => 2 ^ 21
  | _ => 2 ^ 30

/-- The first line and the lines of the page a move takes away. -/
def Move.page (m : Move) : Nat × Nat := (field m.leaf 16 36 * 1024, pageSize (field m.leaf 6 2) / 64)

/-- The move whose page holds a line: the old home queues every request for it (12 R324). -/
def State.migrating (s : State) (l : Nat) : Option Nat :=
  (List.range s.moves.length).find? fun i => match s.moves[i]? with
    | some m => m.state != .abandon && decide (m.page.1 ≤ l) && decide (l < m.page.1 + m.page.2)
    | none => false

/-! ### Cached lines and directory entries -/

/-- A line an agent does not hold. -/
def noLine (a : Agent) (l : Nat) : CLine := ⟨a, l, 0, 0, false, 0, 0, 0⟩

/-- The words of a copy that its home neither tracks nor has granted: an si copy (10 R267). -/
def CLine.siWords (c : CLine) : BitVec 16 := if c.tracked then 0 else c.valid &&& ~~~c.owned

/-- The words of a copy that the home keeps the same everywhere: owned ones, and the valid ones of a tracked copy. -/
def CLine.cohWords (c : CLine) : BitVec 16 := c.owned ||| (if c.tracked then c.valid else 0)

/-- An agent's copy of a line. -/
def State.line (s : State) (a : Agent) (l : Nat) : CLine :=
  (s.lines.find? fun c => c.line == l && c.agent == a).getD (noLine a l)

/-- An agent's copy replaced; a copy with no valid word and no dirty byte is dropped. -/
def State.setLine (s : State) (c : CLine) : State :=
  let rest := s.lines.filter fun x => !(x.line == c.line && x.agent == c.agent)
  { s with lines := if c.valid == 0 && c.owned == 0 && c.dirty == 0 then rest else rest ++ [c] }

/-- A directory entry in state I (11 R283). -/
def noEntry (site : Site) (l : Nat) : DirEntry := ⟨site, l, 0, none, 0, none, 0, 0, 0, 0, 0⟩

/-- Is an entry that of a line at a site? -/
def DirEntry.at (e : DirEntry) (site : Site) (l : Nat) : Bool := e.line == l && e.site == site

/-- The entry of a line at a site. -/
def State.entry (s : State) (site : Site) (l : Nat) : DirEntry := (s.dir.find? fun e => e.at site l).getD (noEntry site l)

/-- The slice of a site that keeps a line's entry: a die has 16 (11 Table 11.1). -/
def Site.slice (site : Site) (l : Nat) : Nat :=
  match site with
  | .die _ => sliceOf l
  | _ => 0

/-- The entries of a line's set at a site: 16 ways (11 R285); the spec gives no set index (`Config.dirSet`). -/
def State.dirSetOf (s : State) (site : Site) (l : Nat) : List DirEntry :=
  s.dir.filter fun x => x.site == site && site.slice x.line == site.slice l && Config.dirSet x.line == Config.dirSet l

/-- The lowest-numbered way not in use. -/
def freeWay (ways : List Nat) : Nat := ((List.range (ways.length + 1)).find? fun w => !ways.contains w).getD ways.length

/-- An entry replaced, in its way; a new one takes the lowest free way of its set; an entry in state I is freed. -/
def State.setEntry (s : State) (e : DirEntry) : State :=
  let way := match s.dir.find? fun x => x.at e.site e.line with
    | some x => x.way
    | none => freeWay ((s.dirSetOf e.site e.line).map (·.way))
  let rest := s.dir.filter fun x => !x.at e.site e.line
  { s with dir := if e.st == 0 then rest else rest ++ [{ e with way := way }] }

/-- The stable state an entry ends in: O if a slot is in use, else S if SH is not zero, else I (11 R288). -/
def DirEntry.settle (e : DirEntry) : DirEntry :=
  { e with st := if e.m0 != 0 || e.m1 != 0 then 2 else if e.sh != 0 then 1 else 0 }

/-- An entry with words taken from both slots, freeing a slot left empty (11 R288). -/
def DirEntry.release (e : DirEntry) (keep : Option Agent) (R : BitVec 16) : DirEntry :=
  let m0 := if e.o0 == keep && keep.isSome then e.m0 else e.m0 &&& ~~~R
  let m1 := if e.o1 == keep && keep.isSome then e.m1 else e.m1 &&& ~~~R
  { e with m0 := m0, m1 := m1, o0 := if m0 == 0 then none else e.o0, o1 := if m1 == 0 then none else e.o1 }

/-- The bit of SH that covers an agent (11 R283). -/
def shBit (a : Agent) : Nat :=
  match a with
  | .core _ i => i / 32
  | .llc d => 8 + d
  | .host => 16
  | .unit _ => 17

/-- Does an entry's sharer set cover an agent of its site? A die's home covers its own cores by bits 0 to 7. -/
def DirEntry.covers (e : DirEntry) (a : Agent) : Bool :=
  e.sh.getLsbD (shBit a) && (match a with
    | .core d _ => e.site == .die d
    | _ => true)

/-- The site an agent sends its requests for a line to: a core's own die (home or proxy), else the home
(11 R280). -/
def siteFor (a : Agent) (home : Site) : Site :=
  match a with
  | .core d _ => .die d
  | _ => home

/-! ### Merging written-back bytes -/

/-- Does a copy hold byte `i` of a line dirty in a word it owns? -/
def CLine.ownsDirty (c : CLine) (l i : Nat) : Bool := c.line == l && c.owned.getLsbD (i / 4) && c.dirty.getLsbD i

/-- Is the copy the one that keeps what the home of a line last merged of byte `i`: an owner's that holds it dirty, but not a
core's where its die's last-level cache, the owner at the home, holds it dirty too (11 R280, R303)? -/
def State.fronts (s : State) (l i : Nat) (c : CLine) : Bool :=
  c.ownsDirty l i && (match c.agent with
    | .core d _ => homeOf s.tc (64 * l) == .die d || !(s.line (.llc d) l).ownsDirty l i
    | _ => true)

/-- Bytes merged at the home by mask (10 R268): a byte an owner holds dirty is merged behind it. -/
def State.mergeHome (s : State) (l : Nat) (m : BitVec 64) (d : BitVec 512) : State :=
  (maskBytes m).foldl (fun (s : State) i =>
    if s.lines.any fun c => c.ownsDirty l i then
      { s with lines := s.lines.map fun c =>
          if s.fronts l i c then { c with behind := putDataByte c.behind i (dataByte d i) } else c }
    else s.writePhys (64 * l + i) (dataByte d i)) (s.hostMerged l m)

/-- The dirty bytes of a copy that are its own, not an owner's: si dirty bytes. -/
def CLine.siDirty (c : CLine) : BitVec 64 := c.dirty &&& ~~~(wordsToBytes c.owned)

/-- A copy with its si dirty bytes written back: it stays, clean (10 Table 10.8). -/
def CLine.cleanSi (c : CLine) : CLine := { c with dirty := c.dirty &&& wordsToBytes c.owned }

/-- A die-level copy's si dirty bytes written back to the home. -/
def State.writeBackLlc (s : State) (d l : Nat) : State :=
  let c := s.line (.llc d) l
  if c.siDirty = 0 then s else (s.mergeHome l c.siDirty c.data).setLine c.cleanSi

/-- A copy with a byte of an owned word dirty that was not: it keeps what the home last merged of it. -/
def CLine.soil (c : CLine) (i : Nat) (old : Byte) : CLine :=
  { c with dirty := c.dirty ||| BitVec.ofNat 64 (2 ^ i)
           behind := if c.dirty.getLsbD i then c.behind else putDataByte c.behind i old }

/-- A byte written into a word an agent owns: memory holds the latest value, and the copy is dirty (11 R281, R303). -/
def State.ownedPut (s : State) (a : Agent) (l i : Nat) (b : Byte) : State :=
  (s.setLine ((s.line a l).soil i (s.readPhys (64 * l + i)))).writePhys (64 * l + i) b

/-- Bytes merged at the last-level cache of die `d` in words it owns: behind a core of the die that holds them dirty, else as
a write of the owner's (10 R268). -/
def State.mergeOwned (s : State) (d l : Nat) (m : BitVec 64) (data : BitVec 512) : State :=
  (maskBytes m).foldl (fun (s : State) i =>
    match s.lines.find? fun c => c.ownsDirty l i && (match c.agent with
      | .core e _ => e == d
      | _ => false) with
    | some k => s.setLine ((s.line (.llc d) l).soil i (dataByte k.behind i))
    | none => s.ownedPut (.llc d) l i (dataByte data i)) s

/-- Bytes a core writes back reach its die: the home itself when the line is homed there, else the last-level cache: as an
owner of words it owns, as si dirty bytes elsewhere (10 R267, R268). -/
def State.mergeDie (s : State) (d l : Nat) (m : BitVec 64) (data : BitVec 512) : State :=
  if homeOf s.tc (64 * l) = .die d then s.mergeHome l m data
  else
    let own := wordsToBytes (s.line (.llc d) l).owned
    let s := s.mergeOwned d l (m &&& own) data
    let m := m &&& ~~~own
    if m = 0 then s else
    let c := s.line (.llc d) l
    s.setLine { c with dirty := c.dirty ||| m, data := blend c.data data m }

/-- Bytes an agent writes back merged one level up. -/
def State.mergeUp (s : State) (a : Agent) (l : Nat) (m : BitVec 64) (data : BitVec 512) : State :=
  match a with
  | .core d _ => s.mergeDie d l m data
  | _ => s.mergeHome l m data

/-- A core's si dirty bytes of a line written back to its die; those of a tracked copy, which its die's wi loads are to see,
go on to the home (10 Table 10.8; an eviction may do so at any time). -/
def State.writeBackCore (s : State) (d idx l : Nat) : State :=
  let c := s.line (.core d idx) l
  if c.siDirty = 0 then s else
  let s := (s.mergeDie d l c.siDirty c.data).setLine c.cleanSi
  if c.tracked && homeOf s.tc (64 * l) != .die d then s.writeBackLlc d l else s

/-- An agent's si dirty bytes of a line written back one level. -/
def State.writeBackSi (s : State) (a : Agent) (l : Nat) : State :=
  match a with
  | .core d i => s.writeBackCore d i l
  | .llc d => s.writeBackLlc d l
  | _ => s

/-! ### Strips and invalidations -/

/-- Dirty bytes of a mask in words a core's copy owns reach its die: the home, or its last-level cache, which owns the words
at the home and is dirty from then on (11 R280). -/
def State.ownedToDie (s : State) (a : Agent) (l : Nat) (m : BitVec 64) : State :=
  match a with
  | .core d _ =>
    if homeOf s.tc (64 * l) = .die d then s else
    let c := s.line a l
    let x := s.line (.llc d) l
    let own := c.dirty &&& wordsToBytes c.owned &&& m &&& wordsToBytes x.owned
    if own = 0 then s else
    s.setLine { x with dirty := x.dirty ||| own, behind := blend x.behind c.behind (own &&& ~~~x.dirty) }
  | _ => s

/-- An agent gives up ownership of words; their dirty bytes are at its die or the home (11 R288, R290). -/
def State.dropOwned (s : State) (a : Agent) (l : Nat) (R : BitVec 16) : State :=
  if (s.line a l).owned &&& R = 0 then s else
  let s := s.ownedToDie a l (wordsToBytes R)
  let c := s.line a l
  let r := c.owned &&& R
  s.setLine { c with owned := c.owned &&& ~~~R, valid := c.valid &&& ~~~r, dirty := c.dirty &&& ~~~(wordsToBytes r) }

/-- A copy's words dropped by an Inv; si dirty bytes among them are written back first (11 Table 11.4). -/
def State.dropTracked (s : State) (a : Agent) (l : Nat) (R : BitVec 16) : State :=
  let c := s.line a l
  if !c.tracked then s else
  let m := c.siDirty &&& wordsToBytes R
  let s := if m = 0 then s else s.mergeUp a l m c.data
  let c := s.line a l
  let valid := c.valid &&& ~~~R
  s.setLine { c with valid := valid, dirty := c.dirty &&& ~~~m, tracked := decide (valid ≠ 0) }

/-- The owners of an entry other than `a` that hold words of R. -/
def DirEntry.owners (e : DirEntry) (a : Option Agent) (R : BitVec 16) : List (Agent × BitVec 16) :=
  (match e.o0 with
   | some x => if some x == a || e.m0 &&& R == 0 then [] else [(x, e.m0 &&& R)]
   | none => []) ++
  (match e.o1 with
   | some x => if some x == a || e.m1 &&& R == 0 then [] else [(x, e.m1 &&& R)]
   | none => [])

/-- The cores of die `d` that an entry's sharer set covers and that hold a tracked copy. -/
def State.trackedCores (s : State) (e : DirEntry) (d : Nat) (a : Option Agent) : List Agent :=
  (s.lines.filter fun c => c.line == e.line && c.tracked && some c.agent != a && (match c.agent with
    | .core d' _ => d' == d && e.sh.getLsbD (shBit c.agent)
    | _ => false)).map (·.agent)

/-- Strip at a proxy or a home's own cores: every core slot with words of R gives them up. -/
def State.stripCores (s : State) (d l : Nat) (a : Option Agent) (R : BitVec 16) : State :=
  let e := s.entry (.die d) l
  let s := (e.owners a R).foldl (fun s x => s.dropOwned x.1 l x.2) s
  s.setEntry (e.release a R).settle

/-- Inv at a proxy or a home's own cores. -/
def State.invCores (s : State) (d l : Nat) (a : Option Agent) (R : BitVec 16) : State :=
  let e := s.entry (.die d) l
  let s := (s.trackedCores e d a).foldl (fun s x => s.dropTracked x l R) s
  s.setEntry ({ e with sh := if R = 0xFFFF then e.sh &&& ~~~0xFF else e.sh }).settle

/-- Tracked copies of the cores of a die whose last-level cache gives up words it owns and is no tracked holder: no home
tracks them any more, and they are dropped (11 R283). -/
def State.untrack (s : State) (d l : Nat) (R : BitVec 16) : State :=
  let c := s.line (.llc d) l
  if c.owned &&& R = 0 || c.tracked then s else s.invCores d l none (c.owned &&& R)

/-- An agent answers a Strip: a proxy serves it at its own entry first (11 R280). -/
def State.stripAgent (s : State) (a : Agent) (l : Nat) (R : BitVec 16) : State :=
  match a with
  | .core _ _ => s.dropOwned a l R
  | .llc d => ((s.stripCores d l none R).untrack d l R).dropOwned a l R
  | _ => s

/-- An agent answers an Inv. -/
def State.invAgent (s : State) (a : Agent) (l : Nat) (R : BitVec 16) : State :=
  match a with
  | .core _ _ => s.dropTracked a l R
  | .llc d => (s.invCores d l none R).dropTracked a l R
  | _ => s

/-- The dies whose last-level cache an entry's sharer set covers. -/
def DirEntry.shDies (e : DirEntry) (a : Agent) : List Nat :=
  (List.range 8).filter fun d => e.sh.getLsbD (8 + d) && a != .llc d

/-! ### Request kinds (11 Table 11.7) -/

def ReqKind.strips (k : ReqKind) : Bool :=
  match k with
  | .wb => false
  | _ => true

/-- `rd` says whether an OpH only reads (FXRD). -/
def ReqKind.invalidates (k : ReqKind) (rd : Bool) : Bool :=
  match k with
  | .getO => true
  | .putP => true
  | .putT => true
  | .opH => !rd
  | _ => false

/-- The words a GetO grants (11 R289), after the strips. -/
def DirEntry.grant (e : DirEntry) (a : Agent) (R : BitVec 16) : BitVec 16 :=
  let other := (e.m0 != 0 && e.o0 != some a) || (e.m1 != 0 && e.o1 != some a)
  if !other && e.sh == 0 then 0xFFFF else R

/-- The slot a GetO of an agent without one frees when both are in use: the one with fewer words, slot 1 on a tie
(11 R289). -/
def DirEntry.victim (e : DirEntry) (a : Agent) : Option (Agent × BitVec 16) :=
  match e.o0, e.o1 with
  | some x, some y => if x = a ∨ y = a then none else if popc16 e.m0 < popc16 e.m1 then some (x, e.m0) else some (y, e.m1)
  | _, _ => none

/-- An agent's slot takes a grant. -/
def DirEntry.take (e : DirEntry) (a : Agent) (G : BitVec 16) : DirEntry :=
  if e.o0 = some a then { e with m0 := e.m0 ||| G }
  else if e.o1 = some a then { e with m1 := e.m1 ||| G }
  else if e.o0 = none then { e with o0 := some a, m0 := G }
  else { e with o1 := some a, m1 := G }

/-- The probes of a request answered: strips, then invalidations (11 R288), at a home or a proxy. What the host answered to
BISnpInv counts as its InvAck (11 R301). -/
def State.probes (s : State) (site : Site) (l : Nat) (a : Agent) (k : ReqKind) (rd : Bool) (R : BitVec 16) : State :=
  let s := if k.strips then
      let e := s.entry site l
      let s := (e.owners (some a) R).foldl (fun s x => s.stripAgent x.1 l x.2) s
      s.setEntry ((s.entry site l).release (some a) R).settle
    else s
  if k.invalidates rd && (s.entry site l).sh != 0 then
    let e := s.entry site l
    let s := match site with
      | .die d => (s.trackedCores e d (some a)).foldl (fun (s : State) x => s.invAgent x l R) s
      | _ => s
    let s := (e.shDies a).foldl (fun s d => s.invAgent (.llc d) l R) s
    let e := s.entry site l
    ({ s with biReady := s.biReady.filter (· != l) } : State).setEntry ({ e with sh := if R = 0xFFFF then 0 else e.sh }).settle
  else s

/-- The words a site can grant: all at a line's home; at a proxy those its last-level cache owns at the home (11 R280). -/
def State.grantable (s : State) (site : Site) (l : Nat) : BitVec 16 :=
  match site with
  | .die d => if homeOf s.tc (64 * l) = site then 0xFFFF else (s.line (.llc d) l).owned
  | _ => 0xFFFF

/-- Do the requests of a kind ask for the expansion of a compressed block first (11 R296)? -/
def ReqKind.expands (k : ReqKind) : Bool :=
  match k with
  | .getO => true
  | .putP => true
  | .putT => true
  | .opH => true
  | _ => false

/-- Before a GetO of an agent without a slot where both are in use, the slot of 11 R289 is freed. -/
def State.freeSlot (s : State) (site : Site) (l : Nat) (a : Agent) : State :=
  match (s.entry site l).victim a with
  | some (x, m) => (s.stripAgent x l m).setEntry (((s.stripAgent x l m).entry site l).release (some a) m).settle
  | none => s

/-- A request served whole at a site (11 R288, R289): the expansion at a home, the probes, the entry after. For GetO the
granted words are recorded in the requester's slot. -/
def State.serve (s : State) (site : Site) (l : Nat) (a : Agent) (k : ReqKind) (rd : Bool) (R : BitVec 16) : State :=
  let s := if k.expands && homeOf s.tc (64 * l) = site then s.expand (64 * l) else s
  let s := s.probes site l a k rd R
  match k with
  | .getO =>
    let s := s.freeSlot site l a
    let e := s.entry site l
    s.setEntry (e.take a (e.grant a R &&& s.grantable site l)).settle
  | .getT =>
    let e := s.entry site l
    s.setEntry { e with sh := e.sh ||| BitVec.ofNat 17 (2 ^ shBit a) }.settle
  | .putT =>
    let e := s.entry site l
    s.setEntry { e with sh := e.sh ||| BitVec.ofNat 17 (2 ^ shBit a) }.settle
  | _ => s

/-- The words an entry shows as owned by anyone but `a`. -/
def DirEntry.othersOwn (e : DirEntry) (a : Agent) : BitVec 16 :=
  (if e.o0 == some a then 0 else e.m0) ||| (if e.o1 == some a then 0 else e.m1)

/-- The words `a` owns at an entry. -/
def DirEntry.owns (e : DirEntry) (a : Agent) : BitVec 16 :=
  (if e.o0 == some a then e.m0 else 0) ||| (if e.o1 == some a then e.m1 else 0)

/-- The current bytes of a line at its home, as line data. -/
def State.homeData (s : State) (l : Nat) : BitVec 512 := BitVec.ofNat 512 (s.readPhysLe (64 * l) 64)

/-! ### An agent's access (11 Tables 11.3, 11.4) -/

/-- An agent releases the owned words R: its dirty bytes are at the home, its slot loses them (a WB). -/
def State.releaseOwned (s : State) (site : Site) (a : Agent) (l : Nat) (R : BitVec 16) : State :=
  let s := s.stripAgent a l R
  let e := s.entry site l
  let m0 := if e.o0 == some a then e.m0 &&& ~~~R else e.m0
  let m1 := if e.o1 == some a then e.m1 &&& ~~~R else e.m1
  s.setEntry ({ e with m0 := m0, m1 := m1, o0 := if m0 == 0 then none else e.o0,
                       o1 := if m1 == 0 then none else e.o1 }).settle

/-- An agent's owned dirty bytes of words R merged at its die or the home, ownership kept (a WB without release, or a
Flush). -/
def State.cleanOwned (s : State) (a : Agent) (l : Nat) (R : BitVec 16) : State :=
  let s := s.ownedToDie a l (wordsToBytes R)
  let c := s.line a l
  s.setLine { c with dirty := c.dirty &&& ~~~(wordsToBytes (R &&& c.owned)) }

/-- Does an agent hold an si copy of words of the line (11 Table 11.4)? -/
def CLine.isSi (c : CLine) : Bool := c.siWords != 0 || (!c.tracked && c.siDirty != 0)

/-- The si dirty bytes of an agent's copy written back, and its si copy dropped; tracked and owned words stay. -/
def State.dropSi (s : State) (a : Agent) (l : Nat) : State :=
  let s := s.writeBackSi a l
  let c := s.line a l
  if c.tracked then s else s.setLine { c.cleanSi with valid := c.valid &&& c.owned }

/-- Policy codes (03 R70): 0 own, 1 wt, 2 si, 3 wi. -/
def polOwn : Nat := 0
def polWt : Nat := 1
def polSi : Nat := 2
def polWi : Nat := 3

/-- The code the check of an operation performed at the home (OpH) that only reads goes by: it is no policy of R70. -/
def polOp : Nat := 4

/-- The request kind of an access that misses (11 Table 11.3). -/
def missKind (pol : Nat) (store : Bool) : ReqKind :=
  match pol, store with
  | 0, _ => .getO
  | 1, false => .getH
  | 1, true => .putP
  | 2, _ => .getU
  | _, false => .getT
  | _, true => .putT

/-- Does the access hit in the agent's own copy (11 Table 11.3)? A tracked word with bytes dirty under si is no hit for a wi
load: they are written back first. -/
def CLine.hits (c : CLine) (pol : Nat) (store : Bool) (R : BitVec 16) : Bool :=
  match pol with
  | 0 => c.owned &&& R == R
  | 2 => (c.valid ||| c.owned) &&& R == R
  | 3 => !store && c.cohWords &&& R == R && c.siDirty &&& wordsToBytes R == 0
  | _ => false

/-- What an agent does first when it holds words of the line under another policy (11 Table 11.4). An access that hits, an si
access: nothing. A wt load: the owned words' dirty bytes are written back; an si copy is bypassed. An own or wi access, a wt
store: an si copy is written back and dropped, and so are the si dirty bytes of a tracked copy written back, so that the
access comes after them in the byte's order (10 R266, R273); a wt or wi store releases owned words. -/
def State.changePolicy (s : State) (site : Site) (a : Agent) (l : Nat) (pol : Nat) (store : Bool) (R : BitVec 16) : State :=
  let c := s.line a l
  if pol = polSi ∨ c.hits pol store R then s
  else if pol = polWt ∧ !store then
    let s := if c.owned &&& R = 0 then s else s.cleanOwned a l R
    if c.tracked then s.writeBackSi a l else s
  else
    let s := s.dropSi a l
    if store ∧ pol ≠ polOwn ∧ c.owned &&& R ≠ 0 then s.releaseOwned site a l (c.owned &&& R) else s

/-- The words a site can answer with for a copy of a kind: all at a line's home; at a proxy those its last-level cache holds,
for a tracked copy only those the home keeps the same everywhere (11 R283). -/
def State.answers (s : State) (site : Site) (l : Nat) (k : ReqKind) : BitVec 16 :=
  match site with
  | .die d =>
    let c := s.line (.llc d) l
    if homeOf s.tc (64 * l) = site then 0xFFFF else if k = .getT then c.cohWords else c.valid ||| c.owned
  | _ => 0xFFFF

/-- A fill of words of a copy: never over a dirty byte (10 R268). -/
def CLine.fill (c : CLine) (words : BitVec 16) (d : BitVec 512) : CLine :=
  { c with valid := c.valid ||| words, data := blend c.data d (wordsToBytes words &&& ~~~c.dirty) }

/-- The agent's copy after the home has answered (11 Table 11.7): the grant of a GetO, the fill of GetU and GetT. -/
def State.install (s : State) (site : Site) (a : Agent) (l : Nat) (k : ReqKind) (from_ : BitVec 512) : State :=
  let e := s.entry site l
  let c := s.line a l
  let free := s.answers site l k
  match k with
  | .getO => s.setLine { c.fill (e.owns a ||| (~~~(e.othersOwn a) &&& free)) from_ with owned := c.owned ||| e.owns a }
  | .getU => s.setLine (c.fill (~~~(e.m0 ||| e.m1) &&& free) from_)
  | .getT => s.setLine { c.fill (~~~(e.m0 ||| e.m1) &&& free) from_ with tracked := true }
  | .putT => s.setLine { c with tracked := c.tracked || c.valid != 0 }
  | _ => s

/-- A byte as a copy serves it: its own byte where it is dirty or an untracked valid one and not owned, else the
latest performed (11 R281, R282). -/
def State.copyByte (s : State) (c : CLine) (i : Nat) : Byte :=
  if !c.owned.getLsbD (i / 4) && (c.dirty.getLsbD i || (c.valid.getLsbD (i / 4) && !c.tracked))
  then dataByte c.data i else s.readPhys (64 * c.line + i)

/-- The line as the last-level cache of a die serves it to an si load of its cores (10 R269). -/
def State.dieData (s : State) (d l : Nat) : BitVec 512 :=
  let c := s.line (.llc d) l
  BitVec.ofNat 512 (leNat ((List.range 64).map (s.copyByte c)))

/-! ### Evictions and the ways of a last-level cache (06 R172, 16 R387) -/

/-- Is a write-back of a line on its way to its home? -/
def State.wbFlying (s : State) (l : Nat) : Bool := s.wbuf.any fun w => w.kind == .wb && w.msg.line == l

/-- A last-level cache sends the WB of the words it owns of a line, their bytes kept until Done (11 R292); the copy gives
them up at once. -/
def State.sendWb (s : State) (d l : Nat) : State :=
  let a := Agent.llc d
  let s := s.untrack d l (s.line a l).owned
  let c := s.line a l
  let m : Msg := ⟨a, homeOf s.tc (64 * l), l, 0, c.dirty &&& wordsToBytes c.owned, s.homeData l, 0, 0, c.owned, none, 0, [],
    BitVec.ofNat 11 s.nextTxn, BitVec.ofNat 2 (s.nextTxn / 2048), false⟩
  let s := s.setLine { c with owned := 0, valid := c.valid &&& ~~~c.owned, dirty := c.siDirty }
  (({ s with wbuf := s.wbuf ++ [⟨.wb, m, s.clock.toNat, c.behind⟩], nextTxn := s.nextTxn + 1 } : State).send .wb m).watch

/-- A cached line evicted: si dirty bytes written back, owned words released; a last-level cache's by a WB message (10 Table
10.8, 11 Table 11.7, R292). -/
def State.evictLine (s : State) (c : CLine) : State :=
  let l := c.line
  let s := s.writeBackSi c.agent l
  let site := siteFor c.agent (homeOf s.tc (64 * l))
  let s := if c.owned = 0 then s else match c.agent with
    | .llc d => if s.wbFlying l then s.releaseOwned site c.agent l c.owned else (s.stripCores d l none c.owned).sendWb d l
    | _ => s.releaseOwned site c.agent l c.owned
  let x := s.line c.agent l
  s.setLine { x with valid := 0, dirty := 0, owned := 0, tracked := false }

/-- The re-reference value a fill inserts: 6, or REUSE - 1 under a hint (06 R172). -/
def fillRef (hint : Nat) : Nat := if hint = 0 then 6 else hint - 1

/-- Does register `i` of the reserved ways hold a line in its range, with a RATIO (16 R387)? -/
def State.llcRange (s : State) (i l : Nat) : Bool :=
  let w0 := s.creg (0x300 + 16 * i)
  let u := 64 * l / 2 ^ 21
  field w0 4 4 != 0 && decide (field w0 21 31 ≤ u) && decide (u ≤ field (s.creg (0x308 + 16 * i)) 21 31)

/-- The ways register `i` reserves: taken in ascending i from way 0 until 8 are reserved (16 R387). -/
def State.llcReserved (s : State) (i : Nat) : List Nat :=
  let want := fun (j : Nat) => if field (s.creg (0x300 + 16 * j)) 4 4 = 0 then 0 else field (s.creg (0x300 + 16 * j)) 0 4
  let start := min 8 ((List.range i).foldl (fun a j => a + want j) 0)
  (List.range (min (want i) (8 - start))).map (start + ·)

/-- A fill of a line counted in its slice by every register whose range holds it, modulo 16 (16 R387). -/
def State.countFill (s : State) (d l : Nat) : State :=
  (List.range 8).foldl (fun (s : State) i =>
    let k := (16 * d + sliceOf l) * 8 + i
    if s.llcRange i l then { s with llcCount := fput s.llcCount k ((fget 0 s.llcCount k + 1) % 16) } else s) s

/-- The ways a fill of a line may take: the reserved ways of the first register with ways whose range holds it and whose count
is below RATIO, the retained class; else those no register reserves (06 R172, 16 R387). -/
def State.llcChoice (s : State) (d l : Nat) : List Nat :=
  match (List.range 8).find? fun i => s.llcRange i l && !(s.llcReserved i).isEmpty &&
      decide (fget 0 s.llcCount ((16 * d + sliceOf l) * 8 + i) < field (s.creg (0x300 + 16 * i)) 4 4) with
  | some i => s.llcReserved i
  | none => (List.range 16).filter fun w => !(List.range 8).any fun i => (s.llcReserved i).contains w

/-- The lines in a line's set of its slice: a last-level cache is 16 slices of 6,144 sets of 16 ways (00 R2, 16 R387); the
spec gives no set index (`Config.llcSet`). -/
def State.llcSetOf (s : State) (d l : Nat) : List LlcWay :=
  s.llc.filter fun x => x.die == d && sliceOf x.line == sliceOf l && Config.llcSet x.line % 6144 == Config.llcSet l % 6144

/-- A line of a last-level cache put in place of what its way held; a line homed off the die leaves the cache with its
way. -/
def State.llcPlace (s : State) (d l way v : Nat) : State :=
  let old := (s.llcSetOf d l).find? fun x => x.way == way
  let s : State := { s with llc := (s.llc.filter fun x => some x != old) ++ [⟨d, l, way, v⟩] }
  match old with
  | some x => if homeOf s.tc (64 * x.line) = .die d then s else s.evictLine (s.line (.llc d) x.line)
  | none => s

/-- An access of a line at the last-level cache of die `d`: a hit sets its re-reference value to 0; a fill takes a free way of
those it may take, else that of the lowest-numbered line at 7, every line of the set raised alike until one is (06 R172). -/
def State.llcTouch (s : State) (d l hint : Nat) (fill : Bool) : State :=
  let ways := s.llcSetOf d l
  match ways.find? fun x => x.line == l with
  | some x => { s with llc := s.llc.map fun y => if y = x then { y with rrpv := if fill then fillRef hint else 0 } else y }
  | none =>
    let ok := s.llcChoice d l
    let s := s.countFill d l
    match ok.find? fun w => !ways.any fun x => x.way == w with
    | some w => s.llcPlace d l w (fillRef hint)
    | none =>
      let mine := ways.filter fun x => ok.contains x.way
      let up := 7 - (mine.map (·.rrpv)).foldl max 0
      let s : State := { s with llc := s.llc.map fun y => if ways.contains y then { y with rrpv := min 7 (y.rrpv + up) } else y }
      match ok.find? fun w => mine.any fun x => x.way == w && decide (7 ≤ x.rrpv + up) with
      | some w => s.llcPlace d l w (fillRef hint)
      | none => s

/-- A home works on a line: the last-level cache of a die holds the lines homed on it, Steppe's home goes through the tier
cache, a peer's is reached over its link (11 Table 11.1, 12 R310, 16 R392). -/
def State.homeTouch (s : State) (home : Site) (l hint : Nat) : State :=
  match home with
  | .die d => s.llcTouch d l hint false
  | .peer p => s.peerSend p l
  | _ => s.tcTouch l

/-- A compressed block delivered whole to a last-level cache (11 R295): the other three lines are installed under the
request's kind. -/
def State.installBlock (s : State) (home : Site) (a : Agent) (l : Nat) (k : ReqKind) : State :=
  ((List.range 4).filter fun i => l / 4 * 4 + i != l).foldl (fun (s : State) i =>
    let x := l / 4 * 4 + i
    let e := s.entry home x
    let s := if k = .getT then s.setEntry { e with sh := e.sh ||| BitVec.ofNat 17 (2 ^ shBit a) }.settle else s
    s.install home a x k (s.homeData x)) s

/-- Does the home deliver the block of a line compressed: GetH, GetU or GetT under a mapping with the compression
attribute (11 R295)? -/
def State.delivers (s : State) (l : Nat) (k : ReqKind) (cmp : Bool) : Bool :=
  cmp && s.packed (64 * l) && (k == .getH || k == .getU || k == .getT)

/-- Does a requester keep a copy of what a request of a kind brings (11 Table 11.7)? -/
def ReqKind.keeps (k : ReqKind) : Bool := k == .getU || k == .getT || k == .getO

/-- One access of the last-level cache of die `d` to the true home of a line homed off the die (11 R280). -/
def State.llcAccess (s : State) (d l : Nat) (pol : Nat) (store : Bool) (R : BitVec 16) (hint : Nat) (cmp : Bool) : State :=
  let a := Agent.llc d
  let home := homeOf s.tc (64 * l)
  let s := s.changePolicy home a l pol store R
  if (s.line a l).hits pol store R then s.llcTouch d l hint false else
  let k := missKind pol store
  let whole := s.delivers l k cmp
  let s := (s.homeTouch home l hint).serve home l a k false R
  let s := if k.keeps then s.llcTouch d l hint true else s
  let s := s.install home a l k (s.homeData l)
  if whole then s.installBlock home a l k else s

/-- One access of a core to a line: at its own die's home, or at the proxy and through it at the home (11 R280,
R281, R282). Bytes move separately: see Machine/Access.lean. -/
def State.coreAccess (s : State) (d idx l : Nat) (pol : Nat) (store : Bool) (R : BitVec 16) (hint : Nat)
    (cmp : Bool) : State :=
  let a := Agent.core d idx
  let site := Site.die d
  let s := s.changePolicy site a l pol store R
  if (s.line a l).hits pol store R then s else
  let k := missKind pol store
  if homeOf s.tc (64 * l) = site then
    let s := (s.homeTouch site l hint).serve site l a k false R
    s.install site a l k (s.homeData l)
  else
    let s := s.probes site l a k false R
    let s := s.llcAccess d l pol store R hint cmp
    let s := s.serve site l a k false R
    s.install site a l k (if pol = polSi then s.dieData d l else s.homeData l)

/-- One access of an engine or unit of die `d` (11 R279): at its own die's home as a wt access; elsewhere as a request of its
die's last-level cache under the policy. -/
def State.engineAccess (s : State) (d l : Nat) (pol : Nat) (store : Bool) (R : BitVec 16) (hint : Nat) (cmp : Bool) : State :=
  if homeOf s.tc (64 * l) = .die d then
    (s.homeTouch (.die d) l hint).serve (.die d) l (.llc d) (if store then .putP else .getH) false R
  else (s.probes (.die d) l (.llc d) (missKind pol store) false R).llcAccess d l pol store R hint cmp

/-- An operation performed at the home (OpH): other owners stripped, tracked copies invalidated unless it only reads,
and the requester's own words released, its si dirty bytes written back and its si copy dropped first (11 Tables 11.4,
11.7). -/
def State.opAccess (s : State) (d idx l : Nat) (rd : Bool) (R : BitVec 16) : State :=
  let a := Agent.core d idx
  let home := homeOf s.tc (64 * l)
  let s := (s.releaseOwned (.die d) a l R).dropSi a l
  let s := if home = .die d then s else
    ((s.probes (.die d) l a .opH rd R).releaseOwned home (.llc d) l R).dropSi (.llc d) l
  (s.homeTouch home l 0).serve home l (if home = .die d then a else .llc d) .opH rd R

/-- The strips of a Pack (11 R297): every owned word of a line goes back to its home, the requester's among them; tracked and
si copies stay. -/
def State.packAccess (s : State) (d idx l : Nat) : State :=
  let a := Agent.core d idx
  let home := homeOf s.tc (64 * l)
  let s := s.releaseOwned (.die d) a l 0xFFFF
  if home = .die d then s.serve home l a .pack true 0xFFFF
  else ((s.probes (.die d) l a .pack true 0xFFFF).releaseOwned home (.llc d) l 0xFFFF).serve home l (.llc d) .pack true 0xFFFF

/-- The sites whose entry an access of die `d` to a line uses. -/
def sitesOf (s : State) (d l : Nat) : List Site :=
  let home := homeOf s.tc (64 * l)
  if home = .die d then [home] else [.die d, home]

/-- Is a line's entry in a transient state, or a request in progress, at a site the access uses, a write-back of it or a
message to the host about it under way, or the line blocked (11 R284, R285, R292, R299, 12 R324, 15 R375)? -/
def State.lineBusy (s : State) (d l : Nat) : Bool :=
  s.wbFlying l || (s.cxlWait.any fun w => w.1 == l && decide (4 ≤ w.2)) || (sitesOf s d l).any fun site => (s.entry site l).st.toNat ≥ 8 ||
    s.txns.any (fun t => t.site == site && t.line / 4 == l / 4 && (t.line == l || t.kind == .pack)) ||
    s.remaps.any (fun r => r.1 ≤ l && l < r.2) || (s.migrating l).isSome

/-! ### Levels of si state (10 Table 10.8) -/

/-- Every si dirty byte of a core written back to its die (a release of cluster scope or wider, a save). -/
def State.releaseCore (s : State) (d idx : Nat) : State :=
  ((s.lines.filter fun c => c.agent == .core d idx && c.siDirty != 0).map (·.line)).foldl
    (fun s l => s.writeBackCore d idx l) s

/-- Every si copy of a core dropped, dirty bytes written back first (an acquire of cluster scope or wider, a
restore). -/
def State.acquireCore (s : State) (d idx : Nat) : State :=
  ((s.lines.filter fun c => c.agent == .core d idx && c.isSi).map (·.line)).foldl
    (fun s l => s.dropSi (.core d idx) l) s

/-! ### Directory evictions (11 R293) -/

/-- The site of an access at which a line's set has no entry for it and no free way (11 R285, R293). -/
def State.fullAt (s : State) (d l : Nat) : Option Site :=
  if s.dir.length < 16 then none else
  (sitesOf s d l).find? fun site => (s.entry site l).st == 0 && decide (16 ≤ (s.dirSetOf site l).length)

/-- The victim of a full set: the lowest-numbered way in S, else in O (11 R293). -/
def State.victimFor (s : State) (site : Site) (l : Nat) : Option DirEntry :=
  let ways := s.dirSetOf site l
  let lowest := fun (st : BitVec 4) => (List.range 17).findSome? fun w => ways.find? fun e => e.way == w && e.st == st
  (lowest 1).orElse fun _ => lowest 2

/-- The agents an entry's sharer set covers, except one (11 R283, R288): at a die the cores of each coarse bit, the dies, the
host. -/
def DirEntry.sharers (e : DirEntry) (a : Option Agent) : List Agent :=
  ((match e.site with
    | .die d => ((List.range 8).filter fun i => e.sh.getLsbD i).flatMap fun i => (List.range 32).map fun j => Agent.core d (32 * i + j)
    | _ => []) ++
   (((List.range 8).filter fun i => e.sh.getLsbD (8 + i)).map Agent.llc) ++
   (if e.sh.getLsbD 16 then [Agent.host] else [])).filter fun x => some x != a

/-- The lines of a record: its own, or the four of the block for a Pack or while it is expanded (11 R296, R297). -/
def Txn.lines (t : Txn) : List Nat :=
  if t.kind = .pack ∨ t.stage = 5 then (List.range 4).map (t.line / 4 * 4 + ·) else [t.line]

/-- A request record replaced. -/
def State.setTxn (s : State) (t : Txn) : State := { s with txns := s.txns.map fun x => if x.id = t.id then t else x }

/-- A probe or an answer to one: it carries the home's record number and a sequence number of two bits that tells the record's
strips, its strip that frees a slot and its invalidations apart (11 R286). -/
def Txn.tagged (t : Txn) (stage : Nat) (m : Msg) : Msg :=
  { m with record := BitVec.ofNat 11 t.id, seq := BitVec.ofNat 2 (t.id / 2048 * 3 + stage) }

/-- A probe of a record. -/
def Txn.probe (t : Txn) (stage : Nat) (p : Agent × Nat × BitVec 16) : Msg :=
  t.tagged stage { t.req.bare with agent := p.1, site := t.site, line := p.2.1, mask := p.2.2 }

/-- Probes sent, each of words of a line to an agent; the record awaits their answers in a stage, the lines' entries in a
transient state. A host holder is asked by BISnpInv (11 R301). -/
def State.sendProbes (s : State) (t : Txn) (row : Instr) (stage st : Nat) (ps : List (Agent × Nat × BitVec 16)) : State :=
  let s := s.setTxn { t with stage := stage, awaiting := ps.map (·.1), since := s.clock.toNat }
  let s := t.lines.foldl (fun (s : State) l =>
    s.setEntry { s.entry t.site l with st := BitVec.ofNat 4 st, record := t.id % 2048, acks := ps.length % 256 }) s
  (ps.foldl (fun (s : State) p => s.send (if p.1 = .host then .birsp else row) (t.probe stage p)) s).watch

/-- The invalidations of an entry that is evicted. -/
def State.evictInvs (s : State) (t : Txn) : State :=
  s.sendProbes t .invMsg 3 12 (((s.entry t.site t.line).sharers none).map fun a => (a, t.line, 0xFFFF))

/-- The eviction of a full set's victim begins (11 R293): a proxy first gives back the words it owns at the home; the entry
goes to EV, every word of both slots is stripped, then every tracked copy invalidated. -/
def State.startEvict (s : State) (site : Site) (l : Nat) : State :=
  match s.victimFor site l with
  | none => s
  | some e =>
    let home := homeOf s.tc (64 * e.line)
    let s := match site with
      | .die d => if home = site then s else s.releaseOwned home (.llc d) e.line (s.line (.llc d) e.line).owned
      | _ => s
    let e := s.entry site e.line
    let m : Msg := ⟨.host, site, e.line, 0xFFFF, 0, 0, 0, 0, 0, none, 0, [], 0, 0, false⟩
    let t : Txn := ⟨s.nextTxn, site, e.line, .wb, m, 1, [], 0, [], .evict⟩
    let s : State := { s with txns := s.txns ++ [t], nextTxn := s.nextTxn + 1 }
    let ps := (e.owners none 0xFFFF).map fun p => (p.1, e.line, p.2)
    if ps.isEmpty then s.evictInvs t else s.sendProbes t .strip 1 12 ps

/-- A host line leaves the host-proxy buffer (11 Table 11.9): strips and Inv(0xFFFF), then DirtyEvict, CleanEvict or
CleanEvictNoData by its state; the host holds its bytes. -/
def State.evictHost (s : State) (l : Nat) : State :=
  let s := s.probes .hostProxy l .host .putP false 0xFFFF
  let want := match fget .i s.cxl l with
    | .m => 5
    | .e => 6
    | _ => 7
  ({ s with cxl := fdel s.cxl l } : State).askHost l want

/-- Before a step a free choice may evict one cached line, or one line of the host-proxy buffer (10 R267: a program cannot rely
on eviction); choice 0 evicts none, nor does a line at work. -/
def State.evictSome (s : State) : State :=
  if s.lines.isEmpty && s.cxl.isEmpty then s else
  match Config.choose s.tick 1 (s.lines.length + s.cxl.length + 1) with
  | 0 => s
  | n + 1 =>
    match s.lines[n]? with
    | some c =>
      if (s.entry (siteFor c.agent (homeOf s.tc (64 * c.line))) c.line).st.toNat ≥ 8 || s.wbFlying c.line then s
      else s.evictLine c
    | none => match s.cxl[n - s.lines.length]? with
      | some e => if (s.entry .hostProxy e.1).st.toNat ≥ 8 || s.wbFlying e.1 then s else s.evictHost e.1
      | none => s

/-! ### BISnpInv (11 R301) -/

/-- Must the host be asked to give up a line before an access of die `d`: its SH bit 16 stands at the home, the access
invalidates there, and the host has not answered yet? -/
def State.hostHolds (s : State) (d l : Nat) (pol : Nat) (store : Bool) (R : BitVec 16) : Bool :=
  let home := homeOf s.tc (64 * l)
  (s.entry home l).sh.getLsbD 16 && !s.biReady.contains l && (pol == polOwn || (store && pol != polSi)) &&
  !(home != .die d && (s.line (.llc d) l).hits pol store R)

/-- BISnpInv sent for a line; the host's answer is BIRSP. -/
def State.askBack (s : State) (l : Nat) : State :=
  if s.biWait.contains l then s else
  ({ s with biWait := s.biWait ++ [l] } : State).send .birsp
    ⟨.host, homeOf s.tc (64 * l), l, 0xFFFF, 0, 0, 0, 0, 0, none, 0, [], 0, 0, false⟩

end Sys2Proof.Machine
end

