-- ==== Sys2Proof/Machine/Access.lean ====
section
/-! DEFINITION. How an access reaches memory: the spaces of 01 Table 1.3, the walk and its outcomes (12 R312 to R317),
the translation caches (12 R318), and the bytes an access reads and writes under its policy (11 R281). -/

namespace Sys2Proof.Machine

/-- Who translates and accesses: address space, die, core number on the die (cluster x 8 + core), whether it is a copy
engine, the cluster group whose memory the cluster window shows, and whether the access writes the whole line of the byte
checked (11 Table 11.9). -/
structure Via where
  asid : Nat
  die : Nat
  idx : Nat
  engine : Bool
  group : Nat
  full : Bool := false
  deriving DecidableEq, Repr

/-- A team as an accessor. -/
def State.viaOf (s : State) (k : Nat) : Via :=
  let t := s.teamAt k
  { asid := (s.launch t.launch).asid, die := t.die, idx := t.cluster * 8 + t.core, engine := false, group := t.group }

/-- Rights an access needs, in the order of a leaf's RIGHTS: execute 4, write 2, read 1 (12 R315). -/
abbrev Need := Nat

def needR : Need := 1
def needW : Need := 2
def needX : Need := 4

/-! ### Spaces (01 R32 to R34) -/

def holeBase : Nat := 0x1FFFFC000000000
def scratchBase : Nat := 0x1FFFFF000000000
def clusterBase : Nat := 0x1FFFFF800000000

/-- Keys of scratchpad and cluster-memory bytes in `State.mem`, above every physical address. -/
def scratchKey : Nat := 2 ^ 53
def clusterKey : Nat := 2 ^ 60

/-- The space a virtual address lies in: none, a window byte by its key, or global memory. -/
inductive Space where
  | none
  | window (key : Nat)
  | global
  deriving DecidableEq, Repr

/-- Is offset `o` of die `d`'s scratchpad granted to an address space (16 R386)? -/
def State.granted (s : State) (asid d o : Nat) : Bool :=
  (List.range 16).any fun i =>
    let g := s.creg (0x400 + 128 * d + 8 * i)
    bitAt g.toNat 49 && field g 50 14 == asid && decide (field g 16 9 * 65536 ≤ o) &&
    decide (o < 65536 * (field g 16 9 + field g 0 9 + 1))

/-- The space of an address. Fetches never come from the reserved range (01 R32). -/
def State.space (s : State) (v : Via) (fetch : Bool) (va : Nat) : Space :=
  if 2 ^ 57 ≤ va then .none
  else if va < holeBase then .global
  else if fetch then .none
  else if scratchBase ≤ va ∧ va < scratchBase + 0x10000000 then
    let o := va - scratchBase
    if s.granted v.asid (o / 2 ^ 25) (o % 2 ^ 25) then .window (scratchKey + o) else .none
  else if clusterBase ≤ va ∧ va < clusterBase + 2 ^ 21 then
    let o := va - clusterBase
    if decide (o < (s.group v.group).cmem) then .window (clusterKey + v.group * 2 ^ 21 + o)
    else .none
  else .none

/-! ### The walk -/

/-- How an access is lost: the kind of its error record (15 R377: 2 uncorrectable data or a function that has failed, 3 a die
lost), and the die that is lost. -/
structure Loss where
  ekind : Nat
  die : Option Nat
  deriving DecidableEq, Repr

/-- Data in error, or a function that has failed. -/
def badData : Loss := ⟨2, none⟩

/-- A line of a die that cannot serve it: lost, or failed (11 R303, 16 R390). -/
def State.dieLoss (s : State) (d : Nat) : Loss := if s.lostDies.contains d then ⟨3, some d⟩ else badData

/-- What a walk finds (12 R313, R316). -/
inductive Walk where
  | leaf (x : Word64) (level addr : Nat)
  | absent (level addr : Nat)
  | prot
  | busy
  | dead (e : Loss)
  | host (line : Nat)
  deriving DecidableEq, Repr

/-- Index of a level (12 Table 12.8). -/
def walkIndex (level va : Nat) : Nat :=
  match level with
  | 0 => bitsAt va 48 9
  | 1 => bitsAt va 39 9
  | 2 => bitsAt va 30 9
  | 3 => bitsAt va 21 9
  | _ => bitsAt va 16 5

/-- SIZE suits the level of a leaf (12 Table 12.8). -/
def sizeSuits (size level : Nat) : Bool := size + level == 5 && decide (2 ≤ level)

/-- The tier code of a range (12 R315). -/
def PRange.tier (r : PRange) : Nat :=
  match r with
  | .flat _ => 0
  | .steppe => 1
  | .host => 2
  | .peer _ => 3
  | .unmapped => 4

/-- The checks of 12 Table 12.9 on a leaf. -/
def leafOk (tc : Nat) (x : Word64) (level : Nat) : Bool :=
  let size := field x 6 2
  let frame := field x 16 36 * 65536
  let r := (physRange tc frame).tier
  field x 52 1 == 0 && field x 1 5 == 0 && sizeSuits size level && frame % pageSize size == 0 &&
  r != 4 && r == field x 14 2 && physRange tc frame == physRange tc (frame + pageSize size - 1) &&
  decide (field x 54 2 < 2) && !(decide (2 ≤ r) && bitAt x.toNat 53) && !(r == 3 && (field x 13 1 == 1 || field x 11 1 == 1))

/-- The checks on a pointer entry (12 R314). -/
def pointerOk (x : Word64) (level : Nat) : Bool :=
  field x 52 12 == 0 && field x 1 5 == 0 && decide (level < 4) && (decide (level = 3) || field x 8 4 == 0)

/-- A home that cannot serve an address: wait for its readiness, or its function has failed (16 R390, 11 R303). -/
def State.homeState (s : State) (pa : Nat) : Option Walk :=
  if s.memFailed pa then
    some (.dead (match physRange s.tc pa with
      | .flat d => s.dieLoss d
      | _ => badData))
  else if s.memReady pa then none else some .busy

/-- What keeps an entry from being read as a wt load of die `d` at its home: the home cannot serve, its line is busy, its page
is under migration, the host's data is wanted, or its words are in error. -/
def State.entryStop (s : State) (d a : Nat) : Option Walk :=
  match s.homeState a with
  | some w => some w
  | none =>
    let l := a / 64
    if s.lineBusy d l then some .busy
    else if s.poisoned a || s.poisoned (a + 4) then some (.dead badData)
    else if hostLine s.tc l && fget .i s.cxl l == .i && !s.hostReady.contains l then some (.host l)
    else none

/-- An entry of a table as its home holds it. -/
def State.tableEntry (s : State) (a : Nat) : Word64 := BitVec.ofNat 64 (s.readPhysLe a 8)

/-- The walk of die `d` from a table on (12 R313). -/
def State.walkFrom (s : State) (d fuel level tab va : Nat) : Walk :=
  match fuel with
  | 0 => .prot
  | f + 1 =>
    if physRange s.tc tab = .unmapped then .prot else
    let a := tab + 8 * walkIndex level va
    match s.entryStop d a with
    | some w => w
    | none =>
      let x := s.tableEntry a
      if !x.getLsbD 0 then .absent level a
      else if field x 6 2 = 0 then
        if pointerOk x level then s.walkFrom d f (level + 1) (field x 8 44 * 256) va else .prot
      else if leafOk s.tc x level then .leaf x level a else .prot

/-- The address and pointer of each level a walk passes. -/
def State.walkPtrs (s : State) (fuel level tab va : Nat) : List (Nat × Nat × Word64) :=
  match fuel with
  | 0 => []
  | f + 1 =>
    let a := tab + 8 * walkIndex level va
    let x := s.tableEntry a
    (level, a, x) :: if x.getLsbD 0 && field x 6 2 == 0 then s.walkPtrs f (level + 1) (field x 8 44 * 256) va else []

/-- An address-space table entry, and where it stands (12 R312). -/
def State.asAddr (s : State) (asid : Nat) : Nat := field (s.creg 0x48) 17 35 * 2 ^ 17 + 8 * asid
def State.asEntry (s : State) (asid : Nat) : Word64 := s.tableEntry (s.asAddr asid)

/-- Bytes that an entry of a level maps, as a power of two (12 Table 12.8). -/
def levelShift (level : Nat) : Nat := [48, 39, 30, 21, 16].getD level 16

/-- Do two addresses pass the same entry of a level? -/
def samePath (level a b : Nat) : Bool := a / 2 ^ levelShift level == b / 2 ^ levelShift level

/-- The walker that makes the next walk on a die (12 Table 12.10). -/
def State.walker (s : State) : Nat := Config.walker s.tick % 16

/-- The pointer entries the walker keeps of an address's path, deepest first (12 Table 12.10). -/
def State.kept (s : State) (d asid va : Nat) : List (Nat × Word64) :=
  [3, 2, 1, 0].filterMap fun level =>
    (s.walks.findSome? fun r =>
      if r.die == d && r.walker == s.walker && r.asid == asid && samePath level r.va va then r.ptrs.find? fun p => p.1 == level
      else none)

/-- Where a walk begins: below the deepest pointer the walker keeps, else at the root: the level and its table (12 R313,
R318). -/
def State.walkStart (s : State) (d asid va : Nat) : Nat × Nat :=
  match s.kept d asid va with
  | (level, x) :: _ => (level + 1, field x 8 44 * 256)
  | [] => (0, field (s.asEntry asid) 12 40 * 4096)

/-- A walk of an address space by a walker of die `d`; one that begins at the root reads the space's table entry first. -/
def State.walk (s : State) (d asid va : Nat) : Walk :=
  let b := s.walkStart d asid va
  match if b.1 = 0 then s.entryStop d (s.asAddr asid) else none with
  | some w => w
  | none => s.walkFrom d (5 - b.1) b.1 b.2 va

/-! ### Translation caches (12 R318) -/

/-- Does a cached translation cover an address at a cache of its die? -/
def TlbEntry.covers (e : TlbEntry) (level die idx asid va : Nat) : Bool :=
  e.level == level && e.die == die && e.idx == idx && e.asid == asid && decide (e.base ≤ va) && decide (va < e.base + e.size)

/-- The cache a core or an engine looks into first and the one behind it, as (level, index). -/
def Via.caches (v : Via) : List (Nat × Nat) := if v.engine then [(3, 0)] else [(1, v.idx), (2, v.idx / 8)]

/-- The cached translation of an address. -/
def State.cached (s : State) (v : Via) (va : Nat) : Option TlbEntry :=
  s.tlb.find? fun e => v.caches.any fun c => e.covers c.1 v.die c.2 v.asid va

/-- The leaf of an address: from the caches, whose entries are checked as the walk checks them (12 R317), else by a
walk. -/
def State.leafFor (s : State) (v : Via) (va : Nat) : Walk :=
  match s.cached v va with
  | some e => if leafOk s.tc e.leaf (5 - field e.leaf 6 2) then .leaf e.leaf (5 - field e.leaf 6 2) e.leafAddr else .prot
  | none => s.walk v.die v.asid va

/-- Entries of a cache (12 Table 12.10). -/
def tlbSize (level : Nat) : Nat :=
  match level with
  | 1 => 128
  | 2 => 4096
  | _ => 1024

/-- A cache with a translation added; when it is full a free choice gives the victim (12 R318 gives sizes only). -/
def State.tlbAdd (s : State) (e : TlbEntry) : State :=
  let same := fun x : TlbEntry => x.level == e.level && x.die == e.die && x.idx == e.idx
  let n := (s.tlb.filter same).length
  if n < tlbSize e.level then { s with tlb := s.tlb ++ [e] } else
  match s.pickFrom (16 * (e.level + 4 * e.idx) + 6) (s.tlb.filter same) with
  | some v => { s with tlb := (s.tlb.erase v) ++ [e] }
  | none => { s with tlb := (s.tlb.eraseIdx 0) ++ [e] }

/-- The countdown a second-level or engine entry is loaded with: 2^SR - 1, SR at most 10 (12 R320, R321). -/
def State.hotLoad (s : State) : Nat := 2 ^ min (field (s.creg 0x50) 54 4) 10 - 1

/-- A walk's reads, each a wt load at its entry's home, and the pointer entries its walker keeps of it, of its last 64 walks
(12 R313, R318). -/
def State.keepWalk (s : State) (v : Via) (va : Nat) : State :=
  let b := s.walkStart v.die v.asid va
  let path := s.walkPtrs (5 - b.1) b.1 b.2 va
  let ptrs := s.kept v.die v.asid va ++ (path.filter fun p => field p.2.2 6 2 == 0).map fun p => (p.1, p.2.2)
  let mine := fun (r : Walked) => r.die == v.die && r.walker == s.walker
  let r : Walked := ⟨v.die, s.walker, v.asid, va, ptrs⟩
  let s : State := { s with
    walks := r :: (((s.walks.filter mine).take 63) ++ s.walks.filter fun x => !mine x)
    hostReady := s.hostReady.filter fun l => !path.any fun p => p.2.1 / 64 == l }
  path.foldl (fun (s : State) p =>
    s.engineAccess v.die (p.2.1 / 64) polWt false (bytesToWords (byteMask (p.2.1 % 64) 8)) 0 false) s

/-- The caches after a walk found a leaf for an address. -/
def State.tlbFill (s : State) (v : Via) (va : Nat) : State :=
  match s.leafFor v va with
  | .leaf x _ a =>
    let s := if (s.cached v va).isSome then s else s.keepWalk v va
    let size := pageSize (field x 6 2)
    v.caches.foldl (fun s c =>
      if s.tlb.any fun e => e.covers c.1 v.die c.2 v.asid va then s
      else s.tlbAdd ⟨c.1, v.die, c.2, v.asid, va / size * size, size, x, a, s.hotLoad⟩) s
  | _ => s

/-- A request towards a home counts the entry's countdown down; at zero the leaf is sampled and the countdown
reloads (12 R320). -/
def State.countHot (s : State) (v : Via) (va : Nat) : State :=
  let c := if v.engine then (3, 0) else (2, v.idx / 8)
  match s.tlb.find? fun e => e.covers c.1 v.die c.2 v.asid va with
  | none => s
  | some e =>
    let n := if e.count = 0 then s.hotLoad else e.count - 1
    let s := { s with tlb := s.tlb.map fun x => if x = e then { e with count := n } else x }
    if e.count = 0 then s.post .hotnessSample { a := e.leafAddr, b := va / e.size * e.size, c := v.asid } else s

/-! ### What an access finds -/

/-- The offset of a bricked page (12 R330). -/
def brick (o : Nat) : Nat :=
  bitsAt o 0 5 + bitsAt o 7 3 * 2 ^ 5 + bitsAt o 11 3 * 2 ^ 8 + bitsAt o 5 2 * 2 ^ 11 + bitsAt o 10 1 * 2 ^ 13 +
  (o / 2 ^ 14) * 2 ^ 14

/-- The physical address of a virtual one under a leaf (12 R313, R330). -/
def leafPhys (x : Word64) (va : Nat) : Nat :=
  let size := pageSize (field x 6 2)
  let o := va % size
  field x 16 36 * 65536 + (if field x 54 2 = 1 then brick o else o)

/-- A byte an access may perform: its key in `State.mem`, whether it is global memory, its virtual address, the policy
after the fallback of 12 Table 12.9 and whether that fallback was taken, the page's SCR and CMP attributes. -/
structure Hit where
  key : Nat
  global : Bool
  va : Nat
  pol : Nat
  pdn : Bool
  scr : Bool
  cmp : Bool
  deriving DecidableEq, Repr

/-- What the check phase finds for a byte (06 R168, 12 R316). -/
inductive Reach where
  | hit (h : Hit)
  | prot
  | absent (level addr : Nat)
  | busy
  | dead (e : Loss)
  | host (line want : Nat)
  | full (site : Site) (line : Nat)
  | back (line : Nat)
  deriving DecidableEq, Repr

/-- Is the policy allowed by a leaf (12 R315)? -/
def polAllowed (x : Word64) (pol : Nat) : Bool :=
  match pol with
  | 0 => field x 13 1 == 1
  | 2 => field x 12 1 == 1
  | 3 => field x 11 1 == 1
  | _ => true

/-- What the host-proxy home must ask of the host before an access to a line (11 Table 11.9), if anything: E or M for GetO,
OpH, PutP and PutT, S for GetT, data for GetH and GetU. -/
def State.hostWants (s : State) (l : Nat) (pol : Nat) (store reads full : Bool) : Option Nat :=
  let owns := pol == polOwn || pol == polOp || (store && pol != polSi)
  match fget .i s.cxl l with
  | .e => none
  | .m => none
  | .s => if owns then some 2 else none
  | .i =>
    if owns then
      if store && !reads && full then if s.cxlNoData.contains l then none else some 3 else some 2
    else if pol = polWi then some 1
    else if s.hostReady.contains l then none else some 0

/-- Can the home of a global byte take an access now? An access that hits in the core's copy asks no home; one that hits in
its die's last-level cache asks none beyond it (11 R284, R293, R299, R301, 15 R375, 16 R390, R392, R393). -/
def State.homeCheck (s : State) (v : Via) (pa : Nat) (store reads : Bool) (pol : Nat) : Option Reach :=
  match s.homeState pa with
  | some (.dead e) => some (.dead e)
  | some _ => some .busy
  | none =>
    if (reads && s.poisoned pa) || s.badBlock pa then some (.dead badData) else
    let l := pa / 64
    if s.lineBusy v.die l then some .busy else
    let R : BitVec 16 := BitVec.ofNat 16 (2 ^ (pa % 64 / 4))
    if !v.engine && (s.line (.core v.die v.idx) l).hits pol store R then none else
    match s.fullAt v.die l with
    | some site => some (.full site l)
    | none =>
      if s.hostHolds v.die l pol store R then some (.back l) else
      match physRange s.tc pa with
      | .peer p =>
        if !(s.peerPorts p [3]).isEmpty then
          if Config.peerAccepts (field (s.creg (0x810 + 32 * p)) 0 8 * 2 ^ 44 + pa % 2 ^ 44) then none else some .prot
        else if (s.peerPorts p [0, 1, 2]).isEmpty then some (.dead badData) else some .busy
      | .host =>
        if (s.line (.llc v.die) l).hits pol store R then none
        else (s.hostWants l pol store reads v.full).map fun w => .host l w
      | _ => none

/-- A window's die, if it is a scratchpad: its core function serves it (16 R388, R390). -/
def windowState (s : State) (key : Nat) : Option Reach :=
  if clusterKey ≤ key then none else
  let d := (key - scratchKey) / 2 ^ 25
  if bitAt (s.creg 0x20).toNat d then some (.dead (s.dieLoss d))
  else if bitAt (s.creg 0x10).toNat d then none else some .busy

/-- The check of one byte (06 R167, R168). `reads` says whether the access reads it. -/
def State.reach (s : State) (v : Via) (need : Need) (reads : Bool) (pol va : Nat) : Reach :=
  match s.space v (need == needX) va with
  | .none => .prot
  | .window key => (windowState s key).getD (.hit ⟨key, false, va, pol, false, false, false⟩)
  | .global =>
    match s.leafFor v va with
    | .prot => .prot
    | .absent level a => .absent level a
    | .busy => .busy
    | .dead e => .dead e
    | .host l => .host l 0
    | .leaf x _ _ =>
      if field x 8 3 &&& need != need then .prot else
      let pa := leafPhys x va
      let p := if polAllowed x pol then pol else polWt
      match s.homeCheck { v with full := v.full && field x 54 2 != 1 } pa (need &&& needW != 0) reads p with
      | some r => r
      | none => .hit ⟨pa, true, va, p, p != pol, bitAt x.toNat 56, bitAt x.toNat 53⟩

/-- A span cut at multiples of 32 bytes: each part lies in one line, page, grant and brick run. -/
def spanParts (fuel va n : Nat) : List (Nat × Nat) :=
  match fuel with
  | 0 => []
  | f + 1 =>
    if n = 0 then [] else
    let m := min n (32 - va % 32)
    (va, m) :: spanParts f (va + m) (n - m)

/-- The parts of a span, enough of them for `n` bytes. -/
def parts (va n : Nat) : List (Nat × Nat) := spanParts (n / 32 + 2) va n

/-! ### Bytes -/

/-- The line and byte mask of a hit. -/
def Hit.line (h : Hit) : Nat := h.key / 64
def Hit.words (h : Hit) (n : Nat) : BitVec 16 := bytesToWords (byteMask (h.key % 64) n)

/-- The agent's side of an access of `n` bytes: a core's own access, or for an engine that of its die (11 R279). -/
def State.lineAccess (s : State) (v : Via) (h : Hit) (n : Nat) (store : Bool) (hint : Nat) : State :=
  if !h.global then s else
  let l := h.line
  let R := h.words n
  let a := Agent.core v.die v.idx
  let s := if (s.line a l).hits h.pol store R && !v.engine then s else s.countHot v h.va
  let s : State := { s with hostReady := s.hostReady.filter (· != l) }
  let s := if store && h.pol != polSi then s.hostWritten l else s
  if v.engine then s.engineAccess v.die l h.pol store R hint h.cmp else s.coreAccess v.die v.idx l h.pol store R hint h.cmp

/-- A byte a load returns, after `lineAccess`. -/
def State.loadByte (s : State) (v : Via) (h : Hit) (i : Nat) : Byte :=
  if !h.global then s.mem.read (h.key + i) else
  let o := h.key % 64 + i
  if v.engine then
    if h.pol = polSi || h.pol = polWi then s.copyByte (s.line (.llc v.die) h.line) o else s.readPhys (h.key + i)
  else
    let c := s.line (.core v.die v.idx) h.line
    if h.pol = polSi || (h.pol = polWi && c.tracked) then s.copyByte c o else s.readPhys (h.key + i)

/-- A copy with a byte written and marked dirty. -/
def CLine.put (c : CLine) (i : Nat) (b : Byte) : CLine :=
  { c with data := putDataByte c.data i b, dirty := c.dirty ||| BitVec.ofNat 64 (2 ^ i) }

/-- A byte stored, after `lineAccess`: into an owned word (its home keeps what it last merged, 11 R303), into an si
copy, or at the home. -/
def State.storeByte (s : State) (v : Via) (h : Hit) (i : Nat) (b : Byte) : State :=
  if !h.global then { s with mem := s.mem.write (h.key + i) b } else
  let o := h.key % 64 + i
  let a := if v.engine then Agent.llc v.die else Agent.core v.die v.idx
  let c := s.line a h.line
  if c.owned.getLsbD (o / 4) && (h.pol == polOwn || h.pol == polSi) then s.ownedPut a h.line o b
  else if h.pol = polSi && !(v.engine && homeOf s.tc (64 * h.line) = .die v.die) then s.setLine (c.put o b)
  else s.writePhys (h.key + i) b

/-- Bytes stored. -/
def State.storeBytes (s : State) (v : Via) (h : Hit) (i : Nat) (bs : List Byte) : State :=
  match bs with
  | [] => s
  | b :: r => (s.storeByte v h i b).storeBytes v h (i + 1) r

/-- A hit at an offset. -/
def Hit.at (h : Hit) (i : Nat) : Hit := { h with key := h.key + i, va := h.va + i }

/-! ### The stack cache of a team (01 R37) -/

/-- Is a byte in the team's stack range [LIMIT, FP) (01 R36)? -/
def Team.inStack (t : Team) (va : Nat) : Bool := decide (t.limit ≤ va) && decide (va < t.fp.toNat)

/-- A load of `n` bytes at a checked part by team `k`. -/
def State.teamLoad (s : State) (k : Nat) (h : Hit) (n hint : Nat) : State × List Byte :=
  let v := s.viaOf k
  let s := s.lineAccess v h n false hint
  let stk := (s.teamAt k).stk
  (s, (List.range n).map fun i => if stk.isEmpty || !h.global then s.loadByte v h i else
    match fget? stk (h.va + i) with
    | some b => b
    | none => s.loadByte v h i)

/-- Does byte `i` of a part belong to the team's stack cache (01 R36, R37)? -/
def Hit.stack (h : Hit) (t : Team) (i : Nat) : Bool := h.global && t.inStack (h.va + i)

/-- The bytes of a part that no stack cache serves stored, after `lineAccess`. -/
def State.storeRest (s : State) (v : Via) (t : Team) (h : Hit) (i : Nat) (bs : List Byte) : State :=
  match bs with
  | [] => s
  | b :: r => (if h.stack t i then s else s.storeByte v h i b).storeRest v t h (i + 1) r

/-- A store of bytes at a checked part by team `k`: those of the stack range go to the stack cache. -/
def State.teamStore (s : State) (k : Nat) (h : Hit) (bs : List Byte) (hint : Nat) : State :=
  let t := s.teamAt k
  let n := bs.length
  let ins := (List.range n).filter (h.stack t)
  let s := if ins.isEmpty then s else
    s.setTeam k { t with stk := ins.foldl (fun m i => fput m (h.va + i) (bs.getD i 0)) t.stk }
  if ins.length = n then s else
  let v := s.viaOf k
  let s := (s.lineAccess v h n true hint).storeRest v t h 0 bs
  if h.global then s.clearPoison h.key n else s

/-- A byte of a team's stack cache stored under wt, if its page can be reached; with the last byte of a word that the cache
holds whole the word's poison goes (15 R375). -/
def State.flushByte (s : State) (k : Nat) (whole : Nat → Bool) (e : Nat × Byte) : State :=
  let v := s.viaOf k
  match s.reach v needW false polWt e.1 with
  | .hit h =>
    let s := (s.lineAccess v h 1 true 0).storeByte v h 0 e.2
    if e.1 % 4 = 3 && whole (e.1 / 4) then s.clearPoison (h.key - 3) 4 else s
  | _ => s.setTeam k { s.teamAt k with stk := fput (s.teamAt k).stk e.1 e.2 }

/-- Bytes of a team's stack cache written back, those of `out`; one whose page cannot be reached stays (01 R37). -/
def State.flushSome (s : State) (k : Nat) (out : FMap Byte) : State :=
  let t := s.teamAt k
  let s := s.setTeam k { t with stk := t.stk.filter fun e => !out.contains e }
  out.foldl (fun (s : State) e => s.flushByte k (fun w => (List.range 4).all fun j => (fget? out (4 * w + j)).isSome) e) s

/-- The stack cache written back (01 R37): its dirty bytes stored under wt. -/
def State.flushStack (s : State) (k : Nat) : State :=
  if (s.teamAt k).stk.isEmpty then s else s.flushSome k (s.teamAt k).stk

/-- The bytes of dirty stack-cache lines that a team may hold: its share of the core's 32 KiB, in units of 2 KiB (01 Table
1.4). -/
def State.stackShare (s : State) (k : Nat) : Nat :=
  let t := s.teamAt k
  let n := (s.teamsWith fun u => u.status == .resident && u.die == t.die && u.cluster == t.cluster && u.core == t.core).length
  16 / max n 1 * 2048

/-- A team over its share writes back lines until it is not, lowest address first. -/
def State.trimStack (s : State) (k : Nat) : State :=
  let stk := (s.teamAt k).stk
  let ls := (stk.map fun e => e.1 / 64).eraseDups
  let room := s.stackShare k / 64
  if ls.length ≤ room then s else
  let out := ls.take (ls.length - room)
  s.flushSome k (stk.filter fun e => out.contains (e.1 / 64))

/-- Every resident team's stack cache kept to its share. -/
def State.trimStacks (s : State) : State :=
  (s.teamsWith fun t => t.status == .resident && decide (32 < t.stk.length)).foldl (fun (s : State) k => s.trimStack k) s

end Sys2Proof.Machine
end

