-- ==== Sys2Proof/Machine/Units.lean ====
section
/-! DEFINITION. How the units of a die and of the I/O die reach physical memory (11 R279, 12 R313, 15 R363, 16 R384): each of
their accesses is a wt access at the home of its line. -/

namespace Sys2Proof.Machine

/-- The I/O die's socket: its units and the host-proxy home (01 Table 1.1). -/
def ioDie : Nat := 8

/-- A unit's wt access of words R of a line at its home: what other agents own is stripped, and of a store their tracked copies
are invalidated. A unit of the I/O die keeps no copy; one of a compute die asks through its die's last-level cache. -/
def State.unitAccess (s : State) (d l : Nat) (store : Bool) (R : BitVec 16) : State :=
  let s : State := { s with hostReady := s.hostReady.filter (· != l) }
  let s := if store then s.hostWritten l else s
  if d < 8 then s.engineAccess d l polWt store R 0 false
  else
    let home := homeOf s.tc (64 * l)
    (s.homeTouch home l 0).serve home l (.unit d) (if store then .putP else .getH) false R

/-- A physical span cut at lines. -/
def lineParts (a n : Nat) : List (Nat × Nat) :=
  (List.range ((a % 64 + n + 63) / 64)).map fun i =>
    let lo := max a ((a / 64 + i) * 64)
    (lo, min (a + n) ((a / 64 + i + 1) * 64) - lo)

/-- The words of a part of a line. -/
def partWords (a n : Nat) : BitVec 16 := bytesToWords (byteMask (a % 64) n)

/-- What keeps a unit of socket `d` from an access of a part of a line: its home or its line cannot serve yet, it is poisoned,
the host is to be asked, or its home is lost. -/
def State.partStop (s : State) (d a n : Nat) (store : Bool) : Option Reach :=
  match s.homeState a with
  | some (.dead e) => some (.dead e)
  | some _ => some .busy
  | none =>
    let l := a / 64
    if s.lineBusy d l then some .busy
    else if s.badBlock a || (!store && (List.range n).any fun i => s.poisoned (a + i)) then some (.dead badData)
    else if s.hostHolds d l polWt store (partWords a n) then some (.back l)
    else if hostLine s.tc l && !(d < 8 && (s.line (.llc d) l).hits polWt store (partWords a n))
    then (s.hostWants l polWt store (!store) (n == 64)).map fun w => .host l w
    else none

/-- What keeps a unit from an access of a span. -/
def State.unitStop (s : State) (d a n : Nat) (store : Bool) : Option Reach :=
  (lineParts a n).findSome? fun p => s.partStop d p.1 p.2 store

/-- Is it something to wait for? A home that is lost or words in error are not. -/
def Reach.waits (r : Reach) : Bool :=
  match r with
  | .busy => true
  | .host _ _ => true
  | .back _ => true
  | _ => false

/-- What a unit must wait for before an access of a span. -/
def State.unitWait (s : State) (d a n : Nat) (store : Bool) : Option Reach := (s.unitStop d a n store).filter Reach.waits

/-- The host or the holder asked for what a unit waits for. -/
def State.unitAsk (s : State) (r : Reach) : State :=
  match r with
  | .host l w => s.askHost l w
  | .back l => s.askBack l
  | _ => s

/-- A unit's reads of a span at its home; the bytes are `State.readsPhys`'s. -/
def State.unitTouch (s : State) (d a n : Nat) : State :=
  (lineParts a n).foldl (fun (s : State) p => s.unitAccess d (p.1 / 64) false (partWords p.1 p.2)) s

/-- A unit's store of bytes at their homes; words wholly written are poisoned no more (15 R375). -/
def State.unitPut (s : State) (d a : Nat) (bs : List Byte) : State :=
  (lineParts a bs.length).foldl (fun (s : State) p =>
    ((s.unitAccess d (p.1 / 64) true (partWords p.1 p.2)).writesPhys p.1 ((bs.drop (p.1 - a)).take p.2)).clearPoison p.1 p.2) s

/-- A unit's little-endian store. -/
def State.unitPutLe (s : State) (d a n v : Nat) : State := s.unitPut d a (leBytes n v)

/-- A unit's store of a part of a line as a message, which its home serves when it can (11 R285). -/
def State.unitSend (s : State) (d a : Nat) (bs : List Byte) : State :=
  let m := byteMask (a % 64) bs.length
  let x : Msg := ⟨.unit d, homeOf s.tc a, a / 64, bytesToWords m, m, BitVec.ofNat 512 (leNat bs * 2 ^ (8 * (a % 64))), 0, 0, 0, none,
    0, [], BitVec.ofNat 11 s.nextTxn, BitVec.ofNat 2 (s.nextTxn / 2048), false⟩
  ({ s with nextTxn := s.nextTxn + 1 } : State).send .putp x

/-- A unit's store that need not be complete when the unit goes on: a line that is not free gets it as a message. -/
def State.unitWrite (s : State) (d a : Nat) (bs : List Byte) : State :=
  (lineParts a bs.length).foldl (fun (s : State) p =>
    let b := (bs.drop (p.1 - a)).take p.2
    if (s.partStop d p.1 p.2 true).any Reach.waits then s.unitSend d p.1 b else s.unitPut d p.1 b) s

/-- A unit's store of `n` zeros, line by line. -/
def State.unitZero (s : State) (d a n : Nat) : State :=
  (lineParts a n).foldl (fun (s : State) p =>
    if (s.partStop d p.1 p.2 true).any Reach.waits then s.unitSend d p.1 (List.replicate p.2 0)
    else
      let s := s.unitAccess d (p.1 / 64) true (partWords p.1 p.2)
      ({ s with mem := s.mem.clear p.1 p.2 } : State).clearPoison p.1 p.2) s

/-- A line that no unit's access of [a, a + n) may use now: at work, blocked, or with a write-back on its way. -/
def State.spanBusy (s : State) (a n : Nat) : Bool :=
  let lo := a / 64
  let hi := (a + n + 63) / 64
  let inside := fun (l : Nat) => decide (lo ≤ l) && decide (l < hi)
  s.wbuf.any (fun w => inside w.msg.line) || s.txns.any (fun t => decide (lo / 4 ≤ t.line / 4) && decide (t.line / 4 ≤ hi / 4)) ||
  s.dir.any (fun e => inside e.line && decide (8 ≤ e.st.toNat)) || s.remaps.any (fun r => decide (r.1 < hi) && decide (lo < r.2)) ||
  s.moves.any (fun m => m.state != .abandon && decide (m.page.1 < hi) && decide (lo < m.page.1 + m.page.2))

/-- A unit's reads of a long span: at the lines that some agent holds or a home works on. -/
def State.spanTouch (s : State) (d a n : Nat) : State :=
  let ls := ((s.dir.map (·.line)).filter fun l => decide (a / 64 ≤ l) && decide (64 * l < a + n)).eraseDups
  ls.foldl (fun (s : State) l => s.unitAccess d l false 0xFFFF) s

end Sys2Proof.Machine
end

