-- ==== Sys2Proof/Machine/Frame.lean ====
section
/-! DEFINITION. The context frame (15 R362 to R368): its layout, written from a team and read back into one. -/

namespace Sys2Proof.Machine

/-- The code of WAIT (15 R365); the model's finer reasons to wait are 0. -/
def waitCode (w : Wait) : Nat :=
  match w with
  | .cbar => 1
  | .dbar => 2
  | .pharv => 3
  | .phwait => 4
  | .cpywait => 5
  | .latch => 6
  | .pageFault => 7
  | .array => 8
  | _ => 0

/-- A saved WAIT code. -/
def waitOfCode (n : Nat) : Wait :=
  match n with
  | 1 => .cbar
  | 2 => .dbar
  | 3 => .pharv
  | 4 => .phwait
  | 5 => .cpywait
  | 6 => .latch
  | 7 => .pageFault
  | 8 => .array
  | _ => .none

/-- PLACE: socket, cluster, core, slot (15 R365). -/
def Team.place (t : Team) : Nat := t.die * 2 ^ 12 + t.cluster * 2 ^ 7 + t.core * 2 ^ 4 + t.slot

/-- `BATCH` (07 R220). -/
def Team.batch (t : Team) : Word64 := t.done ++ t.closed

/-- The frame header (15 R365). -/
def frameHeader (t : Team) : Nat :=
  t.spPtr.toNat <<< 448 ||| t.rp.toNat <<< 384 ||| t.fseq.toNat <<< 352 ||| t.nsave.toNat <<< 320 |||
  t.place <<< 272 ||| t.div.length <<< 264 ||| t.ret.length <<< 256 |||
  (if t.matq.isEmpty then 0 else 1) <<< 243 |||
  ((if t.acc0.active then 1 else 0) + (if t.acc1.active then 2 else 0)) <<< 241 |||
  (if t.prow.isSome then 1 else 0) <<< 240 ||| (t.prow.getD 0) <<< 232 |||
  (if t.arr then 1 else 0) <<< 231 ||| waitCode t.wait <<< 224 ||| t.cause.toNat <<< 220 ||| t.depth <<< 216 |||
  t.ndie <<< 213 ||| t.ngrp <<< 208 ||| t.nteam <<< 205 ||| t.dix <<< 202 ||| t.gix <<< 197 ||| t.tix <<< 194 |||
  (t.spBase.toNat % 2 ^ 57) <<< 64 ||| t.ndsp <<< 32 ||| t.nrsp

/-- A divergence record of 04 Table 4.5, live, as a number of 160 bytes. -/
def divRecord (e : DivEntry) : Nat :=
  e.mask.toNat ||| (summary e.mask).toNat <<< 1024 ||| e.reconv.toNat <<< 1088 ||| e.pc.toNat <<< 1152 |||
  1 <<< 1248

/-- A return record of 04 Table 4.5, live, as a number of 16 bytes. -/
def retRecord (pc : BitVec 64) : Nat := pc.toNat ||| 2 <<< 96

/-- An accumulator element as the frame holds it (02 R61). -/
def accWord (x : AccElem) : Nat :=
  x.acc.toNat ||| x.anchor.toNat <<< 192 ||| x.loss.toNat <<< 224 ||| (if x.ov then 1 else 0) <<< 255

/-- An accumulator element from the frame's 32 bytes. -/
def accOfWord (n : Nat) : AccElem :=
  { acc := BitVec.ofNat 192 n, anchor := BitVec.ofNat 16 (n >>> 192), loss := BitVec.ofNat 16 (n >>> 224),
    ov := bitAt n 255 }

/-- The thirteen CSRs of a frame, in order (15 Table 15.8). -/
def Team.frameCsrs (t : Team) : List Word64 :=
  [t.flags, t.fctl, t.iwarn, t.mbound, t.tile, t.gang, t.allow, t.batch, t.slim, t.tvec, t.tcause, t.tepc,
   (summary t.tmask).setWidth 64]

/-- 32-bit words as bytes. -/
def wordBytes (xs : List Word32) : List Byte := xs.flatMap fun x => leBytes 4 x.toNat

/-- The captured operands at 0xC_C000. Their layout is not in the spec (DESIGN CHOICE, notes/assumptions/7.md): a
32-byte header, then (index, word) pairs. -/
def capturedBytes (m : MatOp) : Nat × List Byte :=
  (0xCC000, leBytes 32
    (m.captured.length + (if m.gang then 1 else 0) <<< 32 + m.fmt.toNat <<< 40 + m.slices <<< 48 +
      (if m.tri then 1 else 0) <<< 56 + m.set <<< 64 + m.sb.toNat <<< 72 + m.lanes <<< 80) ++
    m.captured.flatMap fun kv => leBytes 4 kv.1 ++ leBytes 4 kv.2.toNat)

/-- One accumulator set in the frame: its elements and bound words (15 Table 15.8). -/
def accFrame (a : AccSet) (base bbase : Nat) : List (Nat × List Byte) :=
  if !a.active then [] else
  (List.range 64).map (fun i => (base + 2048 * i,
    (List.range 64).flatMap fun j => leBytes 32 (accWord (fget ⟨0, 0, 0, false⟩ a.elems (64 * i + j))))) ++
  [(bbase, wordBytes ((List.range 4096).map (fget 0 a.bounds)))]

/-- Every field of a frame as (offset, bytes) (15 Table 15.8); a part that does not apply is not written. -/
def frameFields (t : Team) : List (Nat × List Byte) :=
  [(0, leBytes 64 (frameHeader t)), (0x40, leBytes 64 t.record.toNat),
   (0x80, (List.range 64).flatMap fun i => leBytes 8 (fget 0 t.sreg i).toNat),
   (0x280, t.frameCsrs.flatMap fun x => leBytes 8 x.toNat),
   (0x300, leBytes 128 t.tmask.toNat),
   (0x400, (List.range 16).flatMap fun i => leBytes 128 (if i = 0 then 0 else (t.k i).toNat)),
   (0xC00, t.div.reverse.flatMap fun e => leBytes 160 (divRecord e)),
   (0x1600, t.ret.reverse.flatMap fun e => leBytes 16 (retRecord e)),
   (0x1680, wordBytes ((List.range t.vregs).map fun i => ~~~ (t.emptyRows i))),
   (0x1880, leBytes 64 ((List.range t.vregs).foldl (fun a i => a + (t.tagOf i).toNat <<< (4 * i)) 0)),
   (0x1A00, wordBytes ((List.range t.lanes).map t.g))] ++
  ((List.range t.vregs).map fun i => (0x4000 + 4 * t.lanes * i, wordBytes ((List.range t.lanes).map (t.v i)))) ++
  accFrame t.acc0 0x84000 0xC4000 ++ accFrame t.acc1 0xA4000 0xC8000 ++ (t.matq.take 1).map capturedBytes

/-- The reserved parts of a frame as (offset, bytes) (15 Table 15.8): the device writes zero to them (00 R8). -/
def frameReserved : List (Nat × Nat) := [(0x18C0, 320), (0x2A00, 5632), (0xEE000, 73728)]

/-- Physical address of a frame slot of a die (15 R363). -/
def State.frameAddr (s : State) (die slot : Nat) : Nat := (field (s.creg (0x80 + 8 * die)) 0 32 + slot) * 2 ^ 20

/-- Fields written to the frame slot of team `k` by its die's dispatcher, under wt (15 R363). -/
def State.putFrame (s : State) (k : Nat) (fs : List (Nat × List Byte)) : State :=
  let t := s.teamAt k
  match t.frameSlot with
  | none => s
  | some i => fs.foldl (fun (s : State) f => s.unitWrite t.die (s.frameAddr t.die i + f.1) f.2) s

/-- The frame of team `k` written to its slot, its reserved parts as zeros. -/
def State.writeFrame (s : State) (k : Nat) : State :=
  let t := s.teamAt k
  match t.frameSlot with
  | none => s
  | some i => frameReserved.foldl (fun (s : State) r => s.unitZero t.die (s.frameAddr t.die i + r.1) r.2)
      (s.putFrame k (frameFields t))

/-- Is a frame header valid (15 R367)? Reserved fields zero, DDEP 1 to 16, RDEP at most 8, WAIT and CAUSE assigned. -/
def headerOk (h : Nat) : Bool :=
  bitsAt h 288 32 == 0 && bitsAt h 287 1 == 0 && decide (1 ≤ bitsAt h 264 8) && decide (bitsAt h 264 8 ≤ 16) &&
  decide (bitsAt h 256 8 ≤ 8) && bitsAt h 244 12 == 0 && bitsAt h 228 3 == 0 && decide (bitsAt h 224 4 ≤ 8) &&
  decide (1 ≤ bitsAt h 220 4) && decide (bitsAt h 220 4 ≤ 6) && bitsAt h 121 73 == 0

/-- A divergence entry from 160 bytes. -/
def divOfRecord (n : Nat) : DivEntry :=
  { mask := BitVec.ofNat 1024 n, reconv := BitVec.ofNat 64 (n >>> 1088), pc := BitVec.ofNat 64 (n >>> 1152) }

/-- An accumulator set read back; `rd` reads the frame. -/
def accOfFrame (rd : Nat → Nat → Nat) (on : Bool) (base bbase : Nat) : AccSet :=
  if !on then emptySet else
  { active := true
    elems := (List.range 4096).map fun e => (e, accOfWord (rd (base + 32 * e) 32))
    bounds := (List.range 4096).map fun e => (e, BitVec.ofNat 32 (rd (bbase + 4 * e) 4)) }

/-- A captured matrix operation read back. -/
def capturedOfFrame (rd : Nat → Nat → Nat) : MatOp :=
  let h := rd 0xCC000 32
  { gang := bitAt h 32, fmt := BitVec.ofNat 4 (h >>> 40), slices := bitsAt h 48 8, tri := bitAt h 56,
    set := bitsAt h 64 8, sb := BitVec.ofNat 2 (h >>> 72), lanes := bitsAt h 80 16,
    captured := (List.range (bitsAt h 0 32)).map fun i =>
      let w := rd (0xCC020 + 8 * i) 8
      (bitsAt w 0 32, BitVec.ofNat 32 (w >>> 32)) }

/-- The bits of the CSRs 0 to 12 of a frame that are no reserved fields (00 R8). -/
def frameCsrMask (i : Nat) : Word64 :=
  [0x1F, 0xFFFFFFFF00FF0007, 0x3FFF, 0x30FFFFFFF, 7, 0xF00FFFFFF, 7, 0xFFFFFFFFFFFFFFFF, 0x1FFFFFFFFFFFFF0,
   0x1FFFFFFFFFFFFFC, 0xFFFFF80003FF, 0x1FFFFFFFFFFFFFC, 0].getD i 0

/-- A CSR word of the frame; its reserved fields are ignored. -/
def frameCsr (rd : Nat → Nat → Nat) (i : Nat) : Word64 := BitVec.ofNat 64 (rd (0x280 + 8 * i) 8) &&& frameCsrMask i

/-- The team a frame holds (15 R367, R368): `t` gives what the frame does not hold (launch, placement). -/
def teamOfFrame (t : Team) (rd : Nat → Nat → Nat) : Team :=
  let h := rd 0 64
  let r := rd 0x40 64
  let lanes := bitsAt r 192 11
  let l := if decide (32 ≤ lanes) && decide (lanes ≤ 1024) && lanes % 32 == 0 then lanes else t.lanes
  let v := 8 * (bitsAt r 204 4 + 1)
  { t with
    record := BitVec.ofNat 512 r, lanes := l, vregs := v
    dix := bitsAt h 202 3, gix := bitsAt h 197 5, tix := bitsAt h 194 3
    ndie := bitsAt h 213 3, ngrp := bitsAt h 208 5, nteam := bitsAt h 205 3, depth := bitsAt h 216 4
    sreg := (List.range 64).map fun i => (i, BitVec.ofNat 64 (rd (0x80 + 8 * i) 8))
    vreg := (List.range v).flatMap fun i =>
      (List.range l).map fun n => (i * 1024 + n, BitVec.ofNat 32 (rd (0x4000 + 4 * l * i + 4 * n) 4))
    mask := (List.range 15).map fun i => (i + 1, BitVec.ofNat 1024 (rd (0x480 + 128 * i) 128) &&& allLanes l)
    empty := (List.range v).map fun i => (i, ~~~ (BitVec.ofNat 32 (rd (0x1680 + 4 * i) 4)))
    tag := (List.range v).map fun i => (i, BitVec.ofNat 4 (rd 0x1880 64 >>> (4 * i)))
    gen := (List.range l).map fun n => (n, BitVec.ofNat 32 (rd (0x1A00 + 4 * n) 4))
    div := ((List.range (bitsAt h 264 8)).map fun i => divOfRecord (rd (0xC00 + 160 * i) 160)).reverse
    ret := ((List.range (bitsAt h 256 8)).map fun i => BitVec.ofNat 64 (rd (0x1600 + 16 * i) 8)).reverse
    rp := BitVec.ofNat 64 (h >>> 384), spPtr := BitVec.ofNat 64 (h >>> 448)
    spBase := BitVec.ofNat 64 (bitsAt h 64 57), ndsp := bitsAt h 32 32, nrsp := bitsAt h 0 32
    flags := frameCsr rd 0, fctl := frameCsr rd 1, iwarn := frameCsr rd 2, mbound := frameCsr rd 3
    tile := frameCsr rd 4, gang := frameCsr rd 5, allow := frameCsr rd 6
    closed := (frameCsr rd 7).extractLsb' 0 32, slim := frameCsr rd 8, tvec := frameCsr rd 9
    tcause := frameCsr rd 10, tepc := frameCsr rd 11, tmask := BitVec.ofNat 1024 (rd 0x300 128) &&& allLanes l
    acc0 := accOfFrame rd (bitAt h 241) 0x84000 0xC4000
    acc1 := accOfFrame rd (bitAt h 242) 0xA4000 0xC8000
    matq := if bitAt h 243 then [capturedOfFrame rd] else []
    prods := [], badWords := t.badWords.filter fun b => t.lostAt [b.1] (b.2 / 32), wait := waitOfCode (bitsAt h 224 4), arr := bitAt h 231
    prow := if bitAt h 240 then some (bitsAt h 232 8) else none
    fseq := BitVec.ofNat 32 (h >>> 352), nsave := BitVec.ofNat 32 (h >>> 320), cause := BitVec.ofNat 4 (h >>> 220) }

end Sys2Proof.Machine
end

