-- ==== Sys2Proof/Machine/MatCore.lean ====
section
/-! DEFINITION. The arithmetic of the matrix array as functions of plain data: fragments (07 R205, R206), slicing and
passes (08 R239, R240), recombination (08 R242 to R245), the cell window (08 R246, R247), the bound (08 R248, R249)
and the drain's rounding (07 R216, R217). -/

namespace Sys2Proof.Machine

/-! ### Formats and fragments -/

/-- Tag of A's elements by FMT (07 Table 7.2). -/
def fmtTagA (fmt : Nat) : Nat := [2, 1, 3, 11, 11, 5, 6, 5, 6, 7, 8, 9, 5, 6, 3, 0].getD fmt 0

/-- Tag of B's elements by FMT. -/
def fmtTagB (fmt : Nat) : Nat := [2, 1, 3, 11, 11, 5, 6, 6, 5, 7, 8, 9, 11, 11, 11, 0].getD fmt 0

/-- FMT 4 to 11 carry E8M0 scales for both operands. -/
def fmtMx (fmt : Nat) : Bool := decide (4 ≤ fmt) && decide (fmt ≤ 11)

/-- FMT 12 to 14 carry BF16 group scales for B. -/
def fmtWeights (fmt : Nat) : Bool := decide (12 ≤ fmt) && decide (fmt ≤ 14)

/-- Formats whose operands are both sliced. -/
def fmtSliced (fmt : Nat) : Bool := decide (fmt ≤ 2)

/-- Storage width of an element by its tag (07 R205). -/
def tagWidth (tag : Nat) : Nat := [32, 32, 64, 16, 16, 8, 8, 8, 8, 4, 8, 8, 16, 32, 64, 32].getD tag 32

/-- Registers of a fragment: c = max(1, 128 w / L), rounded up where L does not divide it, as the map of 07 R205 needs. -/
def fragRegs (w lanes : Nat) : Nat :=
  if w = 64 then 2 * ((4096 + lanes - 1) / lanes) else max 1 ((128 * w + lanes - 1) / lanes)

/-- Bits of element `e` of a fragment (07 R205); `rd r l` is lane `l` of its register `r`. -/
def fragElem (rd : Nat → Nat → Word32) (w lanes e : Nat) : Nat :=
  if w = 64 then
    (rd (2 * (e / lanes)) (e % lanes)).toNat + 2 ^ 32 * (rd (2 * (e / lanes) + 1) (e % lanes)).toNat
  else
    let ρ := 32 / w
    bitsAt (rd (e / (ρ * lanes)) ((e % (ρ * lanes)) / ρ)).toNat ((e % ρ) * w) w

/-- First lane of the 32-element block that element `e` belongs to, in a one-register fragment (07 R206). -/
def blockLane (w e : Nat) : Nat := (e / 32) * 32 * w / 32

/-- A captured word of operand A or B. -/
def MatOp.word (m : MatOp) (b : Bool) (r l : Nat) : Word32 :=
  fget 0 m.captured (((if b then 512 else 0) + r) * 1024 + l)

/-- Tag of an operand. -/
def MatOp.tag (m : MatOp) (b : Bool) : Nat := if b then fmtTagB m.fmt.toNat else fmtTagA m.fmt.toNat

/-- Bits of element `e` of an operand. -/
def MatOp.elem (m : MatOp) (b : Bool) (e : Nat) : Nat := fragElem (m.word b) (tagWidth (m.tag b)) m.lanes e

/-- The scale register's lane for the block of element `e`. -/
def MatOp.scaleWord (m : MatOp) (b : Bool) (e : Nat) : Nat :=
  let w := tagWidth (m.tag b)
  (m.word b (fragRegs w m.lanes) (blockLane w e)).toNat

/-- The E8M0 code of the block of element `e` (07 R206, 02 R52). -/
def MatOp.mxCode (m : MatOp) (b : Bool) (e : Nat) : Nat := bitsAt (m.scaleWord b e) (8 * m.sb.toNat) 8

/-- The BF16 scale of the block of B's element `e` (07 R206). -/
def MatOp.groupScale (m : MatOp) (e : Nat) : FV :=
  fmtBF16.unpack (bitsAt (m.scaleWord true e) (16 * (m.sb.toNat % 2)) 16)

/-- The format of a floating-point tag. -/
def tagFmt (tag : Nat) : Fmt :=
  match tag with
  | 1 => fmtF32
  | 2 => fmtF64
  | 3 => fmtBF16
  | 4 => fmtF16
  | 5 => fmtE4M3
  | 6 => fmtE5M2
  | 7 => fmtE2M3
  | 8 => fmtE3M2
  | _ => fmtE2M1

/-- A signed byte. -/
def sbyte (x : Nat) : Int := if x < 128 then x else (x : Int) - 256

/-- The value of an element: MXINT8 has weight 2^-6 (02 R48, 08 R246). -/
def MatOp.value (m : MatOp) (b : Bool) (e : Nat) : FV :=
  let x := m.elem b e
  if m.tag b = 11 then
    let q := sbyte x
    .fin (decide (q < 0)) q.natAbs (if m.fmt = 4 then -6 else 0)
  else (tagFmt (m.tag b)).unpack x

/-- Does the element have no place in the integer window (07 R209)? -/
def MatOp.special (m : MatOp) (b : Bool) (e : Nat) : Bool :=
  (match m.value b e with
   | .fin _ _ _ => false
   | _ => true) ||
  (fmtMx m.fmt.toNat && m.mxCode b e == 255) ||
  (b && fmtWeights m.fmt.toNat && (match m.groupScale e with
    | .fin _ _ _ => false
    | _ => true))

/-! ### Slicing (08 R239) -/

/-- A row of A or column of B as slices: E (none when every element is zero), the slices in order, the lost flag and
smax. -/
structure Sliced where
  e : Option Int
  slices : List (List Int)
  lost : Bool
  smax : Nat

/-- floor(m x 2^k) and whether it is inexact. -/
def floorShift (m : Nat) (k : Int) : Nat × Bool :=
  if 0 ≤ k then (m * 2 ^ k.toNat, false) else (m / 2 ^ (-k).toNat, m % 2 ^ (-k).toNat != 0)

/-- `slice` of 08 R239; elements with no place in the window count as zero here (07 R209 sets OV for them). -/
def slice (xs : List FV) (S : Nat) : Sliced :=
  let mags := xs.map fun x => match x with
    | .fin n m e => (n, m, e)
    | _ => (false, 0, 0)
  let es := (mags.filter fun x => x.2.1 != 0).map fun x => floorLog2 x.2.1 x.2.2
  match es with
  | [] => ⟨none, List.replicate S (List.replicate xs.length 0), false, 0⟩
  | e0 :: rest =>
    let E := rest.foldl max e0
    let ts := mags.map fun x =>
      let (t, inexact) := floorShift x.2.1 (x.2.2 + (7 * S : Int) - 1 - E)
      (x.1, t, inexact)
    let sl := (List.range S).map fun s => ts.map fun x => sgn x.1 (bitsAt x.2.1 (7 * (S - 1 - s)) 7)
    let smax := (List.range S).foldl (fun a s => if (sl.getD s []).any (· != 0) then s + 1 else a) 0
    ⟨some E, sl, ts.any (·.2.2), smax⟩

/-- The dot product of two integer lists. -/
def idot (a b : List Int) : Int := (List.zipWith (· * ·) a b).foldl (· + ·) 0

/-- What one element (i, j) receives from a chunk: its partials with weights in order, its head, the bound terms as
exponents, and whether an operand sets OV. -/
structure Contrib where
  parts : List (Int × Int)
  head : Option Int
  terms : List Int
  ov : Bool

/-- d_S of 08 R248. -/
def dS (S : Nat) : Int := [0, 0, 8, 9, 10, 10, 11, 11, 11, 11].getD S 11

/-- Formats 0 to 2 (08 R240, R242, R243, R248). -/
def contribSliced (S : Nat) (tri : Bool) (a b : Sliced) (ov : Bool) : Contrib :=
  match a.e, b.e with
  | some E, some F =>
    let pairs := (List.range S).flatMap fun s =>
      ((List.range S).filter fun r => !tri || decide (s + r + 2 ≤ S + 1)).map fun r => (s, r)
    { parts := pairs.map fun (s, r) =>
        (idot (a.slices.getD s []) (b.slices.getD r []), E + F + 2 - 7 * ((s : Int) + r + 2))
      head := some (E + F + 8)
      terms := (if a.lost || b.lost then [E + F - 7 * (S : Int) + 9] else []) ++
        (if tri && decide (S + 2 ≤ a.smax + b.smax) then [E + F - 7 * (S : Int) + dS S] else [])
      ov := ov }
  | _, _ => { parts := [], head := none, terms := [], ov := ov }

/-- m_b and g_b of a BF16 scale (08 R242); none for an infinity or NaN. -/
def scaleParts (x : FV) : Option (Int × Int) :=
  match x with
  | .fin n m e => some (sgn n m, e + 7)
  | _ => none

/-- Format 14 (08 R242, R243, R248): A sliced against two weight blocks with their scales. -/
def contribBf16w (S : Nat) (a : Sliced) (q : List Int) (sc : List FV) (ov : Bool) : Contrib :=
  match a.e with
  | none => { parts := [], head := none, terms := [], ov := ov }
  | some E =>
    let blocks := (List.range 2).filterMap fun b =>
      (scaleParts (sc.getD b (.nan false))).map fun mg => (b, (q.drop (32 * b)).take 32, mg)
    let gmax := match blocks with
      | [] => none
      | x :: r => some (r.foldl (fun (g : Int) (y : Nat × List Int × Int × Int) => max g y.2.2.2) x.2.2.2)
    { parts := (List.range S).flatMap fun s => blocks.map fun (b, qs, mg) =>
        (idot (((a.slices.getD s []).drop (32 * b)).take 32) qs * mg.1, E + 1 - 7 * ((s : Int) + 1) + mg.2 - 7)
      head := gmax.map fun g => E + g + 11
      terms := if a.lost
        then (blocks.filter fun x => x.2.1.any (· != 0) && x.2.2.1 != 0).map fun x => E + x.2.2.2 - 7 * (S : Int) + 11
        else []
      ov := ov }

/-- An unsliced element as q and e (08 R246). -/
def cellParts (x : FV) : Int × Int :=
  match x with
  | .fin n m e => (sgn n m, e)
  | _ => (0, 0)

/-- floor(v x 2^k) for an integer v. -/
def ifloorShift (v : Int) (k : Int) : Int × Bool :=
  if 0 ≤ k then (v * 2 ^ k.toNat, false) else (v / 2 ^ (-k).toNat, v % 2 ^ (-k).toNat != 0)

/-- One block of the cell window (08 R247): Q, beta, lossy; none with no nonzero product. -/
def cellBlock (d : Int) (a b : List (Int × Int)) : Option (Int × Int × Bool) :=
  let prods := (List.zipWith (fun (x y : Int × Int) => (x.1 * y.1, x.2 + y.2)) a b).filter fun x => x.1 != 0
  match prods with
  | [] => none
  | x :: r =>
    let p := r.foldl (fun (m : Int) (y : Int × Int) => max m y.2) x.2
    let β := p - d
    some (prods.foldl (fun (acc : Int × Int × Bool) y =>
      let (v, l) := ifloorShift y.1 (y.2 - β)
      (acc.1 + v, β, acc.2.2 || l)) (0, β, false))

/-- Formats 3 to 13 (08 R242, R243, R247, R248): two blocks; `off` is the scales' part of the weight and `mul` the
factor of a weight scale, by block. -/
def contribCells (fmt : Nat) (a b : List (Int × Int)) (off : List (Option (Int × Int))) (ov : Bool) : Contrib :=
  let d : Int := if fmt = 3 ∨ fmt = 4 then 27 else 28
  let w := fmtWeights fmt
  let bl := (List.range 2).filterMap fun k =>
    match off.getD k none, cellBlock d ((a.drop (32 * k)).take 32) ((b.drop (32 * k)).take 32) with
    | some (mul, o), some (Q, β, lossy) => if mul = 0 then none else some (Q * mul, β + o, lossy)
    | _, _ => none
  { parts := bl.map fun x => (x.1, x.2.1)
    head := match bl with
      | [] => none
      | x :: r => some (r.foldl (fun (m : Int) (y : Int × Int × Bool) => max m (y.2.1 + (if w then 55 else 47))) (x.2.1 + (if w then 55 else 47)))
    terms := (bl.filter (·.2.2)).map fun x => x.2.1 + (if w then 13 else 5)
    ov := ov }

/-- The 64 element numbers of row i of A or column j of B (07 R205). -/
def lineElems (n : Nat) : List Nat := (List.range 64).map (64 * n + ·)

/-- The contributions of one matrix operation to the 4,096 elements, in element order. -/
def MatOp.contribs (m : MatOp) : List Contrib :=
  let fmt := m.fmt.toNat
  let S := m.slices
  let spec (b : Bool) : List Bool := (List.range 64).map fun n => (lineElems n).any (m.special b)
  let sa := spec false
  let sb := spec true
  let ij := (List.range 64).flatMap fun i => (List.range 64).map fun j => (i, j)
  let ovOf (i j : Nat) : Bool := sa.getD i false || sb.getD j false
  let valsA := (List.range 64).map fun n => (lineElems n).map (m.value false)
  let valsB := (List.range 64).map fun n => (lineElems n).map (m.value true)
  if fmtSliced fmt then
    let A := (valsA.map fun v => slice v S).toArray
    let B := (valsB.map fun v => slice v S).toArray
    ij.map fun (i, j) => contribSliced S m.tri (A.getD i ⟨none, [], false, 0⟩) (B.getD j ⟨none, [], false, 0⟩) (ovOf i j)
  else if fmt = 14 then
    let A := (valsA.map fun v => slice v S).toArray
    let B := (valsB.map fun v => v.map fun x => (cellParts x).1).toArray
    ij.map fun (i, j) => contribBf16w S (A.getD i ⟨none, [], false, 0⟩) (B.getD j [])
      [m.groupScale (64 * j), m.groupScale (64 * j + 32)] (ovOf i j)
  else
    let A := (valsA.map fun v => v.map cellParts).toArray
    let B := (valsB.map fun v => v.map cellParts).toArray
    ij.map fun (i, j) =>
      let off := (List.range 2).map fun k =>
        if fmtMx fmt then
          let ca := m.mxCode false (64 * i + 32 * k)
          let cb := m.mxCode true (64 * j + 32 * k)
          if ca = 255 ∨ cb = 255 then none else some ((1 : Int), (ca : Int) - 127 + ((cb : Int) - 127))
        else if fmtWeights fmt then (scaleParts (m.groupScale (64 * j + 32 * k))).map fun mg => (mg.1, mg.2 - 7)
        else some (1, 0)
      contribCells fmt (A.getD i []) (B.getD j []) off (ovOf i j)

/-! ### Recombination -/

/-- Does the operation contribute (07 R203): a nonzero partial somewhere, or OV somewhere? -/
def contributes (cs : List Contrib) : Bool := cs.any fun c => c.ov || c.parts.any fun p => p.1 != 0

/-- `add` of 08 R244. -/
def accAdd (x : AccElem) (p : Int × Int) : AccElem :=
  let (V, dropped) := ifloorShift p.1 (p.2 - x.anchor.toInt)
  let sum := x.acc.toInt + V
  let lim : Int := 2 ^ 191
  let out (v : Int) : Bool := decide (v < -lim) || decide (lim ≤ v)
  { x with
    acc := BitVec.ofInt 192 sum
    loss := if dropped && x.loss != BitVec.allOnes 16 then x.loss + 1 else x.loss
    ov := x.ov || out sum || out V }

/-- A bound word's value as m x 2^e (08 R245). -/
def boundParts (w : Word32) : Nat × Int := (bitsAt w.toNat 0 16, (w.extractLsb' 16 16).toInt)

/-- `badd` of 08 R245: a bound plus m x 2^e, rounded up to a bound word. -/
def badd (w : Word32) (m : Nat) (e : Int) : Word32 :=
  let (bm, be) := boundParts w
  if bm = 0 ∧ m = 0 then 0 else
  let k := if bm = 0 then e else if m = 0 then be else min be e
  let x := (if bm = 0 then 0 else bm * 2 ^ (be - k).toNat) + (if m = 0 then 0 else m * 2 ^ (e - k).toNat)
  let BE := floorLog2 x k - 15
  let s := BE - k
  let BM := if s ≤ 0 then x * 2 ^ (-s).toNat else (x + 2 ^ s.toNat - 1) / 2 ^ s.toNat
  let (BM, BE) := if BM = 65536 then (32768, BE + 1) else (BM, BE)
  BitVec.ofInt 16 BE ++ BitVec.ofNat 16 BM

/-- ceil(log2) of a nonzero bound (08 R245). -/
def bexp (w : Word32) : Int :=
  let (bm, be) := boundParts w
  if bm = 0x8000 then be + 15 else be + 16

/-- The exact sum of powers of two as m x 2^e. -/
def sumPow (es : List Int) : Nat × Int :=
  match es with
  | [] => (0, 0)
  | e0 :: r =>
    let k := r.foldl min e0
    (es.foldl (fun a e => a + 2 ^ (e - k).toNat) 0, k)

/-- A set after a matrix operation (07 R203, R208, R209, 08 R243 to R248). -/
def accUpdate (a : AccSet) (cs : List Contrib) : AccSet :=
  if !a.active && !contributes cs then a else
  let heads := cs.filterMap (·.head)
  let dflt := match heads with
    | [] => 0
    | h :: r => r.foldl max h
  let go := fun (acc : FMap AccElem × FMap Word32) (ce : Contrib × Nat) =>
    let (c, e) := ce
    let x := fget ⟨0, 0, 0, false⟩ a.elems e
    let x := if a.active then x else { x with anchor := BitVec.ofInt 16 (c.head.getD dflt - 134) }
    let x := c.parts.foldl accAdd x
    let x := if c.ov then { x with ov := true } else x
    let (m, k) := sumPow c.terms
    let b := if m = 0 then fget 0 a.bounds e else badd (fget 0 a.bounds e) m k
    ((e, x) :: acc.1, (e, b) :: acc.2)
  let r := cs.zipIdx.foldl go ([], [])
  { active := true, elems := r.1.reverse, bounds := r.2.reverse }

/-- A matrix operation's passes finish into its set (08 R241). -/
def Team.finishOp (t : Team) (m : MatOp) : Team := t.setAcc m.set (accUpdate (t.acc m.set) m.contribs)

/-- Every matrix operation in flight finishes, in order (07 R204, R210). -/
def Team.finishMatrix (t : Team) : Team :=
  { t.matq.foldl (fun t m => t.finishOp m) t with matq := [] }

/-! ### Drain -/

/-- An element of a set. -/
def AccSet.elem (a : AccSet) (e : Nat) : AccElem := if a.active then fget ⟨0, 0, 0, false⟩ a.elems e else ⟨0, 0, 0, false⟩

/-- ACC x 2^alpha (02 R61). -/
def AccElem.value (x : AccElem) : FV :=
  let v := x.acc.toInt
  .fin (decide (v < 0)) v.natAbs x.anchor.toInt

/-- Output width and tag of OFMT (07 R215, R216). -/
def ofmtWidth (o : Nat) : Nat := [64, 32, 16, 8, 8, 32].getD o 32
def ofmtTag (o : Nat) : Nat := [2, 1, 3, 5, 6, 13].getD o 0

/-- One drained element: bits and flags (07 Table 7.5); `g` is the output scale code of an FP8 output. -/
def drainElem (o : Nat) (flush : Bool) (rnd : Rnd) (g : Nat) (x : AccElem) : Nat × Fl :=
  let f := tagFmt (ofmtTag o)
  let fp8 := o == 3 || o == 4
  if x.ov then (if o = 5 then 0 else f.qnan, fNV)
  else if fp8 && g == 255 then (f.qnan, fNV)
  else if x.acc = 0 then (0, 0)
  else match x.value with
    | .fin n m e =>
      if o = 5 then
        let (v, fl) := toIntRange rnd (-(2 ^ 31)) (2 ^ 31 - 1) (.fin n m e)
        ((BitVec.ofInt 32 v).toNat, fl)
      else if fp8 then f.round true false rnd n m (e + 127 - (g : Int)) false
      else f.round false (flush && o == 2) rnd n m e false
    | _ => (0, 0)

/-- The largest |x| of a set rounded up to FP32 (07 R217). -/
def AccSet.amax (a : AccSet) : Word32 :=
  let xs := (List.range 4096).map a.elem
  if xs.any (·.ov) then 0x7FC00000 else
  let best := xs.foldl (fun (b : Nat × Int) x =>
    let m := x.acc.toInt.natAbs
    let e := x.anchor.toInt
    if m = 0 then b else if b.1 = 0 then (m, e) else
    let k := min b.2 e
    if b.1 * 2 ^ (b.2 - k).toNat < m * 2 ^ (e - k).toNat then (m, e) else b) (0, 0)
  if best.1 = 0 then 0 else BitVec.ofNat 32 (fmtF32.round false false .rup false best.1 best.2 false).1

/-- `MBOUND` of a set (08 R249). -/
def AccSet.bound (a : AccSet) : Word64 :=
  let bad := (List.range 4096).find? fun e => (a.elem e).ov || (a.elem e).loss == BitVec.allOnes 16
  match bad with
  | some e => BitVec.ofNat 64 (2 * 2 ^ 32 + e * 2 ^ 16)
  | none =>
    let best := (List.range 4096).foldl (fun (b : Option (Int × Nat)) e =>
      let x := a.elem e
      let L := badd (if a.active then fget 0 a.bounds e else 0) x.loss.toNat x.anchor.toInt
      if L = 0 then b else match b with
        | none => some (bexp L, e)
        | some (v, _) => if v < bexp L then some (bexp L, e) else b) none
    match best with
    | none => 0
    | some (v, e) => BitVec.ofNat 64 (2 ^ 32 + e * 2 ^ 16 + (BitVec.ofInt 16 v).toNat)

end Sys2Proof.Machine
end

