-- ==== Sys2Proof/Machine/Ops.lean ====
section
/-! DEFINITION. The shared operations of the machine: ordering, producers, taking a trap and returning from one, saving
a team, ending a launch, page faults, the rings, and the launch record. -/

namespace Sys2Proof.Machine

/-! ### Ordering (04 R102 to R105, 10 R270, Table 10.8) -/

/-- Core number of a team on its die. -/
def Team.coreIdx (t : Team) : Nat := t.cluster * 8 + t.core

/-- An acquire of team `k` at a scope (0 team, 1 cluster, 2 die, 3 device, 4 system; 03 R79): at cluster scope or wider
the core drops its si copies. -/
def State.acquire (s : State) (k sc : Nat) : State :=
  if sc = 0 then s else s.acquireCore (s.teamAt k).die (s.teamAt k).coreIdx

/-- A release of team `k` at a scope: at cluster scope or wider the stack cache and the core's si dirty bytes are
written back (01 R37, 10 Table 10.8). -/
def State.release (s : State) (k sc : Nat) : State :=
  if sc = 0 then s else (s.flushStack k).releaseCore (s.teamAt k).die (s.teamAt k).coreIdx

/-! ### Long-latency producers (01 R22) -/

/-- A producer's row lands: the lanes it writes, and the row is full. -/
def Team.landRow (t : Team) (p : ProdRow) : Team :=
  (p.vals.foldl (fun t x => t.setV p.reg x.1 x.2) t).setRow p.reg p.row false

/-- The rows that may land next: of a producer that lands its rows in ascending order only its first (06 R196, 07 R216). -/
def Team.landable (t : Team) : List ProdRow :=
  t.prods.filter fun p => p.group.isNone || (t.prods.find? fun q => q.group == p.group) == some p

/-- One of the pending rows lands. -/
def Team.landOne (t : Team) (p : ProdRow) : Team := ({ t with prods := t.prods.erase p } : Team).landRow p

/-- Every producer of a team lands its rows. -/
def Team.landAllRows (t : Team) : Team :=
  { t.prods.foldl (fun t p => t.landRow p) t with prods := [] }

/-! ### Rings (16 R384) -/

/-- A word of ring descriptor `i`. -/
def State.ringWord (s : State) (i w : Nat) : Word64 := s.creg (0x100 + 32 * i + 8 * w)

/-- A word of ring descriptor `i` written. -/
def State.setRingWord (s : State) (i w : Nat) (v : Word64) : State := s.setCreg (0x100 + 32 * i + 8 * w) v

def State.ringHead (s : State) (i : Nat) : Nat := field (s.ringWord i 3) 0 32
def State.ringTail (s : State) (i : Nat) : Nat := field (s.ringWord i 3) 32 32
def State.ringLog (s : State) (i : Nat) : Nat := field (s.ringWord i 1) 0 5
def State.setRingHead (s : State) (i v : Nat) : State := s.setRingWord i 3 (setField (s.ringWord i 3) 0 32 v)
def State.setRingTail (s : State) (i v : Nat) : State := s.setRingWord i 3 (setField (s.ringWord i 3) 32 32 v)

/-- Is the ring set up: LOGN 4 to 20? -/
def State.ringUp (s : State) (i : Nat) : Bool := decide (4 ≤ s.ringLog i) && decide (s.ringLog i ≤ 20)

/-- Records in a ring. -/
def State.ringCount (s : State) (i : Nat) : Nat := (s.ringTail i + 2 ^ 32 - s.ringHead i) % 2 ^ 32

/-- Record sizes by ring (16 Table 16.4). -/
def ringSize (i : Nat) : Nat := [8, 8, 16, 32, 16, 64, 32].getD i 8

/-- Address of slot `j` of a ring. -/
def State.ringSlot (s : State) (i j : Nat) : Nat :=
  field (s.ringWord i 0) 6 46 * 64 + ringSize i * (j % 2 ^ s.ringLog i)

/-- What a device-produced ring that is set up must wait for before its next record can be written at its home. -/
def State.ringWait (s : State) (i : Nat) : Option Reach :=
  if s.ringUp i then s.unitWait ioDie (s.ringSlot i (s.ringTail i)) (ringSize i) true else none

/-- Can a device-produced ring take no record now: full, its slot's home not free, or not set up, which counts as full? -/
def State.ringFull (s : State) (i : Nat) : Bool :=
  !s.ringUp i || decide (2 ^ s.ringLog i ≤ s.ringCount i) || (s.ringWait i).isSome

/-- The host or the holder asked for what a ring's next record waits for. -/
def State.askRing (s : State) (i : Nat) : State :=
  match s.ringWait i with
  | some r => s.unitAsk r
  | none => s

/-- The next record of a driver-produced ring: what it must wait for, or its bytes after an acquire of them at system scope; an
empty ring, or one not set up, gives none. -/
def State.ringNext (s : State) (i : Nat) : Option (Except Reach (State × Nat)) :=
  if !s.ringUp i || s.ringCount i == 0 then none else
  let a := s.ringSlot i (s.ringHead i)
  match s.unitWait ioDie a (ringSize i) false with
  | some r => some (.error r)
  | none =>
    let s := s.unitTouch ioDie a (ringSize i)
    some (.ok (s, s.readPhysLe a (ringSize i)))

/-- A record of a driver-produced ring taken: HEAD advances, and the row of the ring is due again while records are left. -/
def State.ringPop (s : State) (i : Nat) (row : Instr) : State :=
  let s := s.setRingHead i ((s.ringHead i + 1) % 2 ^ 32)
  if s.ringCount i = 0 then s else s.postOnce row {}

/-- An MSI-X vector raised; a pending message absorbs it (16 R385). -/
def State.msi (s : State) (v : Nat) : State := { s with msix := s.msix ||| BitVec.ofNat 8 (2 ^ v) }

/-- The vector of a device-produced ring. -/
def ringVector (i : Nat) : Nat := if i = 1 then 2 else if i = 3 then 1 else 0

/-- A record written to a device-produced ring with room: the record, then TAIL, then the vector. -/
def State.ringPush (s : State) (i rec : Nat) : State :=
  let s := s.unitPutLe ioDie (s.ringSlot i (s.ringTail i)) (ringSize i) rec
  (s.setRingTail i ((s.ringTail i + 1) % 2 ^ 32)).msi (ringVector i)

/-! ### Gangs (07 R212, 15 R374) -/

def Team.gangN (t : Team) : Nat := field t.gang 32 4
def Team.gangIdx (t : Team) (p : Nat) : Nat := field t.gang (3 * p) 3

/-- Positions at which `GANG` lists a team index. -/
def Team.gangPositions (t : Team) (ix : Nat) : List Nat := (List.range t.gangN).filter fun p => t.gangIdx p == ix

/-- The team of the group of team `k` whose index is `ix`. -/
def State.teamOfIdx (s : State) (k ix : Nat) : Option Nat :=
  (s.teamsWith fun u => u.group == (s.teamAt k).group && u.tix == ix).head?

/-- The members of team `k`'s gang in position order. -/
def State.gangMembers (s : State) (k : Nat) : List (Option Nat) :=
  (List.range (s.teamAt k).gangN).map fun p => s.teamOfIdx k ((s.teamAt k).gangIdx p)

/-- Does a team hold a ganged operation of which a member was evacuated while the passes ran, its operands in its frame (15
R374)? -/
def State.gangBroken (s : State) (k : Nat) : Bool :=
  (s.teamAt k).matq.any (fun m => m.gang) && (s.gangMembers k).any fun m => match m with
    | none => false
    | some j => (s.teamAt j).status != .resident && (s.teamAt j).matq.any fun m => m.gang

/-! ### Saving a team (15 R366) -/

/-- What is in flight for a team completes: producers land, matrix passes finish (15 R366 step 2). -/
def Team.settle (t : Team) : Team := t.landAllRows.finishMatrix

/-- What is in flight on a failed core: producers land, and the last matrix operation is cut off, to run again from its
captured operands (15 R373, R374). -/
def Team.settleCut (t : Team) : Team :=
  let t := t.landAllRows
  match t.matq.reverse with
  | [] => t
  | m :: r => { r.reverse.foldl (fun (t : Team) m => t.finishOp m) { t with matq := [] } with matq := [m] }

/-- A resident team saved: in-flight work completes, but for an operation cut off on a failed core and one of a gang that such a
core has broken; the stack cache and si dirty bytes are written back, the frame is written, slot, register blocks and array are
given up; `st` is where it goes. -/
def State.saveTeam (s : State) (k : Nat) (cause : BitVec 4) (st : TStatus) : State :=
  let s := s.setTeam k (if cause = 4 || s.gangBroken k then (s.teamAt k).settleCut else (s.teamAt k).settle)
  let s := (s.flushStack k).releaseCore (s.teamAt k).die (s.teamAt k).coreIdx
  let s := s.setTeam k { s.teamAt k with cause := cause, nsave := (s.teamAt k).nsave + 1, holder := false }
  let s := s.writeFrame k
  let s := s.setTeam k { s.teamAt k with status := st }
  let s : State := { s with savedOrder := s.savedOrder.filter (· != k) ++ [k] }
  s.post .dispatchDecision { a := (s.teamAt k).die }

/-! ### Ending a launch (04 R128, 07 R231, 15 R377) -/

/-- A device error record without its list (15 R377). -/
def errRecord (va pc rec queue asid code sock ekind : Nat) : Nat :=
  va % 2 ^ 64 * 2 ^ 384 + pc % 2 ^ 64 * 2 ^ 320 + rec % 2 ^ 64 * 2 ^ 256 + queue % 2 ^ 16 * 2 ^ 208 +
  asid % 2 ^ 14 * 2 ^ 194 + code % 256 * 2 ^ 184 + sock % 16 * 2 ^ 180 + ekind % 256 * 2 ^ 168

/-- A record queued for the error ring; DEVICE_ERROR_RECORD writes it. -/
def State.queueError (s : State) (rec : Nat) (teams : List Nat) (lines : List (BitVec 192)) : State :=
  let s : State := { s with errors := s.errors ++ [⟨BitVec.ofNat 512 rec, teams, lines⟩] }
  s.post .deviceErrorRecord

/-- A team of a launch that has ended: saved with CAUSE 6 where it was resident and its die survives (15 R376), and never run
again. -/
def State.stopTeam (s : State) (k : Nat) : State :=
  let s := if (s.teamAt k).status = .resident ∧ !s.lostDies.contains (s.teamAt k).die then s.saveTeam k 6 .dead else s
  s.setTeam k { s.teamAt k with status := .dead }

/-- A child of team `k` is done: it retires when it was the last (07 R231). -/
def State.childDone (s : State) (k : Nat) : State :=
  let t := s.teamAt k
  let s := s.setTeam k { t with children := t.children - 1 }
  if t.status = .ended then s.post .teamRetire { a := k } else s

/-- The teams of a launch that have not retired. -/
def State.liveTeams (s : State) (l : Nat) : List Nat :=
  s.teamsWith fun t => t.launch == l && t.status != .retired && t.status != .dead

/-- A launch ended by an error: its teams stop, its groups free their cluster memory, its copy commands stop, it counts
as done for its parent, and its record is queued (07 R231, 15 R376, R377). -/
def State.endLaunchWith (s : State) (l sock ekind code va pc : Nat) (lines : List (BitVec 192)) : State :=
  let L := s.launch l
  if L.ended then s else
  let members := s.liveTeams l
  let s := s.setLaunch l { L with ended := true }
  let s := members.foldl (fun s k => s.stopTeam k) s
  let s : State := { s with
    groups := s.groups.map fun g => if g.launch = l then { g with live := false } else g
    copies := s.copies.filter fun c => c.launch != l
    resq := s.resq.filter fun e => (s.teamAt e.2).launch != l
    reserved := s.reserved.filter fun r => (s.teamAt r.2.2.2).launch != l }
  let s := (members.flatMap fun k => (s.teamAt k).emitters).foldl (fun s p => s.childDone p) s
  let s := members.foldl (fun (s : State) k => s.post .dispatchDecision { a := (s.teamAt k).die }) s
  let s := match L.parent with
    | some p => if L.top then s.childDone p else s
    | none => s
  s.queueError (errRecord va pc L.recAddr.toNat L.queue L.asid code sock ekind) members lines

/-- A launch ended with a record of no lines. -/
def State.endLaunch (s : State) (l sock ekind code va pc : Nat) : State := s.endLaunchWith l sock ekind code va pc []

/-- The executing team's launch ends: the report names the socket of the team and the PC of the instruction
(15 R377). -/
def State.endMine (s : State) (ekind code va : Nat) : State :=
  s.endLaunch s.team.launch s.team.die ekind code va s.team.pc.toNat

/-- The executing team's launch ends at lost data: the report names the lost die, else the team's socket (15 R377). -/
def State.endLost (s : State) (e : Loss) (va : Nat) : State :=
  s.endLaunch s.team.launch (e.die.getD s.team.die) e.ekind 0 va s.team.pc.toNat

/-! ### Traps (04 R124 to R132) -/

/-- The causes of 04 Table 4.6. -/
inductive Cause where
  | illegal | operand | fullEmpty | align | stackLimit | nesting | float | trapInstr
  deriving DecidableEq, Repr

/-- CODE of a cause. -/
def Cause.code (c : Cause) : Nat :=
  match c with
  | .illegal => 1
  | .operand => 2
  | .fullEmpty => 3
  | .align => 4
  | .stackLimit => 6
  | .nesting => 7
  | .float => 8
  | .trapInstr => 9

/-- `TCAUSE` at delivery (04 R125, R129). -/
def tcauseWord (c : Cause) (arg : Nat) (exc : Fl) (next : Bool) : Word64 :=
  BitVec.ofNat 64 (c.code + 256 + (if next then 512 else 0) + exc.toNat * 2 ^ 27 + arg % 65536 * 2 ^ 32)

/-- The bits a `TVEC` or `TEPC` holds (04 R124). -/
def vecBits (x : Word64) : Word64 := x &&& 0x1FFFFFFFFFFFFFC

/-- Taking a trap (04 R129): TEPC names the instruction (its prefix), or with `next` the one after its `len` bytes;
TCAUSE, TMASK; the top entry's PC becomes TVEC. Everything else keeps its value. -/
def Team.deliver (t : Team) (c : Cause) (lanes : Mask) (arg : Nat) (exc : Fl) (next : Bool) (len : Nat) : Team :=
  let pc := if next then t.pc + BitVec.ofNat 64 len else t.pc
  { t.setPc t.tvec with
    tepc := vecBits pc, tcause := tcauseWord c arg exc next, tmask := lanes,
    wait := .none, arr := false, prow := none, exc := 0, excFlags := 0 }

/-- A trap of the executing team: delivered, or, without a handler or inside one, the end of its launch with EKIND 6
(04 R128). -/
def State.trapWith (s : State) (c : Cause) (lanes : Mask) (arg : Nat) (exc : Fl) (next : Bool) (len : Nat) : State :=
  let t := s.team
  if t.tvec = 0 ∨ t.handler then
    s.endLaunch t.launch t.die 6 c.code 0 (vecBits (if next then t.pc + BitVec.ofNat 64 len else t.pc)).toNat
  else s.withTeam (t.deliver c lanes arg exc next len)

/-- A trap with effect "none" (04 R126). -/
def State.trap (s : State) (c : Cause) (lanes : Mask) : State := s.trapWith c lanes 0 0 false 0

/-- The full/empty trap: ARG names the first empty source register (04 R125). -/
def State.trapEmpty (s : State) (lanes : Mask) (reg : Nat) : State := s.trapWith .fullEmpty lanes reg 0 false 0

/-- Return from a trap (04 R131): the PC becomes TEPC, H is cleared, nothing else changes. -/
def Team.rft (t : Team) : Team :=
  { t.setPc t.tepc with tcause := t.tcause &&& ~~~(256 : Word64) }

/-! ### Waiting -/

/-- The instruction at the PC waits: it issues again at the team's next turn. -/
def State.waitFor (s : State) (w : Wait) : State := s.withTeam { s.team with wait := w }

/-! ### Page faults (12 R327, 15 R370) -/

/-- The fault record (12 R327). -/
def faultRecord (entry va fseq level asid : Nat) (wr ex eng : Bool) : Nat :=
  entry % 2 ^ 64 * 2 ^ 128 + va % 2 ^ 57 * 2 ^ 64 + fseq % 2 ^ 32 * 2 ^ 32 + level % 8 * 2 ^ 21 +
  (if wr then 2 ^ 20 else 0) + (if ex then 2 ^ 19 else 0) + (if eng then 2 ^ 18 else 0) + asid % 2 ^ 14

/-- Records of pending faults written to ring 3 while it has room, in order (16 R384); while the home of its next slot is not
free the rings' unit polls under DEVICE_ERROR_RECORD. -/
def State.postFaults (s : State) : State :=
  let s := (List.range s.faults.length).foldl (fun s i =>
    match s.faults[i]? with
    | none => s
    | some f =>
      if f.posted || s.ringFull 3 || (s.faults.take i).any (!·.posted) then s
      else { s.ringPush 3 f.record.toNat with faults := s.faults.set i { f with posted := true } }) s
  if s.faults.all (·.posted) || (s.ringWait 3).isNone then s else (s.askRing 3).postOnce .deviceErrorRecord {}

/-- A page fault registered: an agent joins the record pending for its 64 KiB page, or a new record is made
(12 R327). The waiters are teams, copy commands, teams that retire, bins that flush. The sequence number is answered. -/
def State.addFault (s : State) (asid va entry level : Nat) (wr ex eng : Bool) (teams copies : List Nat)
    (retires : List Nat := []) (flushes : List Bin := []) : State × BitVec 32 :=
  let page := va / 65536
  match s.faults.find? fun f => f.asid == asid && f.page == page with
  | some f =>
    ({ s with faults := s.faults.map fun g =>
        if g.fseq = f.fseq ∧ g.asid = asid ∧ g.page = page
        then { g with teams := g.teams ++ teams, copies := g.copies ++ copies
                      retires := g.retires ++ retires, flushes := g.flushes ++ flushes
                      record := if eng && !g.posted then g.record ||| BitVec.ofNat 256 (2 ^ 18) else g.record } else g },
     f.fseq)
  | none =>
    let q := s.nextFseq
    let s : State := { s with
      nextFseq := q + 1
      faults := s.faults ++ [⟨q, asid, page, false, teams, copies, retires, flushes,
        BitVec.ofNat 256 (faultRecord entry va q.toNat level asid wr ex eng)⟩] }
    (s.postFaults, q)

/-- The executing team page-faults: it is saved with CAUSE 1, WAIT 7 and FSEQ, and its fault is posted (15 R370). -/
def State.pageFault (s : State) (va entry level : Nat) (wr ex : Bool) : State :=
  let (s, q) := s.addFault s.asid va entry level wr ex false [s.cur] []
  let s := s.withTeam { s.team with wait := .pageFault, fseq := q }
  s.saveTeam s.cur 1 .faulted

/-! ### Queue table and launch records (14 R346, 07 R227, R228) -/

/-- Address of a queue-table entry. -/
def State.qAddr (s : State) (q : Nat) : Nat := field (s.creg 0x40) 16 36 * 65536 + 64 * q

/-- Bits of a queue-table entry. -/
def State.qField (s : State) (q lo n : Nat) : Nat :=
  bitsAt (s.readPhysLe (s.qAddr q + lo / 8) ((lo % 8 + n + 7) / 8)) (lo % 8) n

/-- Bits of a queue-table entry written. -/
def State.setQField (s : State) (q lo n v : Nat) : State :=
  let a := s.qAddr q + lo / 8
  let m := (lo % 8 + n + 7) / 8
  s.unitPutLe ioDie a m (putBits (s.readPhysLe a m) (lo % 8) n v)

def State.qTail (s : State) (q : Nat) : Nat := s.qField q 480 32
def State.qHead (s : State) (q : Nat) : Nat := s.qField q 448 32
def State.qLog (s : State) (q : Nat) : Nat := s.qField q 173 5
def State.qAsid (s : State) (q : Nat) : Nat := s.qField q 178 14
def State.qProd (s : State) (q : Nat) : Bool := s.qField q 172 1 == 1
def State.qEn (s : State) (q : Nat) : Bool := s.qField q 171 1 == 1
def State.qCount (s : State) (q : Nat) : Nat := (s.qTail q + 2 ^ 32 - s.qHead q) % 2 ^ 32

/-- A queue's scheduling counts; a queue with none has all of them 0. -/
def State.queueSt (s : State) (q : Nat) : QueueSt := fget ⟨0, 0, 0, false⟩ s.queues q

/-- A queue's scheduling counts written. -/
def State.setQueueSt (s : State) (q : Nat) (x : QueueSt) : State := { s with queues := fput s.queues q x }

/-- The charge of the clocks of one step (14 R349): L lane-clocks each for every team with a core slot, to its queue while
that holds a record. -/
def State.charge (s : State) : State :=
  (s.teams.filter fun t => t.status == .resident && fhas s.queues (s.launch t.launch).queue).foldl (fun (s : State) t =>
    let q := (s.launch t.launch).queue
    if s.qCount q = 0 then s else
    s.setQueueSt q { s.queueSt q with deficit := (s.queueSt q).deficit - (t.lanes * Config.clocks s.tick : Nat) }) s

/-- Address of record `i` of a queue's ring (14 R347). -/
def State.qSlot (s : State) (q i : Nat) : Nat := s.qField q 262 58 * 64 + 64 * (i % 2 ^ s.qLog q)

/-- The fields of a continuation record (07 R227, R228). -/
structure Shape where
  entry : Nat
  prio : Nat
  frame : Nat
  join : Nat
  stk : Nat
  dmask : Nat
  cmem : Nat
  nteam : Nat
  ngrp : Nat
  ndie : Nat
  kind : Nat
  vregs : Nat
  lanes : Nat
  deriving DecidableEq, Repr

/-- A record's fields; the counts are the numbers themselves, not minus 1. -/
def shapeOf (r : Nat) : Shape :=
  { entry := bitsAt r 0 57, prio := bitsAt r 61 3, frame := bitsAt r 64 64, join := bitsAt r 128 64,
    stk := bitsAt r 248 8, dmask := bitsAt r 240 8, cmem := bitsAt r 230 10, nteam := bitsAt r 224 3 + 1,
    ngrp := bitsAt r 219 5 + 1, ndie := bitsAt r 216 3 + 1, kind := bitsAt r 208 3, vregs := 8 * (bitsAt r 204 4 + 1),
    lanes := bitsAt r 192 11 }

/-- Is a record valid as one of KIND `kind` (07 R228)? -/
def Shape.ok (x : Shape) (kind : Nat) : Bool :=
  x.stk != 0 && x.lanes != 0 && x.lanes % 32 == 0 && decide (x.lanes ≤ 1024) && decide (x.cmem ≤ 512) &&
  decide (x.lanes * x.vregs * 4 ≤ 524288) && x.kind == kind && x.join % 8 == 0 && x.entry % 4 == 0 &&
  (kind == 1 || x.frame % 16 == 0)

/-- Teams of a launch. -/
def Shape.teams (x : Shape) : Nat := x.ndie * x.ngrp * x.nteam

/-- Register blocks a team takes of a core's 512 (01 R39). -/
def Team.blocks (t : Team) : Nat := (t.lanes / 32) * (t.vregs / 8)

/-! ### Clock and events -/

/-- Microseconds in nanoseconds. -/
def usNs (us : Nat) : Nat := us * 1000

end Sys2Proof.Machine
end

