-- ==== Sys2Proof/Machine/Operands.lean ====
section
/-! DEFINITION. Operand forms: which registers an instruction reads and writes, the checks of 03 Table 3.14 on them, and
the sweep of a lane instruction over its rows (01 R13 to R16, R22 to R25), once for every lane instruction. -/

namespace Sys2Proof.Machine

/-- Next state of a meaning. -/
abbrev Out := Host.Outcome State Fault Refusal

/-- A source operand: a run of `n` registers from `reg`; what an empty row does (0 always waits, 1 governed by WA, 2 by
WB); the tags it accepts, none meaning every tag (01 R23, 02 R66). -/
structure Src where
  reg : Nat
  n : Nat
  gate : Nat
  tags : List Nat
  deriving DecidableEq, Repr

/-- The registers of a run. -/
def run (reg n : Nat) : List Nat := (List.range n).map (reg + ·)

/-- What one lane's computation gives: register values, the exceptions that arose, and the generator if it stepped. -/
structure LaneOut where
  regs : List (Nat × Word32)
  fl : Fl := 0
  g : Option Word32 := none
  deriving DecidableEq, Repr

/-- What a row gives: lane values by register x 1024 + lane, exceptions by lane, generators by lane. -/
structure RowOut where
  writes : List (Nat × Word32)
  fl : List (Nat × Fl)
  gens : List (Nat × Word32)
  deriving DecidableEq, Repr

/-- What the end of a lane instruction does beyond its rows: the team after it, exceptions by lane, and whether it would
write s63 below the spill pointer (01 R36). -/
structure FinOut where
  team : Team
  fl : List (Nat × Fl) := []
  stack : Bool := false

/-- A lane instruction: prefix, sources, destination runs, the alignment check of 03 check 7, the tags it sets
(`more`: of a destination that is read as an operand, so that no merge check applies, 02 R66), its fallbacks, whether it is a long-latency producer (01 R22), one that lands its
rows in ascending order (06 R196), a floating-point one (04 R127), what each row gives, what its end does. -/
structure LaneOp where
  p : Option Pfx
  srcs : List Src
  dsts : List (Nat × Nat)
  aligned : Bool := true
  tags : List (Nat × Nat)
  more : List (Nat × Nat) := []
  warn : Nat
  long : Bool := false
  inOrder : Bool := false
  fp : Bool := false
  row : Team → Nat → RowOut
  fin : Team → FinOut := fun t => ⟨t, [], false⟩

/-! ### The prefix (03 R71, R73, R74) -/

/-- The prefix's mask register. -/
def pk (p : Option Pfx) : Nat := match p with
  | none => 0
  | some x => x.k.toNat

/-- Z. -/
def pz (p : Option Pfx) : Bool := match p with
  | none => false
  | some x => x.z == 1

def pwa (p : Option Pfx) : Bool := match p with
  | none => false
  | some x => x.wa == 1

def pwb (p : Option Pfx) : Bool := match p with
  | none => false
  | some x => x.wb == 1

def pvc (p : Option Pfx) : Nat := match p with
  | none => 0
  | some x => x.vc.toNat

/-- SCOPE; without a prefix, device scope (03 R73). -/
def pscope (p : Option Pfx) : Nat := match p with
  | none => 3
  | some x => x.scope.toNat

def preuse (p : Option Pfx) : Nat := match p with
  | none => 0
  | some x => x.reuse.toNat

def pos (p : Option Pfx) : Nat := match p with
  | none => 0
  | some x => x.os.toNat

/-- The rounding mode in force: RND, where 6 is `FCTL`.RM (02 R57, Table 2.8). -/
def rmode (t : Team) (p : Option Pfx) : Nat := match p with
  | none => t.rm
  | some x => if x.rnd = 6 then t.rm else x.rnd.toNat

/-- Which prefix fields an instruction uses (03 Table 3.3); k is always used. -/
structure Uses where
  z : Bool := true
  rnd : Bool := false
  vc : Bool := false
  wa : Bool := false
  wb : Bool := false
  scope : Bool := false
  reuse : Bool := false
  os : Bool := false

/-- The fallbacks of the prefix fields an instruction does not use (03 Table 3.15). -/
def pfxWarn (p : Option Pfx) (u : Uses) : Nat :=
  match p with
  | none => 0
  | some x =>
    wIf (!u.z && x.z == 1) wZERO ||| wIf (!u.rnd && x.rnd != 6) wRND ||| wIf (!u.vc && x.vc != 0) wOPND |||
    wIf ((!u.wa && x.wa == 1) || (!u.wb && x.wb == 1)) wWAIT ||| wIf (!u.scope && x.scope != 0) wSCOPE |||
    wIf ((!u.reuse && x.reuse != 0) || (!u.os && x.os != 0)) wHINT

/-- The lanes that act: the execute mask and the prefix's mask (01 R14). -/
def Team.acting (t : Team) (p : Option Pfx) : Mask := t.exec &&& t.k (pk p)

/-- The lanes zeroed under Z = 1: in the execute mask, not in k (01 R14). -/
def Team.zeroed (t : Team) (p : Option Pfx) : Mask := if pz p then t.exec &&& ~~~ t.k (pk p) else 0

/-! ### Checks 7 and 8 (03 R84, 02 R67) -/

/-- Do the registers of a run lie below V (01 R17)? -/
def Team.inRange (t : Team) (reg n : Nat) : Bool := decide (reg + n ≤ t.vregs)

/-- Does a register's tag suit? RAW is accepted everywhere; no list means every tag. -/
def Team.tagFits (t : Team) (tags : List Nat) (reg : Nat) : Bool :=
  tags.isEmpty || (t.tagOf reg).toNat == 0 || tags.contains (t.tagOf reg).toNat

/-- Do the tags of an instruction's sources and merge destination suit? A destination is a merge destination when the
prefix names a mask other than k0 and Z = 0; it carries its result tag, or RAW (02 R66, 05 R136). -/
def Team.tagsFit (t : Team) (o : LaneOp) : Bool :=
  (o.srcs.all fun x => (run x.reg x.n).all (t.tagFits x.tags)) &&
  (pk o.p == 0 || pz o.p || o.tags.all fun x => t.tagFits [x.2] x.1)

/-- Check 7 for a lane instruction. -/
def Team.regsOk (t : Team) (o : LaneOp) : Bool :=
  o.aligned && (o.srcs.all fun x => t.inRange x.reg x.n) && (o.dsts.all fun d => t.inRange d.1 d.2)

/-- What stops an instruction before it reads a register, if anything (03 Table 3.14). -/
def Team.precheck (t : Team) (wf : Bool) (o : LaneOp) : Option Cause :=
  if !wf then some .illegal
  else if !t.regsOk o then some .operand
  else if t.tagt && !t.tagsFit o then some .operand
  else none

/-! ### Full and empty rows (01 R22 to R25) -/

/-- Does WA or WB make an empty row of this source trap? -/
def Src.traps (x : Src) (p : Option Pfx) : Bool := (x.gate == 1 && pwa p) || (x.gate == 2 && pwb p)

/-- The first trapping source register with an empty row among the swept rows, WA's operand before WB's (04 R125). -/
def Team.emptyTrap (t : Team) (o : LaneOp) : Option Nat :=
  let regs := (o.srcs.filter fun x => x.gate == 1 && x.traps o.p).flatMap (fun x => run x.reg x.n) ++
              (o.srcs.filter fun x => x.gate == 2 && x.traps o.p).flatMap (fun x => run x.reg x.n)
  regs.find? fun r => t.sweptRows.any fun w => t.rowEmpty r w

/-- The active lanes of the rows in which a trapping source is empty. -/
def Team.emptyLanes (t : Team) (o : LaneOp) : Mask :=
  maskOfList ((t.sweptRows.filter fun w =>
    o.srcs.any fun x => x.traps o.p && (run x.reg x.n).any fun r => t.rowEmpty r w).flatMap fun w =>
      (rowLanes w).filter (inMask t.exec))

/-- Is every source and destination row full? -/
def Team.rowReady (t : Team) (o : LaneOp) (w : Nat) : Bool :=
  (o.srcs.all fun x => (run x.reg x.n).all fun r => !t.rowEmpty r w) &&
  (o.dsts.all fun d => (run d.1 d.2).all fun r => !t.rowEmpty r w)

/-- The registers an instruction reads. -/
def LaneOp.reads (o : LaneOp) : List Nat := o.srcs.flatMap fun x => run x.reg x.n

/-- Is a row of a source register lost? -/
def Team.lostRow (t : Team) (o : LaneOp) (w : Nat) : Bool := t.lostAt o.reads w

/-! ### Rows -/

/-- The row a lane-by-lane computation gives: acting lanes compute, zeroed lanes get zero in every destination
register (01 R14, 05 R134). -/
def lanesRow (t : Team) (p : Option Pfx) (dsts : List (Nat × Nat)) (f : Nat → LaneOut) (w : Nat) : RowOut :=
  let act := (rowLanes w).filter (inMask (t.acting p))
  let zero := (rowLanes w).filter (inMask (t.zeroed p))
  let outs := act.map fun n => (n, f n)
  { writes := (outs.flatMap fun x => x.2.regs.map fun v => (v.1 * 1024 + x.1, v.2)) ++
      (zero.flatMap fun n => (dsts.flatMap fun d => run d.1 d.2).map fun r => (r * 1024 + n, 0))
    fl := (outs.filter fun x => x.2.fl != 0).map fun x => (x.1, x.2.fl)
    gens := outs.filterMap fun x => x.2.g.map fun g => (x.1, g) }

/-- Exceptions noted: those that arose, and the lanes in which an enabled one did (05 R139, R140). -/
def Team.noteFl (t : Team) (fl : List (Nat × Fl)) : Team :=
  { t with
    excFlags := fl.foldl (fun a x => a ||| x.2) t.excFlags
    exc := fl.foldl (fun m x => if x.2 &&& t.te != 0 then m ||| BitVec.ofNat 1024 (2 ^ x.1) else m) t.exc }

/-- A row's results written at once. -/
def Team.writeRow (t : Team) (o : RowOut) : Team :=
  let t : Team := { t with
    vreg := o.writes.foldl (fun m (x : Nat × Word32) => fput m x.1 x.2) t.vreg
    badWords := t.badWords.filter fun b => !o.writes.any fun x => x.1 == b.1 * 1024 + b.2 }
  (o.gens.foldl (fun (t : Team) x => t.setG x.1 x.2) t).noteFl o.fl

/-- The pending row of a register that a producer's row gives. -/
def LaneOp.pending (o : LaneOp) (w : Nat) (x : RowOut) (r : Nat) : ProdRow :=
  ⟨r, w, (x.writes.filter fun y => y.1 / 1024 == r).map fun y => (y.1 % 1024, y.2),
   if o.inOrder then o.dsts.head?.map (·.1) else none, o.fp⟩

/-- A long-latency producer's row: its destination rows are marked empty and its results land later (01 R22). -/
def Team.issueRow (t : Team) (o : LaneOp) (w : Nat) (x : RowOut) : Team :=
  let regs := o.dsts.flatMap fun d => run d.1 d.2
  let t : Team := regs.foldl (fun (t : Team) r =>
    { t.setRow r w true with prods := t.prods ++ [o.pending w x r] }) t
  (x.gens.foldl (fun (t : Team) x => t.setG x.1 x.2) t).noteFl x.fl

/-- The sweep's outcome: done, stopped at a row that waits, or a register loss. -/
inductive Sweep where
  | done (t : Team)
  | stopped (t : Team) (row : Nat)
  | lost (t : Team)

/-- The rows swept in ascending order from where the sweep stands (01 R13, R23, R24). -/
def sweepRows (o : LaneOp) (rows : List Nat) (t : Team) : Sweep :=
  match rows with
  | [] => .done t
  | w :: rest =>
    if !t.rowReady o w then .stopped t w
    else if t.lostRow o w then .lost t
    else
      let t := t.heal o.reads w
      sweepRows o rest (if o.long then t.issueRow o w (o.row t w) else t.writeRow (o.row t w))

/-- The retirement of a lane instruction: flags, fallbacks, tags, and the PC past it (05 R139, 03 R85, 01 R26); one that goes on to
the floating-point trap sets no fallback (03 R85: a trapped instruction sets none). -/
def Team.retireLane (t : Team) (o : LaneOp) : Team :=
  let fit := t.tagsFit o
  let quiet := t.excFlags &&& t.te == 0
  let t := { t with flags := t.flags ||| t.excFlags.setWidth 64 }
  let t := (t.warn (if quiet then o.warn else 0)).warn (wIf (quiet && !fit) wTAG)
  let t := (o.tags ++ o.more).foldl (fun t x => t.setTags [x.1] (BitVec.ofNat 4 x.2)) t
  { t.advance (plen o.p) with exc := 0, excFlags := 0 }

/-- Events for the rows a producer still has to land. -/
def State.postRows (s : State) (n : Nat) : State :=
  { s with events := s.events ++ List.replicate n ⟨.producerRowFull, { a := s.cur }⟩ }

/-- A lane instruction whose rows are done retires: flags, fallbacks, tags, the events of rows still to land, and the
floating-point trap when an enabled exception arose (05 R139, R140). `t` is the team after its rows. -/
def State.finishLane (s : State) (o : LaneOp) (t : Team) : State :=
  let raised := t.excFlags &&& t.te
  let t2 := t.retireLane o
  let s' := (s.withTeam t2).postRows (t.prods.length - s.team.prods.length)
  if raised = 0 then s' else (s'.withTeam (t2.setPc t.pc)).trapWith .float t.exc 0 raised true (plen o.p)

/-- A lane instruction from its checks to its retirement. -/
def runLane (wf : Bool) (o : LaneOp) (s : State) : Out :=
  let t := s.team
  match t.precheck wf o with
  | some c => .next (s.trap c 0)
  | none =>
    if t.exec = 0 then .next (s.withTeam (t.advance (plen o.p)))
    else if t.prow.isNone && (t.emptyTrap o).isSome then
      .next (s.trapEmpty (t.emptyLanes o) ((t.emptyTrap o).getD 0))
    else
      match sweepRows o (t.sweptRows.filter fun w => decide (t.prow.getD 0 ≤ w)) t with
      | .stopped t' w => .next ((s.withTeam { t' with prow := some w, wait := .row }).postRows (t'.prods.length - t.prods.length))
      | .lost t' => .next ((s.withTeam t').endMine 2 0 0)
      | .done t' =>
        let f := o.fin t'
        if f.stack then .next (s.trap .stackLimit 0) else .next (s.finishLane o (f.team.noteFl f.fl))

/-! ### Lane memory instructions: the check phase's registers (06 R167) -/

/-- Destination rows this instruction left empty when a page fault stopped it are its own (01 R25). -/
def Team.reclaim (t : Team) (o : LaneOp) : Team :=
  if t.wait = .pageFault then
    (o.dsts.flatMap fun d => run d.1 d.2).foldl (fun (t : Team) r =>
      t.sweptRows.foldl (fun (t : Team) w => t.setRow r w false) t) t
  else t

/-- Destination rows marked empty at issue (01 R22, 06 R168). -/
def Team.markEmpty (t : Team) (o : LaneOp) : Team :=
  (o.dsts.flatMap fun d => run d.1 d.2).foldl (fun (t : Team) r =>
    t.sweptRows.foldl (fun (t : Team) w => t.setRow r w true) t) t

/-- A lane memory instruction up to its addresses: the checks, then the wait for every swept row of every register it
reads or writes; `k` is the rest. -/
def memLane (wf : Bool) (o : LaneOp) (s : State) (k : State → Out) : Out :=
  match s.team.precheck wf o with
  | some c => .next (s.trap c 0)
  | none =>
    if s.team.exec = 0 then .next (s.withTeam (s.team.advance (plen o.p))) else
    let s := s.withTeam (s.team.reclaim o)
    let t := s.team
    if (t.emptyTrap o).isSome then .next (s.trapEmpty (t.emptyLanes o) ((t.emptyTrap o).getD 0))
    else if t.sweptRows.any fun w => !t.rowReady o w then .next (s.waitFor .row)
    else if t.sweptRows.any fun w => t.lostRow o w then .next (s.endMine 2 0 0)
    else k (s.withTeam (t.healRows o.reads))

/-- A lane memory instruction's results: each swept row's values issued to land later, then retirement. `zero` are
the registers Z zeroes. -/
def State.finishMem (s : State) (o : LaneOp) (zero : List (Nat × Nat)) (warn : Nat)
    (f : Nat → LaneOut) : Out :=
  let t := s.team
  let t1 := t.sweptRows.foldl (fun (t : Team) w => t.issueRow o w (lanesRow s.team o.p zero f w)) t
  .next (s.finishLane { o with warn := o.warn ||| warn } t1)

/-- The acting lanes, ascending. -/
def Team.actors (t : Team) (p : Option Pfx) : List Nat := (List.range t.lanes).filter (inMask (t.acting p))

/-! ### Uniform instructions -/

/-- A uniform instruction retires: its fallbacks, and the PC past its word. -/
def State.retire (s : State) (t : Team) (warn : Nat) : State := s.withTeam ((t.warn warn).advance 4)

/-- Would writing a scalar register break the team stack (01 R36)? -/
def Team.s63Bad (t : Team) (r : BitVec 6) (v : Word64) : Bool := r == 63 && decide (v.toNat < t.spPtr.toNat)

/-- A scalar result written, or the stack-limit trap when it would put s63 below the spill pointer (01 R36). -/
def writeScalar (s : State) (r : BitVec 6) (v : Word64) (warn : Nat) : Out :=
  let t := s.team
  if t.s63Bad r v then .next (s.trap .stackLimit 0) else .next (s.retire (t.setS r v) warn)

/-- The traps of checks 4 to 7 for a uniform instruction, in order, before its effect. -/
def checkedUni (wf regs : Bool) (s : State) (k : Out) : Out :=
  if !wf then .next (s.trap .illegal 0) else if !regs then .next (s.trap .operand 0) else k

/-! ### The issue record's fields of the rows without operands of their own (15 R372) -/

def iwSd (s : State) : BitVec 6 := s.iw.extractLsb' 16 6
def iwSa (s : State) : BitVec 6 := s.iw.extractLsb' 10 6
def iwImm (s : State) : BitVec 16 := s.iw.extractLsb' 0 16

end Sys2Proof.Machine
end

