-- ==== Sys2Proof/Machine/Lanes.lean ====
section
/-! DEFINITION. The shapes lane arithmetic is built from (05 R134 to R136): an operation over one or two element
operands, 32-bit elements or pairs, packed elements, and an immediate form. -/

/-- W = 1 in a register form (03 R76). -/
def Sys2Proof.LR.wide (f : Sys2Proof.LR) : Bool := f.w == 1

namespace Sys2Proof.Machine

/-- A pair starts on an even register (01 R18). -/
def pairOk (wide : Bool) (r : BitVec 7) : Bool := !wide || r.toNat % 2 == 0

/-- Registers of an element operand: one, or a pair. -/
def nregs (wide : Bool) : Nat := if wide then 2 else 1

/-- A 64-bit value in the registers of a pair (02 Table 2.7). -/
def pairRegs (r : Nat) (v : Word64) : List (Nat × Word32) := [(r, v.setWidth 32), (r + 1, v.extractLsb' 32 32)]

/-- A run of registers with one tag. -/
def tagRun (r n tag : Nat) : List (Nat × Nat) := (run r n).map fun x => (x, tag)

/-- The uses of a lane instruction with two, one and no vector sources. -/
def uses2 : Uses := { wa := true, wb := true }
def uses1 : Uses := { wa := true }
def uses0 : Uses := {}

/-- A lane instruction over sources, one destination run and a computation by lane. -/
def laneOp (p : Option Pfx) (srcs : List Src) (dst n : Nat) (aligned : Bool) (tag : Nat) (warn : Nat)
    (f : Team → Nat → LaneOut) : LaneOp :=
  { p := p, srcs := srcs, dsts := [(dst, n)], aligned := aligned, tags := tagRun dst n tag, warn := warn,
    row := fun t w => lanesRow t p [(dst, n)] (f t) w }

/-- Sources va and vb of a register form, `na` and `nb` registers, accepting `tags`. -/
def srcAB (f : LR) (na nb : Nat) (tags : List Nat) : List Src := [⟨f.va.toNat, na, 1, tags⟩, ⟨f.vb.toNat, nb, 2, tags⟩]

def srcA (f : LR) (na : Nat) (tags : List Nat) : List Src := [⟨f.va.toNat, na, 1, tags⟩]

/-- The tag an integer of W's width takes: I32 or I64 (05 Table 5.1). -/
def intTag (w : Bool) : Nat := if w then 14 else 13

/-- vd := op(va, vb) on 32-bit elements or on 64-bit pairs (05 R142, R143). `accept` are the tags the sources
may carry, `tag` is the result tag. -/
def laneTwo (p : Option Pfx) (f : LR) (accept : List Nat) (tag : Nat)
    (op : (w : Nat) → BitVec w → BitVec w → BitVec w) (s : State) : Out :=
  let n := nregs f.wide
  let a := f.va.toNat
  let b := f.vb.toNat
  let d := f.vd.toNat
  runLane (pfxOk p) (laneOp p (srcAB f n n accept) d n (pairOk f.wide f.vd && pairOk f.wide f.va && pairOk f.wide f.vb)
    tag (pfxWarn p uses2) fun t l =>
      { regs := if f.wide then pairRegs d (op 64 (t.v64 a l) (t.v64 b l)) else [(d, op 32 (t.v a l) (t.v b l))] }) s

/-- Majors 0x01 and 0x02: integers of 32 or 64 bits (05 R142, Table 5.1). -/
def laneInt (p : Option Pfx) (f : LR) (op : (w : Nat) → BitVec w → BitVec w → BitVec w) (s : State) : Out :=
  laneTwo p f [intTag f.wide] (intTag f.wide) op s

/-- Major 0x05: bitwise, every tag accepted, result RAW (05 R143, Table 5.1). -/
def laneBits (p : Option Pfx) (f : LR) (op : (w : Nat) → BitVec w → BitVec w → BitVec w) (s : State) : Out :=
  laneTwo p f [] 0 op s

/-- An operation on the two 16-bit or four 8-bit elements of a lane (02 R50). -/
def packed16 (op : BitVec 16 → BitVec 16 → BitVec 16) (a b : Word32) : Word32 :=
  op (a.extractLsb' 16 16) (b.extractLsb' 16 16) ++ op (a.setWidth 16) (b.setWidth 16)

def packed8 (op : BitVec 8 → BitVec 8 → BitVec 8) (a b : Word32) : Word32 :=
  (op (a.extractLsb' 24 8) (b.extractLsb' 24 8) ++ op (a.extractLsb' 16 8) (b.extractLsb' 16 8)) ++
  (op (a.extractLsb' 8 8) (b.extractLsb' 8 8) ++ op (a.setWidth 8) (b.setWidth 8))

/-- Majors 0x03 and 0x04: packed 16-bit or, with W = 1, 8-bit elements (05 R142). -/
def lanePacked (p : Option Pfx) (f : LR) (op : (w : Nat) → BitVec w → BitVec w → BitVec w) (s : State) : Out :=
  let tag := if f.wide then 11 else 12
  let a := f.va.toNat
  let b := f.vb.toNat
  let d := f.vd.toNat
  runLane (pfxOk p) (laneOp p (srcAB f 1 1 [tag]) d 1 true tag (pfxWarn p uses2) fun t l =>
    { regs := [(d, if f.wide then packed8 (op 8) (t.v a l) (t.v b l) else packed16 (op 16) (t.v a l) (t.v b l))] }) s

/-- vd := op(va) of the source's width; vb is MBZ (05 R144). -/
def laneOne (p : Option Pfx) (f : LR) (accept : List Nat) (tag : Nat)
    (op : (w : Nat) → BitVec w → BitVec w) (s : State) : Out :=
  let n := nregs f.wide
  let a := f.va.toNat
  let d := f.vd.toNat
  runLane (pfxOk p) (laneOp p (srcA f n accept) d n (pairOk f.wide f.vd && pairOk f.wide f.va) tag
    (pfxWarn p uses1 ||| wIf (f.vb != 0) wOPND) fun t l =>
      { regs := if f.wide then pairRegs d (op 64 (t.v64 a l)) else [(d, op 32 (t.v a l))] }) s

/-- A count: one destination register, tagged I32; vb is MBZ (05 R144). -/
def laneCount (p : Option Pfx) (f : LR) (op : (w : Nat) → BitVec w → Nat) (s : State) : Out :=
  let a := f.va.toNat
  let d := f.vd.toNat
  runLane (pfxOk p) (laneOp p (srcA f (nregs f.wide) [intTag f.wide]) d 1 (pairOk f.wide f.va) 13
    (pfxWarn p uses1 ||| wIf (f.vb != 0) wOPND) fun t l =>
      { regs := [(d, BitVec.ofNat 32 (if f.wide then op 64 (t.v64 a l) else op 32 (t.v a l)))] }) s

/-- 1 where a condition holds, 0 elsewhere. -/
def flag32 (b : Bool) : Word32 := if b then 1 else 0

/-- An integer compare: one destination register, tagged I32 (05 R145). -/
def laneCompare (p : Option Pfx) (f : LR) (test : (w : Nat) → BitVec w → BitVec w → Bool) (s : State) : Out :=
  let n := nregs f.wide
  let a := f.va.toNat
  let b := f.vb.toNat
  let d := f.vd.toNat
  runLane (pfxOk p) (laneOp p (srcAB f n n [intTag f.wide]) d 1 (pairOk f.wide f.va && pairOk f.wide f.vb) 13
    (pfxWarn p uses2) fun t l =>
      { regs := [(d, flag32 (if f.wide then test 64 (t.v64 a l) (t.v64 b l) else test 32 (t.v a l) (t.v b l)))] }) s

/-- An immediate form on 32-bit elements (05 R146). -/
def laneImm (p : Option Pfx) (f : LI) (accept : List Nat) (tag : Nat) (warn : Nat)
    (op : Word32 → Word32) (s : State) : Out :=
  let a := f.va.toNat
  let d := f.vd.toNat
  runLane (pfxOk p) (laneOp p [⟨a, 1, 1, accept⟩] d 1 true tag (pfxWarn p uses1 ||| warn) fun t l =>
    { regs := [(d, op (t.v a l))] }) s

/-- A form with no vector source whose lanes take a value each. -/
def laneFill (p : Option Pfx) (d : BitVec 7) (wide : Bool) (tag : Nat) (warn : Nat)
    (v : Team → Nat → Word64) (s : State) : Out :=
  let n := nregs wide
  runLane (pfxOk p) (laneOp p [] d.toNat n (pairOk wide d) tag (pfxWarn p uses0 ||| warn) fun t l =>
    { regs := if wide then pairRegs d.toNat (v t l) else [(d.toNat, (v t l).setWidth 32)] }) s

/-- The lowest-numbered lane of a mask. -/
def lowest (m : Mask) (l : Nat) : Option Nat := (List.range l).find? (inMask m)

end Sys2Proof.Machine
end

