-- ==== Sys2Proof/Machine/LaneFloat.lean ====
section
/-! DEFINITION. Lane floating point: arithmetic, compares and classes, majors 0x10 to 0x12 of the lane set (05 R148 to
R152). -/

namespace Sys2Proof.Machine

/-- FP32, or FP64 with W = 1 (05 R148). -/
def fmtWide (w : Bool) : Fmt := if w then fmtF64 else fmtF32

/-- BF16, or FP16 with W = 1 (05 R148). -/
def fmtHalf (w : Bool) : Fmt := if w then fmtF16 else fmtBF16

/-- Format tags of FP32 and FP64, BF16 and FP16 (02 Table 2.10). -/
def tagWide (w : Bool) : Nat := if w then 2 else 1
def tagHalf (w : Bool) : Nat := if w then 4 else 3

/-- An element operation: format, whether 16-bit subnormals are flushed, rounding, three operands. -/
abbrev FOp := Fmt → Bool → Rnd → Nat → Nat → Nat → Nat × Fl

/-- One element under a rounding mode; the generator steps once under the stochastic mode when the operation rounds
(02 R59). -/
def roundElem (mode : Nat) (g : Word32) (k : Rnd → Nat × Fl) : (Nat × Fl) × Word32 :=
  let (r, g') := rndOf mode g
  (k r, g')

/-- The generator of a lane whose instruction stepped it. -/
def stepped (mode : Nat) (g : Word32) : Option Word32 := if mode = 5 then some g else none

/-- A lane of FP32 or FP64 elements. `steps` says whether its elements are produced under the rounding mode. -/
def fpLane (wide steps : Bool) (d a b c : Nat) (op : FOp) (mode : Nat) (t : Team) (l : Nat) : LaneOut :=
  let fm := fmtWide wide
  let get := fun r => if wide then (t.v64 r l).toNat else (t.v r l).toNat
  let mode := if steps then mode else 0
  let (r, g) := roundElem mode (t.g l) fun rnd => op fm false rnd (get a) (get b) (get c)
  { regs := if wide then pairRegs d (BitVec.ofNat 64 r.1) else [(d, BitVec.ofNat 32 r.1)], fl := r.2, g := stepped mode g }

/-- A lane of two packed BF16 or FP16 elements, each computed on its own, the lower first (05 R148, 02 R59). -/
def fpLaneHalf (w steps : Bool) (d a b c : Nat) (op : FOp) (mode : Nat) (t : Team) (l : Nat) : LaneOut :=
  let fm := fmtHalf w
  let get := fun (r i : Nat) => bitsAt (t.v r l).toNat (16 * i) 16
  let mode := if steps then mode else 0
  let (r0, g0) := roundElem mode (t.g l) fun rnd => op fm t.f16z rnd (get a 0) (get b 0) (get c 0)
  let (r1, g1) := roundElem mode g0 fun rnd => op fm t.f16z rnd (get a 1) (get b 1) (get c 1)
  { regs := [(d, BitVec.ofNat 32 (r0.1 + r1.1 * 65536))], fl := r0.2 ||| r1.2, g := stepped mode g1 }

/-- Majors 0x10 and 0x11: `n` sources of the format, vd of the format. `half` picks the packed formats. -/
def fpArith (half : Bool) (p : Option Pfx) (f : LR) (unary steps : Bool) (acc : Option Nat) (u : Uses) (op : FOp)
    (s : State) : Out :=
  let wide := f.wide && !half
  let tag := if half then tagHalf f.wide else tagWide f.wide
  let n := nregs wide
  let a := f.va.toNat
  let b := f.vb.toNat
  let d := f.vd.toNat
  let mode := rmode s.team p
  let srcs := (if unary then srcA f n [tag] else srcAB f n n [tag]) ++ (match acc with
    | none => []
    | some c => [⟨c, n, 0, [tag]⟩])
  runLane (pfxOk p) (laneOp p srcs d n
    (pairOk wide f.vd && pairOk wide f.va && (unary || pairOk wide f.vb) && (match acc with
      | none => true
      | some c => !wide || c % 2 == 0))
    tag (pfxWarn p u ||| wIf (unary && f.vb != 0) wOPND)
    (if half then fpLaneHalf f.wide steps d a b (acc.getD 0) op mode
     else fpLane wide steps d a b (acc.getD 0) op mode)) s

/-- The addend of `FMA`: the register vc names, or vd without a prefix (03 R73). -/
def accReg (p : Option Pfx) (f : LR) : Nat := if p.isSome then pvc p else f.vd.toNat

def usesF2 : Uses := { wa := true, wb := true, rnd := true }
def usesF1 : Uses := { wa := true, rnd := true }
def usesFma : Uses := { wa := true, wb := true, rnd := true, vc := true }

/-- a + b (05 R148). -/
def opFadd : FOp := fun fm z r a b _ => fm.add z r (fm.unpackFlush z a) (fm.unpackFlush z b)

/-- a - b (05 R148). -/
def opFsub : FOp := fun fm z r a b _ => fm.add z r (fm.unpackFlush z a) (fm.unpackFlush z b).neg

/-- a x b (05 R148). -/
def opFmul : FOp := fun fm z r a b _ => fm.mul z r (fm.unpackFlush z a) (fm.unpackFlush z b)

/-- a x b + c, rounded once (05 R148). -/
def opFma : FOp := fun fm z r a b c =>
  fm.fma z r (fm.unpackFlush z a) (fm.unpackFlush z b) (fm.unpackFlush z c)

/-- The bits of an operand as the instruction reads it: a zero of its sign when flushed (05 R149). -/
def Fmt.readBits (fm : Fmt) (z : Bool) (a : Nat) : Nat :=
  if z && fm.subnormal a then (if a.testBit (fm.eb + fm.mb) then fm.signBit else 0) else a

/-- Is a below b, with -0 below +0? -/
def belowFV (a b : FV) : Bool :=
  match fvCmp a b with
  | none => false
  | some c => decide (c < 0) || (c == 0 && a.sign && !b.sign)

/-- The lesser (`max` = false) or the greater operand; a number is preferred to a NaN (05 R149). -/
def opMinMax (max : Bool) : FOp := fun fm z _ a b _ =>
  let x := fm.unpackFlush z a
  let y := fm.unpackFlush z b
  let nv := if x.snan || y.snan then fNV else 0
  if x.isNan && y.isNan then (fm.qnan, nv)
  else if x.isNan then (fm.readBits z b, nv)
  else if y.isNan then (fm.readBits z a, nv)
  else if (if max then belowFV x y else belowFV y x) then (fm.readBits z b, nv)
  else (fm.readBits z a, nv)

/-- The sign bit cleared (05 R149). -/
def opFabs : FOp := fun fm _ _ a _ _ => (a % fm.signBit, 0)

/-- The sign bit inverted (05 R149). -/
def opFneg : FOp := fun fm _ _ a _ _ => (a ^^^ fm.signBit, 0)

/-- FADD on FP32 or FP64 (05 R148, R150). -/
def execFadd (p : Option Pfx) (f : LR) (s : State) : Out := fpArith false p f false true none usesF2 opFadd s

/-- FSUB on FP32 or FP64 (05 R148, R150). -/
def execFsub (p : Option Pfx) (f : LR) (s : State) : Out := fpArith false p f false true none usesF2 opFsub s

/-- FMUL on FP32 or FP64 (05 R148, R150). -/
def execFmul (p : Option Pfx) (f : LR) (s : State) : Out := fpArith false p f false true none usesF2 opFmul s

/-- FMA on FP32 or FP64 (05 R148, R150). -/
def execFma (p : Option Pfx) (f : LR) (s : State) : Out := fpArith false p f false true (some (accReg p f)) usesFma opFma s

/-- FMIN on FP32 or FP64 (05 R149; a generator step per element under the stochastic mode, Table 5.5). -/
def execFmin (p : Option Pfx) (f : LR) (s : State) : Out := fpArith false p f false true none usesF2 (opMinMax false) s

/-- FMAX on FP32 or FP64 (05 R149; a generator step per element under the stochastic mode, Table 5.5). -/
def execFmax (p : Option Pfx) (f : LR) (s : State) : Out := fpArith false p f false true none usesF2 (opMinMax true) s

/-- FABS on FP32 or FP64: acts on bits (05 R149). -/
def execFabs (p : Option Pfx) (f : LR) (s : State) : Out := fpArith false p f true false none usesF1 opFabs s

/-- FNEG on FP32 or FP64: acts on bits (05 R149). -/
def execFneg (p : Option Pfx) (f : LR) (s : State) : Out := fpArith false p f true false none usesF1 opFneg s

/-- FADD on packed BF16 or FP16 (05 R148, R150). -/
def execFaddBf16 (p : Option Pfx) (f : LR) (s : State) : Out := fpArith true p f false true none usesF2 opFadd s

/-- FSUB on packed BF16 or FP16 (05 R148, R150). -/
def execFsubBf16 (p : Option Pfx) (f : LR) (s : State) : Out := fpArith true p f false true none usesF2 opFsub s

/-- FMUL on packed BF16 or FP16 (05 R148, R150). -/
def execFmulBf16 (p : Option Pfx) (f : LR) (s : State) : Out := fpArith true p f false true none usesF2 opFmul s

/-- FMA on packed BF16 or FP16 (05 R148, R150). -/
def execFmaBf16 (p : Option Pfx) (f : LR) (s : State) : Out := fpArith true p f false true (some (accReg p f)) usesFma opFma s

/-- FMIN on packed BF16 or FP16 (05 R149; a generator step per element under the stochastic mode, Table 5.5). -/
def execFminBf16 (p : Option Pfx) (f : LR) (s : State) : Out := fpArith true p f false true none usesF2 (opMinMax false) s

/-- FMAX on packed BF16 or FP16 (05 R149; a generator step per element under the stochastic mode, Table 5.5). -/
def execFmaxBf16 (p : Option Pfx) (f : LR) (s : State) : Out := fpArith true p f false true none usesF2 (opMinMax true) s

/-- FABS on packed BF16 or FP16: acts on bits (05 R149). -/
def execFabsBf16 (p : Option Pfx) (f : LR) (s : State) : Out := fpArith true p f true false none usesF1 opFabs s

/-- FNEG on packed BF16 or FP16: acts on bits (05 R149). -/
def execFnegBf16 (p : Option Pfx) (f : LR) (s : State) : Out := fpArith true p f true false none usesF1 opFneg s

/-- A compare of FP32 elements or FP64 pairs into one register tagged I32 (05 R151). `test` sees the order of numbers;
`un` is the result for a NaN operand; `quiet` says whether a quiet NaN raises no flag. -/
def fcmpLane (p : Option Pfx) (f : LR) (test : Int → Bool) (un quiet : Bool) (s : State) : Out :=
  let n := nregs f.wide
  let fm := fmtWide f.wide
  runLane (pfxOk p) (laneOp p (srcAB f n n [tagWide f.wide]) f.vd.toNat 1 (pairOk f.wide f.va && pairOk f.wide f.vb) 13
    (pfxWarn p uses2) fun t l =>
      let get := fun r => fm.unpack (if f.wide then (t.v64 r l).toNat else (t.v r l).toNat)
      let a := get f.va.toNat
      let b := get f.vb.toNat
      match fvCmp a b with
      | none => { regs := [(f.vd.toNat, flag32 un)], fl := if !quiet || a.snan || b.snan then fNV else 0 }
      | some c => { regs := [(f.vd.toNat, flag32 (test c))] }) s

/-- FCMP.eq (05 R151). -/
def execFcmpEq (p : Option Pfx) (f : LR) (s : State) : Out := fcmpLane p f (fun c => c == 0) false true s

/-- FCMP.ne (05 R151). -/
def execFcmpNe (p : Option Pfx) (f : LR) (s : State) : Out := fcmpLane p f (fun c => c != 0) true true s

/-- FCMP.lt (05 R151). -/
def execFcmpLt (p : Option Pfx) (f : LR) (s : State) : Out := fcmpLane p f (fun c => decide (c < 0)) false false s

/-- FCMP.le (05 R151). -/
def execFcmpLe (p : Option Pfx) (f : LR) (s : State) : Out := fcmpLane p f (fun c => decide (c ≤ 0)) false false s

/-- FCMP.gt (05 R151). -/
def execFcmpGt (p : Option Pfx) (f : LR) (s : State) : Out := fcmpLane p f (fun c => decide (0 < c)) false false s

/-- FCMP.ge (05 R151). -/
def execFcmpGe (p : Option Pfx) (f : LR) (s : State) : Out := fcmpLane p f (fun c => decide (0 ≤ c)) false false s

/-- FCMP.un (05 R151). -/
def execFcmpUn (p : Option Pfx) (f : LR) (s : State) : Out := fcmpLane p f (fun _ => false) true true s

/-- The class of a datum as one set bit (05 R152). -/
def classOf (fm : Fmt) (x : Nat) : Nat :=
  match fm.unpack x with
  | .nan sig => if sig then 256 else 512
  | .inf n => if n then 1 else 128
  | .fin n m _ =>
    if m = 0 then (if n then 8 else 16)
    else if fm.subnormal x then (if n then 4 else 32)
    else (if n then 2 else 64)

/-- FCLASS: no flag; vb is MBZ (05 R152). -/
def execFclass (p : Option Pfx) (f : LR) (s : State) : Out :=
  let fm := fmtWide f.wide
  runLane (pfxOk p) (laneOp p (srcA f (nregs f.wide) [tagWide f.wide]) f.vd.toNat 1 (pairOk f.wide f.va) 13
    (pfxWarn p uses1 ||| wIf (f.vb != 0) wOPND) fun t l =>
      let x := if f.wide then (t.v64 f.va.toNat l).toNat else (t.v f.va.toNat l).toNat
      { regs := [(f.vd.toNat, BitVec.ofNat 32 (classOf fm x))] }) s

end Sys2Proof.Machine
end

