-- ==== Sys2Proof/Machine/Flags.lean ====
section
/-! DEFINITION. Flags and control registers: the conditions of the integer compares, and what a read and a write of each CSR of
01 Table 1.2 give and do. -/

namespace Sys2Proof.Machine

/-! ### Compares -/

/-- The compare codes of `ICMP` (03 Table 3.8, 05 R145): eq, ne, lt and le signed, lt and le unsigned. -/
inductive ICond where
  | eq | ne | lt | le | ltu | leu
  deriving DecidableEq, Repr

/-- A compare of two words of one width. -/
def ICond.holds {w : Nat} (c : ICond) (a b : BitVec w) : Bool :=
  match c with
  | .eq => a == b
  | .ne => a != b
  | .lt => a.slt b
  | .le => a.sle b
  | .ltu => a.ult b
  | .leu => a.ule b

/-! ### CSRs (01 R27 to R31) -/

/-- `DIEID` (01 R29). -/
def Team.dieid (t : Team) : Word64 := BitVec.ofNat 64 (t.ndie * 2 ^ 16 + t.die * 2 ^ 8 + t.dix)

/-- `CLUID` (01 R29). -/
def Team.cluid (t : Team) : Word64 := BitVec.ofNat 64 (t.ngrp * 2 ^ 16 + t.cluster * 2 ^ 8 + t.gix)

/-- `TEAMID` (01 R29). -/
def Team.teamid (t : Team) : Word64 :=
  BitVec.ofNat 64 (t.slot * 2 ^ 24 + t.core * 2 ^ 16 + t.nteam * 2 ^ 8 + t.tix)

/-- `LANES` (01 R30). -/
def Team.lanesReg (t : Team) : Word64 := BitVec.ofNat 64 (t.vregs * 2 ^ 16 + t.lanes)

/-- A row word of a mask as a CSR shows it; rows at or above L/32 read as zero (01 R31). -/
def Team.rowCsr (t : Team) (m : Mask) (i : Nat) : Word64 :=
  if i < t.lanes / 32 then (rowWord m i).setWidth 64 else 0

/-- What `CSRR` reads (04 R121); the team's earlier instructions have all taken effect (04 R122). -/
def csrRead (t : Team) (clock : Word64) (n : Nat) : Word64 :=
  if 0x40 ≤ n ∧ n ≤ 0x5F then t.rowCsr t.tmask (n - 0x40)
  else if 0x60 ≤ n ∧ n ≤ 0x7F then t.rowCsr t.exec (n - 0x60)
  else match n with
  | 0x000 => t.flags
  | 0x001 => t.fctl
  | 0x002 => t.iwarn
  | 0x003 => t.mbound
  | 0x010 => t.tile
  | 0x011 => t.gang
  | 0x012 => t.allow
  | 0x013 => t.batch
  | 0x014 => t.slim
  | 0x020 => t.tvec
  | 0x021 => t.tcause
  | 0x022 => t.tepc
  | 0x023 => (summary t.tmask).setWidth 64
  | 0x030 => t.dieid
  | 0x031 => t.cluid
  | 0x032 => t.teamid
  | 0x033 => t.lanesReg
  | 0x034 => BitVec.ofNat 64 t.depth
  | 0x035 => clock
  | 0x036 => (summary t.exec).setWidth 64
  | _ => 0

/-- The bits of `FCTL` that a write sets: SEED, TE, TAGT, DTRAP, F16Z, RM (02 R60). -/
def fctlMask : Word64 := 0xFFFFFFFF00FF0007

/-- Every lane's generator is as seeded from a seed (02 R59). -/
def Team.reseed (t : Team) (seed : Word32) : Team := { t with genSeed := seed, gen := [] }

/-- What a `CSRW` does: a trap cause, or the team after it (01 R28, R36, 02 R60, 03 R86, 04 R121, R124, 05 R138,
07 R212, R235). -/
def csrWrite (t : Team) (n : Nat) (x : Word64) : Except Cause Team :=
  match n with
  | 0x000 => .ok { t with flags := x &&& 0x1F }
  | 0x001 =>
    if 5 < field x 0 3 then .error .operand else
    let t := { t with fctl := x &&& fctlMask }
    .ok (if x.getLsbD 24 then t.reseed (x.extractLsb' 32 32) else t)
  | 0x002 => .ok { t with iwarn := t.iwarn &&& ~~~ (x &&& 0x3FFF) }
  | 0x010 => if field x 0 3 = 0 ∨ 5 < field x 0 3 then .error .operand else .ok { t with tile := x &&& 7 }
  | 0x011 =>
    if field x 32 4 = 0 ∨ field x 32 4 = 2 ∨ field x 32 4 = 4 ∨ field x 32 4 = 6 ∨ field x 32 4 = 8
    then .ok { t with gang := x &&& 0xF00FFFFFF } else .error .operand
  | 0x012 => if field x 0 3 = 0 then .error .operand else .ok { t with allow := x &&& 7 }
  | 0x014 =>
    let l := x &&& 0x1FFFFFFFFFFFFF0
    let empty := t.spPtr == t.spBase && t.ndsp == 0 && t.nrsp == 0
    if empty then
      if (t.s 63).toNat < l.toNat then .error .stackLimit else .ok { t with slim := l, spBase := l, spPtr := l }
    else if t.spBase.toNat < l.toNat then .error .stackLimit else .ok { t with slim := l }
  | 0x020 => .ok { t with tvec := vecBits x }
  | 0x022 => .ok { t with tepc := vecBits x }
  | _ => .error .illegal

end Sys2Proof.Machine
end

