-- ==== Sys2Proof/Machine/MemOps.lean ====
section
/-! DEFINITION. The two phases of a memory instruction (06 R167, R168): the check of every byte and how it ends, and the
accesses performed after it; and the team's divergence and return stacks with their spills (04 R109, R116, R118). -/

namespace Sys2Proof.Machine

/-- How the check phase stops an instruction (06 R168, 12 R316, 15 R375, 16 R390): a trap, a protection fault, a page
fault, a home that cannot serve yet, uncorrectable data or a lost home, a host line whose state must be asked for
(`want` as in `State.askHost`), a directory set with no way for the line (11 R293), a line the host must give up first (11
R301). -/
inductive Stop where
  | trap (c : Cause) (lanes : Mask)
  | prot (va : Nat)
  | page (va entry level : Nat) (wr ex : Bool)
  | busy
  | dead (e : Loss) (va : Nat)
  | host (line want : Nat)
  | full (site : Site) (line : Nat)
  | back (line : Nat)
  deriving DecidableEq, Repr

/-- Does a stop only wait? -/
def Stop.waits (x : Stop) : Bool :=
  match x with
  | .busy => true
  | .host _ _ => true
  | .full _ _ => true
  | .back _ => true
  | _ => false

/-- A checked span: its parts with the bytes of each. -/
abbrev Span := List (Hit × Nat)

/-- What a stopped check does to the machine. -/
def State.stopWith (s : State) (x : Stop) : State :=
  match x with
  | .trap c lanes => s.trap c lanes
  | .prot va => s.endMine 1 5 va
  | .page va entry level wr ex => s.pageFault va entry level wr ex
  | .busy => s.waitFor .busy
  | .dead e va => s.endLost e va
  | .host line want => (s.askHost line want).waitFor .busy
  | .full site line => (s.startEvict site line).waitFor .busy
  | .back line => (s.askBack line).waitFor .busy

/-- A reach that is no hit, as a stop. -/
def Reach.stop (r : Reach) (va : Nat) (need : Need) : Option Stop :=
  match r with
  | .hit _ => none
  | .prot => some (.prot va)
  | .absent level a => some (.page va a level (need &&& needW != 0) (need &&& needX != 0))
  | .busy => some .busy
  | .dead e => some (.dead e va)
  | .host line want => some (.host line want)
  | .full site line => some (.full site line)
  | .back line => some (.back line)

/-- How urgent a stop is: protection before a page fault (06 R168), then lost data, then waits. -/
def Stop.rank (x : Stop) : Nat :=
  match x with
  | .trap _ _ => 0
  | .prot _ => 1
  | .page _ _ _ _ _ => 2
  | .dead _ _ => 3
  | .host _ _ => 4
  | .full _ _ => 4
  | .back _ => 4
  | .busy => 5

/-- The first stop of the least rank. -/
def firstStop (xs : List Stop) : Option Stop :=
  (List.range 6).findSome? fun r => xs.find? fun x => x.rank == r

/-- Neighbouring parts of a span that lie in one line of memory taken as one. -/
def joinParts (sp : Span) : Span :=
  match sp with
  | [] => []
  | (h, n) :: r =>
    match joinParts r with
    | [] => [(h, n)]
    | (g, m) :: q =>
      if h.global && g.global && g.key == h.key + n && g.key / 64 == h.key / 64 then (h, n + m) :: q
      else (h, n) :: (g, m) :: q

/-- One part of a span checked, and the address it is reported at: every word of it that is read is looked at for poison
(15 R375). -/
def State.reachPart (s : State) (v : Via) (span part : Nat × Nat) (need : Need) (reads : Bool) (pol : Nat) : Reach × Nat :=
  let l := part.1 / 64 * 64
  match s.reach { v with full := decide (span.1 ≤ l) && decide (l + 64 ≤ span.1 + span.2) } need reads pol part.1 with
  | .hit h =>
    if !reads || !h.global then (.hit h, part.1) else
    match (List.range part.2).find? fun i => s.poisoned (h.key + i) with
    | some i => (.dead badData, part.1 + i)
    | none => (.hit h, part.1)
  | r => (r, part.1)

/-- Every part of every span checked; spans stand in ascending lane order, parts in ascending address (06 R168). -/
def State.checkSpans (s : State) (v : Via) (spans : List (Nat × Nat)) (need : Need) (reads : Bool) (pol : Nat) :
    Except Stop (List Span) :=
  let found := spans.map fun x => (parts x.1 x.2).map fun p => (p, s.reachPart v x p need reads pol)
  match firstStop (found.flatMap fun ps => ps.filterMap fun x => x.2.1.stop x.2.2 need) with
  | some st => .error st
  | none => .ok (found.map fun ps => joinParts (ps.filterMap fun x => match x.2.1 with
    | .hit h => some (h, x.1.2)
    | _ => none))

/-- The translation caches after the spans of an access (12 R318). -/
def State.fillSpans (s : State) (v : Via) (spans : List Span) : State :=
  spans.foldl (fun s sp => sp.foldl (fun s x => if x.1.global then s.tlbFill v x.1.va else s) s) s

/-- Fallbacks of the addresses: WIN for a policy on a window, PDN for one the page does not allow (03 Table 3.15). -/
def spanWarn (spans : List Span) (pol : Nat) : Nat :=
  wIf (pol != 0 && spans.any fun sp => sp.any fun x => !x.1.global) wWIN |||
  wIf (spans.any fun sp => sp.any fun x => x.1.pdn) wPDN

/-- A checked span loaded. -/
def State.loadSpan (s : State) (k : Nat) (sp : Span) (hint : Nat) : State × List Byte :=
  sp.foldl (fun (x : State × List Byte) p =>
    let r := x.1.teamLoad k p.1 p.2 hint
    (r.1, x.2 ++ r.2)) (s, [])

/-- A checked span stored. -/
def State.storeSpan (s : State) (k : Nat) (sp : Span) (bs : List Byte) : State :=
  (sp.foldl (fun (x : State × List Byte) p => (x.1.teamStore k p.1 (x.2.take p.2) 0, x.2.drop p.2)) (s, bs)).1

/-! ### Memory of the team's own stacks (01 R36, 04 R118) -/

/-- Bytes of the spill region read by team `k`. -/
def State.stackLoad (s : State) (k va n : Nat) : Except Stop (State × List Byte) :=
  match s.checkSpans (s.viaOf k) [(va, n)] needR true polWt with
  | .error e => .error e
  | .ok sp => .ok (s.loadSpan k (sp.flatten) 0)

/-- Bytes of the spill region written by team `k`. -/
def State.stackStore (s : State) (k va : Nat) (bs : List Byte) : Except Stop State :=
  match s.checkSpans (s.viaOf k) [(va, bs.length)] needW false polWt with
  | .error e => .error e
  | .ok sp => .ok (s.storeSpan k (sp.flatten) bs)

/-- One entry spilled: a record of `size` bytes at the spill pointer (04 R118); at or above s63 it traps (01 R36). -/
def State.spill (s : State) (k size rec : Nat) : Except Stop State :=
  let t := s.teamAt k
  if (t.s 63).toNat < t.spPtr.toNat + size then .error (.trap .stackLimit 0) else
  match s.stackStore k t.spPtr.toNat (leBytes size rec) with
  | .error e => .error e
  | .ok s => .ok (s.setTeam k { s.teamAt k with spPtr := t.spPtr + BitVec.ofNat 64 size })

/-- A divergence entry pushed; beyond 16 the oldest held one is spilled (04 R118). -/
def State.pushDiv (s : State) (k : Nat) (e : DivEntry) : Except Stop State :=
  let t := s.teamAt k
  if t.div.length < 16 then .ok (s.setTeam k { t with div := e :: t.div }) else
  match s.spill k 160 (divRecord (t.div.getLastD e)) with
  | .error x => .error x
  | .ok s =>
    let t := s.teamAt k
    .ok (s.setTeam k { t with div := e :: t.div.dropLast, ndsp := t.ndsp + 1 })

/-- A return address pushed; beyond 8 the oldest held one is spilled (04 R118). -/
def State.pushRet (s : State) (k : Nat) (pc : BitVec 64) : Except Stop State :=
  let t := s.teamAt k
  if t.ret.length < 8 then .ok (s.setTeam k { t with ret := pc :: t.ret }) else
  match s.spill k 16 (retRecord (t.ret.getLastD pc)) with
  | .error x => .error x
  | .ok s =>
    let t := s.teamAt k
    .ok (s.setTeam k { t with ret := pc :: t.ret.dropLast, nrsp := t.nrsp + 1 })

/-- A 32-bit word of the spill region. -/
def State.stackWord (s : State) (k va : Nat) : Except Stop Nat :=
  match s.stackLoad k va 4 with
  | .error e => .error e
  | .ok (_, bs) => .ok (leNat bs)

/-- The newest live record of a kind: its address and size (04 R118). -/
def State.findLive (s : State) (k kind fuel a : Nat) : Except Stop (Option (Nat × Nat)) :=
  match fuel with
  | 0 => .ok none
  | f + 1 =>
    if a ≤ (s.teamAt k).spBase.toNat then .ok none else
    match s.stackWord k (a - 4) with
    | .error e => .error e
    | .ok w =>
      let size := if w % 16 = 1 then 160 else 16
      if w = kind then .ok (some (a - size, size)) else s.findLive k kind f (a - size)

/-- The spill pointer dropped past the dead records on top (04 R118); an empty region follows LIMIT (01 R36). -/
def State.dropDead (s : State) (k fuel : Nat) : Except Stop State :=
  match fuel with
  | 0 => .ok s
  | f + 1 =>
    let t := s.teamAt k
    if t.spPtr.toNat ≤ t.spBase.toNat then .ok (s.setTeam k { t with spBase := t.slim, spPtr := t.slim }) else
    match s.stackWord k (t.spPtr.toNat - 4) with
    | .error e => .error e
    | .ok w =>
      if w = 0x11 then (s.setTeam k { t with spPtr := t.spPtr - 160 }).dropDead k f
      else if w = 0x12 then (s.setTeam k { t with spPtr := t.spPtr - 16 }).dropDead k f
      else .ok s

/-- Steps that a walk over the spill region may take: one for each 16 bytes of it. -/
def Team.spillFuel (t : Team) : Nat := (t.spPtr.toNat - t.spBase.toNat) / 16 + 2

/-- `refill(K)` of 04 R118: the newest live record of a kind taken back, its record marked dead. -/
def State.refill (s : State) (k kind : Nat) : Except Stop State :=
  let t := s.teamAt k
  match s.findLive k kind t.spillFuel t.spPtr.toNat with
  | .error e => .error e
  | .ok none => .ok s
  | .ok (some (a, size)) =>
    match s.stackLoad k a size with
    | .error e => .error e
    | .ok (s, bs) =>
      match s.stackStore k (a + size - 4) (leBytes 4 (kind + 16)) with
      | .error e => .error e
      | .ok s =>
        let t := s.teamAt k
        let n := leNat bs
        let t := if kind = 1 then { t with div := t.div ++ [divOfRecord n], ndsp := t.ndsp - 1 }
                 else { t with ret := t.ret ++ [BitVec.ofNat 64 n], nrsp := t.nrsp - 1 }
        (s.setTeam k t).dropDead k t.spillFuel

/-- The top divergence entry popped, with the refill of 04 R118. -/
def State.popDiv (s : State) (k : Nat) : Except Stop State :=
  let t := s.teamAt k
  let s := s.setTeam k { t with div := t.div.tail }
  if t.ndsp = 0 then .ok s else s.refill k 1

/-- The top return entry popped, with the refill of 04 R118. -/
def State.popRet (s : State) (k : Nat) : Except Stop State :=
  let t := s.teamAt k
  let s := s.setTeam k { t with ret := t.ret.tail }
  if t.nrsp = 0 then .ok s else s.refill k 2

/-- Entries of the divergence stack, held and spilled. -/
def Team.depthDiv (t : Team) : Nat := t.div.length + t.ndsp

/-- A path that has reached its reconvergence address ends there (04 R111). -/
def State.reconverge (s : State) (k fuel : Nat) : Except Stop State :=
  match fuel with
  | 0 => .ok s
  | f + 1 =>
    let t := s.teamAt k
    if 1 < t.depthDiv ∧ t.top.pc = t.top.reconv then
      match s.popDiv k with
      | .error e => .error e
      | .ok s => s.reconverge k f
    else .ok s

/-- A stack operation's result as the outcome of an instruction: its new state, or what stopped it with no other
effect. -/
def finishStack (s : State) (x : Except Stop State) : Out :=
  match x with
  | .ok s' => .next s'
  | .error e => .next (s.stopWith e)

end Sys2Proof.Machine
end

