-- ==== Sys2Proof/Machine/ScalarMem.lean ====
section
/-! DEFINITION. Scalar loads, stores and atomics (04 R98 to R101), and the read-modify-write at the home that lane
atomics share (04 R100, 06 R182). -/

namespace Sys2Proof.Machine

/-- Bytes of a scalar access, its offset, ordering and policy (03 Table 3.9). -/
def smSize (f : UR) : Nat := 2 ^ (f.sb.extractLsb' 4 2).toNat
def smAddr (f : UR) (t : Team) : Nat := (t.s f.sa + BitVec.ofNat 64 ((f.sb.extractLsb' 0 4).toNat * smSize f)).toNat
def smOrd (f : UR) : Nat := (f.aux.extractLsb' 2 2).toNat
def smPol (f : UR) : Nat := (f.aux.extractLsb' 0 2).toNat

/-- An ordering acquires or releases: codes 1 acq, 2 rel, 3 ar (03 Table 3.6). -/
def ordAcq (o : Nat) : Bool := o == 1 || o == 3
def ordRel (o : Nat) : Bool := o == 2 || o == 3

/-- A scalar load (04 R98, R99). A rel is demoted to none and an ar to acq; without an ordering the scope is ignored
(03 Table 3.15). -/
def execScalarLd (sc : BitVec 3) (f : UR) (s : State) : Out :=
  let a := smAddr f s.team
  let n := smSize f
  let acq := ordAcq (smOrd f)
  let warn := wIf (ordRel (smOrd f)) wORD ||| wIf (!acq && sc != 0) wSCOPE
  checkedUni (Instr.scalarLd sc f).wf true s
    (if a % n ≠ 0 then .next (s.trap .align 0) else
     match s.checkSpans (s.viaOf s.cur) [(a, n)] needR true (smPol f) with
     | .error e => .next (s.stopWith e)
     | .ok sp =>
       let (s1, bs) := (s.fillSpans (s.viaOf s.cur) sp).loadSpan s.cur sp.flatten 0
       let v : Word64 := BitVec.ofNat 64 (leNat bs)
       if s.team.s63Bad f.sd v then .next (s.trap .stackLimit 0) else
       let s2 := if acq then s1.acquire s.cur sc.toNat else s1
       .next (s2.retire (s2.team.setS f.sd v) (warn ||| spanWarn sp (smPol f))))

/-- A scalar store (04 R98, R99). An acq is demoted to none and an ar to rel. -/
def execScalarSt (sc : BitVec 3) (f : UR) (s : State) : Out :=
  let a := smAddr f s.team
  let n := smSize f
  let rel := ordRel (smOrd f)
  let warn := wIf (ordAcq (smOrd f)) wORD ||| wIf (!rel && sc != 0) wSCOPE
  checkedUni (Instr.scalarSt sc f).wf true s
    (if a % n ≠ 0 then .next (s.trap .align 0) else
     match s.checkSpans (s.viaOf s.cur) [(a, n)] needW false (smPol f) with
     | .error e => .next (s.stopWith e)
     | .ok sp =>
       let s1 := s.fillSpans (s.viaOf s.cur) sp
       let s1 := if rel then s1.release s.cur sc.toNat else s1
       let s1 := s1.storeSpan s.cur sp.flatten (leBytes n (s.team.s f.sd).toNat)
       .next (s1.retire s1.team (warn ||| spanWarn sp (smPol f))))

/-! ### Atomics -/

/-- Bytes of an atomic by its type: 0 i32, 1 n32, 2 i64, 3 n64. -/
def atomBytes (ty : Nat) : Nat := if ty < 2 then 4 else 8

/-- `f(op, old, operand)` on words of one width (04 R100); none leaves memory as it is (a failed cas). -/
def atomFn {w : Nat} (op : Nat) (signed : Bool) (old x c : BitVec w) : Option (BitVec w) :=
  match op with
  | 0 => some (old + x)
  | 1 => some (if signed then minS old x else minU old x)
  | 2 => some (if signed then maxS old x else maxU old x)
  | 3 => some (old &&& x)
  | 4 => some (old ||| x)
  | 5 => some (old ^^^ x)
  | 6 => some x
  | _ => if old = c then some x else none

/-- The new memory word of an atomic of a type, from 64-bit registers. -/
def atomNew (op ty : Nat) (old x c : Word64) : Option Nat :=
  if ty < 2 then (atomFn op (ty == 0) (old.setWidth 32) (x.setWidth 32) (c.setWidth 32)).map (·.toNat)
  else (atomFn op (ty == 2) old x c).map (·.toNat)

/-- The old value as the register receives it: sign-extended for i32, zero-extended for n32 (04 R100). -/
def atomExtend (ty : Nat) (old : Word64) : Word64 :=
  if ty = 0 then (old.setWidth 32).signExtend 64 else if ty = 1 then (old.setWidth 32).setWidth 64 else old

/-- One indivisible update of `n` bytes at the home of a hit, or at the bank of a window, by team `k`: the old value,
and memory with what `upd` gives. -/
def State.rmw (s : State) (k : Nat) (h : Hit) (n : Nat) (upd : Word64 → Option Nat) : State × Word64 :=
  if h.global then
    let v := s.viaOf k
    let s := ((s.flushStack k).countHot v h.va).opAccess v.die v.idx h.line false (h.words n)
    let old : Word64 := BitVec.ofNat 64 (s.readPhysLe h.key n)
    match upd old with
    | none => (s, old)
    | some x => ((s.hostWritten h.line).writePhysLe h.key n x, old)
  else
    let old : Word64 := BitVec.ofNat 64 (s.mem.readLe h.key n)
    match upd old with
    | none => (s, old)
    | some x => ({ s with mem := s.mem.writeLe h.key n x }, old)

/-- Bytes of a checked span as their home holds them, in one indivisible access there. -/
def State.homeRead (s : State) (k : Nat) (sp : Span) (rd : Bool) : State × List Byte :=
  sp.foldl (fun (x : State × List Byte) p =>
    let v := x.1.viaOf k
    if p.1.global then
      let s := ((x.1.flushStack k).countHot v p.1.va).opAccess v.die v.idx p.1.line rd (p.1.words p.2)
      (s, x.2 ++ s.readsPhys p.1.key p.2)
    else (x.1, x.2 ++ x.1.mem.reads p.1.key p.2)) (s, [])

/-- Bytes of a checked span written at their home. -/
def State.homeWrite (s : State) (sp : Span) (bs : List Byte) : State :=
  (sp.foldl (fun (x : State × List Byte) p =>
    let s := x.1
    if p.1.global then (((s.hostWritten p.1.line).writesPhys p.1.key (x.2.take p.2)).clearPoison p.1.key p.2, x.2.drop p.2)
    else ({ s with mem := s.mem.writes p.1.key (x.2.take p.2) }, x.2.drop p.2)) (s, bs)).1

/-- The first hit of a checked span. -/
def Span.first (sp : Span) : Hit := (sp.headD (⟨0, false, 0, 0, false, false, false⟩, 0)).1

/-- A scalar atomic (04 R100): scope in [9:7], [6:4] MBZ, ordering in aux[3:2], type in aux[1:0]. -/
def scalarAtom (op : Nat) (wf : Bool) (f : UR) (s : State) : Out :=
  let ty := (f.aux.extractLsb' 0 2).toNat
  let ord := (f.aux.extractLsb' 2 2).toNat
  let sc := (f.sb.extractLsb' 3 3).toNat
  let n := atomBytes ty
  let a := (s.team.s f.sa).toNat
  let warn := wIf (f.sb.extractLsb' 0 3 != 0) wOPND
  checkedUni wf (op != 7 || f.sd.toNat % 2 == 0) s
    (if a % n ≠ 0 then .next (s.trap .align 0) else
     match s.checkSpans (s.viaOf s.cur) [(a, n)] (needR ||| needW) true polWt with
     | .error e => .next (s.stopWith e)
     | .ok sp =>
       let s1 := s.fillSpans (s.viaOf s.cur) sp
       let s1 := if ordRel ord then s1.release s.cur sc else s1
       let (s2, old) := s1.rmw s.cur (Span.first sp.flatten) n
         fun o => atomNew op ty o (s.team.s f.sd) (s.team.s (f.sd ||| 1))
       let r := atomExtend ty old
       if s.team.s63Bad f.sd r then .next (s.trap .stackLimit 0) else
       let s2 := if ordAcq ord then s2.acquire s.cur sc else s2
       .next (s2.retire (s2.team.setS f.sd r) warn))

/-- ATOM.add (04 R100). -/
def execScalarAtomAdd (f : UR) (s : State) : Out := scalarAtom 0 (Instr.scalarAtomAdd f).wf f s

/-- ATOM.min. -/
def execScalarAtomMin (f : UR) (s : State) : Out := scalarAtom 1 (Instr.scalarAtomMin f).wf f s

/-- ATOM.max. -/
def execScalarAtomMax (f : UR) (s : State) : Out := scalarAtom 2 (Instr.scalarAtomMax f).wf f s

/-- ATOM.and. -/
def execScalarAtomAnd (f : UR) (s : State) : Out := scalarAtom 3 (Instr.scalarAtomAnd f).wf f s

/-- ATOM.or. -/
def execScalarAtomOr (f : UR) (s : State) : Out := scalarAtom 4 (Instr.scalarAtomOr f).wf f s

/-- ATOM.xor. -/
def execScalarAtomXor (f : UR) (s : State) : Out := scalarAtom 5 (Instr.scalarAtomXor f).wf f s

/-- ATOM.xchg. -/
def execScalarAtomXchg (f : UR) (s : State) : Out := scalarAtom 6 (Instr.scalarAtomXchg f).wf f s

/-- ATOM.cas: sd even, sd + 1 the compare value. -/
def execScalarAtomCas (f : UR) (s : State) : Out := scalarAtom 7 (Instr.scalarAtomCas f).wf f s

end Sys2Proof.Machine
end

