-- ==== Sys2Proof/Machine/LaneMem.lean ====
section
/-! DEFINITION. Lane loads, stores, transposing loads, atomics and narrow-block loads: majors 0x20 to 0x30 of the lane set
(06 R167 to R182). -/

namespace Sys2Proof.Machine

/-- Bytes a lane moves: 8 for the 64-bit types, else 4 (03 R75). Types of `LD` and `ST` by code (03 Table 3.5). -/
def ldWide (ty : BitVec 4) : Bool := ty == 1 || ty == 5 || ty == 9

/-- The tag a load of a type sets and a store of it accepts: RAW, I8, I16, I32, I64; F32, F64, BF16, F16, E4M3, E5M2,
E2M1 (02 Table 2.10). -/
def ldTag (ty : BitVec 4) : Nat := [0, 0, 11, 12, 13, 14, 0, 0, 1, 2, 3, 4, 5, 6, 9, 0].getD ty.toNat 0

/-- The types of `LD.acq` and `ST.rel`, as codes of `LD`: b32, b64, i32, i64, f32, f64 (03 Table 3.5). -/
def acqType (ty : BitVec 3) : BitVec 4 := [0, 1, 4, 5, 8, 9].getD ty.toNat 0

/-- Bytes per lane. -/
def laneBytes (wide : Bool) : Nat := if wide then 8 else 4

/-- Address of a lane under a vector offset: s[sa] + v[vo] x 2^OS (03 Table 3.4). -/
def addrVec (p : Option Pfx) (f : LM) (t : Team) (l : Nat) : Nat :=
  (t.s f.sa + BitVec.ofNat 64 ((t.v f.vo.toNat l).toNat * 2 ^ pos p)).toNat

/-- Address of a lane under an immediate offset: s[sa] + (imm7 + n) x bytes (03 Table 3.4). -/
def addrImm (f : LM) (n : Nat) (t : Team) (l : Nat) : Nat := (t.s f.sa + BitVec.ofNat 64 ((f.vo.toNat + l) * n)).toNat

/-- The mask of the lanes whose address is not a multiple of n. -/
def misaligned (lanes : List Nat) (n : Nat) (a : Nat → Nat) : Mask := maskOfList (lanes.filter fun l => a l % n != 0)

/-- The value of bytes loaded for a lane, found by lane. -/
def valueOf (xs : List (Nat × Nat)) (l : Nat) : Nat := ((xs.find? fun x => x.1 == l).map (·.2)).getD 0

/-- The spans of several lanes loaded, ascending: each lane's value. -/
def State.loadLanes (s : State) (xs : List (Nat × Span)) (hint : Nat) : State × List (Nat × Nat) :=
  xs.foldl (fun (y : State × List (Nat × Nat)) x =>
    let r := y.1.loadSpan y.1.cur x.2 hint
    (r.1, y.2 ++ [(x.1, leNat r.2)])) (s, [])

/-- The spans of several lanes stored, ascending: `n` bytes of each lane's value. -/
def State.storeLanes (s : State) (xs : List (Nat × Span)) (n : Nat) (v : Nat → Nat) : State :=
  xs.foldl (fun (s : State) x => s.storeSpan s.cur x.2 (leBytes n (v x.1))) s

/-- What a stopped check does to a lane memory instruction: a page fault leaves the destination rows empty (06 R168). -/
def State.stopLane (s : State) (o : LaneOp) (x : Stop) : State :=
  match x with
  | .page .. => (s.withTeam (s.team.markEmpty o)).stopWith x
  | _ => s.stopWith x

/-- A load: every acting lane's bytes to its registers, one or a pair (06 R174). `acq` is the scope of an acquire. -/
def laneLoad (p : Option Pfx) (wf : Bool) (f : LM) (wide : Bool) (tag : Nat) (vec : Bool) (acq : Option Nat) (u : Uses)
    (s : State) : Out :=
  let d := f.vd.toNat
  let n := nregs wide
  let o : LaneOp :=
    { p := p, srcs := if vec then [⟨f.vo.toNat, 1, 1, []⟩] else [], dsts := [(d, n)], aligned := pairOk wide f.vd,
      tags := tagRun d n tag, warn := pfxWarn p u, long := true, row := fun _ _ => ⟨[], [], []⟩ }
  memLane wf o s fun s =>
    let t := s.team
    let lanes := t.actors p
    let b := laneBytes wide
    let a := if vec then addrVec p f t else addrImm f b t
    if misaligned lanes b a != 0 then .next (s.trap .align (misaligned lanes b a)) else
    let pol := f.pol.toNat
    match s.checkSpans (s.viaOf s.cur) (lanes.map fun l => (a l, b)) needR true pol with
    | .error e => .next (s.stopLane o e)
    | .ok sp =>
      let (s1, xs) := (s.fillSpans (s.viaOf s.cur) sp).loadLanes (lanes.zip sp) (preuse p)
      let s1 := match acq with
        | none => s1
        | some sc => s1.acquire s1.cur sc
      s1.finishMem o [(d, n)] (spanWarn sp pol) fun l =>
        { regs := if wide then pairRegs d (BitVec.ofNat 64 (valueOf xs l)) else [(d, BitVec.ofNat 32 (valueOf xs l))] }

/-- A lane's data element as a number. -/
def dataElem (t : Team) (wide : Bool) (d l : Nat) : Nat := if wide then (t.v64 d l).toNat else (t.v d l).toNat

/-- A store: every acting lane's registers to its bytes, ascending, so that the highest-numbered lane's byte stays (06
R170, R174). `rel` is the scope of a release before it. -/
def laneStore (p : Option Pfx) (wf : Bool) (f : LM) (wide : Bool) (tag : Nat) (vec : Bool) (rel : Option Nat) (u : Uses)
    (s : State) : Out :=
  let d := f.vd.toNat
  let o : LaneOp :=
    { p := p, srcs := (if vec then [⟨f.vo.toNat, 1, 1, []⟩] else []) ++ [⟨d, nregs wide, 2, if tag = 0 then [] else [tag]⟩],
      dsts := [], aligned := pairOk wide f.vd, tags := [], warn := pfxWarn p u, row := fun _ _ => ⟨[], [], []⟩ }
  memLane wf o s fun s =>
    let t := s.team
    let lanes := t.actors p
    let b := laneBytes wide
    let a := if vec then addrVec p f t else addrImm f b t
    if misaligned lanes b a != 0 then .next (s.trap .align (misaligned lanes b a)) else
    let pol := f.pol.toNat
    match s.checkSpans (s.viaOf s.cur) (lanes.map fun l => (a l, b)) needW false pol with
    | .error e => .next (s.stopLane o e)
    | .ok sp =>
      let s1 := s.fillSpans (s.viaOf s.cur) sp
      let s1 := match rel with
        | none => s1
        | some sc => s1.release s1.cur sc
      let s1 := s1.storeLanes (lanes.zip sp) b (dataElem t wide d)
      s1.finishMem o [] (spanWarn sp pol) fun _ => { regs := [] }

/-- LD with a vector offset (06 R173, R174). -/
def execLd (p : Option Pfx) (ty : BitVec 4) (f : LM) (s : State) : Out :=
  laneLoad p (Instr.ld p ty f).wf f (ldWide ty) (ldTag ty) true none { wa := true, reuse := true, os := true } s

/-- LD with an immediate offset (06 R173, R174). -/
def execLdImm (p : Option Pfx) (ty : BitVec 4) (f : LM) (s : State) : Out :=
  laneLoad p (Instr.ldImm p ty f).wf f (ldWide ty) (ldTag ty) false none { reuse := true } s

/-- LD.acq: an acquire at SCOPE after its loads (06 R175). -/
def execLdAcq (p : Option Pfx) (ty : BitVec 3) (f : LM) (s : State) : Out :=
  laneLoad p (Instr.ldAcq p ty f).wf f (ldWide (acqType ty)) (ldTag (acqType ty)) true (some (pscope p))
    { wa := true, scope := true, reuse := true, os := true } s

/-- ST with a vector offset (06 R173, R174). -/
def execSt (p : Option Pfx) (ty : BitVec 4) (f : LM) (s : State) : Out :=
  laneStore p (Instr.st p ty f).wf f (ldWide ty) (ldTag ty) true none { z := false, wa := true, wb := true, os := true } s

/-- ST with an immediate offset (06 R173, R174). -/
def execStImm (p : Option Pfx) (ty : BitVec 4) (f : LM) (s : State) : Out :=
  laneStore p (Instr.stImm p ty f).wf f (ldWide ty) (ldTag ty) false none { z := false, wb := true } s

/-- ST.rel: a release at SCOPE before its stores (06 R175). -/
def execStRel (p : Option Pfx) (ty : BitVec 3) (f : LM) (s : State) : Out :=
  laneStore p (Instr.stRel p ty f).wf f (ldWide (acqType ty)) (ldTag (acqType ty)) true (some (pscope p))
    { z := false, wa := true, wb := true, scope := true, os := true } s

/-! ### Transposing loads (06 R181) -/

/-- Elements per lane of an `LDT` type: 4, 2 or 1. -/
def ldtRho (ty : BitVec 3) : Nat := if ty.toNat < 3 then 4 else if ty.toNat < 5 then 2 else 1

/-- The tag of an `LDT` type: I8, E4M3, E5M2, BF16, F16, F32, RAW. -/
def ldtTag (ty : BitVec 3) : Nat := [11, 5, 6, 3, 4, 1, 0, 0].getD ty.toNat 0

/-- Does an address lie in the cluster memory window (01 R33)? -/
def inCluster (a : Nat) : Bool := decide (clusterBase ≤ a) && decide (a < clusterBase + 2 ^ 21)

/-- A lane's transposed word: element e comes from lane base + e, zero where that lane does not act. -/
def transposed (rho : Nat) (act : Mask) (w : Nat → Nat) (l : Nat) : Nat :=
  let base := l - l % rho
  let bits := 32 / rho
  (List.range rho).foldl (fun a e =>
    if inMask act (base + e) then a + bitsAt (w (base + e)) (bits * (l % rho)) bits * 2 ^ (bits * e) else a) 0

/-- What stops a lane of an `LDT`: an address outside the cluster memory window, or beyond the allocation. -/
def State.ldtStop (s : State) (a : Nat → Nat) (l : Nat) : Option Stop :=
  if !inCluster (a l) then some (.prot (a l)) else
  match s.checkSpans (s.viaOf s.cur) [(a l, 4)] needR true polWt with
  | .error e => some e
  | .ok _ => none

/-- LDT: one word per acting lane from cluster memory, elements transposed in groups of lanes (06 R181). -/
def execLdt (p : Option Pfx) (ty : BitVec 3) (f : LM) (s : State) : Out :=
  let d := f.vd.toNat
  let o : LaneOp :=
    { p := p, srcs := [⟨f.vo.toNat, 1, 1, []⟩], dsts := [(d, 1)], tags := [(d, ldtTag ty)],
      warn := pfxWarn p { wa := true, os := true }, long := true, row := fun _ _ => ⟨[], [], []⟩ }
  memLane (Instr.ldt p ty f).wf o s fun s =>
    let t := s.team
    let lanes := t.actors p
    let a := addrVec p f t
    if misaligned lanes 4 a != 0 then .next (s.trap .align (misaligned lanes 4 a)) else
    match lanes.findSome? (s.ldtStop a) with
    | some e => .next (s.stopLane o e)
    | none =>
      match s.checkSpans (s.viaOf s.cur) (lanes.map fun l => (a l, 4)) needR true f.pol.toNat with
      | .error e => .next (s.stopLane o e)
      | .ok sp =>
        let (s1, xs) := s.loadLanes (lanes.zip sp) 0
        s1.finishMem o [(d, 1)] (spanWarn sp f.pol.toNat) fun l =>
          { regs := [(d, BitVec.ofNat 32 (transposed (ldtRho ty) (t.acting p) (valueOf xs) l))] }

/-! ### Atomics (06 R182) -/

/-- Bytes and tag of a lane atomic by type: 0 i32, 1 n32, 2 i64, 3 n64. -/
def atomTag (ty : Nat) : Nat := if ty < 2 then 13 else 14

/-- Read-modify-writes of `n` bytes at the spans of several lanes, ascending: each lane's old value (06 R182). -/
def State.rmwLanes (s : State) (xs : List (Nat × Span)) (n : Nat) (upd : Nat → Word64 → Option Nat) : State × List (Nat × Nat) :=
  xs.foldl (fun (y : State × List (Nat × Nat)) x =>
    let r := y.1.rmw y.1.cur (Span.first x.2) n (upd x.1)
    (r.1, y.2 ++ [(x.1, r.2.toNat)])) (s, [])

/-- A lane atomic: in ascending lane order the read-modify-write of 04 R100 at each address; vd receives the old value. -/
def laneAtom (p : Option Pfx) (wf : Bool) (op ty : Nat) (f : LM) (s : State) : Out :=
  let wide := decide (2 ≤ ty)
  let n := nregs wide
  let d := f.vd.toNat
  let cas := op == 7
  let tag := atomTag ty
  let o : LaneOp :=
    { p := p, srcs := [⟨f.vo.toNat, 1, 1, []⟩, ⟨d, n, 2, [tag]⟩] ++ (if cas then [⟨pvc p, n, 0, [tag]⟩] else []),
      dsts := [(d, n)], aligned := pairOk wide f.vd && (!cas || !wide || pvc p % 2 == 0), tags := tagRun d n tag,
      warn := pfxWarn p { wa := true, wb := true, vc := cas, scope := true, os := true }, long := true,
      row := fun _ _ => ⟨[], [], []⟩ }
  memLane wf o s fun s =>
    let t := s.team
    let lanes := t.actors p
    let b := laneBytes wide
    let a := addrVec p f t
    if misaligned lanes b a != 0 then .next (s.trap .align (misaligned lanes b a)) else
    match s.checkSpans (s.viaOf s.cur) (lanes.map fun l => (a l, b)) (needR ||| needW) true polWt with
    | .error e => .next (s.stopLane o e)
    | .ok sp =>
      let ord := f.pol.toNat
      let s1 := s.fillSpans (s.viaOf s.cur) sp
      let s1 := if ordRel ord then s1.release s1.cur (pscope p) else s1
      let (s2, xs) := s1.rmwLanes (lanes.zip sp) b fun l old =>
        atomNew op ty old (BitVec.ofNat 64 (dataElem t wide d l)) (BitVec.ofNat 64 (dataElem t wide (pvc p) l))
      let s2 := if ordAcq ord then s2.acquire s2.cur (pscope p) else s2
      s2.finishMem o [(d, n)] 0 fun l =>
        { regs := if wide then pairRegs d (BitVec.ofNat 64 (valueOf xs l)) else [(d, BitVec.ofNat 32 (valueOf xs l))] }

/-- ATOM.op.i32 (06 R182). -/
def execAtomI32 (p : Option Pfx) (op : BitVec 3) (f : LM) (s : State) : Out :=
  laneAtom p (Instr.atomI32 p op f).wf op.toNat 0 f s

/-- ATOM.op.n32 (06 R182). -/
def execAtomN32 (p : Option Pfx) (op : BitVec 3) (f : LM) (s : State) : Out :=
  laneAtom p (Instr.atomN32 p op f).wf op.toNat 1 f s

/-- ATOM.op.i64 (06 R182). -/
def execAtomI64 (p : Option Pfx) (op : BitVec 3) (f : LM) (s : State) : Out :=
  laneAtom p (Instr.atomI64 p op f).wf op.toNat 2 f s

/-- ATOM.op.n64 (06 R182). -/
def execAtomN64 (p : Option Pfx) (op : BitVec 3) (f : LM) (s : State) : Out :=
  laneAtom p (Instr.atomN64 p op f).wf op.toNat 3 f s

/-- ATOM.cas of the four types: it requires a prefix, whose vc holds the compare value (06 R182). -/
def execAtomCas (p : Option Pfx) (aty : BitVec 2) (f : LM) (s : State) : Out :=
  laneAtom p (Instr.atomCas p aty f).wf 7 aty.toNat f s

/-! ### Narrow-block loads (06 R177 to R180) -/

/-- Bits per element and the tag of an `LDB` format: E2M3, E3M2, E2M1, E4M3, E5M2, MXINT8. -/
def ldbWidth (ty : BitVec 3) : Nat := [6, 6, 4, 8, 8, 8, 8, 8].getD ty.toNat 8
def ldbTag (ty : BitVec 3) : Nat := [7, 8, 9, 5, 6, 11, 0, 0].getD ty.toNat 0

/-- A span and a scale's or header's span of one block, the lower address first (06 R168). -/
def blockSpans (a n b m : Nat) : List (Nat × Nat) := if b < a then [(b, m), (a, n)] else [(a, n), (b, m)]

/-- A 64-bit address from a base and an offset. -/
def addr64 (base : Word64) (o : Nat) : Nat := (base + BitVec.ofNat 64 o).toNat

/-- What a narrow-block load reads: lanes per block, bytes of a block, bytes of its scale or header. -/
structure BlockForm where
  lanes : Nat
  bytes : Nat
  head : Nat
  deriving DecidableEq, Repr

/-- The blocks with an acting lane, ascending, with their acting lanes' first. -/
def actingBlocks (lam : Nat) (lanes : List Nat) : List Nat := (lanes.map fun l => l / lam).eraseDups

/-- Addresses of a block's data and of its scale or header, from the base pair of the instruction (06 R177). -/
def BlockForm.dataAt (b : BlockForm) (t : Team) (f : LM) (k : Nat) : Nat := addr64 (t.s f.sa) (k * b.bytes)
def BlockForm.headAt (b : BlockForm) (t : Team) (f : LM) (k : Nat) : Nat := addr64 (t.s (f.sa + 1)) (k * b.head)

/-- The spans of the blocks with an acting lane. -/
def BlockForm.spans (b : BlockForm) (t : Team) (f : LM) (lanes : List Nat) : List (Nat × Nat) :=
  (actingBlocks b.lanes lanes).flatMap fun k => blockSpans (b.dataAt t f k) b.bytes (b.headAt t f k) b.head

/-- The value loaded for a span of a list, found by its place there. -/
def foundAt (spans : List (Nat × Nat)) (xs : List (Nat × Nat)) (a n : Nat) : Nat :=
  valueOf xs ((spans.findIdx? fun x => x == (a, n)).getD 0)

/-- A narrow-block load. `elems q h j` is lane j's word of a block whose data are q and whose scale or header is h;
`scale v h` is the scale register's word with the block's scale put in. -/
def blockLoad (p : Option Pfx) (wf : Bool) (f : LM) (b : BlockForm) (tag stag : Nat) (elems : Nat → Nat → Nat → Nat)
    (scale : Nat → Nat → Nat) (s : State) : Out :=
  let d := f.vd.toNat
  let vs := f.vo.toNat
  let t0 := s.team
  let firsts := (t0.actors p).filter fun l => l % b.lanes == 0
  let o : LaneOp :=
    { p := p, srcs := [], dsts := [(d, 1), (vs, 1)], aligned := d != vs && f.sa.toNat % 2 == 0,
      tags := (d, tag) :: (if firsts.isEmpty then [] else [(vs, stag)]), warn := pfxWarn p { reuse := true }, long := true,
      row := fun _ _ => ⟨[], [], []⟩ }
  memLane wf o s fun s =>
    let t := s.team
    let lanes := t.actors p
    if b.head = 4 ∧ (t.s (f.sa + 1)).toNat % 4 ≠ 0 ∧ lanes ≠ [] then .next (s.trap .align (maskOfList lanes)) else
    match s.checkSpans (s.viaOf s.cur) (b.spans t f lanes) needR true polSi with
    | .error e => .next (s.stopLane o e)
    | .ok sp =>
      let (s1, xs) := (s.fillSpans (s.viaOf s.cur) sp).loadLanes ((List.range sp.length).zip sp) (preuse p)
      s1.finishMem o [(d, 1)] (spanWarn sp polSi) fun l =>
        let q := foundAt (b.spans t f lanes) xs (b.dataAt t f (l / b.lanes)) b.bytes
        let h := foundAt (b.spans t f lanes) xs (b.headAt t f (l / b.lanes)) b.head
        { regs := (d, BitVec.ofNat 32 (elems q h (l % b.lanes))) ::
            (if l % b.lanes = 0 then [(vs, BitVec.ofNat 32 (scale (t.v vs l).toNat h))] else []) }

/-- A lane's packed elements of `w` bits from a bit string: `rho` of them from element j x rho on (02 R50, R51). -/
def blockElems (w rho : Nat) (q j : Nat) : Nat :=
  (List.range rho).foldl (fun a e => a + bitsAt q (w * (j * rho + e)) w * 2 ^ ((32 / rho) * e)) 0

/-- LDB: MX blocks with their E8M0 scales (06 R178). -/
def execLdb (p : Option Pfx) (ty : BitVec 3) (f : LM) (s : State) : Out :=
  let w := ldbWidth ty
  let lam := if w = 4 then 4 else 8
  blockLoad p (Instr.ldb p ty f).wf f ⟨lam, 4 * w, 1⟩ (ldbTag ty) 10 (fun q _ j => blockElems w (32 / lam) q j)
    (fun v h => putBits v (8 * f.pol.toNat) 8 h) s

/-- Code bits and group size of an `LDW` type. -/
def ldwBits (ty : BitVec 3) : Nat := if ty.toNat < 4 then 4 else 3
def ldwGroup (ty : BitVec 3) : Nat := 32 * 2 ^ (ty.toNat % 4)

/-- A lane's four weights as i8 bytes: (q - z) of codes 4j to 4j + 3 (02 R53, R54). -/
def weightElems (m : Nat) (q h j : Nat) : Nat :=
  let z := bitsAt h 16 m
  (List.range 4).foldl (fun a e => a + (bitsAt q (m * (4 * j + e)) m + 256 - z) % 256 * 2 ^ (8 * e)) 0

/-- LDW: group-scaled weights with their headers, expanded to i8 (06 R179). -/
def execLdw (p : Option Pfx) (ty : BitVec 3) (f : LM) (s : State) : Out :=
  let m := ldwBits ty
  let g := ldwGroup ty
  blockLoad p (Instr.ldw p ty f).wf f ⟨g / 4, g * m / 8, 4⟩ 11 3 (fun q h j => weightElems m q h j)
    (fun v h => putBits v (16 * (f.pol.toNat % 2)) 16 (h % 65536)) s

end Sys2Proof.Machine
end

