-- ==== Sys2Proof/Machine/LaneExact.lean ====
section
/-! DEFINITION. Exact accumulation: `FXACC` and `FXRD`, major 0x31 of the lane set (06 R183, R184, 09 R254 to R256). -/

namespace Sys2Proof.Machine

/-- The 64 bytes of an object as its home, or the bank of a window, holds them (09 R255); `rd` for an access that only
reads. -/
def State.homeObj (s : State) (sp : Span) (rd : Bool) : State × Nat :=
  let r := s.homeRead s.cur sp rd
  (r.1, leNat r.2)

/-- The objects of the acting lanes as the check phase reads them (06 R183). -/
def State.objects (s : State) (sps : List Span) : List Nat := sps.map fun sp => (s.homeObj sp true).2

/-- Does a KIND suit an access of an element of F64 (`x64`) or F32 (02 R62)? -/
def kindOk (x64 : Bool) (x : Nat) : Bool := objKind x == 2 || (objKind x == 1 && !x64)

/-- Is there an object at an address that can be read, of a KIND that does not suit? -/
def State.badObject (s : State) (need : Need) (x64 : Bool) (a : Nat) : Bool :=
  a % 64 == 0 && (match s.checkSpans (s.viaOf s.cur) [(a, 64)] need true polOp with
    | .ok sp => (s.objects sp).any fun x => !kindOk x64 x
    | .error _ => false)

/-- An accumulate or an accumulator read up to its access (06 R183, R184): the KIND of every object that can be read, then
alignment to 64, then the spans (04 Table 4.6). `k` performs it. -/
def objectLane (o : LaneOp) (wf : Bool) (f : LM) (need : Need) (x64 : Bool) (s : State)
    (k : State → List Nat → List Span → Out) : Out :=
  memLane wf o s fun s =>
    let t := s.team
    let lanes := t.actors o.p
    let a := addrVec o.p f t
    if lanes.any fun l => s.badObject need x64 (a l) then .next (s.trap .operand 0) else
    if misaligned lanes 64 a != 0 then .next (s.trap .align (misaligned lanes 64 a)) else
    match s.checkSpans (s.viaOf s.cur) (lanes.map fun l => (a l, 64)) need true polOp with
    | .error e => .next (s.stopLane o e)
    | .ok sp =>
      let s1 := s.fillSpans (s.viaOf s.cur) sp
      let s1 := if ordRel f.pol.toNat then s1.release s1.cur (pscope o.p) else s1
      k s1 lanes sp

/-- Addends with their scale exponents accumulated at the objects of several lanes, ascending (06 R183). -/
def State.accumulate (s : State) (xs : List (Nat × Span)) (v : Nat → FV × Int) : State :=
  xs.foldl (fun (s : State) x =>
    let r := s.homeObj x.2 false
    r.1.homeWrite x.2 (leBytes 64 (objAdd r.2 (v x.1).1 (v x.1).2))) s

/-- The objects of several lanes read, ascending (06 R184). -/
def State.readObjects (s : State) (xs : List (Nat × Span)) : State × List (Nat × Nat) :=
  xs.foldl (fun (y : State × List (Nat × Nat)) x =>
    let r := y.1.homeObj x.2 true
    (r.1, y.2 ++ [(x.1, r.2)])) (s, [])

/-- The source register of scale exponents, if the form has one. -/
def scaleSrc (kreg : Option Nat) : List Src :=
  match kreg with
  | some c => [⟨c, 1, 0, [13]⟩]
  | none => []

/-- The addend of a lane and its scale exponent. -/
def addendOf (f : LM) (wide : Bool) (kreg : Option Nat) (t : Team) (l : Nat) : FV × Int :=
  ((fmtWide wide).unpack (dataElem t wide f.vd.toNat l), match kreg with
    | some c => (t.v c l).toInt
    | none => 0)

/-- An accumulate: each acting lane's addend, ascending, at its object's home (06 R183). `kreg` is the register of the
scale exponents. -/
def laneFxacc (p : Option Pfx) (wf : Bool) (f : LM) (wide : Bool) (kreg : Option Nat) (s : State) : Out :=
  let d := f.vd.toNat
  let o : LaneOp :=
    { p := p, srcs := [⟨f.vo.toNat, 1, 1, []⟩, ⟨d, nregs wide, 2, [tagWide wide]⟩] ++ scaleSrc kreg,
      dsts := [], aligned := pairOk wide f.vd, tags := [], row := fun _ _ => ⟨[], [], []⟩,
      warn := pfxWarn p { z := false, wa := true, wb := true, vc := kreg.isSome, scope := true, os := true } }
  objectLane o wf f (needR ||| needW) wide s fun s lanes hs =>
    let s1 := s.accumulate (lanes.zip hs) (addendOf f wide kreg s.team)
    let s1 := if ordAcq f.pol.toNat then s1.acquire s1.cur (pscope p) else s1
    s1.finishMem o [] 0 fun _ => { regs := [] }

/-- FXACC.f32 (t = 0) and FXACC.f64 (t = 1) (06 R183). -/
def execFxacc (p : Option Pfx) (t : BitVec 1) (f : LM) (s : State) : Out :=
  laneFxacc p (Instr.fxacc p t f).wf f (t == 1) none s

/-- FXACC.f32.sc: the addend times 2^k, k the i32 element of vc; it requires a prefix (06 R183). -/
def execFxaccSc (p : Option Pfx) (f : LM) (s : State) : Out :=
  laneFxacc p (Instr.fxaccSc p f).wf f false (some (pvc p)) s

/-- A value read from an object, rounded once (06 R184). -/
def fxrdElem (fm : Fmt) (x : Nat) (rnd : Rnd) : Nat × Fl :=
  let (v, fl) := objValue x
  let (b, g) := fm.write false false rnd v
  (b, fl ||| g)

/-- FXRD.f32 (t = 0) and FXRD.f64 (t = 1) (06 R184). -/
def execFxrd (p : Option Pfx) (w : BitVec 1) (f : LM) (s : State) : Out :=
  let wide := w == 1
  let d := f.vd.toNat
  let n := nregs wide
  let mode := rmode s.team p
  let o : LaneOp :=
    { p := p, srcs := [⟨f.vo.toNat, 1, 1, []⟩], dsts := [(d, n)], aligned := pairOk wide f.vd,
      tags := tagRun d n (tagWide wide), long := true, fp := true, row := fun _ _ => ⟨[], [], []⟩,
      warn := pfxWarn p { rnd := true, wa := true, scope := true, os := true } }
  objectLane o (Instr.fxrd p w f).wf f needR false s fun s lanes hs =>
    let (s1, xs) := s.readObjects (lanes.zip hs)
    let s1 := if ordAcq f.pol.toNat then s1.acquire s1.cur (pscope p) else s1
    let t := s1.team
    s1.finishMem o [(d, n)] 0 fun l =>
      let (r, g) := roundElem mode (t.g l) (fxrdElem (fmtWide wide) (valueOf xs l))
      { regs := if wide then pairRegs d (BitVec.ofNat 64 r.1) else [(d, BitVec.ofNat 32 r.1)], fl := r.2, g := stepped mode g }

end Sys2Proof.Machine
end

