-- ==== Sys2Proof/Machine/Fetch.lean ====
section
/-! DEFINITION. Fetching an instruction (01 R32, 03 R68, R72), choosing who moves, and what a step does around the
instruction or event it runs. -/

namespace Sys2Proof.Machine

/-- One instruction word at an address: a fetch needs the execute right and never comes from the reserved range. -/
def State.fetchWord (s : State) (v : Via) (va : Nat) : Except Stop (State × Word32) :=
  match s.checkSpans v [(va, 4)] needX true polWt with
  | .error e => .error e
  | .ok sp =>
    let s := s.fillSpans v sp
    .ok (s, BitVec.ofNat 32 (leNat (sp.flatten.flatMap fun x => s.readsPhys x.1.key x.2)))

/-- The words of the instruction at an address: the second one only after a prefix (03 R72). -/
def State.fetch (s : State) (v : Via) (va : Nat) : Except Stop (State × Word32 × Word32) :=
  match s.fetchWord v va with
  | .error e => .error e
  | .ok (s, w0) =>
    if isPrefix w0 then
      match s.fetchWord v (va + 4) with
      | .error e => .error e
      | .ok (s, w1) => .ok (s, w0, w1)
    else .ok (s, w0, 0)

/-- The operand of FETCH_FAULT: what the fetch found (0 protection, 1 page fault, 2 lost data with the kind of its record and, plus
1, the die lost) and where. -/
def faultArg (x : Stop) : EvArg :=
  match x with
  | .page va entry level _ _ => { a := 1, b := entry, c := level, v := BitVec.ofNat 64 va }
  | .dead e va => { a := 2, b := e.ekind, c := (e.die.map (· + 1)).getD 0, v := BitVec.ofNat 64 va }
  | .prot va => { a := 0, v := BitVec.ofNat 64 va }
  | _ => {}

/-- Does a floating-point instruction of the team that has not retired hold back the next one: while a bit of `FCTL`.TE is 1 (04
R127)? -/
def Team.fpGate (t : Team) : Bool := t.te != 0 && t.prods.any fun p => p.fp

/-- May team `k` issue: resident, in no gang whose running operation a failed core has broken (15 R374), not behind a
floating-point instruction it must wait for, and no team it has yielded to (04 R123) is still owed an opportunity. -/
def State.canIssue (s : State) (k : Nat) : Bool :=
  let t := s.teamAt k
  t.status == .resident && !s.gangBroken k && !t.fpGate && !(t.owed.any fun j =>
    let u := s.teamAt j
    u.status == .resident && u.die == t.die && u.coreIdx == t.coreIdx && u.wait == .none)

/-- The channel a coherence message travels on, as sender, receiver and channel in one: the agent, the site with its slice,
and 0 requests, 1 responses of agents, 2 probes, 3 responses of homes (11 R287, Table 11.1); 4 what the host sends through CXL.io,
which is performed in the order issued (16 R382). -/
def Event.channel (e : Event) : Option (Agent × Site × Nat × Nat) :=
  let on := fun (c : Nat) => e.arg.m.map fun m => (m.agent, m.site, m.site.slice m.line, c)
  let io : Option (Agent × Site × Nat × Nat) := some (.host, .hostProxy, 0, 4)
  match e.row with
  | .queueDoorbell => io
  | .ringTailWrite => io
  | .ringHeadWrite => io
  | .controlRegisterWrite => io
  | .windowWrite => io
  | .windowRead => io
  | .geth => on 0
  | .getu => on 0
  | .gett => on 0
  | .geto => on 0
  | .oph => on 0
  | .packMessage => on 0
  | .putp => on 0
  | .putt => on 0
  | .wb => on 1
  | .stripack => on 1
  | .flushack => on 1
  | .invack => on 1
  | .strip => on 2
  | .flush => on 2
  | .invMsg => on 2
  | .dataMsg => on 3
  | .cmpMsg => on 3
  | .doneMsg => on 3
  | _ => none

/-- Is an access of the host to device memory on its way to its home, or in progress there? -/
def State.hostPending (s : State) : Bool :=
  let theirs := fun (x : ReqKind × Msg) => x.2.agent == .host
  s.txns.any (fun t => (t.cause == .agent && t.req.agent == .host) || t.queued.any theirs) || s.buffered.any theirs ||
  s.moves.any (fun m => m.queued.any theirs) ||
  s.events.any fun e => (e.row == .putp || e.row == .geth) && e.arg.m.any fun m => m.agent == .host

/-- May event `i` take place: is no message sent before it on its channel still under way (11 R287), and no access through the
window in progress that a CXL.io access comes after (16 R382)? -/
def State.mayArrive (s : State) (i : Nat) : Bool :=
  match (s.events[i]?).bind Event.channel with
  | none => true
  | some c => !((s.events.take i).any fun e => e.channel == some c) && !(c.2.2.2 == 4 && s.hostPending)

/-- Everyone who may move next. -/
def State.movers (s : State) : List Turn :=
  (((List.range s.teams.length).filter s.canIssue).map Turn.team) ++
  ((List.range s.events.length).filter s.mayArrive).map Turn.event

/-- Who moves: `turn` if it names somebody, the only one who may, or a free choice (10 R264 to R266 give no order). -/
def State.pick (s : State) : Option Turn :=
  match s.turn with
  | some x => some x
  | none =>
    s.pickFrom 0 s.movers

/-- The host takes a pending interrupt's message, if a free choice says so: its vector may raise another (16 R385). -/
def State.deliverMsi (s : State) : State :=
  if s.msix = 0 then s else
  match Config.choose s.tick 4 9 with
  | 0 => s
  | v + 1 =>
    if !s.msix.getLsbD v then s else
    { s with msix := s.msix &&& ~~~(BitVec.ofNat 8 (2 ^ v)), msiSent := fput s.msiSent v (fget 0 s.msiSent v + 1) }

/-- The state a step starts its move in: the choice is spent, the counter of free values and the clock advance, caches may have
evicted, stack caches keep to their shares, interrupts may have been delivered, and queues are charged. -/
def State.begin (s : State) : State :=
  let s := s.evictSome.trimStacks.deliverMsi.charge
  { s with turn := none, tick := s.tick + 1, clock := s.clock + BitVec.ofNat 64 (Config.elapsed s.tick) }

/-- Team `k` takes its issue opportunity: no team waits on its account any more (04 R123). -/
def State.take (s : State) (k : Nat) : State :=
  { s with cur := k, teams := s.teams.map fun t => if t.owed.isEmpty then t else { t with owed := t.owed.filter (· != k) } }

end Sys2Proof.Machine
end

