-- ==== Sys2Proof/Machine/Scalar.lean ====
section
/-! DEFINITION. Scalar arithmetic: majors 0x01 to 0x06 of the uniform set (04 R94 to R97). -/

namespace Sys2Proof.Machine

/-- A register form: sd := op(s[sa], s[sb]); aux is MBZ (04 R95, 03 R80). -/
def scalarOp (f : UR) (op : Word64 → Word64 → Word64) (s : State) : Out :=
  writeScalar s f.sd (op (s.team.s f.sa) (s.team.s f.sb)) (wIf (f.aux != 0) wOPND)

/-- A shift or rotate amount: bits [5:0] (04 R95). -/
def amount (b : Word64) : Nat := b.toNat % 64

/-- An immediate form: sd := op(s[sd], imm) (04 R96). -/
def scalarImmOp (f : UI) (op : Word64 → Word64) (warn : Nat) (s : State) : Out :=
  writeScalar s f.sd (op (s.team.s f.sd)) warn

/-- A unary form: sd := op(s[sa]); sb and aux are MBZ (04 R97). -/
def scalarUnary (f : UR) (op : Word64 → Word64) (s : State) : Out :=
  writeScalar s f.sd (op (s.team.s f.sa)) (wIf (f.sb != 0 || f.aux != 0) wOPND)

/-- imm16 sign-extended and zero-extended. -/
def immS (f : UI) : Word64 := f.imm.signExtend 64
def immZ (f : UI) : Word64 := f.imm.setWidth 64

/-- A shift immediate's amount, and the fallback of its MBZ bits [15:6]. -/
def immShift (f : UI) : Nat := f.imm.toNat % 64
def immShiftWarn (f : UI) : Nat := wIf (64 ≤ f.imm.toNat) wOPND

/-- ADD (04 Table 4.1): low 64 bits. -/
def execScalarAdd (f : UR) (s : State) : Out := scalarOp f (· + ·) s

/-- SUB (04 Table 4.1): low 64 bits. -/
def execScalarSub (f : UR) (s : State) : Out := scalarOp f (· - ·) s

/-- MUL (04 Table 4.1): low 64 bits. -/
def execScalarMul (f : UR) (s : State) : Out := scalarOp f (· * ·) s

/-- MULH.i64 (04 Table 4.1). -/
def execMulhI64 (f : UR) (s : State) : Out := scalarOp f mulhS s

/-- MULH.n64 (04 Table 4.1). -/
def execMulhN64 (f : UR) (s : State) : Out := scalarOp f mulhU s

/-- DIV.i64 (04 Table 4.1). -/
def execDivI64 (f : UR) (s : State) : Out := scalarOp f quotS s

/-- DIV.n64 (04 Table 4.1). -/
def execDivN64 (f : UR) (s : State) : Out := scalarOp f quotU s

/-- REM.i64 (04 Table 4.1). -/
def execRemI64 (f : UR) (s : State) : Out := scalarOp f remS s

/-- REM.n64 (04 Table 4.1). -/
def execRemN64 (f : UR) (s : State) : Out := scalarOp f remU s

/-- MIN.i64 (04 Table 4.1). -/
def execMinI64 (f : UR) (s : State) : Out := scalarOp f minS s

/-- MIN.n64 (04 Table 4.1). -/
def execMinN64 (f : UR) (s : State) : Out := scalarOp f minU s

/-- MAX.i64 (04 Table 4.1). -/
def execMaxI64 (f : UR) (s : State) : Out := scalarOp f maxS s

/-- MAX.n64 (04 Table 4.1). -/
def execMaxN64 (f : UR) (s : State) : Out := scalarOp f maxU s

/-- The compare aux names (03 Table 3.9); 6 to 15 are reserved. -/
def icondOf (aux : BitVec 4) : ICond :=
  match aux.toNat with
  | 0 => .eq
  | 1 => .ne
  | 2 => .lt
  | 3 => .le
  | 4 => .ltu
  | _ => .leu

/-- ICMP (04 Table 4.1): 1 if the compare that aux names holds, else 0; a reserved code is an illegal instruction. -/
def execScalarIcmp (f : UR) (s : State) : Out :=
  checkedUni (Instr.scalarIcmp f).wf true s
    (writeScalar s f.sd (if (icondOf f.aux).holds (s.team.s f.sa) (s.team.s f.sb) then 1 else 0) 0)

/-- SEL (04 R95): s[sa] when the register that aux names is nonzero, else s[sb]. -/
def execScalarSel (f : UR) (s : State) : Out :=
  writeScalar s f.sd (if s.team.s (f.aux.setWidth 6) != 0 then s.team.s f.sa else s.team.s f.sb) 0

/-- AND (04 Table 4.1). -/
def execScalarAnd (f : UR) (s : State) : Out := scalarOp f (· &&& ·) s

/-- OR (04 Table 4.1). -/
def execScalarOr (f : UR) (s : State) : Out := scalarOp f (· ||| ·) s

/-- XOR (04 Table 4.1). -/
def execScalarXor (f : UR) (s : State) : Out := scalarOp f (· ^^^ ·) s

/-- ANDN (04 Table 4.1). -/
def execScalarAndn (f : UR) (s : State) : Out := scalarOp f (fun a b => a &&& ~~~b) s

/-- SHL (04 Table 4.1). -/
def execScalarShl (f : UR) (s : State) : Out := scalarOp f (fun a b => a <<< amount b) s

/-- SHR (04 Table 4.1). -/
def execScalarShr (f : UR) (s : State) : Out := scalarOp f (fun a b => a >>> amount b) s

/-- SRA (04 Table 4.1). -/
def execScalarSra (f : UR) (s : State) : Out := scalarOp f (fun a b => a.sshiftRight (amount b)) s

/-- ROL (04 Table 4.1). -/
def execScalarRol (f : UR) (s : State) : Out := scalarOp f (fun a b => a.rotateLeft (amount b)) s

/-- ADD with imm16 sign-extended (04 R96). -/
def execScalarAddImm (f : UI) (s : State) : Out := scalarImmOp f (fun a => a + immS f) 0 s

/-- MUL with imm16 sign-extended (04 R96). -/
def execScalarMulImm (f : UI) (s : State) : Out := scalarImmOp f (fun a => a * immS f) 0 s

/-- AND with imm16 zero-extended (04 R96). -/
def execScalarAndImm (f : UI) (s : State) : Out := scalarImmOp f (fun a => a &&& immZ f) 0 s

/-- OR with imm16 zero-extended (04 R96). -/
def execScalarOrImm (f : UI) (s : State) : Out := scalarImmOp f (fun a => a ||| immZ f) 0 s

/-- XOR with imm16 zero-extended (04 R96). -/
def execScalarXorImm (f : UI) (s : State) : Out := scalarImmOp f (fun a => a ^^^ immZ f) 0 s

/-- SHL with imm16 [5:0] (04 R96). -/
def execScalarShlImm (f : UI) (s : State) : Out := scalarImmOp f (fun a => a <<< immShift f) (immShiftWarn f) s

/-- SHR with imm16 [5:0] (04 R96). -/
def execScalarShrImm (f : UI) (s : State) : Out := scalarImmOp f (fun a => a >>> immShift f) (immShiftWarn f) s

/-- SRA with imm16 [5:0] (04 R96). -/
def execScalarSraImm (f : UI) (s : State) : Out := scalarImmOp f (fun a => a.sshiftRight (immShift f)) (immShiftWarn f) s

/-- MOVL (04 R96): the sign-extended imm16. -/
def execMovl (f : UI) (s : State) : Out := scalarImmOp f (fun _ => immS f) 0 s

/-- MOVH.h1 (04 R96): bits [31:16] replaced. -/
def execMovhH1 (f : UI) (s : State) : Out := scalarImmOp f (fun a => setField a 16 16 f.imm.toNat) 0 s

/-- MOVH.h2 (04 R96): bits [47:32] replaced. -/
def execMovhH2 (f : UI) (s : State) : Out := scalarImmOp f (fun a => setField a 32 16 f.imm.toNat) 0 s

/-- MOVH.h3 (04 R96): bits [63:48] replaced. -/
def execMovhH3 (f : UI) (s : State) : Out := scalarImmOp f (fun a => setField a 48 16 f.imm.toNat) 0 s

/-- MOV (04 R97). -/
def execScalarMov (f : UR) (s : State) : Out := scalarUnary f (fun a => a) s

/-- NOT (04 R97). -/
def execScalarNot (f : UR) (s : State) : Out := scalarUnary f (fun a => ~~~a) s

/-- POPC (04 R97). -/
def execScalarPopc (f : UR) (s : State) : Out := scalarUnary f (fun a => BitVec.ofNat 64 (popCount a)) s

/-- CLZ (04 R97). -/
def execScalarClz (f : UR) (s : State) : Out := scalarUnary f (fun a => BitVec.ofNat 64 (clzBits a)) s

/-- CTZ (04 R97). -/
def execScalarCtz (f : UR) (s : State) : Out := scalarUnary f (fun a => BitVec.ofNat 64 (ctzBits a)) s

/-- BREV (04 R97). -/
def execScalarBrev (f : UR) (s : State) : Out := scalarUnary f revBits s

end Sys2Proof.Machine
end

