-- ==== Sys2Proof/Machine/Control.lean ====
section
/-! DEFINITION. Branches, the divergence stack, calls, barriers, fences, pacing, traps, masks and CSR access: majors 0x07
and 0x10 to 0x19 of the uniform set (04 R102 to R131). -/

namespace Sys2Proof.Machine

/-! ### Branches (04 R107, R108) -/

/-- The team goes on at an address; the instruction has retired. -/
def State.jump (s : State) (pc : BitVec 64) (warn : Nat) : State :=
  s.withTeam { (s.team.warn warn).setPc pc with wait := .none, arr := false, prow := none }

/-- Target of a branch word: its address plus four times the signed offset (03 R70). -/
def ubTarget (t : Team) (f : UB) : BitVec 64 := t.pc + 4 * f.off.signExtend 64

/-- A branch taken or not. -/
def branch (f : UB) (taken : Bool) (warn : Nat) (s : State) : Out :=
  .next (s.jump (if taken then ubTarget s.team f else s.team.pc + 4) warn)

/-- BRA (04 R107); k is MBZ. -/
def execBra (f : UB) (s : State) : Out := branch f true (wIf (f.k != 0) wOPND) s

/-- The scalar register a BRC tests: s0 to s15. -/
def brcReg (f : UB) (s : State) : Word64 := s.team.s (f.k.setWidth 6)

/-- BRC.eqz (04 R107). -/
def execBrcEqz (f : UB) (s : State) : Out := branch f (brcReg f s == 0) 0 s

/-- BRC.nez. -/
def execBrcNez (f : UB) (s : State) : Out := branch f (brcReg f s != 0) 0 s

/-- BRC.ltz. -/
def execBrcLtz (f : UB) (s : State) : Out := branch f ((brcReg f s).slt 0) 0 s

/-- BRC.gez. -/
def execBrcGez (f : UB) (s : State) : Out := branch f (!(brcReg f s).slt 0) 0 s

/-- T of a BRV: the execute mask and the mask register k (04 R112). -/
def brvTaken (f : UB) (s : State) : Mask := s.team.exec &&& s.team.k f.k.toNat

/-- BRV.any (04 R113). -/
def execBrvAny (f : UB) (s : State) : Out := branch f (brvTaken f s != 0) 0 s

/-- BRV.all (04 R113). -/
def execBrvAll (f : UB) (s : State) : Out := branch f (brvTaken f s == s.team.exec) 0 s

/-- BRV.none (04 R113). -/
def execBrvNone (f : UB) (s : State) : Out := branch f (brvTaken f s == 0) 0 s

/-- A push unless its PC is the reconvergence address (04 R112). -/
def pushUnless (s : State) (e : DivEntry) (rp : BitVec 64) : Except Stop State :=
  if e.pc = rp then .ok s else s.pushDiv s.cur e

/-- `diverge` of 04 R112. -/
def State.diverge (s : State) (T : Mask) (tT : BitVec 64) (N : Mask) (tN rp : BitVec 64) : Except Stop State :=
  let t := s.team
  match (if rp = t.top.reconv then s.popDiv s.cur else .ok (s.withTeam (t.setPc rp))) with
  | .error e => .error e
  | .ok s =>
    match pushUnless s ⟨tN, N, rp⟩ rp with
    | .error e => .error e
    | .ok s => pushUnless s ⟨tT, T, rp⟩ rp

/-- BRV in split form (04 R112, Table 4.3). -/
def execBrv (f : UB) (s : State) : Out :=
  let t := s.team
  let E := t.exec
  let T := brvTaken f s
  let N := E &&& ~~~ t.k f.k.toNat
  let s' := s.withTeam { t with rp := noAddr, wait := .none }
  if t.rp = noAddr ∧ (E = 0 ∨ (T ≠ 0 ∧ N ≠ 0)) then .next (s.trap .illegal 0)
  else if E = 0 then .next (s'.jump t.rp 0)
  else if N = 0 then .next (s'.jump (ubTarget t f) 0)
  else if T = 0 then .next (s'.jump (t.pc + 4) 0)
  else finishStack s (s'.diverge T (ubTarget t f) N (t.pc + 4) t.rp)

/-- REC (04 R110); k is MBZ. -/
def execRecMark (f : UB) (s : State) : Out :=
  let t := s.team
  .next (s.retire { t with rp := ubTarget t f } (wIf (f.k != 0) wOPND))

/-- The fallback of nonzero must-be-zero bits of the issued word. -/
def iwMbz (s : State) (mask : Word32) : Nat := wIf (s.iw &&& mask != 0) wOPND

/-- A target in a scalar register; one that is not a multiple of 4 traps (04 R108). -/
def jumpReg (s : State) (k : BitVec 64 → Out) : Out :=
  let x := s.team.s (iwSa s)
  if x.toNat % 4 ≠ 0 then .next (s.trap .align 0) else k x

/-- JMPR sa (04 R108); sd, sb and aux are MBZ. -/
def execJmpr (s : State) : Out := jumpReg s fun x => .next (s.jump x (iwMbz s 0x3F03FF))

/-- JOIN (04 R114): at depth 1 an illegal instruction. -/
def execJoin (s : State) : Out :=
  if s.team.depthDiv ≤ 1 then .next (s.trap .illegal 0)
  else finishStack s ((s.withTeam ((s.team.warn (iwMbz s 0x3FFFFF)).advance 0)).popDiv s.cur)

/-! ### Calls (04 R116, R117) -/

/-- A call: the return address pushed, then the target. -/
def callTo (s : State) (target : BitVec 64) (warn : Nat) : Out :=
  match s.pushRet s.cur (s.team.pc + 4) with
  | .error e => .next (s.stopWith e)
  | .ok s' => .next (s'.jump target warn)

/-- CALL (04 R116); k is MBZ. -/
def execCall (f : UB) (s : State) : Out := callTo s (ubTarget s.team f) (wIf (f.k != 0) wOPND)

/-- CALLR sa (04 R108, R116). -/
def execCallr (s : State) : Out := jumpReg s fun x => callTo s x (iwMbz s 0x3F03FF)

/-- RET (04 R116): an empty return stack is an illegal instruction. -/
def execRet (s : State) : Out :=
  match s.team.ret with
  | [] => .next (s.trap .illegal 0)
  | pc :: _ =>
    match s.popRet s.cur with
    | .error e => .next (s.stopWith e)
    | .ok s' => .next (s'.jump pc (iwMbz s 0x3FFFFF))

/-- The pair a CALLV names and its checks 7 and 8: an even register below V, tags I64 or RAW (04 R117). -/
def callvReg (s : State) : Nat := (iwImm s).toNat % 128

/-- Do the tags of the CALLV pair suit? -/
def callvTags (s : State) : Bool := (run (callvReg s) 2).all (s.team.tagFits [14])

/-- Rows of the execute mask in which some register of a run is empty: a uniform reader waits for them (01 R23). -/
def Team.rowsFull (t : Team) (reg n : Nat) : Bool :=
  t.sweptRows.all fun w => (run reg n).all fun r => !t.rowEmpty r w

/-- The pass of CALLV (04 R117), after its checks: `T` goes to `t0`, the rest issue it again. -/
def State.callvPass (s : State) (T N : Mask) (t0 : BitVec 64) : Except Stop State :=
  let t := s.team
  let pc := t.pc
  if N = 0 then (s.withTeam (t.setPc t0)).pushRet s.cur (pc + 4)
  else
    match (if pc + 4 = t.top.reconv then s.popDiv s.cur else .ok (s.withTeam (t.setPc (pc + 4)))) with
    | .error e => .error e
    | .ok s =>
      match s.pushDiv s.cur ⟨pc, N, pc + 4⟩ with
      | .error e => .error e
      | .ok s =>
        match s.pushDiv s.cur ⟨t0, T, pc + 4⟩ with
        | .error e => .error e
        | .ok s => s.pushRet s.cur (pc + 4)

/-- CALLV va (04 R117). -/
def execCallv (s : State) : Out :=
  let t := s.team
  let r := callvReg s
  let warn := iwMbz s 0x3FFF80 ||| wIf (!callvTags s) wTAG
  if r % 2 ≠ 0 ∨ !t.inRange r 2 then .next (s.trap .operand 0)
  else if t.tagt && !callvTags s then .next (s.trap .operand 0)
  else if t.exec = 0 then .next (s.jump (t.pc + 4) warn)
  else if !t.rowsFull r 2 then .next (s.waitFor .row)
  else if t.lostRegs [r, r + 1] then .next (s.endMine 2 0 0)
  else
    let t := t.healRows [r, r + 1]
    let lanes := (List.range t.lanes).filter (inMask t.exec)
    let bad := lanes.filter fun n => (t.v64 r n).toNat % 4 != 0
    if !bad.isEmpty then .next (s.trap .align (maskOfList bad))
    else
      let t0 := t.v64 r (lanes.headD 0)
      let T := maskOfList (lanes.filter fun n => t.v64 r n == t0)
      finishStack s ((s.withTeam { t.warn warn with wait := .none }).callvPass T (t.exec &&& ~~~T) t0)

/-! ### Traps and pacing (04 R123, R130, R131) -/

/-- TRAP imm16 (04 R130): cause 9 with ARG the code; sd is MBZ. -/
def execTrapCode (s : State) : Out :=
  .next (s.trapWith .trapInstr 0 (iwImm s).toNat 0 true 4)

/-- RFT (04 R131): with H = 0 an illegal instruction. -/
def execRft (s : State) : Out :=
  let t := s.team
  if t.handler then .next (s.withTeam ((t.rft.warn (iwMbz s 0x3FFFFF)).advance 0)) else .next (s.trap .illegal 0)

/-- YIELD (04 R123): the team issues next when every other ready team of its core has had an opportunity. -/
def execYield (s : State) : Out :=
  let t := s.team
  let others := (s.teamsWith fun u => u.status == .resident && u.die == t.die && u.coreIdx == t.coreIdx).filter (· != s.cur)
  .next (s.retire { t with owed := others } (iwMbz s 0x3FFFFF))

/-! ### Fences and barriers (04 R104 to R106) -/

/-- FENCE (04 R104): kind in [5:4], scope in aux[2:0]; the other bits are MBZ. A kind of 0 and scopes 5 to 7 are
reserved. -/
def execFence (f : UR) (s : State) : Out :=
  let kind := (f.sb.extractLsb' 0 2).toNat
  let sc := (f.aux.extractLsb' 0 3).toNat
  let warn := wIf (f.sd != 0 || f.sa != 0 || f.sb.extractLsb' 2 4 != 0 || f.aux.extractLsb' 3 1 != 0) wOPND
  checkedUni (Instr.fence f).wf true s
    (let s := if kind = 2 ∨ kind = 3 then s.release s.cur sc else s
     let s := if kind = 1 ∨ kind = 3 then s.acquire s.cur sc else s
     .next (s.retire s.team warn))

/-- BAR (04 R105): it waits until every earlier instruction has retired: every producer has landed its rows, and the passes of
the matrix instructions are finished (07 R204, 15 R366). -/
def execBar (s : State) : Out :=
  if !s.team.matq.isEmpty then .next (s.waitFor .earlier) else .next (s.retire s.team.landAllRows (iwMbz s 0x3FFFFF))

/-- A team that can still arrive at a barrier: one that has ended counts as arrived for good (04 R106). -/
def Team.arrives (t : Team) : Bool :=
  match t.status with
  | .ended => false
  | .retired => false
  | .dead => false
  | _ => true

/-- The teams a barrier waits for: of cluster group `g`, or of die share `d`. -/
def State.groupTeams (s : State) (g : Nat) : List Nat := s.teamsWith fun t => t.group == g && t.arrives
def State.shareTeams (s : State) (d : Nat) : List Nat := s.teamsWith fun t => (s.group t.group).share == d && t.arrives

/-- The generation of a cluster group's barrier departs when every team has arrived. -/
def State.departGroup (s : State) (g : Nat) : State :=
  let x := s.group g
  if (s.groupTeams g).all fun k => x.arrivals.contains k
  then s.setGroup g { x with arrivals := [], gen := x.gen + 1 } else s

/-- The generation of a die share's barrier departs when every team has arrived. -/
def State.departShare (s : State) (d : Nat) : State :=
  let x := s.share d
  if (s.shareTeams d).all fun k => x.arrivals.contains k
  then s.setShare d { x with arrivals := [], gen := x.gen + 1 } else s

/-- What a barrier instruction does once the team's arrival is recorded: it waits while its generation stands, else it
departs with an acquire. -/
def barrierWait (s : State) (waiting : Bool) (w : Wait) (sc : Nat) : Out :=
  if waiting then .next (s.withTeam { s.team with wait := w, arr := true })
  else
    let s := s.acquire s.cur sc
    .next (s.retire s.team (iwMbz s 0x3FFFFF))

/-- CBAR (04 R106): the arrival is a release at cluster scope, the departure an acquire. -/
def execCbar (s : State) : Out :=
  let g := s.team.group
  if s.team.arr then barrierWait s ((s.group g).arrivals.contains s.cur) .cbar 1
  else
    let s := s.release s.cur 1
    let x := s.group g
    let s := (s.setGroup g { x with arrivals := x.arrivals ++ [s.cur] }).departGroup g
    barrierWait s ((s.group g).arrivals.contains s.cur) .cbar 1

/-- DBAR (04 R106), at die scope. -/
def execDbar (s : State) : Out :=
  let d := (s.group s.team.group).share
  if s.team.arr then barrierWait s ((s.share d).arrivals.contains s.cur) .dbar 2
  else
    let s := s.release s.cur 2
    let x := s.share d
    let s := (s.setShare d { x with arrivals := x.arrivals ++ [s.cur] }).departShare d
    barrierWait s ((s.share d).arrivals.contains s.cur) .dbar 2

/-! ### Masks (04 R119, R120) -/

/-- A mask field names k0 to k15; 16 to 63 is an illegal operand (03 check 7). -/
def maskField (x : BitVec 6) : Bool := decide (x.toNat < 16)

/-- A mask written, with the fallback of a write to k0 (03 Table 3.15). -/
def setMask (s : State) (kd : BitVec 6) (m : Mask) (warn : Nat) : State :=
  s.retire (s.team.setK kd.toNat m) (warn ||| wIf (kd == 0) wKZERO)

/-- SETM with two mask operands (04 R119); aux is unused and not MBZ (03 R80, Table 3.9). -/
def setm2 (f : UR) (op : Mask → Mask → Mask) (s : State) : Out :=
  checkedUni true (maskField f.sd && maskField f.sa && maskField f.sb) s
    (.next (setMask s f.sd (op (s.team.k f.sa.toNat) (s.team.k f.sb.toNat)) 0))

/-- SETM with one mask operand; kb is unused and not MBZ (03 Table 3.9). -/
def setm1 (f : UR) (op : Mask → Mask) (s : State) : Out :=
  checkedUni true (maskField f.sd && maskField f.sa) s (.next (setMask s f.sd (op (s.team.k f.sa.toNat)) 0))

/-- SETM with no mask operand; ka and kb are unused and not MBZ (03 Table 3.9). -/
def setm0 (f : UR) (m : Mask) (s : State) : Out :=
  checkedUni true (maskField f.sd) s (.next (setMask s f.sd m 0))

/-- SETM.and (04 R119). -/
def execSetmAnd (f : UR) (s : State) : Out := setm2 f (· &&& ·) s

/-- SETM.or. -/
def execSetmOr (f : UR) (s : State) : Out := setm2 f (· ||| ·) s

/-- SETM.xor. -/
def execSetmXor (f : UR) (s : State) : Out := setm2 f (· ^^^ ·) s

/-- SETM.andn: ka and not kb. -/
def execSetmAndn (f : UR) (s : State) : Out := setm2 f (fun a b => a &&& ~~~b) s

/-- SETM.not. -/
def execSetmNot (f : UR) (s : State) : Out := setm1 f (fun a => ~~~a) s

/-- SETM.mov. -/
def execSetmMov (f : UR) (s : State) : Out := setm1 f (fun a => a) s

/-- SETM.all: all L lanes. -/
def execSetmAll (f : UR) (s : State) : Out := setm0 f (allLanes s.team.lanes) s

/-- SETM.none. -/
def execSetmNone (f : UR) (s : State) : Out := setm0 f 0 s

/-- GETM kd, va (04 R120): the lanes of the execute mask whose 32-bit element is nonzero. -/
def execGetm (f : UI) (s : State) : Out :=
  let t := s.team
  let r := f.imm.toNat % 128
  checkedUni true (maskField f.sd && t.inRange r 1) s
    (if !t.rowsFull r 1 then .next (s.waitFor .row)
     else if t.lostRegs [r] then .next (s.endMine 2 0 0)
     else .next (setMask (s.withTeam (t.healRows [r])) f.sd (maskOf t.lanes fun n => inMask t.exec n && t.v r n != 0)
       (wIf (128 ≤ f.imm.toNat) wOPND)))

/-! ### CSR access (04 R121, R122) -/

/-- The CSR number of a CSRR or CSRW; bits [15:12] are MBZ. -/
def csrNum (f : UI) : Nat := f.imm.toNat % 4096
def csrMbz (f : UI) : Nat := wIf (4096 ≤ f.imm.toNat) wOPND

/-- CSRR (04 R121); a number that is not assigned is an illegal instruction. -/
def execCsrr (f : UI) (s : State) : Out :=
  checkedUni (Instr.csrr f).wf true s (writeScalar s f.sd (csrRead s.team s.clock (csrNum f)) (csrMbz f))

/-- CSRW (04 R121); the values a CSR refuses trap (01 R28, R36, 02 R60, 07 R212, R235). -/
def execCsrw (f : UI) (s : State) : Out :=
  checkedUni (Instr.csrw f).wf true s
    (match csrWrite s.team (csrNum f) (s.team.s f.sd) with
     | .error c => .next (s.trap c 0)
     | .ok t => .next (s.retire t (csrMbz f)))

/-- FCTL_RESEED (02 R59, R60): the part of a CSRW of FCTL with RS = 1: every lane seeded from the SEED just written, in
the team the operand names. -/
def execFctlReseed (s : State) : Out :=
  let t := s.teamAt s.arg.a
  .next (s.setTeam s.arg.a (t.reseed (t.fctl.extractLsb' 32 32)))

end Sys2Proof.Machine
end

