-- ==== Sys2Proof/Machine/LaneConv.lean ====
section
/-! DEFINITION. Conversions: `CVT` and `CVTMX`, majors 0x16 and 0x17 of the lane set (05 R153 to R155, 02 R43 to R52),
with the element packing of 02 R50. -/

namespace Sys2Proof.Machine

/-- Bits of an element of a format code (02 Table 2.10); FP6 elements keep their two unused bits apart. -/
def codeBits (c : Nat) : Nat :=
  match c with
  | 2 | 14 => 64
  | 1 | 13 => 32
  | 3 | 4 | 12 => 16
  | 7 | 8 => 6
  | 9 => 4
  | _ => 8

/-- Twice the density of a code: elements per 32-bit lane (05 R153). -/
def density2 (c : Nat) : Nat :=
  match c with
  | 2 | 14 => 1
  | 1 | 13 => 2
  | 3 | 4 | 12 => 4
  | 9 => 16
  | _ => 8

/-- Elements an acting lane converts: N = max(1, density of S, density of D) (05 R153). -/
def cvtCount (s d : Nat) : Nat := max 2 (max (density2 s) (density2 d)) / 2

/-- Registers a side of code c occupies (05 R153). -/
def sideRegs (c n : Nat) : Nat := 2 * n / density2 c

/-- Where element e of a side lies: register offset and bit (05 R153, 02 R50). -/
def elemPlace (c e : Nat) : Nat × Nat :=
  let r := density2 c
  if r = 1 then (2 * e, 0) else (e / (r / 2), (e % (r / 2)) * (32 / (r / 2)))

/-- Element e of a side that starts at register v. -/
def Team.element (t : Team) (c v l e : Nat) : Nat :=
  let x := elemPlace c e
  if density2 c = 1 then (t.v64 (v + x.1) l).toNat else bitsAt (t.v (v + x.1) l).toNat x.2 (codeBits c)

/-- The registers of a side holding elements given in order; unused bits are zero (02 R50). -/
def sideWrites (c v n : Nat) (es : List Nat) : List (Nat × Word32) :=
  let words := (es.zipIdx).map fun x => let pl := elemPlace c x.2; (pl.1, x.1 * 2 ^ pl.2)
  (List.range (sideRegs c n)).map fun r =>
    (v + r, BitVec.ofNat 32 (if density2 c = 1 then
        (words.foldl (fun a x => if x.1 = r then a + x.2 else if x.1 + 1 = r then a + x.2 / 2 ^ 32 else a) 0)
      else words.foldl (fun a x => if x.1 = r then a + x.2 else a) 0))

/-- The floating-point format of a code. -/
def codeFmt (c : Nat) : Fmt :=
  match c with
  | 1 => fmtF32
  | 2 => fmtF64
  | 3 => fmtBF16
  | 4 => fmtF16
  | 5 => fmtE4M3
  | 6 => fmtE5M2
  | 7 => fmtE2M3
  | 8 => fmtE3M2
  | _ => fmtE2M1

/-- Codes 11 to 14 are integers, 5 to 9 narrow floating point, 3 and 4 the 16-bit formats. -/
def codeInt (c : Nat) : Bool := decide (11 ≤ c) && decide (c ≤ 14)
def codeNarrow (c : Nat) : Bool := decide (5 ≤ c) && decide (c ≤ 9)
def codeHalf (c : Nat) : Bool := c == 3 || c == 4

/-- An integer element's value. -/
def intElem (c : Nat) (unsigned : Bool) (x : Nat) : Int :=
  if !unsigned && x.testBit (codeBits c - 1) then (x : Int) - 2 ^ codeBits c else x

/-- The range of an integer code. -/
def intLo (c : Nat) (unsigned : Bool) : Int := if unsigned then 0 else -(2 ^ (codeBits c - 1))
def intHi (c : Nat) (unsigned : Bool) : Int := if unsigned then 2 ^ codeBits c - 1 else 2 ^ (codeBits c - 1) - 1

/-- An integer's bits in a code. -/
def intBits (c : Nat) (v : Int) : Nat := (v % 2 ^ codeBits c).toNat

/-- The value of an E8M0 byte: 2^(c - 127), or a quiet NaN (02 R46). -/
def e8m0Val (x : Nat) : FV := if x = 255 then .nan false else .fin false 1 ((x : Int) - 127)

/-- The exact value of a source element (02 R40, R42, R43, R46). -/
def cvtVal (s : Nat) (flush unsigned : Bool) (x : Nat) : FV :=
  if s = 10 then e8m0Val x
  else if codeInt s then let v := intElem s unsigned x; .fin (decide (v < 0)) v.natAbs 0
  else (codeFmt s).unpackFlush (flush && codeHalf s) x

/-- A value rounded once into a narrow format, with the edges of 02 Table 2.5. -/
def narrowWrite (fm : Fmt) (sat : Bool) (rnd : Rnd) (x : FV) : Nat × Fl :=
  match x with
  | .nan sig => (fm.qnan, if sig || fm.sp == .none then fNV else 0)
  | .inf n =>
    let s := if n then fm.signBit else 0
    if sat then (s + fm.maxBits, 0) else (s + fm.infBits, if fm.sp == .ieee then 0 else fNV)
  | .fin n m e => fm.round sat false rnd n m e false

/-- A value rounded once into a wide format: a NaN becomes canonical, with NV if signalling (02 R41, R42). -/
def wideWrite (d : Nat) (sat flush : Bool) (rnd : Rnd) (x : FV) : Nat × Fl :=
  let (b, fl) := (codeFmt d).write sat (flush && codeHalf d) rnd x
  (b, fl ||| if x.snan then fNV else 0)

/-- One element converted (05 Table 5.6). -/
def cvtElem (s d : Nat) (sat unsigned flush : Bool) (rnd : Rnd) (x : Nat) : Nat × Fl :=
  let v := cvtVal s flush unsigned x
  if s = d then (x, if !codeInt s && s != 10 && ((codeFmt s).unpack x).snan then fNV else 0)
  else if codeInt s && codeInt d then
    (intBits d (max (intLo d unsigned) (min (intHi d unsigned) (intElem s unsigned x))), 0)
  else if codeInt d then
    let (k, fl) := toIntRange rnd (intLo d unsigned) (intHi d unsigned) v
    (intBits d k, fl)
  else if codeNarrow d then narrowWrite (codeFmt d) sat rnd v
  else wideWrite d false flush rnd v

/-- Does a conversion produce its elements under the rounding mode? Bits copied and integers narrowed ignore it
(02 R57). -/
def cvtSteps (s d : Nat) : Bool := s != d && !(codeInt s && codeInt d)

/-- Elements converted in ascending order, the generator stepping per element (02 R59). -/
def convertAll (mode : Nat) (g : Word32) (f : Rnd → Nat → Nat × Fl) (xs : List Nat) : List Nat × Fl × Word32 :=
  match xs with
  | [] => ([], 0, g)
  | x :: r =>
    let y := roundElem mode g fun rnd => f rnd x
    let z := convertAll mode y.2 f r
    (y.1.1 :: z.1, y.1.2 ||| z.2.1, z.2.2)

/-- A lane's source elements. -/
def Team.elements (t : Team) (c v n l : Nat) : List Nat := (List.range n).map fun e => t.element c v l e

/-- A side of 64-bit codes starts even (05 R153). -/
def sideOk (c : Nat) (r : BitVec 7) : Bool := density2 c != 1 || r.toNat % 2 == 0

/-- `CVT`'s option bits: .sat [3], an MBZ bit [2], U [1] (03 Table 3.7). -/
def cvtSat (f : LR) : Bool := f.vb.getLsbD 2
def cvtMbz (f : LR) : Bool := f.vb.getLsbD 1
def cvtU (f : LR) : Bool := f.vb.getLsbD 0

/-- The fallbacks of `CVT` (03 Table 3.15). -/
def cvtWarn (s d : Nat) (f : LR) : Nat :=
  wIf (cvtMbz f) wOPND ||| wIf ((cvtSat f && !codeNarrow d) || (cvtU f && !codeInt s && !codeInt d)) wSAT

/-- CVT.d.s (05 R153, R154). -/
def execCvt (p : Option Pfx) (c : BitVec 3) (f : LR) (s : State) : Out :=
  let sc := cvtS f
  let dc := cvtD c f
  let n := cvtCount sc dc
  let d := f.vd.toNat
  let mode := if cvtSteps sc dc then rmode s.team p else 0
  runLane (pfxOk p && cvtCodesOk c f)
    (laneOp p [⟨f.va.toNat, sideRegs sc n, 1, [sc]⟩] d (sideRegs dc n) (sideOk sc f.va && sideOk dc f.vd) dc
      (pfxWarn p { wa := true, rnd := true } ||| cvtWarn sc dc f) fun t l =>
        let r := convertAll mode (t.g l) (fun rnd x => cvtElem sc dc (cvtSat f && codeNarrow dc) (cvtU f) t.f16z rnd x)
          (t.elements sc f.va.toNat n l)
        { regs := sideWrites dc d n r.1, fl := r.2.1, g := stepped mode r.2.2 }) s

/-! ### MX blocks (02 R46 to R52, 05 R155) -/

/-- The element exponent emax of `mx_scale` (02 R49). -/
def mxEmax (c : Nat) : Int :=
  match c with
  | 5 => 8
  | 6 => 15
  | 7 => 2
  | 8 => 4
  | 9 => 2
  | _ => 0

/-- Is |a| below |b|, for finite values? -/
def magBelow (a b : Nat × Int) : Bool :=
  let e := min a.2 b.2
  decide (a.1 * 2 ^ (a.2 - e).toNat < b.1 * 2 ^ (b.2 - e).toNat)

/-- `mx_scale`: the scale code of a block's source values (02 R49). -/
def mxScale (c : Nat) (vals : List FV) : Nat :=
  if vals.any fun x => x.isNan || x.isInf then 255
  else
    let mags := vals.filterMap fun x => match x with
      | .fin _ m e => if m = 0 then none else some (m, e)
      | _ => none
    match mags with
    | [] => 0
    | a :: r =>
      let top := r.foldl (fun b x => if magBelow b x then x else b) a
      (max 0 (min 254 (floorLog2 top.1 top.2 - mxEmax c + 127))).toNat

/-- A value times 2^k. -/
def FV.scale (x : FV) (k : Int) : FV :=
  match x with
  | .fin n m e => .fin n m (e + k)
  | y => y

/-- A value converted into an MX element of a block whose scale code is `sc` (02 R45, R48, R49). -/
def toMxElem (c sc : Nat) (rnd : Rnd) (x : FV) : Nat × Fl :=
  if sc = 255 then
    ((if c = 5 then 0x7F else if c = 6 then 0x7E else 0), if x.snan then fNV else 0)
  else
    let y := x.scale (127 - (sc : Int))
    if c = 11 then
      match y with
      | .nan _ => (0, fNV)
      | .inf n => (if n then 0x80 else 0x7F, 0)
      | .fin n m e =>
        let (k, inexact) := roundAt rnd n m (e + 6) false 0
        let v := sgn n k
        if v < -128 then (0x80, fOF ||| fNX) else if 127 < v then (0x7F, fOF ||| fNX)
        else ((v % 256).toNat, if inexact then fNX else 0)
    else narrowWrite (codeFmt c) true rnd y

/-- The value of an MX element before its scale (02 R47, R48). -/
def mxElemVal (c x : Nat) : FV :=
  if c = 11 then let v := intElem 11 false x; .fin (decide (v < 0)) v.natAbs (-6) else (codeFmt c).unpack x

/-- An MX element multiplied by its block's scale and rounded once into code d (05 R155). -/
def fromMxElem (c d sc : Nat) (sat flush : Bool) (rnd : Rnd) (x : Nat) : Nat × Fl :=
  if sc = 255 then ((codeFmt d).qnan, 0)
  else wideWrite d sat flush rnd ((mxElemVal c x).scale ((sc : Int) - 127))

/-- Lanes per MX block: 4 for 4-bit elements, else 8 (02 Table 2.6a). -/
def mxLanes (c : Nat) : Nat := if c = 9 then 4 else 8

/-- The first lane of a lane's block (02 R52). -/
def mxFirst (c l : Nat) : Nat := l - l % mxLanes c

/-- Byte SB of a scale register in a lane (02 R52). -/
def Team.scaleByte (t : Team) (v l sb : Nat) : Nat := bitsAt (t.v v l).toNat (8 * sb) 8

/-- `CVTMX`'s selector: bits [2:1] of the word. -/
def mxSb (f : LR) : Nat := f.vb.toNat % 4

/-- The scale `CVTMX` computes for the block of a lane: over the source elements of the block's acting lanes. -/
def mxBlockScale (t : Team) (p : Option Pfx) (sc dc : Nat) (v n l : Nat) : Nat :=
  let first := mxFirst dc l
  let lanes := ((List.range (mxLanes dc)).map (first + ·)).filter (inMask (t.acting p))
  mxScale dc (lanes.flatMap fun k => (t.elements sc v n k).map fun x => cvtVal sc t.f16z false x)

/-- Does a swept row hold the acting first lane of a block, whose scale is then written? -/
def mxWritesScale (t : Team) (p : Option Pfx) (dc : Nat) : Bool :=
  (List.range t.lanes).any fun l => inMask (t.acting p) l && l % mxLanes dc == 0

/-- `CVTMX` in a lane; with bit [3] into MX, the scale goes to byte SB of vc in the block's first lane. -/
def cvtmxLane (p : Option Pfx) (sc dc : Nat) (f : LR) (mode : Nat) (t : Team) (l : Nat) : LaneOut :=
  let n := cvtCount sc dc
  let va := f.va.toNat
  let vc := pvc p
  let into := mxCode dc
  let make := into && cvtSat f
  let scale :=
    if make then mxBlockScale t p sc dc va n l
    else t.scaleByte vc (mxFirst (if into then dc else sc) l) (mxSb f)
  let r := convertAll mode (t.g l) (fun rnd x =>
    if into then toMxElem dc scale rnd (cvtVal sc t.f16z false x)
    else fromMxElem sc dc scale (cvtSat f) t.f16z rnd x) (t.elements sc va n l)
  { regs := sideWrites dc f.vd.toNat n r.1 ++
      (if make && l % mxLanes dc == 0 then [(vc, BitVec.ofNat 32 (putBits (t.v vc l).toNat (8 * mxSb f) 8 scale))] else [])
    fl := r.2.1, g := stepped mode r.2.2 }

/-- CVTMX.d.s (05 R155). vc is read under waiting; it must carry E8M0 unless the scale is written to it. -/
def execCvtmx (p : Option Pfx) (c : BitVec 3) (f : LR) (s : State) : Out :=
  let sc := cvtS f
  let dc := cvtD c f
  let n := cvtCount sc dc
  let make := mxCode dc && cvtSat f
  let mode := rmode s.team p
  let o := laneOp p [⟨f.va.toNat, sideRegs sc n, 1, [sc]⟩, ⟨pvc p, 1, 0, if make then [] else [10]⟩] f.vd.toNat
    (sideRegs dc n) (sideOk sc f.va && sideOk dc f.vd) dc
    (pfxWarn p { wa := true, rnd := true, vc := true }) fun _ _ => { regs := [] }
  runLane (pfxOk p && cvtmxCodesOk c f && p.isSome)
    { o with
      tags := o.tags ++ if make && mxWritesScale s.team p dc then [(pvc p, 10)] else []
      row := fun t w => lanesRow t p [(f.vd.toNat, sideRegs dc n)] (cvtmxLane p sc dc f mode t) w } s

end Sys2Proof.Machine
end

