-- ==== Sys2Proof/Machine/LaneVol.lean ====
section
/-! DEFINITION. Volume sampling and ray-box tests: majors 0x34 and 0x35 of the lane set (06 R197 to R201). -/

namespace Sys2Proof.Machine

/-- A volume descriptor's fields (06 R197). -/
structure Volume where
  base : Nat
  nx : Nat
  ny : Nat
  nz : Nat
  pitchY : Nat
  pitchZ : Nat
  bmode : Nat
  deriving DecidableEq, Repr

def volumeOf (x : Nat) : Volume :=
  { base := bitsAt x 0 57, nx := bitsAt x 64 16 + 1, ny := bitsAt x 80 16 + 1, nz := bitsAt x 96 16 + 1,
    pitchY := bitsAt x 128 32, pitchZ := bitsAt x 160 64, bmode := bitsAt x 224 2 }

/-- `fix`: an index under the border mode, none for OUT (06 R198). -/
def fixIndex (bmode : Nat) (i : Int) (n : Nat) : Option Nat :=
  match bmode with
  | 0 => if 0 ≤ i ∧ i < n then some i.toNat else none
  | 1 => some (max 0 (min i (n - 1))).toNat
  | _ => some (i % n).toNat

/-- Address of voxel (i, j, k). -/
def Volume.voxel (v : Volume) (i j k : Nat) : Nat := (v.base + 4 * i + v.pitchY * j + v.pitchZ * k) % 2 ^ 64

/-- A coordinate in units of 2^-16, rounded down (06 R198). -/
def coord16 (x : FV) : Int :=
  match x with
  | .fin n m e => if 0 ≤ e + 16 then sgn n (m * 2 ^ (e + 16).toNat) else sgn n m / 2 ^ (-(e + 16)).toNat
  | _ => 0

/-- The corners a sample accesses: address and weight in units of 2^-48, or 2^0 for `.near`; corners of zero weight or
with an OUT index are left out (06 R198). -/
def Volume.corners (v : Volume) (tri : Bool) (x y z : Int) : List (Nat × Nat) :=
  (List.range (if tri then 8 else 1)).filterMap fun c =>
    let axis := fun (q : Int) (b : Nat) (n : Nat) =>
      if tri then
        let fr := (q % 65536).toNat
        ((if b = 1 then fr else 65536 - fr), fixIndex v.bmode (q / 65536 + b) n)
      else (1, fixIndex v.bmode ((q + 32768) / 65536) n)
    let ax := axis x (c % 2) v.nx
    let ay := axis y (c / 2 % 2) v.ny
    let az := axis z (c / 4) v.nz
    match ax.2, ay.2, az.2 with
    | some i, some j, some k =>
      let w := ax.1 * ay.1 * az.1
      if w = 0 then none else some (v.voxel i j k, w)
    | _, _, _ => none

/-- The exact sum of weighted voxels, rounded once (06 R198, Table 6.6). -/
def triSum (xs : List (Nat × FV)) : Nat × Fl :=
  let nans := xs.filter fun x => x.2.isNan
  if !nans.isEmpty then (fmtF32.qnan, if nans.any fun x => x.2.snan then fNV else 0) else
  match xs.map fun x => (fvMul (.fin false x.1 (-48)) x.2).1 with
  | [] => (0, 0)
  | a :: r =>
    let s := r.foldl (fun (y : FV × Fl) b => let z := fvAdd false y.1 b; (z.1, y.2 ||| z.2)) (a, 0)
    let w := fmtF32.write false false .rne s.1
    (w.1, s.2 ||| w.2)

/-- A lane's point: none when a coordinate is a NaN or infinite, with NV for a signalling NaN or an infinity (06 Table
6.6). -/
def samplePoint (t : Team) (vo l : Nat) : Option (Int × Int × Int) × Fl :=
  let c := (List.range 3).map fun i => fmtF32.unpack (t.v (vo + i) l).toNat
  if c.any fun x => x.isNan || x.isInf then (none, if c.any fun x => x.snan || x.isInf then fNV else 0)
  else (some (coord16 (c.getD 0 (.nan false)), coord16 (c.getD 1 (.nan false)), coord16 (c.getD 2 (.nan false))), 0)

/-- A lane's corners in ascending address: of several bytes at fault the lowest is reported (06 R168). -/
def byAddress (cs : List (Nat × Nat)) : List (Nat × Nat) :=
  cs.foldr (fun c acc => (acc.takeWhile fun x => decide (x.1 < c.1)) ++ c :: acc.dropWhile fun x => decide (x.1 < c.1)) []

/-- The corners of a lane's sample. -/
def Volume.laneCorners (v : Volume) (tri : Bool) (t : Team) (vo l : Nat) : List (Nat × Nat) :=
  match (samplePoint t vo l).1 with
  | some (x, y, z) => v.corners tri x y z
  | none => []

/-- A lane's sample from the voxels at its corners, and its exceptions (06 R198, Table 6.6). -/
def Volume.sample (v : Volume) (tri : Bool) (t : Team) (vo : Nat) (voxel : Nat → Nat) (l : Nat) : Nat × Fl :=
  let q := samplePoint t vo l
  let cs := v.laneCorners tri t vo l
  if q.1.isNone then (fmtF32.qnan, q.2)
  else if tri then triSum (cs.map fun c => (c.2, fmtF32.unpack (voxel c.1)))
  else match cs with
    | c :: _ => (voxel c.1, 0)
    | [] => (0, 0)

/-- `VSAMP` (06 R197 to R199): the descriptor, then every voxel of every acting lane, checked; then the samples. -/
def vsamp (p : Option Pfx) (tri : Bool) (f : LM) (s : State) : Out :=
  let d := f.vd.toNat
  let vo := f.vo.toNat
  let pol := f.pol.toNat
  let o : LaneOp :=
    { p := p, srcs := [⟨vo, 3, 1, [1]⟩], dsts := [(d, 1)], tags := [(d, 1)], long := true, fp := true,
      warn := pfxWarn p { wa := true, reuse := true }, row := fun _ _ => ⟨[], [], []⟩ }
  memLane (pfxOk p) o s fun s =>
    let t := s.team
    let lanes := t.actors p
    let v := s.viaOf s.cur
    let a := (t.s f.sa).toNat
    if lanes = [] then s.finishMem o [(d, 1)] 0 fun _ => { regs := [] }
    else if a % 32 ≠ 0 then .next (s.trap .align (maskOfList lanes)) else
    match s.checkSpans v [(a, 32)] needR true pol with
    | .error e => .next (s.stopLane o e)
    | .ok dsp =>
      let (s1, bs) := (s.fillSpans v dsp).loadSpan s.cur dsp.flatten (preuse p)
      let vol := volumeOf (leNat bs)
      if vol.bmode = 3 then .next (s.trap .operand 0)
      else if vol.base % 4 ≠ 0 ∨ vol.pitchY % 4 ≠ 0 ∨ vol.pitchZ % 4 ≠ 0 then .next (s.trap .align (maskOfList lanes)) else
      let flat := lanes.flatMap fun l => byAddress (vol.laneCorners tri t vo l)
      match s1.checkSpans v (flat.map fun c => (c.1, 4)) needR true pol with
      | .error e => .next (s.stopLane o e)
      | .ok sp =>
        let (s2, xs) := (s1.fillSpans v sp).loadLanes ((flat.map (·.1)).zip sp) (preuse p)
        s2.finishMem o [(d, 1)] (spanWarn (dsp ++ sp) pol) fun l =>
          let r := vol.sample tri t vo (valueOf xs) l
          { regs := [(d, BitVec.ofNat 32 r.1)], fl := r.2 }

/-- VSAMP.near (06 R198). -/
def execVsampNear (p : Option Pfx) (f : LM) (s : State) : Out := vsamp p false f s

/-- VSAMP.tri (06 R198). -/
def execVsampTri (p : Option Pfx) (f : LM) (s : State) : Out := vsamp p true f s

/-! ### Ray-box tests (06 R200, R201) -/

/-- The bits of -infinity, and a step of the test in FP32, always RNE, its flags not raised (06 R201). -/
def negInf32 : Nat := 0xFF800000
def posInf32 : Nat := 0x7F800000
def rayStep (op : FOp) (a b : Nat) : Nat := (op fmtF32 false .rne a b 0).1

/-- One axis: its lo and hi, none when the axis is ignored. -/
def rayAxis (mn mx o i : Nat) : Option (Nat × Nat) :=
  let t1 := rayStep opFmul (rayStep opFsub mn o) i
  let t2 := rayStep opFmul (rayStep opFsub mx o) i
  if (fmtF32.unpack t1).isNan || (fmtF32.unpack t2).isNan then none
  else some (rayStep (opMinMax false) t1 t2, rayStep (opMinMax true) t1 t2)

/-- The entry and exit distances of a ray against a box (06 R201). -/
def rayBox (box ray : List Nat) : (Nat × Nat) × Fl :=
  let vals := (box ++ ray).map fmtF32.unpack
  if vals.any FV.isNan then ((fmtF32.qnan, fmtF32.qnan), if vals.any FV.snan then fNV else 0) else
  let axes := (List.range 3).filterMap fun a =>
    rayAxis (box.getD a 0) (box.getD (3 + a) 0) (ray.getD a 0) (ray.getD (3 + a) 0)
  let tn := axes.foldl (fun x y => rayStep (opMinMax true) x y.1) negInf32
  let tf := axes.foldl (fun x y => rayStep (opMinMax false) x y.2) posInf32
  ((rayStep (opMinMax true) tn 0, tf), 0)

/-- The six words of a box. -/
def boxWords (x : Nat) : List Nat := (List.range 6).map fun i => bitsAt x (32 * i) 32

/-- `RBOX`: one box for every lane, or a box by the index in vd (06 R200). -/
def rboxLane (p : Option Pfx) (idx : Bool) (f : LM) (s : State) : Out :=
  let d := f.vd.toNat
  let vo := f.vo.toNat
  let pol := f.pol.toNat
  let o : LaneOp :=
    { p := p, srcs := ⟨vo, 6, 1, [1]⟩ :: (if idx then [⟨d, 1, 2, [13]⟩] else []), dsts := [(d, 2)], aligned := d % 2 == 0,
      tags := if idx then [(d + 1, 1)] else tagRun d 2 1, more := if idx then [(d, 1)] else [], long := true, fp := true,
      warn := pfxWarn p { wa := true, wb := idx, reuse := true }, row := fun _ _ => ⟨[], [], []⟩ }
  memLane (pfxOk p) o s fun s =>
    let t := s.team
    let lanes := t.actors p
    let a := fun (l : Nat) => (t.s f.sa + BitVec.ofNat 64 (if idx then 32 * (t.v d l).toNat else 0)).toNat
    if misaligned lanes 32 a != 0 then .next (s.trap .align (misaligned lanes 32 a)) else
    match s.checkSpans (s.viaOf s.cur) (lanes.map fun l => (a l, 32)) needR true pol with
    | .error e => .next (s.stopLane o e)
    | .ok sp =>
      let (s1, xs) := (s.fillSpans (s.viaOf s.cur) sp).loadLanes (lanes.zip sp) (preuse p)
      s1.finishMem o [(d, 2)] (spanWarn sp pol) fun l =>
        let r := rayBox (boxWords (valueOf xs l)) ((List.range 6).map fun i => (t.v (vo + i) l).toNat)
        { regs := [(d, BitVec.ofNat 32 r.1.1), (d + 1, BitVec.ofNat 32 r.1.2)], fl := r.2 }

/-- RBOX (06 R200). -/
def execRbox (p : Option Pfx) (f : LM) (s : State) : Out := rboxLane p false f s

/-- RBOX.idx (06 R200). -/
def execRboxIdx (p : Option Pfx) (f : LM) (s : State) : Out := rboxLane p true f s

end Sys2Proof.Machine
end

