-- ==== Sys2Proof/Machine/Copy.lean ====
section
/-! DEFINITION. Copy commands, their batches and the engines that perform them: majors 0x24 to 0x27 of the uniform set (07
R219 to R226), multigrid transfers (13 R331 to R344). -/

namespace Sys2Proof.Machine

/-! ### Batches (07 R220, R221) -/

/-- Does a batch of a team still hold a command? -/
def State.batchBusy (s : State) (k : Nat) (b : BitVec 32) : Bool := s.copies.any fun c => c.team == k && c.batch == some b

/-- DONE over an unbroken run of complete batches (07 R221). -/
def State.runDone (s : State) (k fuel : Nat) (done : BitVec 32) : BitVec 32 :=
  match fuel with
  | 0 => done
  | n + 1 => if s.batchBusy k (done + 1) then done else s.runDone k n (done + 1)

/-- BATCH_COMPLETE: `BATCH`.DONE of a team advances; an ended team may then retire (07 R231). -/
def State.advanceBatches (s : State) (k : Nat) : State :=
  let t := s.teamAt k
  let d := s.runDone k (t.closed - t.done).toNat t.done
  if d = t.done then s else
  let s := s.setTeam k { t with done := d }
  if t.status = .ended then s.post .teamRetire { a := k } else s

/-- The team's open commands closed into batch CLOSED + 1 (07 R221). -/
def State.closeBatch (s : State) (k : Nat) : State :=
  let t := s.teamAt k
  let b := t.closed + 1
  let s : State := { s with copies := s.copies.map fun c => if c.team = k ∧ c.batch = none then { c with batch := some b } else c }
  (s.setTeam k { t with closed := b }).advanceBatches k

/-- Does the team have commands in no batch yet? -/
def State.openCopies (s : State) (k : Nat) : Bool := s.copies.any fun c => c.team == k && c.batch == none

/-- CPYCLOSE sd (07 R221); sa and the engine field are MBZ. -/
def execCpyclose (s : State) : Out :=
  let b := s.team.closed + 1
  if s.team.s63Bad (iwSd s) (b.setWidth 64) then .next (s.trap .stackLimit 0) else
  let w := iwMbz s 0xFFFF
  let s := s.closeBatch s.cur
  .next (s.retire (s.team.setS (iwSd s) (b.setWidth 64)) w)

/-- CPYWAIT sa (07 R221): DONE - s[sa] as a signed number; its return is an acquire at die scope. -/
def execCpywait (s : State) : Out :=
  let t := s.team
  let b := (t.s (iwSa s)).setWidth 32
  if 0 < (b - t.closed).toInt then .next (s.trap .operand 0)
  else if (t.done - b).toInt < 0 then .next (s.waitFor .cpywait)
  else
    let w := iwMbz s 0x3F03FF
    let s := s.acquire s.cur 2
    .next (s.retire s.team w)

/-! ### Issue (07 R219, R223 to R225, 13 R332) -/

/-- The fallback of a scope on a command without acq and rel (03 Table 3.15). -/
def copyScopeWarn (acq rel : Bool) (sc : BitVec 3) : Nat := wIf (!acq && !rel && sc != 0) wSCOPE

/-- A command of the executing team with its common fields. -/
def State.newCopy (s : State) (kind : CopyKind) (acq rel : Bool) (sc : BitVec 3) : Copy :=
  { id := s.nextCopy, team := s.cur, launch := s.team.launch, die := s.team.die, asid := s.asid, group := s.team.group,
    kind := kind, scope := sc.toNat, acq := acq, rel := rel, batch := none, dst := 0, src := 0, len := 0, desc := 0,
    grids := 0, weights := [], members := [], seed := s.team.fctl.extractLsb' 32 32, pc := s.team.pc, held := none,
    phase := 0, wrote := [] }

/-- A command queued; an engine performs it at COPY_COMMAND_COMPLETE. -/
def State.queueCopy (s : State) (c : Copy) (warn : Nat) : State :=
  let s : State := { s with copies := s.copies ++ [c], nextCopy := s.nextCopy + 1 }
  let s := s.post .copyCommandComplete { a := c.id }
  s.retire s.team warn

/-- The start of each 64 KiB page that a range touches. -/
def pageStarts (va n : Nat) : List Nat :=
  if n = 0 then [] else va :: (List.range ((va + n - 1) / 65536 - va / 65536)).map fun i => (va / 65536 + 1 + i) * 65536

/-- The fallbacks of a destination policy, judged at issue: WIN on a window, PDN on a page present then that does not
allow it (03 Table 3.15). -/
def State.copyPolWarn (s : State) (va n pol : Nat) : Nat :=
  let hits := (pageStarts va n).filterMap fun a => match s.reach (s.viaOf s.cur) needW false pol a with
    | .hit h => some h
    | _ => none
  wIf (pol != 0 && hits.any fun h => !h.global) wWIN ||| wIf (hits.any fun h => h.pdn) wPDN

/-- CPY (07 R223): s[sl] bytes from s[sa] to s[sd]; a length of 0 completes at once, 2^36 or more traps. -/
def execCpy (sc : BitVec 3) (f : UE) (s : State) : Out :=
  let t := s.team
  let n := (t.s (f.eng.extractLsb' 4 6)).toNat
  let acq := f.eng.getLsbD 3
  let rel := f.eng.getLsbD 2
  let pol := (f.eng.extractLsb' 0 2).toNat
  checkedUni (Instr.cpy sc f).wf true s
    (if 2 ^ 36 ≤ n then .next (s.trap .operand 0) else
     let s := s.release s.cur 2
     let warn := copyScopeWarn acq rel sc ||| s.copyPolWarn (t.s f.sd).toNat n pol
     if n = 0 then .next (s.retire s.team warn) else
     .next (s.queueCopy { s.newCopy (.cpy pol) acq rel sc with dst := t.s f.sd, src := t.s f.sa, len := n } warn))

/-- A block of `n` bytes read by the issuing team as a wt load (13 R332). -/
def State.readBlock (s : State) (a n need : Nat) : Except Stop (State × Nat) :=
  match s.checkSpans (s.viaOf s.cur) [(a, n)] need true polWt with
  | .error e => .error e
  | .ok sp =>
    let r := (s.fillSpans (s.viaOf s.cur) sp).loadSpan s.cur sp.flatten 0
    .ok (r.1, leNat r.2)

/-- A block read, or what stops the instruction. -/
def withBlock (s : State) (a n need : Nat) (k : State → Nat → Out) : Out :=
  match s.readBlock a n need with
  | .error e => .next (s.stopWith e)
  | .ok (s', x) => k s' x

/-! ### Grids and weights (13 R335 to R337) -/

/-- A grid descriptor. -/
structure Grid where
  base : Nat
  n : Nat × Nat × Nat
  pitchY : Nat
  pitchZ : Nat
  fmt : Nat
  deriving DecidableEq, Repr

def gridOf (x : Nat) : Grid :=
  { base := bitsAt x 0 57, n := (bitsAt x 64 16 + 1, bitsAt x 80 16 + 1, bitsAt x 96 16 + 1), pitchY := bitsAt x 128 32,
    pitchZ := bitsAt x 160 64, fmt := bitsAt x 224 3 }

/-- Element size of a grid, and the format code of its elements. -/
def Grid.size (g : Grid) : Nat := [8, 4, 2, 2].getD g.fmt 8
def Grid.code (g : Grid) : Nat := [2, 1, 3, 4].getD g.fmt 2

/-- Address of element (i, j, k). -/
def Grid.elem (g : Grid) (i j k : Nat) : Nat := (g.base + g.size * i + g.pitchY * j + g.pitchZ * k) % 2 ^ 64

/-- BASE and the pitches are multiples of the element size. -/
def Grid.aligned (g : Grid) : Bool := g.base % g.size == 0 && g.pitchY % g.size == 0 && g.pitchZ % g.size == 0

/-- The size relation on one axis (13 R336). -/
def sizesOk (op bnd ns nd : Nat) : Bool :=
  let e := if bnd = 2 then 0 else 1
  if op ≤ 1 then ns + e == 2 * nd else if op ≤ 3 then nd + e == 2 * ns else ns == nd

/-- Does an operation use the weight table? -/
def mgWeights (op : Nat) : Bool := op == 1 || op == 2 || op == 3

/-- A weight word, as numerator and shift. -/
def weightWord (n sh : Nat) : Word32 := BitVec.ofNat 32 (n + sh * 2 ^ 16)

/-- The standard table: full weighting and trilinear interpolation (13 R337). -/
def standardWeights : List Word32 :=
  let h := fun (i : Nat) => if i = 1 then 2 else 1
  ((List.range 32).map fun w => if w < 27 then weightWord (h (w / 9) * h (w / 3 % 3) * h (w % 3)) 6 else 0) ++
  ((List.range 64).map fun w =>
    if (w % 8) &&& (7 - w / 8) = 0 then weightWord 1 (w / 8 % 2 + w / 16 % 2 + w / 32 % 2) else 0) ++
  List.replicate 32 0

/-- Region fields of a command descriptor (13 R333): origin and extents of an axis. -/
def regionOf (d axis : Nat) : Nat × Nat := (bitsAt d (192 + 16 * axis) 16, bitsAt d (240 + 16 * axis) 16 + 1)

/-- Sizes and region of step 6 of 13 R332. -/
def mgShapeOk (op bnd d : Nat) (gs gd : Grid) : Bool :=
  decide (gs.fmt < 4) && decide (gd.fmt < 4) &&
  sizesOk op bnd gs.n.1 gd.n.1 && sizesOk op bnd gs.n.2.1 gd.n.2.1 && sizesOk op bnd gs.n.2.2 gd.n.2.2 &&
  decide ((regionOf d 0).1 + (regionOf d 0).2 ≤ gd.n.1) && decide ((regionOf d 1).1 + (regionOf d 1).2 ≤ gd.n.2.1) &&
  decide ((regionOf d 2).1 + (regionOf d 2).2 ≤ gd.n.2.2)

/-- The 128 words of a weight table. -/
def weightsOf (x : Nat) : List Word32 := (List.range 128).map fun i => BitVec.ofNat 32 (bitsAt x (32 * i) 32)

/-- Steps 4 to 7 of 13 R332, after the weights are known. -/
def mgQueue (op bnd mode : Nat) (acq rel : Bool) (sc : BitVec 3) (da d xs xd : Nat) (ws : List Word32) (warn : Nat)
    (s : State) : Out :=
  let gs := gridOf xs
  let gd := gridOf xd
  if (decide (gs.fmt < 4) && !gs.aligned) || (decide (gd.fmt < 4) && !gd.aligned) then .next (s.trap .align 0)
  else if !mgShapeOk op bnd d gs gd then .next (s.trap .operand 0)
  else .next (s.queueCopy { s.newCopy (.mg op bnd mode) acq rel sc with
    src := BitVec.ofNat 64 da, desc := BitVec.ofNat 512 d, grids := BitVec.ofNat 512 (xs + xd * 2 ^ 256), weights := ws } warn)

/-- CPYMG (07 R224, 13 R331, R332): the checks in order, each read a wt load of the team after the release of R219. -/
def copyMg (op : Nat) (wf : Bool) (sc : BitVec 3) (f : UE7) (s : State) : Out :=
  let bnd := (f.eng.extractLsb' 5 2).toNat
  let rnd := (f.eng.extractLsb' 2 3).toNat
  let acq := f.eng.getLsbD 1
  let rel := f.eng.getLsbD 0
  let mode := if rnd = 6 then s.team.rm else rnd
  let da := (s.team.s f.sa).toNat
  let warn := copyScopeWarn acq rel sc ||| wIf (f.sd != 0) wOPND
  checkedUni wf true s
    (if da % 64 ≠ 0 then .next (s.trap .align 0) else
     withBlock (s.release s.cur 2) da 64 (needR ||| needW) fun s d =>
       let sg := bitsAt d 0 57
       let dg := bitsAt d 64 57
       let wt := bitsAt d 128 57
       if sg % 32 ≠ 0 ∨ dg % 32 ≠ 0 ∨ (mgWeights op ∧ wt % 64 ≠ 0) then .next (s.trap .align 0) else
       withBlock s sg 32 needR fun s xs =>
       withBlock s dg 32 needR fun s xd =>
       if mgWeights op ∧ wt ≠ 0 then
         withBlock s wt 512 needR fun s xw => mgQueue op bnd mode acq rel sc da d xs xd (weightsOf xw) warn s
       else mgQueue op bnd mode acq rel sc da d xs xd standardWeights warn s)

/-- CPYMG.inj (13 R331). -/
def execCpymgInj (sc : BitVec 3) (f : UE7) (s : State) : Out := copyMg 0 (Instr.cpymgInj sc f).wf sc f s

/-- CPYMG.fw (13 R331). -/
def execCpymgFw (sc : BitVec 3) (f : UE7) (s : State) : Out := copyMg 1 (Instr.cpymgFw sc f).wf sc f s

/-- CPYMG.pro (13 R331). -/
def execCpymgPro (sc : BitVec 3) (f : UE7) (s : State) : Out := copyMg 2 (Instr.cpymgPro sc f).wf sc f s

/-- CPYMG.proadd (13 R331). -/
def execCpymgProadd (sc : BitVec 3) (f : UE7) (s : State) : Out := copyMg 3 (Instr.cpymgProadd sc f).wf sc f s

/-- CPYMG.cvt (13 R331). -/
def execCpymgCvt (sc : BitVec 3) (f : UE7) (s : State) : Out := copyMg 4 (Instr.cpymgCvt sc f).wf sc f s

/-! ### CPYRED (07 R225, R226) -/

/-- Fields of a collective's descriptor. -/
def redCount (d : Nat) : Nat := bitsAt d 128 32
def redGroup (d : Nat) : BitVec 32 := BitVec.ofNat 32 (bitsAt d 192 32)
def redNm (d : Nat) : Nat := bitsAt d 232 8
def redRank (d : Nat) : Nat := bitsAt d 240 8

/-- Address of the array at a signed offset from SRC. -/
def redArray (d lo : Nat) : Nat := (BitVec.ofNat 64 (bitsAt d 0 64) + (BitVec.ofNat 32 (bitsAt d lo 32)).signExtend 64).toNat
def redSrc (d : Nat) : Nat := bitsAt d 0 64
def redDst (d : Nat) : Nat := redArray d 96
def redRes (d : Nat) : Nat := redArray d 64

/-- MX wire formats: 4 and 5 (03 Table 3.13). -/
def wireMx (w : Nat) : Bool := decide (4 ≤ w)

/-- Element code of a wire format. -/
def wireCode (w : Nat) : Nat := [1, 3, 5, 6, 5, 11].getD w 1

/-- The entries of a member table. -/
def membersOf (n x : Nat) : List (BitVec 64) := (List.range n).map fun i => BitVec.ofNat 64 (bitsAt x (64 * i) 64)

/-- Are SRC, DST and RES aligned to 4 bytes (07 R225)? -/
def redAligned (d : Nat) : Bool := redSrc d % 4 == 0 && redDst d % 4 == 0 && redRes d % 4 == 0

/-- The member table of a descriptor read, for the checks of 07 R225 in the order of 04 Table 4.6: a kind it does not know, then a
misaligned array, then what the read ends in. NM above 63, and any address of the table, are taken as they are (DESIGN CHOICE,
notes/assumptions/68.md). -/
def withMembers (s : State) (d : Nat) (k : State → List (BitVec 64) → Out) : Out :=
  match s.readBlock (bitsAt d 256 64) (8 * (redNm d + 1)) needR with
  | .error e => if redAligned d then .next (s.stopWith e) else .next (s.trap .align 0)
  | .ok (s', tab) =>
    let ms := membersOf (redNm d + 1) tab
    if ms.any fun m => 1 < field m 0 8 then .next (s'.trap .operand 0)
    else if !redAligned d then .next (s'.trap .align 0)
    else k s' ms

/-- CPYRED (07 R225): the descriptor and the member table are read, checked and captured. -/
def execCpyred (sc : BitVec 3) (f : UE) (s : State) : Out :=
  let wire := (f.eng.extractLsb' 6 4).toNat
  let acq := f.eng.getLsbD 1
  let rel := f.eng.getLsbD 0
  let da := (s.team.s f.sa).toNat
  let warn := copyScopeWarn acq rel sc ||| wIf (f.sd != 0 || f.eng.extractLsb' 2 4 != 0) wOPND
  checkedUni (Instr.cpyred sc f).wf true s
    (if da % 64 ≠ 0 then .next (s.trap .align 0) else
     withBlock (s.release s.cur 2) da 64 needR fun s d =>
       if redNm d < redRank d ∨ (wireMx wire ∧ redCount d % 32 ≠ 0) then .next (s.trap .operand 0) else
       withMembers s d fun s ms =>
         .next (s.queueCopy { s.newCopy (.red wire) acq rel sc with
           src := BitVec.ofNat 64 da, desc := BitVec.ofNat 512 d, members := ms } warn))

/-! ### Engines: accesses and how they stop (07 R219, R222, 12 R327) -/

/-- A command's engine as an accessor: it acts for its die's last-level cache. -/
def Copy.via (c : Copy) : Via := { asid := c.asid, die := c.die, idx := 0, engine := true, group := c.group }

/-- The command with a field changed. -/
def State.setCopy (s : State) (c : Copy) : State := { s with copies := s.copies.map fun x => if x.id = c.id then c else x }

/-- The engine tries the command again later. -/
def State.retryCopy (s : State) (c : Copy) : State := s.post .copyCommandComplete { a := c.id }

/-- What a stop of an engine's check does: a protection fault or lost data ends the launch, with the command's PC; at an
absent page the engine waits for the page; else it tries again (07 R222, 16 R390). -/
def State.copyStop (s : State) (c : Copy) (x : Stop) : State :=
  match x with
  | .prot va => s.endLaunch c.launch c.die 1 5 va c.pc.toNat
  | .page va entry level wr ex =>
    let (s, q) := s.addFault c.asid va entry level wr ex true [] [c.id]
    s.setCopy { c with held := some q }
  | .dead e va => s.endLaunch c.launch (e.die.getD c.die) e.ekind 0 va c.pc.toNat
  | .host line want => (s.askHost line want).retryCopy c
  | .full site line => (s.startEvict site line).retryCopy c
  | .back line => (s.askBack line).retryCopy c
  | _ => s.retryCopy c

/-- Bytes of checked spans read by an engine. -/
def State.engLoad (s : State) (v : Via) (sp : Span) : State × List Byte :=
  sp.foldl (fun (x : State × List Byte) p =>
    let s := x.1.lineAccess v p.1 p.2 false 0
    (s, x.2 ++ (List.range p.2).map fun i => s.loadByte v p.1 i)) (s, [])

/-- Bytes of a checked span written by an engine; a whole poisoned word written is clean again (15 R375). -/
def State.engStore (s : State) (v : Via) (sp : Span) (bs : List Byte) : State :=
  (sp.foldl (fun (x : State × List Byte) p =>
    let s := (x.1.lineAccess v p.1 p.2 true 0).storeBytes v p.1 0 (x.2.take p.2)
    (if p.1.global then s.clearPoison p.1.key p.2 else s, x.2.drop p.2)) (s, bs)).1

/-- Values read from several spans, by their number. -/
def State.engLoads (s : State) (v : Via) (sps : List Span) : State × List Nat :=
  sps.foldl (fun (x : State × List Nat) sp => let r := x.1.engLoad v sp; (r.1, x.2 ++ [leNat r.2])) (s, [])

/-- Values of `n` bytes written to several spans. -/
def State.engStores (s : State) (v : Via) (n : Nat) (xs : List (Span × Nat)) : State :=
  xs.foldl (fun (s : State) x => s.engStore v x.1 (leBytes n x.2)) s

/-- A command is complete: si bytes it left in its die's last-level cache are written back, and its batch may be complete
(07 R219, R221). -/
def State.copyDone (s : State) (c : Copy) : State :=
  let ls := (s.lines.filter fun x => x.agent == .llc c.die && x.siDirty != 0).map (·.line)
  let s := ls.foldl (fun (s : State) l => s.writeBackLlc c.die l) s
  let s : State := { s with copies := s.copies.filter fun x => x.id != c.id }
  s.advanceBatches c.team

/-- What a command writes of its destination: the pieces it has written before with the values its record keeps, and new ones
(07 R222, 13 R344). -/
def Copy.again (c : Copy) (new : List (Nat × Nat)) : List (Nat × Nat) := c.wrote ++ new.drop c.wrote.length

/-- A command that a link or engine error stopped with `k` pieces of its destination written: its record keeps them, and the
engine performs it again. -/
def State.copyCut (s : State) (c : Copy) (k : Nat) (ps : List (Nat × Nat)) : State :=
  let c : Copy := { c with wrote := if c.wrote.length < k then ps.take k else c.wrote }
  (s.setCopy c).retryCopy c

/-- The first `k` bytes of a span. -/
def takeSpan (sp : Span) (k : Nat) : Span :=
  match sp with
  | [] => []
  | (h, n) :: r => if k = 0 then [] else if n ≤ k then (h, n) :: takeSpan r (k - n) else [(h, k)]

/-- Does a link or engine error stop the engine, and after how many pieces of the destination: operand `b` of
COPY_COMMAND_COMPLETE, plus 1? -/
def State.cutAt (s : State) (n : Nat) : Option Nat := if s.arg.b = 0 ∨ n < s.arg.b then none else some (s.arg.b - 1)

/-- A CPY performed (07 R223): every source byte, then every destination byte. -/
def State.runCpy (s : State) (c : Copy) (pol : Nat) : State :=
  let v := c.via
  match s.checkSpans v [(c.src.toNat, c.len)] needR true polWt, s.checkSpans v [(c.dst.toNat, c.len)] needW false pol with
  | .error e, _ => s.copyStop c e
  | _, .error e => s.copyStop c e
  | .ok a, .ok b =>
    let r := ((s.fillSpans v a).fillSpans v b).engLoad v a.flatten
    let ps := c.again (r.2.map fun x => (x.toNat, 0))
    let bs := ps.map fun p => BitVec.ofNat 8 p.1
    match s.cutAt c.len with
    | some k => (r.1.engStore v (takeSpan b.flatten k) bs).copyCut c k ps
    | none => (r.1.engStore v b.flatten bs).copyDone c

/-! ### Multigrid transfers (13 R338 to R341) -/

/-- A source point under the boundary mode; none when an index is absent. -/
def fixPoint (bnd : Nat) (n : Nat × Nat × Nat) (x y z : Int) : Option (Nat × Nat × Nat) :=
  match fixIndex bnd x n.1, fixIndex bnd y n.2.1, fixIndex bnd z n.2.2 with
  | some i, some j, some k => some (i, j, k)
  | _, _, _ => none

/-- A weight N x 2^-SH. -/
def weightVal (w : Word32) : FV :=
  let n := (w.extractLsb' 0 16).toInt
  .fin (decide (n < 0)) n.natAbs (-(bitsAt w.toNat 16 6 : Int))

/-- A term of a point: weight, and the element of the source grid (13 R339); terms of weight 0 or with an absent index
are dropped. -/
def mgTerms (op bnd : Nat) (ws : List Word32) (n : Nat × Nat × Nat) (x y z : Nat) : List (FV × (Nat × Nat × Nat)) :=
  let one : FV := .fin false 1 0
  match op with
  | 0 => [(one, (2 * x, 2 * y, 2 * z))]
  | 4 => [(one, (x, y, z))]
  | 1 => (List.range 27).filterMap fun w =>
    let wt := weightVal (ws.getD w 0)
    match fixPoint bnd n (2 * (x : Int) + (w % 3 : Nat) - 1) (2 * (y : Int) + (w / 3 % 3 : Nat) - 1) (2 * (z : Int) + (w / 9 : Nat) - 1) with
    | some p => if wt.isZero then none else some (wt, p)
    | none => none
  | _ => (List.range 8).filterMap fun m =>
    let q := x % 2 + 2 * (y % 2) + 4 * (z % 2)
    let wt := weightVal (ws.getD (32 + 8 * q + m) 0)
    match fixPoint bnd n (x / 2 + m % 2 : Nat) (y / 2 + m / 2 % 2 : Nat) (z / 2 + m / 4 : Nat) with
    | some p => if wt.isZero then none else some (wt, p)
    | none => none

/-- A weight times a value, for a nonzero weight. -/
def wmul (w v : FV) : FV := (fvMul w v).1

/-- The value written for the terms of a point, with its flags (13 R340). -/
def mgSum (fm : Fmt) (rnd : Rnd) (xs : List FV) : Nat × Fl :=
  if xs.any FV.isNan then (fm.qnan, if xs.any FV.snan then fNV else 0)
  else if xs.any FV.isInf then
    if xs.contains (.inf false) && xs.contains (.inf true) then (fm.qnan, fNV)
    else ((if xs.contains (.inf true) then fm.signBit else 0) + fm.infBits, 0)
  else
    let neg0 := !xs.isEmpty && ((rnd == .rdn) || xs.all fun x => x.isZero && x.sign)
    match xs.foldl (fun a x => (fvAdd false a x).1) (.fin false 0 0) with
    | .fin n m e => if m = 0 then (if neg0 then fm.signBit else 0, 0) else fm.round false false rnd n m e false
    | y => fm.write false false rnd y

/-- A point of a transfer: destination index, terms, and their source addresses. -/
structure MgPoint where
  at_ : Nat × Nat × Nat
  terms : List (FV × Nat)

/-- The points of a region, x fastest. -/
def mgPoints (op bnd d : Nat) (gs : Grid) (ws : List Word32) : List MgPoint :=
  let rx := regionOf d 0
  let ry := regionOf d 1
  let rz := regionOf d 2
  (List.range rz.2).flatMap fun k => (List.range ry.2).flatMap fun j => (List.range rx.2).map fun i =>
    let p := (rx.1 + i, ry.1 + j, rz.1 + k)
    { at_ := p, terms := (mgTerms op bnd ws gs.n p.1 p.2.1 p.2.2).map fun t => (t.1, gs.elem t.2.1 t.2.2.1 t.2.2.2) }

/-- The result of a point from its source elements and, for `.proadd`, the old destination element (13 R340, R341). -/
def mgPoint (op mode : Nat) (seed : Word32) (gs gd : Grid) (p : MgPoint) (srcs : List Nat) (old : Nat) : Nat × Fl :=
  let ix := (p.at_.1 + gd.n.1 * (p.at_.2.1 + gd.n.2.1 * p.at_.2.2)) % 2 ^ 32
  let (rnd, _) := rndOf mode (genSeedOf seed ix)
  if op = 0 ∨ op = 4 then cvtElem gs.code gd.code false false false rnd (srcs.headD 0)
  else
    let vals := (p.terms.zip srcs).map fun x => wmul' x.1.1 ((codeFmt gs.code).unpack x.2)
    let vals := if op = 3 then vals ++ [(codeFmt gd.code).unpack old] else vals
    mgSum (codeFmt gd.code) rnd vals
where
  /-- A NaN keeps its kind under a weight. -/
  wmul' (w v : FV) : FV := if v.isNan then v else wmul w v

/-- A CPYMG performed (13 R338 to R344): every element read, every point formed and written, then STATUS. -/
def State.runMg (s : State) (c : Copy) (op bnd mode : Nat) : State :=
  let v := c.via
  let gs := gridOf (bitsAt c.grids.toNat 0 256)
  let gd := gridOf (bitsAt c.grids.toNat 256 256)
  let pts := mgPoints op bnd c.desc.toNat gs c.weights
  let outs := pts.map fun p => gd.elem p.at_.1 p.at_.2.1 p.at_.2.2
  let ins := pts.flatMap fun p => p.terms.map fun t => (t.2, gs.size)
  let stat := (c.src + 60).toNat
  match s.checkSpans v ins needR true polWt,
        s.checkSpans v (outs.map fun a => (a, gd.size)) (if op = 3 then needR ||| needW else needW) (op == 3) polWt,
        s.checkSpans v [(stat, 4)] needW false polWt with
  | .error e, _, _ => s.copyStop c e
  | _, .error e, _ => s.copyStop c e
  | _, _, .error e => s.copyStop c e
  | .ok a, .ok b, .ok st =>
    let s := ((s.fillSpans v a).fillSpans v b).fillSpans v st
    let (s, xs) := s.engLoads v a
    let (s, olds) := if op = 3 then s.engLoads v b else (s, [])
    let step := fun (y : List Nat × List Nat × List (Nat × Fl)) (p : MgPoint) =>
      let n := p.terms.length
      (y.1.drop n, y.2.1.drop 1, mgPoint op mode c.seed gs gd p (y.1.take n) (y.2.1.headD 0) :: y.2.2)
    let res := c.again (((pts.foldl step (xs, olds, [])).2.2.reverse).map fun x => (x.1, x.2.toNat))
    let out := b.zip (res.map (·.1))
    match s.cutAt pts.length with
    | some k => (s.engStores v gd.size (out.take k)).copyCut c k res
    | none =>
      let s := s.engStores v gd.size out
      let fl := res.foldl (fun a x => a ||| x.2) 0
      (s.engStore v st.flatten (leBytes 4 (2 ^ 31 + fl))).copyDone c

/-! ### Collectives (07 R226) -/

/-- x = SRC + RES, exact; -0 only when both are. -/
def redX (a b : Nat) : FV := (fvAdd false (fmtF32.unpack a) (fmtF32.unpack b)).1

/-- The wire codes of a run of elements: plain formats one by one, MX formats a scale byte and 32 elements a block. -/
def wireCodes (w : Nat) (xs : List FV) : Nat × List Nat :=
  let c := wireCode w
  if wireMx w then
    let sc := mxScale c xs
    (sc, xs.map fun x => (toMxElem c sc .rne x).1)
  else (0, xs.map fun x => if codeNarrow c then (narrowWrite (codeFmt c) true .rne x).1 else (wideWrite c false false .rne x).1)

/-- The value of a wire code. -/
def wireValue (w sc x : Nat) : FV :=
  let c := wireCode w
  if wireMx w then (if sc = 255 then .nan false else (mxElemVal c x).scale ((sc : Int) - 127)) else (codeFmt c).unpack x

/-- Elements that share a scale, or one element. -/
def chunks (n fuel : Nat) (xs : List α) : List (List α) :=
  match fuel with
  | 0 => []
  | f + 1 => if xs.isEmpty then [] else xs.take n :: chunks n f (xs.drop n)

/-- Bytes of one wire element. -/
def wireBytes (w : Nat) : Nat := [4, 2, 1, 1, 1, 1].getD w 4

/-- A block as its wire bytes: the scale of an MX block first. -/
def wireBlock (w : Nat) (q : Nat × List Nat) : List Byte :=
  (if wireMx w then leBytes 1 q.1 else []) ++ q.2.flatMap fun x => leBytes (wireBytes w) x

/-- The residual of an element (07 R226). -/
def redResidual (w sc : Nat) (x : FV) (q : Nat) : Nat :=
  let v := wireValue w sc q
  if x.isNan || x.isInf || (wireMx w && sc == 255) then 0
  else (fmtF32.write false false .rne (fvAdd false x v.neg).1).1

/-- The values of a contribution's bytes. -/
def wireValues (w count : Nat) (bs : List Byte) : List FV :=
  if wireMx w then
    (chunks 33 (count / 32 + 1) bs).flatMap fun b =>
      let sc := (b.headD 0).toNat
      (b.drop 1).map fun x => wireValue w sc x.toNat
  else (chunks (wireBytes w) count bs).map fun b => wireValue w 0 (leNat b)

/-- The exact sum over ranks of one element, rounded once (07 R226). -/
def redSum (xs : List FV) : Nat :=
  match xs with
  | [] => 0
  | a :: r => (fmtF32.write false false .rne (r.foldl (fun x y => (fvAdd false x y).1) a)).1

/-- Is a contribution one for this command's collective, at its die, addressed to its rank? -/
def Copy.hears (c : Copy) (x : Contribution) : Bool :=
  x.group == redGroup c.desc.toNat && x.die == c.die && x.target == redRank c.desc.toNat &&
  (match x.asid with
   | none => true
   | some a => a == c.asid) &&
  (match c.kind with
   | .red _ => true
   | _ => false)

/-- The wire format of a CPYRED. -/
def Copy.wire (c : Copy) : Nat :=
  match c.kind with
  | .red w => w
  | _ => 0

/-- Does a contribution match the command's NM, COUNT and wire format? -/
def Copy.matches (c : Copy) (x : Contribution) : Bool :=
  x.nm == redNm c.desc.toNat && x.count == redCount c.desc.toNat && x.wire == c.wire

/-- The contributions that wait for a command. -/
def State.heard (s : State) (c : Copy) : List Contribution := s.collected.filter c.hears

/-- Do two of them name one rank, or does one not match? -/
def mismatch (c : Copy) (xs : List Contribution) : Bool :=
  xs.any (fun x => !c.matches x) || (xs.map (·.rank)).eraseDups.length != xs.length

/-- The launch of a member of a mismatched collective ends with EKIND 8, VA its descriptor (07 R226). -/
def State.failRed (s : State) (c : Copy) : State :=
  let s : State := { s with collected := s.collected.filter fun x => !c.hears x }
  s.endLaunch c.launch c.die 8 0 c.src.toNat c.pc.toNat

/-- A member that has every contribution is tried again. -/
def State.checkRed (s : State) (c : Copy) : State :=
  let xs := s.heard c
  if mismatch c xs then s.failRed c
  else if xs.length = redNm c.desc.toNat + 1 then s.retryCopy c else s

/-- The first half of a CPYRED: x, its wire form and RES, and the contributions sent to every member of the table
(07 R226); a member that is a lost peer ends the launch (16 R392). -/
def State.formRed (s : State) (c : Copy) : State :=
  let d := c.desc.toNat
  let n := redCount d
  let v := c.via
  let w := c.wire
  let ports := (c.members.filter fun m => field m 0 8 == 1).map fun m => field m 16 8
  match ports.find? fun p => (s.peerPorts p [0, 1, 2, 3]).isEmpty with
  | some p => s.endLaunch c.launch c.die 2 0 (peerBase + p % 8 * 2 ^ 44) c.pc.toNat
  | none =>
  match s.checkSpans v [(redSrc d, 4 * n)] needR true polWt,
        s.checkSpans v [(redRes d, 4 * n)] (needR ||| needW) true polWt with
  | .error e, _ => s.copyStop c e
  | _, .error e => s.copyStop c e
  | .ok a, .ok b =>
    let s := (s.fillSpans v a).fillSpans v b
    let (s, sb) := s.engLoad v a.flatten
    let (s, rb) := s.engLoad v b.flatten
    let get := fun bs => (chunks 4 n bs).map leNat
    let xs := List.zipWith redX (get sb) (get rb)
    let blocks := (chunks (if wireMx w then 32 else 1) n xs).map fun b => (b, wireCodes w b)
    let res := blocks.flatMap fun b => List.zipWith (redResidual w b.2.1) b.1 b.2.2
    let s := s.engStore v b.flatten (res.flatMap (leBytes 4))
    let bytes := blocks.flatMap fun b => wireBlock w b.2
    let s := (c.members.zipIdx).foldl (fun (s : State) m =>
      if field m.1 0 8 = 0 then
        s.post .cpyredContribution { con := some (⟨some c.asid, redGroup d, redRank d, redNm d, n, w, field m.1 8 8, m.2, bytes⟩ : Contribution) }
      else s.peerSend (field m.1 16 8) 0) s
    let c := { c with phase := 1 }
    (s.setCopy c).checkRed c

/-- The second half: DST from every member's values, and the command is complete. -/
def State.sumRed (s : State) (c : Copy) : State :=
  let d := c.desc.toNat
  let n := redCount d
  let v := c.via
  let xs := s.heard c
  if xs.length ≠ redNm d + 1 then s else
  match s.checkSpans v [(redDst d, 4 * n)] needW false polWt with
  | .error e => s.copyStop c e
  | .ok b =>
    let vals := xs.map fun x => (wireValues x.wire n x.bytes).toArray
    let out := (List.range n).map fun i => redSum (vals.map fun a => a.getD i (.fin false 0 0))
    let s := (s.fillSpans v b).engStore v b.flatten (out.flatMap (leBytes 4))
    let s : State := { s with collected := s.collected.filter fun x => !c.hears x }
    s.copyDone c

/-- CPYRED_CONTRIBUTION (07 R226): a contribution reaches its member's die; a member that has formed its own checks it at
once. -/
def execCpyredContribution (s : State) : Out :=
  match s.arg.con with
  | none => .next s
  | some x =>
    let s : State := { s with collected := s.collected ++ [x] }
    match s.copies.find? fun c => c.phase == 1 && c.hears x with
    | none => .next s
    | some c => .next (s.checkRed c)

/-- COPY_COMMAND_COMPLETE (07 R219, R222): an engine of its die that is ready (16 R390) performs the command; one
that waits for a page does nothing. -/
def execCopyCommandComplete (s : State) : Out :=
  match s.copies.find? fun c => c.id == s.arg.a with
  | none => .next s
  | some c =>
    if c.held.isSome then .next s
    else if field (s.creg 0x18) (8 * c.die) 8 = 0 then .next (s.retryCopy c)
    else match c.kind with
    | .cpy pol => .next (s.runCpy c pol)
    | .mg op bnd mode => .next (s.runMg c op bnd mode)
    | .red _ => .next (if c.phase = 0 then s.formRed c else s.sumRed c)

end Sys2Proof.Machine
end

