-- ==== Sys2Proof/Machine/Matrix.lean ====
section
/-! DEFINITION. The matrix instructions MMA, MMAG, MDRAIN and MZERO, the rendezvous latch of a gang, and the end of a
matrix operation's passes (07 R203 to R218). -/

namespace Sys2Proof.Machine

/-! ### Fields (03 Tables 3.10 and 3.12) -/

def mmSb (sb : BitVec 3) : BitVec 2 := sb.extractLsb' 1 2
def mmA (f : UE) : Nat := 2 * f.sd.toNat
def mmB (f : UE) : Nat := 2 * f.sa.toNat
def mmS (f : UE) : Nat := (f.eng.extractLsb' 6 4).toNat
def mmT (f : UE) : Bool := f.eng.getLsbD 5
def mmSet (f : UE) : Nat := (f.eng.extractLsb' 4 1).toNat
def mmFmt (f : UE) : Nat := (f.eng.extractLsb' 0 4).toNat

/-- Formats whose operands are not sliced: one pass, slice fields ignored (07 Table 7.3). -/
def fmtPlain (fmt : Nat) : Bool := decide (3 ≤ fmt) && decide (fmt ≤ 13)

/-- Registers of the A fragment and of the B fragment. -/
def mmCa (f : UE) (lanes : Nat) : Nat := fragRegs (tagWidth (fmtTagA (mmFmt f))) lanes
def mmCb (f : UE) (lanes : Nat) : Nat := fragRegs (tagWidth (fmtTagB (mmFmt f))) lanes

/-- Registers read for A and for B, the scale register directly after the fragment included (07 R206). -/
def mmNa (f : UE) (lanes : Nat) : Nat := mmCa f lanes + (if fmtMx (mmFmt f) then 1 else 0)
def mmNb (f : UE) (lanes : Nat) : Nat := mmCb f lanes + (if fmtMx (mmFmt f) || fmtWeights (mmFmt f) then 1 else 0)

/-- Check 7 of 03 Table 3.14 on a matrix word: every register lies below V, and an operand with a scale register has one
register (07 R206, R207). -/
def mmRegsOk (f : UE) (t : Team) : Bool :=
  t.inRange (mmA f) (mmNa f t.lanes) && t.inRange (mmB f) (mmNb f t.lanes) &&
  (!fmtMx (mmFmt f) || (mmCa f t.lanes == 1 && mmCb f t.lanes == 1)) &&
  (!fmtWeights (mmFmt f) || mmCb f t.lanes == 1)

/-- Do the tags suit (07 Table 7.2)? -/
def mmTagsOk (f : UE) (t : Team) : Bool :=
  let fmt := mmFmt f
  let ca := mmCa f t.lanes
  let cb := mmCb f t.lanes
  (run (mmA f) ca).all (t.tagFits [fmtTagA fmt]) && (run (mmB f) cb).all (t.tagFits [fmtTagB fmt]) &&
  (!fmtMx fmt || (t.tagFits [10] (mmA f + ca) && t.tagFits [10] (mmB f + cb))) &&
  (!fmtWeights fmt || t.tagFits [3] (mmB f + cb))

/-- Fallbacks of an MMA or MMAG (03 Table 3.15): bit 22 is MBZ; slice fields of an unsliced format. -/
def mmWarn (sb : BitVec 3) (f : UE) (t : Team) : Nat :=
  wIf (sb.getLsbD 0) wOPND ||| wIf (fmtPlain (mmFmt f) && (mmS f != 1 || mmT f)) wSLICE ||| wIf (!mmTagsOk f t) wTAG

/-- The checks of an MMA or MMAG in order, and then the rest (03 R84, 07 R211). -/
def mmChecked (wf : Bool) (f : UE) (s : State) (k : Out) : Out :=
  checkedUni wf (mmRegsOk f s.team && !(s.team.tagt && !mmTagsOk f s.team)) s k

/-! ### The array and its holder (07 R203) -/

/-- Does another resident team of the core hold the array? -/
def State.arrayHeld (s : State) (k : Nat) : Bool :=
  let t := s.teamAt k
  !(s.teamsWith fun u => u.status == .resident && u.holder && u.die == t.die && u.coreIdx == t.coreIdx).all (· == k)

/-- The holder gives the array up when both sets are EMPTY and none of its matrix instructions is in flight. -/
def Team.releaseArray (t : Team) : Team :=
  if t.acc0.active || t.acc1.active || !t.matq.isEmpty then t else { t with holder := false }

/-- Are all rows of a run full, whatever the execute mask (07 R208)? -/
def Team.allRowsFull (t : Team) (regs : List Nat) : Bool := t.rows.all fun w => regs.all fun r => !t.rowEmpty r w

/-! ### Operands (07 R205, R206, R210) -/

/-- The words of a run of registers over every lane, as captured from index `base` on. -/
def Team.captureRun (t : Team) (base reg n : Nat) : FMap Word32 :=
  ((List.range n).flatMap fun r => (List.range t.lanes).map fun l => ((base + r) * 1024 + l, t.v (reg + r) l)).filter
    fun x => x.2 != 0

/-- The A operand of a team's matrix word, and the B operand. -/
def Team.captureA (t : Team) (f : UE) : FMap Word32 := t.captureRun 0 (mmA f) (mmNa f t.lanes)
def Team.captureB (t : Team) (f : UE) : FMap Word32 := t.captureRun 512 (mmB f) (mmNb f t.lanes)

/-- The matrix operation of a word over captured operands. -/
def mmOp (gang : Bool) (sb : BitVec 3) (f : UE) (lanes : Nat) (captured : FMap Word32) : MatOp :=
  { gang := gang, fmt := BitVec.ofNat 4 (mmFmt f), slices := if fmtPlain (mmFmt f) then 1 else mmS f,
    tri := decide (mmFmt f ≤ 2) && mmT f, set := mmSet f, sb := mmSb sb, lanes := lanes, captured := captured }

/-- A matrix operation put into the array of team `k`, whose instruction retires; its passes end at MATRIX_COMPLETE
(07 R210, 08 R241). -/
def State.startOp (s : State) (k : Nat) (m : MatOp) (warn : Nat) : State :=
  let t := s.teamAt k
  let s := s.setTeam k (({ t with holder := true, matq := t.matq ++ [m] }.warn warn).advance 4)
  s.post .matrixComplete { a := k }

/-- MMA (07 R207, R208): one 64 x 64 x 64 product into a set; it starts, and reads its operands, when the passes of every earlier
one are finished (08 R241). -/
def execMma (sb : BitVec 3) (f : UE) (s : State) : Out :=
  mmChecked (Instr.mma sb f).wf f s
    (let t := s.team
     let regs := run (mmA f) (mmNa f t.lanes) ++ run (mmB f) (mmNb f t.lanes)
     if s.arrayHeld s.cur then .next (s.waitFor .array)
     else if !t.matq.isEmpty then .next (s.waitFor .earlier)
     else if !t.allRowsFull regs then .next (s.waitFor .row)
     else if t.lostRegs regs then .next (s.endMine 2 0 0)
     else .next ((s.withTeam (t.healRows regs)).startOp s.cur (mmOp false sb f t.lanes (t.captureA f ++ t.captureB f)) (mmWarn sb f t)))

/-- The passes of a team's oldest matrix operation finish into its set; the array is given up where nothing holds it. -/
def Team.finishFirst (t : Team) : Team :=
  match t.matq with
  | [] => t
  | m :: r => ({ t with matq := r }.finishOp m).releaseArray

/-- The teams whose operations finish together with team `k`'s: the members of its gang, for a ganged one (07 R214). -/
def State.passTeams (s : State) (k : Nat) : List Nat :=
  if (s.teamAt k).matq.head?.any (·.gang) then
    k :: ((s.gangMembers k).filterMap id).filter fun j => j != k && (s.teamAt j).matq.head?.any (·.gang)
  else [k]

/-- MATRIX_COMPLETE (08 R241): the matrix operation of team `a` finishes its passes into its set, a ganged one for all its
members; one of a gang that a failed core has broken runs again when the gang is rebuilt (15 R374). -/
def execMatrixComplete (s : State) : Out :=
  let k := s.arg.a
  let t := s.teamAt k
  if t.matq.isEmpty ∨ t.status ≠ .resident then .next s
  else if s.gangBroken k then .next (s.post .matrixComplete s.arg)
  else .next ((s.passTeams k).foldl (fun (s : State) j => s.setTeam j (s.teamAt j).finishFirst) s)

/-! ### Gangs (07 R212 to R214) -/

/-- May the team issue an MMAG: N is not 0, its own index stands exactly once, every index is of the group? -/
def Team.gangOk (t : Team) : Bool :=
  t.gangN != 0 && (t.gangPositions t.tix).length == 1 && (List.range t.gangN).all fun p => decide (t.gangIdx p ≤ t.nteam)

/-- Position of the team in its gang. -/
def Team.gangPos (t : Team) : Nat := (t.gangPositions t.tix).headD 0

/-- Columns of a gang's output of n members. -/
def gangCols (n : Nat) : Nat := if n = 2 then 2 else n / 2

/-- Tile (r, c) of position p, and the positions that give its A fragment and its B fragment (07 R214). -/
def gangTile (n p : Nat) : Nat × Nat := (p / gangCols n, p % gangCols n)
def gangA (n p : Nat) : Nat := (gangTile n p).1 * gangCols n
def gangB (n p : Nat) : Nat := (gangTile n p).2

/-- The arrival of a team at its group's latch. -/
def State.arrivalOf (s : State) (k : Nat) : Option LatchArrival :=
  (s.group (s.teamAt k).group).latch.find? fun a => a.team == k

/-- Has every listed team arrived with an identical `GANG` value? -/
def State.gangArrived (s : State) (k : Nat) : Bool :=
  (s.gangMembers k).all fun m => match m with
    | none => false
    | some j => (s.arrivalOf j).isSome && (s.teamAt j).gang == (s.teamAt k).gang

/-- The arrivals of teams taken off their group's latch. -/
def State.unlatch (s : State) (g : Nat) (ks : List Nat) : State :=
  s.setGroup g { s.group g with latch := (s.group g).latch.filter fun a => !ks.contains a.team }

/-- An illegal-operand trap taken by team `k`, which waits or has just arrived; a saved team takes it in its frame. The array
it held for its arrival is free again unless a set is ACTIVE (07 R203). -/
def State.trapTeam (s : State) (k : Nat) : State :=
  let me := s.cur
  let s : State := { s with cur := k }
  let s := s.trap .operand 0
  let s := s.setTeam k (s.teamAt k).releaseArray
  let s := if (s.teamAt k).status = .resident then s else s.writeFrame k
  { s with cur := me }

/-- Several teams trap, and none keeps an arrival. -/
def State.gangTrap (s : State) (g : Nat) (ks : List Nat) : State :=
  ks.foldl (fun (s : State) k => s.trapTeam k) (s.unlatch g ks)

/-- A team that executes END makes every waiting member of a gang that lists it trap (07 R213). -/
def State.latchEnd (s : State) (k : Nat) : State :=
  let t := s.teamAt k
  let ws := ((s.group t.group).latch.map (·.team)).filter fun j => !((s.teamAt j).gangPositions t.tix).isEmpty
  if ws.isEmpty then s else s.gangTrap t.group ws

/-- GANG_LATCH_COMPLETE posted, unless one for the group is already due. -/
def State.postLatch (s : State) (k : Nat) : State :=
  if s.gangArrived k && !(s.events.any fun e => e.row == .gangLatchComplete && e.arg.a == k)
  then s.post .gangLatchComplete { a := k } else s

/-- The registers of an MMAG that its own member provides: A when c = 0, B when r = 0 (07 R214). -/
def gangReads (f : UE) (t : Team) : List Nat :=
  let rc := gangTile t.gangN t.gangPos
  (if rc.2 = 0 then run (mmA f) (mmNa f t.lanes) else []) ++ (if rc.1 = 0 then run (mmB f) (mmNb f t.lanes) else [])

/-- MMAG (07 R213): the team arrives at its cluster group's latch and waits there; GANG_LATCH_COMPLETE starts the
operation. -/
def execMmag (sb : BitVec 3) (f : UE) (s : State) : Out :=
  mmChecked (Instr.mmag sb f).wf f s
    (let t := s.team
     if !t.gangOk then .next (s.trap .operand 0)
     else if (s.arrivalOf s.cur).isSome then .next ((s.waitFor .latch).postLatch s.cur)
     else if s.arrayHeld s.cur then .next (s.waitFor .array)
     else if !t.allRowsFull (gangReads f t) then .next (s.waitFor .row)
     else if t.lostRegs (gangReads f t) then .next (s.endMine 2 0 0)
     else
       let g := t.group
       let odd := ((s.group g).latch.map (·.team)).filter fun j =>
         !(t.gangPositions (s.teamAt j).tix).isEmpty && (s.teamAt j).gang != t.gang
       if !odd.isEmpty then .next (s.gangTrap g (odd ++ [s.cur]))
       else
         let s := s.setGroup g { s.group g with latch := (s.group g).latch ++ [⟨s.cur, sb, f⟩] }
         .next ((s.withTeam { t.healRows (gangReads f t) with wait := .latch, arr := true, holder := true }).postLatch s.cur))

/-- Two arrivals agree on FMT, S, T and SB (07 R213). -/
def LatchArrival.agree (a b : LatchArrival) : Bool :=
  mmFmt a.f == mmFmt b.f && mmS a.f == mmS b.f && mmT a.f == mmT b.f && mmSb a.sb == mmSb b.sb

/-- The start of a ganged operation for the arrivals `as` in position order: every member's tile from the providers'
fragments (07 R214, 08 R252). -/
def State.startGang (s : State) (as : List LatchArrival) : State :=
  let n := as.length
  let dflt : LatchArrival := ⟨0, 0, ⟨0, 0, 0⟩⟩
  (as.zipIdx).foldl (fun (u : State) x =>
    let a := x.1
    let pa := as.getD (gangA n x.2) dflt
    let pb := as.getD (gangB n x.2) dflt
    let t := s.teamAt a.team
    let cap := (s.teamAt pa.team).captureA pa.f ++ (s.teamAt pb.team).captureB pb.f
    u.startOp a.team (mmOp true a.sb a.f t.lanes cap) (mmWarn a.sb a.f t)) s

/-- GANG_LATCH_COMPLETE (07 R213, R214): every listed team has arrived and is resident with the array its own and idle (08
R241); members whose fields differ all trap, and else the operation starts. -/
def execGangLatchComplete (s : State) : Out :=
  let k := s.arg.a
  let ms := (s.gangMembers k).filterMap id
  let as := ms.filterMap s.arrivalOf
  if !(s.gangArrived k && !ms.isEmpty && ms.all fun j => (s.teamAt j).status == .resident && (s.teamAt j).matq.isEmpty && !s.arrayHeld j)
  then .next s else
  let g := (s.teamAt k).group
  match as with
  | [] => .next s
  | a :: r =>
    if r.all a.agree then .next ((s.unlatch g ms).startGang as) else .next (s.gangTrap g ms)

/-! ### MDRAIN and MZERO (07 R215 to R218) -/

def mdD (f : UE) : Nat := 2 * f.sd.toNat
def mdOfmt (f : UE) : Nat := (f.eng.extractLsb' 7 3).toNat
def mdAmax (f : UE) : Bool := f.eng.getLsbD 3
def mdSet (f : UE) : Nat := (f.eng.extractLsb' 2 1).toNat

/-- The rounding mode of the drain: RND, where 6 is `FCTL`.RM. -/
def mdMode (f : UE) (t : Team) : Nat :=
  let r := (f.eng.extractLsb' 4 3).toNat
  if r = 6 then t.rm else r

/-- Does the drain read its scalar pair: with `.amax` or an FP8 output (03 Table 3.12)? -/
def mdPair (f : UE) : Bool := mdAmax f || mdOfmt f == 3 || mdOfmt f == 4

/-- What a drain has written so far: words by register x 1024 + lane, generators, exceptions by lane. -/
structure DrainOut where
  words : FMap Word32
  gens : FMap Word32
  fl : List (Nat × Fl)

/-- Where element `e` of a group of element width `w` lies: register, lane, lowest bit (07 R205). -/
def drainPlace (w lanes e : Nat) : Nat × Nat × Nat :=
  if w = 64 then (2 * (e / lanes), e % lanes, 0) else
  let ρ := 32 / w
  (e / (ρ * lanes), (e % (ρ * lanes)) / ρ, (e % ρ) * w)

/-- A drained element written, with the generator of its lane stepped under stochastic rounding (07 R216). -/
def drainStep (f : UE) (t : Team) (a : AccSet) (y : DrainOut) (e : Nat) : DrainOut :=
  let w := ofmtWidth (mdOfmt f)
  let (r, l, b) := drainPlace w t.lanes e
  let gsc := field (t.s (f.sa + 1)) 0 8
  let g0 := fget (t.g l) y.gens l
  let (x, g) := roundElem (mdMode f t) g0 fun rnd => drainElem (mdOfmt f) t.f16z rnd gsc (a.elem e)
  let old := fget 0 y.words (r * 1024 + l)
  let words := fput y.words (r * 1024 + l) (BitVec.ofNat 32 (if w = 64 then x.1 else putBits old.toNat b w x.1))
  { words := if w = 64 then fput words ((r + 1) * 1024 + l) (BitVec.ofNat 32 (x.1 / 2 ^ 32)) else words
    gens := if mdMode f t = 5 then fput y.gens l g else y.gens
    fl := if x.2 = 0 then y.fl else y.fl ++ [(l, x.2)] }

/-- The whole drain of a set, in ascending element order. -/
def drainAll (f : UE) (t : Team) (a : AccSet) : DrainOut :=
  (List.range 4096).foldl (drainStep f t a) ⟨[], [], []⟩

/-- Does lane `l` of register `r` of a group of element width `w` hold an element (07 R205)? -/
def fragHolds (w lanes r l : Nat) : Bool :=
  if w = 64 then decide (r / 2 * lanes + l < 4096) else decide ((r * lanes + l) * (32 / w) < 4096)

/-- The rows of the drained group as a producer's rows, registers ascending (07 R216, 01 R22). -/
def drainRows (f : UE) (t : Team) (y : DrainOut) : List ProdRow :=
  let w := ofmtWidth (mdOfmt f)
  (List.range (fragRegs w t.lanes)).flatMap fun r => t.rows.map fun row =>
    ⟨mdD f + r, row, ((rowLanes row).filter (fragHolds w t.lanes r)).map fun l => (l, fget 0 y.words (r * 1024 + l)),
     some (mdD f), true⟩

/-- The team after a drain: the group's rows are to land, the set is EMPTY, `MBOUND` its bound (08 R249). -/
def Team.drained (t : Team) (f : UE) (y : DrainOut) : Team :=
  let a := t.acc (mdSet f)
  let rows := drainRows f t y
  let t1 : Team := rows.foldl (fun (t : Team) p => t.setRow p.reg p.row true) t
  let t1 : Team := { t1 with prods := t1.prods ++ rows, mbound := a.bound, holder := true }
  let t1 := (t1.setAcc (mdSet f) emptySet).releaseArray
  let t1 : Team := y.gens.foldl (fun (t : Team) x => t.setG x.1 x.2) t1
  let t1 := t1.setTags (run (mdD f) (fragRegs (ofmtWidth (mdOfmt f)) t.lanes)) (BitVec.ofNat 4 (ofmtTag (mdOfmt f)))
  t1.noteFl y.fl

/-- The drain performed: registers, set, flags, and the maximum merged as ATOM.max.n32 where `.amax` asks for it
(07 R216, R217). -/
def State.drainSet (s : State) (f : UE) (word : Option Hit) : State :=
  let t := s.team
  let a := t.acc (mdSet f)
  let y := drainAll f t a
  let t1 := t.drained f y
  let raised := t1.excFlags &&& t1.te
  let warn := wIf (!mdPair f && f.sa != 0) wOPND ||| wIf (f.eng.extractLsb' 0 2 != 0) wOPND
  let lanes := t1.exc
  let t2 := { t1 with flags := t1.flags ||| t1.excFlags.setWidth 64, exc := 0, excFlags := 0 }
  let s := (s.withTeam ((t2.warn (if raised = 0 then warn else 0)).advance 4)).postRows (drainRows f t y).length
  let s := match word with
    | none => s
    | some h => (s.rmw s.cur h 4 fun old => atomNew 2 1 old (a.amax.setWidth 64) 0).1
  if raised = 0 then s else (s.withTeam (s.team.setPc t.pc)).trapWith .float lanes 0 raised true 4

/-- MDRAIN (07 R215 to R217). -/
def execMdrain (f : UE) (s : State) : Out :=
  let t := s.team
  let c := fragRegs (ofmtWidth (mdOfmt f)) t.lanes
  let a := (t.s f.sa).toNat
  checkedUni (Instr.mdrain f).wf (t.inRange (mdD f) c && (!mdPair f || f.sa.toNat % 2 == 0)) s
    (if s.arrayHeld s.cur then .next (s.waitFor .array)
     else if t.matq.any fun m => m.set == mdSet f then .next (s.waitFor .earlier)
     else if !t.allRowsFull (run (mdD f) c) then .next (s.waitFor .row)
     else if !mdAmax f then .next (s.drainSet f none)
     else if a % 4 ≠ 0 then .next (s.trap .align 0)
     else match s.checkSpans (s.viaOf s.cur) [(a, 4)] (needR ||| needW) true polWt with
     | .error e => .next (s.stopWith e)
     | .ok sp => .next ((s.fillSpans (s.viaOf s.cur) sp).drainSet f (some (Span.first sp.flatten))))

/-- MZERO (07 R218): the set becomes EMPTY; `MBOUND` stays. Fields other than SET are MBZ. -/
def execMzero (s : State) : Out :=
  let t := s.team
  let set := (s.iw.extractLsb' 4 1).toNat
  if s.arrayHeld s.cur then .next (s.waitFor .array)
  else if t.matq.any fun m => m.set == set then .next (s.waitFor .earlier)
  else .next (s.retire ({ t with holder := true }.setAcc set emptySet).releaseArray (iwMbz s 0x3FFFEF))

end Sys2Proof.Machine
end

