-- ==== Sys2Proof/Machine/Work.lean ====
section
/-! DEFINITION. Work instructions: END (04 R115), SPAWN and EMIT with the placement of lane records (07 R227 to R230, 14 R351 to
R354), phase barriers (07 R232 to R235), PREF and PACK (07 R236, R237). -/

namespace Sys2Proof.Machine

/-! ### Free choices and queue counts -/

/-- A decision due on every die. -/
def State.postDecisions (s : State) : State :=
  (List.range 8).foldl (fun (s : State) d => s.postOnce .dispatchDecision { a := d }) s

/-- Is a launch in the scope of a drain in force (14 R360)? -/
def State.inDrain (s : State) (l : Nat) : Bool := (s.queueSt (s.launch l).queue).stopped

/-- Is a launch in the scope of the operation `DRAIN` has in progress: every one, or those of its ASID (14 R359, R360)? -/
def State.inScope (s : State) (l : Nat) : Bool := bitAt s.drainNow.toNat 61 || (s.launch l).asid == field s.drainNow 0 14

/-- `DSTAT` (14 R359). -/
def State.dstat (s : State) : Word64 := s.creg 0x68
def State.drainBusy (s : State) : Bool := bitAt s.dstat.toNat 63

/-- Does a drain in progress cover a launch? -/
def State.draining (s : State) (l : Nat) : Bool := s.drainBusy && field s.drainNow 62 2 == 1 && s.inScope l

/-- A 16-bit count of `DSTAT` advanced. -/
def State.dstatCount (s : State) (lo : Nat) : State := s.setCreg 0x68 (setField s.dstat lo 16 (field s.dstat lo 16 + 1))

/-! ### Bins (14 R351, R352, R354) -/

/-- The records a bin or key holds at most. -/
def Bin.cap (b : Bin) : Nat :=
  let l := bitsAt b.shape.toNat 0 11
  if b.agg.isSome then min 4096 (32 * l) else l

/-- The event that flushes a bin of a die. -/
def State.postFlush (s : State) (b : Bin) : State :=
  s.postOnce (if b.agg.isSome then .aggregatorFlush else .binFlush) { a := b.die }

/-- Bins that satisfy a predicate are closed: they flush into teams. -/
def State.closeBins (s : State) (f : Bin → Bool) : State :=
  let hit := s.bins.filter fun b => !b.closed && f b
  let s : State := { s with bins := s.bins.map fun b => if !b.closed && f b then { b with closed := true } else b }
  hit.foldl (fun (s : State) b => s.postFlush b) s

/-- Has every team that put a record into a bin executed `END`? -/
def State.binEnded (s : State) (b : Bin) : Bool :=
  b.recs.all fun r => match (s.teamAt r.team).status with
    | .ended => true
    | .retired => true
    | _ => false

/-- The index of an open bin with the key of `b`. -/
def State.findBin (s : State) (b : Bin) (agg : Bool) : Option Nat :=
  s.bins.findIdx? fun x => !x.closed && x.die == b.die && x.agg.isSome == agg && x.queue == b.queue &&
    x.entry == b.entry && x.shape == b.shape && x.depth == b.depth

/-- A record appended to the bin at an index, which closes when it is full. -/
def State.joinBin (s : State) (i : Nat) (r : LaneRec) : State :=
  match s.bins[i]? with
  | none => s
  | some b =>
    let b1 : Bin := { b with recs := b.recs ++ [r] }
    let full := decide (b1.cap ≤ b1.recs.length)
    let s : State := { s with bins := s.bins.set i { b1 with closed := full } }
    if full then s.postFlush b else s

/-- A bin opened for its first record. -/
def State.openBin (s : State) (b : Bin) (r : LaneRec) : State :=
  let s : State := { s with bins := s.bins ++ [{ b with recs := [], since := s.clock.toNat, closed := false }] }
  let s := s.postOnce (if b.agg.isSome then .aggregatorTimeout else .gatherTimeout) { a := b.die }
  s.joinBin (s.bins.length - 1) r

/-- Aggregator tables in use on a die: open or flushing keys, and tables whose teams have not all retired (14 R354). -/
def State.tablesUsed (s : State) (die : Nat) : List Nat :=
  ((s.bins.filter fun b => b.die == die).filterMap (·.agg)) ++
  ((List.range s.launches.length).filterMap fun l =>
    let x := s.launch l
    if x.ended || x.complete then none
    else if (s.shares.any fun h => h.launch == l && h.die == die) then x.table else none)

/-- LANE_RECORD_PLACEMENT (14 R351): a record joins the open bin of its key, opens a free bin of the 64, or goes to the
aggregator of its queue; none where it finds no room. -/
def State.placeRecord (s : State) (b : Bin) (r : LaneRec) : Option State :=
  match s.findBin b false with
  | some i => some (s.joinBin i r)
  | none =>
    if (s.bins.filter fun x => x.die == b.die && x.agg.isNone).length < 64 then some (s.openBin b r)
    else if s.qField b.queue 384 64 = 0 then none
    else match s.findBin b true with
    | some i => some (s.joinBin i r)
    | none =>
      match (List.range 16).find? fun k => !(s.tablesUsed b.die).contains k with
      | some k => some (s.openBin { b with agg := some k } r)
      | none => none

/-! ### END (04 R115, 07 R203, R222, 14 R355) -/

/-- A team ends: what it has in flight completes, its sets are cleared, the stack cache is written back, its stacks are
discarded, its open commands form a final batch; barriers and latches count it out; its slot is free. -/
def State.endTeam (s : State) (k : Nat) : State :=
  let s := s.setTeam k { (s.teamAt k).settle with acc0 := emptySet, acc1 := emptySet, holder := false }
  let s := s.flushStack k
  let s := if s.openCopies k then s.closeBatch k else s
  let s := s.setTeam k { s.teamAt k with
    status := .ended, div := [], ret := [], ndsp := 0, nrsp := 0, wait := .none, arr := false, prow := none }
  let g := (s.teamAt k).group
  let s := ((s.latchEnd k).departGroup g).departShare (s.group g).share
  let s := if s.draining (s.teamAt k).launch then s.dstatCount 16 else s
  let s := s.closeBins s.binEnded
  (s.post .teamRetire { a := k }).postOnce .dispatchDecision { a := (s.teamAt k).die }

/-- END (04 R115). -/
def execEndTeam (s : State) : Out := .next ((s.withTeam (s.team.warn (iwMbz s 0x3FFFFF))).endTeam s.cur)

/-! ### SPAWN (07 R229) -/

/-- Dies a record may use (14 R350). -/
def Shape.dies (x : Shape) : List Nat := (List.range 8).filter fun d => x.dmask == 0 || bitAt x.dmask d

/-- Is a record valid as one of KIND `kind`, with no more die shares than dies allowed (07 R228, 14 R350)? -/
def recordOk (r kind : Nat) : Bool := (shapeOf r).ok kind && decide ((shapeOf r).ndie ≤ (shapeOf r).dies.length)

/-- Is a queue open to the executing team (14 R347)? -/
def State.queueOpen (s : State) (q : Nat) : Bool := decide (q < 1024) && s.qProd q && s.qAsid q == s.asid

/-- The join counter at JOIN checked as a store (07 R229), or nothing to check. -/
def State.checkJoin (s : State) (join : Nat) : Except Stop (Option Hit) :=
  if join = 0 then .ok none else
  match s.checkSpans (s.viaOf s.cur) [(join, 8)] needW true polWt with
  | .error e => .error e
  | .ok sp => .ok (some (Span.first sp.flatten))

/-- What the check of the join counter and of the depth ends in: a protection fault before the nesting-depth trap (04 Table
4.6), and that trap before anything the check would wait for. -/
def State.checkNesting (s : State) (j : Except Stop (Option Hit)) : Except Stop (Option Hit) :=
  match j with
  | .error (.prot va) => .error (.prot va)
  | _ => if s.team.depth = 10 then .error (.trap .nesting 0) else j

/-- A checked join counter advanced at its home by the executing team. -/
def State.addJoin (s : State) (h : Option Hit) (n : Nat) : State :=
  match h with
  | none => s
  | some h => (s.rmw s.cur h 8 fun old => some (old + BitVec.ofNat 64 n).toNat).1

/-- Children counted against the executing team. -/
def State.addChildren (s : State) (n : Nat) : State := s.withTeam { s.team with children := s.team.children + n }

/-- What a record appended to a queue's ring must wait for: the home of its slot or of the queue's entry. -/
def State.appendWait (s : State) (q : Nat) : Option Reach :=
  (s.unitWait s.team.die (s.qSlot q (s.qTail q)) 64 true).orElse fun _ => s.unitWait ioDie (s.qAddr q) 64 true

/-- A record appended to a queue's ring: slot TAIL claimed, the record written, TAIL advanced (14 R347). -/
def State.appendRecord (s : State) (q rec : Nat) : State :=
  let i := s.qTail q
  let s := s.unitPutLe s.team.die (s.qSlot q i) 64 rec
  s.setQField q 480 32 ((i + 1) % 2 ^ 32)

/-- SPAWN (07 R229); the engine field is MBZ. The causes are found in the priority order of 04 Table 4.6: a queue that is not
open before a misaligned record. -/
def execSpawn (f : UE) (s : State) : Out :=
  let a := (s.team.s f.sa).toNat
  let q := (s.team.s f.sd).toNat
  let warn := wIf (f.eng != 0) wOPND
  if !s.queueOpen q then .next (s.trap .operand 0) else
  if a % 64 ≠ 0 then .next (s.trap .align 0) else
  withBlock s a 64 needR fun s r =>
    if !recordOk r 0 then .next (s.trap .operand 0) else
    match s.checkNesting (s.checkJoin (shapeOf r).join) with
    | .error e => .next (s.stopWith e)
    | .ok h =>
      if 2 ^ s.qLog q ≤ s.qCount q then .next (s.waitFor .room) else
      match s.appendWait q with
      | some x => .next ((s.unitAsk x).waitFor .busy)
      | none =>
      let s := (s.addJoin h (shapeOf r).teams).release s.cur 3
      let s : State := { s with spawned := s.spawned ++ [(q, s.qTail q, s.cur)] }
      let s := ((s.appendRecord q r).addChildren 1).postDecisions
      .next (s.retire s.team warn)

/-! ### EMIT (07 R230) -/

/-- First argument register and count. -/
def emitVa (f : UE) : Nat := (f.eng.extractLsb' 3 7).toNat
def emitN (f : UE) : Nat := (f.eng.extractLsb' 0 3).toNat + 1

/-- The lane record of a lane: the template with words 0 to n - 1 the lane's elements and the others zero. -/
def laneRecord (tmpl : Nat) (t : Team) (f : UE) (lane : Nat) : BitVec 512 :=
  BitVec.ofNat 512 ((List.range (emitN f)).foldl (fun a i => a + (t.v (emitVa f + i) lane).toNat * 2 ^ (256 + 32 * i))
    (tmpl % 2 ^ 256))

/-- The lanes of the execute mask, ascending. -/
def Team.execLanes (t : Team) : List Nat := (List.range t.lanes).filter (inMask t.exec)

/-- The key of the executing team's records from a template (14 R351). -/
def State.binKey (s : State) (tmpl : Nat) : Bin :=
  { die := s.team.die, agg := none, queue := s.myLaunch.queue, entry := BitVec.ofNat 64 (bitsAt tmpl 0 57),
    shape := BitVec.ofNat 64 (bitsAt tmpl 192 64), depth := s.team.depth + 1, recs := [], since := 0, closed := false }

/-- What an `EMIT` under way at the PC goes on with: its template and the lane of its next record. -/
def Team.emitting (t : Team) : Option (BitVec 512 × Nat) :=
  match t.emit with
  | some (pc, tmpl, n) => if pc = t.pc then some (tmpl, n) else none
  | none => none

/-- The record of the first of `lanes` placed: the counter at JOIN advances and a child is counted; with it the last lane's, the
instruction retires (07 R230, 14 R351: the records of different `EMIT`s interleave, so each goes on its own). A record that
finds no room waits. -/
def State.emitOne (s : State) (f : UE) (tmpl : BitVec 512) (h : Option Hit) (lanes : List Nat) (warn : Nat) : State :=
  match lanes with
  | [] => s.retire { s.team with emit := none } warn
  | n :: rest =>
    match s.placeRecord (s.binKey tmpl.toNat) ⟨laneRecord tmpl.toNat s.team f n, s.cur, s.team.launch⟩ with
    | none => s.waitFor .room
    | some s =>
      let s := (s.addJoin h 1).addChildren 1
      if rest.isEmpty then s.retire { s.team with emit := none } warn
      else s.withTeam { s.team with emit := some (s.team.pc, tmpl, n + 1), wait := .none }

/-- An `EMIT` whose template and registers are read goes on: the checks of its join counter and depth, then its next record. -/
def State.emitNext (s : State) (f : UE) (tmpl : BitVec 512) (lanes : List Nat) (warn : Nat) : State :=
  match s.checkNesting (s.checkJoin (shapeOf tmpl.toNat).join) with
  | .error e => s.stopWith e
  | .ok h => s.emitOne f tmpl h lanes warn

/-- EMIT (07 R230); sd is MBZ. The release comes before the first record; one under way takes its template as it read it. -/
def execEmit (f : UE) (s : State) : Out :=
  let t := s.team
  let a := (t.s f.sa).toNat
  let warn := wIf (f.sd != 0) wOPND
  let regs := run (emitVa f) (emitN f)
  match t.emitting with
  | some (tmpl, n) => .next (s.emitNext f tmpl (t.execLanes.filter fun l => decide (n ≤ l)) warn)
  | none =>
  checkedUni true (t.inRange (emitVa f) (emitN f)) s
    (if a % 64 ≠ 0 then .next (s.trap .align 0) else
     withBlock s a 64 needR fun s r =>
       let x := shapeOf r
       if !recordOk r 1 || decide (s.qField s.myLaunch.queue 232 8 < x.stk + 1) then .next (s.trap .operand 0)
       else match s.checkNesting (s.checkJoin x.join) with
       | .error e => .next (s.stopWith e)
       | .ok h =>
         if !s.team.rowsFull (emitVa f) (emitN f) then .next (s.waitFor .row)
         else if s.team.lostRegs regs then .next (s.endMine 2 0 0)
         else
           let s := (s.withTeam (s.team.healRows regs)).release s.cur 3
           .next (s.emitOne f (BitVec.ofNat 512 r) h s.team.execLanes warn))

/-! ### Phase barriers (07 R232 to R234) -/

/-- Fields of a phase-barrier object (07 R232); an NM above 31 names a free number of participants. -/
def phTopo (o : Nat) : Nat := bitsAt o 296 8
def phNm (o : Nat) : Nat := if bitsAt o 288 8 < 32 then bitsAt o 288 8 else Config.phaseNm (bitsAt o 288 8) % 32
def phDone (o : Nat) : Nat := bitsAt o 256 32

/-- phase(i) - DONE of a participant: the q with q = P[i] mod 256 and DONE <= q < DONE + 256 (07 R233). -/
def phAhead (o i : Nat) : Nat := (bitsAt o (8 * i) 8 + 256 - phDone o % 256) % 256

/-- The neighbours of participant i by TOPO (07 R232). -/
def phNeighbours (o i : Nat) : List Nat :=
  let n := phNm o + 1
  match phTopo o with
  | 0 => (List.range n).filter fun j => j + 1 == i || j == i + 1
  | 1 => [(i + 1) % n, (i + n - 1) % n]
  | _ => (List.range n).filter fun j => j != i

/-- May participant i arrive: is its phase less than LEAD past every neighbour's? -/
def phMay (o i lead : Nat) : Bool := (phNeighbours o i).all fun j => decide (phAhead o i < phAhead o j + lead)

/-- The object after participant i's arrival: P[i], then DONE over the phases everyone has passed (07 R233). -/
def phArrive (o i : Nat) : Nat :=
  let o := putBits o (8 * i) 8 (bitsAt o (8 * i) 8 + 1)
  let m := (List.range (phNm o + 1)).foldl (fun a j => min a (phAhead o j)) 256
  putBits o 256 32 (phDone o + m)

/-- The object of a phase barrier read by the executing team after its checks: alignment, the access, TOPO and the
participant number (07 R233). -/
def withPhase (s : State) (f : UE) (need : Need) (k : Span → Nat → Out) : Out :=
  let a := (s.team.s f.sa).toNat
  if a % 64 ≠ 0 then .next (s.trap .align 0) else
  match s.checkSpans (s.viaOf s.cur) [(a, 64)] need true polOp with
  | .error e => .next (s.stopWith e)
  | .ok sp =>
    let o := leNat ((s.fillSpans (s.viaOf s.cur) sp).homeRead s.cur sp.flatten true).2
    if 2 < phTopo o ∨ phNm o < s.team.gix then .next (s.trap .operand 0) else k sp.flatten o

/-- PHARV (07 R233): the engine field is MBZ. -/
def execPharv (f : UE) (s : State) : Out :=
  withPhase s f (needR ||| needW) fun sp o =>
    let i := s.team.gix
    let q : Word64 := BitVec.ofNat 64 (phDone o + phAhead o i)
    if !phMay o i (field s.team.allow 0 3) then .next (s.waitFor .pharv)
    else if s.team.s63Bad f.sd q then .next (s.trap .stackLimit 0)
    else
      let s := ((s.fillSpans (s.viaOf s.cur) [sp]).release s.cur 3).homeRead s.cur sp false |>.1
      let s := s.homeWrite sp (leBytes 64 (phArrive o i))
      .next (s.retire (s.team.setS f.sd q) (wIf (f.eng != 0) wOPND))

/-- PHWAIT (07 R234). -/
def execPhwait (f : UE) (s : State) : Out :=
  withPhase s f needR fun sp o =>
    if ((BitVec.ofNat 32 (phDone o)) - (s.team.s f.sd).setWidth 32).toInt ≤ 0 then .next (s.waitFor .phwait)
    else
      let s := (s.fillSpans (s.viaOf s.cur) [sp]).homeRead s.cur sp true |>.1
      let s := s.acquire s.cur 3
      .next (s.retire s.team (wIf (f.eng != 0) wOPND))

/-! ### PREF and PACK (07 R236, R237) -/

/-- The bytes of a range at steps of `unit`, one address in each unit it touches, at most `cap` of them. -/
def unitStarts (a n unit cap : Nat) : List Nat :=
  if n = 0 then [] else (List.range (min cap ((a + n - 1) / unit - a / unit + 1))).map fun i => if i = 0 then a else (a / unit + i) * unit

/-- PREF.bw (07 R236): the present pages of the range are offered to the migrator (12 R322); at most 16 moves are in
progress at once, so no more are offered. -/
def execPrefBw (f : UE8) (s : State) : Out :=
  let t := s.team
  let pages := unitStarts (t.s f.sa).toNat (t.s f.sd).toNat 65536 16
  let s := pages.foldl (fun (s : State) a =>
    match s.leafFor (s.viaOf s.cur) a with
    | .leaf x _ la =>
      if s.offers.any (fun o => o.1 == la) then s
      else { s with offers := s.offers ++ [(la, a / pageSize (field x 6 2) * pageSize (field x 6 2), s.asid)] }
    | _ => s) s
  let s := if s.offers.isEmpty then s else s.postOnce .migrateBlock {}
  .next (s.retire s.team (wIf (f.eng != 0) wOPND))

/-- PREF.tc (07 R236, 12 R311): one line of each Steppe sector of the range is brought into the tier cache. -/
def execPrefTc (f : UE8) (s : State) : Out :=
  let t := s.team
  let n := (t.s f.sd).toNat
  let secs := unitStarts (t.s f.sa).toNat n 2048 (n / 2048 + 2)
  let s := secs.foldl (fun (s : State) a =>
    match s.reach (s.viaOf s.cur) needR false polWt a with
    | .hit h => if h.global && physRange s.tc h.key == .steppe then s.tcEnsure h.key else s
    | _ => s) s
  .next (s.retire s.team (wIf (f.eng != 0) wOPND))

/-- The home takes back every owned word of a block's four lines and recompresses it (07 R237, 11 R297). -/
def State.packAt (s : State) (k : Nat) (pa : Nat) : State :=
  let v := s.viaOf k
  let base := pa / 256 * 4
  let s := (List.range 4).foldl (fun (s : State) i => s.packAccess v.die v.idx (base + i)) (s.flushStack k)
  s.packBlock pa

/-- PACK (07 R237): sd and the engine field are MBZ. -/
def execPack (s : State) : Out :=
  let a := (s.team.s (iwSa s)).toNat
  let warn := iwMbz s 0x3F03FF
  if a % 256 ≠ 0 then .next (s.trap .align 0) else
  match s.checkSpans (s.viaOf s.cur) [(a, 256)] needW false polWt with
  | .error e => .next (s.stopWith e)
  | .ok sp =>
    let s := s.fillSpans (s.viaOf s.cur) sp
    let h := Span.first sp.flatten
    let s := if h.global && h.cmp then s.packAt s.cur h.key else s
    .next (s.retire s.team warn)

end Sys2Proof.Machine
end

