-- ==== Sys2Proof/Machine/Sched.lean ====
section
/-! DEFINITION. The dispatcher (14 R346 to R358): cores and slots, admission, placing, starting, saving and restoring teams,
time slices, retirement; and barriers, landing rows and the two fetch events. -/

namespace Sys2Proof.Machine

/-! ### Events of the core that need no more than their operand -/

/-- PRODUCER_ROW_FULL (01 R22): a long-latency producer of team `a` lands one of its rows; DECODE and MDRAIN land theirs in
ascending order (06 R196, 07 R216). -/
def execProducerRowFull (s : State) : Out :=
  let t := s.teamAt s.arg.a
  match s.pickFrom 2 t.landable with
  | none => .next s
  | some p => .next (s.setTeam s.arg.a (t.landOne p))

/-- BARRIER_COMPLETE (04 R106): the generation of cluster group `a` (b = 0) or of die share `a` departs if every team has
arrived. -/
def execBarrierComplete (s : State) : Out :=
  .next (if s.arg.b = 0 then s.departGroup s.arg.a else s.departShare s.arg.a)

/-- ILLEGAL_INSTRUCTION (03 R84, R72): the word issued is no instruction: the illegal-instruction trap, no effect. -/
def execIllegalInstruction (s : State) : Out := .next (s.trap .illegal 0)

/-- FETCH_FAULT (01 R32, 15 R370): a protection fault, a page fault at the fetched address, or lost data under it. -/
def execFetchFault (s : State) : Out :=
  let va := s.arg.v.toNat
  match s.arg.a with
  | 0 => .next (s.endMine 1 5 va)
  | 1 => .next (s.pageFault va s.arg.b s.arg.c false true)
  | _ => .next (s.endLost ⟨s.arg.b, if s.arg.c = 0 then none else some (s.arg.c - 1)⟩ va)

/-! ### Cores (01 R39, 14 R350, R357) -/

/-- Is a core in service? -/
def State.coreUp (s : State) (d c i : Nat) : Bool := !s.coreDown.contains (d, c, i)

/-- The teams resident on a core. -/
def State.onCore (s : State) (d c i : Nat) : List Nat :=
  s.teamsWith fun t => t.status == .resident && t.die == d && t.cluster == c && t.core == i

/-- Register blocks in use on a core. -/
def State.blocksUsed (s : State) (d c i : Nat) : Nat := (s.onCore d c i).foldl (fun a k => a + (s.teamAt k).blocks) 0

/-- Free slots of a core. -/
def State.freeSlots (s : State) (d c i : Nat) : List Nat :=
  (List.range 16).filter fun x => !(s.onCore d c i).any fun k => (s.teamAt k).slot == x

/-- The teams saved and restored together with a team (14 R357): the live ones of its cluster group where one of them has
a nonzero `GANG`. -/
def State.unitOf (s : State) (k : Nat) : List Nat :=
  let ms := s.groupTeams (s.teamAt k).group
  if ms.any fun j => (s.teamAt j).gang != 0 then ms else [k]

/-- Does a team bring matrix state that needs the core's array (07 R203, R204)? -/
def Team.needsArray (t : Team) : Bool := t.acc0.active || t.acc1.active || !t.matq.isEmpty

/-- Can team `k`, as `t`, become resident on core `i` of its cluster: a slot, register blocks, no team of its group there, the
array if it needs it, no reservation for another unit? -/
def State.coreFits (s : State) (t : Team) (k i : Nat) : Bool :=
  let here := s.onCore t.die t.cluster i
  s.coreUp t.die t.cluster i && decide (here.length < 16) &&
  decide (s.blocksUsed t.die t.cluster i + t.blocks ≤ 512) &&
  (here.all fun j => (s.teamAt j).group != t.group) &&
  (!t.needsArray || here.all fun j => !(s.teamAt j).holder) &&
  s.reserved.all fun r => !(r.1 == t.die && r.2.1 == t.cluster && r.2.2.1 == i) || (s.unitOf k).contains r.2.2.2

/-- The cores of its cluster that team `k` can become resident on; under a reservation of its own only the reserved one (14
R357). -/
def State.fitting (s : State) (k : Nat) : List Nat :=
  ((List.range 8).filter fun i => s.coreFits (s.teamAt k) k i).filter fun i =>
    (s.reserved.find? fun r => r.2.2.2 == k).all fun r => r.2.2.1 == i

/-- Has the team's cluster group got its cluster (14 R350)? -/
def State.hasCluster (s : State) (k : Nat) : Bool := (s.group (s.teamAt k).group).cluster.isSome

/-! ### Becoming resident -/

/-- Team `k` resident on a core, its slice starting; the core drops its si copies first (15 R367, 10 R277, Table 10.11). -/
def State.settleOn (s : State) (k i slot : Nat) : State :=
  let s := s.setTeam k { s.teamAt k with
    status := .resident, core := i, slot := slot, sliceStart := s.clock.toNat
    holder := (s.teamAt k).needsArray }
  let s : State := { s with
    resq := s.resq.filter fun e => e.2 != k
    savedOrder := s.savedOrder.filter (· != k)
    reserved := s.reserved.filter fun r => r.2.2.2 != k }
  let s := s.acquire k 3
  (s.teamAt k).matq.foldl (fun (s : State) _ => s.post .matrixComplete { a := k }) s

/-- A frame read (15 R364). -/
def State.frameRd (s : State) (k : Nat) (off n : Nat) : Nat :=
  s.readPhysLe (s.frameAddr (s.teamAt k).die ((s.teamAt k).frameSlot.getD 0) + off) n

/-- Does a saved WAIT agree with the instruction at the PC (15 R365, R367)? -/
def waitAgrees (w : Wait) (i : Instr) : Bool :=
  match w, i with
  | .cbar, .cbar => true
  | .dbar, .dbar => true
  | .pharv, .pharv _ => true
  | .phwait, .phwait _ => true
  | .cpywait, .cpywait => true
  | .latch, .mmag _ _ => true
  | .array, .mma _ _ => true
  | .array, .mmag _ _ => true
  | .array, .mdrain _ => true
  | .array, .mzero => true
  | .pageFault, _ => true
  | .none, _ => true
  | _, _ => false

/-- The frame's WAIT checked against the instruction its PC names; a fetch that does not succeed faults when the team issues. -/
def State.frameWaitOk (s : State) (k : Nat) (t : Team) : Bool :=
  match s.fetch (s.viaOf k) t.pc.toNat with
  | .error _ => true
  | .ok (_, w0, w1) =>
    match decodeWords w0 w1 with
    | .error _ => t.wait == .none || t.wait == .pageFault
    | .ok (i, _) => waitAgrees t.wait i

/-- The team a saved team's frame gives, or none where the frame is invalid (15 R367). -/
def State.frameTeam (s : State) (k : Nat) : Option Team :=
  let t := teamOfFrame (s.teamAt k) (s.frameRd k)
  if headerOk (s.frameRd k 0 64) && s.frameWaitOk k t then some t else none

/-- The members of a unit that wait for residency. -/
def State.unitReady (s : State) (k : Nat) : List Nat := (s.unitOf k).filter fun j => (s.teamAt j).status == .ready

/-- Can the members of a unit be placed on distinct cores, none of them among `used`? -/
def State.canPlace (s : State) (used ms : List Nat) : Bool :=
  match ms with
  | [] => true
  | k :: r => (s.fitting k).any fun i => !used.contains i && s.canPlace (i :: used) r

/-- May the unit of team `k` come in: no member of it is held or drained, and every ready member has a core of its own? -/
def State.unitFits (s : State) (k : Nat) : Bool :=
  s.hasCluster k &&
  (s.unitOf k).all (fun j => (s.teamAt j).status == .ready || (s.teamAt j).status == .resident || (s.unitOf k).length == 1) &&
  s.canPlace [] (s.unitReady k)

/-- The members of a unit become resident, each on a core that leaves the others theirs, and in a slot of it: free choices (14
R350, R357). -/
def State.placeUnit (s : State) (used ms : List Nat) : State :=
  match ms with
  | [] => s
  | k :: r =>
    match s.pickFrom (16 * k + 9) ((s.fitting k).filter fun i => !used.contains i && s.canPlace (i :: used) r) with
    | none => s
    | some i => match s.pickFrom (16 * k + 10) (s.freeSlots (s.teamAt k).die (s.teamAt k).cluster i) with
      | none => s
      | some x => (s.settleOn k i x).placeUnit (i :: used) r

/-- The parts of a team's frame that a restore reads (15 Table 15.8). -/
def frameReads (t : Team) : List (Nat × Nat) :=
  [(0, 0x18C0), (0x1A00, 4096), (0x4000, 4 * t.lanes * t.vregs)] ++
  (if t.acc0.active then [(0x84000, 131072), (0xC4000, 16384)] else []) ++
  (if t.acc1.active then [(0xA4000, 131072), (0xC8000, 16384)] else []) ++ (if t.matq.isEmpty then [] else [(0xCC000, 139264)])

/-- Must the restore of a team wait for the home of its frame? -/
def State.frameBusy (s : State) (k : Nat) : Bool :=
  let a := s.frameAddr (s.teamAt k).die ((s.teamAt k).frameSlot.getD 0)
  (s.teamAt k).cause != 0 && (s.spanBusy a (2 ^ 20) || s.homeState a == some .busy)

/-- Is a saved team's frame lost: its home has failed, or a word it needs is in error (15 R375, 16 R390)? -/
def State.frameLoss (s : State) (k : Nat) : Option Loss :=
  let a := s.frameAddr (s.teamAt k).die ((s.teamAt k).frameSlot.getD 0)
  if (s.teamAt k).cause = 0 then none else
  match s.homeState a with
  | some (.dead e) => some e
  | _ => if (frameReads (s.teamAt k)).any fun p => s.poison.any fun w => decide ((a + p.1) / 4 ≤ w) && decide (4 * w < a + p.1 + p.2)
    then some badData else none

/-- Can a team not be restored: its frame is lost or invalid (15 R367)? -/
def State.frameBad (s : State) (k : Nat) : Bool :=
  (s.teamAt k).cause != 0 && ((s.frameLoss k).isSome || (s.frameTeam k).isNone)

/-- A team that cannot be restored ends its launch: at an invalid frame with a record of kind 4 (15 R367). -/
def State.refuseFrame (s : State) (k : Nat) : State :=
  let t := s.teamAt k
  match s.frameLoss k with
  | some e => s.endLaunch t.launch (e.die.getD t.die) e.ekind 0 (s.frameAddr t.die (t.frameSlot.getD 0)) t.pc.toNat
  | none => s.endLaunch t.launch t.die 4 0 0 t.pc.toNat

/-- A saved team as its frame gives it; one that has never run is as admission made it (01 R21). -/
def State.loadFrame (s : State) (k : Nat) : State :=
  if (s.teamAt k).cause = 0 then s else
  let t := s.teamAt k
  let s := s.spanTouch t.die (s.frameAddr t.die (t.frameSlot.getD 0)) (2 ^ 20)
  match s.frameTeam k with
  | some t => s.setTeam k t
  | none => s

/-- The unit of team `k` brought in, and the next decision of its die: the frames of its saved members are read and checked before
any of them runs (15 R367), and while a frame's home is not free the row `row` waits. -/
def State.bringUnit (s : State) (k : Nat) (row : Instr) : State :=
  if !((s.teamAt k).status == .ready && s.unitFits k) || s.inDrain (s.teamAt k).launch then s else
  let ms := s.unitReady k
  if ms.any s.frameBusy then s.postOnce row { a := k } else
  match ms.find? s.frameBad with
  | some j => s.refuseFrame j
  | none =>
    let s := ms.foldl (fun (s : State) j => s.loadFrame j) s
    (if s.unitFits k then s.placeUnit [] ms else s).postOnce .dispatchDecision { a := (s.teamAt k).die }

/-- TEAM_START (01 R21, 14 R350): a dispatched team becomes resident with the state admission gave it. -/
def execTeamStart (s : State) : Out :=
  if (s.teamAt s.arg.a).cause = 0 then .next (s.bringUnit s.arg.a .teamStart) else .next s

/-- TEAM_RESTORE (15 R367): a saved team becomes resident with the state its frame holds. -/
def execTeamRestore (s : State) : Out :=
  if (s.teamAt s.arg.a).cause = 0 then .next s else .next (s.bringUnit s.arg.a .teamRestore)

/-! ### Saving (15 R366) -/

/-- A saved team joins its die's residency queue (14 R357). -/
def State.joinQueue (s : State) (k : Nat) : State :=
  let d := (s.teamAt k).die
  let s : State := { s with resq := s.resq ++ [(d, k)] }
  s.postOnce .dispatchDecision { a := d }

/-- A resident team saved with a CAUSE: a time slice or an evacuation leaves it ready, a forced save held until resume. -/
def State.saveAs (s : State) (k : Nat) (cause : BitVec 4) : State :=
  let drained := cause == 3 || s.inDrain (s.teamAt k).launch
  let s := s.saveTeam k cause (if drained then .drained else .ready)
  if drained then s else s.joinQueue k

/-- CONTEXT_SAVE (15 R366): team `a` is saved with CAUSE `b`; a forced save, 3, is one of the drain in progress, which counts
it (14 R359). -/
def execContextSave (s : State) : Out :=
  let k := s.arg.a
  if (s.teamAt k).status ≠ .resident ∨ (s.arg.b = 3 ∧ !s.draining (s.teamAt k).launch) then .next s else
  let s' := s.saveAs k (BitVec.ofNat 4 s.arg.b)
  .next (if s.arg.b = 3 then s'.dstatCount 32 else s')

/-! ### Time slices (14 R357) -/

/-- The residency queue of a die: teams that are ready, have a cluster and a frame slot, and are not drained. -/
def State.waitingOn (s : State) (d : Nat) : List Nat :=
  (s.resq.filter fun e => e.1 == d && (s.teamAt e.2).status == .ready && s.hasCluster e.2 && (s.teamAt e.2).frameSlot.isSome &&
    !s.inDrain (s.teamAt e.2).launch).map (·.2)

/-- Does a die have an admitted team waiting for residency (14 R350)? -/
def State.dieWaiting (s : State) (d : Nat) : Bool :=
  s.resq.any fun e => e.1 == d && !s.inDrain (s.teamAt e.2).launch

/-- Has a team held its slot for at least SLICE (14 R356: 0 acts as 1)? -/
def State.aged (s : State) (k : Nat) : Bool :=
  decide (usNs (max 1 (field (s.creg 0x58) 48 16)) ≤ s.clock.toNat - (s.teamAt k).sliceStart)

/-- Is a team waiting in one of the ways a victim is taken for first? -/
def Team.idle (t : Team) : Bool := waitCode t.wait != 0 && t.wait != .pageFault

/-- The victim among teams: one that waits first, then the one resident longest. -/
def State.victimOf (s : State) (ks : List Nat) : Option Nat :=
  let best := fun (xs : List Nat) => xs.foldl (fun (a : Option Nat) k => match a with
    | none => some k
    | some j => if (s.teamAt k).sliceStart < (s.teamAt j).sliceStart then some k else some j) none
  match best (ks.filter fun k => (s.teamAt k).idle) with
  | some k => some k
  | none => best ks

/-- The core of a cluster with the fewest register blocks in use, the lowest-numbered on a tie, outside `used`. -/
def State.leastCore (s : State) (d c : Nat) (used : List Nat) : Option Nat :=
  ((List.range 8).filter fun i => s.coreUp d c i && !used.contains i).foldl (fun (a : Option Nat) i => match a with
    | none => some i
    | some j => if s.blocksUsed d c i < s.blocksUsed d c j then some i else some j) none

/-- Does the head hold a reservation? -/
def State.reservedFor (s : State) (k : Nat) : Bool := s.reserved.any fun r => (s.unitOf k).contains r.2.2.2

/-- RESIDENCY_RESERVATION: one core for each member of the head's unit (14 R357). -/
def State.reserve (s : State) (k : Nat) : State :=
  let t := s.teamAt k
  let s : State := { s with reserved := s.reserved.filter fun r => r.1 != t.die }
  ((s.unitReady k).foldl (fun (x : State × List Nat) j =>
    match x.1.leastCore t.die t.cluster x.2 with
    | none => x
    | some i => ({ x.1 with reserved := x.1.reserved ++ [(t.die, t.cluster, i, j)] }, i :: x.2)) (s, [])).1

/-- The resident members of a unit saved for a time slice. -/
def State.sliceOut (s : State) (k : Nat) : State :=
  ((s.unitOf k).filter fun j => (s.teamAt j).status == .resident).foldl (fun (s : State) j =>
    if (s.teamAt j).status = .resident then s.saveAs j 2 else s) s

/-- TIME_SLICE (14 R357): with a team waiting on die `a`, a victim is saved, or under a reservation every team of the
reserved core whose slice is over; a head that then fits no core of its cluster gets a reservation. -/
def execTimeSlice (s : State) : Out :=
  let d := s.arg.a
  match s.waitingOn d with
  | [] => .next s
  | k :: _ =>
    let again := fun (s : State) => (s.postOnce .timeSlice { a := d }).postOnce .dispatchDecision { a := d }
    if s.unitFits k then .next (again s)
    else if s.reservedFor k then
      let cores := s.reserved.filter fun r => (s.unitOf k).contains r.2.2.2
      let old := cores.flatMap fun r => (s.onCore r.1 r.2.1 r.2.2.1).filter s.aged
      .next (again (old.foldl (fun (s : State) j => s.sliceOut j) s))
    else match s.victimOf (s.teamsWith (fun t => t.status == .resident && t.die == d) |>.filter s.aged) with
    | none => .next (again s)
    | some v =>
      let s := s.sliceOut v
      .next (again (if s.unitFits k then s else s.reserve k))

/-! ### Frame slots and clusters (14 R350, 15 R362, R363) -/

/-- Does a device error record that is not acknowledged name a team (15 R362)? -/
def State.frameNamed (s : State) (k : Nat) : Bool :=
  s.errors.any (fun e => e.teams.contains k) || s.listUse.any fun e => e.teams.contains k

/-- Frame slots of a die in use. -/
def State.framesUsed (s : State) (d : Nat) : List Nat :=
  ((List.range s.teams.length).filter fun k =>
    let t := s.teamAt k
    t.die == d && t.status != .retired && (t.status != .dead || s.frameNamed k)).filterMap fun k => (s.teamAt k).frameSlot

/-- Free frame slots of a die. -/
def State.freeFrames (s : State) (d : Nat) : List Nat :=
  (List.range (field (s.creg (0x80 + 8 * d)) 48 16)).filter fun i => !(s.framesUsed d).contains i

/-- Cluster memory in use on a cluster, in bytes. -/
def State.cmemUsed (s : State) (d c : Nat) : Nat :=
  (s.groups.filter fun g => g.live && g.die == d && g.cluster == some c).foldl (fun a g => a + g.cmem) 0

/-- The clusters a cluster group of die `d` may take: room for its cluster memory, no group of its die share there, and a
core for each of its teams, with a free slot where `slots` asks for one (14 R350, 01 R11). -/
def State.clustersFor (s : State) (d share cmem teams : Nat) (slots : Bool) : List Nat :=
  (List.range 32).filter fun c =>
    decide (s.cmemUsed d c + cmem ≤ 512 * 4096) &&
    (s.groups.all fun g => !(g.live && g.share == share && g.cluster == some c)) &&
    decide (teams ≤ ((List.range 8).filter fun i => s.coreUp d c i && (!slots || !(s.freeSlots d c i).isEmpty)).length)

/-- A cluster group placed on a cluster, with its teams. -/
def State.putGroup (s : State) (g c : Nat) : State :=
  let s := s.setGroup g { s.group g with cluster := some c }
  { s with teams := s.teams.map fun t => if t.group = g then { t with cluster := c } else t }

/-- The cluster groups of a die that wait for a cluster take one that has gained room (14 R350). -/
def State.assignClusters (s : State) (d : Nat) : State :=
  (List.range s.groups.length).foldl (fun (s : State) g =>
    let x := s.group g
    if x.live && x.die == d && x.cluster == none then
      match s.pickFrom (16 * g + 8) (s.clustersFor d x.share x.cmem (s.teamsWith fun t => t.group == g).length true) with
      | none => s
      | some c => s.putGroup g c
    else s) s

/-- The teams of a die's residency queue that wait for a frame slot take the slots that are free (15 R363). -/
def State.assignFrames (s : State) (d : Nat) : State :=
  (s.resq.filter fun e => e.1 == d && (s.teamAt e.2).frameSlot.isNone).foldl (fun (s : State) e =>
    match s.pickFrom (16 * e.2 + 7) (s.freeFrames d) with
    | none => s
    | some i => s.setTeam e.2 { s.teamAt e.2 with frameSlot := some i }) s

/-- Is a cluster group of a die too large for every cluster, by the cores left in service (15 R373)? -/
def State.stranded (s : State) (d : Nat) : Bool :=
  (List.range s.groups.length).any fun g =>
    let n := (s.groupTeams g).length
    (s.group g).live && (s.group g).die == d &&
    (List.range 32).all fun c => decide (((List.range 8).filter fun i => s.coreUp d c i).length < n)

/-- The allocation of a cluster group is freed when all its teams have ended and its copy commands are done (01 R33). -/
def State.freeGroup (s : State) (g : Nat) : State :=
  if (s.group g).live && (s.groupTeams g).isEmpty && !s.copies.any fun c => c.group == g
  then (s.setGroup g { s.group g with live := false }).postOnce .dispatchDecision { a := (s.group g).die } else s

/-! ### Admission (07 R227, R228, 01 R21, 14 R347 to R350) -/

/-- A team as it starts (01 R21), with its place in the launch, its registers and its stack. -/
def newTeam (l g die : Nat) (rec : BitVec 512) (ix n : Nat × Nat × Nat) (depth : Nat) (fp slim : Nat)
    (sreg : List (Nat × Nat)) (frame : Option Nat) : Team :=
  let x := shapeOf rec.toNat
  let w : Nat → BitVec 64 := fun v => BitVec.ofNat 64 v
  { blankTeam with
    launch := l, group := g, die := die, dix := ix.1, gix := ix.2.1, tix := ix.2.2, ndie := n.1 - 1, ngrp := n.2.1 - 1,
    nteam := n.2.2 - 1, lanes := x.lanes, vregs := x.vregs, depth := depth, record := rec,
    joins := if x.join = 0 then [] else [w x.join], sreg := sreg.map fun v => (v.1, w v.2), fp := w fp, slim := w slim,
    spBase := w slim, spPtr := w slim, frameSlot := frame, div := [⟨w x.entry, allLanes x.lanes, noAddr⟩] }

/-- A team added, with a frame slot of its die if one is free. -/
def State.addTeam (s : State) (mk : Option Nat → Team) (d : Nat) : State :=
  { s with teams := s.teams ++ [mk (s.pickFrom (16 * s.teams.length + 7) (s.freeFrames d))] }

/-- A cluster group added, on a cluster with room if there is one: for a gathered team, `slots`, one with a free slot too (14
R353). -/
def State.addGroup (s : State) (l share gix d cmem teams : Nat) (slots : Bool) : State :=
  let c := s.pickFrom (16 * s.groups.length + 8) (s.clustersFor d share cmem teams slots)
  { s with groups := s.groups ++ [⟨l, share, gix, d, c, cmem, [], 0, [], true⟩] }

/-- The record at the head of a queue, its address, and the records's dies that are up (16 R390). -/
def State.headRec (s : State) (q : Nat) : Nat := s.readPhysLe (s.qSlot q (s.qHead q)) 64
def State.dieReady (s : State) (d : Nat) : Bool := bitAt (s.creg 0x10).toNat d

/-- Numbers in ascending order of a key, equal keys in the order they came. -/
def insertBy (key : Nat → Nat) (x : Nat) (xs : List Nat) : List Nat :=
  match xs with
  | [] => [x]
  | y :: r => if key x < key y then x :: y :: r else y :: insertBy key x r

/-- The dies of a launch (14 R350): the die of the decision, then the others allowed in ascending count of waiting teams,
the lower socket first. -/
def State.diesFor (s : State) (x : Shape) (d : Nat) : List Nat :=
  let others := (x.dies.filter fun e => e != d && s.dieReady e).foldl (fun acc e =>
    insertBy (fun e => (s.resq.filter fun w => w.1 == e).length) e acc) []
  (d :: others).take x.ndie

/-- May a queue take part in decisions now (14 R348, R360)? -/
def State.queueLive (s : State) (q : Nat) : Bool := s.qEn q && s.qCount q != 0 && !(s.queueSt q).stopped

/-- Is a queue eligible for a decision of die `d` (14 R348): its head record may use the die, and enough of its dies are up (16
R390)? -/
def State.eligible (s : State) (q d : Nat) : Bool :=
  s.queueLive q &&
  (let x := shapeOf (s.headRec q)
   recordOk (s.headRec q) 0 && x.dies.contains d && s.dieReady d && (s.diesFor x d).length == x.ndie)

/-- The promotion count of a queue, 4,096 passes each (14 R348). -/
def QueueSt.promotion (x : QueueSt) : Nat := x.promo + x.passed / 4096

/-- Level of an eligible queue (14 R348). -/
def State.level (s : State) (q : Nat) : Nat := (shapeOf (s.headRec q)).prio - (s.queueSt q).promotion

/-- Quantum of a queue in lane-clocks; 0 acts as 1 (14 R349). -/
def State.quantum (s : State) (q : Nat) : Int := (max 1 (s.qField q 192 32) * 2 ^ 20 : Nat)

/-- HEAD of a queue advances; the deficit of a queue left empty is 0 (14 R347, R349). -/
def State.advanceHead (s : State) (q : Nat) : State :=
  let s := s.setQField q 448 32 ((s.qHead q + 1) % 2 ^ 32)
  if s.qCount q = 0 then s.setQueueSt q { s.queueSt q with deficit := 0 } else s

/-- The team that spawned the head record of a queue, and the list without it. -/
def State.takeSpawner (s : State) (q : Nat) : Option Nat × State :=
  let i := s.qHead q
  match s.spawned.find? fun e => e.1 == q && e.2.1 == i with
  | none => (none, s)
  | some e => (some e.2.2, { s with spawned := s.spawned.erase e })

/-- The teams of one cluster group of a launch: `t0` teams of the launch stand before them. -/
def State.admitGroup (s : State) (l share d di g t0 : Nat) (rec : BitVec 512) (depth : Nat) : State :=
  let x := shapeOf rec.toNat
  let s := s.addGroup l share g d (x.cmem * 4096) x.nteam false
  let gi := s.groups.length - 1
  let s := (List.range x.nteam).foldl (fun (s : State) i =>
    let fp := (x.frame + 2 ^ 64 - ((t0 + i) * x.stk * 65536) % 2 ^ 64) % 2 ^ 64
    let args := (List.range 4).map fun j => (j, bitsAt rec.toNat (256 + 64 * j) 64)
    s.addTeam (fun f => { newTeam l gi d rec (di, g, i) (x.ndie, x.ngrp, x.nteam) depth fp
      ((fp + 2 ^ 64 - x.stk * 65536) % 2 ^ 64) (args ++ [(62, x.join), (63, fp)]) f with recAddr := (s.launch l).recAddr }) d) s
  match (s.group gi).cluster with
  | none => s
  | some c => s.putGroup gi c

/-- The teams of a launch join their dies' residency queues. -/
def State.enqueueLaunch (s : State) (l : Nat) : State :=
  (s.teamsWith fun t => t.launch == l).foldl (fun (s : State) k => s.joinQueue k) s

/-- The head record of a queue admitted for die `d` (14 R347, R350). -/
def State.admitPacket (s : State) (q d : Nat) : State :=
  let r : BitVec 512 := BitVec.ofNat 512 (s.headRec q)
  let x := shapeOf r.toNat
  let dies := s.diesFor x d
  let ra := s.qSlot q (s.qHead q)
  let (parent, s) := s.takeSpawner q
  let depth := match parent with
    | none => 0
    | some k => (s.teamAt k).depth + 1
  let l := s.launches.length
  let s : State := { s with
    launches := s.launches ++ [⟨q, s.qAsid q, BitVec.ofNat 64 ra, r, parent, depth, true, false, false, none⟩] }
  let s := s.advanceHead q
  let s := dies.zipIdx.foldl (fun (s : State) e =>
    let sh := s.shares.length
    let s : State := { s with shares := s.shares ++ [⟨l, e.2, e.1, [], 0⟩] }
    (List.range x.ngrp).foldl (fun (s : State) g =>
      s.admitGroup l sh e.1 e.2 g ((e.2 * x.ngrp + g) * x.nteam) r depth) s) s
  (s.enqueueLaunch l).postDecisions

/-- A queue whose address space is invalid (14 R347): ERR 3, EN 0, one record of EKIND 7. -/
def State.refuseSpace (s : State) (q d : Nat) : State :=
  let s := ((s.setQField q 128 8 3).setQField q 96 32 (s.qHead q)).setQField q 171 1 0
  ((s.msi 3).queueError (errRecord 0 0 (s.qSlot q (s.qHead q)) q (s.qAsid q) 0 d 7) [] []).postDecisions

/-- An invalid head record skipped (14 R347); for its parent it is done. -/
def State.skipRecord (s : State) (q : Nat) : State :=
  let s := (s.setQField q 128 8 1).setQField q 96 32 (s.qHead q)
  let (parent, s) := s.takeSpawner q
  let s := (s.advanceHead q).msi 3
  match parent with
  | none => s
  | some k => s.childDone k

/-- The counts after a decision that serves queue `q` of the eligible ones (14 R348): the passed-over counts rise, those of the
served queue are 0; a count of 4,096 promotes. -/
def State.countPasses (s : State) (el : List Nat) (q : Nat) : State :=
  el.foldl (fun (s : State) p =>
    let x := s.queueSt p
    if p = q then s.setQueueSt p { x with passed := 0, promo := 0 }
    else
      let s := s.setQueueSt p { x with passed := x.passed + 1 }
      if 4096 ≤ x.passed + 1 then s.postOnce .queuePromotion { a := p } else s) s

/-- QUEUE_PROMOTION (14 R348): a passed-over count of 4,096 returns to 0 and the promotion count rises. -/
def execQueuePromotion (s : State) : Out :=
  let x := s.queueSt s.arg.a
  .next (s.setQueueSt s.arg.a { x with passed := x.passed % 4096, promo := x.promotion })

/-- Rounds of quanta until some queue's deficit is above 0 (14 R349). -/
def State.rounds (s : State) (qs : List Nat) : Nat :=
  match (qs.map fun q => if 0 < (s.queueSt q).deficit then 0 else ((-(s.queueSt q).deficit) / s.quantum q).toNat + 1).min? with
  | none => 0
  | some n => n

/-- The decision of 14 R349 for die `d` over its eligible queues. -/
def State.dispatchFrom (s : State) (d : Nat) (el : List Nat) : State :=
  match (el.map s.level).min? with
  | none => s
  | some lv =>
    let qs := el.filter fun q => s.level q == lv
    let p := fget 0 s.ptr lv
    let order := (qs.filter fun q => p ≤ q) ++ qs.filter fun q => q < p
    let n := s.rounds qs
    let s := qs.foldl (fun (s : State) q =>
      s.setQueueSt q { s.queueSt q with deficit := (s.queueSt q).deficit + n * s.quantum q }) s
    match order.find? fun q => 0 < (s.queueSt q).deficit with
    | none => s
    | some q =>
      let s : State := { s with ptr := fput s.ptr lv (q + 1) }
      let s := s.countPasses el q
      if (s.asEntry (s.qAsid q)).getLsbD 0 then s.admitPacket q d else s.refuseSpace q d

/-- The first team of a die's residency queue that may come in now: the head, or while the head holds a reservation the
first later team that fits (14 R357). -/
def State.nextIn (s : State) (d : Nat) : Option Nat :=
  match s.waitingOn d with
  | [] => none
  | k :: r => if s.unitFits k then some k else if s.reservedFor k then r.find? s.unitFits else none

/-- Does some core of a die have a free slot? -/
def State.hasFreeSlot (s : State) (d : Nat) : Bool :=
  (List.range 32).any fun c => (List.range 8).any fun i => s.coreUp d c i && !(s.freeSlots d c i).isEmpty

/-- The queues whose head records a decision reads. -/
def State.liveQueues (s : State) : List Nat := (List.range 1024).filter s.queueLive

/-- What a decision must wait for: the home of a live queue's entry, or of its head record. -/
def State.headWait (s : State) : Option Reach :=
  s.liveQueues.findSome? fun q =>
    (s.unitWait ioDie (s.qAddr q) 64 true).orElse fun _ => s.unitWait ioDie (s.qSlot q (s.qHead q)) 64 false

/-- The entries and head records of the live queues read at their homes (14 R347: an acquire at system scope). -/
def State.touchHeads (s : State) : State :=
  s.liveQueues.foldl (fun (s : State) q =>
    (s.unitTouch ioDie (s.qAddr q) 64).unitTouch ioDie (s.qSlot q (s.qHead q)) 64) s

/-- DISPATCH_DECISION (14 R347 to R350, R357) of die `a`: waiting cluster groups take clusters and waiting teams frame slots; a
group no cluster can hold any more loses the die (15 R373); the next team of the residency queue comes in, or with none waiting and a free slot an invalid head record is skipped or a record is chosen and
admitted. -/
def execDispatchDecision (s : State) : Out :=
  let d := s.arg.a
  if !bitAt (s.creg 0x10).toNat 35 || !s.dieReady d then .next s else
  if s.stranded d then .next (s.postOnce .dieLost { a := d }) else
  let s := (s.assignClusters d).assignFrames d
  match s.nextIn d with
  | some k => .next (s.postOnce (if (s.teamAt k).cause = 0 then .teamStart else .teamRestore) { a := k })
  | none =>
    if s.dieWaiting d then .next (s.postOnce .timeSlice { a := d })
    else if !s.hasFreeSlot d then .next s
    else match s.headWait with
    | some r => .next ((s.unitAsk r).postOnce .dispatchDecision { a := d })
    | none =>
    let s := s.touchHeads
    match (List.range 1024).find? fun q => s.queueLive q && !recordOk (s.headRec q) 0 with
    | some q => .next (s.skipRecord q).postDecisions
    | none =>
      let el := (List.range 1024).filter fun q => s.eligible q d
      .next (s.dispatchFrom d el)

/-- TAIL of a queue written (14 R347): ignored on a device-produced queue, refused where the count would exceed the ring or
shrink. -/
def State.writeTail (s : State) (q tail : Nat) : State :=
  if s.qProd q then s else
  let n := (tail + 2 ^ 32 - s.qHead q) % 2 ^ 32
  if 2 ^ s.qLog q < n ∨ n < s.qCount q then
    ((((s.setQField q 128 8 2).setQField q 96 32 tail).setQField q 171 1 0).msi 3)
  else (s.setQField q 480 32 tail).postDecisions

/-- Is an access of the control block or the doorbell page one they take: aligned, of 4 or 8 bytes, inside (16 R382)? -/
def barOk (off n size : Nat) : Bool := (n == 4 || n == 8) && off % n == 0 && decide (off < size)

/-- QUEUE_DOORBELL (14 R347, 16 R382): the host writes `v`, of `b` bytes, at offset `a` of the doorbell page: TAIL of queue `a` / 4,
and with 8 bytes of the next one too; other accesses write nothing, and in recovery none does (16 R398). -/
def execQueueDoorbell (s : State) : Out :=
  let q := s.arg.a / 4
  if !barOk s.arg.a s.arg.b 4096 || s.sec.recovery then .next s else
  match s.unitWait ioDie (s.qAddr q) (64 * (s.arg.b / 4)) true with
  | some r => .next ((s.unitAsk r).postFirst .queueDoorbell s.arg)
  | none =>
    let s' := s.writeTail q (field s.arg.v 0 32)
    .next (if s.arg.b = 8 then s'.writeTail (q + 1) (field s.arg.v 32 32) else s')

/-! ### Retirement (07 R231) -/

/-- The dispatcher and the gatherer as accessors: they translate as a copy engine does. -/
def engineVia (asid die group : Nat) : Via := { asid := asid, die := die, idx := 0, engine := true, group := group }

/-- An indivisible update at the home of a hit by an engine of a die. -/
def State.engUpdate (s : State) (v : Via) (h : Hit) (n : Nat) (upd : Nat → Nat) : State :=
  if !h.global then { s with mem := s.mem.writeLe h.key n (upd (s.mem.readLe h.key n)) } else
  let a := Agent.llc v.die
  let home := homeOf s.tc (64 * h.line)
  let s := s.countHot v h.va
  let s := if home = .die v.die then s else
    let s := s.probes (.die v.die) h.line a .opH false (h.words n)
    let s := s.releaseOwned home a h.line (h.words n)
    if (s.line a h.line).isSi then s.dropSi a h.line else s
  let s := (s.serve home h.line a .opH false (h.words n)).hostWritten h.line
  s.writePhysLe h.key n (upd (s.readPhysLe h.key n))

/-- What an engine of a die asks for where its access must wait. -/
def State.engineWait (s : State) (x : Stop) : State :=
  match x with
  | .host l want => s.askHost l want
  | .full site l => s.startEvict site l
  | .back l => s.askBack l
  | _ => s

/-- Has a team nothing left to wait for before it retires? -/
def State.mayRetire (s : State) (k : Nat) : Bool :=
  (s.teamAt k).status == .ended && (s.teamAt k).children == 0 && !s.copies.any fun c => c.team == k

/-- A team retired: its launch too with its last team, which counts for the parent, and for a top-level launch is a release at
system scope (10 R276). -/
def State.retireTeam (s : State) (k : Nat) : State :=
  let t := s.teamAt k
  let s := s.setTeam k { t with status := .retired, emitters := [] }
  let s := t.emitters.foldl (fun (s : State) p => s.childDone p) s
  let L := s.launch t.launch
  let s := if !(s.liveTeams t.launch).isEmpty then s else
    let s := s.setLaunch t.launch { L with complete := true }
    let s := if L.top && L.parent == none then
        (s.teamsWith fun u => u.launch == t.launch).foldl (fun (s : State) j => s.release j 4) s
      else s
    match L.parent with
    | some p => if L.top then s.childDone p else s
    | none => s
  let s := s.postDecisions
  if s.bins.any fun b => b.closed then (s.bins.filter fun b => b.closed).foldl (fun (s : State) b => s.postFlush b) s else s

/-- TEAM_RETIRE (07 R231): with its batches complete and its children done, an ended team decrements its join counters one
after the other, each a release at device scope, and retires; at an absent page it is held until the reply (12 R327). -/
def execTeamRetire (s : State) : Out :=
  let k := s.arg.a
  let t := s.teamAt k
  let s := s.freeGroup t.group
  if !s.mayRetire k || s.faults.any (fun f => f.retires.contains k) then .next s else
  match t.joins with
  | [] => .next (s.retireTeam k)
  | j :: rest =>
    let v := engineVia (s.launch t.launch).asid t.die t.group
    match s.checkSpans v [(j.toNat, 8)] needW true polWt with
    | .error (.prot _) => .next (s.endLaunch t.launch t.die 1 5 j.toNat 0)
    | .error (.dead e va) => .next (s.endLaunch t.launch (e.die.getD t.die) e.ekind 0 va 0)
    | .error (.page va entry level wr ex) => .next (s.addFault v.asid va entry level wr ex false [] [] [k]).1
    | .error x => .next ((s.engineWait x).postOnce .teamRetire { a := k })
    | .ok sp =>
      let s := (s.fillSpans v sp).release k 3
      let s := s.engUpdate v (Span.first sp.flatten) 8 fun x => (x + 2 ^ 64 - 1) % 2 ^ 64
      .next ((s.setTeam k { s.teamAt k with joins := rest }).postOnce .teamRetire { a := k })

/-! ### Gathered teams (14 R352 to R354) -/

/-- Stack pool slots of a queue in use on a die (14 R353: freed when the team retires). -/
def State.poolUsed (s : State) (d q : Nat) : List Nat :=
  (s.teams.filter fun t => t.die == d && t.status != .retired && t.status != .dead).filterMap fun t => match t.pool with
    | some p => if p.1 = q then some p.2 else none
    | none => none

/-- Free stack pool slots of a queue on a die. -/
def State.freePool (s : State) (d q : Nat) : List Nat :=
  (List.range (s.qField q 240 16)).filter fun i => !(s.poolUsed d q).contains i

/-- Address of a pool slot (14 R346). -/
def State.poolBase (s : State) (d q i : Nat) : Nat :=
  (s.qField q 320 64 + (d * s.qField q 240 16 + i) * s.qField q 232 8 * 65536) % 2 ^ 64

/-- The first record of a bin. -/
def Bin.first (b : Bin) : BitVec 512 := (b.recs.map LaneRec.record).headD 0

/-- The launches whose EMIT placed a record in a bin. -/
def Bin.launches (b : Bin) : List Nat := (b.recs.map (·.launch)).eraseDups

/-- A flush that cannot be performed ends every launch that placed a record in it (14 R346), and is dropped. -/
def State.dropFlush (s : State) (b : Bin) (sock ekind code va : Nat) : State :=
  let s : State := { s with bins := s.bins.erase b }
  b.launches.foldl (fun (s : State) l => s.endLaunch l sock ekind code va 0) s

/-- The records of a flush written at an address through the queue's page tables (14 R346), then `k`; a flush at an absent
page is held until the reply. -/
def State.writeRecords (s : State) (b : Bin) (va : Nat) (k : State → State) : State :=
  let v := engineVia (s.qAsid b.queue) b.die 0
  match s.checkSpans v [(va, 64 * b.recs.length)] needW false polWt with
  | .error (.prot a) => s.dropFlush b b.die 1 5 a
  | .error (.dead e a) => s.dropFlush b (e.die.getD b.die) e.ekind 0 a
  | .error (.page a entry level wr ex) => ((s.addFault v.asid a entry level wr ex false [] [] [] [b]).1).postFlush b
  | .error x => (s.engineWait x).postFlush b
  | .ok sp => k ((s.fillSpans v sp).engStore v sp.flatten (b.recs.flatMap fun r => leBytes 64 r.record.toNat))

/-- A gathered team made: member `i` of `n` of its grid, its records `rs` at `va`, its stack in a free pool slot. -/
def State.addGathered (s : State) (b : Bin) (l share i n : Nat) (rs : List LaneRec) (va slot : Nat) : State :=
  let rec0 : BitVec 512 := (rs.map LaneRec.record).headD 0
  let x := shapeOf rec0.toNat
  let base := s.poolBase b.die b.queue slot
  let fp := (base + x.stk * 65536) % 2 ^ 64
  let s := s.addGroup l share i b.die (x.cmem * 4096) 1 true
  let gi := s.groups.length - 1
  let joins : List (BitVec 64) := (rs.map fun r => BitVec.ofNat 64 (shapeOf r.record.toNat).join).filter (· != 0)
  let s := s.addTeam (fun f =>
    { newTeam l gi b.die rec0 (0, i, 0) (1, n, 1) b.depth fp base [(0, va), (1, rs.length), (63, fp)] f with
      recAddr := BitVec.ofNat 64 va, joins := joins, emitters := rs.map (·.team), pool := some (b.queue, slot) }) b.die
  match (s.group gi).cluster with
  | none => s
  | some c => s.putGroup gi c

/-- A gathered launch made ready; in a drained scope its teams are saved, never run (14 R352, 15 R362, R368). -/
def State.releaseGathered (s : State) (l : Nat) : State :=
  if !s.inDrain l then s.enqueueLaunch l else
  (s.teamsWith fun t => t.launch == l).foldl (fun (s : State) k =>
    let s := s.setTeam k { s.teamAt k with cause := 5, status := .drained }
    let s := s.writeFrame k
    { s with savedOrder := s.savedOrder ++ [k] }) s

/-- The launch of a flush and its die share. -/
def State.addFlushLaunch (s : State) (b : Bin) (va : Nat) : State :=
  let rec0 := b.first
  { s with
    launches := s.launches ++ [⟨b.queue, s.qAsid b.queue, BitVec.ofNat 64 va, rec0, none, b.depth, false, false, false, b.agg⟩]
    shares := s.shares ++ [⟨s.launches.length, 0, b.die, [], 0⟩] }

/-- The closed bins, or aggregator keys, of a die whose flush no page fault holds. -/
def State.closedBins (s : State) (d : Nat) (agg : Bool) : List Bin :=
  s.bins.filter fun b => b.closed && b.die == d && b.agg.isSome == agg && !s.faults.any fun f => f.flushes.contains b

/-- The teams a flush of a bin or key forms (14 R352, R354). -/
def Bin.teams (b : Bin) : Nat :=
  let lanes := max 1 (bitsAt b.shape.toNat 0 11)
  if b.agg.isSome then (b.recs.length + lanes - 1) / lanes else 1

/-- Has a flush a free pool slot and a free frame slot for each of its teams (14 R352, 15 R363)? -/
def State.flushRoom (s : State) (b : Bin) : Bool :=
  decide (b.teams ≤ (s.freePool b.die b.queue).length) && decide (b.teams ≤ (s.freeFrames b.die).length)

/-- The flush a die performs next, of those that find room: a free choice. -/
def State.nextFlush (s : State) (d : Nat) (agg : Bool) : Option Bin :=
  s.pickFrom (16 * d + 12) ((s.closedBins d agg).filter s.flushRoom)

/-- The flush of a die due again while a bin of it waits. -/
def State.moreFlushes (s : State) (d : Nat) (agg : Bool) : State :=
  match s.closedBins d agg with
  | [] => s
  | b :: _ => s.postFlush b

/-- BIN_FLUSH (14 R352, R353): a closed bin of die `a` becomes one team in a pool slot; without a free pool slot or frame
slot it waits. -/
def execBinFlush (s : State) : Out :=
  let d := s.arg.a
  match s.nextFlush d false with
  | none => .next (s.moreFlushes d false)
  | some b =>
    match s.pickFrom 11 (s.freePool d b.queue) with
    | none => .next (s.postFlush b)
    | some slot =>
      let x := shapeOf b.first.toNat
      let va := (s.poolBase d b.queue slot + x.stk * 65536) % 2 ^ 64
      .next ((s.writeRecords b va fun s =>
        let s : State := { s with bins := s.bins.erase b }
        let s := s.addFlushLaunch b va
        let l := s.launches.length - 1
        let s := s.addGathered b l (s.shares.length - 1) 0 1 b.recs va slot
        s.releaseGathered l).moreFlushes d false)

/-- AGGREGATOR_FLUSH (14 R354): a closed key of die `a` becomes a grid of one-team cluster groups reading its table. -/
def execAggregatorFlush (s : State) : Out :=
  let d := s.arg.a
  match s.nextFlush d true with
  | none => .next (s.moreFlushes d true)
  | some b =>
    let lanes := max 1 (bitsAt b.shape.toNat 0 11)
    let n := b.teams
    let va := (s.qField b.queue 384 64 + d * 2 ^ 22 + b.agg.getD 0 * 2 ^ 18) % 2 ^ 64
    .next ((s.writeRecords b va fun s =>
      let s : State := { s with bins := s.bins.erase b }
      let s := s.addFlushLaunch b va
      let l := s.launches.length - 1
      let sh := s.shares.length - 1
      let s := (List.range n).foldl (fun (s : State) i =>
        match s.pickFrom (16 * i + 11) (s.freePool d b.queue) with
        | none => s
        | some slot =>
          s.addGathered b l sh i n ((b.recs.drop (i * lanes)).take lanes) ((va + 64 * lanes * i) % 2 ^ 64) slot) s
      s.releaseGathered l).moreFlushes d true)

/-- Microseconds since a bin's first record. -/
def State.binAge (s : State) (b : Bin) : Nat := s.clock.toNat - b.since

/-- GATHER_TIMEOUT (14 R352): the bins of die `a` whose first record is GTO microseconds old flush; GTO 0 is no timeout. -/
def execGatherTimeout (s : State) : Out :=
  let d := s.arg.a
  let gto := field (s.creg 0x58) 16 16
  let s := if gto = 0 then s else s.closeBins fun b => b.die == d && b.agg.isNone && decide (usNs gto ≤ s.binAge b)
  .next (if s.bins.any fun b => b.die == d && b.agg.isNone && !b.closed then s.postOnce .gatherTimeout { a := d } else s)

/-- AGGREGATOR_TIMEOUT (14 R354): the keys of die `a` that are AGTM x GTO microseconds old flush; AGTM 0 acts as 1. -/
def execAggregatorTimeout (s : State) : Out :=
  let d := s.arg.a
  let us := field (s.creg 0x58) 16 16 * max 1 (field (s.creg 0x58) 8 8)
  let s := if us = 0 then s else s.closeBins fun b => b.die == d && b.agg.isSome && decide (usNs us ≤ s.binAge b)
  .next (if s.bins.any fun b => b.die == d && b.agg.isSome && !b.closed then s.postOnce .aggregatorTimeout { a := d } else s)

/-! ### Draining (14 R359 to R361) -/

/-- The queues in the scope of a `DRAIN` value: ALL, or those of its ASID. -/
def State.scopeQueues (s : State) (v : Word64) : List Nat :=
  (List.range 1024).filter fun q => bitAt v.toNat 61 || s.qAsid q == field v 0 14

/-- Queues of a scope stopped or let go on. -/
def State.setStopped (s : State) (v : Word64) (on : Bool) : State :=
  (s.scopeQueues v).foldl (fun (s : State) q =>
    if (s.queueSt q).stopped = on then s else s.setQueueSt q { s.queueSt q with stopped := on }) s

/-- The teams of launches in the scope of the operation in progress that satisfy a predicate. -/
def State.scopeTeams (s : State) (f : Team → Bool) : List Nat := s.teamsWith fun t => s.inScope t.launch && f t

/-- The copy commands of that scope that wait at a page fault: HELD of `DSTAT`. -/
def State.scopeCopies (s : State) : List Copy := s.copies.filter fun c => s.inScope c.launch

/-- The bins and keys of that scope. -/
def State.scopeBins (s : State) : List Bin := s.bins.filter fun b => bitAt s.drainNow.toNat 61 || s.qAsid b.queue == field s.drainNow 0 14

/-- A team that has never run, held by a drain: its frame is written with CAUSE 5 (15 R362, R368); one that has no frame slot yet
stays as admission made it. -/
def State.holdNew (s : State) (k : Nat) : State :=
  let t := s.teamAt k
  let s : State := { s with resq := s.resq.filter fun e => e.2 != k }
  if t.frameSlot.isNone then s.setTeam k { t with status := .drained } else
  (s.setTeam k { t with cause := 5, status := .drained }).writeFrame k

/-- A team that waits for residency, held by a drain: it is saved, or has never run. -/
def State.holdReady (s : State) (k : Nat) : State :=
  if (s.teamAt k).cause = 0 then { s.holdNew k with savedOrder := (s.holdNew k).savedOrder.filter (· != k) ++ [k] }
  else { s.setTeam k { s.teamAt k with status := .drained } with resq := s.resq.filter fun e => e.2 != k }

/-- An operation of `DRAIN` starts: BUSY set, DONE and the counts 0 (14 R359); its row is due. -/
def State.startDrain (s : State) (v : Word64) : State :=
  let s : State := { s.setCreg 0x68 0x8000000000000000 with drainNow := v, drainSince := s.clock.toNat }
  if field v 62 2 = 2 then s.post .resume { v := v } else s.post .drain { v := v }

/-- The next operation written meanwhile starts (14 R361). -/
def State.nextDrain (s : State) : State :=
  match s.drainQueued with
  | [] => s
  | v :: r => ({ s with drainQueued := r } : State).startDrain v

/-- The operation in progress is complete: DONE set, BUSY cleared, vector 4 raised; HELD stays as it is now (14 R359, R360). -/
def State.endDrain (s : State) (held : Nat) : State :=
  let d := setField (s.dstat &&& 0x3FFFFFFFFFFFFFFF ||| 0x4000000000000000) 0 16 held
  ((s.setCreg 0x68 d).msi 4).nextDrain

/-- DRAIN (14 R360): the operation in progress is a drain: its queues are stopped, its teams that wait for residency held; its
escalation and its completion are due. -/
def execDrain (s : State) : Out :=
  if !s.drainBusy || field s.drainNow 62 2 != 1 then .next s else
  let s := s.setStopped s.drainNow true
  let s := (s.scopeTeams fun t => t.status == .ready).foldl (fun (s : State) k => s.holdReady k) s
  .next ((s.postOnce .drainEscalation {}).postOnce .drainComplete {})

/-- RESUME (14 R361): the operation in progress is a resume: the stop is cleared, and the saved teams of the scope join their
residency queues in the order of their saves. -/
def execResume (s : State) : Out :=
  if !s.drainBusy || field s.drainNow 62 2 != 2 then .next s else
  let s := s.setStopped s.drainNow false
  let back := (s.savedOrder.filter fun k => (s.teamAt k).status == .drained && s.inScope (s.teamAt k).launch &&
    !s.inDrain (s.teamAt k).launch).eraseDups
  let s := back.foldl (fun (s : State) k => (s.setTeam k { s.teamAt k with status := .ready }).joinQueue k) s
  .next (s.postDecisions.endDrain 0)

/-- DRAIN_ESCALATION (14 R360): DLIM microseconds after the write every team of the scope still resident is to be
force-saved, and its bins and keys flush into saved teams. -/
def execDrainEscalation (s : State) : Out :=
  if !s.drainBusy || field s.drainNow 62 2 != 1 then .next s
  else if s.clock.toNat - s.drainSince < usNs (field (s.creg 0x58) 32 16) then .next (s.postOnce .drainEscalation {})
  else
    let s := (s.scopeTeams fun t => t.status == .resident).foldl (fun (s : State) k => s.postOnce .contextSave { a := k, b := 3 }) s
    .next (s.closeBins fun b => s.scopeBins.contains b)

/-- A release at system scope of every core (14 R360). -/
def State.releaseAll (s : State) : State :=
  (s.teamsWith fun t => t.status == .resident).foldl (fun (s : State) k => s.release k 4) s

/-- DRAIN_COMPLETE (14 R360): with no team of the scope resident its bins and keys flush; once they have, and every team of the scope
is retired, ended or saved and every copy command of it has completed or is held at a page fault, a release at system scope,
and the drain is complete. -/
def execDrainComplete (s : State) : Out :=
  if !s.drainBusy || field s.drainNow 62 2 != 1 then .next s
  else if !(s.scopeTeams fun t => t.status == .resident || t.status == .ready).isEmpty then .next (s.postOnce .drainComplete {})
  else if !s.scopeBins.isEmpty then .next ((s.closeBins fun b => s.scopeBins.contains b).postOnce .drainComplete {})
  else if s.scopeCopies.any fun c => c.held.isNone then .next (s.postOnce .drainComplete {})
  else .next (s.releaseAll.endDrain s.scopeCopies.length)

end Sys2Proof.Machine
end

