-- ==== Sys2Proof/Machine/CohMsg.lean ====
section
/-! DEFINITION. Coherence one message at a time (11 R285 to R303, Tables 11.6 and 11.7): requests served at a home or proxy
through request records, probes at owners and holders, answers at requesters; the host's snoops, its CXL.mem and window
accesses; route failures and resends. Teams' own accesses run the same steps whole (Machine/Coh.lean). -/

namespace Sys2Proof.Machine

/-! ### Messages and request records -/

/-- The row a request kind arrives as. -/
def ReqKind.row (k : ReqKind) : Instr :=
  match k with
  | .getH => .geth
  | .getU => .getu
  | .getT => .gett
  | .getO => .geto
  | .putP => .putp
  | .putT => .putt
  | .opH => .oph
  | .wb => .wb
  | .pack => .packMessage

/-- The row of the answer to a request kind (11 Table 11.6). -/
def ReqKind.answerRow (k : ReqKind) : Instr :=
  match k with
  | .getH => .dataMsg
  | .getU => .dataMsg
  | .getT => .dataMsg
  | .getO => .dataMsg
  | .wb => .doneMsg
  | _ => .cmpMsg

/-- Do two messages carry one tag (11 R286)? -/
def Msg.sameTag (a b : Msg) : Bool :=
  a.agent == b.agent && a.site == b.site && a.line == b.line && a.record == b.record && a.seq == b.seq

/-- A message from nowhere: what a row reads that came without one. -/
def noMsg : Msg := ⟨.host, .hostProxy, 0, 0, 0, 0, 0, 0, 0, none, 0, [], 0, 0, false⟩

/-- The message a row arrived with. -/
def State.msg (s : State) : Msg := s.arg.m.getD noMsg

/-- The transaction in progress on a line. -/
def State.txnAt (s : State) (site : Site) (l : Nat) : Option Txn :=
  s.txns.find? fun t => t.site == site && t.lines.contains l

/-- Does a site hold a line in a transaction or a transient state? -/
def State.lineBusyAt (s : State) (site : Site) (l : Nat) : Bool :=
  (s.txnAt site l).isSome || decide (8 ≤ (s.entry site l).st.toNat)

/-- Does a request only read the words it names: a FXRD? -/
def Msg.readsOnly (m : Msg) : Bool :=
  match m.op with
  | some (.fxrd _ _ _) => true
  | _ => false

/-- Is a site the home of a line? Else it is a proxy (11 R280). -/
def State.isHome (s : State) (site : Site) (l : Nat) : Bool := homeOf s.tc (64 * l) == site

/-- The agent a record spares: its requester, none for a snoop or an eviction. -/
def Txn.requester (t : Txn) : Option Agent := if t.cause = .agent then some t.req.agent else none

/-- Does a record flush, keeping ownership, rather than strip: a SnpCur (11 Table 11.10)? -/
def Txn.flushes (t : Txn) : Bool := t.cause == .snoop && t.kind == .getH

/-- The strips of a record: words of R that other owners hold on its lines. -/
def State.stripsOf (s : State) (t : Txn) : List (Agent × Nat × BitVec 16) :=
  t.lines.flatMap fun l => ((s.entry t.site l).owners t.requester t.req.mask).map fun p => (p.1, l, p.2)

/-- The strip of the slot a GetO frees (11 R289). -/
def State.victimOfTxn (s : State) (t : Txn) : List (Agent × Nat × BitVec 16) :=
  if t.kind != .getO then [] else
  match (s.entry t.site t.line).victim t.req.agent with
  | some (x, m) => [(x, t.line, m)]
  | none => []

/-- The invalidations of a record. -/
def State.invsOf (s : State) (t : Txn) : List (Agent × Nat × BitVec 16) :=
  if t.cause = .evict || t.kind.invalidates t.req.readsOnly then
    ((s.entry t.site t.line).sharers t.requester).map fun a => (a, t.line, t.req.mask)
  else []

/-! ### perform (11 Table 11.7) -/

/-- An operation performed on memory at its home: memory after it, and the result (04 R100, 09 R254, 07 R217). -/
def State.homeOp (s : State) (op : HomeOp) : State × Word64 :=
  match op with
  | .atom pa o ty x c =>
    let n := atomBytes ty.toNat
    let old : Word64 := BitVec.ofNat 64 (s.readPhysLe pa n)
    match atomNew o.toNat ty.toNat old x c with
    | none => (s, old)
    | some y => (s.writePhysLe pa n y, old)
  | .fxacc pa wide x k =>
    let old := s.readPhysLe pa 64
    if objKind old == 2 || (objKind old == 1 && !wide)
    then (s.writePhysLe pa 64 (objAdd old ((fmtWide wide).unpack x.toNat) k), 0) else (s, 0)
  | .fxrd pa wide rnd => (s, BitVec.ofNat 64 (fxrdElem (fmtWide wide) (s.readPhysLe pa 64) (rndOf rnd.toNat 0).1).1)
  | .amax pa x =>
    let old : Word64 := BitVec.ofNat 64 (s.readPhysLe pa 4)
    match atomNew 2 1 old (x.setWidth 64) 0 with
    | none => (s, old)
    | some y => (s.writePhysLe pa 4 y, old)

/-- The policy and direction a request kind stands for (11 Table 11.3). -/
def ReqKind.access (k : ReqKind) : Nat × Bool :=
  match k with
  | .getH => (1, false)
  | .getU => (2, false)
  | .getT => (3, false)
  | .getO => (0, true)
  | .putT => (3, true)
  | _ => (1, true)

/-- The CXL.cache state a device request needs at the host-proxy home (11 Table 11.9); `want` as in `Stop.host`. -/
def ReqKind.want (k : ReqKind) : Nat :=
  match k with
  | .getH => 0
  | .getU => 0
  | .getT => 1
  | _ => 2

/-- What the host-proxy home must ask the host for a request of a line, if anything: RdOwnNoData where all 64 bytes are
written (11 Table 11.9). -/
def State.hostLacks (s : State) (l : Nat) (k : ReqKind) (m : Msg) : Option Nat :=
  match fget CxlState.i s.cxl l with
  | .e => none
  | .m => none
  | .s => if k.want < 2 then none else some 2
  | .i =>
    if k.want = 2 && m.bmask == BitVec.allOnes 64 then if s.cxlNoData.contains l then none else some 3
    else if k.want = 0 && s.hostReady.contains l then none else some k.want

/-- A line of the queue table written: a queue may have become eligible, so decisions are due (14 R347). -/
def State.tableWritten (s : State) (l : Nat) : State :=
  if s.qAddr 0 ≤ 64 * l ∧ 64 * l < s.qAddr 1024 then s.postDecisions else s

/-- What `perform` must wait for: the host's answer at the host-proxy home, a free line at the home of a proxy. -/
def State.performStop (s : State) (t : Txn) : Option Stop :=
  let l := t.line
  let home := homeOf s.tc (64 * l)
  if t.cause ≠ .agent then none
  else if home != t.site && s.lineBusyAt home l then some .busy
  else if hostLine s.tc l && t.kind != .wb then (s.hostLacks l t.kind t.req).map fun w => .host l w
  else none

/-- The work at the home of a line: a proxy's own request towards it, or the access at the home itself (11 R280, 12 R310). -/
def State.proxyFetch (s : State) (t : Txn) : State :=
  match t.site with
  | .die d =>
    if s.isHome t.site t.line then s.homeTouch t.site t.line 0 else
    match t.kind with
    | .opH =>
      let home := homeOf s.tc (64 * t.line)
      let s := (s.releaseOwned home (.llc d) t.line t.req.mask).dropSi (.llc d) t.line
      (s.homeTouch home t.line 0).serve home t.line (.llc d) .opH t.req.readsOnly t.req.mask
    | .pack => t.lines.foldl (fun (s : State) l =>
        let home := homeOf s.tc (64 * l)
        (s.releaseOwned home (.llc d) l 0xFFFF).serve home l (.llc d) .pack true 0xFFFF) s
    | k => s.llcAccess d t.line k.access.1 k.access.2 t.req.mask 0 t.req.cmp
  | home => s.homeTouch home t.line 0

/-- Written-back bytes merged at a site: at its memory as the home, at its last-level cache as a proxy. -/
def State.mergeAt (s : State) (site : Site) (l : Nat) (m : BitVec 64) (d : BitVec 512) : State :=
  match site with
  | .die x => s.mergeDie x l m d
  | _ => s.mergeHome l m d

/-- Words wholly written are no longer poisoned (15 R375). -/
def State.clearWords (s : State) (l : Nat) (m : BitVec 64) : State :=
  ((List.range 16).filter fun w => m.extractLsb' (4 * w) 4 == 0xF).foldl (fun (s : State) w => s.clearPoison (64 * l + 4 * w) 4) s

/-- The bytes of a PutP or PutT merged: at the home, also of a request that came to a proxy (11 R280, Table 11.7). -/
def State.mergePut (s : State) (l : Nat) (m : BitVec 64) (d : BitVec 512) : State :=
  ((if hostLine s.tc l then s.hostWritten l else s).mergeHome l m d).clearWords l m

/-- The compressed block of an answer, where the home delivers it whole (11 R295). -/
def State.blockFor (s : State) (t : Txn) : List Byte :=
  match t.req.agent with
  | .llc _ =>
    if s.isHome t.site t.line && s.delivers t.line t.kind t.req.cmp then
      (List.range (16 * bitsAt (s.metaByte (64 * t.line)).toNat 0 4)).map fun i => s.rawPhys (64 * (t.line / 4 * 4) + i)
    else []
  | _ => []

/-- The sharer set of a site's line takes an agent; a host that takes a line anew has answered no BISnpInv for it. -/
def State.addSharer (s : State) (site : Site) (a : Agent) (l : Nat) : State :=
  let e := s.entry site l
  let s : State := if a = .host then { s with biReady := s.biReady.filter (· != l) } else s
  s.setEntry { e with sh := e.sh ||| BitVec.ofNat 17 (2 ^ shBit a) }

/-- The line data a site answers with: the home's, or the last-level cache's for an si load at a proxy. -/
def State.answerData (s : State) (t : Txn) : BitVec 512 :=
  match t.site, t.kind with
  | .die d, .getU => if s.isHome t.site t.line then s.homeData t.line else s.dieData d t.line
  | _, _ => s.homeData t.line

/-- `perform` of a request, after every probe was answered: the state and the answer (11 Table 11.7). -/
def State.perform (s : State) (t : Txn) : State × Msg :=
  let s := s.proxyFetch t
  let m := t.req
  let l := t.line
  let e := s.entry t.site l
  let free := ~~~(e.m0 ||| e.m1) &&& s.answers t.site l t.kind
  let ans := { m.bare with mask := m.mask, data := s.answerData t }
  match t.kind with
  | .getH => (s, { ans with valid := m.mask, block := s.blockFor t })
  | .getU => (s, { ans with valid := free, block := s.blockFor t })
  | .getT =>
    let blk := s.blockFor t
    let ls := if blk.isEmpty then [l] else (List.range 4).map (l / 4 * 4 + ·)
    (ls.foldl (fun (s : State) x => s.addSharer t.site m.agent x) s, { ans with valid := free, block := blk })
  | .getO =>
    let G := e.grant m.agent m.mask &&& s.grantable t.site l
    let e := e.take m.agent G
    (s.setEntry e, { ans with grant := G, valid := G ||| (~~~(e.m0 ||| e.m1) &&& s.answers t.site l t.kind) })
  | .putP => ((s.mergePut l m.bmask m.data).tableWritten l, m.bare)
  | .putT => ((s.mergePut l m.bmask m.data).addSharer t.site m.agent l, m.bare)
  | .opH =>
    match m.op with
    | none => (s, m.bare)
    | some o =>
      let r := (if m.readsOnly then s else s.hostWritten l).homeOp o
      (r.1, { m.bare with result := r.2 })
  | .wb => (s, m.bare)
  | .pack => (s.packBlock (64 * l), m.bare)

/-- The requests of a site's slice that wait for one of its records (11 R285): the first is given one. -/
def State.nextBuffered (s : State) (site : Site) (l : Nat) : State :=
  match s.buffered.find? fun x => x.2.site == site && site.slice x.2.line == site.slice l with
  | none => s
  | some x => ({ s with buffered := s.buffered.erase x } : State).send x.1.row x.2

/-- A request is over: its lines' entries take a stable state, or none where they were evicted; its record is freed; the next
request of its queue, or else of the channel's buffers, is due (11 R285, R288). -/
def State.finishTxn (s : State) (t : Txn) : State :=
  let s := t.lines.foldl (fun (s : State) l =>
    s.setEntry { (if t.cause = .evict then noEntry t.site l else (s.entry t.site l).settle) with record := 0, acks := 0 }) s
  let s : State := { s with txns := s.txns.filter fun x => x.id != t.id }
  match t.queued with
  | [] => s.nextBuffered t.site t.line
  | (k, m) :: r =>
    let x : Txn := ⟨s.nextTxn, t.site, m.line, k, m, 0, [], 0, r, .agent⟩
    let s : State := { s with txns := s.txns ++ [x], nextTxn := s.nextTxn + 1 }
    s.send k.row m

/-- An answer sent to its requester, kept until the requester uses its record again, so that a duplicate request is
answered again (11 R302); an answer to the host leaves the device. -/
def State.answer (s : State) (k : ReqKind) (m : Msg) : State :=
  if m.agent = .host then
    let a := if k = .getT ∨ k = .getH then
        some (m.data, (List.range 16).any fun w => s.poisoned (64 * m.line + 4 * w)) else s.hostAnswer
    { s with hostAnswer := a }
  else
  let s : State := { s with
    seenTags := (s.seenTags.filter fun x =>
      !(x.1.agent == m.agent && x.1.site == m.site && x.1.record == m.record)) ++ [(m, k)] }
  s.send k.answerRow m

/-- A host snoop's end (11 Table 11.10): SnpData leaves S, SnpInv I, SnpCur no change. -/
def State.endSnoop (s : State) (t : Txn) : State :=
  match t.kind with
  | .getT => { s with cxl := fput s.cxl t.line .s }
  | .putP => { s with cxl := fdel s.cxl t.line }
  | _ => s

/-- A request whose probes are answered is performed, or waits for the home or the host and tries again. -/
def State.tryPerform (s : State) (t : Txn) : State :=
  let t := { t with stage := 4, awaiting := [] }
  match s.performStop t with
  | some (.host l w) => ((s.setTxn t).askHost l w).send t.kind.row t.req
  | some _ => (s.setTxn t).send t.kind.row t.req
  | none =>
    if t.cause ≠ .agent then (if t.cause = .snoop then s.endSnoop t else s).finishTxn t else
    let r := s.perform t
    let s : State := { r.1 with hostReady := r.1.hostReady.filter (· != t.line) }
    (s.finishTxn t).answer t.kind r.2

/-- Every InvAck has come (11 R288). -/
def State.afterInv (s : State) (t : Txn) : State :=
  let s := if t.kind.invalidates t.req.readsOnly && t.req.mask == 0xFFFF then
      s.setEntry { s.entry t.site t.line with sh := 0 } else s
  s.tryPerform t

/-- Every slot is free that must be: the invalidations. -/
def State.afterVictim (s : State) (t : Txn) : State :=
  let ps := s.invsOf t
  if ps.isEmpty then s.afterInv t else s.sendProbes t .invMsg 3 (if t.cause = .evict then 12 else 9) ps

/-- Every StripAck has come: the words leave the slots, and a GetO that finds both in use frees one. -/
def State.afterStrips (s : State) (t : Txn) : State :=
  let s := if t.flushes then s else
    t.lines.foldl (fun (s : State) l => s.setEntry ((s.entry t.site l).release t.requester t.req.mask)) s
  let ps := s.victimOfTxn t
  if ps.isEmpty then s.afterVictim t else s.sendProbes t .strip 2 8 ps

/-- The probes of a request begin (11 R288): the strips; SnpCur flushes and a Pack holds its lines in PK. -/
def State.startProbes (s : State) (t : Txn) : State :=
  let ps := if t.kind.strips then s.stripsOf t else []
  if ps.isEmpty then s.afterStrips t
  else s.sendProbes t (if t.flushes then .flush else .strip) 1 (if t.kind = .pack then 11 else 8) ps

/-- A compressed block expanded at its home (11 R296); one that fails to decode is an uncorrectable error: its words are marked
(15 R375). -/
def State.expandHome (s : State) (l : Nat) : State :=
  let bad := s.badBlock (64 * l)
  let s := s.expand (64 * l)
  if bad then { s with poison := s.poison ++ ((List.range 64).map fun i => s.placeOf (256 * (l / 4) + 4 * i) / 4) } else s

/-- A request record begins (11 R288): a request that asks for the expansion of its block first puts the block's four lines
into XP and goes on in its next turn (11 R296); else the strips. -/
def State.startTxn (s : State) (t : Txn) : State :=
  if t.kind.expands && t.cause == .agent && s.isHome t.site t.line && s.packed (64 * t.line) then
    let t := { t with stage := 5 }
    let s := s.setTxn t
    (t.lines.foldl (fun (s : State) l => s.setEntry { s.entry t.site l with st := 10, record := t.id % 2048 }) s).send t.kind.row t.req
  else s.startProbes t

/-- The block of a record in XP is expanded, its other lines are free, and the request goes on. -/
def State.expandTxn (s : State) (t : Txn) : State :=
  let s := t.lines.foldl (fun (s : State) l => s.setEntry { (s.entry t.site l).settle with record := 0 }) (s.expandHome t.line)
  let t := { t with stage := 0 }
  (s.setTxn t).startProbes t

/-! ### Requests at a home or proxy -/

/-- A WB (11 Table 11.7): its bytes are merged by mask, the released words leave the agent's slot, Done answers; it needs
no record of its own (11 R285). A tag seen before is answered only (11 R302). -/
def State.takeWb (s : State) (m : Msg) : State :=
  let s := s.mergeAt m.site m.line m.bmask m.data
  let e := s.entry m.site m.line
  let m0 := if e.o0 == some m.agent then e.m0 &&& ~~~m.released else e.m0
  let m1 := if e.o1 == some m.agent then e.m1 &&& ~~~m.released else e.m1
  let e' := { e with m0 := m0, m1 := m1, o0 := if m0 == 0 then none else e.o0, o1 := if m1 == 0 then none else e.o1 }
  (s.setEntry (if 8 ≤ e.st.toNat then e' else e'.settle)).answer .wb m.bare

/-- Records of a home slice that requests other than write-backs may take (11 R285). -/
def requestRecords : Nat := 2048 - 64

/-- Must a request wait in the buffers of its channel: its slice has no free record, or one for its line waits there already
(11 R285)? -/
def State.mustBuffer (s : State) (site : Site) (l : Nat) : Bool :=
  decide (requestRecords ≤ (s.txns.filter fun t => t.site == site && site.slice t.line == site.slice l).length) ||
  s.buffered.any fun x => x.2.site == site && x.2.line == l

/-- Has a line's set at a site no entry for it and no free way (11 R293)? -/
def State.setFull (s : State) (site : Site) (l : Nat) : Bool :=
  (s.entry site l).st == 0 && decide (16 ≤ (s.dirSetOf site l).length)

/-- A request arrives (11 R285, R286, R302): a duplicate of an answered one is answered again, one of a request in
progress adds nothing, a WB is merged at once, one for a line under migration or in a transaction joins its queue, one
that finds no free record waits in its channel's buffers; one that needs an entry in a full set waits for the victim's
eviction, one for a home that is not ready for the home; else a record takes it. -/
def State.request (s : State) (k : ReqKind) (m : Msg) : State :=
  match s.seenTags.find? fun x => x.1.sameTag m && x.2 == k with
  | some (ans, _) => s.send k.answerRow ans
  | none =>
    match s.homeState (64 * m.line) with
    | some (.dead _) => s
    | some _ => s.send k.row m
    | none =>
      if k = .wb then s.takeWb m else
      match s.txnAt m.site m.line with
      | some t =>
        if t.kind = k && t.req.sameTag m then
          if t.stage = 0 then s.startTxn t else if t.stage = 4 then s.tryPerform t else if t.stage = 5 then s.expandTxn t else s
        else if t.queued.any fun x => x.1 == k && x.2.sameTag m then s
        else s.setTxn { t with queued := t.queued ++ [(k, m)] }
      | none =>
        match s.migrating m.line with
        | some i => { s with moves := s.moves.modify i fun mv => { mv with queued := mv.queued ++ [(k, m)] } }
        | none =>
          if s.mustBuffer m.site m.line then { s with buffered := s.buffered ++ [(k, m)] } else
          if s.setFull m.site m.line then (s.startEvict m.site m.line).send k.row m else
          let t : Txn := ⟨s.nextTxn, m.site, m.line, k, m, 0, [], 0, [], .agent⟩
          let s : State := { s with txns := s.txns ++ [t], nextTxn := s.nextTxn + 1 }
          s.startTxn t

/-- GETH (11 R288): a wt load's request. -/
def execGeth (s : State) : Out := .next (s.request .getH s.msg)

/-- GETU: an si load's, or an si store's that missed. -/
def execGetu (s : State) : Out := .next (s.request .getU s.msg)

/-- GETT: a wi load's. -/
def execGett (s : State) : Out := .next (s.request .getT s.msg)

/-- GETO (11 R289): an own load's or store's. -/
def execGeto (s : State) : Out := .next (s.request .getO s.msg)

/-- OPH: an atomic's, an accumulation's, an accumulator read's, an amax merge's. -/
def execOph (s : State) : Out := .next (s.request .opH s.msg)

/-- PACK_MESSAGE (11 R297): all 16 words of the four lines. -/
def execPackMessage (s : State) : Out := .next (s.request .pack { s.msg with mask := 0xFFFF })

/-- PUTP: a wt store's. -/
def execPutp (s : State) : Out := .next (s.request .putP s.msg)

/-- PUTT: a wi store's. -/
def execPutt (s : State) : Out := .next (s.request .putT s.msg)

/-- WB (11 R292). -/
def execWb (s : State) : Out := .next (s.request .wb s.msg)

/-! ### Probes at agents (11 R290 to R292) -/

/-- The cores under a last-level cache serve a probe first (11 R280): their dirty bytes of owned words of R reach it; of a Strip they
give the words up, and the tracked copies that no home covers then go too. -/
def State.probeUnder (s : State) (keep : Bool) (a : Agent) (l : Nat) (R : BitVec 16) : State :=
  match a with
  | .llc d =>
    let s := ((s.entry (.die d) l).owners none R).foldl (fun (s : State) (x : Agent × BitVec 16) => s.cleanOwned x.1 l x.2) s
    if keep then s else (s.stripCores d l none R).untrack d l R
  | _ => s

/-- An answer with bytes, kept in a write-back buffer until Done (11 R292). -/
def State.sendBack (s : State) (k : BackKind) (m : Msg) (behind : BitVec 512) : State :=
  let s : State := { s with wbuf := s.wbuf ++ [⟨k, m, s.clock.toNat, behind⟩] }
  (s.send (match k with
    | .wb => .wb
    | .strip => .stripack
    | .flush => .flushack) m).watch

/-- The words an agent owns of a line or has given back by a WB that its home has not answered yet (11 R292). -/
def State.wordsHeld (s : State) (a : Agent) (l : Nat) : BitVec 16 :=
  (s.wbuf.filter fun w => w.kind == .wb && w.msg.agent == a && w.msg.line == l).foldl (fun m w => m ||| w.msg.released)
    (s.line a l).owned

/-- The grant a probe must wait for: a GetO of the line under way, where the probe names words the agent neither owns nor has
given back (11 R290). -/
def State.grantFor (s : State) (m : Msg) : Option Nat :=
  if m.mask &&& ~~~(s.wordsHeld m.agent m.line) = 0 then none else
  (List.range s.miss.length).find? fun i => match s.miss[i]? with
    | some x => x.agent == m.agent && x.line == m.line && x.kind == .getO
    | none => false

/-- A Strip (`keep` false) or a Flush at an owner: answered again when it was answered before; held while the grant of its
words is awaited (11 R290); a last-level cache serves its cores first (11 R280). -/
def State.probeOwner (s : State) (keep : Bool) (m : Msg) : State :=
  let a := m.agent
  let kind : BackKind := if keep then .flush else .strip
  match s.wbuf.find? fun w => w.kind == kind && w.msg.sameTag m with
  | some w => s.send (if keep then .flushack else .stripack) w.msg
  | none =>
    match s.grantFor m with
    | some i => { s with miss := s.miss.modify i fun x => { x with held := x.held ++ [(keep, m)] } }
    | none =>
      let busy := match a with
        | .llc d => s.lineBusyAt (.die d) m.line
        | _ => false
      if busy then s.send (if keep then .flush else .strip) m else
      let s := s.probeUnder keep a m.line m.mask
      let c := s.line a m.line
      let ack := { m.bare with bmask := c.dirty &&& wordsToBytes (c.owned &&& m.mask), data := s.homeData m.line }
      let s := if keep then s.cleanOwned a m.line m.mask else s.dropOwned a m.line m.mask
      s.sendBack kind ack c.behind

/-- STRIP (11 R290). -/
def execStrip (s : State) : Out := .next (s.probeOwner false s.msg)

/-- FLUSH: dirty bytes are returned and ownership kept. -/
def execFlush (s : State) : Out := .next (s.probeOwner true s.msg)

/-- INV (11 R291): the holder drops the words and answers at once; a fill still outstanding will not keep them. -/
def execInvMsg (s : State) : Out :=
  let m := s.msg
  let busy := match m.agent with
    | .llc d => s.lineBusyAt (.die d) m.line
    | _ => false
  if busy then .next (s.send .invMsg m) else
  let s := s.invAgent m.agent m.line m.mask
  let s : State := { s with miss := s.miss.map fun x =>
    if x.agent = m.agent ∧ x.line / 4 = m.line / 4 then { x with dropped := x.dropped ||| (m.mask.setWidth 64 <<< (16 * (m.line % 4))) }
    else x }
  .next (s.send .invack m)

/-! ### Probe answers at a home or proxy -/

/-- The record that awaits an answer of an agent about a line, in one of two stages: the one whose probe had the answer's tag
(11 R286, R302). -/
def State.awaiter (s : State) (m : Msg) (lo hi : Nat) : Option Txn :=
  s.txns.find? fun t => t.site == m.site && t.lines.contains m.line && t.awaiting.contains m.agent &&
    decide (lo ≤ t.stage) && decide (t.stage ≤ hi) && (t.tagged t.stage m).sameTag m

/-- One awaited answer has come; after the last the request goes on. -/
def State.answered (s : State) (t : Txn) (a : Agent) : State :=
  let t := { t with awaiting := t.awaiting.erase a }
  let s := s.setTxn t
  let s := t.lines.foldl (fun (s : State) l => s.setEntry { s.entry t.site l with acks := t.awaiting.length % 256 }) s
  if !t.awaiting.isEmpty then s
  else if t.stage = 1 then s.afterStrips t
  else if t.stage = 2 then s.afterVictim t
  else s.afterInv t

/-- A StripAck or FlushAck: its bytes are merged once, Done answers every copy of it (11 R292, R302). -/
def State.takeBack (s : State) (m : Msg) : State :=
  let s := s.send .doneMsg m.bare
  match s.awaiter m 1 2 with
  | none => s
  | some t =>
    let s := s.mergeAt m.site m.line m.bmask m.data
    let s := if t.stage = 2 then
        let e := s.entry t.site t.line
        s.setEntry (if e.o0 = some m.agent then { e with o0 := none, m0 := 0 } else { e with o1 := none, m1 := 0 })
      else s
    s.answered t m.agent

/-- STRIPACK. -/
def execStripack (s : State) : Out := .next (s.takeBack s.msg)

/-- FLUSHACK. -/
def execFlushack (s : State) : Out := .next (s.takeBack s.msg)

/-- An InvAck, or a BIRsp that counts as one (11 R301). -/
def State.takeInvAck (s : State) (m : Msg) : State :=
  match s.awaiter m 3 3 with
  | none => s
  | some t => s.answered t m.agent

/-- INVACK. -/
def execInvack (s : State) : Out := .next (s.takeInvAck s.msg)

/-- BIRSP (11 R301): the host's answer to BISnpInv: the InvAck a record awaits, or what an access waits for. -/
def execBirsp (s : State) : Out :=
  let m := { s.msg with agent := .host }
  if s.biWait.contains m.line && (s.awaiter m 3 3).isNone then
    .next { s with biWait := s.biWait.filter (· != m.line), biReady := s.biReady.filter (· != m.line) ++ [m.line] }
  else .next (s.takeInvAck m)

/-! ### Answers at requesters -/

/-- A fill of a line in a copy: never over a dirty byte (10 R268), never keeping words an Inv took meanwhile (11 R291). -/
def CLine.fillWith (c : CLine) (k : ReqKind) (m : Msg) (d : BitVec 512) (dropped : BitVec 16) : CLine :=
  let valid := m.valid &&& ~~~dropped
  match k with
  | .getO => { c.fill (valid ||| m.grant) d with owned := c.owned ||| m.grant }
  | .getU => c.fill valid d
  | .getT => { c.fill valid d with tracked := true }
  | _ => c

/-- The store that caused a GetO is performed as its grant arrives (11 R290): its bytes go into the owned words. -/
def State.grantedStore (s : State) (m : Msg) : State :=
  (maskBytes m.bmask).foldl (fun (s : State) i => s.ownedPut m.agent m.line i (dataByte m.data i)) s

/-- A 64-byte line of a delivered block (11 R295). -/
def blockLine (block : List Byte) (i : Nat) : BitVec 512 :=
  let out := (decodeBlock (fun j => block.getD j 0) 256).out.reverse
  BitVec.ofNat 512 (leNat ((List.range 64).map fun j => out.getD (64 * i + j) 0))

/-- The words an Inv took from the fill of line `l` of a miss's block. -/
def Miss.droppedOf (x : Miss) (l : Nat) : BitVec 16 := x.dropped.extractLsb' (16 * (l % 4)) 16

/-- Data for a request that awaits it: the line, or the block's four lines, installed; the values delivered to the access that
caused the request, a GetO's store performed; the probes held for its grant are due again (11 R290, R291, R295). -/
def State.takeData (s : State) (x : Miss) (m : Msg) : State :=
  let data := if m.block.isEmpty then m.data else blockLine m.block (m.line % 4)
  let s := if m.block.isEmpty then s.setLine ((s.line m.agent m.line).fillWith x.kind m m.data (x.droppedOf m.line))
    else (List.range 4).foldl (fun (s : State) i =>
      let l := m.line / 4 * 4 + i
      s.setLine ((s.line m.agent l).fillWith x.kind { m with valid := if l = m.line then m.valid else 0xFFFF }
        (blockLine m.block i) (x.droppedOf l))) s
  let s := if x.kind = .getO then s.grantedStore { x.req with agent := m.agent, line := m.line } else s
  let s : State := { s with delivered := (s.delivered.filter fun d => !d.1.sameTag x.req) ++ [(x.req, data)] }
  x.held.foldl (fun (s : State) h => s.send (if h.1 then .flush else .strip) h.2) s

/-- An answer ends the request it answers; a second one is ignored (11 R302). -/
def State.takeAnswer (s : State) (m : Msg) (act : State → Miss → State) : State :=
  match s.miss.find? fun x => x.req.sameTag m with
  | none => s
  | some x =>
    let s : State := { s with miss := s.miss.filter fun y => !y.req.sameTag m }
    act s x

/-- DATA. -/
def execDataMsg (s : State) : Out := .next (s.takeAnswer s.msg fun s x => s.takeData x s.msg)

/-- CMP: a wi store's copy takes the new bytes and is tracked (11 Table 11.7). -/
def execCmpMsg (s : State) : Out :=
  .next (s.takeAnswer s.msg fun s x =>
    if x.kind = .putT then
      let c := s.line x.agent x.line
      s.setLine { c with tracked := decide (c.valid ≠ 0), data := blend c.data x.req.data x.req.bmask }
    else s)

/-- DONE: the owner frees its write-back buffer (11 R292). -/
def execDoneMsg (s : State) : Out :=
  .next { s with wbuf := s.wbuf.filter fun w => !w.msg.sameTag s.msg }

/-! ### The host (11 R299 to R301) -/

/-- A host snoop (11 Table 11.10), served as a request of its own once the line is free; of a line the host-proxy home
does not hold nothing is done. -/
def State.snoop (s : State) (row : Instr) (k : ReqKind) : State :=
  let m := s.msg
  if !hostLine s.tc m.line || (fget .i s.cxl m.line == .i && (s.entry .hostProxy m.line).st == 0) then s
  else if s.lineBusyAt .hostProxy m.line then s.send row m
  else
    let m := { m.bare with agent := .host, site := .hostProxy, mask := 0xFFFF }
    let t : Txn := ⟨s.nextTxn, .hostProxy, m.line, k, m, 0, [], 0, [], .snoop⟩
    let s : State := { s with txns := s.txns ++ [t], nextTxn := s.nextTxn + 1 }
    s.startTxn t

/-- SNPDATA: all owned words stripped; S. -/
def execSnpdata (s : State) : Out := .next (s.snoop .snpdata .getT)

/-- SNPINV: all owned words stripped, every tracked copy invalidated; I. -/
def execSnpinv (s : State) : Out := .next (s.snoop .snpinv .putP)

/-- SNPCUR: all owned words flushed; unchanged. -/
def execSnpcur (s : State) : Out := .next (s.snoop .snpcur .getH)

/-- What the host holds of a line as it answers: the bytes it names, else what it has written since (a free value), else what
the device last gave it. -/
def State.hostLineBytes (s : State) (l : Nat) (named : List Byte) : List Byte :=
  (List.range 64).map fun i => match named[i]? with
    | some b => b
    | none => (Config.hostWrote s.tick (64 * l + i)).getD (s.readPhys (64 * l + i))

/-- The buffer takes a host line in a state: 16 MiB of 16 ways; a full set gives up a line that is not at work (11 R299), which
one is a free choice. -/
def State.hostTake (s : State) (l : Nat) (x : CxlState) : State :=
  let ways := (s.cxl.map (·.1)).filter fun k => Config.hostSet k % 16384 == Config.hostSet l % 16384 && k != l
  let idle := ways.filter fun k => !s.lineBusyAt .hostProxy k && !s.wbFlying k
  let s := if ways.length < 16 then s else match s.pickFrom 5 idle with
    | some k => s.evictHost k
    | none => s
  { s with cxl := fput s.cxl l x }

/-- CXL_CACHE_RESPONSE (11 R299): the host answers request `b` for line `a` (codes as in `State.askHost`): its data when the
proxy held none of it, and the state asked for: RdCurr none, RdShared S, RdOwn E, RdOwnNoData E for a whole line to come; a
write-back or an eviction is complete. -/
def execCxlCacheResponse (s : State) : Out :=
  let l := s.arg.a
  let w := s.arg.b
  if !s.cxlWait.contains (l, w) || !hostLine s.tc l then .next s else
  if s.lineBusyAt .hostProxy l && (s.txnAt .hostProxy l).all (fun t => t.stage != 4) then .next (s.post .cxlCacheResponse s.arg) else
  let s : State := { s with cxlWait := s.cxlWait.filter (· != (l, w)) }
  let old := fget CxlState.i s.cxl l
  if 4 ≤ w then .next s
  else if w = 3 then .next { s with cxlNoData := if old = .i then s.cxlNoData.filter (· != l) ++ [l] else s.cxlNoData }
  else
    let s := if old != .i then s else s.writesPhys (64 * l) (s.hostLineBytes l s.arg.bytes)
    let s : State := { s with cxlNoData := s.cxlNoData.filter (· != l) }
    if w = 0 then .next { s with hostReady := s.hostReady.filter (· != l) ++ [l] }
    else if w = 1 then .next (if old = .i then s.hostTake l .s else s)
    else .next (if old = .m then s else s.hostTake l .e)

/-- A host access to device memory (11 R301): the HBM as CXL.mem maps it. Of an address that is not mapped a read returns all
ones, poisoned, and a write is discarded (16 R381). -/
def State.hostAccess (s : State) (k : ReqKind) (m : Msg) : State :=
  match physRange s.tc (64 * m.line) with
  | .flat _ => s.request k { m with agent := .host, site := homeOf s.tc (64 * m.line) }
  | .steppe => s.request k { m with agent := .host, site := homeOf s.tc (64 * m.line) }
  | _ => if k = .getT ∨ k = .getH then { s with hostAnswer := some (BitVec.allOnes 512, true) } else s

/-- Has CXL.mem come up (16 R388)? -/
def State.cxlMemUp (s : State) : Bool := bitAt (s.creg 0x10).toNat 34

/-- MEMRD (11 R301): a host read through CXL.mem, served as a GetT; it waits until CXL.mem is up. -/
def execMemrd (s : State) : Out := .next (if s.cxlMemUp then s.hostAccess .getT s.msg else s.post .memrd s.arg)

/-- MEMWR (11 R301): a host write, served as a PutP. -/
def execMemwr (s : State) : Out :=
  .next (if s.cxlMemUp then s.hostAccess .putP { s.msg with mask := bytesToWords s.msg.bmask } else s.post .memwr s.arg)

/-- A window access (16 R382): offset `a` of the window in physical memory from `WIN`.BASE. -/
def State.windowMsg (s : State) : Msg :=
  let m := s.msg
  { m with line := (field (s.creg 0x70) 32 20 * 2 ^ 32 + s.arg.a % 2 ^ 32) / 64 }

/-- WINDOW_READ (16 R382): a CXL.io read, served as a GetH. -/
def execWindowRead (s : State) : Out := .next (s.hostAccess .getH s.windowMsg)

/-- WINDOW_WRITE (16 R382): a CXL.io write, served as a PutP. -/
def execWindowWrite (s : State) : Out :=
  .next (s.hostAccess .putP { s.windowMsg with mask := bytesToWords s.windowMsg.bmask })

/-! ### Route failures (11 R302) -/

/-- The rows that carry coherence messages between agents and homes. -/
def cohRows : List Instr :=
  [.geth, .getu, .gett, .geto, .oph, .packMessage, .putp, .putt, .wb, .strip, .flush, .invMsg, .stripack, .flushack, .invack,
   .dataMsg, .cmpMsg, .doneMsg]

/-- What a record resends: its request's own turn, or the probes whose answers it still awaits. -/
def State.resendTxn (s : State) (t : Txn) : State :=
  if t.stage = 0 || t.stage = 4 || t.stage = 5 then
    if s.events.any fun e => e.row == t.kind.row && (match e.arg.m with
        | some m => m.sameTag t.req
        | none => false) then s
    else if t.cause ≠ .agent then s.tryPerform t else s.send t.kind.row t.req
  else
    let ps := if t.stage = 1 then s.stripsOf t else if t.stage = 2 then s.victimOfTxn t else s.invsOf t
    let row : Instr := if t.stage = 3 then .invMsg else if t.flushes then .flush else .strip
    let s := s.setTxn { t with since := s.clock.toNat }
    (ps.filter fun p => t.awaiting.contains p.1).foldl (fun (s : State) p =>
      s.send (if p.1 = .host then .birsp else row) (t.probe t.stage p)) s

/-- Every message whose sender still awaits an answer, sent at or before `by_`, sent again (11 Table 11.11). -/
def State.resend (s : State) (by_ : Nat) : State :=
  let s := (s.miss.filter fun x => decide (x.since ≤ by_)).foldl (fun (s : State) x => s.send x.kind.row x.req) s
  let s : State := { s with miss := s.miss.map fun x => if x.since ≤ by_ then { x with since := s.clock.toNat } else x }
  let s := (s.txns.filter fun t => decide (t.since ≤ by_)).foldl (fun (s : State) t => s.resendTxn t) s
  let s := (s.wbuf.filter fun w => decide (w.since ≤ by_)).foldl (fun (s : State) w => s.send (match w.kind with
    | .wb => .wb
    | .strip => .stripack
    | .flush => .flushack) w.msg) s
  { s with wbuf := s.wbuf.map fun w => if w.since ≤ by_ then { w with since := s.clock.toNat } else w }

/-- The answers the homes keep in their records sent again; a requester ignores a second one (11 Table 11.11). -/
def State.resendAnswers (s : State) : State :=
  (s.seenTags.filter fun x => s.miss.any fun y => y.req.sameTag x.1).foldl (fun (s : State) x => s.send x.2.answerRow x.1) s

/-- The socket of an agent, of a site: a compute die is its own, the tier dies are 9 and 10, the I/O die with the host-proxy
home is 8 (01 Table 1.1). -/
def Agent.socket (a : Agent) : Nat :=
  match a with
  | .core d _ => d
  | .llc d => d
  | .host => 8
  | .unit d => d

def Site.socket (site : Site) : Nat :=
  match site with
  | .die d => d
  | .tier d => d
  | _ => 8

/-- The route traffic between two sockets takes: the second of their two disjoint routes once the first has failed (16 R380,
11 R302). -/
def State.route (s : State) (a b : Nat) : Nat := if s.routesDown.contains (min a b, max a b, 0) then 1 else 0

/-- Does a message between an agent and a home travel a route of two sockets? -/
def Msg.takes (m : Msg) (s : State) (a b r : Nat) : Bool :=
  let x := m.agent.socket
  let y := m.site.socket
  min x y == min a b && max x y == max a b && x != y && s.route x y == r

/-- ROUTE_FAILURE (11 R302): route `c` between sockets `a` and `b` fails. Of the messages held in the failed part all, as far as
they had left (a free choice), are lost; the traffic takes the other route, and every sender sends again what it awaits an
answer for. -/
def execRouteFailure (s : State) : Out :=
  let a := s.arg.a
  let b := s.arg.b
  let r := s.arg.c % 2
  let lost := fun (i : Nat) (e : Event) => cohRows.contains e.row && e.arg.m.any (fun m => m.takes s a b r) &&
    bitAt (Config.choose s.tick 3 (2 ^ s.events.length)) i
  let s : State := { s with
    routesDown := if s.routesDown.contains (min a b, max a b, r) then s.routesDown else s.routesDown ++ [(min a b, max a b, r)]
    events := (s.events.zipIdx.filter fun x => !lost x.2 x.1).map (·.1) }
  .next ((s.resend s.clock.toNat).resendAnswers)

/-- RESEND_TIMEOUT (11 R302): what has waited 32 us is sent again; while an answer is awaited the poll goes on. -/
def execResendTimeout (s : State) : Out :=
  let s := s.resend (s.clock.toNat - usNs 32)
  .next (if s.miss.isEmpty && s.txns.isEmpty && s.wbuf.isEmpty then s else s.watch)

end Sys2Proof.Machine
end

