-- ==== Sys2Proof/Machine/Tiers.lean ====
section
/-! DEFINITION. The tier cache's fills, hotness, the migrator with its rings and thrash detector, fault replies and
translation invalidation (12 R310, R319, R320, R322 to R326, R328). -/

namespace Sys2Proof.Machine

/-! ### The tier cache (12 R310) -/

/-- TIER_CACHE_FILL: the next line of the fill of set `a` lands. -/
def execTierCacheFill (s : State) : Out :=
  let k := s.arg.a
  match s.fillOf k with
  | none => .next s
  | some (_, []) => .next { s with tcFills := s.tcFills.filter fun f => f.1 != k }
  | some (t, l :: r) =>
    let s := s.landLine k t l
    let rest := s.tcFills.filter fun f => f.1 != k
    if r.isEmpty then .next { s with tcFills := rest }
    else .next (({ s with tcFills := rest ++ [(k, t, r)] } : State).post .tierCacheFill { a := k })

/-! ### Hotness (12 R320) -/

/-- Has the migrator come up (16 R388)? -/
def State.migReady (s : State) : Bool := bitAt (s.creg 0x10).toNat 36

/-- What keeps an update of a page-table entry at its home from taking place: the home or the line cannot serve it now, a page
that is being moved holds it (12 R324), or its words are in error. -/
def State.leafStop (s : State) (a : Nat) : Option Reach :=
  (s.unitStop ioDie a 8 true).orElse fun _ => s.unitStop ioDie a 8 false

/-- One indivisible update of a page-table entry at its home. -/
def State.putEntry (s : State) (a : Nat) (x : Word64) : State := s.unitPutLe ioDie a 8 x.toNat

/-- The row that waits for a home put back, with what it waits for asked. -/
def State.again (s : State) (r : Reach) (row : Instr) (arg : EvArg) : State := (s.unitAsk r).postOnce row arg

/-- Is an entry a present leaf? -/
def isLeaf (x : Word64) : Bool := x.getLsbD 0 && field x 6 2 != 0

/-- An offer to the migrator (12 R320, R322): a page by its leaf, its address and address space. -/
def State.offer (s : State) (la va asid : Nat) : State :=
  if s.offers.any fun o => o.1 == la then s else
  ({ s with offers := s.offers ++ [(la, va, asid)] } : State).postOnce .migrateBlock {}

/-- HOTNESS_SAMPLE (12 R320): leaf `a` of the page at `b` in space `c` advances HOT; at THRESH a Steppe page that is not
pinned, in a TIERED space, with PROM = 1, is offered. -/
def execHotnessSample (s : State) : Out :=
  let la := s.arg.a
  if !s.migReady then .next s else
  match s.leafStop la with
  | some r => .next (if r.waits then s.again r .hotnessSample s.arg else s)
  | none =>
    let x := s.tableEntry la
    if !isLeaf x then .next s else
    let h := min (field x 58 6 + 1) 63
    let cfg := s.creg 0x50
    let th := field cfg 58 6
    let page := s.arg.b
    let asid := s.arg.c
    let tiered := bitAt (s.asEntry asid).toNat 1
    let s := s.putEntry la (setField x 58 6 h)
    .next (if th != 0 && decide (th ≤ h) && field x 14 2 == 1 && field x 57 1 == 0 && tiered && bitAt cfg.toNat 3 &&
        field x 6 2 != 3
      then s.offer la page asid else s)

/-- HOT halved at an entry of a level: of a present leaf itself, below a pointer of every leaf of its table. An entry whose home
cannot serve it now is left to a row of its own (12 R320). -/
def State.halveEntry (s : State) (fuel level a : Nat) : State :=
  match fuel with
  | 0 => s
  | f + 1 =>
    if physRange s.tc a = .unmapped then s else
    match s.leafStop a with
    | some r => if r.waits then s.again r .hotnessHalving { a := a, b := level + 1 } else s
    | none =>
      let x := s.tableEntry a
      if isLeaf x then s.putEntry a (setField x 58 6 (field x 58 6 / 2))
      else if x.getLsbD 0 && pointerOk x level then
        (List.range (if level = 3 then 32 else 512)).foldl
          (fun (s : State) i => s.halveEntry f (level + 1) (field x 8 44 * 256 + 8 * i)) (s.unitTouch ioDie a 8)
      else s

/-- HOT halved in an address space that is TIERED. -/
def State.halveSpace (s : State) (asid : Nat) : State :=
  match s.unitStop ioDie (s.asAddr asid) 8 false with
  | some r => if r.waits then s.again r .hotnessHalving { a := asid, b := 6 } else s
  | none =>
    let e := s.asEntry asid
    if !(bitAt e.toNat 0 && bitAt e.toNat 1) then s else
    (List.range 512).foldl (fun (s : State) i => s.halveEntry 5 0 (field e 12 40 * 4096 + 8 * i)) (s.unitTouch ioDie (s.asAddr asid) 8)

/-- HOTNESS_HALVING (12 R320): once every SWEEP milliseconds, in every TIERED space; with `b` the rest of a sweep that had to
wait: 1 to 5 the entry at `a` of level `b` - 1, 6 the space `a`. -/
def execHotnessHalving (s : State) : Out :=
  let sweep := field (s.creg 0x50) 46 8
  if 6 ≤ s.arg.b then .next (s.halveSpace s.arg.a)
  else if s.arg.b ≠ 0 then .next (s.halveEntry 5 (s.arg.b - 1) s.arg.a)
  else if sweep = 0 ∨ !s.migReady then .next s
  else if s.clock.toNat - s.lastHalve < usNs (1000 * sweep) then .next (s.post .hotnessHalving)
  else
    let now := s.clock.toNat
    let s := (List.range 16384).foldl (fun (s : State) i => s.halveSpace i) s
    .next (({ s with lastHalve := now } : State).post .hotnessHalving)

/-! ### The thrash detector (12 R325) -/

/-- What the detector keeps of a page. -/
def State.thrashOf (s : State) (page : Nat) : Thrash := (s.thrash.find? fun x => x.page == page).getD ⟨page, [], none⟩

/-- The latest move of an entry. -/
def Thrash.latest (x : Thrash) : Nat := x.moves.foldl max 0

/-- What the detector keeps of a page replaced; a full table gives up the entry whose latest move is oldest. -/
def State.setThrash (s : State) (x : Thrash) : State :=
  if s.thrash.any fun y => y.page == x.page then { s with thrash := s.thrash.map fun y => if y.page = x.page then x else y }
  else if s.thrash.length < 1024 then { s with thrash := s.thrash ++ [x] }
  else
    let old := (s.thrash.map Thrash.latest).foldl min s.clock.toNat
    match s.thrash.find? fun y => y.latest == old with
    | some y => { s with thrash := (s.thrash.erase y) ++ [x] }
    | none => { s with thrash := s.thrash.drop 1 ++ [x] }

/-- Moves allowed within WIN, and WIN in nanoseconds; 0 of either disables the detector (12 R321). -/
def State.nmove (s : State) : Nat := field (s.creg 0x50) 42 4
def State.thrashWin (s : State) : Nat := usNs (1000 * field (s.creg 0x50) 34 8)

/-- A move of a page recorded: the times of its last NMOVE moves. -/
def State.recordMove (s : State) (page : Nat) : State :=
  let x := s.thrashOf page
  s.setThrash { x with moves := (x.moves ++ [s.clock.toNat]).drop (x.moves.length + 1 - s.nmove) }

/-- Is an offer of a page admitted? A refused page that is not throttled becomes throttled for THROT milliseconds. -/
def State.admits (s : State) (page : Nat) : Bool × State :=
  if s.nmove = 0 ∨ s.thrashWin = 0 then (true, s) else
  let x := s.thrashOf page
  let t := s.clock.toNat
  if x.until_.any fun u => decide (t < u) then (false, s)
  else if (x.moves.filter fun m => decide (t < m + s.thrashWin)).length < s.nmove then (true, s)
  else
    let u := t + usNs (1000 * field (s.creg 0x50) 18 16)
    (false, (s.setThrash { x with until_ := some u }).postOnce .throttleExpiry { a := page })

/-- THROTTLE_EXPIRY: page `a` becomes eligible again once its throttle has run out. -/
def execThrottleExpiry (s : State) : Out :=
  let x := s.thrashOf s.arg.a
  match x.until_ with
  | none => .next s
  | some u => .next (if s.clock.toNat < u then s.post .throttleExpiry s.arg else s.setThrash { x with until_ := none })

/-! ### The migrator (12 R322 to R324) -/

/-- Base and size of a frame record (12 Table 12.11). -/
def frameBase (f : BitVec 64) : Nat := field f 16 36 * 65536
def frameSize (f : BitVec 64) : Nat := pageSize (field f 0 2)

/-- Does a frame record name an aligned frame in one mapped range, of a SIZE? -/
def frameOk (tc : Nat) (f : BitVec 64) (size : Nat) : Bool :=
  let r := physRange tc (frameBase f)
  field f 0 2 == size && size != 0 && frameBase f % frameSize f == 0 && physRange tc (frameBase f + frameSize f - 1) == r &&
  decide (r.tier < 3)

/-- FREE_FRAME_RECORD (12 R322): the migrator takes the next record of ring 0; one that names no frame of the bandwidth
tier of size 1 or 2 is passed over. -/
def execFreeFrameRecord (s : State) : Out :=
  match s.ringNext 0 with
  | none => .next s
  | some (.error r) => .next (s.again r .freeFrameRecord {})
  | some (.ok (s, x)) =>
    let f : BitVec 64 := BitVec.ofNat 64 x
    let s := s.ringPop 0 .freeFrameRecord
    .next (if (frameOk s.tc f 1 || frameOk s.tc f 2) && (physRange s.tc (frameBase f)).tier == 0
      then { s with framePool := s.framePool ++ [f &&& 0xFFFFFFFFF0003] } else s)

/-- A move in progress, by its leaf. -/
def State.moveOf (s : State) (la : Nat) : Option Move := s.moves.find? fun m => m.leafAddr == la

/-- A move replaced. -/
def State.setMove (s : State) (m : Move) : State :=
  { s with moves := s.moves.map fun x => if x.leafAddr = m.leafAddr then m else x }

/-- The queued requests of a page served in order at the home of the lines they now have, `from_` lines further up. -/
def State.serveQueue (s : State) (q : List (ReqKind × Msg)) (old new : Nat) : State :=
  q.foldl (fun (s : State) x =>
    let l := x.2.line + new - old
    let site := if x.2.site = homeOf s.tc (64 * x.2.line) then homeOf s.tc (64 * l) else x.2.site
    s.request x.1 { x.2 with line := l, site := site }) s

/-- A move abandoned: its queue is served in place and the page is free; an offer's frame is free again, a request's goes
to the returned ring (12 Table 12.12). -/
def State.abandon (s : State) (m : Move) : State :=
  let s := if m.request then (s.setMove { m with state := .abandon, queued := [] }).post .migrateReplay { a := m.leafAddr }
    else { s with moves := s.moves.filter fun x => x.leafAddr != m.leafAddr, framePool := s.framePool ++ [m.frame] }
  s.serveQueue m.queued 0 0

/-- Is a line of the page of a move? -/
def Move.has (m : Move) (l : Nat) : Bool := decide (m.page.1 ≤ l) && decide (l < m.page.1 + m.page.2)

/-- A cached line of a page that is blocked written back and dropped: owned words by a Strip, tracked ones by an Inv, an si copy
as 10 R268 merges it. -/
def State.dropLine (s : State) (c : CLine) : State :=
  let l := c.line
  let s := s.writeBackSi c.agent l
  let s := if c.owned = 0 then s else s.releaseOwned (siteFor c.agent (homeOf s.tc (64 * l))) c.agent l c.owned
  s.setLine { s.line c.agent l with valid := 0, dirty := 0, owned := 0, tracked := false }

/-- Is something of a page still at work: a request or an eviction of its lines, a write-back on its way, a message to the
host? -/
def State.pageAtWork (s : State) (m : Move) : Bool :=
  s.txns.any (fun t => m.has t.line) || s.dir.any (fun e => m.has e.line && decide (8 ≤ e.st.toNat)) ||
  s.wbuf.any (fun w => m.has w.msg.line) || s.cxlWait.any fun w => m.has w.1 && decide (4 ≤ w.2)

/-- The lines of a page that the host holds and has not answered a BISnpInv for (11 R301). -/
def State.hostShares (s : State) (m : Move) : List Nat :=
  ((s.dir.filter fun e => m.has e.line && e.sh.getLsbD 16).map (·.line)).filter fun l => !s.biReady.contains l

/-- BLOCK: once nothing of the page is at work and the host has given up its lines, every copy of its lines in a core, then in
a last-level cache, is written back and dropped, and the page's entries hold nothing (12 Table 12.12). -/
def State.blockPage (s : State) (m : Move) : State :=
  if s.pageAtWork m then s.post .migrateBlock { a := m.leafAddr, b := 1 }
  else if !(s.hostShares m).isEmpty then
    ((s.hostShares m).foldl (fun (s : State) l => s.askBack l) s).post .migrateBlock { a := m.leafAddr, b := 1 }
  else
    let core := fun (c : CLine) => match c.agent with
      | .core _ _ => true
      | _ => false
    let s := (s.lines.filter fun c => m.has c.line && core c).foldl (fun (s : State) c => s.dropLine (s.line c.agent c.line)) s
    let s := (s.lines.filter fun c => m.has c.line).foldl (fun (s : State) c => s.dropLine (s.line c.agent c.line)) s
    let s : State := { s with dir := s.dir.filter fun e => !m.has e.line, biReady := s.biReady.filter fun l => !m.has l }
    (s.setMove { m with state := .copy }).post .migrateCopy { a := m.leafAddr }

/-- A move begun on an admitted page. -/
def State.beginMove (s : State) (m : Move) : State :=
  let s : State := { s.recordMove m.leafAddr with moves := s.moves ++ [m] }
  s.blockPage m

/-- May an offered page move: a present leaf of 64 KiB or 2 MiB in Steppe or host memory, not pinned, not moving? -/
def State.movable (s : State) (la : Nat) (x : Word64) : Bool :=
  isLeaf x && field x 6 2 != 3 && leafOk s.tc x (5 - field x 6 2) && (field x 14 2 == 1 || field x 14 2 == 2) &&
  field x 57 1 == 0 && s.moves.all fun m => m.leafAddr != la && field m.leaf 16 36 != field x 16 36

/-- An offer or a PREF.bw page taken (12 R322, R325): with no frame of its size, or with 16 moves in progress, it is
dropped. -/
def State.takeOffer (s : State) (la va asid : Nat) : State :=
  let x := s.tableEntry la
  if !s.movable la x then s else
  match s.admits la with
  | (false, s) => s
  | (true, s) =>
    match s.framePool.find? fun f => field f 0 2 == field x 6 2 with
    | none => s
    | some f => if 16 ≤ s.moves.length then s else
      ({ s with framePool := s.framePool.erase f } : State).beginMove ⟨la, x, va, asid, f, false, .block, []⟩

/-- MIGRATE_BLOCK (12 R323): the next offer is taken, unless the returned ring is full; with `b` = 1 the move of leaf `a`
goes on blocking its page. -/
def execMigrateBlock (s : State) : Out :=
  if s.arg.b = 1 then
    match s.moveOf s.arg.a with
    | some m => .next (if m.state = .block then s.blockPage m else s)
    | none => .next s
  else match s.offers with
  | [] => .next s
  | (la, va, asid) :: r =>
    if !s.migReady || s.ringFull 1 then .next ((s.askRing 1).postOnce .migrateBlock {}) else
    let stop := s.leafStop la
    if stop.any Reach.waits then .next (s.again (stop.getD .busy) .migrateBlock {}) else
    let s : State := { s with offers := r }
    let s := if r.isEmpty then s else s.postOnce .migrateBlock {}
    .next (if stop.isSome then s else s.takeOffer la va asid)

/-- May a request's move of leaf `x` at `la` to frame `f` take place: a present leaf there and a frame that suits it, the page in
no other move, its leaf not in the page itself? -/
def State.mayMove (s : State) (la : Nat) (x : Word64) (f : BitVec 64) : Bool :=
  la % 8 == 0 && physRange s.tc la != .unmapped && isLeaf x && leafOk s.tc x (5 - field x 6 2) && frameOk s.tc f (field x 6 2) &&
  (s.moves.all fun m => m.leafAddr != la && field m.leaf 16 36 != field x 16 36)

/-- MIGRATION_REQUEST (12 R322): the driver's next request: the leaf, and a target frame of any tier but a peer's; with no
present leaf there, or a target that does not suit it, it is completed as abandoned. -/
def execMigrationRequest (s : State) : Out :=
  match s.ringNext 2 with
  | none => .next s
  | some (.error r) => .next (s.again r .migrationRequest {})
  | some (.ok (s', r)) =>
    let la := bitsAt r 0 64
    let stop := s.leafStop la
    if stop.any Reach.waits then .next (s.again (stop.getD .busy) .migrationRequest {})
    else if !s.migReady || decide (16 ≤ s.moves.length) then .next (s.postOnce .migrationRequest {})
    else
      let f : BitVec 64 := BitVec.ofNat 64 (bitsAt r 64 64) &&& 0xFFFFFFFFF0003
      let s := s'.ringPop 2 .migrationRequest
      let x := s.tableEntry la
      if stop.isNone && s.mayMove la x f then .next (s.beginMove ⟨la, x, 0, 0, f, true, .block, []⟩)
      else if s.ringFull 1 then
        .next (({ s with moves := s.moves ++ [⟨la, 0, 0, 0, f, true, .abandon, []⟩] } : State).post .migrateReplay { a := la })
      else .next (s.ringPush 1 f.toNat)

/-- A byte of a page as the migrator reads it at its home: of a host line the host-proxy home does not hold, the host's. -/
def State.migByte (s : State) (expand : Bool) (pa : Nat) : Byte :=
  if hostLine s.tc (pa / 64) && fget CxlState.i s.cxl (pa / 64) == .i then (Config.hostWrote s.tick pa).getD (s.readPhys pa)
  else if expand then s.readPhys pa else s.rawPhys pa

/-- One 256-byte block of a page copied with its metadata; into host memory, which has none, it goes expanded. -/
def State.copyBlock (s : State) (dst src : Nat) : State :=
  let flat := decide (metaBase ≤ dst)
  let bs := (List.range 256).map fun i => s.migByte flat (src + i)
  let md := if decide (metaBase ≤ src) || flat then 0 else s.metaByte src
  let s := s.writesRaw dst bs
  if flat then s else { s with mem := s.mem.write (metaBase + dst / 256) md }

/-- The target frame's lines taken for the page that comes: copies anyone still holds of them are stripped and invalidated, and a
host line is written whole by WOWrInv where the buffer does not own it (11 Table 11.9). -/
def State.takeFrame (s : State) (new n : Nat) : State :=
  let inside := fun (l : Nat) => decide (new / 64 ≤ l) && decide (l < (new + n) / 64)
  let s := ((s.dir.map (·.line)).filter inside).eraseDups.foldl (fun (s : State) l =>
    s.probes (homeOf s.tc (64 * l)) l (.unit ioDie) .putP false 0xFFFF) s
  if physRange s.tc new ≠ .host then s else
  ((List.range (n / 64)).map (new / 64 + ·)).foldl (fun (s : State) l =>
    (if fget .i s.cxl l = .s then s.evictHost l else s).hostMerged l (BitVec.allOnes 64)) s

/-- The page's bytes and metadata copied to the target frame, read through the old home and its tier cache, poisoned words as
poisoned. -/
def State.copyPage (s : State) (old new n : Nat) : State :=
  let s := (List.range (n / 64)).foldl (fun (s : State) i => s.tcTouch (old / 64 + i)) s
  let s := (List.range (n / 256)).foldl (fun (s : State) i => s.copyBlock (new + 256 * i) (old + 256 * i)) s
  if s.poison.isEmpty then s else
  let bad := ((List.range (n / 4)).filter fun i => s.poisoned (old + 4 * i)).map fun i => s.placeOf (new + 4 * i) / 4
  let kept := s.poison.filter fun w => !(List.range (n / 64)).any fun i =>
    decide (s.placeOf (new + 64 * i) / 4 ≤ w) && decide (w < s.placeOf (new + 64 * i) / 4 + 16)
  { s with poison := kept ++ bad }

/-- Is a home lost? -/
def Walk.gone (w : Option Walk) : Bool :=
  match w with
  | some (.dead _) => true
  | _ => false

/-- MIGRATE_COPY (12 Table 12.12): the page goes to the target frame; a home that has failed abandons the move. -/
def execMigrateCopy (s : State) : Out :=
  match s.moveOf s.arg.a with
  | none => .next s
  | some m =>
    if m.state ≠ .copy then .next s else
    let old := m.page.1 * 64
    let new := frameBase m.frame
    let n := m.page.2 * 64
    if Walk.gone (s.homeState old) || Walk.gone (s.homeState new) then .next (s.abandon m)
    else if (s.homeState old).isSome || (s.homeState new).isSome || s.spanBusy new n then .next (s.post .migrateCopy s.arg)
    else .next ((((s.takeFrame new n).copyPage old new n).setMove { m with state := .map }).post .migrateMap { a := m.leafAddr })

/-! ### Invalidation (12 R319) -/

/-- Does a range of an address space, `len` 0 for all of it, meet a cached translation's page? -/
def TlbEntry.meets (e : TlbEntry) (all : Bool) (asid va len : Nat) : Bool :=
  (all || e.asid == asid) && (len == 0 || (decide (e.base < va + len) && decide (va < e.base + e.size)))

/-- Every core's and last-level cache's si dirty bytes written back: what earlier accesses stored is performed. -/
def State.writeBackAll (s : State) : State :=
  let cs := s.lines.filter fun c => c.siDirty != 0
  let s := cs.foldl (fun (s : State) c => match c.agent with
    | .core d i => s.writeBackCore d i c.line
    | _ => s) s
  (s.lines.filter fun c => c.siDirty != 0).foldl (fun (s : State) c => match c.agent with
    | .llc d => s.writeBackLlc d c.line
    | _ => s) s

/-- Cached translations removed, and what walkers keep of the spaces' pointers, after the accesses that used them are performed:
the stack caches of the covered spaces' teams and all si dirty bytes are written back. -/
def State.invalidate (s : State) (asids : Nat → Bool) (f : TlbEntry → Bool) : State :=
  let ks := (s.teamsWith fun t => !t.stk.isEmpty).filter fun k => asids (s.launch (s.teamAt k).launch).asid
  let s := ks.foldl (fun (s : State) k => s.flushStack k) s
  let s := s.writeBackAll
  { s with tlb := s.tlb.filter fun e => !f e, walks := s.walks.filter fun w => !asids w.asid }

/-- MIGRATE_MAP (12 Table 12.12): the leaf, if it is still as the move read it, gets the target's FRAME and TIER and HOT 0;
the page's translations are invalidated: by its address, or for a driver's request by its leaf. -/
def execMigrateMap (s : State) : Out :=
  match s.moveOf s.arg.a with
  | none => .next s
  | some m =>
    if m.state ≠ .map then .next s else
    let stop := s.leafStop m.leafAddr
    if m.has (m.leafAddr / 64) then .next (s.abandon m)
    else if stop.any Reach.waits then .next (s.again (stop.getD .busy) .migrateMap s.arg)
    else if stop.isSome then .next (s.abandon m)
    else if s.tableEntry m.leafAddr ≠ m.leaf then .next (s.abandon m)
    else
      let x := setField (setField (setField m.leaf 16 36 (field m.frame 16 36)) 14 2 (physRange s.tc (frameBase m.frame)).tier) 58 6 0
      let s := s.putEntry m.leafAddr x
      let s := s.invalidate (fun i => m.request || i == m.asid) fun e =>
        if m.request then e.leafAddr == m.leafAddr else e.meets false m.asid m.va (64 * m.page.2)
      .next ((s.setMove { m with state := .replay }).post .migrateReplay { a := m.leafAddr })

/-- The tier-cache sectors of a Steppe range dropped without write-back. -/
def State.dropSectors (s : State) (base n : Nat) : State :=
  if s.tc = 0 ∨ physRange s.tc base ≠ .steppe then s else
  (List.range (n / 2048)).foldl (fun (s : State) i =>
    let pa := base + 2048 * i
    let k := tcSet s.tc pa
    let t := tcTag s.tc pa
    let s : State := { s with tcFills := s.tcFills.filter fun f => !(f.1 == k && f.2.1 == t) }
    (List.range 32).foldl (fun (s : State) l => if spareHit (s.spare k l) t then s.setSpare k l 0 else s) s) s

/-- The contents of a returned frame are undefined (12 Table 12.11): free values. -/
def State.scrap (s : State) (base n : Nat) : State :=
  let mem := s.mem.writes base ((List.range n).map fun i => Config.frameByte s.tick (base + i))
  { s with mem := if metaBase ≤ base then mem else mem.writes (metaBase + base / 256) (List.replicate (n / 256) 0) }

/-- MIGRATE_REPLAY (12 R324): the requests queued at the old home are served at the new one, in order, before any that
reach it directly; the old frame is returned. A request abandoned returns its target frame. -/
def execMigrateReplay (s : State) : Out :=
  match s.moveOf s.arg.a with
  | none => .next s
  | some m =>
    if m.state ≠ .replay ∧ m.state ≠ .abandon then .next s
    else if s.ringFull 1 then .next ((s.askRing 1).post .migrateReplay s.arg)
    else
      let s : State := { s with moves := s.moves.filter fun x => x.leafAddr != m.leafAddr }
      if m.state = .abandon then .next (s.ringPush 1 m.frame.toNat) else
      let old := 64 * m.page.1
      let s := (s.dropSectors old (64 * m.page.2)).scrap old (64 * m.page.2)
      let s := s.serveQueue m.queued m.page.1 (frameBase m.frame / 64)
      .next (s.ringPush 1 (old + field m.leaf 6 2))

/-! ### Fault replies (12 R328) -/

/-- The first faulting byte a fault's record names. -/
def PendFault.va (f : PendFault) : Nat := bitsAt f.record.toNat 64 57

/-- Every launch that waits on an aborted fault ended: EKIND 5, with the VA of the record and the die of the waiter (15 R377). -/
def State.abortFault (s : State) (f : PendFault) : State :=
  let s := f.teams.foldl (fun (s : State) k =>
    let t := s.teamAt k
    s.endLaunch t.launch t.die 5 0 f.va t.pc.toNat) s
  let s := (s.copies.filter fun c => f.copies.contains c.id).foldl (fun (s : State) c =>
    s.endLaunch c.launch c.die 5 0 f.va c.pc.toNat) s
  let s := f.retires.foldl (fun (s : State) k => s.endLaunch (s.teamAt k).launch (s.teamAt k).die 5 0 f.va 0) s
  f.flushes.foldl (fun (s : State) b => s.dropFlush b b.die 5 0 f.va) s

/-- A waiting team walks again: with its page still absent it waits on a new record, whose number its frame takes; else it joins its
residency queue, or stays saved while a drain holds it. -/
def State.retryTeam (s : State) (f : PendFault) (k : Nat) : State :=
  if (s.teamAt k).status ≠ .faulted then s else
  match s.leafFor (s.viaOf k) f.va with
  | .absent level a =>
    let (s, q) := s.addFault f.asid f.va a level (bitAt f.record.toNat 20) (bitAt f.record.toNat 19) false [k] []
    (s.setTeam k { s.teamAt k with fseq := q }).putFrame k [(44, leBytes 4 q.toNat)]
  | _ =>
    if s.inDrain (s.teamAt k).launch then s.setTeam k { s.teamAt k with status := .drained }
    else (s.setTeam k { s.teamAt k with status := .ready }).joinQueue k

/-- Every waiter of a fault walks again (12 R328): teams here; copy commands, retirements and flushes as they go on. -/
def State.retryFault (s : State) (f : PendFault) : State :=
  let s := f.teams.foldl (fun (s : State) k => s.retryTeam f k) s
  let s := (s.copies.filter fun c => f.copies.contains c.id).foldl (fun (s : State) c =>
    (s.setCopy { c with held := none }).retryCopy c) s
  let s := f.retires.foldl (fun (s : State) k => s.postOnce .teamRetire { a := k }) s
  f.flushes.foldl (fun (s : State) b => s.postFlush b) s

/-- FAULT_REPLY (12 R328): the driver's next answer; ACT 2 and 3, and one for no pending fault, change nothing. -/
def execFaultReply (s : State) : Out :=
  match s.ringNext 4 with
  | none => .next s
  | some (.error r) => .next (s.again r .faultReply {})
  | some (.ok (s, r)) =>
    let s := s.ringPop 4 .faultReply
    match s.faults.find? fun f => f.fseq == BitVec.ofNat 32 (bitsAt r 32 32) && f.posted with
    | none => .next s
    | some f =>
      if 2 ≤ bitsAt r 0 2 then .next s else
      let s : State := { s with faults := s.faults.filter fun g => g.fseq != f.fseq }
      .next (if bitsAt r 0 2 = 0 then s.retryFault f else s.abortFault f)

/-! ### The invalidation ring (12 R319) -/

/-- INVALIDATION_RECORD: the next record of ring 6 is taken: what it covers leaves every translation cache. -/
def execInvalidationRecord (s : State) : Out :=
  match s.ringNext 6 with
  | none => .next s
  | some (.error r) => .next (s.again r .invalidationRecord {})
  | some (.ok (s, r)) =>
    let x : InvRec := ⟨BitVec.ofNat 32 (bitsAt r 192 32), bitsAt r 0 14, bitAt r 15, bitsAt r 64 57, bitsAt r 128 64⟩
    let s := (s.ringPop 6 .invalidationRecord).invalidate (fun i => x.all || i == x.asid) fun e => e.meets x.all x.asid x.va x.len
    .next (({ s with invs := s.invs ++ [x] } : State).post .invalidationComplete)

/-- INVALIDATION_COMPLETE: the oldest record taken is complete: its SEQ stands in ring 6's COMP, and vector 5 is raised. -/
def execInvalidationComplete (s : State) : Out :=
  match s.invs with
  | [] => .next s
  | x :: r =>
    let s : State := { s with invs := r }
    .next ((s.setRingWord 6 2 (setField (s.ringWord 6 2) 32 32 x.seq.toNat)).msi 5)

end Sys2Proof.Machine
end

