-- ==== Sys2Proof/Machine/Rings.lean ====
section
/-! DEFINITION. The driver's side of the rings, the device error records with their lists, and writes of the control block
(15 R377, R378, 16 R382 to R387). -/

namespace Sys2Proof.Machine

/-! ### Doorbells and consumption (16 R384) -/

/-- A refused HEAD or TAIL write: ERR is set and vector 3 raised. -/
def State.ringError (s : State) (i : Nat) : State := (s.setRingWord i 1 (s.ringWord i 1 ||| 0x80)).msi 3

/-- The row a driver-produced ring's doorbell makes due. -/
def doorbellRow (i : Nat) : Option Instr :=
  match i with
  | 0 => some .freeFrameRecord
  | 2 => some .migrationRequest
  | 4 => some .faultReply
  | 6 => some .invalidationRecord
  | _ => none

/-- RING_TAIL_WRITE: the driver writes TAIL of ring `a`: of a device-produced ring it is read-only; one that would make the
count smaller or exceed the ring, or of a ring not set up, is refused. -/
def execRingTailWrite (s : State) : Out :=
  let i := s.arg.a
  if s.sec.recovery then .next s else
  match doorbellRow i with
  | none => .next s
  | some row =>
    let v := field s.arg.v 0 32
    let n := (v + 2 ^ 32 - s.ringHead i) % 2 ^ 32
    if !s.ringUp i || decide (2 ^ s.ringLog i < n) || decide (n < s.ringCount i) then .next (s.ringError i)
    else .next ((s.setRingTail i v).postOnce row {})

/-- RING_HEAD_WRITE: the driver writes HEAD of ring `a`: of a driver-produced ring it is read-only; one that would pass TAIL
or move back is refused. Room in ring 3 lets waiting fault records out; error records passed are acknowledged, and their
lists and frames are free (15 R362, R378). In recovery neither write acts (R398). -/
def execRingHeadWrite (s : State) : Out :=
  let i := s.arg.a
  if s.sec.recovery || (i != 1 && i != 3 && i != 5) then .next s else
  let v := field s.arg.v 0 32
  let old := s.ringHead i
  let n := (v + 2 ^ 32 - old) % 2 ^ 32
  if s.ringCount i < n then .next (s.ringError i) else
  let s := s.setRingHead i v
  if i = 3 then .next s.postFaults
  else if i = 5 then
    .next ({ s with listUse := s.listUse.filter fun u => !decide ((u.slot + 2 ^ 32 - old) % 2 ^ 32 < n) } : State).postDecisions
  else .next s

/-! ### Device error records (15 R377, R378) -/

/-- The 32-byte entry of a team (15 R378). -/
def State.teamEntry (s : State) (k : Nat) : Nat :=
  let t := s.teamAt k
  (match t.frameSlot with
    | some i => s.frameAddr t.die i
    | none => 0) +
  t.recAddr.toNat * 2 ^ 64 + (t.dix % 256 + t.gix % 256 * 2 ^ 8 + t.tix % 256 * 2 ^ 16) * 2 ^ 128 + t.place * 2 ^ 160

/-- The bytes of a list, cut to `size`, with the team entries written: a team entry each, and for a die's loss the count of
lines as a 4-byte word and a 24-byte entry for each line. -/
def State.listBytes (s : State) (e : ErrRec) (size : Nat) : Nat × List Byte :=
  let n := min e.teams.length (size / 32)
  let teams := (e.teams.take n).flatMap fun k => leBytes 32 (s.teamEntry k)
  if bitsAt e.record.toNat 168 8 ≠ 3 ∨ size < 32 * n + 4 then (n, teams) else
  let m := min e.lines.length ((size - 32 * n - 4) / 24)
  (n, teams ++ leBytes 4 m ++ (e.lines.take m).flatMap fun x => leBytes 24 x.toNat)

/-- Base and bytes of the list buffer (16 R383). -/
def State.listBase (s : State) : Nat := field (s.creg 0x78) 12 40 * 4096
def State.listSize (s : State) : Nat := (field (s.creg 0x78) 0 12 + 1) * 4096

/-- Where a list of `n` bytes goes in the buffer: after the last one, or at the start when the remainder is too small; none
while that space is in use (16 R384). -/
def State.listPlace (s : State) (n : Nat) : Option Nat :=
  let off := if s.listNext + n ≤ s.listSize then s.listNext else 0
  if s.listUse.any fun u => decide (u.len ≠ 0) && decide (u.off < off + n) && decide (off < u.off + u.len) then none else some off

/-- The oldest error record written: LIST and NTEAM filled in, the record pushed, its space and frames held until it is
acknowledged. -/
def State.writeError (s : State) (e : ErrRec) (list n : Nat) (off len : Nat) : State :=
  let slot := s.ringTail 5
  let rec_ := putBits (putBits e.record.toNat 448 64 list) 224 32 n
  let s := s.ringPush 5 rec_
  let s : State := { s with
    errors := s.errors.drop 1
    listNext := if len = 0 then s.listNext else off + len
    listUse := s.listUse ++ [⟨slot, off, len, e.teams⟩] }
  if s.errors.isEmpty then s else s.postOnce .deviceErrorRecord {}

/-- DEVICE_ERROR_RECORD (15 R377): fault records held back by the home of ring 3 are written, and the oldest error record waiting
once ring 5, the list buffer and their homes have room; with no buffer it names no list (16 R384). -/
def execDeviceErrorRecord (s : State) : Out :=
  let s := s.postFaults
  match s.errors with
  | [] => .next s
  | e :: _ =>
    if s.ringFull 5 then .next ((s.askRing 5).postOnce .deviceErrorRecord {})
    else if s.listBase = 0 then .next (s.writeError e 0 0 0 0)
    else
      let (n, bs) := s.listBytes e s.listSize
      match s.listPlace bs.length with
      | none => .next (s.postOnce .deviceErrorRecord {})
      | some off =>
        if bs.isEmpty then .next (s.writeError e 0 0 0 0) else
        match s.unitWait ioDie (s.listBase + off) bs.length true with
        | some r => .next (s.again r .deviceErrorRecord {})
        | none => .next ((s.unitPut ioDie (s.listBase + off) bs).writeError e (s.listBase + off) n off bs.length)

/-! ### Writes of the control block (16 R382, R383) -/

/-- Bits `[lo + n - 1 : lo]` set. -/
def bitsMask (lo n : Nat) : Word64 := BitVec.ofNat 64 ((2 ^ n - 1) * 2 ^ lo)

/-- The writable bits of the register at an offset that has no row of its own (16 R383 to R387, R394, R396, R402, 12 R321,
14 R356, 15 R363); reserved offsets and read-only registers have none (00 R8). -/
def ctlWritable (off : Nat) : Word64 :=
  if off = 0x40 then bitsMask 16 36
  else if off = 0x48 then bitsMask 17 35
  else if off = 0x50 then bitsMask 18 46 ||| bitsMask 3 1
  else if off = 0x58 then bitsMask 8 56
  else if off = 0x60 then bitsMask 61 3 ||| bitsMask 0 14
  else if off = 0x70 then bitsMask 32 20
  else if off = 0x78 then bitsMask 0 52
  else if 0x80 ≤ off ∧ off < 0xC0 then bitsMask 48 16 ||| bitsMask 0 32
  else if 0x100 ≤ off ∧ off < 0x1E0 then
    (match off / 8 % 4 with
     | 0 => bitsMask 6 46
     | 1 => bitsMask 0 5
     | _ => 0)
  else if off = 0x200 then bitsMask 51 13
  else if 0x300 ≤ off ∧ off < 0x380 then (if off % 16 = 0 then bitsMask 21 31 ||| bitsMask 0 8 else bitsMask 21 31)
  else if 0x400 ≤ off ∧ off < 0x800 then bitsMask 49 15 ||| bitsMask 16 9 ||| bitsMask 0 9
  else if 0x800 ≤ off ∧ off < 0x900 then
    (match off / 8 % 4 with
     | 2 => bitsMask 0 8
     | 3 => bitsMask 32 20 ||| bitsMask 0 20
     | _ => 0)
  else if off = 0x1000 then bitsMask 56 8
  else if off = 0x1010 then bitsMask 6 46
  else if off = 0x1018 then bitsMask 0 32
  else if 0x1020 ≤ off ∧ off < 0x1040 then bitsMask 0 64
  else 0

/-- Bits of a ring word that are cleared by writing 1 (16 R384: ERR). -/
def ctlClears (off : Nat) : Word64 := if 0x100 ≤ off ∧ off < 0x1E0 ∧ off / 8 % 4 = 1 then 0x80 else 0

/-- Is a register written only while no queue is enabled and no team resident or saved (16 R383)? -/
def ctlGated (off : Nat) : Bool :=
  off == 0x40 || off == 0x48 || off == 0x78 || (decide (0x80 ≤ off) && decide (off < 0xC0)) ||
  (decide (0x100 ≤ off) && decide (off < 0x1E0))

/-- Is a team saved: its frame holds it, until it runs again (15 R362)? -/
def Team.saved (t : Team) : Bool :=
  t.cause != 0 && (t.status == .ready || t.status == .faulted || t.status == .drained)

/-- Is the device idle as 16 R383 asks: no queue entry with EN = 1, no team resident or saved? -/
def State.quiet (s : State) : Bool :=
  (List.range 1024).all (fun q => !s.qEn q) &&
  (s.teamsWith fun t => t.status == .resident || t.saved).isEmpty &&
  ((List.range s.teams.length).filter fun k => (s.teamAt k).status == .dead && s.frameNamed k).isEmpty

/-- The row of a mailbox operation (16 R402). -/
def attestRow (op : Nat) : Option Instr :=
  match op with
  | 1 => some .attestReport
  | 2 => some .attestCertChain
  | 3 => some .attestStageImage
  | 4 => some .attestIdentityKey
  | _ => none

/-- A mailbox operation ends with a CODE: DONE is due (16 R402). -/
def State.mailboxEnd (s : State) (code : Nat) : State :=
  (s.setCreg 0x1008 (setField (s.creg 0x1008) 0 8 code)).post .attestDone

/-- GO written: ignored while BUSY; else it is set, and stays so until the operation is done; the operation of OP starts, a bad OP
ending with CODE 1 (16 R402). -/
def State.mailboxGo (s : State) : State :=
  if bitAt (s.creg 0x1008).toNat 63 then s else
  let s := (s.setCreg 0x1008 0x8000000000000000).setCreg 0x1000 (s.creg 0x1000 ||| 1)
  match attestRow (field (s.creg 0x1000) 56 8) with
  | none => s.mailboxEnd 1
  | some row => s.post row

/-- OP of `DRAIN` written: a drain or a resume starts, or waits for the operation in progress (14 R359, R361); 0 and 3 start
nothing. -/
def State.drainWrite (s : State) (v : Word64) : State :=
  if field v 62 2 ≠ 1 ∧ field v 62 2 ≠ 2 then s
  else if s.drainBusy then { s with drainQueued := s.drainQueued ++ [v] }
  else s.startDrain v

/-- What the host reads at an offset of the control block, in `n` bytes (16 R382, R383): all ones of an access it does not take, and
in recovery of all but ID, READY, FAILED and the mailbox (R398); HELD of `DSTAT` counts as the read finds it (14 R359). -/
def State.controlRead (s : State) (off n : Nat) : Word64 :=
  let r := off / 8 * 8
  if !barOk off n 65536 || (s.sec.recovery && decide (r < 0x1000) && r != 0 && r != 0x10 && r != 0x20) then BitVec.allOnes 64 else
  let x := if r = 0x68 && s.drainBusy then setField (s.creg r) 0 16 (s.scopeCopies.filter fun c => c.held.isSome).length else s.creg r
  if n = 8 then x else BitVec.ofNat 64 (field x (8 * (off % 8)) 32)

/-- What the host reads at an offset of the doorbell page (16 R382): TAIL of queue `off` / 4, and with 8 bytes of the next one. -/
def State.doorbellRead (s : State) (off n : Nat) : Word64 :=
  if !barOk off n 4096 || s.sec.recovery then BitVec.allOnes 64 else
  BitVec.ofNat 64 (s.qTail (off / 4) + if n = 8 then s.qTail (off / 4 + 1) * 2 ^ 32 else 0)

/-- CONTROL_REGISTER_WRITE (16 R383): the host writes `v`, of `b` = 4 or 8 bytes, at offset `a` of the control block; other
accesses write nothing. In recovery only the mailbox answers (16 R398). -/
def execControlRegisterWrite (s : State) : Out :=
  let off := s.arg.a
  let n := s.arg.b
  if !barOk off n 65536 then .next s else
  let r := off / 8 * 8
  if s.sec.recovery && decide (r < 0x1000) then .next s else
  let lanes := if n = 8 then bitsMask 0 64 else bitsMask (8 * (off % 8)) 32
  let v : Word64 := if n = 8 then s.arg.v else BitVec.ofNat 64 ((s.arg.v.toNat % 2 ^ 32) * 2 ^ (8 * (off % 8)))
  let m := if ctlGated r && !s.quiet then 0 else ctlWritable r &&& lanes
  let old := s.creg r
  let s := s.setCreg r ((old &&& ~~~m ||| v &&& m) &&& ~~~(ctlClears r &&& v))
  if r = 0x1000 && v.getLsbD 0 then .next s.mailboxGo
  else if r = 0x60 && lanes.getLsbD 62 then .next (s.drainWrite (s.creg 0x60))
  else if r = 0x50 then .next (s.postOnce .hotnessHalving {})
  else if r = 0x168 then .next s.postFaults
  else .next s

end Sys2Proof.Machine
end

