-- ==== Sys2Proof/Machine/Failures.lean ====
section
/-! DEFINITION. What fails: a row of HBM, a core and its evacuation, a compute die, the ports and peers of Abfort
(11 R303, 15 R373 to R376, 16 R391 to R394). -/

namespace Sys2Proof.Machine

/-- ROW_REMAP (15 R375): the row of lines `a` to `b` has had `c` corrected errors: past the record's threshold its data is copied to a
spare row, with the lines blocked meanwhile; the copy done, they are free again. -/
def execRowRemap (s : State) : Out :=
  let r := (s.arg.a, s.arg.b)
  if s.remaps.contains r then .next { s with remaps := s.remaps.filter fun x => x != r }
  else if s.arg.c < max 1 s.config.spare then .next s
  else .next (({ s with remaps := s.remaps ++ [r] } : State).post .rowRemap s.arg)

/-! ### The readiness registers (16 R388) -/

/-- READY and FAILED written; vector 7 is raised where they changed. -/
def State.setReady (s : State) (ready failed : Word64) : State :=
  if s.creg 0x10 = ready ∧ s.creg 0x20 = failed then s else ((s.setCreg 0x10 ready).setCreg 0x20 failed).msi 7

/-! ### Loss of a die (11 R303, 15 R376) -/

/-- An agent's owner identifier (11 Table 11.2). -/
def Agent.oid (a : Agent) : Nat :=
  match a with
  | .core _ i => i
  | .llc d => 0x100 + d
  | _ => 0x200

/-- A directory entry in the layout of 11 R283. -/
def DirEntry.bits (e : DirEntry) : Nat :=
  e.st.toNat * 2 ^ 92 + (e.o0.map Agent.oid).getD 0 * 2 ^ 78 + e.m0.toNat * 2 ^ 62 + (e.o1.map Agent.oid).getD 0 * 2 ^ 52 +
  e.m1.toNat * 2 ^ 36 + e.sh.toNat * 2 ^ 19 + e.record % 2048 * 2 ^ 8 + e.acks % 256

/-- Is an agent on a die? -/
def Agent.on (a : Agent) (d : Nat) : Bool :=
  match a with
  | .core e _ => e == d
  | .llc e => e == d
  | .unit e => e == d
  | .host => false

/-- The entry of a line as its home holds it: in MG while the line is blocked (11 R284, 12 R323, 15 R375). -/
def State.entryShown (s : State) (e : DirEntry) : DirEntry :=
  if (s.migrating e.line).isSome || s.remaps.any fun r => decide (r.1 ≤ e.line) && decide (e.line < r.2) then { e with st := 13 } else e

/-- Has the home of a buffered write-back not merged it yet (11 R292)? -/
def State.unmerged (s : State) (w : WBuf) : Bool :=
  match w.kind with
  | .wb => !s.seenTags.any fun x => x.2 == .wb && x.1.sameTag w.msg
  | _ => (s.awaiter w.msg 1 2).isSome

/-- Does a die's core or last-level cache hold dirty owned bytes of a line, or a write-back of some that its home has not merged? -/
def State.dirtyOn (s : State) (d l : Nat) : Bool :=
  s.lines.any (fun c => c.line == l && c.agent.on d && c.dirty &&& wordsToBytes c.owned != 0) ||
  s.wbuf.any fun w => w.msg.line == l && w.msg.agent.on d && w.msg.bmask != 0 && s.unmerged w

/-- The lines whose slots held by the die's agents had dirty words outstanding, as the report lists them (15 R378). -/
def State.lostLines (s : State) (d : Nat) : List (BitVec 192) :=
  (s.dir.filter fun e => e.site != .die d && (e.o0.any (·.on d) || e.o1.any (·.on d)) && s.dirtyOn d e.line).map fun e =>
    BitVec.ofNat 192 (64 * e.line + (s.entryShown e).bits * 2 ^ 64)

/-- Bytes of a line put back to what its home last merged. -/
def State.putBack (s : State) (l : Nat) (m : BitVec 64) (behind : BitVec 512) : State :=
  (maskBytes m).foldl (fun (s : State) i => s.writePhys (64 * l + i) (dataByte behind i)) s

/-- The owned dirty bytes of a die's caches, and those on their way from them, go back to what their homes last merged (11 R303): a
core's first, then its last-level cache's, which is the home's owner of what its cores own. -/
def State.revertDirty (s : State) (d : Nat) : State :=
  let mine := s.lines.filter fun c => c.agent.on d
  let back := fun (s : State) (c : CLine) => s.putBack c.line (c.dirty &&& wordsToBytes c.owned) c.behind
  let s := (mine.filter fun c => c.agent != .llc d).foldl back s
  let s := (mine.filter fun c => c.agent == .llc d).foldl back s
  (s.wbuf.filter fun w => w.msg.agent.on d && s.unmerged w).foldl (fun (s : State) w => s.putBack w.msg.line w.msg.bmask w.behind) s

/-- What a request in progress of a lost die's agent does at its home: it is granted and recorded nothing. -/
def Txn.orphan (t : Txn) (d : Nat) : Txn :=
  let t : Txn := { t with queued := t.queued.filter fun x => !x.2.agent.on d }
  if t.cause ≠ .agent ∨ !t.req.agent.on d then t else
  match t.kind with
  | .getO => { t with kind := .getH }
  | .getT => { t with kind := .getH }
  | .putT => { t with kind := .putP }
  | _ => t

/-- An entry of a surviving home without the agents of a lost die. -/
def DirEntry.forget (e : DirEntry) (d : Nat) : DirEntry :=
  let gone0 := e.o0.any fun a => a.on d
  let gone1 := e.o1.any fun a => a.on d
  let e : DirEntry := { e with
    o0 := if gone0 then none else e.o0, m0 := if gone0 then 0 else e.m0
    o1 := if gone1 then none else e.o1, m1 := if gone1 then 0 else e.m1
    sh := e.sh &&& ~~~(BitVec.ofNat 17 (2 ^ (8 + d))) }
  if 8 ≤ e.st.toNat then e else e.settle

/-- Every surviving home drops a lost die's agents, their requests, queued ones of a page that is moved too, and the answers awaited
of them (11 R303). -/
def State.homesForget (s : State) (d : Nat) : State :=
  let s := s.revertDirty d
  let theirs := fun (m : Msg) => m.agent.on d || m.site == .die d
  let s : State := { s with
    lines := s.lines.filter fun c => !c.agent.on d
    llc := s.llc.filter fun x => x.die != d
    walks := s.walks.filter fun w => w.die != d
    buffered := s.buffered.filter fun x => !theirs x.2
    delivered := s.delivered.filter fun x => !theirs x.1
    moves := s.moves.map fun m => { m with queued := m.queued.filter fun x => !theirs x.2 }
    dir := (s.dir.filter fun e => e.site != .die d).map fun e => e.forget d
    wbuf := s.wbuf.filter fun w => !theirs w.msg
    miss := s.miss.filter fun x => !(x.agent.on d || x.site == .die d)
    seenTags := s.seenTags.filter fun x => !theirs x.1
    tlb := s.tlb.filter fun e => e.die != d
    events := s.events.filter fun e => !(cohRows.contains e.row && e.arg.m.any theirs)
    txns := (s.txns.filter fun t => t.site != .die d).map fun t => t.orphan d }
  (s.txns.filter fun t => t.awaiting.any fun a => a.on d).foldl (fun (s : State) t =>
    (t.awaiting.filter fun a => a.on d).foldl (fun (s : State) a => match s.txns.find? fun x => x.id == t.id with
      | some t => s.answered t a
      | none => s) s) s

/-- The bits of READY a compute die has: its core bit and its two stacks (16 R388). -/
def dieBits (d : Nat) : Word64 := BitVec.ofNat 64 (2 ^ d + 3 * 2 ^ (16 + 2 * d))

/-- A compute die lost (15 R376): its bits leave READY and READYE and stand in FAILED, with Steppe's where a tier cache stood
on its stacks (16 R390); the homes forget it; every launch with a team on it ends with its record of kind 3. -/
def State.loseDie (s : State) (d : Nat) : State :=
  if s.lostDies.contains d then s else
  let lines := s.lostLines d
  let s : State := { s with lostDies := s.lostDies ++ [d] }
  let gone := dieBits d ||| (if s.tc = 0 then 0 else 0x100000000)
  let s := s.setReady (s.creg 0x10 &&& ~~~(gone ||| 0x8000000000000000)) (s.creg 0x20 ||| gone)
  let s := s.setCreg 0x18 (s.creg 0x18 &&& ~~~(BitVec.ofNat 64 (255 * 2 ^ (8 * d))))
  let s := s.homesForget d
  let ls := ((s.teamsWith fun t => t.die == d && t.status != .retired && t.status != .dead).map
    fun k => (s.teamAt k).launch).eraseDups
  let s := ls.foldl (fun (s : State) l => s.endLaunchWith l d 3 0 0 0 lines) s
  { s with bins := s.bins.filter fun b => b.die != d }

/-- DIE_LOST (15 R376): compute die `a`. -/
def execDieLost (s : State) : Out := .next (if s.arg.a < 8 then s.loseDie s.arg.a else s)

/-! ### A failed core (15 R373, R374) -/

/-- The other members of a gang whose operation a failed member breaks keep its captured operands in their frames. -/
def State.saveCaptured (s : State) (k : Nat) : State :=
  let t := s.teamAt k
  match t.matq with
  | m :: _ =>
    s.putFrame k [(0, leBytes 64 (frameHeader t)), capturedBytes m]
  | [] => s

/-- The gang partners of a team with a ganged operation under way. -/
def State.gangPartners (s : State) (k : Nat) : List Nat :=
  if (s.teamAt k).matq.any fun m => m.gang then ((s.gangMembers k).filterMap id).filter (· != k) else []

/-- Cores of a cluster in service. -/
def State.coresUp (s : State) (d c : Nat) : Nat := ((List.range 8).filter fun i => s.coreUp d c i).length

/-- A cluster group that its cluster can no longer hold moves to another of its die, its resident teams saved first and its
cluster memory with it (15 R373). -/
def State.moveGroup (s : State) (g : Nat) : State :=
  let x := s.group g
  let ks := s.teamsWith fun t => t.group == g && t.status != .retired && t.status != .dead
  match x.cluster with
  | none => s
  | some c =>
    if ks.length ≤ s.coresUp x.die c then s else
    let s := (ks.filter fun k => (s.teamAt k).status == .resident).foldl (fun (s : State) k => s.saveAs k 4) s
    (s.setGroup g { s.group g with cluster := none }).assignClusters x.die

/-- A core out of service: every resident team of it is saved with CAUSE 4; the cluster's spare takes its number, or, in use
already, the core leaves service: a group of the die that no cluster can hold any more loses the die, others may have to move (15
R373). -/
def State.evacuate (s : State) (d c i : Nat) : State :=
  let ks := s.onCore d c i
  let s := (ks.flatMap s.gangPartners).foldl (fun (s : State) k => s.saveCaptured k) s
  let s := ks.foldl (fun (s : State) k => s.saveAs k 4) s
  if !s.sparesUsed.contains (d, c) then { s with sparesUsed := s.sparesUsed ++ [(d, c)] }
  else
    let s : State := { s with coreDown := s.coreDown ++ [(d, c, i)] }
    if s.stranded d then s.loseDie d else
    let gs := (List.range s.groups.length).filter fun g =>
      (s.group g).live && (s.group g).die == d && (s.group g).cluster == some c
    gs.foldl (fun (s : State) g => s.moveGroup g) s

/-- A row check of unit `u` of a core failed: the row is executed again from the core's issue record, with the outcome of one faultless
execution; the third failure of the unit within 1 ms is the core's (15 R372). -/
def State.rowFailed (s : State) (d c i u : Nat) : State :=
  let now := s.clock.toNat
  let same := fun (x : Nat × Nat × Nat × Nat × Nat) => x.1 == d && x.2.1 == c && x.2.2.1 == i && x.2.2.2.1 == u
  let old := s.unitFails.filter fun x => !same x || decide (now < x.2.2.2.2 + usNs 1000)
  let s : State := { s with unitFails := old ++ [(d, c, i, u, now)] }
  if (s.unitFails.filter same).length < 3 then s
  else ({ s with unitFails := s.unitFails.filter fun x => !same x } : State).evacuate d c i

/-- EVACUATION (15 R372, R373): of core `c` of cluster `b` of die `a`: with `v` = 0 the core has failed, by the fourth failure of a
row or otherwise; with `v` = u + 1 a row check of its unit u has. -/
def execEvacuation (s : State) : Out :=
  .next (if s.arg.v = 0 then s.evacuate s.arg.a s.arg.b s.arg.c else s.rowFailed s.arg.a s.arg.b s.arg.c (s.arg.v.toNat - 1))

/-! ### Abfort ports (16 R391, R392, R394) -/

/-- The launches that wait for a lost peer end: those of CPYRED commands whose member table names a port of its group
(16 R392). -/
def State.losePeer (s : State) (p : Nat) : State :=
  let named := fun (c : Copy) => c.members.any fun m => field m 0 8 == 1 &&
    s.creg (0x808 + 32 * (field m 16 8 % 8)) == s.creg (0x808 + 32 * p)
  (s.copies.filter named).foldl (fun (s : State) c =>
    s.endLaunch c.launch c.die 2 0 (peerBase + p * 2 ^ 44) c.pc.toNat) s

/-- What a port has outstanding, by line with the slots: its retry buffer, then what waits for room in it. -/
def Port.outstanding (x : Port) : List (Nat × List Byte) := x.retry.map (fun y => (y.2.1, (y.1.bytes.drop 8).take 240)) ++ x.backlog

/-- A port fails (16 R392): what it has outstanding goes over the ports its group has left, lost requests are sent again; one
that its group has only coming up waits there; with no port left the peer is lost. -/
def State.failPort (s : State) (p : Nat) : State :=
  let out := (s.port p).outstanding
  let s := (s.setLinkState p 4).setPort p { s.port p with retry := [], backlog := [] }
  if !(s.peerPorts p [3]).isEmpty then
    (out.foldl (fun (s : State) x => match s.portFor p x.1 with
      | some q => s.sendFlit q x.1 x.2
      | none => s) s).resend s.clock.toNat
  else match s.peerPorts p [0, 1, 2] with
  | [] => s.losePeer p
  | q :: _ => s.setPort q { s.port q with backlog := (s.port q).backlog ++ out }

/-- The operation a peer's header names (09 R254, 04 R100, 07 R217), with its operands. -/
def peerOp (k pa : Nat) (x c : BitVec 64) : HomeOp :=
  match k / 32 with
  | 0 => .atom pa (BitVec.ofNat 3 (k / 4)) (BitVec.ofNat 2 k) x c
  | 1 => .fxacc pa (bitAt k 0) x c.toInt
  | 2 => .fxrd pa (bitAt k 0) (BitVec.ofNat 3 (k / 2))
  | _ => .amax pa (x.setWidth 32)

/-- The requests in a flit's slots (16 R391): one slot for each header, four for a line; which slots are headers, and of what, is
`Config.flitHeader`'s. -/
def flitRequests (p fuel : Nat) (slots : List (List Byte)) : List PeerRequest :=
  match fuel, slots with
  | f + 1, h :: r =>
    match Config.flitHeader h with
    | none => flitRequests p f r
    | some (k, a, n) =>
      let data := r.take (if k = 0 then 0 else if k = 1 then 4 else 1)
      let x := BitVec.ofNat 64 (leNat (data.flatten.take 8))
      let c := BitVec.ofNat 64 (leNat ((data.flatten.drop 8).take 8))
      ⟨p, k == 1, if k < 2 then none else some (peerOp (k - 2) a x c), a, min n 64, data.flatten⟩ ::
        flitRequests p f (r.drop data.length)
  | _, _ => []

/-- A NAK taken: every flit outstanding is sent again in order (16 R392). -/
def State.resendFlits (s : State) (p : Nat) : State :=
  let x := s.port p
  let s := s.setPort p { x with
    retry := x.retry.map fun y => (y.1, y.2.1, y.2.2 + 1), sent := (x.retry.getLast?.map (·.1)).orElse fun _ => x.sent }
  s.countResends p x.retry.length

/-- ABFORT_FLIT_RECEIVE (16 R391, R392): port `a` receives a flit: one whose CRC fails is answered by NAK and leaves no other trace;
else its acknowledgement is taken, with room then for what waits, and a NAK in it resends; a flit of messages, if it is the next
in sequence, is received and its messages are due, and is acknowledged. -/
def execAbfortFlitReceive (s : State) : Out :=
  let p := s.arg.a
  match s.arg.flit with
  | none => .next s
  | some f =>
    if s.linkState p == 0 || decide (4 ≤ s.linkState p) then .next s
    else if !f.crcOk then .next (s.answerFlit p true)
    else
      let s := s.setPort p ((s.port p).acked f.ack s.clock.toNat)
      let s := if f.nak then s.resendFlits p else s
      if (s.port p).retry.any fun y => decide (16 ≤ y.2.2) then .next (s.failPort p) else
      let s := (s.sendBacklog p).watchPort p
      if f.type ≠ 1 then .next s else
      let x := s.port p
      if f.seq ≠ x.rxSeq + 1 then .next (s.answerFlit p false) else
      let s := (s.setPort p { x with rxSeq := f.seq, received := x.received ++ [f] }).answerFlit p false
      .next ((flitRequests p 15 f.slots).foldl (fun (s : State) r => s.post .peerInboundRequest { a := p, peer := some r }) s)

/-- LINK_ACK_TIMEOUT (16 R392): 16 resends of one flit, or 100 us with flits outstanding and no ACK, fail port `a`. -/
def execLinkAckTimeout (s : State) : Out :=
  let p := s.arg.a
  let x := s.port p
  if x.retry.isEmpty then .next s
  else if decide (x.since + usNs 100 ≤ s.clock.toNat) || x.retry.any (fun y => decide (16 ≤ y.2.2)) then .next (s.failPort p)
  else .next (s.post .linkAckTimeout s.arg)

/-! ### Requests of peers (16 R394) -/

/-- Is a peer's address inside its port's inbound window, and flat memory or Steppe? -/
def State.inbound (s : State) (r : PeerRequest) : Bool :=
  let w := s.creg (0x818 + 32 * r.port)
  s.linkState r.port == 3 && decide (field w 0 20 * 2 ^ 32 ≤ r.addr) && decide (r.addr + r.len ≤ field w 32 20 * 2 ^ 32) &&
  (match physRange s.tc r.addr with
   | .flat _ => true
   | .steppe => true
   | _ => false)

/-- The message of the part of a peer's request that lies in one line, as the I/O die's, tagged by a number. -/
def PeerRequest.msg (r : PeerRequest) (tc l n : Nat) : Msg :=
  let bytes := (List.range 64).filter fun i => decide (r.addr ≤ 64 * l + i) && decide (64 * l + i < r.addr + r.len)
  let m : BitVec 64 := BitVec.ofNat 64 (bytes.foldl (fun a i => a + 2 ^ i) 0)
  { noMsg with
    agent := .unit ioDie, record := BitVec.ofNat 11 n, seq := BitVec.ofNat 2 (n / 2048)
    site := homeOf tc (64 * l), line := l, mask := bytesToWords m, bmask := m, op := r.op
    data := bytes.foldl (fun d i => putDataByte d i (r.bytes.getD (64 * l + i - r.addr) 0)) 0 }

/-- PEER_INBOUND_REQUEST (16 R394): a peer's request inside its window is served at its line's home: an operation, a write as
a PutP, a read as a GetH; any other is refused. -/
def execPeerInboundRequest (s : State) : Out :=
  match s.arg.peer with
  | none => .next s
  | some r =>
    if !s.inbound r then .next s else
    let n := (r.addr + r.len - 1) / 64 - r.addr / 64 + 1
    .next ((List.range (if r.len = 0 then 0 else n)).foldl (fun (s : State) i =>
      ({ s with nextTxn := s.nextTxn + 1 } : State).request (if r.op.isSome then .opH else if r.write then .putP else .getH)
        (r.msg s.tc (r.addr / 64 + i) s.nextTxn)) s)

end Sys2Proof.Machine
end

