-- ==== Sys2Proof/Machine/LaneDw.lean ====
section
/-! DEFINITION. Error pairs, double-word arithmetic and the compensated reductions: major 0x13 and `CRED`, `TCRED` of
major 0x18 (05 R156 to R161). -/

namespace Sys2Proof.Machine

/-- A pair of elements hi, lo as bits. -/
abbrev HiLo := Nat × Nat

/-- The pair-overflow NaN (02 Table 2.2). -/
def Fmt.pairNan (fm : Fmt) : Nat := fm.qnan + 1

/-- Bits with the sign cleared are zero: a zero of either sign. -/
def Fmt.zeroBits (fm : Fmt) (x : Nat) : Bool := x % fm.signBit == 0

/-- The exact difference of a value and a datum of the format. -/
def minusBits (fm : Fmt) (x : FV) (b : Nat) : FV := (fvAdd false x (fm.unpack b).neg).1

/-- The rounded sum and its exact error (05 R156). -/
def pairSum (fm : Fmt) (a b : FV) : HiLo × Fl :=
  let (x, fl) := fvAdd false a b
  match x with
  | .nan _ => ((fm.qnan, 0), fl)
  | .inf n => (((if n then fm.signBit else 0) + fm.infBits, 0), 0)
  | .fin n m e =>
    if m = 0 then ((0, 0), 0) else
    let (hi, hf) := fm.round false false .rne n m e false
    if hf &&& fOF != 0 then ((hi, fm.pairNan), fOF ||| fNX) else
    match minusBits fm (.fin n m e) hi with
    | .fin n2 m2 e2 => ((hi, if m2 = 0 then 0 else (fm.round false false .rne n2 m2 e2 false).1), 0)
    | _ => ((hi, 0), 0)

/-- The rounded product and its error (05 R157); a zero hi takes lo +0 (02 R56). -/
def pairProd (fm : Fmt) (a b : FV) : HiLo × Fl :=
  let (x, fl) := fvMul a b
  match x with
  | .nan _ => ((fm.qnan, 0), fl)
  | .inf n => (((if n then fm.signBit else 0) + fm.infBits, 0), 0)
  | .fin n m e =>
    if m = 0 then ((if n then fm.signBit else 0, 0), 0) else
    let (hi, hf) := fm.round false false .rne n m e false
    if hf &&& fOF != 0 then ((hi, fm.pairNan), fOF ||| fNX) else
    match minusBits fm (.fin n m e) hi with
    | .fin n2 m2 e2 =>
      if m2 = 0 then ((hi, 0), 0) else
      let (lo, lf) := fm.round false false .rne n2 m2 e2 false
      ((hi, if fm.zeroBits hi then 0 else lo), if lf &&& fNX != 0 then fUF ||| fNX else 0)
    | _ => ((hi, 0), 0)

/-! ### Sequences of rounded and error-free steps (05 R158, R159) -/

/-- A sequence in progress: the flags so far, or the sign with which a step overflowed. -/
inductive Seq (α : Type) where
  | ok (v : α) (fl : Fl)
  | over (neg : Bool) (fl : Fl)

/-- The next step of a sequence; an overflow ends it (05 R158 step 5). -/
def Seq.then {α β : Type} (x : Seq α) (k : α → Seq β) : Seq β :=
  match x with
  | .over n f => .over n f
  | .ok v f =>
    match k v with
    | .ok w g => .ok w (f ||| g)
    | .over n g => .over n (f ||| g)

/-- A rounded step with its flags. -/
def stepRn (fm : Fmt) (r : Nat × Fl) : Seq Nat :=
  if r.2 &&& fOF != 0 then .over (r.1.testBit (fm.eb + fm.mb)) 0 else .ok r.1 r.2

/-- A rounded step of fast_two_sum, which raises only OF. -/
def stepQuiet (fm : Fmt) (r : Nat × Fl) : Seq Nat :=
  if r.2 &&& fOF != 0 then .over (r.1.testBit (fm.eb + fm.mb)) 0 else .ok r.1 0

/-- An error-free step. -/
def stepPair (fm : Fmt) (r : HiLo × Fl) : Seq HiLo :=
  if r.2 &&& fOF != 0 then .over (r.1.1.testBit (fm.eb + fm.mb)) 0 else .ok r.1 r.2

def rnAdd (fm : Fmt) (a b : Nat) : Nat × Fl := fm.add false .rne (fm.unpack a) (fm.unpack b)
def rnSub (fm : Fmt) (a b : Nat) : Nat × Fl := fm.add false .rne (fm.unpack a) (fm.unpack b).neg
def rnMul (fm : Fmt) (a b : Nat) : Nat × Fl := fm.mul false .rne (fm.unpack a) (fm.unpack b)
def rnFma (fm : Fmt) (a b c : Nat) : Nat × Fl := fm.fma false .rne (fm.unpack a) (fm.unpack b) (fm.unpack c)
def rnDiv (fm : Fmt) (a b : Nat) : Nat × Fl := fm.div .rne (fm.unpack a) (fm.unpack b)
def rnSqrt (fm : Fmt) (a : Nat) : Nat × Fl := fm.sqrt .rne (fm.unpack a)

/-- two_sum: the pair of `FADDX`. -/
def twoSum (fm : Fmt) (a b : Nat) : Seq HiLo := stepPair fm (pairSum fm (fm.unpack a) (fm.unpack b))

/-- two_prod: the pair of `FMULX`. -/
def twoProd (fm : Fmt) (a b : Nat) : Seq HiLo := stepPair fm (pairProd fm (fm.unpack a) (fm.unpack b))

/-- fast_two_sum. -/
def fastTwoSum (fm : Fmt) (a b : Nat) : Seq HiLo :=
  (stepQuiet fm (rnAdd fm a b)).then fun s =>
  (stepQuiet fm (rnSub fm s a)).then fun d =>
  (stepQuiet fm (rnSub fm b d)).then fun e => .ok (s, e) 0

def seqAdd (fm : Fmt) (x y : HiLo) : Seq HiLo :=
  (twoSum fm x.1 y.1).then fun sp =>
  (twoSum fm x.2 y.2).then fun tp =>
  (stepRn fm (rnAdd fm sp.2 tp.1)).then fun c =>
  (fastTwoSum fm sp.1 c).then fun v =>
  (stepRn fm (rnAdd fm tp.2 v.2)).then fun w => fastTwoSum fm v.1 w

def seqMul (fm : Fmt) (x y : HiLo) : Seq HiLo :=
  (twoProd fm x.1 y.1).then fun c =>
  (stepRn fm (rnMul fm x.2 y.2)).then fun t0 =>
  (stepRn fm (rnFma fm x.1 y.2 t0)).then fun t1 =>
  (stepRn fm (rnFma fm x.2 y.1 t1)).then fun cl2 =>
  (stepRn fm (rnAdd fm c.2 cl2)).then fun l => fastTwoSum fm c.1 l

def seqFma (fm : Fmt) (x y c : HiLo) : Seq HiLo := (seqMul fm x y).then fun m => seqAdd fm m c

def seqTimesFp (fm : Fmt) (y : HiLo) (t : Nat) : Seq HiLo :=
  (twoProd fm y.1 t).then fun c =>
  (stepRn fm (rnMul fm y.2 t)).then fun cl2 =>
  (fastTwoSum fm c.1 cl2).then fun th =>
  (stepRn fm (rnAdd fm th.2 c.2)).then fun l => fastTwoSum fm th.1 l

def seqDiv (fm : Fmt) (x y : HiLo) : Seq HiLo :=
  (stepRn fm (rnDiv fm x.1 y.1)).then fun th =>
  (seqTimesFp fm y th).then fun ph =>
  (stepRn fm (rnSub fm x.1 ph.1)).then fun d1 =>
  (stepRn fm (rnSub fm x.2 ph.2)).then fun d2 =>
  (stepRn fm (rnAdd fm d1 d2)).then fun d =>
  (stepRn fm (rnDiv fm d y.1)).then fun q => fastTwoSum fm th q

def seqSqrt (fm : Fmt) (x : HiLo) : Seq HiLo :=
  (stepRn fm (rnSqrt fm x.1)).then fun sh =>
  (twoProd fm sh sh).then fun ph =>
  (stepRn fm (rnSub fm x.1 ph.1)).then fun d1 =>
  (stepRn fm (rnSub fm d1 ph.2)).then fun d2 =>
  (stepRn fm (rnAdd fm d2 x.2)).then fun d =>
  (stepRn fm (rnAdd fm sh sh)).then fun s2 =>
  (stepRn fm (rnDiv fm d s2)).then fun q => fastTwoSum fm sh q

/-- The five double-word operations. -/
inductive DwOp where
  | add | mul | fma | div | sqrt
  deriving DecidableEq, Repr

/-- The value of an input pair (02 R56). -/
def pairVal (fm : Fmt) (x : HiLo) : FV :=
  let h := fm.unpack x.1
  let l := fm.unpack x.2
  if h.isNan || l.isNan then .nan (h.snan || l.snan)
  else if h.isInf then h
  else if l.isInf then l
  else match (fvAdd false h l).1 with
    | .fin n m e => if m = 0 then .fin (if h.isZero then h.sign else false) 0 0 else .fin n m e
    | y => y

/-- The IEEE result of an operation on values of which one is infinite (05 R158 step 2). -/
def dwSpecial (op : DwOp) (x y c : FV) : FV × Fl :=
  match op with
  | .add => fvAdd false x y
  | .mul => fvMul x y
  | .fma => fvFma false x y c
  | .div =>
    match x, y with
    | .inf _, .inf _ => (.nan false, fNV)
    | .inf n, v => (.inf (n != v.sign), 0)
    | v, .inf n => (.fin (v.sign != n) 0 0, 0)
    | v, _ => (v, 0)
  | .sqrt => if x.sign then (.nan false, fNV) else (x, 0)

/-- An input normalised: two_sum(hi, lo), or the signed zero it denotes (05 R158 step 3). -/
def dwNorm (fm : Fmt) (x : HiLo) : Seq HiLo :=
  if (pairVal fm x).isZero then .ok (if (pairVal fm x).sign then fm.signBit else 0, 0) 0 else twoSum fm x.1 x.2

/-- A double-word operation (05 R158, R159). -/
def dword (fm : Fmt) (op : DwOp) (x y c : HiLo) : HiLo × Fl :=
  let ins := match op with
    | .sqrt => [x]
    | .fma => [x, y, c]
    | _ => [x, y]
  let vals := ins.map (pairVal fm)
  if vals.any FV.isNan then ((fm.qnan, 0), if vals.any FV.snan then fNV else 0)
  else if vals.any FV.isInf then
    let (r, fl) := dwSpecial op (pairVal fm x) (pairVal fm y) (pairVal fm c)
    (((fm.write false false .rne r).1, 0), fl)
  else
    let xv := pairVal fm x
    let yv := pairVal fm y
    let two : Bool := op != .sqrt
    let r : Seq HiLo :=
      (dwNorm fm x).then fun x' =>
      (if two then dwNorm fm y else .ok (0, 0) 0).then fun y' =>
      (if op == .fma then dwNorm fm c else .ok (0, 0) 0).then fun c' =>
        if op == .div && yv.isZero then
          (if xv.isZero then .ok (fm.qnan, 0) fNV
           else .ok ((if xv.sign != yv.sign then fm.signBit else 0) + fm.infBits, 0) fDZ)
        else if op == .sqrt && xv.isZero then .ok (if xv.sign then fm.signBit else 0, 0) 0
        else if op == .sqrt && xv.sign then .ok (fm.qnan, 0) fNV
        else match op with
          | .add => seqAdd fm x' y'
          | .mul => seqMul fm x' y'
          | .fma => seqFma fm x' y' c'
          | .div => seqDiv fm x' y'
          | .sqrt => seqSqrt fm x'
    match r with
    | .over n fl => (((if n then fm.signBit else 0) + fm.infBits, 0), fl ||| fOF ||| fNX)
    | .ok z fl => ((z.1, if fm.zeroBits z.1 then 0 else z.2), fl)

/-! ### The instructions -/

/-- Registers of a double-word pair: two, or four for FP64 (02 Table 2.7). -/
def dwRegs (wide : Bool) : Nat := if wide then 4 else 2

/-- A double-word pair's alignment (01 R18). -/
def dwOk (wide : Bool) (r : Nat) : Bool := r % dwRegs wide == 0

/-- An element at register r. -/
def Team.fpElem (t : Team) (wide : Bool) (r l : Nat) : Nat := if wide then (t.v64 r l).toNat else (t.v r l).toNat

/-- A double-word pair at register r. -/
def Team.dwElem (t : Team) (wide : Bool) (r l : Nat) : HiLo := (t.fpElem wide r l, t.fpElem wide (r + nregs wide) l)

/-- The registers of a double-word result. -/
def dwWrites (wide : Bool) (d : Nat) (x : HiLo) : List (Nat × Word32) :=
  if wide then pairRegs d (BitVec.ofNat 64 x.1) ++ pairRegs (d + 2) (BitVec.ofNat 64 x.2)
  else [(d, BitVec.ofNat 32 x.1), (d + 1, BitVec.ofNat 32 x.2)]

/-- `FADDX`, `FSUBX`, `FMULX`: elements in, an error pair out, tagged DW (05 R156, R157). -/
def errPair (p : Option Pfx) (f : LR) (op : Fmt → FV → FV → HiLo × Fl) (s : State) : Out :=
  let n := nregs f.wide
  let fm := fmtWide f.wide
  let d := f.vd.toNat
  runLane (pfxOk p) (laneOp p (srcAB f n n [tagWide f.wide]) d (dwRegs f.wide)
    (pairOk f.wide f.va && pairOk f.wide f.vb && dwOk f.wide d) 15 (pfxWarn p uses2) fun t l =>
      let r := op fm (fm.unpack (t.fpElem f.wide f.va.toNat l)) (fm.unpack (t.fpElem f.wide f.vb.toNat l))
      { regs := dwWrites f.wide d r.1, fl := r.2 }) s

/-- FADDX (05 R156). -/
def execFaddx (p : Option Pfx) (f : LR) (s : State) : Out := errPair p f pairSum s

/-- FSUBX: `FADDX` with vb's sign inverted (05 R156). -/
def execFsubx (p : Option Pfx) (f : LR) (s : State) : Out := errPair p f (fun fm a b => pairSum fm a b.neg) s

/-- FMULX (05 R157). -/
def execFmulx (p : Option Pfx) (f : LR) (s : State) : Out := errPair p f pairProd s

/-- A double-word instruction of one to three pairs (05 R158). -/
def dwLane (p : Option Pfx) (f : LR) (op : DwOp) (s : State) : Out :=
  let w := f.wide
  let n := dwRegs w
  let d := f.vd.toNat
  let c := accReg p f
  let fma := op == .fma
  let sqrt := op == .sqrt
  let srcs := (if sqrt then srcA f n [15] else srcAB f n n [15]) ++ (if fma then [⟨c, n, 0, [15]⟩] else [])
  runLane (pfxOk p) (laneOp p srcs d n
    (dwOk w d && dwOk w f.va.toNat && (sqrt || dwOk w f.vb.toNat) && (!fma || dwOk w c)) 15
    (pfxWarn p { wa := true, wb := !sqrt, vc := fma } ||| wIf (sqrt && f.vb != 0) wOPND) fun t l =>
      let r := dword (fmtWide w) op (t.dwElem w f.va.toNat l) (t.dwElem w f.vb.toNat l) (t.dwElem w c l)
      { regs := dwWrites w d r.1, fl := r.2 }) s

/-- DWADD (05 R158, R159). -/
def execDwadd (p : Option Pfx) (f : LR) (s : State) : Out := dwLane p f .add s

/-- DWMUL (05 R158, R159). -/
def execDwmul (p : Option Pfx) (f : LR) (s : State) : Out := dwLane p f .mul s

/-- DWFMA (05 R158, R159). -/
def execDwfma (p : Option Pfx) (f : LR) (s : State) : Out := dwLane p f .fma s

/-- DWDIV (05 R158, R159). -/
def execDwdiv (p : Option Pfx) (f : LR) (s : State) : Out := dwLane p f .div s

/-- DWSQRT (05 R158, R159). -/
def execDwsqrt (p : Option Pfx) (f : LR) (s : State) : Out := dwLane p f .sqrt s

/-! ### Compensated reductions (05 R160, R161) -/

/-- combine(a, b): an absent side passes the other through; two present sides add (05 R160). -/
def combine (fm : Fmt) (a b : Option (HiLo × Fl)) : Option (HiLo × Fl) :=
  match a, b with
  | none, y => y
  | x, none => x
  | some x, some y => let r := dword fm .add x.1 y.1 (0, 0); some (r.1, x.2 ||| y.2 ||| r.2)

/-- One level: positions 2i and 2i + 1 combined. -/
def combineLevel (fm : Fmt) (xs : List (Option (HiLo × Fl))) : List (Option (HiLo × Fl)) :=
  match xs with
  | a :: b :: r => combine fm a b :: combineLevel fm r
  | r => r

/-- `n` levels. -/
def combineLevels (fm : Fmt) (n : Nat) (xs : List (Option (HiLo × Fl))) : Option (HiLo × Fl) :=
  match n with
  | 0 => (xs.head?).join
  | k + 1 => combineLevels fm k (combineLevel fm xs)

/-- A lane as a leaf: (x, +0) when it acts, absent otherwise. -/
def leaf (t : Team) (p : Option Pfx) (wide : Bool) (a l : Nat) : Option (HiLo × Fl) :=
  if inMask (t.acting p) l then some ((t.fpElem wide a l, 0), 0) else none

/-- The lanes of a lane's tile. -/
def tileOf (t : Team) (l : Nat) : List Nat := (List.range t.tileSize).map (l - l % t.tileSize + ·)

/-- The root of the reduction over a lane's tile: absent when none of its lanes acts. -/
def credRoot (p : Option Pfx) (f : LR) (t : Team) (l : Nat) : Option (HiLo × Fl) :=
  combineLevels (fmtWide f.wide) (field t.tile 0 3) ((tileOf t l).map (leaf t p f.wide f.va.toNat))

/-- `CRED` in a lane: the tile's lowest-numbered acting lane takes the root, the others keep what they hold. -/
def credLane (p : Option Pfx) (f : LR) (t : Team) (l : Nat) : LaneOut :=
  match credRoot p f t l with
  | some r => if (tileOf t l).find? (inMask (t.acting p)) = some l
    then { regs := dwWrites f.wide f.vd.toNat r.1, fl := r.2 } else { regs := [] }
  | none => { regs := [] }

/-- CRED (05 R160). -/
def execCred (p : Option Pfx) (f : LR) (s : State) : Out :=
  runLane (pfxOk p) (laneOp p (srcA f (nregs f.wide) [tagWide f.wide]) f.vd.toNat (dwRegs f.wide)
    (pairOk f.wide f.va && dwOk f.wide f.vd.toNat) 15 (pfxWarn p uses1 ||| wIf (f.vb != 0) wOPND) (credLane p f)) s

/-- ceil(log2 L) (05 R161). -/
def levelsOf (l : Nat) : Nat := if l ≤ 32 then 5 else if l ≤ 64 then 6 else if l ≤ 128 then 7
  else if l ≤ 256 then 8 else if l ≤ 512 then 9 else 10

/-- The sum `TCRED` forms over the team's acting lanes; (+0, +0) when none acts (05 R161). -/
def tcredSum (p : Option Pfx) (f : LR) (t : Team) : HiLo × Fl :=
  let d := levelsOf t.lanes
  let leaves := (List.range (2 ^ d)).map fun l => if l < t.lanes then leaf t p f.wide f.va.toNat l else none
  (combineLevels (fmtWide f.wide) d leaves).getD ((0, 0), 0)

/-- What `TCRED` does when all its rows are read: the scalar pair, the exceptions in the team's lowest acting lane. -/
def tcredFin (p : Option Pfx) (f : LR) (t : Team) : FinOut :=
  let sd : BitVec 6 := f.vd.setWidth 6
  let r := tcredSum p f t
  { team := (t.setS sd (BitVec.ofNat 64 r.1.1)).setS (sd + 1) (BitVec.ofNat 64 r.1.2)
    fl := if r.2 = 0 then [] else [((lowest (t.acting p) t.lanes).getD 0, r.2)]
    stack := t.s63Bad (sd + 1) (BitVec.ofNat 64 r.1.2) }

/-- `TCRED` as a lane operation. -/
def tcredOp (p : Option Pfx) (f : LR) : LaneOp :=
  { p := p, srcs := srcA f (nregs f.wide) [tagWide f.wide], dsts := [],
    aligned := pairOk f.wide f.va && f.vd.toNat % 2 == 0, tags := [],
    warn := pfxWarn p { uses1 with z := false } ||| wIf f.vd.msb wOPND, row := fun _ _ => ⟨[], [], []⟩, fin := tcredFin p f }

/-- TCRED (05 R161): sd is even; Z does not apply. -/
def execTcred (p : Option Pfx) (f : LR) (s : State) : Out := runLane (pfxOk p) (tcredOp p f) s

end Sys2Proof.Machine
end

