-- ==== Sys2Proof/Machine/LaneExch.lean ====
section
/-! DEFINITION. The exchange instructions, which combine the lanes of a tile: major 0x19 and `BALLOT` of the lane set (06
R188 to R191). -/

namespace Sys2Proof.Machine

/-- The first lane of a lane's tile, and its position in it (01 R16). -/
def tileBase (z l : Nat) : Nat := l - l % z
def tilePos (z l : Nat) : Nat := l % z

/-- The lanes of a lane's tile. -/
def tileLanes (z l : Nat) : List Nat := (List.range z).map (tileBase z l + ·)

/-- The result tags of a shuffle: va's (06 Table 6.2), of a pair that of the register named (01 R26). -/
def vaTags (t : Team) (f : LR) (n : Nat) : List (Nat × Nat) := tagRun f.vd.toNat n (t.tagOf f.va.toNat).toNat

/-- `SHFL.m`: each acting lane pulls va of the lane whose position `src z p d` gives, its own where that is out of the
tile; d is vb read as n32 (06 R189). -/
def shuffle (p : Option Pfx) (f : LR) (src : Nat → Nat → Nat → Option Nat) (s : State) : Out :=
  let n := nregs f.wide
  let a := f.va.toNat
  let d := f.vd.toNat
  let o := laneOp p [⟨a, n, 1, []⟩, ⟨f.vb.toNat, 1, 2, [13]⟩] d n (pairOk f.wide f.vd && pairOk f.wide f.va) 0
    (pfxWarn p uses2) fun t l =>
      let z := t.tileSize
      let q := match src z (tilePos z l) (t.v f.vb.toNat l).toNat with
        | some i => tileBase z l + i
        | none => l
      { regs := if f.wide then pairRegs d (t.v64 a q) else [(d, t.v a q)] }
  runLane (pfxOk p) { o with tags := vaTags s.team f n } s

/-- SHFL.idx: position d mod z (06 R189). -/
def execShflIdx (p : Option Pfx) (f : LR) (s : State) : Out := shuffle p f (fun z _ d => some (d % z)) s

/-- SHFL.xor: position p xor (d mod z) (06 R189). -/
def execShflXor (p : Option Pfx) (f : LR) (s : State) : Out := shuffle p f (fun z q d => some (q ^^^ (d % z))) s

/-- SHFL.up: position p - d (06 R189). -/
def execShflUp (p : Option Pfx) (f : LR) (s : State) : Out :=
  shuffle p f (fun _ q d => if d ≤ q then some (q - d) else none) s

/-- SHFL.dn: position p + d (06 R189). -/
def execShflDn (p : Option Pfx) (f : LR) (s : State) : Out :=
  shuffle p f (fun z q d => if q + d < z then some (q + d) else none) s

/-- The lane of its tile an acting lane pushes to: position vb[4:0] mod z (06 R190). -/
def pushTarget (t : Team) (vb l : Nat) : Nat := tileBase t.tileSize l + (t.v vb l).toNat % 32 % t.tileSize

/-- What a lane receives under `PSHW`: the highest-numbered acting lane that pushed to it, and the conflict mask of the
tile positions that did (06 R190). -/
def pushed (p : Option Pfx) (t : Team) (vb l : Nat) : Option Nat × Word32 :=
  let z := t.tileSize
  let from_ := (tileLanes z l).filter fun k => inMask (t.acting p) k && pushTarget t vb k == l
  (from_.getLast?, BitVec.ofNat 32 (from_.foldl (fun a k => a + 2 ^ tilePos z k) 0))

/-- PSHW: data to vd, the conflict mask to the register after it; with W = 1 vd is a multiple of 4 and vd + 3 is
unchanged (06 R190). Z zeroes the registers it writes. -/
def execPshw (p : Option Pfx) (f : LR) (s : State) : Out :=
  let n := nregs f.wide
  let a := f.va.toNat
  let d := f.vd.toNat
  let o := laneOp p [⟨a, n, 1, []⟩, ⟨f.vb.toNat, 1, 2, []⟩] d (n + 1) (d % (2 * n) == 0 && pairOk f.wide f.va) 0
    (pfxWarn p uses2) fun t l =>
      let r := pushed p t f.vb.toNat l
      let data := match r.1 with
        | none => []
        | some q => if f.wide then pairRegs d (t.v64 a q) else [(d, t.v a q)]
      { regs := data ++ [(d + n, r.2)] }
  runLane (pfxOk p) { o with tags := vaTags s.team f n ++ [(d + n, 13)], aligned := o.aligned && s.team.inRange d (2 * n) } s

/-- A lane's element as a number: 32 bits, or 64 with W = 1. -/
def exchElem (f : LR) (t : Team) (l : Nat) : Nat :=
  if f.wide then (t.v64 f.va.toNat l).toNat else (t.v f.va.toNat l).toNat

/-- The acting lanes of a lane's tile. -/
def tileActing (p : Option Pfx) (t : Team) (l : Nat) : List Nat :=
  (tileLanes t.tileSize l).filter (inMask (t.acting p))

/-- The mask of tile positions of lanes. -/
def positions (z : Nat) (ls : List Nat) : Word32 := BitVec.ofNat 32 (ls.foldl (fun a k => a + 2 ^ tilePos z k) 0)

/-- A vote without vb: one destination register, tagged I32 (06 R191, Table 6.2). -/
def vote (p : Option Pfx) (f : LR) (g : Team → Nat → Word32) (s : State) : Out :=
  runLane (pfxOk p) (laneOp p (srcA f (nregs f.wide) []) f.vd.toNat 1 (pairOk f.wide f.va) 13
    (pfxWarn p uses1 ||| wIf (f.vb != 0) wOPND) fun t l => { regs := [(f.vd.toNat, g t l)] }) s

/-- VOTE.any (06 R191). -/
def execVoteAny (p : Option Pfx) (f : LR) (s : State) : Out :=
  vote p f (fun t l => flag32 ((tileActing p t l).any fun k => exchElem f t k != 0)) s

/-- VOTE.all (06 R191). -/
def execVoteAll (p : Option Pfx) (f : LR) (s : State) : Out :=
  vote p f (fun t l => flag32 ((tileActing p t l).all fun k => exchElem f t k != 0)) s

/-- BALLOT (06 R191). -/
def execBallot (p : Option Pfx) (f : LR) (s : State) : Out :=
  vote p f (fun t l => positions t.tileSize ((tileActing p t l).filter fun k => exchElem f t k != 0)) s

/-- VOTE.eq: the acting lanes whose va agrees with this lane's on the bits set in this lane's vb, one register (06 R188,
R191). -/
def execVoteEq (p : Option Pfx) (f : LR) (s : State) : Out :=
  runLane (pfxOk p) (laneOp p [⟨f.va.toNat, nregs f.wide, 1, []⟩, ⟨f.vb.toNat, 1, 2, []⟩] f.vd.toNat 1
    (pairOk f.wide f.va) 13 (pfxWarn p uses2) fun t l =>
      let m := (t.v f.vb.toNat l).toNat
      { regs := [(f.vd.toNat, positions t.tileSize
        ((tileActing p t l).filter fun k => (exchElem f t k) &&& m == (exchElem f t l) &&& m))] }) s

end Sys2Proof.Machine
end

