-- ==== Sys2Proof/Machine/Func.lean ====
section
/-! DEFINITION. The special functions, correctly rounded (05 R162, R163), and the activation tables and functions (05
R164 to R166). A transcendental value is enclosed in fixed point, and the enclosure is narrowed until both its ends
round alike. -/

namespace Sys2Proof.Machine

/-- An enclosure of a real y at scale 2^-p: y x 2^p differs from `v` by at most `e`. -/
structure Enc where
  v : Int
  e : Nat

/-- The rounding of a nonzero real enclosed at scale 2^-p and multiplied by 2^k, when both ends of the enclosure round
alike. The ends used are half-integers, which no format represents: the value itself is never representable. -/
def Fmt.roundEnc (fm : Fmt) (p : Nat) (k : Int) (x : Enc) : Option (Nat × Fl) :=
  let lo := 2 * (x.v - x.e) - 1
  let hi := 2 * (x.v + x.e) + 1
  if 0 < lo ∨ hi < 0 then
    let r := fun (y : Int) => fm.round false false .rne (decide (y < 0)) y.natAbs (k - p - 1) true
    if r lo = r hi then some (r lo) else none
  else none

/-- The rounding found at the first precision that decides it. The spec's functions at a format's values are decided
at the precisions the callers give; the last one's middle is taken otherwise. -/
def Fmt.roundReal (fm : Fmt) (enc : Nat → Enc) (k : Int) (ps : List Nat) : Nat × Fl :=
  match ps with
  | [] => (0, 0)
  | p :: r =>
    match fm.roundEnc p k (enc p), r with
    | some x, _ => x
    | none, [] => let v := (enc p).v; fm.round false false .rne (decide (v < 0)) v.natAbs (k - p) true
    | none, r => fm.roundReal enc k r

/-! ### Fixed-point series -/

/-- Sum of x^n / n! from the term `term` of index n on, at scale 2^-p. -/
def expSum (p x n term fuel : Nat) : Nat :=
  match fuel with
  | 0 => 0
  | f + 1 => if term = 0 then 0 else term + expSum p x (n + 1) (term * x / 2 ^ p / (n + 1)) f

/-- e^x for x from 0 to 32 at scale 2^-p; short of the value by less than 4p + 16 for x below 1, and by less than 2^64
for x up to 32. -/
def expFix (p x : Nat) : Nat := expSum p x 0 (2 ^ p) (p + 200)

/-- Sum of z^(2k+1) / (2k+1), with z2 = z^2, alternating when `alt`, from the power `pw` of index k on. -/
def oddSum (alt : Bool) (p : Nat) (z2 pw : Int) (k fuel : Nat) : Int :=
  match fuel with
  | 0 => 0
  | f + 1 =>
    if pw = 0 then 0
    else pw / (2 * k + 1) + oddSum alt p z2 (let q := pw * z2 / 2 ^ p; if alt then -q else q) (k + 1) f

/-- Sum of 2^p / ((2k+1) n^(2k+1)), alternating when `alt`: arctangent or its hyperbolic form at 1/n. -/
def invSum (alt : Bool) (n2 pw : Int) (k fuel : Nat) : Int :=
  match fuel with
  | 0 => 0
  | f + 1 => if pw = 0 then 0 else pw / (2 * k + 1) + invSum alt n2 (let q := pw / n2; if alt then -q else q) (k + 1) f

/-- ln 2 at scale 2^-p, within 4p + 16. -/
def ln2Fix (p : Nat) : Int := 2 * invSum false 9 (2 ^ p / 3) 0 p

/-- pi at scale 2^-p, within 16p + 128. -/
def piFix (p : Nat) : Int := 16 * invSum true 25 (2 ^ p / 5) 0 p - 4 * invSum true 57121 (2 ^ p / 239) 0 p

/-- Sum of (-1)^n r^(i+2n) / (i+2n)!, from the term `term` of order i on. -/
def trigSum (p : Nat) (r2 term : Int) (i fuel : Nat) : Int :=
  match fuel with
  | 0 => 0
  | f + 1 => if term = 0 ∨ term = -1 then 0
    else term + trigSum p r2 (-(term * r2 / 2 ^ p / ((i + 1) * (i + 2)))) (i + 2) f

/-- sin r and cos r for |r| at most 1, at scale 2^-p, within p + 16 beyond the error of r. -/
def sinFix (p : Nat) (r : Int) : Int := trigSum p (r * r / 2 ^ p) r 1 p
def cosFix (p : Nat) (r : Int) : Int := trigSum p (r * r / 2 ^ p) (2 ^ p) 0 p

/-! ### The functions -/

/-- A power of two? -/
def isPow2 (m : Nat) : Bool := m != 0 && 2 ^ Nat.log2 m == m

/-- 1/sqrt(m 2^e) for m nonzero, rounded once. -/
def rsqrtFin (fm : Fmt) (m : Nat) (e : Int) : Nat × Fl :=
  let m' := if e % 2 = 0 then m else 2 * m
  let e' := if e % 2 = 0 then e else e - 1
  let s := bitLen m' + fm.mb + 40
  let r := isqrt (2 ^ (2 * s) / m') (s + 1) 0
  fm.round false false .rne false r (-(e' / 2) - s) (r * r * m' != 2 ^ (2 * s))

/-- 2^x for x = (-1)^neg m 2^e, m nonzero. -/
def exp2Fin (fm : Fmt) (neg : Bool) (m : Nat) (e : Int) : Nat × Fl :=
  let top := e + (bitLen m : Int)
  if 13 < top then fm.round false false .rne false 1 (if neg then -10000 else 10000) false
  else if top < -64 then
    fm.round false false .rne false (if neg then 2 ^ 100 - 1 else 2 ^ 100 + 1) (-100) false
  else
    let x (p : Nat) : Int := sgn neg (m * 2 ^ (e + p).toNat)
    let k := x 192 / 2 ^ 192
    if x 192 % 2 ^ 192 = 0 then fm.round false false .rne false 1 k false
    else fm.roundReal (fun p =>
      let fr := x p % 2 ^ p
      ⟨expFix p (fr * ln2Fix p / 2 ^ p).toNat, 2 * (4 * p + 20) + (4 * p + 16)⟩) k [192, 512, 1600]

/-- log2 of m 2^e, m nonzero. -/
def log2Fin (fm : Fmt) (m : Nat) (e : Int) : Nat × Fl :=
  let l := Nat.log2 m
  if isPow2 m then
    let k := e + (l : Int)
    fm.round false false .rne (decide (k < 0)) k.natAbs 0 false
  else
    let up := decide (3 * 2 ^ l ≤ 2 * m)
    let d : Int := if up then 2 ^ (l + 1) else 2 ^ l
    let k : Int := e + l + (if up then 1 else 0)
    fm.roundReal (fun p =>
      let z := ((m : Int) - d) * 2 ^ p / (m + d)
      let ln := 2 * oddSum false p (z * z / 2 ^ p) z 0 p
      ⟨k * 2 ^ p + ln * 2 ^ p / ln2Fix p, 2 * ((8 * p + 32) + (4 * p + 16)) + 4⟩) 0 [192, 512, 1600]

/-- The reduction of x = m 2^e (at least 2^-100) by pi/2: the multiple, the remainder at scale 2^-p, its error. -/
def reduce (m : Nat) (e : Int) (p : Nat) : Int × Int × Nat :=
  let ex := (e + (bitLen m : Int)).toNat
  let q := p + ex + 8
  let x : Int := m * 2 ^ (e + q).toNat
  let h := piFix q / 2
  let n := (x + h / 2) / h
  (n, (x - n * h) / 2 ^ (q - p), 16 * q + 130)

/-- sin (`cosine` false) or cos of (-1)^neg m 2^e, m nonzero; the argument reduced exactly (05 R162). -/
def trigFin (fm : Fmt) (cosine neg : Bool) (m : Nat) (e : Int) : Nat × Fl :=
  if e + (bitLen m : Int) < -100 then
    (if cosine then fm.round false false .rne false (2 ^ 200 - 1) (-200) false
     else fm.round false false .rne neg (m * 2 ^ 200 - 1) (e - 200) false)
  else fm.roundReal (fun p =>
    let (n, r, er) := reduce m e p
    let q := (if cosine then n + 1 else n) % 4
    let y := if q % 2 = 0 then sinFix p r else cosFix p r
    let y := if 2 ≤ q then -y else y
    ⟨if neg && !cosine then -y else y, er + p + 16⟩) 0 [192, 512, 1600]

/-- The special functions of major 0x14. -/
inductive SpecialFn where
  | rcp | rsq | exp2 | log2 | sin | cos
  deriving DecidableEq, Repr

/-- A special function of an element, with the edges of 05 Table 5.7. -/
def specialFn (fm : Fmt) (f : SpecialFn) (a : Nat) : Nat × Fl :=
  let sb := fun (n : Bool) => if n then fm.signBit else 0
  let one := fm.bias * 2 ^ fm.mb
  match fm.unpack a with
  | .nan sig => (fm.qnan, if sig then fNV else 0)
  | .inf n =>
    match f with
    | .rcp => (sb n, 0)
    | .rsq => if n then (fm.qnan, fNV) else (0, 0)
    | .exp2 => if n then (0, 0) else (fm.infBits, 0)
    | .log2 => if n then (fm.qnan, fNV) else (fm.infBits, 0)
    | .sin | .cos => (fm.qnan, fNV)
  | .fin n m e =>
    if m = 0 then
      match f with
      | .rcp | .rsq => (sb n + fm.infBits, fDZ)
      | .exp2 => (one, 0)
      | .log2 => (fm.signBit + fm.infBits, fDZ)
      | .sin => (sb n, 0)
      | .cos => (one, 0)
    else
      match f with
      | .rcp => fm.div .rne (.fin false 1 0) (.fin n m e)
      | .rsq => if n then (fm.qnan, fNV) else rsqrtFin fm m e
      | .exp2 => exp2Fin fm n m e
      | .log2 => if n then (fm.qnan, fNV) else log2Fin fm m e
      | .sin => trigFin fm false n m e
      | .cos => trigFin fm true n m e

/-! ### Activations -/

/-- The activations of major 0x15. -/
inductive ActFn where
  | gelu | silu | splus | tanh | sigm
  deriving DecidableEq, Repr

/-- An integer at scale 2^-(p+24) rounded to scale 1, ties to even. -/
def roundHalfEven (x : Int) (d : Nat) : Int :=
  let n := x / 2 ^ d
  let r := x % 2 ^ d
  if 2 ^ (d - 1) < r ∨ (r = 2 ^ (d - 1) ∧ n % 2 = 1) then n + 1 else n

/-- The fixed-point scale the tables are computed at. -/
def tabBits : Nat := 160

/-- e^t at scale 2^-160, for t = j / 64. -/
def tabExp (j : Nat) : Nat := expFix tabBits (j * 2 ^ (tabBits - 6))

/-- Sum of (-1)^n t^(2n+1) / (2^n n! (2n+1)) from the term `a` (without its last factor) of index n on, t = j / 64. -/
def erfSum (j n : Nat) (a : Int) (fuel : Nat) : Int :=
  match fuel with
  | 0 => 0
  | f + 1 => if a = 0 ∨ a = -1 then 0
    else a / (2 * n + 1) + erfSum j (n + 1) (-(a * (j * j) / (4096 * (2 * (n + 1))))) f

/-- ½ (1 + erf(t/√2)) for t = j / 64 at scale 2^-160; from t = 6 on it rounds to the whole table unit. -/
def gauss (j : Nat) : Int :=
  if 384 ≤ j then 2 ^ tabBits
  else
    let root := isqrt (piFix (2 * tabBits + 1)).toNat (tabBits + 4) 0
    2 ^ (tabBits - 1) + erfSum j 0 (j * 2 ^ (tabBits - 6)) 300 * 2 ^ tabBits / root

/-- g_f(t) at scale 2^-160 for t = (j - 1024) / 64 (05 R164). -/
def actReal (f : ActFn) (j : Nat) : Int :=
  let one : Int := 2 ^ tabBits
  let neg := decide (j < 1024)
  let a := if neg then 1024 - j else j - 1024
  match f with
  | .sigm | .silu =>
    let e := tabExp a
    if neg then one * one / (one + e) else one * e / (one + e)
  | .tanh =>
    let e := tabExp (2 * a)
    let y := (e - one) * one / (e + one)
    if neg then -y else y
  | .splus =>
    let u := one * one / tabExp a
    let z := u * one / (2 * one + u)
    2 * oddSum false tabBits (z * z / one) z 0 tabBits
  | .gelu => if neg then one - gauss a else gauss a

/-- T_f[j] (05 R164). -/
def actTable (f : ActFn) (j : Nat) : Int := roundHalfEven (actReal f j) (tabBits - 24)

/-- x times 2^k, rounded down. -/
def floorTimes (x : Int) (k : Int) : Int := if 0 ≤ k then x * 2 ^ k.toNat else x / 2 ^ (-k).toNat

/-- An activation of an element of FP32 or BF16 (05 R165, R166); `flush` is F16Z for BF16. -/
def activation (fm : Fmt) (flush : Bool) (f : ActFn) (a : Nat) : Nat × Fl :=
  let one := fm.bias * 2 ^ fm.mb
  let same := if flush && fm.subnormal a then (if a.testBit (fm.eb + fm.mb) then fm.signBit else 0) else a
  let low : Nat := match f with
    | .sigm | .splus => 0
    | .tanh => fm.signBit + one
    | .silu | .gelu => fm.signBit
  let high : Nat := match f with
    | .sigm | .tanh => one
    | _ => same
  match fm.unpackFlush flush a with
  | .nan sig => (fm.qnan, if sig then fNV else 0)
  | .inf n => (if n then low else high, 0)
  | .fin n m e =>
    let x := sgn n m
    let fx := floorTimes x (e + 16)
    if fx < -1048576 then (low, 0)
    else if 1048576 ≤ fx then (high, 0)
    else if f = .tanh ∧ (m = 0 ∨ floorLog2 m e < -12) then (same, 0)
    else
      let i := (fx + 1048576).toNat
      let t0 := actTable f (i / 1024)
      let t1 := actTable f (i / 1024 + 1)
      let y := t0 + ((t1 - t0) * (i % 1024) + 512) / 1024
      match f with
      | .sigm | .tanh => fm.round false flush .rne (decide (y < 0)) y.natAbs (-24) false
      | .silu | .gelu => fm.round false flush .rne n (m * y.natAbs) (e - 24) false
      | .splus =>
        match addFin false false (if n then 0 else m) e (decide (y < 0)) y.natAbs (-24) with
        | .fin n2 m2 e2 => fm.round false flush .rne n2 m2 e2 false
        | _ => (0, 0)

end Sys2Proof.Machine
end

