-- ==== Sys2Proof/Machine/LaneFunc.lean ====
section
/-! DEFINITION. Special functions and activations, majors 0x14 and 0x15 of the lane set (05 R162 to R166). They execute in
the transform pipe: their destination rows are marked empty at issue and land later (01 R22, 05 R137). -/

namespace Sys2Proof.Machine

/-- A special function of FP32 elements or FP64 pairs, always in RNE; vb is MBZ (05 R162). -/
def specialLane (p : Option Pfx) (f : LR) (fn : SpecialFn) (s : State) : Out :=
  let n := nregs f.wide
  let d := f.vd.toNat
  let tag := tagWide f.wide
  let o := laneOp p (srcA f n [tag]) d n (pairOk f.wide f.va && pairOk f.wide f.vd) tag
    (pfxWarn p uses1 ||| wIf (f.vb != 0) wOPND) fun t l =>
      if f.wide then
        let r := specialFn fmtF64 fn (t.v64 f.va.toNat l).toNat
        { regs := pairRegs d (BitVec.ofNat 64 r.1), fl := r.2 }
      else
        let r := specialFn fmtF32 fn (t.v f.va.toNat l).toNat
        { regs := [(d, BitVec.ofNat 32 r.1)], fl := r.2 }
  runLane (pfxOk p) { o with long := true, fp := true } s

/-- An activation of FP32 elements or, with W = 1, packed BF16 elements; vb is MBZ (05 R165). -/
def actLane (p : Option Pfx) (f : LR) (fn : ActFn) (s : State) : Out :=
  let d := f.vd.toNat
  let tag := if f.wide then 3 else 1
  let o := laneOp p (srcA f 1 [tag]) d 1 true tag (pfxWarn p uses1 ||| wIf (f.vb != 0) wOPND) fun t l =>
    let x := (t.v f.va.toNat l).toNat
    if f.wide then
      let r0 := activation fmtBF16 t.f16z fn (x % 65536)
      let r1 := activation fmtBF16 t.f16z fn (x / 65536)
      { regs := [(d, BitVec.ofNat 32 (r0.1 + r1.1 * 65536))], fl := r0.2 ||| r1.2 }
    else
      let r := activation fmtF32 false fn x
      { regs := [(d, BitVec.ofNat 32 r.1)], fl := r.2 }
  runLane (pfxOk p) { o with long := true, fp := true } s

/-- RCP: 1/x, correctly rounded (05 R162, R163). -/
def execRcp (p : Option Pfx) (f : LR) (s : State) : Out := specialLane p f .rcp s

/-- RSQ: 1/√x, correctly rounded (05 R162, R163). -/
def execRsq (p : Option Pfx) (f : LR) (s : State) : Out := specialLane p f .rsq s

/-- EXP2: 2^x, correctly rounded (05 R162, R163). -/
def execExp2 (p : Option Pfx) (f : LR) (s : State) : Out := specialLane p f .exp2 s

/-- LOG2: log2 x, correctly rounded (05 R162, R163). -/
def execLog2 (p : Option Pfx) (f : LR) (s : State) : Out := specialLane p f .log2 s

/-- SIN: sin x, correctly rounded (05 R162, R163). -/
def execSin (p : Option Pfx) (f : LR) (s : State) : Out := specialLane p f .sin s

/-- COS: cos x, correctly rounded (05 R162, R163). -/
def execCos (p : Option Pfx) (f : LR) (s : State) : Out := specialLane p f .cos s

/-- GELU (05 R164 to R166). -/
def execGelu (p : Option Pfx) (f : LR) (s : State) : Out := actLane p f .gelu s

/-- SILU (05 R164 to R166). -/
def execSilu (p : Option Pfx) (f : LR) (s : State) : Out := actLane p f .silu s

/-- SPLUS (05 R164 to R166). -/
def execSplus (p : Option Pfx) (f : LR) (s : State) : Out := actLane p f .splus s

/-- TANH (05 R164 to R166). -/
def execTanh (p : Option Pfx) (f : LR) (s : State) : Out := actLane p f .tanh s

/-- SIGM (05 R164 to R166). -/
def execSigm (p : Option Pfx) (f : LR) (s : State) : Out := actLane p f .sigm s

end Sys2Proof.Machine
end

