-- ==== Sys2Proof/Machine/LaneInt.lean ====
section
/-! DEFINITION. Lane integers, bitwise work, compares, selection, immediates and moves: majors 0x01 to 0x09 and 0x18
subs 0 to 3 of the lane set (05 R142 to R147). -/

namespace Sys2Proof.Machine

/-- ADD.i32 (05 Table 5.4). -/
def execAddI32 (p : Option Pfx) (f : LR) (s : State) : Out := laneInt p f (fun _ a b => a + b) s

/-- SUB.i32 (05 Table 5.4). -/
def execSubI32 (p : Option Pfx) (f : LR) (s : State) : Out := laneInt p f (fun _ a b => a - b) s

/-- MUL.i32 (05 Table 5.4). -/
def execMulI32 (p : Option Pfx) (f : LR) (s : State) : Out := laneInt p f (fun _ a b => a * b) s

/-- MULH.i32 (05 Table 5.4). -/
def execMulhI32 (p : Option Pfx) (f : LR) (s : State) : Out := laneInt p f (fun _ a b => mulhS a b) s

/-- MIN.i32 (05 Table 5.4). -/
def execMinI32 (p : Option Pfx) (f : LR) (s : State) : Out := laneInt p f (fun _ a b => minS a b) s

/-- MAX.i32 (05 Table 5.4). -/
def execMaxI32 (p : Option Pfx) (f : LR) (s : State) : Out := laneInt p f (fun _ a b => maxS a b) s

/-- ADDS.i32 (05 Table 5.4). -/
def execAddsI32 (p : Option Pfx) (f : LR) (s : State) : Out := laneInt p f (fun w a b => satS w (a.toInt + b.toInt)) s

/-- SUBS.i32 (05 Table 5.4). -/
def execSubsI32 (p : Option Pfx) (f : LR) (s : State) : Out := laneInt p f (fun w a b => satS w (a.toInt - b.toInt)) s

/-- ADD.n32 (05 Table 5.4). -/
def execAddN32 (p : Option Pfx) (f : LR) (s : State) : Out := laneInt p f (fun _ a b => a + b) s

/-- SUB.n32 (05 Table 5.4). -/
def execSubN32 (p : Option Pfx) (f : LR) (s : State) : Out := laneInt p f (fun _ a b => a - b) s

/-- MUL.n32 (05 Table 5.4). -/
def execMulN32 (p : Option Pfx) (f : LR) (s : State) : Out := laneInt p f (fun _ a b => a * b) s

/-- MULH.n32 (05 Table 5.4). -/
def execMulhN32 (p : Option Pfx) (f : LR) (s : State) : Out := laneInt p f (fun _ a b => mulhU a b) s

/-- MIN.n32 (05 Table 5.4). -/
def execMinN32 (p : Option Pfx) (f : LR) (s : State) : Out := laneInt p f (fun _ a b => minU a b) s

/-- MAX.n32 (05 Table 5.4). -/
def execMaxN32 (p : Option Pfx) (f : LR) (s : State) : Out := laneInt p f (fun _ a b => maxU a b) s

/-- ADDS.n32 (05 Table 5.4). -/
def execAddsN32 (p : Option Pfx) (f : LR) (s : State) : Out := laneInt p f (fun w a b => satU w (a.toNat + b.toNat)) s

/-- SUBS.n32 (05 Table 5.4). -/
def execSubsN32 (p : Option Pfx) (f : LR) (s : State) : Out := laneInt p f (fun w a b => satU w ((a.toNat : Int) - b.toNat)) s

/-- ADD.i16 (05 Table 5.4). -/
def execAddI16 (p : Option Pfx) (f : LR) (s : State) : Out := lanePacked p f (fun _ a b => a + b) s

/-- SUB.i16 (05 Table 5.4). -/
def execSubI16 (p : Option Pfx) (f : LR) (s : State) : Out := lanePacked p f (fun _ a b => a - b) s

/-- MUL.i16 (05 Table 5.4). -/
def execMulI16 (p : Option Pfx) (f : LR) (s : State) : Out := lanePacked p f (fun _ a b => a * b) s

/-- MULH.i16 (05 Table 5.4). -/
def execMulhI16 (p : Option Pfx) (f : LR) (s : State) : Out := lanePacked p f (fun _ a b => mulhS a b) s

/-- MIN.i16 (05 Table 5.4). -/
def execMinI16 (p : Option Pfx) (f : LR) (s : State) : Out := lanePacked p f (fun _ a b => minS a b) s

/-- MAX.i16 (05 Table 5.4). -/
def execMaxI16 (p : Option Pfx) (f : LR) (s : State) : Out := lanePacked p f (fun _ a b => maxS a b) s

/-- ADDS.i16 (05 Table 5.4). -/
def execAddsI16 (p : Option Pfx) (f : LR) (s : State) : Out := lanePacked p f (fun w a b => satS w (a.toInt + b.toInt)) s

/-- SUBS.i16 (05 Table 5.4). -/
def execSubsI16 (p : Option Pfx) (f : LR) (s : State) : Out := lanePacked p f (fun w a b => satS w (a.toInt - b.toInt)) s

/-- ADD.n16 (05 Table 5.4). -/
def execAddN16 (p : Option Pfx) (f : LR) (s : State) : Out := lanePacked p f (fun _ a b => a + b) s

/-- SUB.n16 (05 Table 5.4). -/
def execSubN16 (p : Option Pfx) (f : LR) (s : State) : Out := lanePacked p f (fun _ a b => a - b) s

/-- MUL.n16 (05 Table 5.4). -/
def execMulN16 (p : Option Pfx) (f : LR) (s : State) : Out := lanePacked p f (fun _ a b => a * b) s

/-- MULH.n16 (05 Table 5.4). -/
def execMulhN16 (p : Option Pfx) (f : LR) (s : State) : Out := lanePacked p f (fun _ a b => mulhU a b) s

/-- MIN.n16 (05 Table 5.4). -/
def execMinN16 (p : Option Pfx) (f : LR) (s : State) : Out := lanePacked p f (fun _ a b => minU a b) s

/-- MAX.n16 (05 Table 5.4). -/
def execMaxN16 (p : Option Pfx) (f : LR) (s : State) : Out := lanePacked p f (fun _ a b => maxU a b) s

/-- ADDS.n16 (05 Table 5.4). -/
def execAddsN16 (p : Option Pfx) (f : LR) (s : State) : Out := lanePacked p f (fun w a b => satU w (a.toNat + b.toNat)) s

/-- SUBS.n16 (05 Table 5.4). -/
def execSubsN16 (p : Option Pfx) (f : LR) (s : State) : Out := lanePacked p f (fun w a b => satU w ((a.toNat : Int) - b.toNat)) s

/-- AND (05 R143). -/
def execAndB32 (p : Option Pfx) (f : LR) (s : State) : Out := laneBits p f (fun _ a b => a &&& b) s

/-- OR (05 R143). -/
def execOrB32 (p : Option Pfx) (f : LR) (s : State) : Out := laneBits p f (fun _ a b => a ||| b) s

/-- XOR (05 R143). -/
def execXorB32 (p : Option Pfx) (f : LR) (s : State) : Out := laneBits p f (fun _ a b => a ^^^ b) s

/-- ANDN (05 R143). -/
def execAndnB32 (p : Option Pfx) (f : LR) (s : State) : Out := laneBits p f (fun _ a b => a &&& ~~~b) s

/-- SHL: the amount is the low 5 bits, or 6 with W = 1 (05 R143). -/
def execShlB32 (p : Option Pfx) (f : LR) (s : State) : Out := laneBits p f (fun w a b => a <<< (b.toNat % w)) s

/-- SHR: the amount is the low 5 bits, or 6 with W = 1 (05 R143). -/
def execShrB32 (p : Option Pfx) (f : LR) (s : State) : Out := laneBits p f (fun w a b => a >>> (b.toNat % w)) s

/-- SRA: the amount is the low 5 bits, or 6 with W = 1 (05 R143). -/
def execSraB32 (p : Option Pfx) (f : LR) (s : State) : Out := laneBits p f (fun w a b => a.sshiftRight (b.toNat % w)) s

/-- ROL: the amount is the low 5 bits, or 6 with W = 1 (05 R143). -/
def execRolB32 (p : Option Pfx) (f : LR) (s : State) : Out := laneBits p f (fun w a b => a.rotateLeft (b.toNat % w)) s

/-- NOT (05 R144). -/
def execNotB (p : Option Pfx) (f : LR) (s : State) : Out := laneOne p f [] 0 (fun _ a => ~~~a) s

/-- POPC (05 R144). -/
def execPopc (p : Option Pfx) (f : LR) (s : State) : Out := laneCount p f (fun _ a => popCount a) s

/-- CLZ (05 R144). -/
def execClz (p : Option Pfx) (f : LR) (s : State) : Out := laneCount p f (fun _ a => clzBits a) s

/-- CTZ (05 R144). -/
def execCtz (p : Option Pfx) (f : LR) (s : State) : Out := laneCount p f (fun _ a => ctzBits a) s

/-- BREV (05 R144). -/
def execBrev (p : Option Pfx) (f : LR) (s : State) : Out := laneOne p f [] 0 (fun _ a => revBits a) s

/-- IABS: the most negative value gives itself (05 R144). -/
def execIabs (p : Option Pfx) (f : LR) (s : State) : Out := laneOne p f [intTag f.wide] (intTag f.wide) (fun _ a => if a.msb then -a else a) s

/-- INEG (05 R144). -/
def execIneg (p : Option Pfx) (f : LR) (s : State) : Out := laneOne p f [intTag f.wide] (intTag f.wide) (fun _ a => -a) s

/-- ICMP.eq (05 R145). -/
def execIcmpEq (p : Option Pfx) (f : LR) (s : State) : Out := laneCompare p f (fun _ a b => a == b) s

/-- ICMP.ne (05 R145). -/
def execIcmpNe (p : Option Pfx) (f : LR) (s : State) : Out := laneCompare p f (fun _ a b => a != b) s

/-- ICMP.lt signed (05 R145). -/
def execIcmpLtI (p : Option Pfx) (f : LR) (s : State) : Out := laneCompare p f (fun _ a b => a.slt b) s

/-- ICMP.le signed (05 R145). -/
def execIcmpLeI (p : Option Pfx) (f : LR) (s : State) : Out := laneCompare p f (fun _ a b => a.sle b) s

/-- ICMP.lt unsigned (05 R145). -/
def execIcmpLtN (p : Option Pfx) (f : LR) (s : State) : Out := laneCompare p f (fun _ a b => a.ult b) s

/-- ICMP.le unsigned (05 R145). -/
def execIcmpLeN (p : Option Pfx) (f : LR) (s : State) : Out := laneCompare p f (fun _ a b => a.ule b) s

/-- The register `SEL` reads as vc: without a prefix vd, or its low register (05 R145, 03 R73). -/
def selC (p : Option Pfx) (f : LR) : Nat := if p.isSome then pvc p else f.vd.toNat

/-- The result tag of `SEL`: va's where va and vb carry the same tag, RAW otherwise (05 Table 5.1). -/
def selTag (t : Team) (f : LR) : Nat :=
  let g := t.tagOf f.va.toNat
  if (run f.va.toNat (nregs f.wide) ++ run f.vb.toNat (nregs f.wide)).all fun r => t.tagOf r == g then g.toNat else 0

/-- SEL: va where the lane's 32-bit vc is nonzero, vb otherwise (05 R145). -/
def execSelLane (p : Option Pfx) (f : LR) (s : State) : Out :=
  let n := nregs f.wide
  let c := selC p f
  let d := f.vd.toNat
  runLane (pfxOk p) (laneOp p (srcAB f n n [] ++ [⟨c, 1, 0, []⟩]) d n
    (pairOk f.wide f.vd && pairOk f.wide f.va && pairOk f.wide f.vb) (selTag s.team f)
    (pfxWarn p { uses2 with vc := true }) fun t l =>
      let r := if t.v c l != 0 then f.va.toNat else f.vb.toNat
      { regs := if f.wide then pairRegs d (t.v64 r l) else [(d, t.v r l)] }) s

/-- imm8 sign-extended and zero-extended to a lane. -/
def imm8S (f : LI) : Word32 := f.imm.signExtend 32
def imm8Z (f : LI) : Word32 := f.imm.setWidth 32

/-- A shift immediate's amount imm8[4:0]; imm8[7:5] is MBZ (05 R146). -/
def imm8Shift (f : LI) : Nat := f.imm.toNat % 32
def imm8ShiftWarn (f : LI) : Nat := wIf (decide (32 ≤ f.imm.toNat)) wOPND

/-- ADD with an immediate (05 R146). -/
def execAddImm (p : Option Pfx) (f : LI) (s : State) : Out := laneImm p f [13] 13 0 (fun a => a + imm8S f) s

/-- MUL with an immediate (05 R146). -/
def execMulImm (p : Option Pfx) (f : LI) (s : State) : Out := laneImm p f [13] 13 0 (fun a => a * imm8S f) s

/-- AND with an immediate (05 R146). -/
def execAndImm (p : Option Pfx) (f : LI) (s : State) : Out := laneImm p f [] 0 0 (fun a => a &&& imm8Z f) s

/-- OR with an immediate (05 R146). -/
def execOrImm (p : Option Pfx) (f : LI) (s : State) : Out := laneImm p f [] 0 0 (fun a => a ||| imm8Z f) s

/-- XOR with an immediate (05 R146). -/
def execXorImm (p : Option Pfx) (f : LI) (s : State) : Out := laneImm p f [] 0 0 (fun a => a ^^^ imm8Z f) s

/-- SHL with an immediate (05 R146). -/
def execShlImm (p : Option Pfx) (f : LI) (s : State) : Out := laneImm p f [] 0 (imm8ShiftWarn f) (fun a => a <<< imm8Shift f) s

/-- SHR with an immediate (05 R146). -/
def execShrImm (p : Option Pfx) (f : LI) (s : State) : Out := laneImm p f [] 0 (imm8ShiftWarn f) (fun a => a >>> imm8Shift f) s

/-- SRA with an immediate (05 R146). -/
def execSraImm (p : Option Pfx) (f : LI) (s : State) : Out := laneImm p f [] 0 (imm8ShiftWarn f) (fun a => a.sshiftRight (imm8Shift f)) s

/-- ICMP.eq signed with an immediate (05 R146). -/
def execIcmpEqImm (p : Option Pfx) (f : LI) (s : State) : Out := laneImm p f [13] 13 0 (fun a => flag32 (a == imm8S f)) s

/-- ICMP.ne signed with an immediate (05 R146). -/
def execIcmpNeImm (p : Option Pfx) (f : LI) (s : State) : Out := laneImm p f [13] 13 0 (fun a => flag32 (a != imm8S f)) s

/-- ICMP.lt signed with an immediate (05 R146). -/
def execIcmpLtImm (p : Option Pfx) (f : LI) (s : State) : Out := laneImm p f [13] 13 0 (fun a => flag32 (a.slt (imm8S f))) s

/-- ICMP.le signed with an immediate (05 R146). -/
def execIcmpLeImm (p : Option Pfx) (f : LI) (s : State) : Out := laneImm p f [13] 13 0 (fun a => flag32 (a.sle (imm8S f))) s

/-- ICMP.gt signed with an immediate (05 R146). -/
def execIcmpGtImm (p : Option Pfx) (f : LI) (s : State) : Out := laneImm p f [13] 13 0 (fun a => flag32 ((imm8S f).slt a)) s

/-- ICMP.ge signed with an immediate (05 R146). -/
def execIcmpGeImm (p : Option Pfx) (f : LI) (s : State) : Out := laneImm p f [13] 13 0 (fun a => flag32 ((imm8S f).sle a)) s

/-- MOVI: every acting lane takes the sign-extended imm8 (05 R146). -/
def execMovi (p : Option Pfx) (f : LI) (s : State) : Out := laneFill p f.vd false 13 (wIf (f.va != 0) wOPND) (fun _ _ => (imm8S f).setWidth 64) s

/-- MOV: bit for bit, the source's tag copied (05 R147); of a pair the tag of the register named, so that both registers of the
result carry one (01 R26). -/
def execMov (p : Option Pfx) (f : LR) (s : State) : Out :=
  let n := nregs f.wide
  let a := f.va.toNat
  let d := f.vd.toNat
  let o := laneOp p (srcA f n []) d n (pairOk f.wide f.vd && pairOk f.wide f.va) 0
    (pfxWarn p uses1 ||| wIf (f.vb != 0) wOPND) fun t l =>
      { regs := if f.wide then pairRegs d (t.v64 a l) else [(d, t.v a l)] }
  runLane (pfxOk p) { o with tags := tagRun d n (s.team.tagOf a).toNat } s

/-- MOVS: every acting lane takes a scalar; va[13:8] names it and bit 14 is MBZ (05 R147, 03 Table 3.6). -/
def execMovs (p : Option Pfx) (f : LR) (s : State) : Out :=
  laneFill p f.vd f.wide 0 (wIf (f.va.msb) wOPND) (fun t _ => t.s (f.va.setWidth 6)) s

/-- The element of va in the lowest-numbered acting lane (05 R147). -/
def movxValue (p : Option Pfx) (f : LR) (t : Team) : Option Word64 :=
  (lowest (t.acting p) t.lanes).map fun l =>
    if f.wide then t.v64 f.va.toNat l else (t.v f.va.toNat l).setWidth 64

/-- `MOVX` as a lane operation: its result goes to a scalar register when its last row has been read. -/
def movxOp (p : Option Pfx) (f : LR) : LaneOp :=
  let sd : BitVec 6 := f.vd.setWidth 6
  { p := p, srcs := srcA f (nregs f.wide) [], dsts := [], aligned := pairOk f.wide f.va, tags := [],
    warn := pfxWarn p { uses1 with z := false } ||| wIf f.vd.msb wOPND, row := fun _ _ => ⟨[], [], []⟩,
    fin := fun t => match movxValue p f t with
      | none => { team := t }
      | some v => { team := t.setS sd v, stack := t.s63Bad sd v } }

/-- MOVX: s[sd] takes the lowest-numbered acting lane's element, and is unchanged when no lane acts (05 R147). -/
def execMovx (p : Option Pfx) (f : LR) (s : State) : Out := runLane (pfxOk p) (movxOp p f) s

/-- IDX: every acting lane n takes n; va, vb and W are MBZ (05 R147, 03 Table 3.6). -/
def execIdx (p : Option Pfx) (f : LR) (s : State) : Out :=
  laneFill p f.vd false 13 (wIf (f.va != 0 || f.vb != 0 || f.w != 0) wOPND) (fun _ l => BitVec.ofNat 64 l) s

end Sys2Proof.Machine
end

