-- ==== Sys2Proof/Machine/LaneRange.lean ====
section
/-! DEFINITION. Range cache operations and block decompression: majors 0x32 and 0x33 of the lane set (06 R185 to R187, R192
to R196). -/

namespace Sys2Proof.Machine

/-- The range operations. -/
inductive RangeOp where
  | wb | inv | disc
  deriving DecidableEq, Repr

/-- A core's dirty bytes of a line under a mask written back to its die, copies and ownership kept: si bytes are merged, and of a
tracked copy go on to the home; bytes of owned words become the die-level copy's where the line is homed elsewhere (06 R186, 10
R268). -/
def State.rangeWbCore (s : State) (d idx l : Nat) (m : BitVec 64) : State :=
  let a := Agent.core d idx
  let c := s.line a l
  let si := c.siDirty &&& m
  let s := if si = 0 then s else s.mergeDie d l si c.data
  let s := s.ownedToDie a l m
  let c := s.line a l
  let s := s.setLine { c with dirty := c.dirty &&& ~~~m }
  if c.tracked && si != 0 && homeOf s.tc (64 * l) != .die d then s.writeBackLlc d l else s

/-- A die-level copy's dirty bytes of a line under a mask written back to the home (06 R186). -/
def State.rangeWbLlc (s : State) (d l : Nat) (m : BitVec 64) : State :=
  let c := s.line (.llc d) l
  let si := c.siDirty &&& m
  let s := if si = 0 then s else s.mergeHome l si c.data
  let c := s.line (.llc d) l
  s.setLine { c with dirty := c.dirty &&& ~~~m }

/-- A copy's words invalidated after their bytes have left it: owned words go back to the home (06 R186). -/
def State.rangeDrop (s : State) (a : Agent) (l : Nat) (R : BitVec 16) : State :=
  let c := s.line a l
  let s := if c.owned &&& R = 0 then s else s.releaseOwned (siteFor a (homeOf s.tc (64 * l))) a l R
  let c := s.line a l
  let valid := c.valid &&& ~~~R
  s.setLine { c with valid := valid, tracked := c.tracked && decide (valid ≠ 0) }

/-- A copy's dirty bytes under a mask discarded: the home's value of owned ones is what it held before them (06 R186). -/
def State.rangeDiscard (s : State) (a : Agent) (l : Nat) (m : BitVec 64) : State :=
  let c := s.line a l
  let own := c.dirty &&& wordsToBytes c.owned &&& m
  let s := (maskBytes own).foldl (fun (s : State) i => s.writePhys (64 * l + i) (dataByte c.behind i)) s
  let c := s.line a l
  s.setLine { c with dirty := c.dirty &&& ~~~m }

/-- The copies of one line that an operation reaches, for the bytes of a mask: the core's, and at device scope or wider
the die's copy of a line homed elsewhere (06 R186). `scr` is the page's scratch attribute. -/
def State.rangeLine (s : State) (op : RangeOp) (v : Via) (l : Nat) (m : BitVec 64) (scope : Nat) (scr : Bool) : State :=
  let R := bytesToWords m
  let far := decide (3 ≤ scope) && homeOf s.tc (64 * l) != .die v.die
  let core := Agent.core v.die v.idx
  match op with
  | .wb =>
    let s := s.rangeWbCore v.die v.idx l m
    if far then s.rangeWbLlc v.die l m else s
  | _ =>
    let s := if op == .disc && scr then s.rangeDiscard core l m else s
    let s := (s.rangeWbCore v.die v.idx l (wordsToBytes R)).rangeDrop core l R
    if far then
      let s := if op == .disc && scr then s.rangeDiscard (.llc v.die) l m else s
      (s.rangeWbLlc v.die l (wordsToBytes R)).rangeDrop (.llc v.die) l R
    else s

/-- The bytes of the stack cache a span names: written back, or discarded inside it where that is asked (06 R186). -/
def State.rangeStack (s : State) (op : RangeOp) (k a n : Nat) (scr : Bool) : State :=
  let t := s.teamAt k
  let inside := fun (e : Nat × Byte) => decide (a ≤ e.1) && decide (e.1 < a + n)
  let words := fun (e : Nat × Byte) => decide (a / 4 ≤ e.1 / 4) && decide (e.1 / 4 ≤ (a + n - 1) / 4)
  let hit := t.stk.filter fun e => match op with
    | .wb => inside e
    | _ => words e
  if hit.isEmpty then s else
  let lost := fun (e : Nat × Byte) => op == .disc && scr && inside e
  (s.setTeam k { t with stk := t.stk.filter fun e => !lost e }).flushSome k (hit.filter fun e => !lost e)

/-- What the write-back of a stack-cache byte of some ranges must wait for. -/
def State.rangeStop (s : State) (k : Nat) (ps : List (Nat × Nat)) : Option Stop :=
  ((s.teamAt k).stk.filter fun e => ps.any fun x => decide (x.1 / 4 ≤ e.1 / 4) && decide (e.1 / 4 ≤ (x.1 + x.2 - 1) / 4)).findSome?
    fun e => ((s.reach (s.viaOf k) needW false polWt e.1).stop e.1 needW).filter Stop.waits

/-- What a range operation finds of a part of its range: the physical address and the scratch attribute of a page that is
present, nothing for a window or a page that is absent or cannot be reached, or a home to wait for (06 R185). -/
inductive RangePage where
  | page (pa : Nat) (scr : Bool)
  | skip
  | wait

/-- One part, without rights. -/
def State.rangePage (s : State) (v : Via) (va : Nat) : RangePage :=
  match s.space v false va with
  | .global =>
    match s.leafFor v va with
    | .leaf x _ _ =>
      let pa := leafPhys x va
      if s.lineBusy v.die (pa / 64) then .wait else .page pa (bitAt x.toNat 56)
    | .busy => .wait
    | _ => .skip
  | _ => .skip

/-- A part of a range operated on: the stack cache and the core's copy of the team's own stack range under team scope,
else every copy the scope reaches. -/
def State.rangePart (s : State) (op : RangeOp) (scope : Nat) (va n : Nat) : State :=
  let v := s.viaOf s.cur
  match s.rangePage v va with
  | .page pa scr =>
    if scope = 0 then
      let t := s.team
      let lo := max va t.limit
      let hi := min (va + n) t.fp.toNat
      if hi ≤ lo then s else
      (s.rangeStack op s.cur lo (hi - lo) scr).rangeLine op v (pa / 64) (byteMask (pa % 64 + (lo - va)) (hi - lo)) 1 scr
    else (s.rangeStack op s.cur va n scr).rangeLine op v (pa / 64) (byteMask (pa % 64) n) scope scr
  | _ => s

/-- The parts of a lane's range: bytes at or above 2^57 are ignored (06 R185). -/
def rangeParts (a len : Nat) : List (Nat × Nat) := if 2 ^ 57 ≤ a then [] else parts a (min len (2 ^ 57 - a))

/-- A range operation: vd holds each lane's length, read as n32; [1:0] is MBZ (06 R185). -/
def rangeLane (p : Option Pfx) (op : RangeOp) (f : LM) (s : State) : Out :=
  let d := f.vd.toNat
  let o : LaneOp :=
    { p := p, srcs := [⟨f.vo.toNat, 1, 1, []⟩, ⟨d, 1, 2, [13]⟩], dsts := [], tags := [], row := fun _ _ => ⟨[], [], []⟩,
      warn := pfxWarn p { z := false, wa := true, wb := true, scope := true, os := true } ||| wIf (f.pol != 0) wOPND }
  memLane (pfxOk p) o s fun s =>
    let t := s.team
    let v := s.viaOf s.cur
    let ps := (t.actors p).flatMap fun l => rangeParts (addrVec p f t l) (t.v d l).toNat
    let found := ps.map fun x => (x, s.rangePage v x.1)
    if found.any fun x => match x.2 with
        | .wait => true
        | _ => false then .next (s.waitFor .busy)
    else match s.rangeStop s.cur ps with
    | some e => .next (s.stopWith e)
    | none =>
      let disc := op == .disc && found.any fun x => match x.2 with
        | .page _ scr => !scr
        | _ => false
      let s1 := ps.foldl (fun (s : State) x => s.rangePart op (pscope p) x.1 x.2) s
      s1.finishMem o [] (wIf disc wDISC) fun _ => { regs := [] }

/-- RWB (06 R185, R186). -/
def execRwb (p : Option Pfx) (f : LM) (s : State) : Out := rangeLane p .wb f s

/-- RINV (06 R185, R186). -/
def execRinv (p : Option Pfx) (f : LM) (s : State) : Out := rangeLane p .inv f s

/-- RDISC: on a page without the scratch attribute as RINV (06 R185, R186, 03 Table 3.15). -/
def execRdisc (p : Option Pfx) (f : LM) (s : State) : Out := rangeLane p .disc f s

/-! ### DECODE (06 R192 to R196) -/

/-- The scalar a `DECODE` writes its status to: [8:3] of the word (03 Table 3.6). -/
def decodeSd (f : LM) : BitVec 6 := f.vo.extractLsb' 1 6

/-- A lane's word of a decoded block: bytes 4l to 4l + 3, zero past the bytes produced. -/
def decodedWord (bytes : List Byte) (l : Nat) : Nat := leNat ((List.range 4).map fun i => bytes.getD (4 * l + i) 0)

/-- The first of `n` bytes from an address on that does not lie in granted cluster memory. -/
def State.outsideCluster (s : State) (a n : Nat) : Option Nat :=
  (List.range n).find? fun i => match s.space (s.viaOf s.cur) false (a + i) with
    | .window key => decide (key < clusterKey)
    | _ => true

/-- A byte of cluster memory. -/
def State.clusterByte (s : State) (a i : Nat) : Byte :=
  match s.space (s.viaOf s.cur) false (a + i) with
  | .window key => s.mem.read key
  | _ => 0

/-- DECODE: a compressed block in the cluster memory window expanded into the bytes of vd, with its status in s[sd]; with
FCTL.DTRAP a nonzero code traps after completion (06 R192, R196). -/
def execDecode (p : Option Pfx) (f : LM) (s : State) : Out :=
  let d := f.vd.toNat
  let sd := decodeSd f
  let o : LaneOp :=
    { p := p, srcs := [], dsts := [(d, 1)], tags := [(d, 0)], long := true, inOrder := true, row := fun _ _ => ⟨[], [], []⟩,
      warn := pfxWarn p {} ||| wIf (f.pol != 0 || f.vo.getLsbD 0) wOPND }
  memLane (pfxOk p) o s fun s =>
    let t := s.team
    let a := (t.s f.sa).toNat
    match s.outsideCluster a 4 with
    | some i => .next (s.stopLane o (.prot (a + i)))
    | none =>
      match s.outsideCluster a (blockHead (s.clusterByte a)).clen with
      | some i => .next (s.stopLane o (.prot (a + i)))
      | none =>
        let r := decodeBlock (s.clusterByte a) (4 * t.lanes)
        if t.s63Bad sd r.status then .next (s.trap .stackLimit 0) else
        let s1 := s.withTeam (t.setS sd r.status)
        let bytes := r.out.reverse
        match s1.finishMem o [(d, 1)] 0 fun l => { regs := [(d, BitVec.ofNat 32 (decodedWord bytes l))] } with
        | .next s2 =>
          if r.code ≠ 0 ∧ bitAt t.fctl.toNat 17 then
            let t2 := s2.team
            .next ((s2.withTeam { t2.setPc t.pc with iwarn := t.iwarn }).trapWith .trapInstr 0 (0xDE00 + r.code) 0 true (plen p))
          else .next s2
        | x => x

end Sys2Proof.Machine
end

