-- ==== Sys2Proof/Machine/Keccak.lean ====
section
/-! DEFINITION. SHAKE256, which 16 R398, R399 and R402 name (PRESUMED: FIPS 202, which the spec does not reprint;
notes/assumptions/25.md). -/

namespace Sys2Proof.Machine

/-- Lane x + 5 y of a state. -/
def lane25 (a : List (BitVec 64)) (x y : Nat) : BitVec 64 := a.getD (x % 5 + 5 * (y % 5)) 0

/-- A state from its lanes. -/
def make25 (f : Nat → Nat → BitVec 64) : List (BitVec 64) := (List.range 25).map fun i => f (i % 5) (i / 5)

/-- The rotations of a round, lane x + 5 y. -/
def rhoOffsets : List Nat :=
  [0, 1, 62, 28, 27, 36, 44, 6, 55, 20, 3, 10, 43, 25, 39, 41, 45, 15, 21, 8, 18, 2, 61, 56, 14]

/-- The constants of the 24 rounds. -/
def roundConstants : List (BitVec 64) :=
  [0x1, 0x8082, 0x800000000000808A, 0x8000000080008000, 0x808B, 0x80000001, 0x8000000080008081, 0x8000000000008009,
   0x8A, 0x88, 0x80008009, 0x8000000A, 0x8000808B, 0x800000000000008B, 0x8000000000008089, 0x8000000000008003,
   0x8000000000008002, 0x8000000000000080, 0x800A, 0x800000008000000A, 0x8000000080008081, 0x8000000000008080,
   0x80000001, 0x8000000080008008]

/-- One round: theta, rho and pi, chi, iota. -/
def keccakRound (a : List (BitVec 64)) (rc : BitVec 64) : List (BitVec 64) :=
  let c := (List.range 5).map fun x => (List.range 5).foldl (fun v y => v ^^^ lane25 a x y) 0
  let t := make25 fun x y => lane25 a x y ^^^ (c.getD ((x + 4) % 5) 0 ^^^ (c.getD ((x + 1) % 5) 0).rotateLeft 1)
  let b := make25 fun x y =>
    let i := (x + 3 * y) % 5
    (lane25 t i x).rotateLeft (rhoOffsets.getD (i + 5 * x) 0)
  match make25 fun x y => lane25 b x y ^^^ (~~~(lane25 b (x + 1) y) &&& lane25 b (x + 2) y) with
  | [] => []
  | h :: r => (h ^^^ rc) :: r

/-- The permutation. -/
def keccakF (a : List (BitVec 64)) : List (BitVec 64) := roundConstants.foldl keccakRound a

/-- Bytes of a block exclusive-ored into a state. -/
def absorbBlock (a : List (BitVec 64)) (bs : List Byte) : List (BitVec 64) :=
  keccakF (make25 fun x y => lane25 a x y ^^^ BitVec.ofNat 64 (leNat ((bs.drop (8 * (x + 5 * y))).take 8)))

/-- Blocks of 136 bytes absorbed. -/
def absorb (fuel : Nat) (a : List (BitVec 64)) (bs : List Byte) : List (BitVec 64) :=
  match fuel with
  | 0 => a
  | f + 1 => if bs.isEmpty then a else absorb f (absorbBlock a (bs.take 136)) (bs.drop 136)

/-- `n` blocks of 136 bytes squeezed out. -/
def squeeze (n : Nat) (a : List (BitVec 64)) : List Byte :=
  match n with
  | 0 => []
  | k + 1 => (a.take 17).flatMap (fun w => leBytes 8 w.toNat) ++ squeeze k (keccakF a)

/-- A message padded to whole blocks. -/
def pad136 (bs : List Byte) : List Byte :=
  let n := 136 - bs.length % 136
  bs ++ if n = 1 then [0x9F] else 0x1F :: (List.replicate (n - 2) 0 ++ [0x80])

/-- The first `n` bytes of SHAKE256 of a byte string. -/
def shake256 (bs : List Byte) (n : Nat) : List Byte :=
  let m := pad136 bs
  (squeeze ((n + 135) / 136) (absorb (m.length / 136) (List.replicate 25 0) m)).take n

end Sys2Proof.Machine
end

