-- ==== Sys2Proof/Machine/Package.lean ====
section
/-! DEFINITION. The package: bring-up, function-level reset, the power manager, the attestation mailbox and SPDM
(16 R388 to R402). -/

namespace Sys2Proof.Machine

/-! ### Readiness (16 R388, R389) -/

/-- The bits of READY the configuration record enables, without ALL. -/
def ConfigRec.enabled (c : ConfigRec) : Word64 :=
  0x00000019FFFF00FF ||| (if c.cxlen then 0x600000000 else 0) ||| BitVec.ofNat 64 (c.linken.toNat * 2 ^ 40)

/-- The stages that follow from others: the dispatcher with the first core bit, the migrator after Steppe and dispatcher,
ALL with every enabled bit. -/
def ConfigRec.follow (c : ConfigRec) (r : Word64) : Word64 :=
  let r := if r &&& 0xFF = 0 then r else r ||| 0x800000000
  let r := if r &&& 0x900000000 = 0x900000000 then r ||| 0x1000000000 else r
  if r &&& c.enabled = c.enabled then r ||| 0x8000000000000000 else r

/-- Bits of READY set, with what follows from them; decisions, hotness halving and vector 7 come with a change. -/
def State.nowReady (s : State) (bits : Word64) : State :=
  let s := s.setReady (s.config.follow (s.creg 0x10 ||| bits)) (s.creg 0x20)
  let s := if bitAt (s.creg 0x10).toNat 35 then s.postDecisions else s
  if bitAt (s.creg 0x10).toNat 36 then s.postOnce .hotnessHalving {} else s

/-- Bits of FAILED set; a stack that fails while there is a tier cache fails Steppe too (16 R390). -/
def State.nowFailed (s : State) (bits : Word64) : State :=
  let steppe : Word64 := if bits &&& 0xFFFF0000 ≠ 0 ∧ s.tc ≠ 0 then 0x100000000 else 0
  s.setReady (s.creg 0x10) (s.creg 0x20 ||| bits ||| steppe)

/-- One function trained, or failed to. -/
def State.trained (s : State) (bits : Word64) : State :=
  if Config.trains s.tick then s.nowReady bits else s.nowFailed bits

/-! ### Cold reset (16 R389, R398 to R400) -/

/-- Does an image pass the ROM's checks (16 R398): its key has the digest the ROM holds, its signature holds, and its version is not
below MINSVN? -/
def imageOk (img : List Byte) : Bool := shake256 (Config.imageKey img) 32 == Config.romDigest && Config.imageSigned img
def bootable (minsvn : Nat) (img : List Byte) : Bool := imageOk img && decide (minsvn ≤ Config.imageVersion img)

/-- Bytes of a list made exactly `n` long. -/
def sized (n : Nat) (bs : List Byte) : List Byte := (List.range n).map fun i => bs.getD i 0

/-- The string the identity key is derived from, "KRYKOR-ZG8-ID" (16 R399). -/
def idString : List Byte := [0x4B, 0x52, 0x59, 0x4B, 0x4F, 0x52, 0x2D, 0x5A, 0x47, 0x38, 0x2D, 0x49, 0x44]

/-- SK.seed, SK.prf and PK.seed: the first 96 bytes of SHAKE256 of the string, the corrected response and SERIAL (16 R399). -/
def idSeeds : List Byte := shake256 (idString ++ sized 128 Config.sramResponse ++ leBytes 6 Config.romSerial) 96

/-- The identity key pair that SLH-DSA key generation makes of the seeds (16 R399): PK.seed and PK.root; SK.seed, SK.prf and the
public key. -/
def identityPublic : List Byte :=
  (idSeeds.drop 64).take 32 ++ sized 32 (Config.slhRoot (idSeeds.take 32) ((idSeeds.drop 64).take 32))
def identityPrivate : List Byte := idSeeds.take 64 ++ identityPublic

/-- The configuration record in force: the stored one, or the fallback (16 R400). -/
def storedConfig : ConfigRec :=
  if !(Config.recordSigned && Config.recordField 0 == Config.romSerial) then resetConfig else
  { serial := BitVec.ofNat 48 (Config.recordField 0), tcsz := BitVec.ofNat 3 (Config.recordField 1)
    spare := Config.recordField 2, linken := BitVec.ofNat 8 (Config.recordField 3)
    linkauth := Config.recordField 4 != 0, pmax := min (Config.recordField 5) 3200
    cxlen := Config.recordField 6 != 0, valid := true }

/-- The control block after the ROM has read the record: ID, TCSZ, and the ports the record disables in STATE 5. -/
def State.applyConfig (s : State) (c : ConfigRec) : State :=
  let s : State := { s with config := c }
  let s := s.setCreg 0 (BitVec.ofNat 64 (c.serial.toNat * 2 ^ 16 + 0x800 + Config.stepping % 256))
  let s := s.setCreg 0x50 (setField (s.creg 0x50) 0 3 c.tcsz.toNat)
  (List.range 8).foldl (fun (s : State) p => s.setLinkState p (if c.linken.getLsbD p then 1 else 5)) s

/-- The stages of 16 Table 16.6 that begin once the ROM is done. -/
def State.beginStages (s : State) : State :=
  let s := (s.post .hostLinkTrained).post .steppeReady
  let s := (List.range 8).foldl (fun (s : State) d => s.post .dieSelfTestDone { a := d }) s
  let s := (List.range 16).foldl (fun (s : State) i => s.post .hbmTrainingDone { a := i }) s
  let s := ((List.range 8).filter fun p => s.config.linken.getLsbD p).foldl (fun (s : State) p =>
    s.post .abfortTrainingDone { a := p }) s
  s.post .powerManagerTick

/-- COLD_RESET (16 R389): everything volatile is as after reset; the ROM boots the primary image (a staged one, if there is
one), else the backup, else the device stays in recovery; the identity key is derived and the record read. -/
def execColdReset (s : State) : Out :=
  let sec := s.sec
  let primary := sec.staged.getD sec.primary
  let base : State := { State.reset with tick := s.tick, events := [], sec := { resetSec with
    minsvn := sec.minsvn, primary := primary, backup := sec.backup, publicKey := identityPublic, privateKey := identityPrivate } }
  match ([primary, sec.backup].filter (bootable sec.minsvn)).head? with
  | none =>
    let b : State := { base with sec := { base.sec with recovery := true } }
    .next ((b.setCreg 0 (BitVec.ofNat 64 (0x800 + Config.stepping % 256))).setCreg 0x20 (BitVec.allOnes 64))
  | some img =>
    let v := Config.imageVersion img
    let b : State := { base with sec := { base.sec with
      image := img, version := v, minsvn := if Config.imageAdvance img then v else sec.minsvn } }
    .next (b.applyConfig storedConfig).beginStages

/-- HOST_LINK_TRAINED (16 Table 16.6). -/
def execHostLinkTrained (s : State) : Out := .next { s with sec := { s.sec with hostTrained := true } }

/-- CONFIGURATION_REQUEST (16 Table 16.6): answered by Configuration Request Retry Status until the host link has trained. -/
def execConfigurationRequest (s : State) : Out :=
  .next { s with sec := { s.sec with retried := some (!s.sec.hostTrained) } }

/-- DIE_SELF_TEST_DONE: the core and engine bits of die `a`. -/
def execDieSelfTestDone (s : State) : Out :=
  let d := s.arg.a % 8
  let s' := s.trained (BitVec.ofNat 64 (2 ^ d))
  .next (if bitAt (s'.creg 0x10).toNat d then s'.setCreg 0x18 (s'.creg 0x18 ||| BitVec.ofNat 64 (255 * 2 ^ (8 * d))) else s')

/-- HBM_TRAINING_DONE: stack 16 + `a`; the tier-cache spare bits of its die are written V = 0 (12 R309). -/
def execHbmTrainingDone (s : State) : Out := .next (s.trained (BitVec.ofNat 64 (2 ^ (16 + s.arg.a % 16))))

/-- CXL_ENABLE: the host enables CXL.cache and CXL.mem, once the core bits of the homes involved are set. -/
def execCxlEnable (s : State) : Out :=
  if !s.config.cxlen || !s.sec.hostTrained then .next s
  else if (s.creg 0x10 ||| s.creg 0x20) &&& 0xFF ≠ 0xFF then .next (s.post .cxlEnable)
  else .next (s.nowReady 0x600000000)

/-- A port comes up (16 R394, R401); what waits for it is sent. -/
def State.linkUp (s : State) (p : Nat) : State :=
  ((s.setLinkState p 3).nowReady (BitVec.ofNat 64 (2 ^ (40 + p)))).sendBacklog p

/-- A port fails to come up. -/
def State.linkFails (s : State) (p : Nat) : State := (s.setLinkState p 4).nowFailed (BitVec.ofNat 64 (2 ^ (40 + p)))

/-- ABFORT_TRAINING_DONE: port `a` knows its peer; it is up, unless the peer is to be authenticated (16 R401). -/
def execAbfortTrainingDone (s : State) : Out :=
  let p := s.arg.a % 8
  if s.linkState p ≠ 1 then .next s
  else if !Config.trains s.tick then .next (s.linkFails p)
  else
    let o := 0x800 + 32 * p
    let s := (s.setCreg o (setField (s.creg o) 8 4 (Config.peerPort p))).setCreg (o + 8)
      (BitVec.ofNat 64 (Config.peerSerial p % 2 ^ 48 * 2 ^ 16))
    if s.config.linkauth then .next ((s.setLinkState p 2).post .peerAuthentication { a := p }) else .next (s.linkUp p)

/-- PEER_AUTHENTICATION (16 R401): the peer's report verifies and its SERIAL is the one announced: the port is up. -/
def execPeerAuthentication (s : State) : Out :=
  let p := s.arg.a % 8
  if s.linkState p ≠ 2 then .next s
  else if Config.peerReportOk p && Config.peerReportSerial p == Config.peerSerial p then .next (s.linkUp p)
  else .next (s.linkFails p)

/-- STEPPE_READY (16 Table 16.6): with a tier cache, only once all stacks are ready. -/
def execSteppeReady (s : State) : Out :=
  if bitAt (s.creg 0x20).toNat 32 then .next s
  else if s.tc ≠ 0 ∧ s.creg 0x10 &&& 0xFFFF0000 ≠ 0xFFFF0000 then .next (s.post .steppeReady)
  else .next (s.trained 0x100000000)

/-! ### Function-level reset (16 R390) -/

/-- Rows that are no business of a launch, a queue or a ring: they stay due over a function-level reset. -/
def flrKeeps : List Instr :=
  cohRows ++ [.tierCacheFill, .snpdata, .snpinv, .snpcur, .cxlCacheResponse, .memrd, .memwr, .birsp, .windowRead, .windowWrite,
    .routeFailure, .resendTimeout, .rowRemap, .evacuation, .dieLost, .abfortFlitReceive, .linkAckTimeout, .peerInboundRequest,
    .powerManagerTick, .coldReset, .hostLinkTrained, .dieSelfTestDone, .hbmTrainingDone, .cxlEnable, .abfortTrainingDone,
    .peerAuthentication, .steppeReady, .functionLevelReset, .spdmRequest, .configurationRequest]

/-- The control block reset but for ID, READY, READYE and FAILED; TCSZ is the record's. -/
def State.resetControl (s : State) (old : FMap Word64) : State :=
  let s : State := { s with ctl := resetCtl }
  let s := [0, 0x10, 0x18, 0x20].foldl (fun (s : State) o => s.setCreg o (fget 0 old (o / 8))) s
  s.setCreg 0x50 (setField (s.creg 0x50) 0 3 s.config.tcsz.toNat)

/-- FUNCTION_LEVEL_RESET (16 R390): every launch ends without a record, copy commands and moves are cancelled, the control
block is reset; memory, with what caches held of it, and trained functions stay. -/
def execFunctionLevelReset (s : State) : Out :=
  let old := s.ctl
  let s := (s.teamsWith fun t => !t.stk.isEmpty).foldl (fun (s : State) k => s.flushStack k) s
  let s := s.writeBackAll
  let qs := s.moves.map (·.queued)
  let s : State := { s with moves := [] }
  let s := qs.foldl (fun (s : State) q => s.serveQueue q 0 0) s
  let s : State := { s with
    moves := [], framePool := [], offers := [], thrash := [], invs := []
    launches := s.launches.map fun l => { l with ended := true }
    teams := s.teams.map fun t => { t with status := .retired, wait := .none, stk := [] }
    groups := s.groups.map fun g => { g with live := false, arrivals := [], latch := [] }
    shares := s.shares.map fun d => { d with arrivals := [] }
    resq := [], reserved := [], queues := [], ptr := [], bins := [], copies := [], collected := [], faults := [], errors := []
    listUse := [], listNext := 0, drainNow := 0, drainQueued := [], savedOrder := [], spawned := [], msix := 0
    events := s.events.filter fun e => flrKeeps.contains e.row }
  .next (s.resetControl old)

/-! ### Power (16 R396, R397) -/

/-- PLIM in force: above PMAX it acts as PMAX, below 1,200 as 1,200. -/
def State.plim (s : State) : Nat := max 1200 (min (field (s.creg 0x200) 52 12) s.config.pmax)

/-- Watts in the unit predictions are made in: exact for rates in millionths and clocks in 10 MHz (16 R397). -/
def wattUnit : Nat := 10 ^ 6 * 120 ^ 3

/-- Predicted demand at clock `f`, in 10 MHz, of the parts' rates (16 R397). -/
def demand (rate : Nat → Nat) (f : Nat) : Nat :=
  let r := fun i => min (rate i) (10 ^ 6)
  (400 + 120 + 230) * wattUnit + (650 * r 2 + 500 * r 3) * 120 ^ 3 + (1000 * r 0 + 800 * r 1) * f ^ 3

/-- Would a prediction keep the average of module power over 1 ms at or below a limit: with the 99 measurements before it, one every
10 us (16 R396)? -/
def keepsWithin (limit : Nat) (log : List Nat) (predicted : Nat) : Bool :=
  let old := log.drop (log.length - 99)
  decide (old.sum * wattUnit + predicted ≤ (old.length + 1) * limit * wattUnit)

/-- The highest step from 0.6 GHz in 50 MHz that a test allows; 0.6 GHz where it allows none. -/
def bestClock (ok : Nat → Bool) (top : Nat) : Nat :=
  (((List.range 17).map fun i => 60 + 5 * i).filter fun f => decide (f ≤ top) && ok f).foldl max 60

/-- POWER_MANAGER_TICK (16 R396): every 10 us module power is measured, and the clock of the arithmetic islands takes the highest
step whose predicted power keeps the 1 ms average within PLIM, up no sooner than 1 ms after the last step down. It changes no
result. -/
def execPowerManagerTick (s : State) : Out :=
  let now := s.clock.toNat
  if now < s.arg.v.toNat + usNs 10 then .next (s.post .powerManagerTick s.arg) else
  let f := field (s.creg 0x208) 44 8
  let log := (s.powerLog ++ [Config.watts s.tick]).drop (s.powerLog.length - 99)
  let want := bestClock (fun f => keepsWithin s.plim log (demand (Config.rate s.tick) f))
    (if bitAt (s.creg 0x200).toNat 51 then 140 else 120)
  let new := if want ≤ f then want else if now < s.powerDown + usNs 1000 then f else want
  let s : State := { s with powerLog := log, powerDown := if new < f then now else s.powerDown }
  let s := s.setCreg 0x208 (setField (setField (s.creg 0x208) 44 8 new) 52 12 (log.sum / max 1 log.length))
  .next (s.post .powerManagerTick { v := s.clock })

/-! ### Attestation (16 R402) -/

/-- Buffer address and bytes of the mailbox. -/
def State.mailBuf (s : State) : Nat := field (s.creg 0x1010) 6 46 * 64
def State.mailLen (s : State) : Nat := field (s.creg 0x1018) 0 32

/-- A mailbox operation that answers bytes: CODE 2 when the buffer is too small. -/
def State.mailAnswer (s : State) (row : Instr) (bs : List Byte) : State :=
  if !bitAt (s.creg 0x1008).toNat 63 then s
  else if s.mailLen < bs.length then s.mailboxEnd 2
  else match s.unitWait ioDie s.mailBuf bs.length true with
  | some r => s.again r row {}
  | none => (s.unitPut ioDie s.mailBuf bs).mailboxEnd 0

/-- A mailbox operation over without DONE: BUSY and GO clear. -/
def State.mailOver (s : State) (status : Word64) : State := (s.setCreg 0x1008 status).setCreg 0x1000 (s.creg 0x1000 &&& ~~~1)

/-- In recovery an operation other than 3 and 4 is not answered: it is over without DONE (16 R398). -/
def State.mailSilent (s : State) : State := s.mailOver 0

/-- The signed part of the report (16 R402). -/
def State.reportBody (s : State) : List Byte :=
  leBytes 4 1 ++ leBytes 4 30112 ++ leBytes 8 (s.creg 0).toNat ++
  ((List.range 4).flatMap fun i => leBytes 8 (s.creg (0x1020 + 8 * i)).toNat) ++
  shake256 s.sec.image 32 ++ (if s.config.valid then shake256 Config.recordBytes 32 else sized 32 []) ++
  leBytes 8 (s.creg 0x10).toNat ++ leBytes 8 (s.creg 0x20).toNat ++ leBytes 4 s.sec.version ++ leBytes 4 s.sec.minsvn ++
  sized 120 [] ++ sized 64 s.sec.publicKey

/-- The randomiser of an SLH-DSA-SHAKE-256s signature (16 R402: FIPS 205): PRF_msg of SK.prf, PK.seed and the message. -/
def slhRandom (priv msg : List Byte) : List Byte := shake256 ((priv.drop 32).take 64 ++ [0, 0] ++ msg) 32

/-- A signature: the randomiser and what follows it, 29,792 bytes. -/
def slhSignature (priv msg : List Byte) : List Byte :=
  slhRandom priv msg ++ sized 29760 (Config.slhSign priv (slhRandom priv msg) msg)

/-- The whole report: 320 bytes and the signature over them. -/
def State.report (s : State) : List Byte := s.reportBody ++ slhSignature s.sec.privateKey s.reportBody

/-- ATTEST_REPORT: mailbox OP 1. -/
def execAttestReport (s : State) : Out :=
  .next (if s.sec.recovery then s.mailSilent else s.mailAnswer .attestReport s.report)

/-- ATTEST_CERT_CHAIN: mailbox OP 2. -/
def execAttestCertChain (s : State) : Out :=
  .next (if s.sec.recovery then s.mailSilent else s.mailAnswer .attestCertChain Config.certChain)

/-- ATTEST_IDENTITY_KEY: mailbox OP 4. -/
def execAttestIdentityKey (s : State) : Out := .next (s.mailAnswer .attestIdentityKey (sized 64 s.sec.publicKey))

/-- ATTEST_STAGE_IMAGE (16 R398): mailbox OP 3: the image in the buffer is verified, CODE 3, its version checked against
MINSVN, CODE 4, and then staged: it is the primary at the next reset. -/
def execAttestStageImage (s : State) : Out :=
  if !bitAt (s.creg 0x1008).toNat 63 then .next s else
  match s.unitWait ioDie s.mailBuf s.mailLen false with
  | some r => .next (s.again r .attestStageImage {})
  | none =>
    let img := s.readsPhys s.mailBuf s.mailLen
    let s := s.unitTouch ioDie s.mailBuf s.mailLen
    if !imageOk img then .next (s.mailboxEnd 3)
    else if Config.imageVersion img < s.sec.minsvn then .next (s.mailboxEnd 4)
    else .next (({ s with sec := { s.sec with staged := some img } } : State).mailboxEnd 0)

/-- ATTEST_DONE (16 R402): BUSY and GO clear, DONE is set, vector 6. -/
def execAttestDone (s : State) : Out :=
  if !bitAt (s.creg 0x1008).toNat 63 then .next s
  else .next ((s.mailOver (s.creg 0x1008 &&& 0xFF ||| 0x4000000000000000)).msi 6)

/-- SPDM_REQUEST (16 R381, R402): `b` = 0 sets the IDE keys; a MEASUREMENTS request returns the report, which leaves the
device. -/
def execSpdmRequest (s : State) : Out :=
  .next (if s.arg.b = 0 then { s with sec := { s.sec with ide := true } } else s)

end Sys2Proof.Machine
end

