-- ==== Sys2Proof/Machine/Dispatch.lean ====
section
/-! DEFINITION. One arm per instruction or device event: its meaning. -/

namespace Sys2Proof.Machine

def exec (i : Instr) (s : State) : Host.Outcome State Fault Refusal :=
  match i with
  | .addI32 p f => Sys2Proof.Machine.execAddI32 p f s
  | .subI32 p f => Sys2Proof.Machine.execSubI32 p f s
  | .mulI32 p f => Sys2Proof.Machine.execMulI32 p f s
  | .mulhI32 p f => Sys2Proof.Machine.execMulhI32 p f s
  | .minI32 p f => Sys2Proof.Machine.execMinI32 p f s
  | .maxI32 p f => Sys2Proof.Machine.execMaxI32 p f s
  | .addsI32 p f => Sys2Proof.Machine.execAddsI32 p f s
  | .subsI32 p f => Sys2Proof.Machine.execSubsI32 p f s
  | .addN32 p f => Sys2Proof.Machine.execAddN32 p f s
  | .subN32 p f => Sys2Proof.Machine.execSubN32 p f s
  | .mulN32 p f => Sys2Proof.Machine.execMulN32 p f s
  | .mulhN32 p f => Sys2Proof.Machine.execMulhN32 p f s
  | .minN32 p f => Sys2Proof.Machine.execMinN32 p f s
  | .maxN32 p f => Sys2Proof.Machine.execMaxN32 p f s
  | .addsN32 p f => Sys2Proof.Machine.execAddsN32 p f s
  | .subsN32 p f => Sys2Proof.Machine.execSubsN32 p f s
  | .addI16 p f => Sys2Proof.Machine.execAddI16 p f s
  | .subI16 p f => Sys2Proof.Machine.execSubI16 p f s
  | .mulI16 p f => Sys2Proof.Machine.execMulI16 p f s
  | .mulhI16 p f => Sys2Proof.Machine.execMulhI16 p f s
  | .minI16 p f => Sys2Proof.Machine.execMinI16 p f s
  | .maxI16 p f => Sys2Proof.Machine.execMaxI16 p f s
  | .addsI16 p f => Sys2Proof.Machine.execAddsI16 p f s
  | .subsI16 p f => Sys2Proof.Machine.execSubsI16 p f s
  | .addN16 p f => Sys2Proof.Machine.execAddN16 p f s
  | .subN16 p f => Sys2Proof.Machine.execSubN16 p f s
  | .mulN16 p f => Sys2Proof.Machine.execMulN16 p f s
  | .mulhN16 p f => Sys2Proof.Machine.execMulhN16 p f s
  | .minN16 p f => Sys2Proof.Machine.execMinN16 p f s
  | .maxN16 p f => Sys2Proof.Machine.execMaxN16 p f s
  | .addsN16 p f => Sys2Proof.Machine.execAddsN16 p f s
  | .subsN16 p f => Sys2Proof.Machine.execSubsN16 p f s
  | .andB32 p f => Sys2Proof.Machine.execAndB32 p f s
  | .orB32 p f => Sys2Proof.Machine.execOrB32 p f s
  | .xorB32 p f => Sys2Proof.Machine.execXorB32 p f s
  | .andnB32 p f => Sys2Proof.Machine.execAndnB32 p f s
  | .shlB32 p f => Sys2Proof.Machine.execShlB32 p f s
  | .shrB32 p f => Sys2Proof.Machine.execShrB32 p f s
  | .sraB32 p f => Sys2Proof.Machine.execSraB32 p f s
  | .rolB32 p f => Sys2Proof.Machine.execRolB32 p f s
  | .notB p f => Sys2Proof.Machine.execNotB p f s
  | .popc p f => Sys2Proof.Machine.execPopc p f s
  | .clz p f => Sys2Proof.Machine.execClz p f s
  | .ctz p f => Sys2Proof.Machine.execCtz p f s
  | .brev p f => Sys2Proof.Machine.execBrev p f s
  | .iabs p f => Sys2Proof.Machine.execIabs p f s
  | .ineg p f => Sys2Proof.Machine.execIneg p f s
  | .icmpEq p f => Sys2Proof.Machine.execIcmpEq p f s
  | .icmpNe p f => Sys2Proof.Machine.execIcmpNe p f s
  | .icmpLtI p f => Sys2Proof.Machine.execIcmpLtI p f s
  | .icmpLeI p f => Sys2Proof.Machine.execIcmpLeI p f s
  | .icmpLtN p f => Sys2Proof.Machine.execIcmpLtN p f s
  | .icmpLeN p f => Sys2Proof.Machine.execIcmpLeN p f s
  | .selLane p f => Sys2Proof.Machine.execSelLane p f s
  | .addImm p f => Sys2Proof.Machine.execAddImm p f s
  | .mulImm p f => Sys2Proof.Machine.execMulImm p f s
  | .andImm p f => Sys2Proof.Machine.execAndImm p f s
  | .orImm p f => Sys2Proof.Machine.execOrImm p f s
  | .xorImm p f => Sys2Proof.Machine.execXorImm p f s
  | .shlImm p f => Sys2Proof.Machine.execShlImm p f s
  | .shrImm p f => Sys2Proof.Machine.execShrImm p f s
  | .sraImm p f => Sys2Proof.Machine.execSraImm p f s
  | .icmpEqImm p f => Sys2Proof.Machine.execIcmpEqImm p f s
  | .icmpNeImm p f => Sys2Proof.Machine.execIcmpNeImm p f s
  | .icmpLtImm p f => Sys2Proof.Machine.execIcmpLtImm p f s
  | .icmpLeImm p f => Sys2Proof.Machine.execIcmpLeImm p f s
  | .icmpGtImm p f => Sys2Proof.Machine.execIcmpGtImm p f s
  | .icmpGeImm p f => Sys2Proof.Machine.execIcmpGeImm p f s
  | .movi p f => Sys2Proof.Machine.execMovi p f s
  | .fadd p f => Sys2Proof.Machine.execFadd p f s
  | .fsub p f => Sys2Proof.Machine.execFsub p f s
  | .fmul p f => Sys2Proof.Machine.execFmul p f s
  | .fma p f => Sys2Proof.Machine.execFma p f s
  | .fmin p f => Sys2Proof.Machine.execFmin p f s
  | .fmax p f => Sys2Proof.Machine.execFmax p f s
  | .fabs p f => Sys2Proof.Machine.execFabs p f s
  | .fneg p f => Sys2Proof.Machine.execFneg p f s
  | .faddBf16 p f => Sys2Proof.Machine.execFaddBf16 p f s
  | .fsubBf16 p f => Sys2Proof.Machine.execFsubBf16 p f s
  | .fmulBf16 p f => Sys2Proof.Machine.execFmulBf16 p f s
  | .fmaBf16 p f => Sys2Proof.Machine.execFmaBf16 p f s
  | .fminBf16 p f => Sys2Proof.Machine.execFminBf16 p f s
  | .fmaxBf16 p f => Sys2Proof.Machine.execFmaxBf16 p f s
  | .fabsBf16 p f => Sys2Proof.Machine.execFabsBf16 p f s
  | .fnegBf16 p f => Sys2Proof.Machine.execFnegBf16 p f s
  | .fcmpEq p f => Sys2Proof.Machine.execFcmpEq p f s
  | .fcmpNe p f => Sys2Proof.Machine.execFcmpNe p f s
  | .fcmpLt p f => Sys2Proof.Machine.execFcmpLt p f s
  | .fcmpLe p f => Sys2Proof.Machine.execFcmpLe p f s
  | .fcmpGt p f => Sys2Proof.Machine.execFcmpGt p f s
  | .fcmpGe p f => Sys2Proof.Machine.execFcmpGe p f s
  | .fcmpUn p f => Sys2Proof.Machine.execFcmpUn p f s
  | .fclass p f => Sys2Proof.Machine.execFclass p f s
  | .faddx p f => Sys2Proof.Machine.execFaddx p f s
  | .fsubx p f => Sys2Proof.Machine.execFsubx p f s
  | .fmulx p f => Sys2Proof.Machine.execFmulx p f s
  | .dwadd p f => Sys2Proof.Machine.execDwadd p f s
  | .dwmul p f => Sys2Proof.Machine.execDwmul p f s
  | .dwfma p f => Sys2Proof.Machine.execDwfma p f s
  | .dwdiv p f => Sys2Proof.Machine.execDwdiv p f s
  | .dwsqrt p f => Sys2Proof.Machine.execDwsqrt p f s
  | .rcp p f => Sys2Proof.Machine.execRcp p f s
  | .rsq p f => Sys2Proof.Machine.execRsq p f s
  | .exp2 p f => Sys2Proof.Machine.execExp2 p f s
  | .log2 p f => Sys2Proof.Machine.execLog2 p f s
  | .sin p f => Sys2Proof.Machine.execSin p f s
  | .cos p f => Sys2Proof.Machine.execCos p f s
  | .gelu p f => Sys2Proof.Machine.execGelu p f s
  | .silu p f => Sys2Proof.Machine.execSilu p f s
  | .splus p f => Sys2Proof.Machine.execSplus p f s
  | .tanh p f => Sys2Proof.Machine.execTanh p f s
  | .sigm p f => Sys2Proof.Machine.execSigm p f s
  | .cvt p c f => Sys2Proof.Machine.execCvt p c f s
  | .cvtmx p c f => Sys2Proof.Machine.execCvtmx p c f s
  | .mov p f => Sys2Proof.Machine.execMov p f s
  | .movs p f => Sys2Proof.Machine.execMovs p f s
  | .movx p f => Sys2Proof.Machine.execMovx p f s
  | .idx p f => Sys2Proof.Machine.execIdx p f s
  | .ballot p f => Sys2Proof.Machine.execBallot p f s
  | .cred p f => Sys2Proof.Machine.execCred p f s
  | .tcred p f => Sys2Proof.Machine.execTcred p f s
  | .shflIdx p f => Sys2Proof.Machine.execShflIdx p f s
  | .shflXor p f => Sys2Proof.Machine.execShflXor p f s
  | .shflUp p f => Sys2Proof.Machine.execShflUp p f s
  | .shflDn p f => Sys2Proof.Machine.execShflDn p f s
  | .pshw p f => Sys2Proof.Machine.execPshw p f s
  | .voteAny p f => Sys2Proof.Machine.execVoteAny p f s
  | .voteAll p f => Sys2Proof.Machine.execVoteAll p f s
  | .voteEq p f => Sys2Proof.Machine.execVoteEq p f s
  | .ld p ty f => Sys2Proof.Machine.execLd p ty f s
  | .st p ty f => Sys2Proof.Machine.execSt p ty f s
  | .ldImm p ty f => Sys2Proof.Machine.execLdImm p ty f s
  | .stImm p ty f => Sys2Proof.Machine.execStImm p ty f s
  | .ldAcq p ty f => Sys2Proof.Machine.execLdAcq p ty f s
  | .stRel p ty f => Sys2Proof.Machine.execStRel p ty f s
  | .ldb p ty f => Sys2Proof.Machine.execLdb p ty f s
  | .ldw p ty f => Sys2Proof.Machine.execLdw p ty f s
  | .ldt p ty f => Sys2Proof.Machine.execLdt p ty f s
  | .atomI32 p op f => Sys2Proof.Machine.execAtomI32 p op f s
  | .atomN32 p op f => Sys2Proof.Machine.execAtomN32 p op f s
  | .atomI64 p op f => Sys2Proof.Machine.execAtomI64 p op f s
  | .atomN64 p op f => Sys2Proof.Machine.execAtomN64 p op f s
  | .atomCas p aty f => Sys2Proof.Machine.execAtomCas p aty f s
  | .fxacc p t f => Sys2Proof.Machine.execFxacc p t f s
  | .fxaccSc p f => Sys2Proof.Machine.execFxaccSc p f s
  | .fxrd p t f => Sys2Proof.Machine.execFxrd p t f s
  | .rwb p f => Sys2Proof.Machine.execRwb p f s
  | .rinv p f => Sys2Proof.Machine.execRinv p f s
  | .rdisc p f => Sys2Proof.Machine.execRdisc p f s
  | .decode p f => Sys2Proof.Machine.execDecode p f s
  | .vsampNear p f => Sys2Proof.Machine.execVsampNear p f s
  | .vsampTri p f => Sys2Proof.Machine.execVsampTri p f s
  | .rbox p f => Sys2Proof.Machine.execRbox p f s
  | .rboxIdx p f => Sys2Proof.Machine.execRboxIdx p f s
  | .scalarAdd f => Sys2Proof.Machine.execScalarAdd f s
  | .scalarSub f => Sys2Proof.Machine.execScalarSub f s
  | .scalarMul f => Sys2Proof.Machine.execScalarMul f s
  | .mulhI64 f => Sys2Proof.Machine.execMulhI64 f s
  | .mulhN64 f => Sys2Proof.Machine.execMulhN64 f s
  | .divI64 f => Sys2Proof.Machine.execDivI64 f s
  | .divN64 f => Sys2Proof.Machine.execDivN64 f s
  | .remI64 f => Sys2Proof.Machine.execRemI64 f s
  | .remN64 f => Sys2Proof.Machine.execRemN64 f s
  | .minI64 f => Sys2Proof.Machine.execMinI64 f s
  | .minN64 f => Sys2Proof.Machine.execMinN64 f s
  | .maxI64 f => Sys2Proof.Machine.execMaxI64 f s
  | .maxN64 f => Sys2Proof.Machine.execMaxN64 f s
  | .scalarIcmp f => Sys2Proof.Machine.execScalarIcmp f s
  | .scalarSel f => Sys2Proof.Machine.execScalarSel f s
  | .scalarAnd f => Sys2Proof.Machine.execScalarAnd f s
  | .scalarOr f => Sys2Proof.Machine.execScalarOr f s
  | .scalarXor f => Sys2Proof.Machine.execScalarXor f s
  | .scalarAndn f => Sys2Proof.Machine.execScalarAndn f s
  | .scalarShl f => Sys2Proof.Machine.execScalarShl f s
  | .scalarShr f => Sys2Proof.Machine.execScalarShr f s
  | .scalarSra f => Sys2Proof.Machine.execScalarSra f s
  | .scalarRol f => Sys2Proof.Machine.execScalarRol f s
  | .scalarAddImm f => Sys2Proof.Machine.execScalarAddImm f s
  | .scalarMulImm f => Sys2Proof.Machine.execScalarMulImm f s
  | .scalarAndImm f => Sys2Proof.Machine.execScalarAndImm f s
  | .scalarOrImm f => Sys2Proof.Machine.execScalarOrImm f s
  | .scalarXorImm f => Sys2Proof.Machine.execScalarXorImm f s
  | .scalarShlImm f => Sys2Proof.Machine.execScalarShlImm f s
  | .scalarShrImm f => Sys2Proof.Machine.execScalarShrImm f s
  | .scalarSraImm f => Sys2Proof.Machine.execScalarSraImm f s
  | .movl f => Sys2Proof.Machine.execMovl f s
  | .movhH1 f => Sys2Proof.Machine.execMovhH1 f s
  | .movhH2 f => Sys2Proof.Machine.execMovhH2 f s
  | .movhH3 f => Sys2Proof.Machine.execMovhH3 f s
  | .scalarMov f => Sys2Proof.Machine.execScalarMov f s
  | .scalarNot f => Sys2Proof.Machine.execScalarNot f s
  | .scalarPopc f => Sys2Proof.Machine.execScalarPopc f s
  | .scalarClz f => Sys2Proof.Machine.execScalarClz f s
  | .scalarCtz f => Sys2Proof.Machine.execScalarCtz f s
  | .scalarBrev f => Sys2Proof.Machine.execScalarBrev f s
  | .csrr f => Sys2Proof.Machine.execCsrr f s
  | .csrw f => Sys2Proof.Machine.execCsrw f s
  | .scalarLd sc f => Sys2Proof.Machine.execScalarLd sc f s
  | .scalarSt sc f => Sys2Proof.Machine.execScalarSt sc f s
  | .scalarAtomAdd f => Sys2Proof.Machine.execScalarAtomAdd f s
  | .scalarAtomMin f => Sys2Proof.Machine.execScalarAtomMin f s
  | .scalarAtomMax f => Sys2Proof.Machine.execScalarAtomMax f s
  | .scalarAtomAnd f => Sys2Proof.Machine.execScalarAtomAnd f s
  | .scalarAtomOr f => Sys2Proof.Machine.execScalarAtomOr f s
  | .scalarAtomXor f => Sys2Proof.Machine.execScalarAtomXor f s
  | .scalarAtomXchg f => Sys2Proof.Machine.execScalarAtomXchg f s
  | .scalarAtomCas f => Sys2Proof.Machine.execScalarAtomCas f s
  | .bra f => Sys2Proof.Machine.execBra f s
  | .brcEqz f => Sys2Proof.Machine.execBrcEqz f s
  | .brcNez f => Sys2Proof.Machine.execBrcNez f s
  | .brcLtz f => Sys2Proof.Machine.execBrcLtz f s
  | .brcGez f => Sys2Proof.Machine.execBrcGez f s
  | .brv f => Sys2Proof.Machine.execBrv f s
  | .brvAny f => Sys2Proof.Machine.execBrvAny f s
  | .brvAll f => Sys2Proof.Machine.execBrvAll f s
  | .brvNone f => Sys2Proof.Machine.execBrvNone f s
  | .call f => Sys2Proof.Machine.execCall f s
  | .recMark f => Sys2Proof.Machine.execRecMark f s
  | .setmAnd f => Sys2Proof.Machine.execSetmAnd f s
  | .setmOr f => Sys2Proof.Machine.execSetmOr f s
  | .setmXor f => Sys2Proof.Machine.execSetmXor f s
  | .setmAndn f => Sys2Proof.Machine.execSetmAndn f s
  | .setmNot f => Sys2Proof.Machine.execSetmNot f s
  | .setmMov f => Sys2Proof.Machine.execSetmMov f s
  | .setmAll f => Sys2Proof.Machine.execSetmAll f s
  | .setmNone f => Sys2Proof.Machine.execSetmNone f s
  | .getm f => Sys2Proof.Machine.execGetm f s
  | .fence f => Sys2Proof.Machine.execFence f s
  | .mma sb f => Sys2Proof.Machine.execMma sb f s
  | .mmag sb f => Sys2Proof.Machine.execMmag sb f s
  | .mdrain f => Sys2Proof.Machine.execMdrain f s
  | .cpy sc f => Sys2Proof.Machine.execCpy sc f s
  | .cpymgInj sc f => Sys2Proof.Machine.execCpymgInj sc f s
  | .cpymgFw sc f => Sys2Proof.Machine.execCpymgFw sc f s
  | .cpymgPro sc f => Sys2Proof.Machine.execCpymgPro sc f s
  | .cpymgProadd sc f => Sys2Proof.Machine.execCpymgProadd sc f s
  | .cpymgCvt sc f => Sys2Proof.Machine.execCpymgCvt sc f s
  | .cpyred sc f => Sys2Proof.Machine.execCpyred sc f s
  | .emit f => Sys2Proof.Machine.execEmit f s
  | .spawn f => Sys2Proof.Machine.execSpawn f s
  | .pharv f => Sys2Proof.Machine.execPharv f s
  | .phwait f => Sys2Proof.Machine.execPhwait f s
  | .prefBw f => Sys2Proof.Machine.execPrefBw f s
  | .prefTc f => Sys2Proof.Machine.execPrefTc f s
  | .fctlReseed => Sys2Proof.Machine.execFctlReseed s
  | .ret => Sys2Proof.Machine.execRet s
  | .callr => Sys2Proof.Machine.execCallr s
  | .jmpr => Sys2Proof.Machine.execJmpr s
  | .join => Sys2Proof.Machine.execJoin s
  | .endTeam => Sys2Proof.Machine.execEndTeam s
  | .yield => Sys2Proof.Machine.execYield s
  | .rft => Sys2Proof.Machine.execRft s
  | .trapCode => Sys2Proof.Machine.execTrapCode s
  | .callv => Sys2Proof.Machine.execCallv s
  | .bar => Sys2Proof.Machine.execBar s
  | .cbar => Sys2Proof.Machine.execCbar s
  | .dbar => Sys2Proof.Machine.execDbar s
  | .mzero => Sys2Proof.Machine.execMzero s
  | .cpyclose => Sys2Proof.Machine.execCpyclose s
  | .cpywait => Sys2Proof.Machine.execCpywait s
  | .pack => Sys2Proof.Machine.execPack s
  | .producerRowFull => Sys2Proof.Machine.execProducerRowFull s
  | .matrixComplete => Sys2Proof.Machine.execMatrixComplete s
  | .gangLatchComplete => Sys2Proof.Machine.execGangLatchComplete s
  | .barrierComplete => Sys2Proof.Machine.execBarrierComplete s
  | .copyCommandComplete => Sys2Proof.Machine.execCopyCommandComplete s
  | .cpyredContribution => Sys2Proof.Machine.execCpyredContribution s
  | .teamStart => Sys2Proof.Machine.execTeamStart s
  | .contextSave => Sys2Proof.Machine.execContextSave s
  | .teamRestore => Sys2Proof.Machine.execTeamRestore s
  | .timeSlice => Sys2Proof.Machine.execTimeSlice s
  | .teamRetire => Sys2Proof.Machine.execTeamRetire s
  | .queueDoorbell => Sys2Proof.Machine.execQueueDoorbell s
  | .dispatchDecision => Sys2Proof.Machine.execDispatchDecision s
  | .queuePromotion => Sys2Proof.Machine.execQueuePromotion s
  | .binFlush => Sys2Proof.Machine.execBinFlush s
  | .gatherTimeout => Sys2Proof.Machine.execGatherTimeout s
  | .aggregatorFlush => Sys2Proof.Machine.execAggregatorFlush s
  | .aggregatorTimeout => Sys2Proof.Machine.execAggregatorTimeout s
  | .drain => Sys2Proof.Machine.execDrain s
  | .drainEscalation => Sys2Proof.Machine.execDrainEscalation s
  | .drainComplete => Sys2Proof.Machine.execDrainComplete s
  | .resume => Sys2Proof.Machine.execResume s
  | .geth => Sys2Proof.Machine.execGeth s
  | .getu => Sys2Proof.Machine.execGetu s
  | .gett => Sys2Proof.Machine.execGett s
  | .geto => Sys2Proof.Machine.execGeto s
  | .oph => Sys2Proof.Machine.execOph s
  | .packMessage => Sys2Proof.Machine.execPackMessage s
  | .putp => Sys2Proof.Machine.execPutp s
  | .putt => Sys2Proof.Machine.execPutt s
  | .wb => Sys2Proof.Machine.execWb s
  | .strip => Sys2Proof.Machine.execStrip s
  | .flush => Sys2Proof.Machine.execFlush s
  | .invMsg => Sys2Proof.Machine.execInvMsg s
  | .stripack => Sys2Proof.Machine.execStripack s
  | .flushack => Sys2Proof.Machine.execFlushack s
  | .invack => Sys2Proof.Machine.execInvack s
  | .dataMsg => Sys2Proof.Machine.execDataMsg s
  | .cmpMsg => Sys2Proof.Machine.execCmpMsg s
  | .doneMsg => Sys2Proof.Machine.execDoneMsg s
  | .snpdata => Sys2Proof.Machine.execSnpdata s
  | .snpinv => Sys2Proof.Machine.execSnpinv s
  | .snpcur => Sys2Proof.Machine.execSnpcur s
  | .cxlCacheResponse => Sys2Proof.Machine.execCxlCacheResponse s
  | .memrd => Sys2Proof.Machine.execMemrd s
  | .memwr => Sys2Proof.Machine.execMemwr s
  | .birsp => Sys2Proof.Machine.execBirsp s
  | .windowRead => Sys2Proof.Machine.execWindowRead s
  | .windowWrite => Sys2Proof.Machine.execWindowWrite s
  | .routeFailure => Sys2Proof.Machine.execRouteFailure s
  | .resendTimeout => Sys2Proof.Machine.execResendTimeout s
  | .tierCacheFill => Sys2Proof.Machine.execTierCacheFill s
  | .hotnessSample => Sys2Proof.Machine.execHotnessSample s
  | .hotnessHalving => Sys2Proof.Machine.execHotnessHalving s
  | .throttleExpiry => Sys2Proof.Machine.execThrottleExpiry s
  | .migrateBlock => Sys2Proof.Machine.execMigrateBlock s
  | .migrateCopy => Sys2Proof.Machine.execMigrateCopy s
  | .migrateMap => Sys2Proof.Machine.execMigrateMap s
  | .migrateReplay => Sys2Proof.Machine.execMigrateReplay s
  | .freeFrameRecord => Sys2Proof.Machine.execFreeFrameRecord s
  | .migrationRequest => Sys2Proof.Machine.execMigrationRequest s
  | .faultReply => Sys2Proof.Machine.execFaultReply s
  | .invalidationRecord => Sys2Proof.Machine.execInvalidationRecord s
  | .invalidationComplete => Sys2Proof.Machine.execInvalidationComplete s
  | .ringTailWrite => Sys2Proof.Machine.execRingTailWrite s
  | .ringHeadWrite => Sys2Proof.Machine.execRingHeadWrite s
  | .deviceErrorRecord => Sys2Proof.Machine.execDeviceErrorRecord s
  | .controlRegisterWrite => Sys2Proof.Machine.execControlRegisterWrite s
  | .attestReport => Sys2Proof.Machine.execAttestReport s
  | .attestCertChain => Sys2Proof.Machine.execAttestCertChain s
  | .attestStageImage => Sys2Proof.Machine.execAttestStageImage s
  | .attestIdentityKey => Sys2Proof.Machine.execAttestIdentityKey s
  | .attestDone => Sys2Proof.Machine.execAttestDone s
  | .abfortFlitReceive => Sys2Proof.Machine.execAbfortFlitReceive s
  | .linkAckTimeout => Sys2Proof.Machine.execLinkAckTimeout s
  | .peerInboundRequest => Sys2Proof.Machine.execPeerInboundRequest s
  | .rowRemap => Sys2Proof.Machine.execRowRemap s
  | .evacuation => Sys2Proof.Machine.execEvacuation s
  | .dieLost => Sys2Proof.Machine.execDieLost s
  | .powerManagerTick => Sys2Proof.Machine.execPowerManagerTick s
  | .coldReset => Sys2Proof.Machine.execColdReset s
  | .hostLinkTrained => Sys2Proof.Machine.execHostLinkTrained s
  | .dieSelfTestDone => Sys2Proof.Machine.execDieSelfTestDone s
  | .hbmTrainingDone => Sys2Proof.Machine.execHbmTrainingDone s
  | .cxlEnable => Sys2Proof.Machine.execCxlEnable s
  | .abfortTrainingDone => Sys2Proof.Machine.execAbfortTrainingDone s
  | .peerAuthentication => Sys2Proof.Machine.execPeerAuthentication s
  | .steppeReady => Sys2Proof.Machine.execSteppeReady s
  | .functionLevelReset => Sys2Proof.Machine.execFunctionLevelReset s
  | .illegalInstruction => Sys2Proof.Machine.execIllegalInstruction s
  | .fetchFault => Sys2Proof.Machine.execFetchFault s
  | .spdmRequest => Sys2Proof.Machine.execSpdmRequest s
  | .configurationRequest => Sys2Proof.Machine.execConfigurationRequest s

end Sys2Proof.Machine
end

