-- ==== Sys2Proof/Machine/Issue.lean ====
section
/-! DEFINITION. A team's issue opportunity: reconvergence, the fetch, the decoder, the instruction. -/

namespace Sys2Proof.Machine

/-- Team `cur` issues: R111's check, the fetch, the decoder, and the instruction; a word that is no instruction, and a
fetch that yields none, are rows of their own. -/
def issue (s : State) : Host.Outcome State Fault Refusal :=
  match s.reconverge s.cur ((s.teamAt s.cur).depthDiv) with
  | .error e => .next (s.stopWith e)
  | .ok s =>
    match s.fetch (s.viaOf s.cur) (s.teamAt s.cur).pc.toNat with
    | .error e => if e.waits then .next (s.stopWith e) else exec .fetchFault { s with arg := faultArg e }
    | .ok (s, w0, w1) =>
      match decodeWords w0 w1 with
      | .error _ => exec .illegalInstruction { s with iw := w0 }
      | .ok (i, n) => exec i { s with iw := if n = 8 then w1 else w0 }

/-- The team `State.withFetchWord` places: resident on die 0, 32 lanes, 128 vector registers, at PC 0x100000. -/
def fetchTeam (l : Nat) : Team :=
  { blankTeam with
    status := .resident, launch := l, group := 0, lanes := 32, vregs := 128, frameSlot := some 0,
    record := BitVec.ofNat 512 (0x100000 + 0x200000 * 2 ^ 64 + (32 + 15 * 2 ^ 12 + 1 * 2 ^ 38 + 8 * 2 ^ 56) * 2 ^ 192),
    sreg := [(63, 0x200000)], fp := 0x200000, slim := 0x180000, spBase := 0x180000, spPtr := 0x180000,
    tvec := 0x110000, div := [⟨0x100000, allLanes 32, noAddr⟩] }

end Sys2Proof.Machine
end

