-- ==== Sys2Proof/Machine/Step.lean ====
section
/-! DEFINITION. One step: a team issues its next instruction, or a device event takes place. -/

namespace Sys2Proof.Machine

/-- One step of the device. -/
def step (s : State) : Host.Outcome State Fault Refusal :=
  match s.pick with
  | none => .next s.begin
  | some (.team k) =>
    if k < s.teams.length ∧ (s.teamAt k).status = .resident then issue (s.begin.take k) else .fault .noSuchTurn
  | some (.event i) =>
    match s.events[i]? with
    | none => .fault .noSuchTurn
    | some e => exec e.row { s.begin with arg := e.arg, events := s.begin.events.eraseIdx i }

/-! ### A state whose next step runs one given instruction -/

/-- `s` with the instruction of `nbits` bits `w` placed where the next step fetches: a team resident on die 0, an
address space 0 whose first gigabyte maps physical memory from 0 (all rights and policies), the readiness bits of what
these use, and the turn given to the team (notes/assumptions/11.md). -/
def State.withFetchWord (s : State) (nbits w : Nat) : State :=
  let m := s.mem.writeLe 0x20000 8 (0x40 * 4096 + 1)
  let m := m.writeLe 0x40000 8 (0x410 * 256 + 1)
  let m := m.writeLe 0x41000 8 (0x420 * 256 + 1)
  let m := m.writeLe 0x42000 8 (7 * 2 ^ 11 + 7 * 2 ^ 8 + 3 * 2 ^ 6 + 1)
  let m := m.writeLe 0x100000 8 (w % 2 ^ nbits)
  let s : State := { s with
    mem := m, tlb := [], walks := [], lines := [], llc := [], dir := [], txns := [], wbuf := [], miss := [], delivered := []
    buffered := [], biWait := [], biReady := [], cxlNoData := [], cxlWait := [], moves := [], remaps := [], poison := []
    lostDies := []
    turn := some (.team s.teams.length)
    teams := s.teams ++ [fetchTeam s.launches.length]
    launches := s.launches ++ [⟨0, 0, 0, 0, none, 0, true, false, false, none⟩]
    groups := if s.groups.isEmpty then [⟨s.launches.length, 0, 0, 0, some 0, 4096, [], 0, [], true⟩] else s.groups
    shares := if s.shares.isEmpty then [⟨s.launches.length, 0, 0, [], 0⟩] else s.shares }
  ((((s.setCreg 0x48 0x20000).setCreg 0x80 0x0001000000000010).setCreg 0x20 0).setCreg 0x18 (s.creg 0x18 ||| 0xFF)).setCreg 0x10
    (s.creg 0x10 ||| 0x0000000800030001)

end Sys2Proof.Machine
end

