-- ==== Sys2Proof/Safety.lean ====
section
/-! DEFINITION. The words the statements are made of: when an instruction executes normally, and what it leaves. A run is
safe while every step answers a next state (`step` faults only where `turn` names nobody); the predicates below say which
next state. -/

namespace Sys2Proof.Machine

/-! ### Lane instructions -/

/-- The operands of a lane instruction: its prefix; its source runs, each a first register, a count and the tags it accepts
besides RAW (none: every tag; 05 Table 5.1); the registers it writes and the tag each takes; whether the pairs among its
registers stand on even registers (01 R18); the fallbacks of 03 Table 3.15 its word takes; which of its destinations are held
against a tag when they are merged, and that tag (02 R66), which Z zeroes, and which take their tags. -/
structure LaneForm where
  p : Option Pfx
  srcs : List (Nat × Nat × List Nat)
  dst : List Nat
  tag : Nat → Nat
  even : Bool := true
  warn : Nat
  merged : List (Nat × Nat) := dst.map fun r => (r, tag r)
  zero : List Nat := dst
  tagged : List Nat := dst

/-- Lane `l` acts: it stands in a row of the team, in the execute mask and in the prefix's mask register (01 R14). -/
def Team.acts (t : Team) (p : Option Pfx) (l : Nat) : Prop := l / 32 < t.lanes / 32 ∧ inMask (t.exec &&& t.k (pk p)) l = true

/-- Lane `l` is zeroed: Z is 1, and it stands in the execute mask and not in the prefix's mask register (01 R14). -/
def Team.zeroes (t : Team) (p : Option Pfx) (l : Nat) : Prop :=
  pz p = true ∧ l / 32 < t.lanes / 32 ∧ inMask (t.exec &&& ~~~ t.k (pk p)) l = true

/-- The tags of the sources suit, and those of the destination where it is merged: the prefix names a mask other than k0 and
Z is 0 (02 R66). -/
def LaneForm.fits (x : LaneForm) (t : Team) : Prop :=
  (∀ a ∈ x.srcs, ∀ r ∈ run a.1 a.2.1, a.2.2 = [] ∨ (t.tagOf r).toNat = 0 ∨ (t.tagOf r).toNat ∈ a.2.2) ∧
  (pk x.p ≠ 0 → pz x.p = false →
    ∀ y ∈ x.merged, (t.tagOf y.1).toNat = 0 ∨ (t.tagOf y.1).toNat = y.2)

/-- The instruction executes normally on the team: its prefix is assigned and its pairs are even, its registers lie below V,
an execute mask that is not empty, every row it sweeps full in every register it reads or writes, no register word lost, no
part of it done before; and tags that suit, if `FCTL`.TAGT makes others a trap (03 Table 3.14, 01 R13, R22). -/
structure LaneForm.Ready (x : LaneForm) (t : Team) : Prop where
  prefixOk : pfxOk x.p = true
  even : x.even = true
  lanes : t.lanes ≤ 1024
  active : t.exec ≠ 0
  fresh : t.prow = none ∧ t.exc = 0 ∧ t.excFlags = 0 ∧ t.badWords = [] ∧ t.wait ≠ .pageFault
  srcBelow : ∀ a ∈ x.srcs, a.1 + a.2.1 ≤ t.vregs
  dstBelow : ∀ r ∈ x.dst, r < t.vregs
  srcFull : ∀ a ∈ x.srcs, ∀ r ∈ run a.1 a.2.1, ∀ w ∈ t.sweptRows, t.rowEmpty r w = false
  dstFull : ∀ r ∈ x.dst, ∀ w ∈ t.sweptRows, t.rowEmpty r w = false
  tags : t.tagt = true → x.fits t

/-- The registers after a lane instruction: an acting lane's are `val`, a zeroed lane's 0, all others as before. -/
def LaneForm.Regs (x : LaneForm) (t : Team) (val : Nat → Nat → Word32) (after : Team) : Prop :=
  ∀ r l, l < 1024 →
    (r ∈ x.dst → t.acts x.p l → after.v r l = val r l) ∧
    (r ∈ x.zero → t.zeroes x.p l → after.v r l = 0) ∧
    (¬ (r ∈ x.dst ∧ t.acts x.p l) → ¬ (r ∈ x.zero ∧ t.zeroes x.p l) → after.v r l = t.v r l)

/-- The tags after a lane instruction. -/
def LaneForm.Tags (x : LaneForm) (t after : Team) : Prop :=
  ∀ r, after.tagOf r = if r ∈ x.tagged then BitVec.ofNat 4 (x.tag r) else t.tagOf r

/-- The fallbacks a lane instruction that has executed leaves in `IWARN` (03 R85). -/
def LaneForm.Warns (x : LaneForm) (t after : Team) : Prop :=
  (x.fits t → after.iwarn = t.iwarn ||| BitVec.ofNat 64 x.warn) ∧
  (¬ x.fits t → after.iwarn = t.iwarn ||| BitVec.ofNat 64 (x.warn ||| wTAG))

/-- Exceptions of lanes taken together: a bit is set when it is in some acting lane. -/
def LaneForm.Union (x : LaneForm) (t : Team) (fl : Nat → Fl) (u : Fl) : Prop :=
  ∀ i, u.getLsbD i = true ↔ ∃ l, l < 1024 ∧ t.acts x.p l ∧ (fl l).getLsbD i = true

/-- `after` is the team past the instruction with nothing changed but vector registers, tags, the stochastic generators,
`FLAGS`, `IWARN` and the PC (05 R139, 01 R13). -/
def LaneForm.Past (x : LaneForm) (t after : Team) : Prop :=
  ∃ vreg tag gen flags iwarn, after =
    { t.setPc (t.pc + BitVec.ofNat 64 (plen x.p)) with
      vreg := vreg, tag := tag, gen := gen, flags := flags, iwarn := iwarn, wait := .none, arr := false, prow := none,
      exc := 0, excFlags := 0 }

/-- A lane instruction has its effect: the outcome is a next state in which the executing team has the results and
everything else is as before. -/
def LaneForm.Done (x : LaneForm) (s : State) (val : Nat → Nat → Word32) (out : Out) : Prop :=
  ∃ t, out = .next (s.withTeam t) ∧ x.Past s.team t ∧ x.Regs s.team val t ∧ x.Tags s.team t ∧ x.Warns s.team t ∧
    t.flags = s.team.flags ∧ ∀ l, l < 1024 → t.g l = s.team.g l

/-- The same for a floating-point lane instruction: the exceptions of its acting lanes are added to `FLAGS`, and an acting
lane's generator is `gen`. -/
def LaneForm.DoneFp (x : LaneForm) (s : State) (val : Nat → Nat → Word32) (fl : Nat → Fl) (gen : Nat → Word32)
    (out : Out) : Prop :=
  ∃ t u, out = .next (s.withTeam t) ∧ x.Past s.team t ∧ x.Regs s.team val t ∧ x.Tags s.team t ∧ x.Warns s.team t ∧
    x.Union s.team fl u ∧ t.flags = s.team.flags ||| u.setWidth 64 ∧
    ∀ l, l < 1024 → (s.team.acts x.p l → t.g l = gen l) ∧ (¬ s.team.acts x.p l → t.g l = s.team.g l)

/-- The same for a lane instruction with a scalar result: `base` is the team with that result, `raised` what it raised. -/
def LaneForm.DoneScalar (x : LaneForm) (s : State) (base : Team) (raised : Fl) (out : Out) : Prop :=
  ∃ t, out = .next (s.withTeam t) ∧ x.Past base t ∧ x.Regs base (fun _ _ => 0) t ∧ x.Tags base t ∧ x.Warns base t ∧
    t.flags = base.flags ||| raised.setWidth 64 ∧ ∀ l, l < 1024 → t.g l = base.g l

/-- No acting lane raises an exception whose trap is enabled (05 R140). -/
def LaneForm.Quiet (x : LaneForm) (t : Team) (fl : Nat → Fl) : Prop :=
  ∀ l, l < 1024 → t.acts x.p l → fl l &&& t.te = 0

/-! ### Long-latency producers (01 R22, R24) -/

/-- A lane instruction whose results land later has issued: past it, one row due for each destination register of each swept
row, those rows empty, an event for each; the registers will be `val` when the rows have landed. Nothing else changed but
tags, generators, `FLAGS`, `IWARN` and the PC. -/
def LaneForm.Issued (x : LaneForm) (s : State) (val : Nat → Nat → Word32) (fl : Nat → Fl) (gen : Nat → Word32)
    (out : Out) : Prop :=
  ∃ t new u, out = .next { s.withTeam t with
      events := s.events ++ List.replicate new.length ⟨.producerRowFull, { a := s.cur }⟩ } ∧
    (∃ empty tag gens flags iwarn, t =
      { s.team.setPc (s.team.pc + BitVec.ofNat 64 (plen x.p)) with
        empty := empty, prods := s.team.prods ++ new, tag := tag, gen := gens, flags := flags, iwarn := iwarn,
        wait := .none, arr := false, prow := none, exc := 0, excFlags := 0 }) ∧
    (new.map fun p => (p.row, p.reg)) = (s.team.sweptRows.flatMap fun w => x.dst.map fun r => (w, r)) ∧
    (∀ r w, w < 32 → t.rowEmpty r w = if r ∈ x.dst ∧ w ∈ s.team.sweptRows then true else s.team.rowEmpty r w) ∧
    x.Regs s.team val (new.foldl Team.landRow s.team) ∧ x.Tags s.team t ∧ x.Warns s.team t ∧
    x.Union s.team fl u ∧ t.flags = s.team.flags ||| u.setWidth 64 ∧
    ∀ l, l < 1024 → (s.team.acts x.p l → t.g l = gen l) ∧ (¬ s.team.acts x.p l → t.g l = s.team.g l)

/-! ### What an access to memory may change -/

/-- The machine but for memory, the caches with their directories and write-back buffers, the translation caches, the tier
cache, the lists of what was asked of the host and of words in error, the ports, the events due, and the dirty bytes of the
teams' stack caches. -/
def State.apart (s : State) : State :=
  { s with
    mem := [], lines := [], llc := [], dir := [], wbuf := [], nextTxn := 0, tlb := [], walks := [], events := [], biReady := [],
    cxl := [], cxlNoData := [], cxlWait := [], hostReady := [], poison := [], llcCount := [], tcSpare := [], tcFills := []
    ports := [] }

/-- A byte that stands in `State.mem` under its own address for good: bandwidth memory, host memory, or a window. -/
def plainByte (tc a : Nat) : Bool :=
  match physRange tc a with
  | .flat _ => true
  | .host => true
  | _ => decide (scratchKey ≤ a)

/-- Byte `a` of memory waits for bytes a cache will write back: some copy holds it dirty under si (10 R267), or the tier
cache holds its line dirty (12 R310). -/
def State.awaits (s : State) (a : Nat) : Prop :=
  (∃ c ∈ s.lines, c.line = a / 64 ∧ c.siDirty.getLsbD (a % 64) = true) ∨
  (s.tc ≠ 0 ∧ ∃ k l, l < 32 ∧ bitAt (s.spare k l).toNat 8 = true ∧ bitAt (s.spare k l).toNat 7 = true ∧
    steppeLine s.tc k (bitsAt (s.spare k l).toNat 9 7) l = a / 64 * 64)

/-- Byte `a` rests: it is plain, its block is not compressed (11 R294), and neither it nor its block's metadata byte is
among the bytes `W` or waits for bytes a cache will write back. -/
def State.rests (s : State) (W : Nat → Prop) (a : Nat) : Prop :=
  plainByte s.tc a = true ∧ s.packed a = false ∧
  ∀ b, b = a ∨ b = metaBase + a / 256 → ¬ W b ∧ ¬ s.awaits b

/-- What accesses that store to the bytes `W` alone change: nothing outside memory and what stands before it; memory
keeps its canonical form; and every byte that rests holds what it held, and still rests. -/
structure Accessed (W : Nat → Prop) (s s' : State) : Prop where
  apart : s'.apart = s.apart
  wf : s.mem.wf = true → s'.mem.wf = true
  rests : s.mem.wf = true → ∀ a, s.rests W a → s'.rests W a ∧ s'.mem.read a = s.mem.read a

/-- The same where dirty bytes of the teams' stack caches (01 R37) may change too. -/
structure Stored (W : Nat → Prop) (s s' : State) : Prop where
  accessed : Accessed W s { s' with teams := s.teams }
  teams : (s'.teams.map fun t => { t with stk := [] }) = s.teams.map fun t => { t with stk := [] }

/-- Byte `a` is one of those a checked span holds, by its key in `State.mem`. -/
def Span.has (sp : Span) (a : Nat) : Prop := ∃ x ∈ sp, x.1.key ≤ a ∧ a < x.1.key + x.2

/-- Every part of a span that is global memory lies in one line. -/
def Span.inLines (sp : Span) : Prop := ∀ x ∈ sp, x.1.global = true → x.1.key % 64 + x.2 ≤ 64

/-! ### The forms of lane arithmetic (03 Table 3.1, 05 R134 to R136) -/

/-- What register `r` of an element result at `d` holds: the 32-bit value, or the low half in the named register and the high
half in the next (02 Table 2.7). -/
def elemReg (wide : Bool) (d : Nat) (v32 : Word32) (v64 : Word64) (r : Nat) : Word32 :=
  if wide then (if r = d then v64.setWidth 32 else v64.extractLsb' 32 32) else v32

/-- Two element operands and an element result. -/
def twoForm (p : Option Pfx) (f : LR) (accept : List Nat) (tag : Nat) : LaneForm :=
  { p := p, srcs := [(f.va.toNat, nregs f.wide, accept), (f.vb.toNat, nregs f.wide, accept)],
    dst := run f.vd.toNat (nregs f.wide), tag := fun _ => tag,
    even := pairOk f.wide f.vd && pairOk f.wide f.va && pairOk f.wide f.vb, warn := pfxWarn p uses2 }

/-- Two one-register operands of packed elements and such a result. -/
def packedForm (p : Option Pfx) (f : LR) (tag : Nat) : LaneForm :=
  { p := p, srcs := [(f.va.toNat, 1, [tag]), (f.vb.toNat, 1, [tag])], dst := [f.vd.toNat], tag := fun _ => tag,
    warn := pfxWarn p uses2 }

/-- One element operand and an element result; vb is must-be-zero. -/
def oneForm (p : Option Pfx) (f : LR) (accept : List Nat) (tag : Nat) : LaneForm :=
  { p := p, srcs := [(f.va.toNat, nregs f.wide, accept)], dst := run f.vd.toNat (nregs f.wide), tag := fun _ => tag,
    even := pairOk f.wide f.vd && pairOk f.wide f.va, warn := pfxWarn p uses1 ||| wIf (f.vb != 0) wOPND }

/-- One element operand and a one-register result tagged I32; vb is must-be-zero. -/
def countForm (p : Option Pfx) (f : LR) (accept : List Nat) : LaneForm :=
  { p := p, srcs := [(f.va.toNat, nregs f.wide, accept)], dst := [f.vd.toNat], tag := fun _ => 13,
    even := pairOk f.wide f.va, warn := pfxWarn p uses1 ||| wIf (f.vb != 0) wOPND }

/-- Two element operands and a one-register result tagged I32. -/
def compareForm (p : Option Pfx) (f : LR) (accept : List Nat) : LaneForm :=
  { p := p, srcs := [(f.va.toNat, nregs f.wide, accept), (f.vb.toNat, nregs f.wide, accept)], dst := [f.vd.toNat],
    tag := fun _ => 13, even := pairOk f.wide f.va && pairOk f.wide f.vb, warn := pfxWarn p uses2 }

/-- A 32-bit element operand and an immediate. -/
def immForm (p : Option Pfx) (f : LI) (accept : List Nat) (tag warn : Nat) : LaneForm :=
  { p := p, srcs := [(f.va.toNat, 1, accept)], dst := [f.vd.toNat], tag := fun _ => tag, warn := pfxWarn p uses1 ||| warn }

/-- No vector operand, an element result. -/
def fillForm (p : Option Pfx) (d : BitVec 7) (wide : Bool) (tag warn : Nat) : LaneForm :=
  { p := p, srcs := [], dst := run d.toNat (nregs wide), tag := fun _ => tag, even := pairOk wide d,
    warn := pfxWarn p uses0 ||| warn }

/-- `SEL`: va, vb and the condition in vc, a result that takes va's tag where all operands carry it, RAW otherwise (05
R145). -/
def selForm (p : Option Pfx) (f : LR) (t : Team) : LaneForm :=
  { p := p, srcs := [(f.va.toNat, nregs f.wide, []), (f.vb.toNat, nregs f.wide, []), (selC p f, 1, [])],
    dst := run f.vd.toNat (nregs f.wide), tag := fun _ => selTag t f,
    even := pairOk f.wide f.vd && pairOk f.wide f.va && pairOk f.wide f.vb, warn := pfxWarn p { uses2 with vc := true } }

/-- `MOV`: the result takes the tag of the register it copies, of a pair that of the one named (05 R147, 01 R26). -/
def movForm (p : Option Pfx) (f : LR) (t : Team) : LaneForm :=
  { p := p, srcs := [(f.va.toNat, nregs f.wide, [])], dst := run f.vd.toNat (nregs f.wide),
    tag := fun _ => (t.tagOf f.va.toNat).toNat, even := pairOk f.wide f.vd && pairOk f.wide f.va, warn := pfxWarn p uses1 ||| wIf (f.vb != 0) wOPND }

/-- Floating-point elements: one or two operands of the format, for a fused operation a third in the register the prefix
names, or vd without a prefix; `half` says that the elements are the 16-bit ones, packed in one register (05 R148). -/
def fpForm (p : Option Pfx) (f : LR) (half : Bool) (operands : Nat) : LaneForm :=
  let wide := f.wide && !half
  let tag := if half then tagHalf f.wide else tagWide f.wide
  let c := accReg p f
  { p := p,
    srcs := [(f.va.toNat, nregs wide, [tag])] ++ (if 2 ≤ operands then [(f.vb.toNat, nregs wide, [tag])] else []) ++
      (if operands = 3 then [(c, nregs wide, [tag])] else []),
    dst := run f.vd.toNat (nregs wide), tag := fun _ => tag,
    even := pairOk wide f.vd && pairOk wide f.va && (decide (operands = 1) || pairOk wide f.vb) &&
      (decide (operands ≠ 3) || !wide || c % 2 == 0),
    warn := pfxWarn p { wa := true, wb := decide (2 ≤ operands), rnd := true, vc := decide (operands = 3) } |||
      wIf (decide (operands = 1) && f.vb != 0) wOPND }

/-- The rounding of element 0 or 1 of lane `l` under a mode, and the generator after it: one step an element under the
stochastic mode (02 R59). -/
def elemRnd (mode : Nat) (t : Team) (l e : Nat) : Rnd × Word32 :=
  if e = 0 then rndOf mode (t.g l) else rndOf mode (rndOf mode (t.g l)).2

/-- An operation of 32-bit or 64-bit elements in lane `l`: result bits and exceptions. -/
def wideResult (f : LR) (t : Team) (c mode : Nat) (op : FOp) (l : Nat) : Nat × Fl :=
  op (fmtWide f.wide) false (elemRnd mode t l 0).1 (t.fpElem f.wide f.va.toNat l) (t.fpElem f.wide f.vb.toNat l)
    (t.fpElem f.wide c l)

/-- The same of element `e` of two packed 16-bit elements. -/
def halfResult (f : LR) (t : Team) (c mode : Nat) (op : FOp) (l e : Nat) : Nat × Fl :=
  let get := fun (r : Nat) => bitsAt (t.v r l).toNat (16 * e) 16
  op (fmtHalf f.wide) t.f16z (elemRnd mode t l e).1 (get f.va.toNat) (get f.vb.toNat) (get c)

/-- The generator of an acting lane after `n` elements. -/
def genAfter (mode : Nat) (t : Team) (n l : Nat) : Word32 := if mode = 5 then (elemRnd mode t l (n - 1)).2 else t.g l

/-- A floating-point instruction of 32-bit or 64-bit elements completes with `op` of its operands. -/
def WideFp (i : Option Pfx → LR → Instr) (operands : Nat) (rounds : Bool) (op : FOp) : Prop :=
  ∀ (p : Option Pfx) (f : LR) (s : State),
    let x := fpForm p f false operands
    let t := s.team
    let mode := if rounds then rmode t p else 0
    let res := wideResult f t (if operands = 3 then accReg p f else 0) mode op
    x.Ready t → (x.Quiet t fun l => (res l).2) →
    x.DoneFp s (fun r l => elemReg f.wide f.vd.toNat (BitVec.ofNat 32 (res l).1) (BitVec.ofNat 64 (res l).1) r)
      (fun l => (res l).2) (genAfter mode t 1) (exec (i p f) s)

/-- A floating-point instruction of packed 16-bit elements completes with `op` of its operands, element by element. -/
def HalfFp (i : Option Pfx → LR → Instr) (operands : Nat) (rounds : Bool) (op : FOp) : Prop :=
  ∀ (p : Option Pfx) (f : LR) (s : State),
    let x := fpForm p f true operands
    let t := s.team
    let mode := if rounds then rmode t p else 0
    let res := halfResult f t (if operands = 3 then accReg p f else 0) mode op
    x.Ready t → (x.Quiet t fun l => (res l 0).2 ||| (res l 1).2) →
    x.DoneFp s (fun _ l => BitVec.ofNat 32 ((res l 0).1 + (res l 1).1 * 65536)) (fun l => (res l 0).2 ||| (res l 1).2)
      (genAfter mode t 2) (exec (i p f) s)

/-- A double-word or error-pair result: the high element at `d`, the low element behind it (02 Table 2.7). -/
def dwReg (wide : Bool) (d : Nat) (x : HiLo) (r : Nat) : Word32 :=
  if wide then
    (if r < d + 2 then elemReg true d 0 (BitVec.ofNat 64 x.1) r else elemReg true (d + 2) 0 (BitVec.ofNat 64 x.2) r)
  else BitVec.ofNat 32 (if r = d then x.1 else x.2)

/-- `FADDX`, `FSUBX`, `FMULX`: two elements in, an error pair out, tagged DW (05 R156, R157). -/
def errForm (p : Option Pfx) (f : LR) : LaneForm :=
  { p := p, srcs := [(f.va.toNat, nregs f.wide, [tagWide f.wide]), (f.vb.toNat, nregs f.wide, [tagWide f.wide])],
    dst := run f.vd.toNat (dwRegs f.wide), tag := fun _ => 15,
    even := pairOk f.wide f.va && pairOk f.wide f.vb && dwOk f.wide f.vd.toNat, warn := pfxWarn p uses2 }

/-- Double-word pairs: one to three operands and a result (05 R158). -/
def dwForm (p : Option Pfx) (f : LR) (operands : Nat) : LaneForm :=
  let n := dwRegs f.wide
  let c := accReg p f
  { p := p,
    srcs := [(f.va.toNat, n, [15])] ++ (if 2 ≤ operands then [(f.vb.toNat, n, [15])] else []) ++
      (if operands = 3 then [(c, n, [15])] else []),
    dst := run f.vd.toNat n, tag := fun _ => 15,
    even := dwOk f.wide f.vd.toNat && dwOk f.wide f.va.toNat && (decide (operands = 1) || dwOk f.wide f.vb.toNat) &&
      (decide (operands ≠ 3) || dwOk f.wide c),
    warn := pfxWarn p { wa := true, wb := decide (2 ≤ operands), vc := decide (operands = 3) } |||
      wIf (decide (operands = 1) && f.vb != 0) wOPND }

/-- `CRED`: elements in, a double-word pair out (05 R160). -/
def credForm (p : Option Pfx) (f : LR) : LaneForm :=
  { p := p, srcs := [(f.va.toNat, nregs f.wide, [tagWide f.wide])], dst := run f.vd.toNat (dwRegs f.wide),
    tag := fun _ => 15, even := pairOk f.wide f.va && dwOk f.wide f.vd.toNat,
    warn := pfxWarn p uses1 ||| wIf (f.vb != 0) wOPND }

/-- `CVT`: the source side's registers, the destination side's (05 R153). -/
def cvtForm (p : Option Pfx) (c : BitVec 3) (f : LR) : LaneForm :=
  let n := cvtCount (cvtS f) (cvtD c f)
  { p := p, srcs := [(f.va.toNat, sideRegs (cvtS f) n, [cvtS f])], dst := run f.vd.toNat (sideRegs (cvtD c f) n),
    tag := fun _ => cvtD c f, even := sideOk (cvtS f) f.va && sideOk (cvtD c f) f.vd,
    warn := pfxWarn p { wa := true, rnd := true } ||| cvtWarn (cvtS f) (cvtD c f) f }

/-- `CVTMX` that reads its block scales in vc (05 R155). -/
def cvtmxForm (p : Option Pfx) (c : BitVec 3) (f : LR) : LaneForm :=
  let n := cvtCount (cvtS f) (cvtD c f)
  { p := p, srcs := [(f.va.toNat, sideRegs (cvtS f) n, [cvtS f]), (pvc p, 1, [10])],
    dst := run f.vd.toNat (sideRegs (cvtD c f) n), tag := fun _ => cvtD c f,
    even := sideOk (cvtS f) f.va && sideOk (cvtD c f) f.vd, warn := pfxWarn p { wa := true, rnd := true, vc := true } }

/-- `CVTMX` into MX with bit [3]: it also writes the block scales to vc, which takes the tag E8M0 when one is written; Z
zeroes vd (05 R155). -/
def cvtmxMakeForm (p : Option Pfx) (c : BitVec 3) (f : LR) (t : Team) : LaneForm :=
  let x := cvtmxForm p c f
  { x with
    srcs := [(f.va.toNat, sideRegs (cvtS f) (cvtCount (cvtS f) (cvtD c f)), [cvtS f]), (pvc p, 1, [])]
    dst := x.dst ++ (if mxWritesScale t p (cvtD c f) then [pvc p] else [])
    tag := fun r => if r = pvc p ∧ mxWritesScale t p (cvtD c f) then 10 else cvtD c f
    merged := (x.dst.map fun r => (r, cvtD c f)) ++ if mxWritesScale t p (cvtD c f) then [(pvc p, 10)] else []
    zero := x.dst
    tagged := x.dst ++ (if mxWritesScale t p (cvtD c f) then [pvc p] else []) }

/-- What a list of (register, value) pairs gives register `r`: the last one. -/
def regOf (ws : List (Nat × Word32)) (old : Word32) (r : Nat) : Word32 :=
  match ws.reverse.find? (fun x => x.1 == r) with
  | some x => x.2
  | none => old

/-- A shuffle: the data and the position in vb, the result with the data's tag (06 R189, 01 R26). -/
def shflForm (p : Option Pfx) (f : LR) (t : Team) : LaneForm :=
  { p := p, srcs := [(f.va.toNat, nregs f.wide, []), (f.vb.toNat, 1, [13])], dst := run f.vd.toNat (nregs f.wide),
    tag := fun _ => (t.tagOf f.va.toNat).toNat, even := pairOk f.wide f.vd && pairOk f.wide f.va, warn := pfxWarn p uses2 }

/-- `PSHW`: the data, the target in vb; the data received with its tag, and the conflict mask in the register after it (06
R190). -/
def pshwForm (p : Option Pfx) (f : LR) (t : Team) : LaneForm :=
  let n := nregs f.wide
  { p := p, srcs := [(f.va.toNat, n, []), (f.vb.toNat, 1, [])], dst := run f.vd.toNat (n + 1),
    tag := fun r => if r = f.vd.toNat + n then 13 else (t.tagOf f.va.toNat).toNat,
    even := f.vd.toNat % (2 * n) == 0 && pairOk f.wide f.va && t.inRange f.vd.toNat (2 * n), warn := pfxWarn p uses2 }

/-- `VOTE.eq`: a value and a mask of its bits (06 R191). -/
def voteEqForm (p : Option Pfx) (f : LR) : LaneForm :=
  { p := p, srcs := [(f.va.toNat, nregs f.wide, []), (f.vb.toNat, 1, [])], dst := [f.vd.toNat], tag := fun _ => 13,
    even := pairOk f.wide f.va, warn := pfxWarn p uses2 }

/-- `MOVX`: one element operand; no register of the lanes is written, and Z does not apply (05 R147). -/
def movxForm (p : Option Pfx) (f : LR) : LaneForm :=
  { p := p, srcs := [(f.va.toNat, nregs f.wide, [])], dst := [], tag := fun _ => 0, even := pairOk f.wide f.va,
    warn := pfxWarn p { uses1 with z := false } ||| wIf f.vd.msb wOPND }

/-- `TCRED`: FP32 or FP64 elements; the scalar pair is even (05 R161, 03 Table 3.6). -/
def tcredForm (p : Option Pfx) (f : LR) : LaneForm :=
  { p := p, srcs := [(f.va.toNat, nregs f.wide, [tagWide f.wide])], dst := [], tag := fun _ => 0,
    even := pairOk f.wide f.va && f.vd.toNat % 2 == 0,
    warn := pfxWarn p { uses1 with z := false } ||| wIf f.vd.msb wOPND }

/-- An activation: one register in, one out, FP32 or packed BF16 (05 R165). -/
def actForm (p : Option Pfx) (f : LR) : LaneForm :=
  { p := p, srcs := [(f.va.toNat, 1, [if f.wide then 3 else 1])], dst := [f.vd.toNat],
    tag := fun _ => if f.wide then 3 else 1, warn := pfxWarn p uses1 ||| wIf (f.vb != 0) wOPND }

/-- A shuffle takes the element of lane `q l`, with its tags. -/
def shflVal (f : LR) (t : Team) (q : Nat → Nat) (r l : Nat) : Word32 :=
  elemReg f.wide f.vd.toNat (t.v f.va.toNat (q l)) (t.v64 f.va.toNat (q l)) r

/-- `PSHW`'s registers in an acting lane: the data received, if any, and the conflict mask behind it. -/
def pshwVal (p : Option Pfx) (f : LR) (t : Team) (r l : Nat) : Word32 :=
  if r = f.vd.toNat + nregs f.wide then (pushed p t f.vb.toNat l).2
  else match (pushed p t f.vb.toNat l).1 with
    | some q => elemReg f.wide f.vd.toNat (t.v f.va.toNat q) (t.v64 f.va.toNat q) r
    | none => t.v r l

/-- What `CVT` computes in a lane: the elements, their exceptions, the generator after them. -/
def cvtOut (p : Option Pfx) (c : BitVec 3) (f : LR) (t : Team) (l : Nat) : List Nat × Fl × Word32 :=
  let sc := cvtS f
  let dc := cvtD c f
  convertAll (if cvtSteps sc dc then rmode t p else 0) (t.g l)
    (fun rnd x => cvtElem sc dc (cvtSat f && codeNarrow dc) (cvtU f) t.f16z rnd x) (t.elements sc f.va.toNat (cvtCount sc dc) l)

/-- What a special function gives in a lane: bits and exceptions (05 R162). -/
def specialOf (fn : SpecialFn) (f : LR) (t : Team) (l : Nat) : Nat × Fl :=
  specialFn (fmtWide f.wide) fn (t.fpElem f.wide f.va.toNat l)

/-- What an activation gives in a lane: FP32, or two packed BF16 elements (05 R165). -/
def actOf (fn : ActFn) (f : LR) (t : Team) (l : Nat) : Nat × Fl :=
  let x := (t.v f.va.toNat l).toNat
  if f.wide then
    let r0 := activation fmtBF16 t.f16z fn (x % 65536)
    let r1 := activation fmtBF16 t.f16z fn (x / 65536)
    (r0.1 + r1.1 * 65536, r0.2 ||| r1.2)
  else activation fmtF32 false fn x

/-! ### Lane accesses to memory (06 R167 to R201) -/

/-- The form with more fallbacks. -/
def LaneForm.plus (x : LaneForm) (w : Nat) : LaneForm := { x with warn := x.warn ||| w }

/-- A lane access passes its check phase: the acting lanes' addresses `a` are multiples of `n`, and the spans of `m` bytes
there are `sp`, each part under its key in `State.mem` (06 R167, R168). -/
structure State.Reaches (s : State) (p : Option Pfx) (a : Nat → Nat) (n m : Nat) (need : Need) (reads : Bool) (pol : Nat)
    (sp : List Span) : Prop where
  aligned : ∀ l ∈ s.team.actors p, a l % n = 0
  found : s.checkSpans (s.viaOf s.cur) ((s.team.actors p).map fun l => (a l, m)) need reads pol = .ok sp

/-- Some of the spans holds byte `a`. -/
def spansHave (sp : List Span) (a : Nat) : Prop := ∃ x ∈ sp, x.has a

/-- The machine after the spans of the acting lanes have been loaded, ascending, and what each lane loaded. -/
def State.loaded (s : State) (p : Option Pfx) (sp : List Span) : State × List (Nat × Nat) :=
  (s.fillSpans (s.viaOf s.cur) sp).loadLanes ((s.team.actors p).zip sp) (preuse p)

/-- The machine after the translations of the spans have been cached and, where one is asked for, a release at a scope. -/
def State.opened (s : State) (sp : List Span) (rel : Option Nat) : State :=
  let u := s.fillSpans (s.viaOf s.cur) sp
  match rel with
  | none => u
  | some sc => u.release u.cur sc

/-- The machine after an acquire at a scope, where one is asked for. -/
def State.closed (s : State) (acq : Option Nat) : State :=
  match acq with
  | none => s
  | some sc => s.acquire s.cur sc

/-- The bytes an access of the spans may store: theirs; and, where a stack cache is written back first, whatever that
holds (01 R37). -/
def State.mayStore (s : State) (sp : List Span) (flush : Bool) (a : Nat) : Prop :=
  spansHave sp a ∨ (flush = true ∧ s.team.stk ≠ [])

/-- What the bytes loaded make of a 32-bit or a 64-bit element's registers. -/
def loadedReg (wide : Bool) (d : Nat) (v : Nat) (r : Nat) : Word32 := elemReg wide d (BitVec.ofNat 32 v) (BitVec.ofNat 64 v) r

/-- `LD`: 32-bit elements or pairs; `vec` for a vector offset (06 R174). -/
def loadForm (p : Option Pfx) (f : LM) (vec wide : Bool) (tag : Nat) (u : Uses) : LaneForm :=
  { p := p, srcs := if vec then [(f.vo.toNat, 1, [])] else [], dst := run f.vd.toNat (nregs wide), tag := fun _ => tag,
    even := pairOk wide f.vd, warn := pfxWarn p u }

/-- `ST` (06 R174). -/
def storeForm (p : Option Pfx) (f : LM) (vec wide : Bool) (tag : Nat) (u : Uses) : LaneForm :=
  { p := p, srcs := (if vec then [(f.vo.toNat, 1, [])] else []) ++ [(f.vd.toNat, nregs wide, if tag = 0 then [] else [tag])],
    dst := [], tag := fun _ => 0, even := pairOk wide f.vd, warn := pfxWarn p u }

/-- `LDT` (06 R181). -/
def ldtForm (p : Option Pfx) (ty : BitVec 3) (f : LM) : LaneForm :=
  { p := p, srcs := [(f.vo.toNat, 1, [])], dst := [f.vd.toNat], tag := fun _ => ldtTag ty,
    warn := pfxWarn p { wa := true, os := true } }

/-- `ATOM`: the operand in vd, which receives the old value; a compare value in vc for `cas` (06 R182). -/
def atomForm (p : Option Pfx) (op ty : Nat) (f : LM) : LaneForm :=
  let wide := decide (2 ≤ ty)
  let cas := op == 7
  { p := p,
    srcs := [(f.vo.toNat, 1, []), (f.vd.toNat, nregs wide, [atomTag ty])] ++ (if cas then [(pvc p, nregs wide, [atomTag ty])] else []),
    dst := run f.vd.toNat (nregs wide), tag := fun _ => atomTag ty,
    even := pairOk wide f.vd && (!cas || !wide || pvc p % 2 == 0),
    warn := pfxWarn p { wa := true, wb := true, vc := cas, scope := true, os := true } }

/-- What an atomic of a lane makes of the old value. -/
def atomUpd (p : Option Pfx) (op ty : Nat) (f : LM) (t : Team) (l : Nat) (old : Word64) : Option Nat :=
  atomNew op ty old (BitVec.ofNat 64 (dataElem t (decide (2 ≤ ty)) f.vd.toNat l))
    (BitVec.ofNat 64 (dataElem t (decide (2 ≤ ty)) (pvc p) l))

/-- `LDB` and `LDW`: elements to vd, which is merged and zeroed as its tag says; scales to vs, which takes its tag where an
acting lane is the first of its block (06 R177). -/
def blockForm (p : Option Pfx) (f : LM) (b : BlockForm) (tag stag : Nat) (t : Team) : LaneForm :=
  let vs := f.vo.toNat
  { p := p, srcs := [], dst := [f.vd.toNat, vs], tag := fun r => if r = vs then stag else tag,
    even := f.vd.toNat != vs && f.sa.toNat % 2 == 0, zero := [f.vd.toNat]
    merged := (f.vd.toNat, tag) :: (if ((t.actors p).filter fun l => l % b.lanes == 0).isEmpty then [] else [(vs, stag)])
    tagged := f.vd.toNat :: (if ((t.actors p).filter fun l => l % b.lanes == 0).isEmpty then [] else [vs])
    warn := pfxWarn p { reuse := true } }

/-- What the spans of the acting blocks loaded, each found by its address and length. -/
def blockGot (p : Option Pfx) (f : LM) (b : BlockForm) (s : State) (sp : List Span) (a n : Nat) : Nat :=
  foundAt (b.spans s.team f (s.team.actors p))
    ((s.fillSpans (s.viaOf s.cur) sp).loadLanes ((List.range sp.length).zip sp) (preuse p)).2 a n

/-- The registers of an acting lane after a narrow-block load: its elements in vd, the block's scale put into vs where the
lane is the first of its block. -/
def blockReg (p : Option Pfx) (f : LM) (b : BlockForm) (elems : Nat → Nat → Nat → Nat) (scale : Nat → Nat → Nat) (s : State)
    (sp : List Span) (r l : Nat) : Word32 :=
  let q := blockGot p f b s sp (b.dataAt s.team f (l / b.lanes)) b.bytes
  let h := blockGot p f b s sp (b.headAt s.team f (l / b.lanes)) b.head
  if r = f.vd.toNat then BitVec.ofNat 32 (elems q h (l % b.lanes))
  else if l % b.lanes = 0 then BitVec.ofNat 32 (scale (s.team.v r l).toNat h) else s.team.v r l

/-- `FXACC` (06 R183). -/
def fxaccForm (p : Option Pfx) (f : LM) (wide : Bool) (kreg : Option Nat) : LaneForm :=
  { p := p,
    srcs := [(f.vo.toNat, 1, []), (f.vd.toNat, nregs wide, [tagWide wide])] ++ (scaleSrc kreg).map fun a => (a.reg, a.n, a.tags),
    dst := [], tag := fun _ => 0, even := pairOk wide f.vd,
    warn := pfxWarn p { z := false, wa := true, wb := true, vc := kreg.isSome, scope := true, os := true } }

/-- `FXRD` (06 R184). -/
def fxrdForm (p : Option Pfx) (f : LM) (wide : Bool) : LaneForm :=
  { p := p, srcs := [(f.vo.toNat, 1, [])], dst := run f.vd.toNat (nregs wide), tag := fun _ => tagWide wide,
    even := pairOk wide f.vd, warn := pfxWarn p { rnd := true, wa := true, scope := true, os := true } }

/-- What `FXRD` gives in a lane: bits and exceptions of the object's value rounded once, and the generator after it. -/
def fxrdOf (p : Option Pfx) (wide : Bool) (f : LM) (s : State) (sp : List Span) (l : Nat) : (Nat × Fl) × Word32 :=
  let xs := ((s.opened sp (if ordRel f.pol.toNat then some (pscope p) else none)).readObjects ((s.team.actors p).zip sp)).2
  roundElem (rmode s.team p) (s.team.g l) (fxrdElem (fmtWide wide) (valueOf xs l))

/-- `RWB`, `RINV`, `RDISC` (06 R185). -/
def rangeForm (p : Option Pfx) (f : LM) : LaneForm :=
  { p := p, srcs := [(f.vo.toNat, 1, []), (f.vd.toNat, 1, [13])], dst := [], tag := fun _ => 0,
    warn := pfxWarn p { z := false, wa := true, wb := true, scope := true, os := true } ||| wIf (f.pol != 0) wOPND }

/-- Byte `a` lies in a line that some part of a range operation finds, each part found in the machine the parts before it
left. -/
def State.rangeLines (s : State) (op : RangeOp) (scope : Nat) (ps : List (Nat × Nat)) (a : Nat) : Prop :=
  match ps with
  | [] => False
  | x :: r => (∃ pa scr, s.rangePage (s.viaOf s.cur) x.1 = .page pa scr ∧ a / 64 = pa / 64) ∨
      (s.rangePart op scope x.1 x.2).rangeLines op scope r a

/-- The parts of the acting lanes' ranges (06 R185). -/
def rangesOf (p : Option Pfx) (f : LM) (t : Team) : List (Nat × Nat) :=
  (t.actors p).flatMap fun l => rangeParts (addrVec p f t l) (t.v f.vd.toNat l).toNat

/-- The machine after a range operation on every part. -/
def State.ranged (s : State) (op : RangeOp) (p : Option Pfx) (f : LM) : State :=
  (rangesOf p f s.team).foldl (fun (s : State) x => s.rangePart op (pscope p) x.1 x.2) s

/-- A discard names a page without the scratch attribute (03 Table 3.15). -/
def State.rangeWarns (s : State) (op : RangeOp) (p : Option Pfx) (f : LM) : Bool :=
  op == .disc && ((rangesOf p f s.team).map fun x => (x, s.rangePage (s.viaOf s.cur) x.1)).any fun x => match x.2 with
    | .page _ scr => !scr
    | _ => false

/-- `DECODE` (06 R192). -/
def decodeForm (p : Option Pfx) (f : LM) : LaneForm :=
  { p := p, srcs := [], dst := [f.vd.toNat], tag := fun _ => 0,
    warn := pfxWarn p {} ||| wIf (f.pol != 0 || f.vo.getLsbD 0) wOPND }

/-- `VSAMP` (06 R197). -/
def vsampForm (p : Option Pfx) (f : LM) : LaneForm :=
  { p := p, srcs := [(f.vo.toNat, 3, [1])], dst := [f.vd.toNat], tag := fun _ => 1,
    warn := pfxWarn p { wa := true, reuse := true } }

/-- The volume descriptor as a `VSAMP` loads it from its checked span (06 R197). -/
def volumeAt (p : Option Pfx) (s : State) (dsp : List Span) : State × Volume :=
  let r := (s.fillSpans (s.viaOf s.cur) dsp).loadSpan s.cur dsp.flatten (preuse p)
  (r.1, volumeOf (leNat r.2))

/-- The corners every acting lane samples, with their weights. -/
def Volume.plan (v : Volume) (p : Option Pfx) (tri : Bool) (f : LM) (t : Team) : List (Nat × Nat) :=
  (t.actors p).flatMap fun l => byAddress (v.laneCorners tri t f.vo.toNat l)

/-- The corners' voxels loaded: the machine after, and the values by address. -/
def Volume.voxels (v : Volume) (p : Option Pfx) (tri : Bool) (f : LM) (s : State) (t : Team) (sp : List Span) :
    State × List (Nat × Nat) :=
  (s.fillSpans (s.viaOf s.cur) sp).loadLanes (((v.plan p tri f t).map (·.1)).zip sp) (preuse p)

/-- What `RBOX` gives in a lane: the entry and exit distances, and the exceptions (06 R201). -/
def rboxOf (p : Option Pfx) (f : LM) (s : State) (sp : List Span) (l : Nat) : (Nat × Nat) × Fl :=
  rayBox (boxWords (valueOf (s.loaded p sp).2 l)) ((List.range 6).map fun i => (s.team.v (f.vo.toNat + i) l).toNat)

/-- The address of a lane's box: one for all, or by the index in vd (06 R200). -/
def rboxAddr (f : LM) (idx : Bool) (t : Team) (l : Nat) : Nat :=
  (t.s f.sa + BitVec.ofNat 64 (if idx then 32 * (t.v f.vd.toNat l).toNat else 0)).toNat

/-- `RBOX` (06 R200). -/
def rboxForm (p : Option Pfx) (f : LM) (idx : Bool) : LaneForm :=
  let d := f.vd.toNat
  { p := p, srcs := (f.vo.toNat, 6, [1]) :: (if idx then [(d, 1, [13])] else []), dst := run d 2, tag := fun _ => 1,
    even := d % 2 == 0, merged := if idx then [(d + 1, 1)] else tagRun d 2 1, warn := pfxWarn p { wa := true, wb := idx, reuse := true } }

/-! ### What an instruction of each shape does: the statements name the operation -/

/-- Elements of one integer type in and out: `op` of each lane's two elements (05 R142). -/
def IntDone (i : Option Pfx → LR → Instr) (op : (w : Nat) → BitVec w → BitVec w → BitVec w) : Prop :=
  ∀ (p : Option Pfx) (f : LR) (s : State),
    let x := twoForm p f [intTag f.wide] (intTag f.wide)
    let t := s.team
    x.Ready t → x.Done s (fun r l => elemReg f.wide f.vd.toNat (op 32 (t.v f.va.toNat l) (t.v f.vb.toNat l))
      (op 64 (t.v64 f.va.toNat l) (t.v64 f.vb.toNat l)) r) (exec (i p f) s)

/-- Packed 16-bit elements, or 8-bit ones with W = 1, element by element (05 R142). -/
def PackedDone (i : Option Pfx → LR → Instr) (op : (w : Nat) → BitVec w → BitVec w → BitVec w) : Prop :=
  ∀ (p : Option Pfx) (f : LR) (s : State),
    let x := packedForm p f (if f.wide then 11 else 12)
    let t := s.team
    x.Ready t → x.Done s (fun _ l => if f.wide then packed8 (op 8) (t.v f.va.toNat l) (t.v f.vb.toNat l)
      else packed16 (op 16) (t.v f.va.toNat l) (t.v f.vb.toNat l)) (exec (i p f) s)

/-- Bitwise work on elements of every tag, tagged RAW (05 R143). -/
def BitsDone (i : Option Pfx → LR → Instr) (op : (w : Nat) → BitVec w → BitVec w → BitVec w) : Prop :=
  ∀ (p : Option Pfx) (f : LR) (s : State),
    let x := twoForm p f [] 0
    let t := s.team
    x.Ready t → x.Done s (fun r l => elemReg f.wide f.vd.toNat (op 32 (t.v f.va.toNat l) (t.v f.vb.toNat l))
      (op 64 (t.v64 f.va.toNat l) (t.v64 f.vb.toNat l)) r) (exec (i p f) s)

/-- One element in and one out; `typed` where it is an integer, otherwise every tag is taken and RAW set (05 R144). -/
def UnaryDone (i : Option Pfx → LR → Instr) (typed : Bool) (op : (w : Nat) → BitVec w → BitVec w) : Prop :=
  ∀ (p : Option Pfx) (f : LR) (s : State),
    let x := oneForm p f (if typed then [intTag f.wide] else []) (if typed then intTag f.wide else 0)
    let t := s.team
    x.Ready t → x.Done s (fun r l => elemReg f.wide f.vd.toNat (op 32 (t.v f.va.toNat l)) (op 64 (t.v64 f.va.toNat l)) r)
      (exec (i p f) s)

/-- A count of an integer element's bits, in one register tagged I32 (05 R144). -/
def CountDone (i : Option Pfx → LR → Instr) (op : (w : Nat) → BitVec w → Nat) : Prop :=
  ∀ (p : Option Pfx) (f : LR) (s : State),
    let x := countForm p f [intTag f.wide]
    let t := s.team
    x.Ready t → x.Done s (fun _ l => BitVec.ofNat 32 (if f.wide then op 64 (t.v64 f.va.toNat l) else op 32 (t.v f.va.toNat l)))
      (exec (i p f) s)

/-- A compare of integers: 1 or 0 in one register tagged I32 (05 R145). -/
def CompareDone (i : Option Pfx → LR → Instr) (test : (w : Nat) → BitVec w → BitVec w → Bool) : Prop :=
  ∀ (p : Option Pfx) (f : LR) (s : State),
    let x := compareForm p f [intTag f.wide]
    let t := s.team
    x.Ready t → x.Done s (fun _ l => flag32 (if f.wide then test 64 (t.v64 f.va.toNat l) (t.v64 f.vb.toNat l)
      else test 32 (t.v f.va.toNat l) (t.v f.vb.toNat l))) (exec (i p f) s)

/-- A 32-bit element and an immediate: tagged I32 where `typed`, RAW otherwise; `warn` its own fallbacks (05 R146). -/
def ImmDone (i : Option Pfx → LI → Instr) (typed : Bool) (warn : LI → Nat) (op : LI → Word32 → Word32) : Prop :=
  ∀ (p : Option Pfx) (f : LI) (s : State),
    let x := immForm p f (if typed then [13] else []) (if typed then 13 else 0) (warn f)
    x.Ready s.team → x.Done s (fun _ l => op f (s.team.v f.va.toNat l)) (exec (i p f) s)

/-- What a floating-point compare gives in a lane: `un` where an operand is a NaN, else `test` of the order (negative, 0 or
positive); NV for a signalling NaN, and for a quiet one unless `quiet` (05 R151). -/
def fcmpOf (test : Int → Bool) (un quiet : Bool) (f : LR) (t : Team) (l : Nat) : Bool × Fl :=
  let a := (fmtWide f.wide).unpack (t.fpElem f.wide f.va.toNat l)
  let b := (fmtWide f.wide).unpack (t.fpElem f.wide f.vb.toNat l)
  match fvCmp a b with
  | none => (un, if !quiet || a.snan || b.snan then fNV else 0)
  | some c => (test c, 0)

/-- A floating-point compare completes (05 R151). -/
def FcmpDone (i : Option Pfx → LR → Instr) (test : Int → Bool) (un quiet : Bool) : Prop :=
  ∀ (p : Option Pfx) (f : LR) (s : State),
    let x := compareForm p f [tagWide f.wide]
    let res := fcmpOf test un quiet f s.team
    x.Ready s.team → (x.Quiet s.team fun l => (res l).2) →
    x.DoneFp s (fun _ l => flag32 (res l).1) (fun l => (res l).2) s.team.g (exec (i p f) s)

/-- An error-pair operation completes (05 R156, R157). -/
def ErrPairDone (i : Option Pfx → LR → Instr) (op : Fmt → FV → FV → HiLo × Fl) : Prop :=
  ∀ (p : Option Pfx) (f : LR) (s : State),
    let x := errForm p f
    let get := fun (r : BitVec 7) l => (fmtWide f.wide).unpack (s.team.fpElem f.wide r.toNat l)
    let res := fun l => op (fmtWide f.wide) (get f.va l) (get f.vb l)
    x.Ready s.team → (x.Quiet s.team fun l => (res l).2) →
    x.DoneFp s (fun r l => dwReg f.wide f.vd.toNat (res l).1 r) (fun l => (res l).2) s.team.g (exec (i p f) s)

/-- A double-word operation of `n` operands completes (05 R158, R159). -/
def DwDone (i : Option Pfx → LR → Instr) (op : DwOp) (n : Nat) : Prop :=
  ∀ (p : Option Pfx) (f : LR) (s : State),
    let x := dwForm p f n
    let t := s.team
    let res := fun l => dword (fmtWide f.wide) op (t.dwElem f.wide f.va.toNat l) (t.dwElem f.wide f.vb.toNat l)
      (t.dwElem f.wide (accReg p f) l)
    x.Ready t → (x.Quiet t fun l => (res l).2) →
    x.DoneFp s (fun r l => dwReg f.wide f.vd.toNat (res l).1 r) (fun l => (res l).2) t.g (exec (i p f) s)

/-- A special function issues; its rows land later (05 R162). -/
def SpecialDone (i : Option Pfx → LR → Instr) (fn : SpecialFn) : Prop :=
  ∀ (p : Option Pfx) (f : LR) (s : State),
    let x := oneForm p f [tagWide f.wide] (tagWide f.wide)
    let res := specialOf fn f s.team
    x.Ready s.team → (x.Quiet s.team fun l => (res l).2) →
    x.Issued s (fun r l => elemReg f.wide f.vd.toNat (BitVec.ofNat 32 (res l).1) (BitVec.ofNat 64 (res l).1) r)
      (fun l => (res l).2) s.team.g (exec (i p f) s)

/-- An activation issues; its rows land later (05 R165). -/
def ActDone (i : Option Pfx → LR → Instr) (fn : ActFn) : Prop :=
  ∀ (p : Option Pfx) (f : LR) (s : State),
    let x := actForm p f
    let res := actOf fn f s.team
    x.Ready s.team → (x.Quiet s.team fun l => (res l).2) →
    x.Issued s (fun _ l => BitVec.ofNat 32 (res l).1) (fun l => (res l).2) s.team.g (exec (i p f) s)

/-- `TILE` names a size it may hold: 2, 4, 8, 16 or 32 lanes (01 R28). -/
def Team.tileOk (t : Team) : Prop := 1 ≤ field t.tile 0 3 ∧ field t.tile 0 3 ≤ 5

/-- A shuffle: each acting lane takes the element of the lane `src` names (06 R189). -/
def ShflDone (i : Option Pfx → LR → Instr) (src : LR → Team → Nat → Nat) : Prop :=
  ∀ (p : Option Pfx) (f : LR) (s : State),
    let x := shflForm p f s.team
    s.team.tileOk → x.Ready s.team → x.Done s (shflVal f s.team (src f s.team)) (exec (i p f) s)

/-- A vote: one register, from the acting lanes of the tile (06 R191). -/
def VoteDone (i : Option Pfx → LR → Instr) (val : Option Pfx → LR → Team → Nat → Word32) : Prop :=
  ∀ (p : Option Pfx) (f : LR) (s : State),
    let x := countForm p f []
    s.team.tileOk → x.Ready s.team → x.Done s (fun _ l => val p f s.team l) (exec (i p f) s)

/-! ### Assigned encodings (03 Tables 3.5, 3.8 and 3.13) -/

/-- The sub or type values that 03 Table 3.5 assigns in a major of the lane set, one bit for each value. -/
def laneSubs (major : Nat) : Nat :=
  if 0x01 ≤ major ∧ major ≤ 0x05 then 0b11111111
  else if major = 0x06 ∨ major = 0x07 ∨ major = 0x09 ∨ major = 0x18 then 0b01111111
  else if major = 0x08 ∨ (0x10 ≤ major ∧ major ≤ 0x13) ∨ major = 0x16 ∨ major = 0x17 ∨ major = 0x19 then 0b11111111
  else if major = 0x14 then 0b00111111
  else if major = 0x15 then 0b00011111
  else if 0x20 ≤ major ∧ major ≤ 0x27 then (if major % 2 = 0 then 0b00111111 else 0b01111111)
  else if major = 0x28 ∨ major = 0x29 ∨ major = 0x2A then 0b00111111
  else if major = 0x2B then 0b01110111
  else if major = 0x2C then 0b01111111
  else if 0x2D ≤ major ∧ major ≤ 0x30 then 0b11111111
  else if major = 0x31 then 0b00110111
  else if major = 0x32 then 0b00000111
  else if major = 0x33 then 0b00000001
  else if major = 0x34 ∨ major = 0x35 then 0b00000011
  else 0

/-- The same of the uniform set, by 03 Table 3.8. -/
def uniformSubs (major : Nat) : Nat :=
  if major = 0x01 ∨ major = 0x03 ∨ major = 0x04 then 0b11111111
  else if major = 0x02 then 0b01111111
  else if major = 0x05 then 0b00001111
  else if major = 0x06 then 0b00111111
  else if major = 0x07 ∨ major = 0x27 then 0b00000011
  else if 0x08 ≤ major ∧ major ≤ 0x0A then 0b11111111
  else if major = 0x10 then 0b00011111
  else if major = 0x11 ∨ major = 0x19 then 0b00001111
  else if major = 0x12 ∨ major = 0x13 ∨ major = 0x15 ∨ major = 0x16 ∨ major = 0x18 then 0b00000001
  else if major = 0x14 then 0b01111111
  else if major = 0x17 ∨ major = 0x20 ∨ major = 0x21 then 0b11111111
  else if major = 0x22 ∨ major = 0x23 then 0b00000001
  else if 0x24 ≤ major ∧ major ≤ 0x26 then 0b11111111
  else if major = 0x28 then 0b00111111
  else 0

/-- Is a word that is no prefix assigned: its major and sub, the operation [9:7] of a `CPYMG` (0 to 4), the target [9:8] of a
`PREF` (0 or 1)? -/
def assigned (w : Word32) : Bool :=
  let major := (w.extractLsb' 25 6).toNat
  let sub := (w.extractLsb' 22 3).toNat
  if w.getLsbD 31 = false then (laneSubs major).testBit sub
  else (uniformSubs major).testBit sub && (major != 0x25 || decide ((w.extractLsb' 7 3).toNat < 5)) &&
    (major != 0x28 || sub != 4 || decide ((w.extractLsb' 8 2).toNat < 2))

/-! ### Lane accesses that update memory -/

/-- A lane atomic issues: its words are updated at their homes, ascending, and the old values are due in vd (06 R182). -/
def AtomIssues (p : Option Pfx) (op ty : Nat) (f : LM) (s : State) (sp : List Span) (out : Out) : Prop :=
  let x := atomForm p op ty f
  let wide := decide (2 ≤ ty)
  let scope := fun (c : Bool) => if c then some (pscope p) else none
  let r := (s.opened sp (scope (ordRel f.pol.toNat))).rmwLanes ((s.team.actors p).zip sp) (laneBytes wide) (atomUpd p op ty f s.team)
  let s1 := r.1.closed (scope (ordAcq f.pol.toNat))
  x.Ready s.team → s.Reaches p (addrVec p f s.team) (laneBytes wide) (laneBytes wide) (needR ||| needW) true polWt sp →
  Stored (s.mayStore sp true) s s1 ∧
  x.Issued s1 (fun q l => loadedReg wide f.vd.toNat (valueOf r.2 l) q) (fun _ => 0) s.team.g out

/-- The lane atomics of type `ty`. -/
def AtomDone (i : Option Pfx → BitVec 3 → LM → Instr) (ty : Nat) : Prop :=
  ∀ (p : Option Pfx) (op : BitVec 3) (f : LM) (s : State) (sp : List Span), (i p op f).wf = true →
    AtomIssues p op.toNat ty f s sp (exec (i p op f) s)

/-- An accumulate is performed: each acting lane's addend at its object, ascending (06 R183). -/
def AccumDone (p : Option Pfx) (f : LM) (wide : Bool) (kreg : Option Nat) (s : State) (sp : List Span) (out : Out) : Prop :=
  let x := fxaccForm p f wide kreg
  let scope := fun (c : Bool) => if c then some (pscope p) else none
  let s1 := ((s.opened sp (scope (ordRel f.pol.toNat))).accumulate ((s.team.actors p).zip sp)
    (addendOf f wide kreg s.team)).closed (scope (ordAcq f.pol.toNat))
  x.Ready s.team → s.Reaches p (addrVec p f s.team) 64 64 (needR ||| needW) true polOp sp →
  (∀ k ∈ s.objects sp, objKind k = 2 ∨ (objKind k = 1 ∧ wide = false)) →
  Stored (s.mayStore sp true) s s1 ∧ x.Done s1 (fun _ _ => 0) out

/-- A range operation (06 R185). -/
def RangeDone (i : Option Pfx → LM → Instr) (op : RangeOp) : Prop :=
  ∀ (p : Option Pfx) (f : LM) (s : State), (rangeForm p f).Ready s.team →
    (∀ x ∈ rangesOf p f s.team, s.rangePage (s.viaOf s.cur) x.1 ≠ .wait) →
    s.rangeStop s.cur (rangesOf p f s.team) = none →
    Stored (fun a => s.rangeLines op (pscope p) (rangesOf p f s.team) a ∨ s.team.stk ≠ []) s (s.ranged op p f) ∧
    ((rangeForm p f).plus (wIf (s.rangeWarns op p f) wDISC)).Done (s.ranged op p f) (fun _ _ => 0) (exec (i p f) s)

/-- A volume sample: with acting lanes, their samples; with none, nothing is loaded (06 R197, R198). -/
def VsampDone (i : Option Pfx → LM → Instr) (tri : Bool) : Prop :=
  ∀ (p : Option Pfx) (f : LM) (s : State), (vsampForm p f).Ready s.team →
    (s.team.actors p = [] → ∀ val, (vsampForm p f).Issued s val (fun _ => 0) s.team.g (exec (i p f) s)) ∧
    ∀ (dsp sp : List Span) (u : State) (vol : Volume),
      let out := vol.sample tri s.team f.vo.toNat (valueOf (vol.voxels p tri f u s.team sp).2)
      s.team.actors p ≠ [] → (s.team.s f.sa).toNat % 32 = 0 →
      s.checkSpans (s.viaOf s.cur) [((s.team.s f.sa).toNat, 32)] needR true f.pol.toNat = .ok dsp →
      volumeAt p s dsp = (u, vol) → vol.bmode ≠ 3 → (vol.base % 4 = 0 ∧ vol.pitchY % 4 = 0 ∧ vol.pitchZ % 4 = 0) →
      u.checkSpans (s.viaOf s.cur) ((vol.plan p tri f s.team).map fun c => (c.1, 4)) needR true f.pol.toNat = .ok sp →
      ((vsampForm p f).Quiet s.team fun l => (out l).2) →
      ∃ s1, Accessed (fun _ => False) s s1 ∧ ((vsampForm p f).plus (spanWarn (dsp ++ sp) f.pol.toNat)).Issued s1
        (fun _ l => BitVec.ofNat 32 (out l).1) (fun l => (out l).2) s.team.g (exec (i p f) s)

/-- A box test (06 R200, R201). -/
def RboxDone (i : Option Pfx → LM → Instr) (idx : Bool) : Prop :=
  ∀ (p : Option Pfx) (f : LM) (s : State) (sp : List Span),
    let x := rboxForm p f idx
    let out := rboxOf p f s sp
    x.Ready s.team → s.Reaches p (rboxAddr f idx s.team) 32 32 needR true f.pol.toNat sp → (x.Quiet s.team fun l => (out l).2) →
    ∃ s1, Accessed (fun _ => False) s s1 ∧ (x.plus (spanWarn sp f.pol.toNat)).Issued s1
      (fun r l => BitVec.ofNat 32 (if r = f.vd.toNat then (out l).1.1 else (out l).1.2)) (fun l => (out l).2) s.team.g
      (exec (i p f) s)

/-! ### Uniform instructions (04 R89 to R131) -/

/-- A team executes: the issue record names one of the device's teams. -/
def State.runs (s : State) : Prop := s.cur < s.teams.length

/-- The executing team replaced by `t` at another PC, its instruction retired: the fallbacks added to `IWARN`, nothing of it
waiting any more. -/
def State.moved (s : State) (t : Team) (pc : BitVec 64) (warn : Nat) : State :=
  s.withTeam { t.setPc pc with
    iwarn := t.iwarn ||| BitVec.ofNat 64 warn, wait := .none, arr := false, prow := none }

/-- The same past the instruction's four bytes. -/
def State.past (s : State) (t : Team) (warn : Nat) : State := s.moved t (t.pc + 4) warn

/-- Register r may take v: s63 stays at or above the spill pointer (01 R36). -/
def Team.keeps (t : Team) (r : BitVec 6) (v : Word64) : Prop := r = 63 → t.spPtr.toNat ≤ v.toNat

/-- A scalar result: written, and the PC past the instruction; or the stack-limit trap with no other effect (01 R36). -/
def ScalarResult (s : State) (r : BitVec 6) (v : Word64) (warn : Nat) (out : Out) : Prop :=
  (s.team.keeps r v → out = .next (s.past (s.team.setS r v) warn)) ∧
  (¬ s.team.keeps r v → out = .next (s.trap .stackLimit 0))

/-- A register form: sd takes `op` of s[sa] and s[sb] (04 R95). -/
def ScalarDone (i : UR → Instr) (op : Word64 → Word64 → Word64) : Prop :=
  ∀ (f : UR) (s : State), ScalarResult s f.sd (op (s.team.s f.sa) (s.team.s f.sb)) (wIf (f.aux != 0) wOPND) (exec (i f) s)

/-- An immediate form: sd takes `op` of itself and imm16; `shift` says that bits [15:6] are must-be-zero (04 R96). -/
def ScalarImmDone (i : UI → Instr) (shift : Bool) (op : BitVec 16 → Word64 → Word64) : Prop :=
  ∀ (f : UI) (s : State), ScalarResult s f.sd (op f.imm (s.team.s f.sd)) (wIf (shift && decide (64 ≤ f.imm.toNat)) wOPND)
    (exec (i f) s)

/-- A unary form: sd takes `op` of s[sa] (04 R97). -/
def ScalarUnaryDone (i : UR → Instr) (op : Word64 → Word64) : Prop :=
  ∀ (f : UR) (s : State), ScalarResult s f.sd (op (s.team.s f.sa)) (wIf (f.sb != 0 || f.aux != 0) wOPND) (exec (i f) s)

/-- A branch: to its target where the condition holds, else past its word (04 R107). -/
def BranchDone (i : UB → Instr) (warn : UB → Nat) (taken : UB → Team → Bool) : Prop :=
  ∀ (f : UB) (s : State),
    exec (i f) s = .next (s.moved s.team
      (if taken f s.team then s.team.pc + 4 * f.off.signExtend 64 else s.team.pc + 4) (warn f))

/-- A mask instruction: kd takes `op`, with the fallback of a write to k0 (04 R119). -/
def MaskDone (i : UR → Instr) (fields : UR → Bool) (op : UR → Team → Mask) : Prop :=
  ∀ (f : UR) (s : State), (fields f = true →
    exec (i f) s = .next (s.past (s.team.setK f.sd.toNat (op f s.team)) (wIf (f.sd == 0) wKZERO))) ∧
  (fields f = false → exec (i f) s = .next (s.trap .operand 0))

/-- A scalar atomic (04 R100): its word updated at the home, the old value to sd. -/
def ScalarAtomDone (i : UR → Instr) (op : Nat) : Prop :=
  ∀ (f : UR) (s : State) (sp : List Span),
    let ty := (f.aux.extractLsb' 0 2).toNat
    let ord := (f.aux.extractLsb' 2 2).toNat
    let n := atomBytes ty
    let a := (s.team.s f.sa).toNat
    let scope := fun (c : Bool) => if c then some (f.sb.extractLsb' 3 3).toNat else none
    let r := (s.opened sp (scope (ordRel ord))).rmw s.cur (Span.first sp.flatten) n fun old =>
      atomNew op ty old (s.team.s f.sd) (s.team.s (f.sd ||| 1))
    let after := r.1.closed (scope (ordAcq ord))
    (i f).wf = true → (op = 7 → f.sd.toNat % 2 = 0) →
    (a % n ≠ 0 → exec (i f) s = .next (s.trap .align 0)) ∧
    (a % n = 0 → s.checkSpans (s.viaOf s.cur) [(a, n)] (needR ||| needW) true polWt = .ok sp →
      s.team.keeps f.sd (atomExtend ty r.2) →
      Stored (s.mayStore sp true) s after ∧
      exec (i f) s = .next (after.past (after.team.setS f.sd (atomExtend ty r.2)) (wIf (f.sb.extractLsb' 0 3 != 0) wOPND)))

/-! ### Matrix drains (07 R216) -/

/-- The exceptions of a drain's elements. -/
def drainRaised (f : UE) (t : Team) : Fl := (drainAll f t (t.acc (mdSet f))).fl.foldl (fun a x => a ||| x.2) 0

/-- The machine after a drain with no trap: past the instruction, the set EMPTY, `MBOUND` its bound, a row due for each
register and row of the group, those rows empty, the tags of the group its format, an event for each row; nothing else
changed but the generators, `FLAGS`, `IWARN` and who holds the array. -/
def State.drainsTo (s : State) (f : UE) (u : State) : Prop :=
  let t := s.team
  let set := mdSet f
  let y := drainAll f t (t.acc set)
  let group := run (mdD f) (fragRegs (ofmtWidth (mdOfmt f)) t.lanes)
  ∃ t' empty tag gen, u = { s.withTeam t' with
      events := s.events ++ List.replicate (drainRows f t y).length ⟨.producerRowFull, { a := s.cur }⟩ } ∧
    t' = { (t.setAcc set emptySet).setPc (t.pc + 4) with
      prods := t.prods ++ drainRows f t y, mbound := (t.acc set).bound
      holder := (t.acc (1 - set)).active || !t.matq.isEmpty, empty := empty, tag := tag, gen := gen
      flags := t.flags ||| (drainRaised f t).setWidth 64
      iwarn := t.iwarn ||| BitVec.ofNat 64 (wIf (!mdPair f && f.sa != 0 || f.eng.extractLsb' 0 2 != 0) wOPND)
      wait := .none, arr := false, prow := none, exc := 0, excFlags := 0 } ∧
    (∀ r w, w < 32 → t'.rowEmpty r w = if r ∈ group ∧ w ∈ t.rows then true else t.rowEmpty r w) ∧
    (∀ r, t'.tagOf r = if r ∈ group then BitVec.ofNat 4 (ofmtTag (mdOfmt f)) else t.tagOf r) ∧
    (mdMode f t ≠ 5 → t'.gen = t.gen)

/-! ### Copy commands (07 R219 to R225) -/

/-- A copy command queued: its completion is due. -/
def State.queued (s : State) (c : Copy) : State :=
  { s with copies := s.copies ++ [c], nextCopy := s.nextCopy + 1, events := s.events ++ [⟨.copyCommandComplete, { a := c.id }⟩] }

/-- A multigrid transfer (13 R331, R332): its descriptor, grids and weights are read in order after a release at die scope,
each aligned, and with sizes that agree the command is queued with what was read; with others the illegal-operand trap. -/
def MgDone (i : BitVec 3 → UE7 → Instr) (op : Nat) : Prop :=
  ∀ (sc : BitVec 3) (f : UE7) (s s1 s2 s3 s4 : State) (d xs xd xw : Nat),
    let acq := f.eng.getLsbD 1
    let rel := f.eng.getLsbD 0
    let bnd := (f.eng.extractLsb' 5 2).toNat
    let rnd := (f.eng.extractLsb' 2 3).toNat
    let da := (s.team.s f.sa).toNat
    let sg := bitsAt d 0 57
    let dg := bitsAt d 64 57
    let wt := bitsAt d 128 57
    let weighted := op = 1 ∨ op = 2 ∨ op = 3
    let warn := wIf (!acq && !rel && sc != 0) wSCOPE ||| wIf (f.sd != 0) wOPND
    (i sc f).wf = true →
    (da % 64 ≠ 0 → exec (i sc f) s = .next (s.trap .align 0)) ∧
    (da % 64 = 0 → (s.release s.cur 2).readBlock da 64 (needR ||| needW) = .ok (s1, d) →
      ((sg % 32 ≠ 0 ∨ dg % 32 ≠ 0 ∨ (weighted ∧ wt % 64 ≠ 0)) → exec (i sc f) s = .next (s1.trap .align 0)) ∧
      (sg % 32 = 0 → dg % 32 = 0 → (weighted → wt % 64 = 0) →
        s1.readBlock sg 32 needR = .ok (s2, xs) → s2.readBlock dg 32 needR = .ok (s3, xd) →
        (weighted ∧ wt ≠ 0 → s3.readBlock wt 512 needR = .ok (s4, xw)) → (¬ (weighted ∧ wt ≠ 0) → s4 = s3) →
        ((gridOf xs).fmt < 4 → (gridOf xs).aligned = true) → ((gridOf xd).fmt < 4 → (gridOf xd).aligned = true) →
        Stored (fun _ => s.team.stk ≠ []) s s4 ∧
        (mgShapeOk op bnd d (gridOf xs) (gridOf xd) = false → exec (i sc f) s = .next (s4.trap .operand 0)) ∧
        (mgShapeOk op bnd d (gridOf xs) (gridOf xd) = true →
          exec (i sc f) s = .next ((s4.queued { s4.newCopy (.mg op bnd (if rnd = 6 then s4.team.rm else rnd)) acq rel sc with
            src := BitVec.ofNat 64 da, desc := BitVec.ofNat 512 d, grids := BitVec.ofNat 512 (xs + xd * 2 ^ 256),
            weights := if weighted ∧ wt ≠ 0 then weightsOf xw else standardWeights }).past s4.team warn))))

/-! ### Directory entries (11 R283, R289) -/

/-- The slots of an entry are sound: their words are apart, a slot without an owner holds none, and no agent has both. -/
def DirEntry.sound (e : DirEntry) : Prop :=
  e.m0 &&& e.m1 = 0 ∧ (e.o0 = none → e.m0 = 0) ∧ (e.o1 = none → e.m1 = 0) ∧ (e.o0 = e.o1 → e.o0 = none)

end Sys2Proof.Machine
end

