-- ==== Sys2Proof/Certificates/Slice0/Obligations.lean ====
section
/-! DEFINITION. The statements for the provers: one Prop each. -/

open Sys2Proof Sys2Proof.Machine

/-- For every well-formed instruction that has words, with every operand at every value its fields can hold, the decoder
reads from its bytes, whatever bytes follow, that instruction and the number of its bytes. (03 R68; 03 R72; 03 Table
3.1; 03 Table 3.5; 03 Table 3.8) -/
def Obligations.DecodeOfEncode : Prop :=
  ∀ (i : Instr) (rest : List Byte), i.wf = true → encode i ≠ [] →
    decodeBytes (encodeBytes i ++ rest) = .ok (i, (encodeBytes i).length)

/-- No two words of an instruction with operand fields decode to one instruction: where the decoder reads an instruction
of 8 bytes, its encoding is the prefix word and the lane word read; where it reads one of 4 bytes, its encoding is the
word read, but that each of the sixteen constructors without operands (the fields of their words stand in the issue
record) gives the word with its low 22 bits clear. (03 R68; 03 R72; 03 Table 3.1; 03 Table 3.8) -/
def Obligations.EncodeOfDecode : Prop :=
  ∀ (w0 w1 : Word32) (i : Instr) (n : Nat), decodeWords w0 w1 = .ok (i, n) →
    (n = 8 ∧ encode i = [w0, w1]) ∨ (n = 4 ∧ encode i = [if i ∈ ([.ret, .callr, .jmpr, .join, .endTeam, .yield, .rft, .trapCode, .callv, .bar, .cbar, .dbar,
      .mzero, .cpyclose, .cpywait, .pack] : List Instr) then w0 &&& 0xFFC00000 else w0])

/-- A prefix whose next word is a prefix or has set 1 decodes to the refusal of check 1; with any other next word the
instruction has 8 bytes and its encoding is the two words, so that its prefix fields are those of the first; a word
that is no prefix makes an instruction of 4 bytes whatever follows it. (03 R72; 03 R84) -/
def Obligations.PrefixBindsLaneWord : Prop :=
  (∀ w0 w1 : Word32, isPrefix w0 = true → (isPrefix w1 = true ∨ setOf w1 = 1) → decodeWords w0 w1 = .error .prefixNotBound) ∧
  (∀ (w0 w1 : Word32) (i : Instr) (n : Nat), decodeWords w0 w1 = .ok (i, n) →
    (isPrefix w0 = true → n = 8 ∧ encode i = [w0, w1]) ∧ (isPrefix w0 = false → n = 4)) ∧
  (∀ w0 w1 w2 : Word32, isPrefix w0 = false → decodeWords w0 w1 = decodeWords w0 w2)

/-- A word that is no prefix decodes to an instruction when the tables assign its set, major and sub (and, for CPYMG and
PREF, its operation or target), and is refused otherwise: a reserved encoding falls through to no neighbour. (03 Table
3.5; 03 Table 3.8; 03 Table 3.13; 03 R84) -/
def Obligations.AssignedEncodings : Prop :=
  ∀ (p : Option Pfx) (w : Word32), isPrefix w = false →
    ((∃ i, decodeWord p w = .ok i) ↔ assigned w = true)

/-- One word of each of several families, written out bit by bit from the tables, decodes to the instruction it stands
for. (03 Table 3.1; 03 Table 3.2; 03 Table 3.5; 03 Table 3.8) -/
def Obligations.DecodedWords : Prop :=
  decodeWords (0b0_000001_000_0000011_0000001_0000010_0) 0 = .ok (.addI32 none ⟨3, 1, 2, 0⟩, 4) ∧
  decodeWords (0b0_111111_0010_1_001_0001000_1_0_010_000_11) (0b0_010000_011_0000100_0000110_0001010_1) =
    .ok (.fma (some ⟨2, 1, 1, 8, 1, 0, 2, 0, 3⟩) ⟨4, 6, 10, 1⟩, 8) ∧
  decodeWords (0b0_100000_000_0000101_001001_0000111_10) 0 = .ok (.ld none 0 ⟨5, 9, 7, 2⟩, 4) ∧
  decodeWords (0b1_000001_000_000111_000101_000110_0000) 0 = .ok (.scalarAdd ⟨7, 5, 6, 0⟩, 4) ∧
  decodeWords (0b1_010000_000_0000_111111111111111110) 0 = .ok (.bra ⟨0, 0x3FFFE⟩, 4) ∧
  decodeWords (0b1_010100_011_0000000000000000000000) 0 = .ok (.join, 4)

/-- Where it executes normally, each of the sixteen integer operations on i32, n32, i64 and n64 elements answers a next
state in which every acting lane holds its result (low half, high half, minimum, maximum, or clamped), zeroed lanes
hold zero, every other lane and register, every flag, generator, CSR and byte of memory is as before, the destination
is tagged, and the PC is past the instruction. (05 R134; 05 R142; 05 Table 5.4; 01 R13; 01 R14; 02 R66) -/
def Obligations.LaneIntegerArithmetic : Prop :=
  IntDone .addI32 (fun _ a b => a + b) ∧ IntDone .subI32 (fun _ a b => a - b) ∧
  IntDone .mulI32 (fun _ a b => a * b) ∧ IntDone .mulhI32 (fun w a b => BitVec.ofInt w (a.toInt * b.toInt / 2 ^ w)) ∧
  IntDone .minI32 (fun _ a b => if a.slt b then a else b) ∧ IntDone .maxI32 (fun _ a b => if a.slt b then b else a) ∧
  IntDone .addsI32 (fun w a b => BitVec.ofInt w (max (-2 ^ (w - 1)) (min (2 ^ (w - 1) - 1) (a.toInt + b.toInt)))) ∧
  IntDone .subsI32 (fun w a b => BitVec.ofInt w (max (-2 ^ (w - 1)) (min (2 ^ (w - 1) - 1) (a.toInt - b.toInt)))) ∧
  IntDone .addN32 (fun _ a b => a + b) ∧ IntDone .subN32 (fun _ a b => a - b) ∧
  IntDone .mulN32 (fun _ a b => a * b) ∧ IntDone .mulhN32 (fun w a b => BitVec.ofNat w (a.toNat * b.toNat / 2 ^ w)) ∧
  IntDone .minN32 (fun _ a b => if a.ult b then a else b) ∧ IntDone .maxN32 (fun _ a b => if a.ult b then b else a) ∧
  IntDone .addsN32 (fun w a b => BitVec.ofNat w (min (2 ^ w - 1) (a.toNat + b.toNat))) ∧
  IntDone .subsN32 (fun w a b => BitVec.ofNat w (a.toNat - b.toNat))

/-- The same for the sixteen packed forms: two 16-bit elements a register, or four 8-bit ones with W = 1, element by
element. (05 R134; 05 R142; 05 Table 5.4; 02 Table 2.7) -/
def Obligations.LanePackedArithmetic : Prop :=
  PackedDone .addI16 (fun _ a b => a + b) ∧ PackedDone .subI16 (fun _ a b => a - b) ∧
  PackedDone .mulI16 (fun _ a b => a * b) ∧ PackedDone .mulhI16 (fun w a b => BitVec.ofInt w (a.toInt * b.toInt / 2 ^ w)) ∧
  PackedDone .minI16 (fun _ a b => if a.slt b then a else b) ∧ PackedDone .maxI16 (fun _ a b => if a.slt b then b else a) ∧
  PackedDone .addsI16 (fun w a b => BitVec.ofInt w (max (-2 ^ (w - 1)) (min (2 ^ (w - 1) - 1) (a.toInt + b.toInt)))) ∧
  PackedDone .subsI16 (fun w a b => BitVec.ofInt w (max (-2 ^ (w - 1)) (min (2 ^ (w - 1) - 1) (a.toInt - b.toInt)))) ∧
  PackedDone .addN16 (fun _ a b => a + b) ∧ PackedDone .subN16 (fun _ a b => a - b) ∧
  PackedDone .mulN16 (fun _ a b => a * b) ∧ PackedDone .mulhN16 (fun w a b => BitVec.ofNat w (a.toNat * b.toNat / 2 ^ w)) ∧
  PackedDone .minN16 (fun _ a b => if a.ult b then a else b) ∧ PackedDone .maxN16 (fun _ a b => if a.ult b then b else a) ∧
  PackedDone .addsN16 (fun w a b => BitVec.ofNat w (min (2 ^ w - 1) (a.toNat + b.toNat))) ∧
  PackedDone .subsN16 (fun w a b => BitVec.ofNat w (a.toNat - b.toNat))

/-- The eight bitwise and shift operations (a shift or rotate amount is the low 5 bits of vb, or 6 with W = 1) and the
seven unary ones complete with their results and change nothing else. (05 R134; 05 R143; 05 R144; 02 R66) -/
def Obligations.LaneBitwise : Prop :=
  BitsDone .andB32 (fun _ a b => a &&& b) ∧ BitsDone .orB32 (fun _ a b => a ||| b) ∧ BitsDone .xorB32 (fun _ a b => a ^^^ b) ∧
  BitsDone .andnB32 (fun _ a b => a &&& ~~~b) ∧ BitsDone .shlB32 (fun w a b => a <<< (b.toNat % w)) ∧
  BitsDone .shrB32 (fun w a b => a >>> (b.toNat % w)) ∧ BitsDone .sraB32 (fun w a b => a.sshiftRight (b.toNat % w)) ∧
  BitsDone .rolB32 (fun w a b => a.rotateLeft (b.toNat % w)) ∧
  UnaryDone .notB false (fun _ a => ~~~a) ∧ UnaryDone .brev false (fun _ a => revBits a) ∧
  UnaryDone .iabs true (fun _ a => if a.toInt < 0 then -a else a) ∧ UnaryDone .ineg true (fun _ a => -a) ∧
  CountDone .popc (fun w a => ((List.range w).filter fun i => a.getLsbD i).length) ∧
  CountDone .clz (fun _ a => clzBits a) ∧ CountDone .ctz (fun _ a => ctzBits a)

/-- The six compares give 1 or 0 in a register tagged I32; SEL takes va where the condition register is not zero and vb
elsewhere; MOV copies elements with their tags; MOVS gives every acting lane a scalar register, IDX its lane number.
(05 R145; 05 R147; 05 Table 5.1; 03 R73) -/
def Obligations.LaneCompareAndSelect : Prop :=
  CompareDone .icmpEq (fun _ a b => decide (a = b)) ∧ CompareDone .icmpNe (fun _ a b => decide (a ≠ b)) ∧
  CompareDone .icmpLtI (fun _ a b => decide (a.toInt < b.toInt)) ∧ CompareDone .icmpLeI (fun _ a b => decide (a.toInt ≤ b.toInt)) ∧
  CompareDone .icmpLtN (fun _ a b => decide (a.toNat < b.toNat)) ∧ CompareDone .icmpLeN (fun _ a b => decide (a.toNat ≤ b.toNat)) ∧
  (∀ (p : Option Pfx) (f : LR) (s : State), (selForm p f s.team).Ready s.team →
    (selForm p f s.team).Done s (fun r l =>
      let a := if s.team.v (selC p f) l ≠ 0 then f.va.toNat else f.vb.toNat
      elemReg f.wide f.vd.toNat (s.team.v a l) (s.team.v64 a l) r) (exec (.selLane p f) s)) ∧
  (∀ (p : Option Pfx) (f : LR) (s : State), (movForm p f s.team).Ready s.team →
    (movForm p f s.team).Done s (fun r l => elemReg f.wide f.vd.toNat (s.team.v f.va.toNat l) (s.team.v64 f.va.toNat l) r)
      (exec (.mov p f) s)) ∧
  (∀ (p : Option Pfx) (f : LR) (s : State),
    let x := fillForm p f.vd f.wide 0 (wIf f.va.msb wOPND)
    let v := s.team.s (f.va.setWidth 6)
    x.Ready s.team → x.Done s (fun r _ => elemReg f.wide f.vd.toNat (v.setWidth 32) v r) (exec (.movs p f) s)) ∧
  (∀ (p : Option Pfx) (f : LR) (s : State),
    let x := fillForm p f.vd false 13 (wIf (f.va != 0 || f.vb != 0 || f.w != 0) wOPND)
    x.Ready s.team → x.Done s (fun _ l => BitVec.ofNat 32 l) (exec (.idx p f) s))

/-- Each acting lane of va and the 8-bit immediate, sign-extended for arithmetic and compares, zero-extended for bitwise
work, its low five bits for a shift. (05 R146; 03 R75; 03 R85) -/
def Obligations.LaneImmediates : Prop :=
  ImmDone .addImm true (fun _ => 0) (fun f a => a + f.imm.signExtend 32) ∧
  ImmDone .mulImm true (fun _ => 0) (fun f a => a * f.imm.signExtend 32) ∧
  ImmDone .andImm false (fun _ => 0) (fun f a => a &&& f.imm.setWidth 32) ∧
  ImmDone .orImm false (fun _ => 0) (fun f a => a ||| f.imm.setWidth 32) ∧
  ImmDone .xorImm false (fun _ => 0) (fun f a => a ^^^ f.imm.setWidth 32) ∧
  ImmDone .shlImm false imm8ShiftWarn (fun f a => a <<< (f.imm.toNat % 32)) ∧
  ImmDone .shrImm false imm8ShiftWarn (fun f a => a >>> (f.imm.toNat % 32)) ∧
  ImmDone .sraImm false imm8ShiftWarn (fun f a => a.sshiftRight (f.imm.toNat % 32)) ∧
  ImmDone .icmpEqImm true (fun _ => 0) (fun f a => if a.toInt = f.imm.toInt then 1 else 0) ∧
  ImmDone .icmpNeImm true (fun _ => 0) (fun f a => if a.toInt ≠ f.imm.toInt then 1 else 0) ∧
  ImmDone .icmpLtImm true (fun _ => 0) (fun f a => if a.toInt < f.imm.toInt then 1 else 0) ∧
  ImmDone .icmpLeImm true (fun _ => 0) (fun f a => if a.toInt ≤ f.imm.toInt then 1 else 0) ∧
  ImmDone .icmpGtImm true (fun _ => 0) (fun f a => if f.imm.toInt < a.toInt then 1 else 0) ∧
  ImmDone .icmpGeImm true (fun _ => 0) (fun f a => if f.imm.toInt ≤ a.toInt then 1 else 0) ∧
  (∀ (p : Option Pfx) (f : LI) (s : State),
    let x := fillForm p f.vd false 13 (wIf (f.va != 0) wOPND)
    x.Ready s.team → x.Done s (fun _ _ => f.imm.signExtend 32) (exec (.movi p f) s))

/-- Where no acting lane raises an exception whose trap is enabled, each of FADD, FSUB, FMUL, FMA, FMIN, FMAX, FABS and
FNEG, on 32-bit, 64-bit and packed 16-bit elements, completes with its correctly rounded results, adds the exceptions
of the acting lanes to FLAGS, steps the generators of acting lanes as the rounding mode asks, and changes nothing
else. (05 R139; 05 R148; 05 R149; 05 R150; 02 R59) -/
def Obligations.LaneFloatArithmetic : Prop :=
  WideFp .fadd 2 true opFadd ∧ WideFp .fsub 2 true opFsub ∧ WideFp .fmul 2 true opFmul ∧ WideFp .fma 3 true opFma ∧
  WideFp .fmin 2 true (opMinMax false) ∧ WideFp .fmax 2 true (opMinMax true) ∧
  WideFp .fabs 1 false opFabs ∧ WideFp .fneg 1 false opFneg ∧
  HalfFp .faddBf16 2 true opFadd ∧ HalfFp .fsubBf16 2 true opFsub ∧ HalfFp .fmulBf16 2 true opFmul ∧
  HalfFp .fmaBf16 3 true opFma ∧ HalfFp .fminBf16 2 true (opMinMax false) ∧ HalfFp .fmaxBf16 2 true (opMinMax true) ∧
  HalfFp .fabsBf16 1 false opFabs ∧ HalfFp .fnegBf16 1 false opFneg

/-- A compare with a NaN operand is false but for ne and un; eq, ne and un raise NV for a signalling NaN alone, the others
for every NaN; FCLASS sets the one bit of its operand's class. (05 R139; 05 R151; 05 R152) -/
def Obligations.LaneFloatCompares : Prop :=
  FcmpDone .fcmpEq (fun c => c == 0) false true ∧ FcmpDone .fcmpNe (fun c => c != 0) true true ∧
  FcmpDone .fcmpLt (fun c => decide (c < 0)) false false ∧ FcmpDone .fcmpLe (fun c => decide (c ≤ 0)) false false ∧
  FcmpDone .fcmpGt (fun c => decide (0 < c)) false false ∧ FcmpDone .fcmpGe (fun c => decide (0 ≤ c)) false false ∧
  FcmpDone .fcmpUn (fun _ => false) true true ∧
  (∀ (p : Option Pfx) (f : LR) (s : State), (countForm p f [tagWide f.wide]).Ready s.team →
    (countForm p f [tagWide f.wide]).Done s
      (fun _ l => BitVec.ofNat 32 (classOf (fmtWide f.wide) (s.team.fpElem f.wide f.va.toNat l))) (exec (.fclass p f) s))

/-- FADDX, FSUBX and FMULX give the rounded result and its error as a pair tagged DW; DWADD, DWMUL, DWFMA, DWDIV and
DWSQRT give double-word pairs. (05 R156; 05 R157; 05 R158; 05 R159; 05 R139) -/
def Obligations.LaneErrorPairsAndDoubleWords : Prop :=
  ErrPairDone .faddx pairSum ∧ ErrPairDone .fsubx (fun fm a b => pairSum fm a b.neg) ∧ ErrPairDone .fmulx pairProd ∧
  DwDone .dwadd .add 2 ∧ DwDone .dwmul .mul 2 ∧ DwDone .dwfma .fma 3 ∧ DwDone .dwdiv .div 2 ∧ DwDone .dwsqrt .sqrt 1

/-- RCP, RSQ, EXP2, LOG2, SIN, COS, GELU, SILU, SPLUS, TANH and SIGM issue: the destination rows are empty, one row of
each destination register is due for each swept row, and when these rows have landed the acting lanes hold the
results. (05 R137; 05 R162; 05 R165; 01 R22; 01 R24) -/
def Obligations.LaneFunctionsIssue : Prop :=
  SpecialDone .rcp .rcp ∧ SpecialDone .rsq .rsq ∧ SpecialDone .exp2 .exp2 ∧ SpecialDone .log2 .log2 ∧
  SpecialDone .sin .sin ∧ SpecialDone .cos .cos ∧ ActDone .gelu .gelu ∧ ActDone .silu .silu ∧ ActDone .splus .splus ∧
  ActDone .tanh .tanh ∧ ActDone .sigm .sigm

/-- A conversion with assigned codes completes: each acting lane's elements are converted with the rounding mode in force,
exceptions are added to FLAGS; CVTMX reads its block scales in vc, or writes them there. (05 R153; 05 R154; 05 R155;
02 R59) -/
def Obligations.LaneConversions : Prop :=
  (∀ (p : Option Pfx) (c : BitVec 3) (f : LR) (s : State),
    let x := cvtForm p c f
    let out := cvtOut p c f s.team
    cvtCodesOk c f = true → x.Ready s.team → (x.Quiet s.team fun l => (out l).2.1) →
    x.DoneFp s (fun r l => regOf (sideWrites (cvtD c f) f.vd.toNat (cvtCount (cvtS f) (cvtD c f)) (out l).1) (s.team.v r l) r)
      (fun l => (out l).2.1) (fun l => if cvtSteps (cvtS f) (cvtD c f) ∧ rmode s.team p = 5 then (out l).2.2 else s.team.g l)
      (exec (.cvt p c f) s)) ∧
  (∀ (p : Option Pfx) (c : BitVec 3) (f : LR) (s : State),
    let x := if mxCode (cvtD c f) && cvtSat f then cvtmxMakeForm p c f s.team else cvtmxForm p c f
    let out := cvtmxLane p (cvtS f) (cvtD c f) f (rmode s.team p) s.team
    p.isSome = true → cvtmxCodesOk c f = true → x.Ready s.team → (x.Quiet s.team fun l => (out l).fl) →
    x.DoneFp s (fun r l => regOf (out l).regs (s.team.v r l) r) (fun l => (out l).fl) (fun l => (out l).g.getD (s.team.g l))
      (exec (.cvtmx p c f) s))

/-- Each exchange completes: a shuffle gives every acting lane the element of the lane of its tile that vb names (its own
where there is none), PSHW what was pushed to it with a conflict mask, the votes and BALLOT what the acting lanes of
the tile hold. (06 R188; 06 R189; 06 R190; 06 R191; 01 R28) -/
def Obligations.LaneExchanges : Prop :=
  ShflDone .shflIdx (fun f t l => tileBase t.tileSize l + (t.v f.vb.toNat l).toNat % t.tileSize) ∧
  ShflDone .shflXor (fun f t l => tileBase t.tileSize l + (tilePos t.tileSize l ^^^ ((t.v f.vb.toNat l).toNat % t.tileSize))) ∧
  ShflDone .shflUp (fun f t l =>
    if (t.v f.vb.toNat l).toNat ≤ tilePos t.tileSize l then l - (t.v f.vb.toNat l).toNat else l) ∧
  ShflDone .shflDn (fun f t l =>
    if tilePos t.tileSize l + (t.v f.vb.toNat l).toNat < t.tileSize then l + (t.v f.vb.toNat l).toNat else l) ∧
  VoteDone .voteAny (fun p f t l => flag32 ((tileActing p t l).any fun k => exchElem f t k != 0)) ∧
  VoteDone .voteAll (fun p f t l => flag32 ((tileActing p t l).all fun k => exchElem f t k != 0)) ∧
  VoteDone .ballot (fun p f t l => positions t.tileSize ((tileActing p t l).filter fun k => exchElem f t k != 0)) ∧
  (∀ (p : Option Pfx) (f : LR) (s : State), s.team.tileOk → (pshwForm p f s.team).Ready s.team →
    (pshwForm p f s.team).Done s (pshwVal p f s.team) (exec (.pshw p f) s)) ∧
  (∀ (p : Option Pfx) (f : LR) (s : State), s.team.tileOk → (voteEqForm p f).Ready s.team →
    (voteEqForm p f).Done s (fun _ l => positions s.team.tileSize ((tileActing p s.team l).filter fun k =>
      exchElem f s.team k &&& (s.team.v f.vb.toNat l).toNat == exchElem f s.team l &&& (s.team.v f.vb.toNat l).toNat))
      (exec (.voteEq p f) s))

/-- MOVX gives a scalar register the element of the lowest-numbered acting lane; CRED gives the lowest acting lane of each
tile the tile's compensated sum as a double-word pair; TCRED gives a scalar pair the team's. (05 R147; 05 R160; 05
R161; 01 R36) -/
def Obligations.LaneReductions : Prop :=
  (∀ (p : Option Pfx) (f : LR) (s : State), (movxForm p f).Ready s.team →
    (∀ v, movxValue p f s.team = some v → s.team.s63Bad (f.vd.setWidth 6) v = false) →
    (movxForm p f).DoneScalar s (match movxValue p f s.team with
      | some v => s.team.setS (f.vd.setWidth 6) v
      | none => s.team) 0 (exec (.movx p f) s)) ∧
  (∀ (p : Option Pfx) (f : LR) (s : State), s.team.tileOk → (credForm p f).Ready s.team →
    ((credForm p f).Quiet s.team fun l => (credLane p f s.team l).fl) →
    (credForm p f).DoneFp s (fun r l =>
        match credRoot p f s.team l with
        | some x => if (tileOf s.team l).find? (inMask (s.team.acting p)) = some l then dwReg f.wide f.vd.toNat x.1 r
          else s.team.v r l
        | none => s.team.v r l)
      (fun l => (credLane p f s.team l).fl) s.team.g (exec (.cred p f) s)) ∧
  (∀ (p : Option Pfx) (f : LR) (s : State), (tcredForm p f).Ready s.team →
    s.team.s63Bad (f.vd.setWidth 6 + 1) (BitVec.ofNat 64 (tcredSum p f s.team).1.2) = false →
    (tcredSum p f s.team).2 &&& s.team.te = 0 →
    (tcredForm p f).DoneScalar s
      ((s.team.setS (f.vd.setWidth 6) (BitVec.ofNat 64 (tcredSum p f s.team).1.1)).setS (f.vd.setWidth 6 + 1)
        (BitVec.ofNat 64 (tcredSum p f s.team).1.2)) (tcredSum p f s.team).2 (exec (.tcred p f) s))

/-- A load whose acting lanes' addresses are aligned and whose check phase passes issues: its rows are due with the bytes
loaded at s[sa] + v[vo] x 2^OS (or s[sa] + (imm7 + n) x bytes), its destination rows are empty until they land,
nothing but caches and translations changes in memory, and every byte at rest holds what it held; LD.acq acquires at
its scope after its loads. (06 R167; 06 R168; 06 R173; 06 R174; 06 R175; 01 R22; 03 Table 3.4) -/
def Obligations.LaneLoads : Prop :=
  (∀ (p : Option Pfx) (ty : BitVec 4) (f : LM) (s : State) (sp : List Span),
    let x := loadForm p f true (ldWide ty) (ldTag ty) { wa := true, reuse := true, os := true }
    let n := laneBytes (ldWide ty)
    (Instr.ld p ty f).wf = true → x.Ready s.team → s.Reaches p (addrVec p f s.team) n n needR true f.pol.toNat sp →
    Accessed (fun _ => False) s (s.loaded p sp).1 ∧ (x.plus (spanWarn sp f.pol.toNat)).Issued (s.loaded p sp).1
      (fun r l => loadedReg (ldWide ty) f.vd.toNat (valueOf (s.loaded p sp).2 l) r) (fun _ => 0) s.team.g (exec (.ld p ty f) s)) ∧
  (∀ (p : Option Pfx) (ty : BitVec 4) (f : LM) (s : State) (sp : List Span),
    let x := loadForm p f false (ldWide ty) (ldTag ty) { reuse := true }
    let n := laneBytes (ldWide ty)
    (Instr.ldImm p ty f).wf = true → x.Ready s.team → s.Reaches p (addrImm f n s.team) n n needR true f.pol.toNat sp →
    Accessed (fun _ => False) s (s.loaded p sp).1 ∧ (x.plus (spanWarn sp f.pol.toNat)).Issued (s.loaded p sp).1
      (fun r l => loadedReg (ldWide ty) f.vd.toNat (valueOf (s.loaded p sp).2 l) r) (fun _ => 0) s.team.g
      (exec (.ldImm p ty f) s)) ∧
  (∀ (p : Option Pfx) (ty : BitVec 3) (f : LM) (s : State) (sp : List Span),
    let x := loadForm p f true (ldWide (acqType ty)) (ldTag (acqType ty)) { wa := true, scope := true, reuse := true, os := true }
    let n := laneBytes (ldWide (acqType ty))
    (Instr.ldAcq p ty f).wf = true → x.Ready s.team → s.Reaches p (addrVec p f s.team) n n needR true f.pol.toNat sp →
    Accessed (fun _ => False) s ((s.loaded p sp).1.closed (some (pscope p))) ∧
    (x.plus (spanWarn sp f.pol.toNat)).Issued ((s.loaded p sp).1.closed (some (pscope p)))
      (fun r l => loadedReg (ldWide (acqType ty)) f.vd.toNat (valueOf (s.loaded p sp).2 l) r) (fun _ => 0) s.team.g
      (exec (.ldAcq p ty f) s))

/-- A store whose check phase passes stores each acting lane's register or pair at its address, ascending; every byte at
rest outside the bytes of the checked spans (and, for ST.rel, outside what the stack cache writes back) holds what it
held; no register, flag or generator changes. (06 R167; 06 R168; 06 R170; 06 R173; 06 R174; 06 R175; 01 R37) -/
def Obligations.LaneStores : Prop :=
  (∀ (p : Option Pfx) (ty : BitVec 4) (f : LM) (s : State) (sp : List Span),
    let x := storeForm p f true (ldWide ty) (ldTag ty) { z := false, wa := true, wb := true, os := true }
    let n := laneBytes (ldWide ty)
    let after := (s.opened sp none).storeLanes ((s.team.actors p).zip sp) n (dataElem s.team (ldWide ty) f.vd.toNat)
    (Instr.st p ty f).wf = true → x.Ready s.team → s.Reaches p (addrVec p f s.team) n n needW false f.pol.toNat sp →
    Stored (s.mayStore sp false) s after ∧
    (x.plus (spanWarn sp f.pol.toNat)).Done after (fun _ _ => 0) (exec (.st p ty f) s)) ∧
  (∀ (p : Option Pfx) (ty : BitVec 4) (f : LM) (s : State) (sp : List Span),
    let x := storeForm p f false (ldWide ty) (ldTag ty) { z := false, wb := true }
    let n := laneBytes (ldWide ty)
    let after := (s.opened sp none).storeLanes ((s.team.actors p).zip sp) n (dataElem s.team (ldWide ty) f.vd.toNat)
    (Instr.stImm p ty f).wf = true → x.Ready s.team → s.Reaches p (addrImm f n s.team) n n needW false f.pol.toNat sp →
    Stored (s.mayStore sp false) s after ∧
    (x.plus (spanWarn sp f.pol.toNat)).Done after (fun _ _ => 0) (exec (.stImm p ty f) s)) ∧
  (∀ (p : Option Pfx) (ty : BitVec 3) (f : LM) (s : State) (sp : List Span),
    let wide := ldWide (acqType ty)
    let x := storeForm p f true wide (ldTag (acqType ty)) { z := false, wa := true, wb := true, scope := true, os := true }
    let after := (s.opened sp (some (pscope p))).storeLanes ((s.team.actors p).zip sp) (laneBytes wide)
      (dataElem s.team wide f.vd.toNat)
    (Instr.stRel p ty f).wf = true → x.Ready s.team →
    s.Reaches p (addrVec p f s.team) (laneBytes wide) (laneBytes wide) needW false f.pol.toNat sp →
    Stored (s.mayStore sp true) s after ∧
    (x.plus (spanWarn sp f.pol.toNat)).Done after (fun _ _ => 0) (exec (.stRel p ty f) s))

/-- A narrow-block load issues with each acting lane's elements of its block in vd and the block's scale put into vs where
the lane is the first of its block; LDT issues with the elements of a group of lanes transposed; memory at rest is as
it was. (06 R177; 06 R178; 06 R179; 06 R181; 02 R50; 02 R53) -/
def Obligations.LaneBlockLoads : Prop :=
  (∀ (p : Option Pfx) (ty : BitVec 3) (f : LM) (s : State) (sp : List Span),
    let w := ldbWidth ty
    let b : BlockForm := ⟨if w = 4 then 4 else 8, 4 * w, 1⟩
    let x := blockForm p f b (ldbTag ty) 10 s.team
    (Instr.ldb p ty f).wf = true → x.Ready s.team →
    s.checkSpans (s.viaOf s.cur) (b.spans s.team f (s.team.actors p)) needR true polSi = .ok sp →
    ∃ s1, Accessed (fun _ => False) s s1 ∧ (x.plus (spanWarn sp polSi)).Issued s1
      (blockReg p f b (fun q _ j => blockElems w (32 / b.lanes) q j) (fun v h => putBits v (8 * f.pol.toNat) 8 h) s sp)
      (fun _ => 0) s.team.g (exec (.ldb p ty f) s)) ∧
  (∀ (p : Option Pfx) (ty : BitVec 3) (f : LM) (s : State) (sp : List Span),
    let m := ldwBits ty
    let b : BlockForm := ⟨ldwGroup ty / 4, ldwGroup ty * m / 8, 4⟩
    let x := blockForm p f b 11 3 s.team
    (Instr.ldw p ty f).wf = true → x.Ready s.team → (s.team.s (f.sa + 1)).toNat % 4 = 0 →
    s.checkSpans (s.viaOf s.cur) (b.spans s.team f (s.team.actors p)) needR true polSi = .ok sp →
    ∃ s1, Accessed (fun _ => False) s s1 ∧ (x.plus (spanWarn sp polSi)).Issued s1
      (blockReg p f b (fun q h j => weightElems m q h j) (fun v h => putBits v (16 * (f.pol.toNat % 2)) 16 (h % 65536)) s sp)
      (fun _ => 0) s.team.g (exec (.ldw p ty f) s)) ∧
  (∀ (p : Option Pfx) (ty : BitVec 3) (f : LM) (s : State) (sp : List Span),
    (Instr.ldt p ty f).wf = true → (ldtForm p ty f).Ready s.team →
    s.Reaches p (addrVec p f s.team) 4 4 needR true f.pol.toNat sp →
    (∀ l ∈ s.team.actors p, s.ldtStop (addrVec p f s.team) l = none) →
    ∃ s1, Accessed (fun _ => False) s s1 ∧ ((ldtForm p ty f).plus (spanWarn sp f.pol.toNat)).Issued s1
      (fun _ l => BitVec.ofNat 32 (transposed (ldtRho ty) (s.team.acting p)
        (valueOf (s.loadLanes ((s.team.actors p).zip sp) 0).2) l)) (fun _ => 0) s.team.g (exec (.ldt p ty f) s))

/-- A lane atomic whose check phase passes updates each acting lane's word at its home, ascending, with the operation of
the old value and the lane's operand, and issues with the old values due in vd; bytes at rest outside the words (and
outside what the stack cache writes back) hold what they held. The update is the operation of 04 R100. (06 R182; 04
R100; 04 R103; 06 R168; 01 R37) -/
def Obligations.LaneAtomics : Prop :=
  AtomDone .atomI32 0 ∧ AtomDone .atomN32 1 ∧ AtomDone .atomI64 2 ∧ AtomDone .atomN64 3 ∧
  (∀ (p : Option Pfx) (aty : BitVec 2) (f : LM) (s : State) (sp : List Span), (Instr.atomCas p aty f).wf = true →
    AtomIssues p 7 aty.toNat f s sp (exec (.atomCas p aty f) s)) ∧
  (∀ (w : Nat) (signed : Bool) (old x c : BitVec w),
    let less := fun (a b : BitVec w) => if signed then a.toInt < b.toInt else a.toNat < b.toNat
    atomFn 0 signed old x c = some (old + x) ∧ (less old x → atomFn 1 signed old x c = some old) ∧
    (less x old → atomFn 1 signed old x c = some x) ∧ (less old x → atomFn 2 signed old x c = some x) ∧
    (less x old → atomFn 2 signed old x c = some old) ∧ atomFn 3 signed old x c = some (old &&& x) ∧
    atomFn 4 signed old x c = some (old ||| x) ∧ atomFn 5 signed old x c = some (old ^^^ x) ∧
    atomFn 6 signed old x c = some x ∧ (old = c → atomFn 7 signed old x c = some x) ∧
    (old ≠ c → atomFn 7 signed old x c = none))

/-- On spans that hold accumulator objects of a kind that suits, FXACC adds each acting lane's element, times 2^k in the
scaled form, to its object, ascending, and writes no register; FXRD issues with the object's value rounded once. (06
R183; 06 R184; 09 R257; 02 R59; 06 R168) -/
def Obligations.LaneAccumulators : Prop :=
  (∀ (p : Option Pfx) (t : BitVec 1) (f : LM) (s : State) (sp : List Span), (Instr.fxacc p t f).wf = true →
    AccumDone p f (t == 1) none s sp (exec (.fxacc p t f) s)) ∧
  (∀ (p : Option Pfx) (f : LM) (s : State) (sp : List Span), (Instr.fxaccSc p f).wf = true →
    AccumDone p f false (some (pvc p)) s sp (exec (.fxaccSc p f) s)) ∧
  (∀ (p : Option Pfx) (w : BitVec 1) (f : LM) (s : State) (sp : List Span),
    let x := fxrdForm p f (w == 1)
    let out := fxrdOf p (w == 1) f s sp
    (Instr.fxrd p w f).wf = true → x.Ready s.team → s.Reaches p (addrVec p f s.team) 64 64 needR true polOp sp →
    (∀ k ∈ s.objects sp, objKind k = 2 ∨ objKind k = 1) → (x.Quiet s.team fun l => (out l).1.2) →
    ∃ s1, Stored (s.mayStore [] true) s s1 ∧ x.Issued s1 (fun r l => loadedReg (w == 1) f.vd.toNat (out l).1.1 r)
      (fun l => (out l).1.2) (fun l => if rmode s.team p = 5 then (out l).2 else s.team.g l) (exec (.fxrd p w f) s))

/-- A range operation whose pages can all be served completes; every byte at rest outside the lines of its ranges (and
outside what the stack cache writes back) holds what it held, and no register changes. (06 R185; 06 R186; 06 R187; 03
Table 3.15) -/
def Obligations.LaneRangeOperations : Prop :=
  RangeDone .rwb .wb ∧ RangeDone .rinv .inv ∧ RangeDone .rdisc .disc

/-- With its block inside the cluster-memory allocation, DECODE writes its status to the scalar register and issues with
the words decoded due in vd, unless an error code meets an enabled decode trap. (06 R192; 06 R193; 06 R194; 06 R195;
06 R196; 01 R36) -/
def Obligations.LaneDecode : Prop :=
  ∀ (p : Option Pfx) (f : LM) (s : State) (r : Decoded), (decodeForm p f).Ready s.team →
    s.outsideCluster (s.team.s f.sa).toNat 4 = none →
    s.outsideCluster (s.team.s f.sa).toNat (blockHead (s.clusterByte (s.team.s f.sa).toNat)).clen = none →
    decodeBlock (s.clusterByte (s.team.s f.sa).toNat) (4 * s.team.lanes) = r →
    s.team.s63Bad (decodeSd f) r.status = false → r.code = 0 ∨ s.team.dtrap = false →
    (decodeForm p f).Issued (s.withTeam (s.team.setS (decodeSd f) r.status))
      (fun _ l => BitVec.ofNat 32 (decodedWord r.out.reverse l)) (fun _ => 0)
      (s.withTeam (s.team.setS (decodeSd f) r.status)).team.g (exec (.decode p f) s)

/-- VSAMP loads its volume descriptor and the voxels its coordinates need and issues with the sample of each acting lane;
with no acting lane it issues alone; RBOX loads each lane's box and issues with the entry and exit distances; memory
at rest is as it was. (06 R197; 06 R198; 06 R199; 06 R200; 06 R201) -/
def Obligations.LaneVolumesAndBoxes : Prop :=
  VsampDone .vsampNear false ∧ VsampDone .vsampTri true ∧ RboxDone .rbox false ∧ RboxDone .rboxIdx true

/-- Each register form writes its result of s[sa] and s[sb] to sd, sets OPND where must-be-zero bits are not zero, moves
the PC by 4 and changes nothing else; a result that would put s63 below the spill pointer takes the stack-limit trap
instead. A zero divisor gives a quotient of all ones and the dividend as remainder. Each immediate form does the same
of sd and imm16, MOVL writes the sign-extended imm16, MOVH one halfword, each unary form its result of s[sa]. (04 R94;
04 R95; 04 R96; 04 R97; 04 Table 4.1; 01 R36; 03 R80; 03 Table 3.9) -/
def Obligations.ScalarArithmetic : Prop :=
  ScalarDone .scalarAdd (fun a b => a + b) ∧ ScalarDone .scalarSub (fun a b => a - b) ∧ ScalarDone .scalarMul (fun a b => a * b) ∧
  ScalarDone .mulhI64 (fun a b => BitVec.ofInt 64 (a.toInt * b.toInt / 2 ^ 64)) ∧
  ScalarDone .mulhN64 (fun a b => BitVec.ofNat 64 (a.toNat * b.toNat / 2 ^ 64)) ∧
  ScalarDone .divI64 (fun a b => if b = 0 then BitVec.allOnes 64 else BitVec.ofInt 64 (a.toInt.tdiv b.toInt)) ∧
  ScalarDone .divN64 (fun a b => if b = 0 then BitVec.allOnes 64 else BitVec.ofNat 64 (a.toNat / b.toNat)) ∧
  ScalarDone .remI64 (fun a b => if b = 0 then a else BitVec.ofInt 64 (a.toInt.tmod b.toInt)) ∧
  ScalarDone .remN64 (fun a b => if b = 0 then a else BitVec.ofNat 64 (a.toNat % b.toNat)) ∧
  ScalarDone .minI64 (fun a b => if a.slt b then a else b) ∧ ScalarDone .minN64 (fun a b => if a.ult b then a else b) ∧
  ScalarDone .maxI64 (fun a b => if a.slt b then b else a) ∧ ScalarDone .maxN64 (fun a b => if a.ult b then b else a) ∧
  ScalarDone .scalarAnd (fun a b => a &&& b) ∧ ScalarDone .scalarOr (fun a b => a ||| b) ∧
  ScalarDone .scalarXor (fun a b => a ^^^ b) ∧ ScalarDone .scalarAndn (fun a b => a &&& ~~~b) ∧
  ScalarDone .scalarShl (fun a b => a <<< (b.toNat % 64)) ∧ ScalarDone .scalarShr (fun a b => a >>> (b.toNat % 64)) ∧
  ScalarDone .scalarSra (fun a b => a.sshiftRight (b.toNat % 64)) ∧ ScalarDone .scalarRol (fun a b => a.rotateLeft (b.toNat % 64)) ∧
  (∀ (f : UR) (s : State),
    let a := s.team.s f.sa
    let b := s.team.s f.sb
    let holds := match f.aux.toNat with
      | 0 => decide (a = b) | 1 => decide (a ≠ b) | 2 => decide (a.toInt < b.toInt) | 3 => decide (a.toInt ≤ b.toInt)
      | 4 => decide (a.toNat < b.toNat) | _ => decide (a.toNat ≤ b.toNat)
    (f.aux.toNat < 6 → ScalarResult s f.sd (if holds then 1 else 0) 0 (exec (.scalarIcmp f) s)) ∧
    (6 ≤ f.aux.toNat → exec (.scalarIcmp f) s = .next (s.trap .illegal 0))) ∧
  (∀ (f : UR) (s : State), ScalarResult s f.sd
    (if s.team.s (f.aux.setWidth 6) ≠ 0 then s.team.s f.sa else s.team.s f.sb) 0 (exec (.scalarSel f) s)) ∧
  ScalarImmDone .scalarAddImm false (fun i a => a + i.signExtend 64) ∧ ScalarImmDone .scalarMulImm false (fun i a => a * i.signExtend 64) ∧
  ScalarImmDone .scalarAndImm false (fun i a => a &&& i.setWidth 64) ∧ ScalarImmDone .scalarOrImm false (fun i a => a ||| i.setWidth 64) ∧
  ScalarImmDone .scalarXorImm false (fun i a => a ^^^ i.setWidth 64) ∧ ScalarImmDone .scalarShlImm true (fun i a => a <<< (i.toNat % 64)) ∧
  ScalarImmDone .scalarShrImm true (fun i a => a >>> (i.toNat % 64)) ∧
  ScalarImmDone .scalarSraImm true (fun i a => a.sshiftRight (i.toNat % 64)) ∧
  ScalarImmDone .movl false (fun i _ => i.signExtend 64) ∧
  ScalarImmDone .movhH1 false (fun i a => a.extractLsb' 32 32 ++ i ++ a.extractLsb' 0 16) ∧
  ScalarImmDone .movhH2 false (fun i a => a.extractLsb' 48 16 ++ i ++ a.extractLsb' 0 32) ∧
  ScalarImmDone .movhH3 false (fun i a => i ++ a.extractLsb' 0 48) ∧
  ScalarUnaryDone .scalarMov (fun a => a) ∧ ScalarUnaryDone .scalarNot (fun a => ~~~a) ∧
  ScalarUnaryDone .scalarPopc (fun a => BitVec.ofNat 64 ((List.range 64).filter fun i => a.getLsbD i).length) ∧
  ScalarUnaryDone .scalarClz (fun a => BitVec.ofNat 64 (clzBits a)) ∧ ScalarUnaryDone .scalarCtz (fun a => BitVec.ofNat 64 (ctzBits a)) ∧
  ScalarUnaryDone .scalarBrev revBits

/-- For every word of every width, the count of leading zeros is the number of zero bits above the highest one bit, the
count of trailing zeros the number below the lowest, both the width for zero, and bit i of the reversed word is bit w
- 1 - i of the word. (04 R97; 05 R144) -/
def Obligations.BitCounts : Prop :=
  ∀ (w : Nat) (x : BitVec w),
    (x = 0#w → clzBits x = w ∧ ctzBits x = w) ∧
    (x ≠ 0#w → clzBits x < w ∧ x.getLsbD (w - 1 - clzBits x) = true ∧ ∀ i, w - 1 - clzBits x < i → x.getLsbD i = false) ∧
    (x ≠ 0#w → ctzBits x < w ∧ x.getLsbD (ctzBits x) = true ∧ ∀ i, i < ctzBits x → x.getLsbD i = false) ∧
    (∀ i, i < w → (revBits x).getLsbD i = x.getLsbD (w - 1 - i))

/-- CSRR writes the CSR to sd; CSRW writes the bits the CSR holds and nothing else of the team, a FCTL write with RS = 1
reseeds every generator, IWARN bits are cleared by ones; a value a CSR refuses takes the illegal-operand trap, and a
number that is not assigned, or not writable, the illegal-instruction trap. With nothing spilled, an SLIM at or below
s63 becomes the limit, the spill base and the spill pointer; with entries spilled, one at or below the spill base
becomes the limit alone; any other takes the stack-limit trap. (04 R121; 01 R28; 01 R30; 01 R36; 02 R59; 02 R60; 04
R124; 05 R138; 07 R212; 07 R235; 03 R86) -/
def Obligations.CsrAccess : Prop :=
  (∀ (f : UI) (s : State), (Instr.csrr f).wf = true →
    ScalarResult s f.sd (csrRead s.team s.clock (f.imm.toNat % 4096)) (wIf (decide (4096 ≤ f.imm.toNat)) wOPND) (exec (.csrr f) s)) ∧
  (∀ (f : UI) (s : State), (Instr.csrr f).wf = false → exec (.csrr f) s = .next (s.trap .illegal 0)) ∧
  (∀ (f : UI) (s : State),
    let n := f.imm.toNat % 4096
    let x := s.team.s f.sd
    let t := s.team
    let done := fun (u : Team) => exec (.csrw f) s = .next (s.past u (wIf (decide (4096 ≤ f.imm.toNat)) wOPND))
    let bad := exec (.csrw f) s = .next (s.trap .operand 0)
    (n = 0x000 → done { t with flags := x &&& 0x1F }) ∧
    (n = 0x001 → x.toNat % 8 ≤ 5 → x.getLsbD 24 = false → done { t with fctl := x &&& 0xFFFFFFFF00FF0007 }) ∧
    (n = 0x001 → x.toNat % 8 ≤ 5 → x.getLsbD 24 = true →
      done { t with fctl := x &&& 0xFFFFFFFF00FF0007, genSeed := x.extractLsb' 32 32, gen := [] }) ∧
    (n = 0x001 → 5 < x.toNat % 8 → bad) ∧
    (n = 0x002 → done { t with iwarn := t.iwarn &&& ~~~(x &&& 0x3FFF) }) ∧
    (n = 0x010 → 1 ≤ x.toNat % 8 → x.toNat % 8 ≤ 5 → done { t with tile := x &&& 7 }) ∧
    (n = 0x010 → (x.toNat % 8 = 0 ∨ 5 < x.toNat % 8) → bad) ∧
    (n = 0x011 → (x.toNat / 2 ^ 32 % 16 ∈ [0, 2, 4, 6, 8]) → done { t with gang := x &&& 0xF00FFFFFF }) ∧
    (n = 0x011 → (x.toNat / 2 ^ 32 % 16 ∉ [0, 2, 4, 6, 8]) → bad) ∧
    (n = 0x012 → x.toNat % 8 ≠ 0 → done { t with allow := x &&& 7 }) ∧ (n = 0x012 → x.toNat % 8 = 0 → bad) ∧
    (n = 0x020 → done { t with tvec := x &&& 0x1FFFFFFFFFFFFFC }) ∧ (n = 0x022 → done { t with tepc := x &&& 0x1FFFFFFFFFFFFFC }) ∧
    (n ∉ [0x000, 0x001, 0x002, 0x010, 0x011, 0x012, 0x014, 0x020, 0x022] → exec (.csrw f) s = .next (s.trap .illegal 0))) ∧
  (∀ (f : UI) (s : State), f.imm.toNat = 0x014 →
    let t := s.team
    let l := t.s f.sd &&& 0x1FFFFFFFFFFFFF0
    let none_ := t.spPtr = t.spBase ∧ t.ndsp = 0 ∧ t.nrsp = 0
    (none_ → l.toNat ≤ (t.s 63).toNat → exec (.csrw f) s = .next (s.past { t with slim := l, spBase := l, spPtr := l } 0)) ∧
    (¬ none_ → l.toNat ≤ t.spBase.toNat → exec (.csrw f) s = .next (s.past { t with slim := l } 0)) ∧
    ((none_ ∧ (t.s 63).toNat < l.toNat) ∨ (¬ none_ ∧ t.spBase.toNat < l.toNat) →
      exec (.csrw f) s = .next (s.trap .stackLimit 0)))

/-- A scalar load whose address is aligned and whose check phase passes writes the zero-extended bytes loaded to sd,
acquires where its ordering asks, and leaves bytes at rest as they were; a store stores the low bytes of sd, releasing
first where asked, and leaves every byte at rest outside them (and outside what the stack cache writes back) as it
was; a misaligned address takes the misalignment trap. (04 R98; 04 R99; 04 R103; 01 R36; 03 Table 3.9; 03 Table 3.15) -/
def Obligations.ScalarMemory : Prop :=
  (∀ (sc : BitVec 3) (f : UR) (s : State) (sp : List Span),
    let n := smSize f
    let a := smAddr f s.team
    let ld := (s.fillSpans (s.viaOf s.cur) sp).loadSpan s.cur sp.flatten 0
    let acq := ordAcq (smOrd f)
    let after := ld.1.closed (if acq then some sc.toNat else none)
    let v : Word64 := BitVec.ofNat 64 (leNat ld.2)
    let warn := wIf (ordRel (smOrd f)) wORD ||| wIf (!acq && sc != 0) wSCOPE ||| spanWarn sp (smPol f)
    (Instr.scalarLd sc f).wf = true →
    (a % n ≠ 0 → exec (.scalarLd sc f) s = .next (s.trap .align 0)) ∧
    (a % n = 0 → s.checkSpans (s.viaOf s.cur) [(a, n)] needR true (smPol f) = .ok sp → s.team.keeps f.sd v →
      Accessed (fun _ => False) s after ∧ exec (.scalarLd sc f) s = .next (after.past (s.team.setS f.sd v) warn))) ∧
  (∀ (sc : BitVec 3) (f : UR) (s : State) (sp : List Span),
    let n := smSize f
    let a := smAddr f s.team
    let rel := ordRel (smOrd f)
    let after := (s.opened sp (if rel then some sc.toNat else none)).storeSpan s.cur sp.flatten (leBytes n (s.team.s f.sd).toNat)
    let warn := wIf (ordAcq (smOrd f)) wORD ||| wIf (!rel && sc != 0) wSCOPE ||| spanWarn sp (smPol f)
    (Instr.scalarSt sc f).wf = true →
    (a % n ≠ 0 → exec (.scalarSt sc f) s = .next (s.trap .align 0)) ∧
    (a % n = 0 → s.checkSpans (s.viaOf s.cur) [(a, n)] needW false (smPol f) = .ok sp →
      Stored (s.mayStore sp rel) s after ∧ exec (.scalarSt sc f) s = .next (after.past after.team warn)))

/-- A scalar atomic whose check phase passes updates its word at the home with the operation of the old value and s[sd]
(for cas, s[sd] where the old value is s[sd + 1]), writes the old value to sd, and leaves every byte at rest outside
the word (and outside what the stack cache writes back) as it was. (04 R100; 04 R103; 01 R36; 03 Table 3.9) -/
def Obligations.ScalarAtomics : Prop :=
  ScalarAtomDone .scalarAtomAdd 0 ∧ ScalarAtomDone .scalarAtomMin 1 ∧ ScalarAtomDone .scalarAtomMax 2 ∧
  ScalarAtomDone .scalarAtomAnd 3 ∧ ScalarAtomDone .scalarAtomOr 4 ∧ ScalarAtomDone .scalarAtomXor 5 ∧
  ScalarAtomDone .scalarAtomXchg 6 ∧ ScalarAtomDone .scalarAtomCas 7

/-- A branch sets the PC of the top divergence entry to its address plus four times the signed offset where its condition
holds, and to the next word otherwise; the conditions on masks test the execute mask and k, and none of them reads or
changes rp. (03 R70; 04 R107; 04 R112; 04 R113) -/
def Obligations.Branches : Prop :=
  BranchDone .bra (fun f => wIf (f.k != 0) wOPND) (fun _ _ => true) ∧
  BranchDone .brcEqz (fun _ => 0) (fun f t => decide (t.s (f.k.setWidth 6) = 0)) ∧
  BranchDone .brcNez (fun _ => 0) (fun f t => decide (t.s (f.k.setWidth 6) ≠ 0)) ∧
  BranchDone .brcLtz (fun _ => 0) (fun f t => decide ((t.s (f.k.setWidth 6)).toInt < 0)) ∧
  BranchDone .brcGez (fun _ => 0) (fun f t => decide (0 ≤ (t.s (f.k.setWidth 6)).toInt)) ∧
  BranchDone .brvAny (fun _ => 0) (fun f t => decide (t.exec &&& t.k f.k.toNat ≠ 0)) ∧
  BranchDone .brvAll (fun _ => 0) (fun f t => decide (t.exec &&& t.k f.k.toNat = t.exec)) ∧
  BranchDone .brvNone (fun _ => 0) (fun f t => decide (t.exec &&& t.k f.k.toNat = 0))

/-- With rp set, a BRV whose lanes all take or all fall through moves the PC; one whose execute mask is empty goes to rp;
one that splits sets the top entry to rp, or pops it where rp is its reconvergence address, and pushes the lanes that
fall through and then those that take it, each unless it would stand at rp already; rp is NONE afterwards. With rp
NONE, an empty mask or a split takes the illegal-instruction trap. (The split is stated for a stack with room, whose
entries are all held.) (04 R110; 04 R112; 04 Table 4.3; 04 R118) -/
def Obligations.SplitBranch : Prop :=
  ∀ (f : UB) (s : State), s.runs → s.team.div ≠ [] →
    let t := s.team
    let T := t.exec &&& t.k f.k.toNat
    let N := t.exec &&& ~~~t.k f.k.toNat
    let target := t.pc + 4 * f.off.signExtend 64
    let free := { t with rp := noAddr }
    let next := fun (pc : BitVec 64) => exec (.brv f) s = .next (s.moved free pc 0)
    (t.rp = noAddr → (t.exec = 0 ∨ (T ≠ 0 ∧ N ≠ 0)) → exec (.brv f) s = .next (s.trap .illegal 0)) ∧
    (t.rp ≠ noAddr → t.exec = 0 → next t.rp) ∧
    (t.exec ≠ 0 → N = 0 → next target) ∧
    (t.exec ≠ 0 → T = 0 → next (t.pc + 4)) ∧
    (t.rp ≠ noAddr → T ≠ 0 → N ≠ 0 → t.ndsp = 0 → t.div.length ≤ 14 →
      let below := if t.rp = t.top.reconv then t.div.tail else { t.top with pc := t.rp } :: t.div.tail
      let fall := if t.pc + 4 = t.rp then below else ⟨t.pc + 4, N, t.rp⟩ :: below
      let split := if target = t.rp then fall else ⟨target, T, t.rp⟩ :: fall
      exec (.brv f) s = .next (s.withTeam { free with div := split, wait := .none }))

/-- REC sets rp to its target; the PC moves past it, and nothing else changes. (04 R110) -/
def Obligations.RecSetsReconvergence : Prop :=
  ∀ (f : UB) (s : State), f.k = 0 →
    exec (.recMark f) s = .next (s.past { s.team with rp := s.team.pc + 4 * f.off.signExtend 64 } 0)

/-- CALL and CALLR push the address of the next word and go to their target, RET pops and goes there, JMPR goes to s[sa];
a target in a register that is not a multiple of 4 takes the misalignment trap, RET on an empty stack and JOIN at
depth 1 the illegal-instruction trap; JOIN at a greater depth pops the top entry. (Stated for stacks whose entries are
all held; a push beyond the limit spills.) (04 R108; 04 R109; 04 R114; 04 R116; 04 R118) -/
def Obligations.CallsAndJoin : Prop :=
  (∀ (f : UB) (s : State), s.runs → s.team.ret.length < 8 →
    exec (.call f) s = .next (s.moved { s.team with ret := (s.team.pc + 4) :: s.team.ret }
      (s.team.pc + 4 * f.off.signExtend 64) (wIf (f.k != 0) wOPND))) ∧
  (∀ s : State, s.runs →
    let t := s.team
    let x := t.s (s.iw.extractLsb' 10 6)
    let warn := wIf (s.iw &&& 0x3F03FF != 0) wOPND
    (x.toNat % 4 ≠ 0 → exec .jmpr s = .next (s.trap .align 0) ∧ exec .callr s = .next (s.trap .align 0)) ∧
    (x.toNat % 4 = 0 → exec .jmpr s = .next (s.moved t x warn)) ∧
    (x.toNat % 4 = 0 → t.ret.length < 8 →
      exec .callr s = .next (s.moved { t with ret := (t.pc + 4) :: t.ret } x warn))) ∧
  (∀ s : State, s.runs →
    let warn := wIf (s.iw &&& 0x3FFFFF != 0) wOPND
    (s.team.ret = [] → exec .ret s = .next (s.trap .illegal 0)) ∧
    (∀ pc r, s.team.ret = pc :: r → s.team.nrsp = 0 → exec .ret s = .next (s.moved { s.team with ret := r } pc warn)) ∧
    (s.team.div.length + s.team.ndsp ≤ 1 → exec .join s = .next (s.trap .illegal 0)) ∧
    (1 < s.team.div.length → s.team.ndsp = 0 → exec .join s = .next (s.withTeam { s.team with
      div := s.team.div.tail, iwarn := s.team.iwarn ||| BitVec.ofNat 64 warn, wait := .none, arr := false, prow := none })))

/-- With the pair even, below V, full in the rows of the execute mask and tagged I64 or RAW, and every active lane's
target a multiple of 4, CALLV goes to the lowest-numbered active lane's target with the address of the next word
pushed: with all active lanes where they share it, else with those that share it, the others left to issue CALLV
again. A misaligned target traps, naming the lanes; with no active lane the PC moves past the word. (04 R117; 04 R118;
01 R23) -/
def Obligations.CallThroughVector : Prop :=
  ∀ s : State, s.runs → s.team.div ≠ [] →
    let t := s.team
    let r := (s.iw.extractLsb' 0 16).toNat % 128
    let warn := wIf (s.iw &&& 0x3FFF80 != 0) wOPND
    let lanes := (List.range t.lanes).filter (inMask t.exec)
    let target := t.v64 r (lanes.headD 0)
    let T := maskOfList (lanes.filter fun n => t.v64 r n == target)
    let N := t.exec &&& ~~~T
    let served := { t with iwarn := t.iwarn ||| BitVec.ofNat 64 warn, ret := (t.pc + 4) :: t.ret, wait := .none }
    t.badWords = [] → r % 2 = 0 → r + 2 ≤ t.vregs → callvTags s = true →
    (t.exec = 0 → exec .callv s = .next (s.moved t (t.pc + 4) warn)) ∧
    (t.exec ≠ 0 → t.rowsFull r 2 = true →
      ((∃ n ∈ lanes, (t.v64 r n).toNat % 4 ≠ 0) →
        exec .callv s = .next (s.trap .align (maskOfList (lanes.filter fun n => (t.v64 r n).toNat % 4 != 0)))) ∧
      ((∀ n ∈ lanes, (t.v64 r n).toNat % 4 = 0) → t.ret.length < 8 → t.ndsp = 0 →
        (N = 0 → exec .callv s = .next (s.withTeam (served.setPc target))) ∧
        (N ≠ 0 → t.div.length ≤ 14 →
          let below := if t.pc + 4 = t.top.reconv then t.div.tail else { t.top with pc := t.pc + 4 } :: t.div.tail
          exec .callv s = .next (s.withTeam { served with
            div := ⟨target, T, t.pc + 4⟩ :: ⟨t.pc, N, t.pc + 4⟩ :: below }))))

/-- Each SETM writes its result to kd with the bits of lanes at or above L zero, discards a write to k0 with the fallback
KZERO, and takes the illegal-operand trap where a mask field it reads names no mask; GETM sets bit n for the lanes of
the execute mask whose element is not zero. k0 reads as all L lanes afterwards. (01 R20; 04 R119; 04 R120; 03 Table
3.15) -/
def Obligations.MaskInstructions : Prop :=
  MaskDone .setmAnd (fun f => maskField f.sd && maskField f.sa && maskField f.sb) (fun f t => t.k f.sa.toNat &&& t.k f.sb.toNat) ∧
  MaskDone .setmOr (fun f => maskField f.sd && maskField f.sa && maskField f.sb) (fun f t => t.k f.sa.toNat ||| t.k f.sb.toNat) ∧
  MaskDone .setmXor (fun f => maskField f.sd && maskField f.sa && maskField f.sb) (fun f t => t.k f.sa.toNat ^^^ t.k f.sb.toNat) ∧
  MaskDone .setmAndn (fun f => maskField f.sd && maskField f.sa && maskField f.sb)
    (fun f t => t.k f.sa.toNat &&& ~~~t.k f.sb.toNat) ∧
  MaskDone .setmNot (fun f => maskField f.sd && maskField f.sa) (fun f t => ~~~t.k f.sa.toNat) ∧
  MaskDone .setmMov (fun f => maskField f.sd && maskField f.sa) (fun f t => t.k f.sa.toNat) ∧
  MaskDone .setmAll (fun f => maskField f.sd) (fun _ t => allLanes t.lanes) ∧ MaskDone .setmNone (fun f => maskField f.sd) (fun _ _ => 0) ∧
  (∀ (f : UI) (s : State),
    let t := s.team
    let r := f.imm.toNat % 128
    t.badWords = [] → maskField f.sd = true → r < t.vregs → t.rowsFull r 1 = true →
    exec (.getm f) s = .next (s.past (t.setK f.sd.toNat (maskOf t.lanes fun n => inMask t.exec n && t.v r n != 0))
      (wIf (decide (128 ≤ f.imm.toNat)) wOPND ||| wIf (f.sd == 0) wKZERO))) ∧
  (∀ (t : Team) (k : Nat) (m : Mask), (t.setK k m).k 0 = allLanes t.lanes ∧
    (k ≠ 0 → (t.setK k m).k k = m &&& allLanes t.lanes) ∧ ∀ j, j ≠ k → (t.setK k m).k j = t.k j) ∧
  (∀ (l : Nat) (g : Nat → Bool) (n : Nat), l ≤ 1024 → (inMask (maskOf l g) n = true ↔ n < l ∧ g n = true))

/-- FENCE of kind rel or ar releases at its scope, of kind acq or ar acquires there, and retires; a kind of 0 or a scope
of 5 to 7 is an illegal instruction; BAR waits for the passes of the matrix instructions of its team and else retires
with every row due landed; YIELD retires owing an issue opportunity to every other resident team of its core. (04
R104; 04 R105; 04 R123; 10 R270) -/
def Obligations.FencesAndPacing : Prop :=
  (∀ (f : UR) (s : State),
    let kind := (f.sb.extractLsb' 0 2).toNat
    let sc := (f.aux.extractLsb' 0 3).toNat
    let warn := wIf (f.sd != 0 || f.sa != 0 || f.sb.extractLsb' 2 4 != 0 || f.aux.extractLsb' 3 1 != 0) wOPND
    let released := if kind = 2 ∨ kind = 3 then s.release s.cur sc else s
    let done := released.closed (if kind = 1 ∨ kind = 3 then some sc else none)
    (kind ≠ 0 → sc ≤ 4 → Stored (fun _ => sc ≠ 0 ∧ s.team.stk ≠ []) s done ∧ exec (.fence f) s = .next (done.past done.team warn)) ∧
    ((kind = 0 ∨ 4 < sc) → exec (.fence f) s = .next (s.trap .illegal 0))) ∧
  (∀ s : State, let warn := wIf (s.iw &&& 0x3FFFFF != 0) wOPND
    (s.team.matq ≠ [] → exec .bar s = .next (s.waitFor .earlier)) ∧
    (s.team.matq = [] → exec .bar s = .next (s.past s.team.landAllRows warn)) ∧
    exec .yield s = .next (s.past { s.team with
      owed := (s.teamsWith fun u => u.status == .resident && u.die == s.team.die && u.coreIdx == s.team.coreIdx).filter
        (· != s.cur) } warn))

/-- The first issue of a CBAR or DBAR releases and records the arrival; it departs at once, with an acquire, where every
team of the cluster group or die share that can still arrive has arrived, and waits otherwise; an issue after its
generation has departed acquires and retires. (04 R106; 04 R103) -/
def Obligations.GroupBarriers : Prop :=
  ∀ s : State, s.runs →
    let t := s.team
    let warn := wIf (s.iw &&& 0x3FFFFF != 0) wOPND
    let d := (s.group t.group).share
    let leave := fun (u : State) (sc : Nat) => u.closed (some sc) |>.past u.team warn
    (t.arr = true → s.cur ∉ (s.group t.group).arrivals → exec .cbar s = .next (leave s 1)) ∧
    (t.arr = true → s.cur ∈ (s.group t.group).arrivals → exec .cbar s = .next (s.withTeam { t with wait := .cbar })) ∧
    (t.arr = true → s.cur ∉ (s.share d).arrivals → exec .dbar s = .next (leave s 2)) ∧
    (t.arr = true → s.cur ∈ (s.share d).arrivals → exec .dbar s = .next (s.withTeam { t with wait := .dbar })) ∧
    (t.arr = false → t.group < s.groups.length →
      let u := s.release s.cur 1
      let g := u.group t.group
      let here := g.arrivals ++ [s.cur]
      ((u.groupTeams t.group).all (here.contains ·) = true →
        exec .cbar s = .next (leave (u.setGroup t.group { g with arrivals := [], gen := g.gen + 1 }) 1)) ∧
      ((u.groupTeams t.group).all (here.contains ·) = false →
        exec .cbar s = .next ((u.setGroup t.group { g with arrivals := here }).withTeam { u.team with wait := .cbar, arr := true }))) ∧
    (t.arr = false → d < s.shares.length →
      let u := s.release s.cur 2
      let x := u.share d
      let here := x.arrivals ++ [s.cur]
      ((u.shareTeams d).all (here.contains ·) = true →
        exec .dbar s = .next (leave (u.setShare d { x with arrivals := [], gen := x.gen + 1 }) 2)) ∧
      ((u.shareTeams d).all (here.contains ·) = false →
        exec .dbar s = .next ((u.setShare d { x with arrivals := here }).withTeam { u.team with wait := .dbar, arr := true })))

/-- With well-formed fields, registers below V and tags that suit (or tag traps off), MMA waits while another team holds
the array, the passes of an earlier one run or a row it reads is empty, and else takes the array, captures its
operands and retires, its passes due; MMAG then arrives at its group's latch and waits there, or takes the
illegal-operand trap where GANG lists no gang of its own; MZERO waits for the array and for the matrix instructions in
flight on its set, and else leaves the set EMPTY. The captured words are the elements of the named registers. (07
R203; 07 R207; 07 R208; 07 R211; 07 R212; 07 R213; 07 R218; 03 R84) -/
def Obligations.MatrixInstructions : Prop :=
  (∀ (sb : BitVec 3) (f : UE) (s : State), s.runs →
    let t := s.team
    let fmt := (f.eng.extractLsb' 0 4).toNat
    let unsliced := decide (3 ≤ fmt) && decide (fmt ≤ 13)
    let regs := run (mmA f) (mmNa f t.lanes) ++ run (mmB f) (mmNb f t.lanes)
    let m : MatOp := { gang := false, fmt := f.eng.extractLsb' 0 4, slices := if unsliced then 1 else (f.eng.extractLsb' 6 4).toNat,
                       tri := decide (fmt ≤ 2) && f.eng.getLsbD 5, set := (f.eng.extractLsb' 4 1).toNat, sb := sb.extractLsb' 1 2,
                       lanes := t.lanes, captured := t.captureA f ++ t.captureB f }
    (Instr.mma sb f).wf = true → mmRegsOk f t = true → (t.tagt = true → mmTagsOk f t = true) →
    (s.arrayHeld s.cur = true → exec (.mma sb f) s = .next (s.waitFor .array)) ∧
    (s.arrayHeld s.cur = false → t.matq ≠ [] → exec (.mma sb f) s = .next (s.waitFor .earlier)) ∧
    (s.arrayHeld s.cur = false → t.matq = [] → t.allRowsFull regs = false → exec (.mma sb f) s = .next (s.waitFor .row)) ∧
    (s.arrayHeld s.cur = false → t.matq = [] → t.allRowsFull regs = true → t.badWords = [] →
      exec (.mma sb f) s = .next ((s.past { t with holder := true, matq := [m] } (mmWarn sb f t)).post
        .matrixComplete { a := s.cur }))) ∧
  (∀ (f : UE) (t : Team) (r l : Nat), t.vregs ≤ 128 → mmRegsOk f t = true → t.lanes ≤ 1024 → l < t.lanes →
    (r < mmNa f t.lanes → fget 0 (t.captureA f ++ t.captureB f) (r * 1024 + l) = t.v (mmA f + r) l) ∧
    (r < mmNb f t.lanes → fget 0 (t.captureA f ++ t.captureB f) ((512 + r) * 1024 + l) = t.v (mmB f + r) l)) ∧
  (∀ (sb : BitVec 3) (f : UE) (s : State), s.runs →
    let t := s.team
    let g := s.group t.group
    (Instr.mmag sb f).wf = true → mmRegsOk f t = true → (t.tagt = true → mmTagsOk f t = true) →
    (t.gangOk = false → exec (.mmag sb f) s = .next (s.trap .operand 0)) ∧
    (t.gangOk = true → s.arrivalOf s.cur = none → s.arrayHeld s.cur = false → t.allRowsFull (gangReads f t) = true →
      t.badWords = [] → (∀ a ∈ g.latch, t.gangPositions (s.teamAt a.team).tix ≠ [] → (s.teamAt a.team).gang = t.gang) →
      exec (.mmag sb f) s = .next (((s.setGroup t.group { g with latch := g.latch ++ [⟨s.cur, sb, f⟩] }).withTeam
        { t with wait := .latch, arr := true, holder := true }).postLatch s.cur))) ∧
  (∀ s : State, s.runs →
    let t := s.team
    let set := (s.iw.extractLsb' 4 1).toNat
    let cleared := t.setAcc set emptySet
    (s.arrayHeld s.cur = true → exec .mzero s = .next (s.waitFor .array)) ∧
    (s.arrayHeld s.cur = false → (∃ m ∈ t.matq, m.set = set) → exec .mzero s = .next (s.waitFor .earlier)) ∧
    (s.arrayHeld s.cur = false → (∀ m ∈ t.matq, m.set ≠ set) →
      exec .mzero s = .next (s.past { cleared with holder := (t.acc (1 - set)).active || !t.matq.isEmpty }
        (wIf (s.iw &&& 0x3FFFEF != 0) wOPND)) ∧
      cleared.acc set = emptySet ∧ cleared.acc (1 - set) = t.acc (1 - set) ∧ cleared.mbound = t.mbound))

/-- A drain that finds the array its own, no matrix instruction in flight on its set, its destination rows full and no
enabled exception retires with the set EMPTY, MBOUND the set's bound, the group's rows due and empty until they land,
its exceptions in FLAGS and no register, mask or memory changed; with .amax the word at s[sa] also takes the maximum
at its home. Outside stochastic rounding the bits of element e of the group are the element of the set rounded once.
(07 R215; 07 R216; 07 R217; 08 R249; 02 R57; 01 R22; 05 R139) -/
def Obligations.MatrixDrain : Prop :=
  (∀ (f : UE) (s : State), s.runs →
    let t := s.team
    let set := (f.eng.extractLsb' 2 1).toNat
    let c := fragRegs (ofmtWidth (mdOfmt f)) t.lanes
    (Instr.mdrain f).wf = true → mdD f + c ≤ t.vregs → (mdPair f = true → f.sa.toNat % 2 = 0) →
    (s.arrayHeld s.cur = true → exec (.mdrain f) s = .next (s.waitFor .array)) ∧
    (s.arrayHeld s.cur = false → (∃ m ∈ t.matq, m.set = set) → exec (.mdrain f) s = .next (s.waitFor .earlier)) ∧
    (s.arrayHeld s.cur = false → (∀ m ∈ t.matq, m.set ≠ set) → t.allRowsFull (run (mdD f) c) = true →
      t.exc = 0 → t.excFlags = 0 → drainRaised f t &&& t.te = 0 →
      (mdAmax f = false → ∃ u, s.drainsTo f u ∧ exec (.mdrain f) s = .next u) ∧
      (mdAmax f = true → (t.s f.sa).toNat % 4 ≠ 0 → exec (.mdrain f) s = .next (s.trap .align 0)) ∧
      (mdAmax f = true → (t.s f.sa).toNat % 4 = 0 →
        ∀ sp, s.checkSpans (s.viaOf s.cur) [((t.s f.sa).toNat, 4)] (needR ||| needW) true polWt = .ok sp →
        ∃ u, (s.fillSpans (s.viaOf s.cur) sp).drainsTo f u ∧
          exec (.mdrain f) s = .next (u.rmw u.cur (Span.first sp.flatten) 4 fun old =>
            atomNew 2 1 old ((t.acc set).amax.setWidth 64) 0).1))) ∧
  (∀ (f : UE) (t : Team) (a : AccSet) (e : Nat), mdMode f t < 5 → e < 4096 → 0 < t.lanes → t.lanes ≤ 1024 →
    let w := ofmtWidth (mdOfmt f)
    let y := (drainAll f t a).words
    let x := (drainElem (mdOfmt f) t.f16z (rndOf (mdMode f t) 0).1 (field (t.s (f.sa + 1)) 0 8) (a.elem e)).1
    (w = 64 → (fget 0 y (2 * (e / t.lanes) * 1024 + e % t.lanes)).toNat = x % 2 ^ 32 ∧
      (fget 0 y ((2 * (e / t.lanes) + 1) * 1024 + e % t.lanes)).toNat = x / 2 ^ 32 % 2 ^ 32) ∧
    (w ≠ 64 → bitsAt (fget 0 y (e / (32 / w * t.lanes) * 1024 + e % (32 / w * t.lanes) / (32 / w))).toNat (e % (32 / w) * w) w =
      x % 2 ^ w))

/-- The oldest matrix operation of a resident team finishes its passes into its set, a ganged one for every member at
once, one of a broken gang later; a gang whose members have all arrived with equal fields starts, with unequal fields
all trap; the providers of a tile are the members of column 0 and of row 0; a row of a producer lands, full, of one
that lands its rows in ascending order its first. A partial that is added without a shift below the anchor and within
192 bits is added exactly, and a bound never falls below the sum it stands for. (07 R203; 07 R210; 07 R213; 07 R214;
08 R241; 08 R244; 08 R245; 08 R252; 01 R22; 15 R374) -/
def Obligations.MatrixPasses : Prop :=
  (∀ (s : State) (m : MatOp) (r : List MatOp),
    let k := s.arg.a
    let t := s.teamAt k
    ((t.matq = [] ∨ t.status ≠ .resident) → exec .matrixComplete s = .next s) ∧
    (t.matq = m :: r → t.status = .resident → s.gangBroken k = true →
      exec .matrixComplete s = .next (s.post .matrixComplete s.arg)) ∧
    (t.matq = m :: r → t.status = .resident → s.gangBroken k = false → m.gang = false →
      exec .matrixComplete s = .next (s.setTeam k
        ((({ t with matq := r }).setAcc m.set (accUpdate (t.acc m.set) m.contribs)).releaseArray))) ∧
    (t.matq = m :: r → t.status = .resident → s.gangBroken k = false → m.gang = true →
      ((s.gangMembers k).filterMap id).Nodup → ∃ u, exec .matrixComplete s = .next u ∧
        u = { s with teams := u.teams } ∧ u.teams.length = s.teams.length ∧
        ∀ j, u.teamAt j = match (s.teamAt j).matq with
          | m' :: r' => if m'.gang = true ∧ (j = k ∨ some j ∈ s.gangMembers k)
              then ({ s.teamAt j with matq := r' }.setAcc m'.set (accUpdate ((s.teamAt j).acc m'.set) m'.contribs)).releaseArray
              else s.teamAt j
          | [] => s.teamAt j)) ∧
  (∀ s : State,
    let k := s.arg.a
    let ms := (s.gangMembers k).filterMap id
    let arrivals := ms.filterMap s.arrivalOf
    s.gangArrived k = true → ms ≠ [] → (∀ j ∈ ms, (s.teamAt j).status = .resident ∧ (s.teamAt j).matq = [] ∧ s.arrayHeld j = false) →
    (arrivals.all (fun a => arrivals.all a.agree) = true →
      exec .gangLatchComplete s = .next ((s.unlatch (s.teamAt k).group ms).startGang arrivals)) ∧
    (arrivals.all (fun a => arrivals.all a.agree) = false →
      exec .gangLatchComplete s = .next (s.gangTrap (s.teamAt k).group ms))) ∧
  (∀ n ∈ [2, 4, 6, 8], ∀ p, p < n → gangA n p < n ∧ gangB n p < n ∧
    gangTile n (gangA n p) = ((gangTile n p).1, 0) ∧ gangTile n (gangB n p) = (0, (gangTile n p).2)) ∧
  (∀ (s : State) (p : ProdRow),
    let t := s.teamAt s.arg.a
    (t.prods = [] → exec .producerRowFull s = .next s) ∧
    (t.prods ≠ [] → ∃ q ∈ t.prods, s.pickFrom 2 t.landable = some q) ∧
    (s.pickFrom 2 t.landable = some p → p ∈ t.prods ∧
      (p.group ≠ none → t.prods.find? (fun q => q.group == p.group) = some p) ∧
      exec .producerRowFull s = .next (s.setTeam s.arg.a (({ t with prods := t.prods.erase p }).landRow p)) ∧
      (p.row < 32 → ((({ t with prods := t.prods.erase p } : Team).landRow p).rowEmpty p.reg p.row) = false))) ∧
  (∀ (x : AccElem) (v e : Int), x.anchor.toInt ≤ e →
    let part := v * 2 ^ (e - x.anchor.toInt).toNat
    let sum := x.acc.toInt + part
    let fits := fun (z : Int) => -(2 : Int) ^ 191 ≤ z ∧ z < 2 ^ 191
    fits sum → fits part →
    (accAdd x (v, e)).acc.toInt = sum ∧ (accAdd x (v, e)).loss = x.loss ∧ (accAdd x (v, e)).ov = x.ov ∧
      (accAdd x (v, e)).anchor = x.anchor) ∧
  (∀ (w : Word32) (m : Nat) (e k : Int),
    let a := boundParts w
    let b := boundParts (badd w m e)
    (-16384 ≤ a.2 ∧ a.2 ≤ 16384) → (-16384 ≤ e ∧ e ≤ 16384) → m < 2 ^ 64 → k ≤ -20000 →
    a.1 * 2 ^ (a.2 - k).toNat + m * 2 ^ (e - k).toNat ≤ b.1 * 2 ^ (b.2 - k).toNat)

/-- A CPY of 2^36 bytes or more takes the illegal-operand trap, one of no bytes completes at once, another is queued after
a release at die scope; a CPYMG reads its descriptor, its grids and its weights in order and is queued with them; a
CPYRED reads its descriptor and its member table and is queued with them. What the checks refuse takes the trap the
spec names. No byte of memory at rest changes at issue, but what a stack cache writes back. (07 R219; 07 R223; 07
R224; 07 R225; 13 R331; 13 R332; 13 R333; 03 Table 3.15) -/
def Obligations.CopyIssue : Prop :=
  (∀ (sc : BitVec 3) (f : UE) (s : State), (Instr.cpy sc f).wf = true →
    let t := s.team
    let n := (t.s (f.eng.extractLsb' 4 6)).toNat
    let acq := f.eng.getLsbD 3
    let rel := f.eng.getLsbD 2
    let pol := (f.eng.extractLsb' 0 2).toNat
    let u := s.release s.cur 2
    let warn := wIf (!acq && !rel && sc != 0) wSCOPE ||| u.copyPolWarn (t.s f.sd).toNat n pol
    (2 ^ 36 ≤ n → exec (.cpy sc f) s = .next (s.trap .operand 0)) ∧
    (n < 2 ^ 36 → Stored (fun _ => t.stk ≠ []) s u ∧
      (n = 0 → exec (.cpy sc f) s = .next (u.past u.team warn)) ∧
      (n ≠ 0 → exec (.cpy sc f) s = .next ((u.queued { u.newCopy (.cpy pol) acq rel sc with
        dst := t.s f.sd, src := t.s f.sa, len := n }).past u.team warn)))) ∧
  MgDone .cpymgInj 0 ∧ MgDone .cpymgFw 1 ∧ MgDone .cpymgPro 2 ∧ MgDone .cpymgProadd 3 ∧ MgDone .cpymgCvt 4 ∧
  (∀ (sc : BitVec 3) (f : UE) (s s1 s2 : State) (d tab : Nat), (Instr.cpyred sc f).wf = true →
    let acq := f.eng.getLsbD 1
    let rel := f.eng.getLsbD 0
    let wire := (f.eng.extractLsb' 6 4).toNat
    let da := (s.team.s f.sa).toNat
    let nm := bitsAt d 232 8
    let members := (List.range (nm + 1)).map fun i => BitVec.ofNat 64 (bitsAt tab (64 * i) 64)
    let warn := wIf (!acq && !rel && sc != 0) wSCOPE ||| wIf (f.sd != 0 || f.eng.extractLsb' 2 4 != 0) wOPND
    (da % 64 ≠ 0 → exec (.cpyred sc f) s = .next (s.trap .align 0)) ∧
    (da % 64 = 0 → (s.release s.cur 2).readBlock da 64 needR = .ok (s1, d) →
      ((nm < bitsAt d 240 8 ∨ (4 ≤ wire ∧ bitsAt d 128 32 % 32 ≠ 0)) → exec (.cpyred sc f) s = .next (s1.trap .operand 0)) ∧
      (¬ (nm < bitsAt d 240 8 ∨ (4 ≤ wire ∧ bitsAt d 128 32 % 32 ≠ 0)) →
        s1.readBlock (bitsAt d 256 64) (8 * (nm + 1)) needR = .ok (s2, tab) →
        let src : Word64 := BitVec.ofNat 64 (bitsAt d 0 64)
        let off := fun (lo : Nat) => (src + (BitVec.ofNat 32 (bitsAt d lo 32)).signExtend 64).toNat
        let aligned := bitsAt d 0 64 % 4 = 0 ∧ off 96 % 4 = 0 ∧ off 64 % 4 = 0
        Stored (fun _ => s.team.stk ≠ []) s s2 ∧
        ((∃ m ∈ members, 1 < field m 0 8) → exec (.cpyred sc f) s = .next (s2.trap .operand 0)) ∧
        ((∀ m ∈ members, field m 0 8 ≤ 1) →
          (¬ aligned → exec (.cpyred sc f) s = .next (s2.trap .align 0)) ∧
          (aligned → exec (.cpyred sc f) s = .next ((s2.queued { s2.newCopy (.red wire) acq rel sc with
            src := BitVec.ofNat 64 da, desc := BitVec.ofNat 512 d, members := members }).past s2.team warn))))))

/-- CPYCLOSE puts the team's open commands into batch CLOSED + 1 and writes its number to sd; DONE stands at the end of
the longest run of batches, from the one after the old DONE, that hold no command. CPYWAIT of a batch not closed yet
takes the illegal-operand trap, waits while its batch is not done, and else acquires at die scope and retires. (07
R220; 07 R221; 01 R36) -/
def Obligations.CopyBatches : Prop :=
  (∀ s : State, s.runs →
    let t := s.team
    let sd := s.iw.extractLsb' 16 6
    let b := t.closed + 1
    let u := s.closeBatch s.cur
    let n := (u.team.done - t.done).toNat
    (¬ t.keeps sd (b.setWidth 64) → exec .cpyclose s = .next (s.trap .stackLimit 0)) ∧
    (t.keeps sd (b.setWidth 64) →
      exec .cpyclose s = .next (u.past (u.team.setS sd (b.setWidth 64)) (wIf (s.iw &&& 0xFFFF != 0) wOPND))) ∧
    u.team = { t with closed := b, done := u.team.done } ∧
    (u.copies = s.copies.map fun c => if c.team = s.cur ∧ c.batch = none then { c with batch := some b } else c) ∧
    n ≤ (b - t.done).toNat ∧
    (∀ j, j < n → ∀ c ∈ u.copies, c.team = s.cur → c.batch ≠ some (t.done + BitVec.ofNat 32 (j + 1))) ∧
    (n < (b - t.done).toNat → ∃ c ∈ u.copies, c.team = s.cur ∧ c.batch = some (u.team.done + 1))) ∧
  (∀ s : State,
    let t := s.team
    let b := (t.s (s.iw.extractLsb' 10 6)).setWidth 32
    let u := s.acquire s.cur 2
    (0 < (b - t.closed).toInt → exec .cpywait s = .next (s.trap .operand 0)) ∧
    ((b - t.closed).toInt ≤ 0 → (t.done - b).toInt < 0 → exec .cpywait s = .next (s.waitFor .cpywait)) ∧
    ((b - t.closed).toInt ≤ 0 → 0 ≤ (t.done - b).toInt →
      exec .cpywait s = .next (u.past u.team (wIf (s.iw &&& 0x3F03FF != 0) wOPND))))

/-- An engine does nothing for a command that is gone or waits for a page, tries again later where its die has no engine
ready, and ends the launch at a protection fault; a CPY whose ranges check out reads every source byte and then writes
every destination byte, changes no other byte at rest, and leaves the queue. A contribution is kept for its member,
whose command goes on when it has every one. (07 R219; 07 R222; 07 R223; 07 R226; 13 R338; 16 R390; 01 R33) -/
def Obligations.CopyEngines : Prop :=
  (∀ s : State, (∀ c ∈ s.copies, c.id ≠ s.arg.a) → exec .copyCommandComplete s = .next s) ∧
  (∀ (s : State) (c : Copy), s.copies.find? (fun x => x.id == s.arg.a) = some c →
    (c.held ≠ none → exec .copyCommandComplete s = .next s) ∧
    (c.held = none → field (s.creg 0x18) (8 * c.die) 8 = 0 →
      exec .copyCommandComplete s = .next (s.post .copyCommandComplete { a := c.id })) ∧
    (c.held = none → field (s.creg 0x18) (8 * c.die) 8 ≠ 0 →
      (∀ pol va, c.kind = .cpy pol → s.checkSpans c.via [(c.src.toNat, c.len)] needR true polWt = .error (.prot va) →
        exec .copyCommandComplete s = .next (s.endLaunch c.launch c.die 1 5 va c.pc.toNat)) ∧
      (∀ pol a b, c.kind = .cpy pol → s.checkSpans c.via [(c.src.toNat, c.len)] needR true polWt = .ok a →
        s.checkSpans c.via [(c.dst.toNat, c.len)] needW false pol = .ok b →
        let r := ((s.fillSpans c.via a).fillSpans c.via b).engLoad c.via a.flatten
        let u := (r.1.engStore c.via b.flatten r.2).copyDone c
        exec .copyCommandComplete s = .next u ∧ (∀ x ∈ u.copies, x.id ≠ c.id) ∧
        (s.mem.wf = true → u.mem.wf = true ∧ ∀ x, s.rests (Span.has b.flatten) x → u.mem.read x = s.mem.read x)) ∧
      (∀ op bnd mode, c.kind = .mg op bnd mode → exec .copyCommandComplete s = .next (s.runMg c op bnd mode)) ∧
      (∀ w, c.kind = .red w →
        exec .copyCommandComplete s = .next (if c.phase = 0 then s.formRed c else s.sumRed c)))) ∧
  (∀ s : State,
    (s.arg.con = none → exec .cpyredContribution s = .next s) ∧
    (∀ x, s.arg.con = some x →
      let u : State := { s with collected := s.collected ++ [x] }
      ((∀ c ∈ s.copies, ¬ (c.phase = 1 ∧ c.hears x = true)) → exec .cpyredContribution s = .next u) ∧
      (∀ c, s.copies.find? (fun c => c.phase == 1 && c.hears x) = some c →
        exec .cpyredContribution s = .next (u.checkRed c) ∧
        (mismatch c (u.heard c) = false → (u.heard c).length = redNm c.desc.toNat + 1 →
          u.checkRed c = u.post .copyCommandComplete { a := c.id }))))

/-- SPAWN of a valid record to an open queue with room advances its join counter by the teams of the launch, releases at
device scope, appends the record and counts one child; EMIT of a valid template releases once and then goes on with
one lane record of each active lane in ascending order, whose words are the template's first half and the lane's
argument elements: each record placed advances the counter by one and counts a child, the last one retires the
instruction, one that finds no room waits; with no active lane it only releases. What is not open, aligned or valid
takes its trap, a team of depth 10 the nesting trap; a full ring waits. (07 R227; 07 R228; 07 R229; 07 R230; 04 R126;
04 Table 4.6; 14 R347; 14 R351) -/
def Obligations.WorkRecords : Prop :=
  (∀ (f : UE) (s s1 : State) (r : Nat) (j : Option Hit),
    let q := (s.team.s f.sd).toNat
    let a := (s.team.s f.sa).toNat
    let warn := wIf (f.eng != 0) wOPND
    let i := Instr.spawn f
    (s.queueOpen q = false → exec i s = .next (s.trap .operand 0)) ∧
    (s.queueOpen q = true → a % 64 ≠ 0 → exec i s = .next (s.trap .align 0)) ∧
    (s.queueOpen q = true → a % 64 = 0 → s.readBlock a 64 needR = .ok (s1, r) →
      (recordOk r 0 = false → exec i s = .next (s1.trap .operand 0)) ∧
      (recordOk r 0 = true → s1.checkJoin (shapeOf r).join = .ok j →
        (s1.team.depth = 10 → exec i s = .next (s1.trap .nesting 0)) ∧
        (s1.team.depth ≠ 10 → 2 ^ s1.qLog q ≤ s1.qCount q → exec i s = .next (s1.waitFor .room)) ∧
        (s1.team.depth ≠ 10 → s1.qCount q < 2 ^ s1.qLog q →
          (∀ x, s1.appendWait q = some x → exec i s = .next ((s1.unitAsk x).waitFor .busy)) ∧
          (s1.appendWait q = none →
          let u := (s1.addJoin j (shapeOf r).teams).release s1.cur 3
          let v := (({ u with spawned := u.spawned ++ [(q, u.qTail q, s1.cur)] }.appendRecord q r).addChildren 1).postDecisions
          exec i s = .next (v.past v.team warn)))))) ∧
  (∀ (f : UE) (s s1 : State) (r : Nat) (j : Option Hit),
    let a := (s.team.s f.sa).toNat
    let va := (f.eng.extractLsb' 3 7).toNat
    let n := (f.eng.extractLsb' 0 3).toNat + 1
    let warn := wIf (f.sd != 0) wOPND
    let i := Instr.emit f
    s.team.emitting = none → s.team.badWords = [] →
    (s.team.vregs < va + n → exec i s = .next (s.trap .operand 0)) ∧
    (va + n ≤ s.team.vregs → a % 64 ≠ 0 → exec i s = .next (s.trap .align 0)) ∧
    (va + n ≤ s.team.vregs → a % 64 = 0 → s.readBlock a 64 needR = .ok (s1, r) →
      let small := s1.qField s1.myLaunch.queue 232 8 < (shapeOf r).stk + 1
      ((recordOk r 1 = false ∨ small) → exec i s = .next (s1.trap .operand 0)) ∧
      (recordOk r 1 = true → ¬ small → s1.checkJoin (shapeOf r).join = .ok j →
        (s1.team.depth = 10 → exec i s = .next (s1.trap .nesting 0)) ∧
        (s1.team.depth ≠ 10 → s1.team.rowsFull va n = false → exec i s = .next (s1.waitFor .row)) ∧
        (s1.team.depth ≠ 10 → s1.team.rowsFull va n = true →
          let u := s1.release s1.cur 3
          exec i s = .next (u.emitOne f (BitVec.ofNat 512 r) j u.team.execLanes warn))))) ∧
  (∀ (f : UE) (s : State) (r : BitVec 512) (n : Nat) (j : Option Hit),
    s.team.emitting = some (r, n) → s.checkJoin (shapeOf r.toNat).join = .ok j →
    (s.team.depth = 10 → exec (.emit f) s = .next (s.trap .nesting 0)) ∧
    (s.team.depth ≠ 10 → exec (.emit f) s =
      .next (s.emitOne f r j (s.team.execLanes.filter fun l => decide (n ≤ l)) (wIf (f.sd != 0) wOPND)))) ∧
  (∀ (f : UE) (s : State) (r : BitVec 512) (j : Option Hit) (n : Nat) (rest : List Nat) (warn : Nat),
    let x : LaneRec := ⟨laneRecord r.toNat s.team f n, s.cur, s.team.launch⟩
    s.emitOne f r j [] warn = s.past { s.team with emit := none } warn ∧
    (s.placeRecord (s.binKey r.toNat) x = none → s.emitOne f r j (n :: rest) warn = s.waitFor .room) ∧
    (∀ w, s.placeRecord (s.binKey r.toNat) x = some w →
      let v := (w.addJoin j 1).addChildren 1
      (rest = [] → s.emitOne f r j (n :: rest) warn = v.past { v.team with emit := none } warn) ∧
      (rest ≠ [] → s.emitOne f r j (n :: rest) warn =
        v.withTeam { v.team with emit := some (v.team.pc, r, n + 1), wait := .none }))) ∧
  (∀ (r : Nat) (t : Team) (f : UE) (l i : Nat), i < 8 →
    let x := laneRecord r t f l
    x.extractLsb' 0 256 = BitVec.ofNat 256 r ∧
    x.extractLsb' (256 + 32 * i) 32 = if i < emitN f then t.v (emitVa f + i) l else 0)

/-- PHARV of an aligned object with a valid topology and participant waits while its phase is LEAD past a neighbour's, and
else releases, advances its own phase count by one and DONE by the phases everyone has passed, writes its phase number
to sd and leaves every byte at rest outside the object as it was; PHWAIT waits until DONE has passed s[sd] and then
acquires. PREF retires whatever it names: the tier-cache form changes no byte at rest, the migrator form adds at most
16 offers. PACK of a 256-byte block has its home take the block's words back and recompress it. (07 R232; 07 R233; 07
R234; 07 R235; 07 R236; 07 R237; 12 R322) -/
def Obligations.PhaseBarriersAndPrefetch : Prop :=
  (∀ (f : UE) (s : State) (sp : List Span),
    let a := (s.team.s f.sa).toNat
    let u := s.fillSpans (s.viaOf s.cur) sp
    let o := leNat (u.homeRead s.cur sp.flatten true).2
    let i := s.team.gix
    let q : Word64 := BitVec.ofNat 64 (bitsAt o 256 32 + phAhead o i)
    let bad := 2 < bitsAt o 296 8 ∨ phNm o < i
    let warn := wIf (f.eng != 0) wOPND
    (a % 64 ≠ 0 → exec (.pharv f) s = .next (s.trap .align 0) ∧ exec (.phwait f) s = .next (s.trap .align 0)) ∧
    (a % 64 = 0 → s.checkSpans (s.viaOf s.cur) [(a, 64)] (needR ||| needW) true polOp = .ok sp →
      let v := ((s.fillSpans (s.viaOf s.cur) [sp.flatten]).release s.cur 3 |>.homeRead s.cur sp.flatten false).1
      let w := v.homeWrite sp.flatten (leBytes 64 (phArrive o i))
      (bad → exec (.pharv f) s = .next (s.trap .operand 0)) ∧
      (¬ bad → phMay o i (s.team.allow.toNat % 8) = false → exec (.pharv f) s = .next (s.waitFor .pharv)) ∧
      (¬ bad → phMay o i (s.team.allow.toNat % 8) = true → s.team.keeps f.sd q →
        Stored (s.mayStore sp true) s w ∧ exec (.pharv f) s = .next (w.past (s.team.setS f.sd q) warn))) ∧
    (a % 64 = 0 → s.checkSpans (s.viaOf s.cur) [(a, 64)] needR true polOp = .ok sp →
      let v := ((s.fillSpans (s.viaOf s.cur) [sp.flatten]).homeRead s.cur sp.flatten true).1.acquire s.cur 3
      let past := 0 < (BitVec.ofNat 32 (bitsAt o 256 32) - (s.team.s f.sd).setWidth 32).toInt
      (bad → exec (.phwait f) s = .next (s.trap .operand 0)) ∧
      (¬ bad → ¬ past → exec (.phwait f) s = .next (s.waitFor .phwait)) ∧
      (¬ bad → past → exec (.phwait f) s = .next (v.past v.team warn)))) ∧
  (∀ (o i j : Nat), i < 32 → j < 32 →
    bitsAt (phArrive o i) (8 * j) 8 = (if j = i then (bitsAt o (8 * j) 8 + 1) % 256 else bitsAt o (8 * j) 8) ∧
    bitsAt (phArrive o i) 288 16 = bitsAt o 288 16) ∧
  (∀ (f : UE8) (s : State), ∃ u, Accessed (fun _ => False) s u ∧
    exec (.prefTc f) s = .next (u.past u.team (wIf (f.eng != 0) wOPND))) ∧
  (∀ (f : UE8) (s : State), ∃ new ev, new.length ≤ 16 ∧ (∀ e ∈ ev, e.row = .migrateBlock) ∧
    exec (.prefBw f) s = .next ({ s with offers := s.offers ++ new, events := s.events ++ ev }.past s.team (wIf (f.eng != 0) wOPND))) ∧
  (∀ (s : State) (sp : List Span),
    let a := (s.team.s (s.iw.extractLsb' 10 6)).toNat
    let u := s.fillSpans (s.viaOf s.cur) sp
    let h := Span.first sp.flatten
    (a % 256 ≠ 0 → exec .pack s = .next (s.trap .align 0)) ∧
    (a % 256 = 0 → s.checkSpans (s.viaOf s.cur) [(a, 256)] needW false polWt = .ok sp →
      exec .pack s = .next ((if h.global && h.cmp then u.packAt u.cur h.key else u).past
        (if h.global && h.cmp then u.packAt u.cur h.key else u).team (wIf (s.iw &&& 0x3F03FF != 0) wOPND))))

/-- A trap of a team with a handler, not inside it, saves the address of its instruction, or of the next one, in TEPC, its
cause, ARG and exceptions with H and NEXT in TCAUSE and its lanes in TMASK, and the PC of the top divergence entry
becomes TVEC; nothing else of the machine changes but the team's record of what its instruction waited for. (04 R129) -/
def Obligations.TrapDelivery : Prop :=
  ∀ (c : Cause) (lanes : Mask) (arg : Nat) (exc : Fl) (next : Bool) (len : Nat) (s : State), arg < 65536 →
    let t := s.team
    t.tvec ≠ 0 → t.handler = false → t.div ≠ [] →
    let pc := if next then t.pc + BitVec.ofNat 64 len else t.pc
    let cause : Word64 := BitVec.ofNat 16 arg ++ (exc ++ (0#17 ++ ((if next then 1#1 else 0#1) ++ (1#1 ++ BitVec.ofNat 8 c.code))) : BitVec 32)
      |>.setWidth 64
    s.trapWith c lanes arg exc next len = s.withTeam { t with
      div := { t.top with pc := t.tvec } :: t.div.tail, tepc := pc &&& 0x1FFFFFFFFFFFFFC, tcause := cause, tmask := lanes,
      wait := .none, arr := false, prow := none, exc := 0, excFlags := 0 }

/-- TRAP raises cause 9 with its code, naming the next word; a trap with no handler, or inside one, ends the launch with a
record of kind 6; RFT goes to TEPC and clears H, and outside a handler is an illegal instruction; a word that is no
instruction takes the illegal-instruction trap; a fetch that fails ends the launch or page-faults; a reseed seeds
every lane's generator from SEED. (04 R128; 04 R130; 04 R131; 03 R72; 03 R84; 01 R32; 02 R59; 15 R370; 15 R377) -/
def Obligations.TrapInstructions : Prop :=
  (∀ s : State, s.runs →
    exec .trapCode s = .next (s.trapWith .trapInstr 0 (s.iw.extractLsb' 0 16).toNat 0 true 4)) ∧
  (∀ (c : Cause) (lanes : Mask) (arg : Nat) (exc : Fl) (next : Bool) (len : Nat) (s : State),
    let t := s.team
    let pc := if next then t.pc + BitVec.ofNat 64 len else t.pc
    (t.tvec = 0 ∨ t.handler = true) →
      s.trapWith c lanes arg exc next len = s.endLaunch t.launch t.die 6 c.code 0 (pc &&& 0x1FFFFFFFFFFFFFC).toNat) ∧
  (∀ s : State, s.runs →
    let t := s.team
    (t.handler = false → exec .rft s = .next (s.trap .illegal 0)) ∧
    (t.handler = true → exec .rft s = .next (s.moved { t with tcause := t.tcause &&& ~~~(0x100 : Word64) } t.tepc
      (wIf (s.iw &&& 0x3FFFFF != 0) wOPND)))) ∧
  (∀ s : State, exec .illegalInstruction s = .next (s.trap .illegal 0)) ∧
  (∀ s : State,
    let t := s.team
    let va := s.arg.v.toNat
    (s.arg.a = 0 → exec .fetchFault s = .next (s.endLaunch t.launch t.die 1 5 va t.pc.toNat)) ∧
    (s.arg.a = 1 → exec .fetchFault s = .next (s.pageFault va s.arg.b s.arg.c false true)) ∧
    (2 ≤ s.arg.a → exec .fetchFault s = .next (s.endLaunch t.launch (if s.arg.c = 0 then t.die else s.arg.c - 1) s.arg.b 0 va t.pc.toNat))) ∧
  (∀ s : State,
    let t := s.teamAt s.arg.a
    let u := { t with genSeed := t.fctl.extractLsb' 32 32, gen := [] }
    exec .fctlReseed s = .next (s.setTeam s.arg.a u) ∧ ∀ l, u.g l = genSeedOf (t.fctl.extractLsb' 32 32) l)

/-- END leaves the team ended with its sets empty, its stacks discarded and nothing in flight, its registers as they were,
and its retirement due; a start or a restore of a team that is no gang's brings it onto a fitting core and a free
slot, a restore with the state its frame holds, and an invalid frame ends its launch; a save leaves the team off its
slot with its CAUSE, nothing in flight and one save more; a team retires once its children and batches are done, after
its join counters; a time slice with nobody waiting does nothing; a barrier generation departs when everyone has
arrived. (04 R106; 04 R115; 07 R231; 14 R350; 14 R357; 15 R364; 15 R366; 15 R367; 01 R21; 01 R33) -/
def Obligations.TeamLifecycle : Prop :=
  (∀ s : State, s.runs → (∀ a ∈ (s.group s.team.group).latch, (s.teamAt a.team).gangPositions s.team.tix = []) →
    ∃ u, exec .endTeam s = .next u ∧ (⟨.teamRetire, { a := s.cur }⟩ : Event) ∈ u.events ∧
      (∀ j, j ≠ s.cur → u.teamAt j = s.teamAt j) ∧
      let t := u.teamAt s.cur
      t.status = .ended ∧ t.acc0 = emptySet ∧ t.acc1 = emptySet ∧ t.div = [] ∧ t.ret = [] ∧ t.prods = [] ∧ t.matq = [] ∧
      t.holder = false ∧ t.sreg = s.team.sreg ∧ t.mask = s.team.mask ∧ t.flags = s.team.flags) ∧
  (∀ (s : State),
    let k := s.arg.a
    let t := s.teamAt k
    (t.cause ≠ 0 → exec .teamStart s = .next s) ∧ (t.cause = 0 → exec .teamRestore s = .next s) ∧
    (t.status ≠ .ready → exec .teamStart s = .next s ∧ exec .teamRestore s = .next s) ∧
    (t.status = .ready → s.unitOf k = [k] → s.unitFits k = true → s.inDrain t.launch = false →
      let a := s.frameAddr t.die (t.frameSlot.getD 0)
      let u := s.spanTouch t.die a (2 ^ 20)
      (t.cause = 0 → (∀ i ∈ s.fitting k, s.freeSlots t.die t.cluster i ≠ []) →
        ∃ i x, i ∈ s.fitting k ∧ x ∈ s.freeSlots t.die t.cluster i ∧
          exec .teamStart s = .next ((s.settleOn k i x).postOnce .dispatchDecision { a := t.die })) ∧
      (t.cause ≠ 0 → s.frameBusy k = true → exec .teamRestore s = .next (s.postOnce .teamRestore { a := k })) ∧
      (t.cause ≠ 0 → s.frameBusy k = false →
        (∀ e, s.frameLoss k = some e →
          exec .teamRestore s = .next (s.endLaunch t.launch (e.die.getD t.die) e.ekind 0 a t.pc.toNat)) ∧
        (s.frameLoss k = none → s.frameTeam k = none →
          exec .teamRestore s = .next (s.endLaunch t.launch t.die 4 0 0 t.pc.toNat)) ∧
        (∀ v, s.frameLoss k = none → s.frameTeam k ≠ none → u.frameTeam k = some v →
          let w := u.setTeam k v
          let again := fun (x : State) => x.postOnce .dispatchDecision { a := (w.teamAt k).die }
          (w.unitFits k = false → exec .teamRestore s = .next (again w)) ∧
          (w.unitFits k = true → w.fitting k ≠ [] →
            (∀ i ∈ w.fitting k, w.freeSlots (w.teamAt k).die (w.teamAt k).cluster i ≠ []) →
            ∃ i x, i ∈ w.fitting k ∧ x ∈ w.freeSlots (w.teamAt k).die (w.teamAt k).cluster i ∧
              exec .teamRestore s = .next ((w.settleOn k i x).postOnce .dispatchDecision
                { a := ((w.settleOn k i x).teamAt k).die }))))) ∧
    (k < s.teams.length → ∀ i x, ((s.settleOn k i x).teamAt k) = { s.teamAt k with
      status := .resident, core := i, slot := x, sliceStart := s.clock.toNat, holder := (s.teamAt k).needsArray })) ∧
  (∀ s : State,
    let k := s.arg.a
    let t := s.teamAt k
    let gone := t.status ≠ .resident ∨ (s.arg.b = 3 ∧ s.draining t.launch = false)
    (gone → exec .contextSave s = .next s) ∧
    (¬ gone → k < s.teams.length → s.arg.b < 16 → ∃ u, exec .contextSave s = .next u ∧
      (u.teamAt k).status = (if s.arg.b = 3 ∨ s.inDrain t.launch = true then .drained else .ready) ∧
      (u.teamAt k).cause = BitVec.ofNat 4 s.arg.b ∧ (u.teamAt k).nsave = t.nsave + 1 ∧ (u.teamAt k).holder = false ∧
      (u.teamAt k).prods = [] ∧ (s.arg.b ≠ 4 → s.gangBroken k = false → (u.teamAt k).matq = []) ∧ (u.teamAt k).sreg = t.sreg ∧
      ∀ j, j ≠ k → (u.teamAt j).status = (s.teamAt j).status)) ∧
  (∀ s : State,
    let d := s.arg.a
    let again := fun (u : State) => (u.postOnce .timeSlice { a := d }).postOnce .dispatchDecision { a := d }
    (s.waitingOn d = [] → exec .timeSlice s = .next s) ∧
    (∀ k r, s.waitingOn d = k :: r → s.unitFits k = true → exec .timeSlice s = .next (again s)) ∧
    (∀ k r, s.waitingOn d = k :: r → s.unitFits k = false → s.reservedFor k = false →
      let old := (s.teamsWith fun t => t.status == .resident && t.die == d).filter s.aged
      (old = [] → exec .timeSlice s = .next (again s)) ∧
      (∀ v, s.victimOf old = some v → v ∈ old ∧
        exec .timeSlice s = .next (again (if (s.sliceOut v).unitFits k then s.sliceOut v else (s.sliceOut v).reserve k))))) ∧
  (∀ (s : State) (j : BitVec 64) (r : List (BitVec 64)) (sp : List Span),
    let k := s.arg.a
    let t := s.teamAt k
    let u := s.freeGroup t.group
    let v := engineVia (u.launch t.launch).asid t.die t.group
    let held := ∃ f ∈ u.faults, f.retires.contains k = true
    ((u.mayRetire k = false ∨ held) → exec .teamRetire s = .next u) ∧
    (u.mayRetire k = true → ¬ held → t.joins = [] → exec .teamRetire s = .next (u.retireTeam k)) ∧
    (u.mayRetire k = true → ¬ held → t.joins = j :: r → u.checkSpans v [(j.toNat, 8)] needW true polWt = .ok sp →
      let w := ((u.fillSpans v sp).release k 3).engUpdate v (Span.first sp.flatten) 8 fun x => (x + 2 ^ 64 - 1) % 2 ^ 64
      exec .teamRetire s = .next ((w.setTeam k { w.teamAt k with joins := r }).postOnce .teamRetire { a := k }))) ∧
  (∀ s : State,
    let g := s.group s.arg.a
    let h := s.share s.arg.a
    (s.arg.b = 0 → (s.groupTeams s.arg.a).all (g.arrivals.contains ·) = true →
      exec .barrierComplete s = .next (s.setGroup s.arg.a { g with arrivals := [], gen := g.gen + 1 })) ∧
    (s.arg.b = 0 → (s.groupTeams s.arg.a).all (g.arrivals.contains ·) = false → exec .barrierComplete s = .next s) ∧
    (s.arg.b ≠ 0 → (s.shareTeams s.arg.a).all (h.arrivals.contains ·) = true →
      exec .barrierComplete s = .next (s.setShare s.arg.a { h with arrivals := [], gen := h.gen + 1 })) ∧
    (s.arg.b ≠ 0 → (s.shareTeams s.arg.a).all (h.arrivals.contains ·) = false → exec .barrierComplete s = .next s))

/-- A doorbell is an aligned write of 4 or 8 bytes to the doorbell page of a module not in recovery; the TAIL of a
device-produced queue is left as it is, one that would overfill or shrink the ring stops the queue with ERR 2, any
other moves TAIL and makes decisions due. A decision loses a die no cluster of which can hold a group any more, and
first seats the next waiting team that fits; with none waiting and a free slot it reads the head records, skips an
invalid one, and with one eligible queue in a valid space it admits that queue's record, whatever its deficit was. A
closed bin with a pool slot, a frame slot and its pages becomes one team more; a closed key becomes at most the teams
its table calls for, with a flush that has no room repeated; bins and keys close when they are old enough. (14 R346;
14 R347; 14 R348; 14 R349; 14 R350; 14 R351; 14 R352; 14 R353; 14 R354; 14 R356) -/
def Obligations.Dispatching : Prop :=
  (∀ (s : State) (q tail : Nat),
    let n := (tail + 2 ^ 32 - s.qHead q) % 2 ^ 32
    (s.qProd q = true → s.writeTail q tail = s) ∧
    (s.qProd q = false → (2 ^ s.qLog q < n ∨ n < s.qCount q) →
      s.writeTail q tail = (((s.setQField q 128 8 2).setQField q 96 32 tail).setQField q 171 1 0).msi 3) ∧
    (s.qProd q = false → n ≤ 2 ^ s.qLog q → s.qCount q ≤ n → s.writeTail q tail = (s.setQField q 480 32 tail).postDecisions)) ∧
  (∀ s : State,
    let off := s.arg.a
    let q := off / 4
    let ok := (s.arg.b = 4 ∨ s.arg.b = 8) ∧ off % s.arg.b = 0 ∧ off < 4096 ∧ s.sec.recovery = false
    let w := s.unitWait ioDie (s.qAddr q) (64 * (s.arg.b / 4)) true
    (¬ ok → exec .queueDoorbell s = .next s) ∧
    (∀ x, ok → w = some x → exec .queueDoorbell s = .next ((s.unitAsk x).postFirst .queueDoorbell s.arg)) ∧
    (ok → w = none → exec .queueDoorbell s = .next (if s.arg.b = 8
      then (s.writeTail q (s.arg.v.toNat % 2 ^ 32)).writeTail (q + 1) (s.arg.v.toNat / 2 ^ 32 % 2 ^ 32)
      else s.writeTail q (s.arg.v.toNat % 2 ^ 32)))) ∧
  (∀ s : State,
    let d := s.arg.a
    let u := (s.assignClusters d).assignFrames d
    let again : EvArg := { a := d }
    let up := bitAt (s.creg 0x10).toNat 35 = true ∧ s.dieReady d = true
    let seek := up ∧ s.stranded d = false ∧ u.nextIn d = none
    (¬ up → exec .dispatchDecision s = .next s) ∧
    (up → s.stranded d = true → exec .dispatchDecision s = .next (s.postOnce .dieLost again)) ∧
    (∀ k, up → s.stranded d = false → u.nextIn d = some k → exec .dispatchDecision s = .next (u.postOnce
      (if (u.teamAt k).cause = 0 then .teamStart else .teamRestore) { a := k })) ∧
    (seek → u.dieWaiting d = true → exec .dispatchDecision s = .next (u.postOnce .timeSlice again)) ∧
    (seek → u.dieWaiting d = false → u.hasFreeSlot d = false → exec .dispatchDecision s = .next u) ∧
    (seek → u.dieWaiting d = false → u.hasFreeSlot d = true →
      (∀ x, u.headWait = some x → exec .dispatchDecision s = .next ((u.unitAsk x).postOnce .dispatchDecision again)) ∧
      (u.headWait = none →
        let h := u.touchHeads
        (∀ q, (List.range 1024).find? (fun q => h.queueLive q && !recordOk (h.headRec q) 0) = some q →
          exec .dispatchDecision s = .next (h.skipRecord q).postDecisions) ∧
        ((∀ q, q < 1024 → h.queueLive q = true → recordOk (h.headRec q) 0 = true) →
          ((∀ q, q < 1024 → h.eligible q d = false) → exec .dispatchDecision s = .next h) ∧
          (∀ q, q < 1024 → (∀ p, p < 1024 → (h.eligible p d = true ↔ p = q)) →
            ∃ qs ptr, let v : State := { h with queues := qs, ptr := ptr }
              exec .dispatchDecision s = .next (if (v.asEntry (v.qAsid q)).getLsbD 0 then v.admitPacket q d else v.refuseSpace q d) ∧
              0 < (v.queueSt q).deficit ∧ (v.queueSt q).passed = 0 ∧ (v.queueSt q).promo = 0))))) ∧
  (∀ s : State, let x := s.queueSt s.arg.a
    exec .queuePromotion s = .next (s.setQueueSt s.arg.a { x with passed := x.passed % 4096, promo := x.promo + x.passed / 4096 })) ∧
  (∀ s : State,
    let d := s.arg.a
    let room := fun (b : Bin) => b.teams ≤ (s.freePool b.die b.queue).length ∧ b.teams ≤ (s.freeFrames b.die).length
    (s.closedBins d false = [] → exec .binFlush s = .next s) ∧ (s.closedBins d true = [] → exec .aggregatorFlush s = .next s) ∧
    (∀ b r, s.closedBins d false = b :: r → (∀ x ∈ s.closedBins d false, ¬ room x) → exec .binFlush s = .next (s.postFlush b)) ∧
    (∀ b r, s.closedBins d true = b :: r → (∀ x ∈ s.closedBins d true, ¬ room x) →
      exec .aggregatorFlush s = .next (s.postFlush b)) ∧
    ((∃ x ∈ s.closedBins d false, room x) →
      ∃ b ∈ s.closedBins d false, room b ∧ ∃ slot ∈ s.freePool d b.queue, ∀ sp,
        let va := (s.poolBase d b.queue slot + (shapeOf b.first.toNat).stk * 65536) % 2 ^ 64
        s.checkSpans (engineVia (s.qAsid b.queue) b.die 0) [(va, 64 * b.recs.length)] needW false polWt = .ok sp →
        ∃ u, exec .binFlush s = .next u ∧ u.teams.length = s.teams.length + 1 ∧ u.launches.length = s.launches.length + 1 ∧
          u.groups.length = s.groups.length + 1) ∧
    ((∃ x ∈ s.closedBins d true, room x) →
      ∃ b ∈ s.closedBins d true, room b ∧ ∀ sp,
        let va := (s.qField b.queue 384 64 + d * 2 ^ 22 + b.agg.getD 0 * 2 ^ 18) % 2 ^ 64
        s.checkSpans (engineVia (s.qAsid b.queue) b.die 0) [(va, 64 * b.recs.length)] needW false polWt = .ok sp →
        ∃ u, exec .aggregatorFlush s = .next u ∧ u.launches.length = s.launches.length + 1 ∧
          s.teams.length ≤ u.teams.length ∧ u.teams.length ≤ s.teams.length + b.teams)) ∧
  (∀ b : Bin, let lanes := max 1 (bitsAt b.shape.toNat 0 11)
    b.teams = if b.agg.isSome then (b.recs.length + lanes - 1) / lanes else 1) ∧
  (∀ s : State,
    let d := s.arg.a
    let gto := (s.creg 0x58).toNat / 2 ^ 16 % 2 ^ 16
    let agtm := max 1 ((s.creg 0x58).toNat / 2 ^ 8 % 2 ^ 8)
    let old := fun (keys : Bool) (us : Nat) (b : Bin) => b.die == d && b.agg.isSome == keys && decide (1000 * us ≤ s.clock.toNat - b.since)
    let left := fun (u : State) (keys : Bool) => u.bins.any fun b => b.die == d && b.agg.isSome == keys && !b.closed
    let a := if gto = 0 then s else s.closeBins (old false gto)
    let b := if gto = 0 then s else s.closeBins (old true (gto * agtm))
    exec .gatherTimeout s = .next (if left a false then a.postOnce .gatherTimeout { a := d } else a) ∧
    exec .aggregatorTimeout s = .next (if left b true then b.postOnce .aggregatorTimeout { a := d } else b))

/-- An operation that starts sets BUSY, clears DONE and the counts, and makes its row due; a drain stops the queues of its
scope, holds the teams of the scope that wait for residency, and makes its escalation and its completion due; a resume
lets the queues go on and puts the saved teams of the scope back into their residency queues; after DLIM microseconds
every team of the scope still resident is to be saved and the bins of the scope flush; once no team of the scope is
resident or waiting, the scope has no bin left and every copy command of it is done or held, every core releases at
system scope, and the end of an operation sets DONE with the count of held commands, raises vector 4 and starts the
next operation written meanwhile. (14 R359; 14 R360; 14 R361; 16 R385) -/
def Obligations.Draining : Prop :=
  (∀ (s : State) (v : Word64), s.startDrain v = { s.setCreg 0x68 0x8000000000000000 with
    drainNow := v, drainSince := s.clock.toNat,
    events := s.events ++ [⟨if v.extractLsb' 62 2 = 2 then .resume else .drain, { v := v }⟩] }) ∧
  (∀ (s : State) (held : Nat),
    s.endDrain held = ((s.setCreg 0x68 (setField (s.creg 0x68 &&& 0x3FFFFFFFFFFFFFFF ||| 0x4000000000000000) 0 16 held)).msi 4).nextDrain ∧
    (s.drainQueued = [] → s.nextDrain = s) ∧
    ∀ v r, s.drainQueued = v :: r → s.nextDrain = ({ s with drainQueued := r } : State).startDrain v) ∧
  (∀ s : State,
    let all := s.drainNow.getLsbD 61
    let asid := (s.drainNow.extractLsb' 0 14).toNat
    let mine := fun (k : Nat) => k < s.teams.length ∧ (all = true ∨ (s.launch (s.teamAt k).launch).asid = asid)
    let draining := s.drainBusy = true ∧ s.drainNow.extractLsb' 62 2 = 1
    let resuming := s.drainBusy = true ∧ s.drainNow.extractLsb' 62 2 = 2
    (¬ draining → exec .drain s = .next s ∧ exec .drainEscalation s = .next s ∧ exec .drainComplete s = .next s) ∧
    (¬ resuming → exec .resume s = .next s) ∧
    (draining → ∃ u : State, exec .drain s = .next u ∧
      (∀ q, q < 1024 → (all = true ∨ s.qAsid q = asid) → (u.queueSt q).stopped = true) ∧
      (∀ k, mine k → (s.teamAt k).status = .ready → (u.teamAt k).status = .drained) ∧
      (∀ k, ¬ (mine k ∧ (s.teamAt k).status = .ready) → u.teamAt k = s.teamAt k) ∧
      (⟨.drainEscalation, {}⟩ : Event) ∈ u.events ∧ (⟨.drainComplete, {}⟩ : Event) ∈ u.events) ∧
    (resuming → ∃ u : State, exec .resume s = .next (u.endDrain 0) ∧ u.drainQueued = s.drainQueued ∧
      (∀ q, q < 1024 → (all = true ∨ s.qAsid q = asid) → (u.queueSt q).stopped = false) ∧
      (∀ k ∈ s.savedOrder, mine k → (s.teamAt k).status = .drained →
        (u.queueSt (s.launch (s.teamAt k).launch).queue).stopped = false →
          (u.teamAt k).status = .ready ∧ ((s.teamAt k).die, k) ∈ u.resq))) ∧
  (∀ s : State, s.drainBusy = true → s.drainNow.extractLsb' 62 2 = 1 →
    let late := 1000 * ((s.creg 0x58).toNat / 2 ^ 32 % 2 ^ 16) ≤ s.clock.toNat - s.drainSince
    let again := s.postOnce .drainComplete {}
    (¬ late → exec .drainEscalation s = .next (s.postOnce .drainEscalation {})) ∧
    (late →
      let u := (s.scopeTeams fun t => t.status == .resident).foldl (fun (u : State) k => u.postOnce .contextSave { a := k, b := 3 }) s
      exec .drainEscalation s = .next (u.closeBins fun b => u.scopeBins.contains b)) ∧
    (s.scopeTeams (fun t => t.status == .resident || t.status == .ready) ≠ [] → exec .drainComplete s = .next again) ∧
    (s.scopeTeams (fun t => t.status == .resident || t.status == .ready) = [] →
      (s.scopeBins ≠ [] → exec .drainComplete s =
        .next ((s.closeBins fun b => s.scopeBins.contains b).postOnce .drainComplete {})) ∧
      (s.scopeBins = [] → (∃ c ∈ s.scopeCopies, c.held = none) → exec .drainComplete s = .next again) ∧
      (s.scopeBins = [] → (∀ c ∈ s.scopeCopies, c.held ≠ none) →
        exec .drainComplete s = .next (s.releaseAll.endDrain s.scopeCopies.length))))

/-- A request that was answered is answered again; one whose home is not ready comes again; a write-back is merged and
answered at once; a request for a line in a transaction or under migration joins its queue, once; one that finds no
free record of its slice, or an earlier one for its line waiting there, waits in the buffers of its channel; one that
needs an entry in a full set has a victim evicted first; any other takes a record. The host's reads and writes of
device memory, once CXL.mem is up, are requests of the host at the line's home; of other addresses a read returns all
ones, poisoned, and a write does nothing. A grant of ownership leaves the words of the two slots apart, and the
requester with every word it asked for. (11 R280; 11 R285; 11 R286; 11 R288; 11 R289; 11 R292; 11 R297; 11 R301; 11
R302; 12 R324; 16 R382) -/
def Obligations.CoherenceRequests : Prop :=
  (∀ s : State,
    exec .geth s = .next (s.request .getH s.msg) ∧ exec .getu s = .next (s.request .getU s.msg) ∧
    exec .gett s = .next (s.request .getT s.msg) ∧ exec .geto s = .next (s.request .getO s.msg) ∧
    exec .oph s = .next (s.request .opH s.msg) ∧ exec .putp s = .next (s.request .putP s.msg) ∧
    exec .putt s = .next (s.request .putT s.msg) ∧ exec .wb s = .next (s.request .wb s.msg) ∧
    exec .packMessage s = .next (s.request .pack { s.msg with mask := 0xFFFF })) ∧
  (∀ (s : State) (k : ReqKind) (m : Msg),
    let before := s.seenTags.find? fun x => x.1.sameTag m && x.2 == k
    let slice := fun (l : Nat) => m.site.slice l == m.site.slice m.line
    let wait := 2048 - 64 ≤ (s.txns.filter fun t => t.site == m.site && slice t.line).length ∨
      ∃ x ∈ s.buffered, x.2.site = m.site ∧ x.2.line = m.line
    let full := (s.entry m.site m.line).st = 0 ∧ 16 ≤ (s.dirSetOf m.site m.line).length
    (∀ x, before = some x → s.request k m = s.post k.answerRow { m := some x.1 }) ∧
    (before = none → ∀ r, s.homeState (64 * m.line) = some r →
      s.request k m = (match r with
        | .dead _ => s
        | _ => s.post k.row { m := some m })) ∧
    (before = none → s.homeState (64 * m.line) = none →
      (k = .wb → s.request k m = s.takeWb m) ∧
      (k ≠ .wb → ∀ t, s.txnAt m.site m.line = some t → (t.kind ≠ k ∨ t.req.sameTag m = false) →
        ((∃ x ∈ t.queued, x.1 = k ∧ x.2.sameTag m = true) → s.request k m = s) ∧
        ((∀ x ∈ t.queued, ¬ (x.1 = k ∧ x.2.sameTag m = true)) →
          s.request k m = s.setTxn { t with queued := t.queued ++ [(k, m)] })) ∧
      (k ≠ .wb → s.txnAt m.site m.line = none →
        (∀ i, s.migrating m.line = some i →
          s.request k m = { s with moves := s.moves.modify i fun mv => { mv with queued := mv.queued ++ [(k, m)] } }) ∧
        (s.migrating m.line = none → wait → s.request k m = { s with buffered := s.buffered ++ [(k, m)] }) ∧
        (s.migrating m.line = none → ¬ wait → full → s.request k m = (s.startEvict m.site m.line).send k.row m) ∧
        (s.migrating m.line = none → ¬ wait → ¬ full →
          let t : Txn := ⟨s.nextTxn, m.site, m.line, k, m, 0, [], 0, [], .agent⟩
          s.request k m = ({ s with txns := s.txns ++ [t], nextTxn := s.nextTxn + 1 } : State).startTxn t)))) ∧
  (∀ s : State,
    let plain := fun (l : Nat) => match physRange s.tc (64 * l) with
      | .flat _ => true
      | .steppe => true
      | _ => false
    let serve := fun (k : ReqKind) (m : Msg) =>
      if plain m.line then s.request k { m with agent := .host, site := homeOf s.tc (64 * m.line) }
      else if k = .getT ∨ k = .getH then { s with hostAnswer := some (BitVec.allOnes 512, true) } else s
    let up := (s.creg 0x10).getLsbD 34
    let m := s.msg
    let w := { m with line := ((s.creg 0x70).toNat / 2 ^ 32 % 2 ^ 20 * 2 ^ 32 + s.arg.a % 2 ^ 32) / 64 }
    exec .memrd s = .next (if up then serve .getT m else s.post .memrd s.arg) ∧
    exec .memwr s = .next (if up then serve .putP { m with mask := bytesToWords m.bmask } else s.post .memwr s.arg) ∧
    exec .windowRead s = .next (serve .getH w) ∧ exec .windowWrite s = .next (serve .putP { w with mask := bytesToWords w.bmask })) ∧
  (∀ (e : DirEntry) (a : Agent) (R : BitVec 16), e.sound → R ≠ 0 →
    let e1 := e.release (some a) R
    let G := e1.grant a R
    let e2 := e1.take a G
    e1.sound ∧ (e1.victim a = none →
      e2.sound ∧ R &&& ~~~(e2.owns a) = 0 ∧ e2.othersOwn a &&& R = 0 ∧ (e2.othersOwn a ≠ 0 → G = R)))

/-- A probe answered before is answered again; one of words neither owned nor given back, while a GetO of the line is
under way, waits for the grant; one at a last-level cache whose line is at work comes again. Else a Strip takes the
words from their owner, a Flush only cleans them, and their dirty bytes go out in an acknowledgement kept until Done,
memory and the directory staying as they were at a core's. An invalidation drops the words of a tracked copy, also
from a fill under way of its block, and is acknowledged. The first acknowledgement that is awaited is merged, frees
the slot a GetO needs, and counts; every copy of it is answered by Done. Merged bytes are read back at a home of plain
memory. Data ends its miss and no other, fills the copy, delivers its line to the access and lets the probes held for
the grant go on; a fill never changes a dirty byte, and of the words dropped meanwhile keeps only those it grants. Cmp
ends its miss, a wi store's copy taking the new bytes. Done frees the write-back buffer. A snoop of a line the host
proxy does not hold does nothing, another runs as a request of its own and ends in S, in I, or as it was; an answer of
the host brings the line and the state asked for. A route that fails loses messages it carried and no others, and
every sender sends again. (10 R268; 11 R290; 11 R291; 11 R292; 11 R299; 11 R301; 11 R302; 11 Table 11.7; 11 Table
11.10; 11 Table 11.11) -/
def Obligations.CoherenceAnswers : Prop :=
  (∀ (s : State) (keep : Bool),
    let m := s.msg
    let row : Instr := if keep then .flush else .strip
    let ackRow : Instr := if keep then .flushack else .stripack
    let kind : BackKind := if keep then .flush else .strip
    let prior := s.wbuf.find? fun w => w.kind == kind && w.msg.sameTag m
    let awaited := fun (x : Miss) => x.agent = m.agent ∧ x.line = m.line ∧ x.kind = .getO
    let held := m.mask &&& ~~~(s.wordsHeld m.agent m.line) ≠ 0 ∧ ∃ x ∈ s.miss, awaited x
    let busy := ∃ d, m.agent = .llc d ∧ s.lineBusyAt (.die d) m.line = true
    let c := s.line m.agent m.line
    (∀ w, prior = some w → exec row s = .next (s.send ackRow w.msg)) ∧
    (∀ (i : Nat) (x : Miss), prior = none → held → s.miss[i]? = some x → awaited x → (∀ j, j < i → ∀ y, s.miss[j]? = some y → ¬ awaited y) →
      exec row s = .next { s with miss := s.miss.modify i fun x => { x with held := x.held ++ [(keep, m)] } }) ∧
    (prior = none → ¬ held → busy → exec row s = .next (s.send row m)) ∧
    (∀ d i, prior = none → ¬ held → m.agent = .core d i →
      let ack := { m.bare with bmask := c.dirty &&& wordsToBytes (c.owned &&& m.mask), data := s.homeData m.line }
      ∃ u, exec row s = .next u ∧ u.mem = s.mem ∧ u.dir = s.dir ∧
        (u.line m.agent m.line).owned = (if keep then c.owned else c.owned &&& ~~~m.mask) ∧
        (u.line m.agent m.line).valid = (if keep then c.valid else c.valid &&& ~~~(c.owned &&& m.mask)) ∧
        (u.line m.agent m.line).dirty = c.dirty &&& ~~~(wordsToBytes (c.owned &&& m.mask)) ∧
        u.wbuf = s.wbuf ++ [⟨kind, ack, s.clock.toNat, c.behind⟩] ∧ (⟨ackRow, { m := some ack }⟩ : Event) ∈ u.events) ∧
    (∀ d, prior = none → ¬ held → ¬ busy → m.agent = .llc d →
      ∃ u w, exec row s = .next u ∧ u.wbuf = s.wbuf ++ [w] ∧ w.kind = kind ∧ w.msg.sameTag m = true ∧
        (⟨ackRow, { m := some w.msg }⟩ : Event) ∈ u.events ∧
        (keep = false → (u.line m.agent m.line).owned &&& m.mask = 0 ∧
          ((u.entry (.die d) m.line).m0 ||| (u.entry (.die d) m.line).m1) &&& m.mask = 0))) ∧
  (∀ s : State,
    let m := s.msg
    let busy := ∃ d, m.agent = .llc d ∧ s.lineBusyAt (.die d) m.line = true
    let u := s.invAgent m.agent m.line m.mask
    let words : BitVec 64 := m.mask.setWidth 64 <<< (16 * (m.line % 4))
    (busy → exec .invMsg s = .next (s.send .invMsg m)) ∧
    (¬ busy → exec .invMsg s = .next (({ u with miss := u.miss.map fun x =>
      if x.agent = m.agent ∧ x.line / 4 = m.line / 4 then { x with dropped := x.dropped ||| words } else x } : State).send
        .invack m))) ∧
  (∀ (s : State) (d i l : Nat) (R : BitVec 16),
    let c := s.line (.core d i) l
    ((s.invAgent (.core d i) l R).line (.core d i) l).valid = if c.tracked then c.valid &&& ~~~R else c.valid) ∧
  (∀ s : State,
    let m := s.msg
    let h := { m with agent := .host }
    let v := s.send .doneMsg m.bare
    let u := v.mergeAt m.site m.line m.bmask m.data
    (s.awaiter m 1 2 = none → exec .stripack s = .next v ∧ exec .flushack s = .next v) ∧
    (∀ t, s.awaiter m 1 2 = some t →
      let e := u.entry t.site t.line
      let w := if t.stage = 2 then
          u.setEntry (if e.o0 = some m.agent then { e with o0 := none, m0 := 0 } else { e with o1 := none, m1 := 0 })
        else u
      exec .stripack s = .next (w.answered t m.agent) ∧ exec .flushack s = .next (w.answered t m.agent)) ∧
    (s.awaiter m 3 3 = none → exec .invack s = .next s) ∧
    (∀ t, s.awaiter m 3 3 = some t → exec .invack s = .next (s.answered t m.agent)) ∧
    (s.awaiter h 3 3 = none → m.line ∈ s.biWait → exec .birsp s =
      .next { s with biWait := s.biWait.filter (· != m.line), biReady := s.biReady.filter (· != m.line) ++ [m.line] }) ∧
    (s.awaiter h 3 3 = none → m.line ∉ s.biWait → exec .birsp s = .next s) ∧
    (∀ t, s.awaiter h 3 3 = some t → exec .birsp s = .next (s.answered t .host)) ∧
    exec .doneMsg s = .next { s with wbuf := s.wbuf.filter fun w => !w.msg.sameTag m }) ∧
  (∀ (s : State) (t : Txn) (a : Agent),
    let t1 := { t with awaiting := t.awaiting.erase a }
    ∃ dir, let u : State := { s.setTxn t1 with dir := dir }
      s.answered t a = (if t1.awaiting ≠ [] then u else if t.stage = 1 then u.afterStrips t1
        else if t.stage = 2 then u.afterVictim t1 else u.afterInv t1)) ∧
  (∀ (s : State) (l : Nat) (k : BitVec 64) (d : BitVec 512), s.mem.wf = true →
    (∀ i, i < 64 → (∃ e, physRange s.tc (64 * l + i) = .flat e) ∧ s.packed (64 * l + i) = false) →
    (∀ c ∈ s.lines, ∀ i, c.ownsDirty l i = false) →
    ∀ i, i < 64 → (s.mergeHome l k d).readPhys (64 * l + i) = if k.getLsbD i then dataByte d i else s.readPhys (64 * l + i)) ∧
  (∀ s : State,
    let m := s.msg
    let rest : State := { s with miss := s.miss.filter fun y => !y.req.sameTag m }
    (s.miss.find? (fun x => x.req.sameTag m) = none → exec .dataMsg s = .next s ∧ exec .cmpMsg s = .next s) ∧
    (∀ x, s.miss.find? (fun x => x.req.sameTag m) = some x → exec .dataMsg s = .next (rest.takeData x m) ∧
      (x.kind ≠ .putT → exec .cmpMsg s = .next rest) ∧
      (x.kind = .putT → let c := rest.line x.agent x.line
        exec .cmpMsg s = .next (rest.setLine { c with
          tracked := decide (c.valid ≠ 0), data := blend c.data x.req.data x.req.bmask })))) ∧
  (∀ (s : State) (x : Miss) (m : Msg), m.block = [] →
    let f := (s.line m.agent m.line).fillWith x.kind m m.data (x.dropped.extractLsb' (16 * (m.line % 4)) 16)
    let u := s.takeData x m
    u.miss = s.miss ∧ (x.req, m.data) ∈ u.delivered ∧
    (u.line m.agent m.line).valid = f.valid ∧ (u.line m.agent m.line).owned = f.owned ∧
    (x.kind ≠ .getO → (u.line m.agent m.line).dirty = f.dirty) ∧
    ∀ h ∈ x.held, (⟨if h.1 then .flush else .strip, { m := some h.2 }⟩ : Event) ∈ u.events) ∧
  (∀ (c : CLine) (k : ReqKind) (m : Msg) (d : BitVec 512) (dropped : BitVec 16) (i : Nat), i < 64 →
    let G := if k = .getO then m.grant else 0
    let words := m.valid &&& ~~~dropped ||| G
    let f := c.fillWith k m d dropped
    ((k = .getO ∨ k = .getU ∨ k = .getT) →
      dataByte f.data i = (if words.getLsbD (i / 4) && !c.dirty.getLsbD i then dataByte d i else dataByte c.data i) ∧
      f.valid = c.valid ||| words ∧ f.owned = c.owned ||| G) ∧
    f.valid &&& dropped = (c.valid ||| G) &&& dropped ∧ f.dirty = c.dirty) ∧
  (∀ s : State,
    let m := s.msg
    ((hostLine s.tc m.line = false ∨ (fget .i s.cxl m.line = .i ∧ (s.entry .hostProxy m.line).st = 0)) →
      exec .snpdata s = .next s ∧ exec .snpinv s = .next s ∧ exec .snpcur s = .next s) ∧
    (hostLine s.tc m.line = true → fget .i s.cxl m.line ≠ .i →
      let held := s.lineBusyAt .hostProxy m.line
      let q := { m.bare with agent := .host, site := .hostProxy, mask := 0xFFFF }
      let t := fun (k : ReqKind) => (⟨s.nextTxn, .hostProxy, m.line, k, q, 0, [], 0, [], .snoop⟩ : Txn)
      let go := fun (k : ReqKind) => ({ s with txns := s.txns ++ [t k], nextTxn := s.nextTxn + 1 } : State).startTxn (t k)
      (held = true → exec .snpdata s = .next (s.send .snpdata m) ∧ exec .snpinv s = .next (s.send .snpinv m) ∧
        exec .snpcur s = .next (s.send .snpcur m)) ∧
      (held = false → exec .snpdata s = .next (go .getT) ∧ exec .snpinv s = .next (go .putP) ∧
        exec .snpcur s = .next (go .getH)))) ∧
  (∀ (s : State) (t : Txn), t.cause = .snoop →
    let t4 := { t with stage := 4, awaiting := [] }
    let u : State := { s with cxl := match t.kind with
      | .getT => fput s.cxl t.line .s
      | .putP => fdel s.cxl t.line
      | _ => s.cxl }
    s.tryPerform t = u.finishTxn t4) ∧
  (∀ s : State,
    let l := s.arg.a
    let w := s.arg.b
    let due := (l, w) ∈ s.cxlWait ∧ hostLine s.tc l = true
    let busy := s.lineBusyAt .hostProxy l = true ∧ ∀ t, s.txnAt .hostProxy l = some t → t.stage ≠ 4
    let u : State := { s with cxlWait := s.cxlWait.filter (· != (l, w)) }
    let old := fget CxlState.i s.cxl l
    let v := if old = .i then u.writesPhys (64 * l) (u.hostLineBytes l s.arg.bytes) else u
    let z : State := { v with cxlNoData := v.cxlNoData.filter (· != l) }
    (¬ due → exec .cxlCacheResponse s = .next s) ∧
    (due → busy → exec .cxlCacheResponse s = .next (s.post .cxlCacheResponse s.arg)) ∧
    (due → ¬ busy →
      (4 ≤ w → exec .cxlCacheResponse s = .next u) ∧
      (w = 3 → exec .cxlCacheResponse s =
        .next { u with cxlNoData := if old = .i then u.cxlNoData.filter (· != l) ++ [l] else u.cxlNoData }) ∧
      (w = 0 → exec .cxlCacheResponse s = .next { z with hostReady := z.hostReady.filter (· != l) ++ [l] }) ∧
      (w = 1 → exec .cxlCacheResponse s = .next (if old = .i then z.hostTake l .s else z)) ∧
      (w = 2 → exec .cxlCacheResponse s = .next (if old = .m then z else z.hostTake l .e)))) ∧
  (∀ (s : State) (l : Nat) (x : CxlState) (bs : List Byte),
    fget .i (s.hostTake l x).cxl l = x ∧ (bs.length = 64 → s.hostLineBytes l bs = bs)) ∧
  (∀ s : State,
    let a := s.arg.a
    let b := s.arg.b
    let r := s.arg.c % 2
    let key := (min a b, max a b, r)
    let carried := fun (e : Event) => cohRows.contains e.row = true ∧ ∃ m, e.arg.m = some m ∧ m.takes s a b r = true
    ∃ ev, (∀ e ∈ ev, e ∈ s.events) ∧ (∀ e ∈ s.events, ¬ carried e → e ∈ ev) ∧
      exec .routeFailure s = .next ((({ s with
        routesDown := if s.routesDown.contains key then s.routesDown else s.routesDown ++ [key],
        events := ev } : State).resend s.clock.toNat).resendAnswers)) ∧
  (∀ s : State, let u := s.resend (s.clock.toNat - usNs 32)
    exec .resendTimeout s = .next (if u.miss.isEmpty && u.txns.isEmpty && u.wbuf.isEmpty then u else u.watch))

/-- Each fill event lands one line of its set and leaves the others to land; a hotness sample advances the count of a
present leaf up to 63 and offers a hot page that may move; when the sweep is due HOT is halved at every present leaf
of every TIERED space, an entry that cannot be written now being left to a row of its own; a page-table entry written
at rest reads back; a throttle ends at its time. Offers are taken only by a migrator that is up, with room in the
returned ring: a page that may move and is admitted takes a frame of its size and its move begins; a request is
completed as abandoned where its leaf or target does not suit, and else begins its move. BLOCK leaves no cached copy
and no directory entry of the page; COPY brings its bytes and metadata to the target frame; MAP writes the leaf with
the target's frame and tier and HOT 0 where it has not changed, and drops the translations of the page; REPLAY serves
the queued requests at the new home and returns the old frame, a request abandoned its target. A frame record of the
bandwidth tier joins the pool, any other is passed over. (12 R310; 12 R319; 12 R320; 12 R322; 12 R323; 12 R324; 12
R325; 12 Table 12.11; 12 Table 12.12) -/
def Obligations.TiersAndMigration : Prop :=
  (∀ s : State,
    let k := s.arg.a
    let rest := s.tcFills.filter fun f => f.1 != k
    (s.fillOf k = none → exec .tierCacheFill s = .next s) ∧
    (∀ t, s.fillOf k = some (t, []) → exec .tierCacheFill s = .next { s with tcFills := rest }) ∧
    (∀ t l r, s.fillOf k = some (t, l :: r) →
      let u := s.landLine k t l
      let left := u.tcFills.filter fun f => f.1 != k
      exec .tierCacheFill s = .next (if r = [] then { u with tcFills := left }
        else ({ u with tcFills := left ++ [(k, t, r)] } : State).post .tierCacheFill { a := k }))) ∧
  (∀ s : State,
    let la := s.arg.a
    let x := s.tableEntry la
    let h := min ((x.toNat / 2 ^ 58) % 64 + 1) 63
    let cfg := s.creg 0x50
    let u := s.putEntry la (setField x 58 6 h)
    let hot := field cfg 58 6 ≠ 0 ∧ field cfg 58 6 ≤ h ∧ field x 14 2 = 1 ∧ field x 57 1 = 0 ∧ bitAt cfg.toNat 3 = true ∧
      field x 6 2 ≠ 3 ∧ bitAt (s.asEntry s.arg.c).toNat 1 = true
    (s.migReady = false → exec .hotnessSample s = .next s) ∧
    (∀ y, s.migReady = true → s.leafStop la = some y → exec .hotnessSample s =
      .next (if y.waits then (s.unitAsk y).postOnce .hotnessSample s.arg else s)) ∧
    (s.migReady = true → s.leafStop la = none → isLeaf x = false → exec .hotnessSample s = .next s) ∧
    (s.migReady = true → s.leafStop la = none → isLeaf x = true →
      (hot → exec .hotnessSample s = .next (u.offer la s.arg.b s.arg.c)) ∧ (¬ hot → exec .hotnessSample s = .next u))) ∧
  (∀ s : State,
    let sweep := field (s.creg 0x50) 46 8
    let due := 1000000 * sweep ≤ s.clock.toNat - s.lastHalve
    (6 ≤ s.arg.b → exec .hotnessHalving s = .next (s.halveSpace s.arg.a)) ∧
    (0 < s.arg.b → s.arg.b < 6 → exec .hotnessHalving s = .next (s.halveEntry 5 (s.arg.b - 1) s.arg.a)) ∧
    (s.arg.b = 0 → (sweep = 0 ∨ s.migReady = false) → exec .hotnessHalving s = .next s) ∧
    (s.arg.b = 0 → sweep ≠ 0 → s.migReady = true → ¬ due → exec .hotnessHalving s = .next (s.post .hotnessHalving)) ∧
    (s.arg.b = 0 → sweep ≠ 0 → s.migReady = true → due → exec .hotnessHalving s =
      .next (({ (List.range 16384).foldl (fun (u : State) i => u.halveSpace i) s with lastHalve := s.clock.toNat } : State).post
        .hotnessHalving))) ∧
  (∀ (s : State) (asid : Nat), s.unitStop ioDie (s.asAddr asid) 8 false = none →
    let e := s.asEntry asid
    (¬ (e.getLsbD 0 = true ∧ e.getLsbD 1 = true) → s.halveSpace asid = s) ∧
    (e.getLsbD 0 = true → e.getLsbD 1 = true → s.halveSpace asid = (List.range 512).foldl
      (fun (u : State) i => u.halveEntry 5 0 (field e 12 40 * 4096 + 8 * i)) (s.unitTouch ioDie (s.asAddr asid) 8))) ∧
  (∀ (s : State) (fuel level a : Nat), physRange s.tc a ≠ .unmapped →
    let x := s.tableEntry a
    (∀ y, s.leafStop a = some y → s.halveEntry (fuel + 1) level a =
      if y.waits then (s.unitAsk y).postOnce .hotnessHalving { a := a, b := level + 1 } else s) ∧
    (s.leafStop a = none → isLeaf x = true → s.halveEntry (fuel + 1) level a = s.putEntry a (setField x 58 6 (field x 58 6 / 2))) ∧
    (s.leafStop a = none → isLeaf x = false → x.getLsbD 0 = true → pointerOk x level = true →
      s.halveEntry (fuel + 1) level a = (List.range (if level = 3 then 32 else 512)).foldl
        (fun (u : State) i => u.halveEntry fuel (level + 1) (field x 8 44 * 256 + 8 * i)) (s.unitTouch ioDie a 8))) ∧
  (∀ (s : State) (a : Nat) (x : Word64) (h : Nat), h < 64 →
    ((setField x 58 6 h).extractLsb' 58 6 = BitVec.ofNat 6 h ∧ (setField x 58 6 h).extractLsb' 0 58 = x.extractLsb' 0 58) ∧
    (s.mem.wf = true → a % 8 = 0 → (∀ i, i < 8 → s.rests (fun _ => False) (a + i)) → (s.putEntry a x).tableEntry a = x)) ∧
  (∀ s : State, let x := s.thrashOf s.arg.a
    (x.until_ = none → exec .throttleExpiry s = .next s) ∧
    (∀ u, x.until_ = some u → exec .throttleExpiry s =
      .next (if s.clock.toNat < u then s.post .throttleExpiry s.arg else s.setThrash { x with until_ := none }))) ∧
  (∀ s : State,
    (s.ringNext 0 = none → exec .freeFrameRecord s = .next s) ∧
    (∀ y, s.ringNext 0 = some (.error y) → exec .freeFrameRecord s = .next ((s.unitAsk y).postOnce .freeFrameRecord {})) ∧
    (∀ v x, s.ringNext 0 = some (.ok (v, x)) →
      let f : BitVec 64 := BitVec.ofNat 64 x
      let u := v.ringPop 0 .freeFrameRecord
      let good := (frameOk u.tc f 1 = true ∨ frameOk u.tc f 2 = true) ∧ (physRange u.tc (frameBase f)).tier = 0
      (good → exec .freeFrameRecord s = .next { u with framePool := u.framePool ++ [f &&& 0xFFFFFFFFF0003] }) ∧
      (¬ good → exec .freeFrameRecord s = .next u))) ∧
  (∀ s : State,
    let again := fun (u : State) => u.postOnce .migrateBlock {}
    (s.arg.b = 1 → s.moveOf s.arg.a = none → exec .migrateBlock s = .next s) ∧
    (∀ m, s.arg.b = 1 → s.moveOf s.arg.a = some m → exec .migrateBlock s = .next (if m.state = .block then s.blockPage m else s)) ∧
    (s.arg.b ≠ 1 → s.offers = [] → exec .migrateBlock s = .next s) ∧
    (∀ o r, s.arg.b ≠ 1 → s.offers = o :: r →
      let u : State := { s with offers := r }
      let v := if r = [] then u else again u
      ((s.migReady = false ∨ s.ringFull 1 = true) → exec .migrateBlock s = .next (again (s.askRing 1))) ∧
      (s.migReady = true → s.ringFull 1 = false →
        (∀ y, s.leafStop o.1 = some y → exec .migrateBlock s = .next (if y.waits then again (s.unitAsk y) else v)) ∧
        (s.leafStop o.1 = none → exec .migrateBlock s = .next (v.takeOffer o.1 o.2.1 o.2.2))))) ∧
  (∀ (s : State) (la va asid : Nat),
    let x := s.tableEntry la
    (s.movable la x = false → s.takeOffer la va asid = s) ∧
    (∀ u, s.movable la x = true → s.admits la = (false, u) → s.takeOffer la va asid = u) ∧
    (∀ u, s.movable la x = true → s.admits la = (true, u) →
      let frame := u.framePool.find? fun f => field f 0 2 == field x 6 2
      ((frame = none ∨ 16 ≤ u.moves.length) → s.takeOffer la va asid = u) ∧
      (∀ f, frame = some f → u.moves.length < 16 → s.takeOffer la va asid =
        ({ u with framePool := u.framePool.erase f } : State).beginMove ⟨la, x, va, asid, f, false, .block, []⟩))) ∧
  (∀ (s : State) (m : Move),
    let u := s.blockPage m
    s.beginMove m = ({ s.recordMove m.leafAddr with moves := (s.recordMove m.leafAddr).moves ++ [m] } : State).blockPage m ∧
    (s.pageAtWork m = true → u = s.post .migrateBlock { a := m.leafAddr, b := 1 }) ∧
    (s.pageAtWork m = false → s.hostShares m = [] →
      (∀ c ∈ u.lines, m.has c.line = false) ∧ (∀ e ∈ u.dir, m.has e.line = false) ∧
      (u.moves = s.moves.map fun x => if x.leafAddr = m.leafAddr then { m with state := .copy } else x) ∧
      (⟨.migrateCopy, { a := m.leafAddr }⟩ : Event) ∈ u.events)) ∧
  (∀ s : State,
    (s.ringNext 2 = none → exec .migrationRequest s = .next s) ∧
    (∀ y, s.ringNext 2 = some (.error y) → exec .migrationRequest s = .next ((s.unitAsk y).postOnce .migrationRequest {})) ∧
    (∀ v r, s.ringNext 2 = some (.ok (v, r)) →
      let la := bitsAt r 0 64
      let f : BitVec 64 := BitVec.ofNat 64 (bitsAt r 64 64) &&& 0xFFFFFFFFF0003
      let wait := ∃ y, s.leafStop la = some y ∧ y.waits = true
      let u := v.ringPop 2 .migrationRequest
      let x := u.tableEntry la
      let may := s.leafStop la = none ∧ u.mayMove la x f = true
      (∀ y, s.leafStop la = some y → y.waits = true →
        exec .migrationRequest s = .next ((s.unitAsk y).postOnce .migrationRequest {})) ∧
      (¬ wait → (s.migReady = false ∨ 16 ≤ s.moves.length) →
        exec .migrationRequest s = .next (s.postOnce .migrationRequest {})) ∧
      (¬ wait → s.migReady = true → s.moves.length < 16 →
        (may → exec .migrationRequest s = .next (u.beginMove ⟨la, x, 0, 0, f, true, .block, []⟩)) ∧
        (¬ may → u.ringFull 1 = false → exec .migrationRequest s = .next (u.ringPush 1 f.toNat)) ∧
        (¬ may → u.ringFull 1 = true → exec .migrationRequest s =
          .next (({ u with moves := u.moves ++ [⟨la, 0, 0, 0, f, true, .abandon, []⟩] } : State).post
            .migrateReplay { a := la }))))) ∧
  (∀ (s : State), s.moveOf s.arg.a = none →
    exec .migrateCopy s = .next s ∧ exec .migrateMap s = .next s ∧ exec .migrateReplay s = .next s) ∧
  (∀ (s : State) (m : Move), s.moveOf s.arg.a = some m →
    let old := 64 * m.page.1
    let new := frameBase m.frame
    let n := 64 * m.page.2
    let gone : State := { s with moves := s.moves.filter fun x => x.leafAddr != m.leafAddr }
    let lost := fun (a : Nat) => ∃ e, s.homeState a = some (.dead e)
    (m.state ≠ .copy → exec .migrateCopy s = .next s) ∧ (m.state ≠ .map → exec .migrateMap s = .next s) ∧
    (m.state ≠ .replay → m.state ≠ .abandon → exec .migrateReplay s = .next s) ∧
    (m.state = .copy →
      ((lost old ∨ lost new) → exec .migrateCopy s = .next (s.abandon m)) ∧
      (¬ lost old → ¬ lost new → (s.homeState old ≠ none ∨ s.homeState new ≠ none ∨ s.spanBusy new n = true) →
        exec .migrateCopy s = .next (s.post .migrateCopy s.arg)) ∧
      (s.homeState old = none → s.homeState new = none → s.spanBusy new n = false → exec .migrateCopy s =
        .next ((((s.takeFrame new n).copyPage old new n).setMove { m with state := .map }).post .migrateMap { a := m.leafAddr }))) ∧
    (m.state = .map →
      let la := m.leafAddr
      let x := setField (setField (setField m.leaf 16 36 (field m.frame 16 36)) 14 2 (physRange s.tc new).tier) 58 6 0
      (m.has (la / 64) = true → exec .migrateMap s = .next (s.abandon m)) ∧
      (m.has (la / 64) = false →
        (∀ y, s.leafStop la = some y → exec .migrateMap s =
          .next (if y.waits then (s.unitAsk y).postOnce .migrateMap s.arg else s.abandon m)) ∧
        (s.leafStop la = none → s.tableEntry la ≠ m.leaf → exec .migrateMap s = .next (s.abandon m)) ∧
        (s.leafStop la = none → s.tableEntry la = m.leaf →
          let u := (s.putEntry la x).invalidate (fun i => m.request || i == m.asid) fun e =>
            if m.request then e.leafAddr == la else e.meets false m.asid m.va n
          exec .migrateMap s = .next ((u.setMove { m with state := .replay }).post .migrateReplay { a := la })))) ∧
    ((m.state = .replay ∨ m.state = .abandon) → s.ringFull 1 = true →
      exec .migrateReplay s = .next ((s.askRing 1).post .migrateReplay s.arg)) ∧
    (m.state = .abandon → s.ringFull 1 = false → exec .migrateReplay s = .next (gone.ringPush 1 m.frame.toNat)) ∧
    (m.state = .replay → s.ringFull 1 = false → exec .migrateReplay s = .next
      ((((gone.dropSectors old n).scrap old n).serveQueue m.queued m.page.1 (new / 64)).ringPush 1 (old + field m.leaf 6 2)))) ∧
  (∀ (s : State) (asids : Nat → Bool) (f : TlbEntry → Bool), (∀ e ∈ (s.invalidate asids f).tlb, f e = false) ∧
    ∀ w ∈ (s.invalidate asids f).walks, asids w.asid = false) ∧
  (∀ (s : State) (old new n : Nat), s.mem.wf = true → old % 256 = 0 → new % 256 = 0 → n % 256 = 0 →
    (old + n ≤ new ∨ new + n ≤ old) →
    (∀ i, i < n → (∃ d, physRange s.tc (old + i) = .flat d) ∧ ∃ d, physRange s.tc (new + i) = .flat d) →
    let u := s.copyPage old new n
    (∀ i, i < n → u.mem.read (new + i) = s.mem.read (old + i)) ∧
    ∀ j, j < n / 256 → u.mem.read (metaBase + new / 256 + j) = s.mem.read (metaBase + old / 256 + j)) ∧
  (∀ (s : State) (m : Move), m.queued = [] → s.abandon m =
    if m.request then (s.setMove { m with state := .abandon, queued := [] }).post .migrateReplay { a := m.leafAddr }
    else { s with moves := s.moves.filter fun x => x.leafAddr != m.leafAddr, framePool := s.framePool ++ [m.frame] })

/-- In recovery no TAIL or HEAD write acts; one the ring may not take sets ERR and vector 3, any other moves the pointer;
a record of a driver-produced ring is read at its home once that can serve it, and taken by moving HEAD; a fault reply
for no pending fault or with a reserved ACT changes nothing but the ring; an invalidation record is taken and
completes with its SEQ and vector 5; the oldest error record is written when its ring has room; a write of the control
block changes the writable bits of its register and no other bit of it, none at all where the access is no 4 or 8
aligned bytes or the register is gated; an OP of DRAIN starts its operation or waits for the one in progress; a GO
while no operation is BUSY sets BUSY and GO and starts the operation of OP, a reserved OP ending with CODE 1. (12
R319; 12 R328; 15 R377; 15 R378; 16 R382; 16 R383; 16 R384; 16 R402; 14 R359; 00 R8) -/
def Obligations.RingsAndFaults : Prop :=
  (∀ s : State,
    let i := s.arg.a
    let v := s.arg.v.toNat % 2 ^ 32
    let n := (v + 2 ^ 32 - s.ringHead i) % 2 ^ 32
    let bad := s.ringUp i = false ∨ 2 ^ s.ringLog i < n ∨ n < s.ringCount i
    ((s.sec.recovery = true ∨ i ∉ [0, 2, 4, 6]) → exec .ringTailWrite s = .next s) ∧
    (s.sec.recovery = false → i ∈ [0, 2, 4, 6] → bad → exec .ringTailWrite s = .next ((s.setRingWord i 1 (s.ringWord i 1 ||| 0x80)).msi 3)) ∧
    (∀ row, s.sec.recovery = false → doorbellRow i = some row → ¬ bad → exec .ringTailWrite s = .next ((s.setRingTail i v).postOnce row {}))) ∧
  (∀ s : State,
    let i := s.arg.a
    let v := s.arg.v.toNat % 2 ^ 32
    let n := (v + 2 ^ 32 - s.ringHead i) % 2 ^ 32
    let u := s.setRingHead i v
    ((s.sec.recovery = true ∨ i ∉ [1, 3, 5]) → exec .ringHeadWrite s = .next s) ∧
    (s.sec.recovery = false →
    (i ∈ [1, 3, 5] → s.ringCount i < n → exec .ringHeadWrite s = .next ((s.setRingWord i 1 (s.ringWord i 1 ||| 0x80)).msi 3)) ∧
    (i = 1 → n ≤ s.ringCount i → exec .ringHeadWrite s = .next u) ∧
    (i = 3 → n ≤ s.ringCount i → exec .ringHeadWrite s = .next u.postFaults) ∧
    (i = 5 → n ≤ s.ringCount i → exec .ringHeadWrite s = .next ({ u with
      listUse := s.listUse.filter fun x => !decide ((x.slot + 2 ^ 32 - s.ringHead 5) % 2 ^ 32 < n) } : State).postDecisions))) ∧
  (∀ (s : State) (i : Nat) (row : Instr),
    let a := s.ringSlot i (s.ringHead i)
    let u := s.unitTouch ioDie a (ringSize i)
    let w := s.setRingHead i ((s.ringHead i + 1) % 2 ^ 32)
    ((s.ringUp i = false ∨ s.ringCount i = 0) → s.ringNext i = none) ∧
    (∀ y, s.ringUp i = true → s.ringCount i ≠ 0 → s.unitWait ioDie a (ringSize i) false = some y →
      s.ringNext i = some (.error y)) ∧
    (s.ringUp i = true → s.ringCount i ≠ 0 → s.unitWait ioDie a (ringSize i) false = none →
      s.ringNext i = some (.ok (u, u.readPhysLe a (ringSize i)))) ∧
    s.ringPop i row = if w.ringCount i = 0 then w else w.postOnce row {}) ∧
  (∀ s : State,
    (s.ringNext 4 = none → exec .faultReply s = .next s) ∧
    (∀ y, s.ringNext 4 = some (.error y) → exec .faultReply s = .next ((s.unitAsk y).postOnce .faultReply {})) ∧
    (∀ v r, s.ringNext 4 = some (.ok (v, r)) →
      let w := v.ringPop 4 .faultReply
      let hit := w.faults.find? fun f => f.fseq == BitVec.ofNat 32 (bitsAt r 32 32) && f.posted
      let gone := fun (f : PendFault) => ({ w with faults := w.faults.filter fun g => g.fseq != f.fseq } : State)
      (hit = none → exec .faultReply s = .next w) ∧
      (∀ f, hit = some f → (2 ≤ bitsAt r 0 2 → exec .faultReply s = .next w) ∧
        (bitsAt r 0 2 = 0 → exec .faultReply s = .next ((gone f).retryFault f)) ∧
        (bitsAt r 0 2 = 1 → exec .faultReply s = .next ((gone f).abortFault f))))) ∧
  (∀ s : State,
    (s.ringNext 6 = none → exec .invalidationRecord s = .next s) ∧
    (∀ y, s.ringNext 6 = some (.error y) → exec .invalidationRecord s = .next ((s.unitAsk y).postOnce .invalidationRecord {})) ∧
    (∀ v r, s.ringNext 6 = some (.ok (v, r)) →
      let x : InvRec := ⟨BitVec.ofNat 32 (bitsAt r 192 32), bitsAt r 0 14, bitAt r 15, bitsAt r 64 57, bitsAt r 128 64⟩
      let w := (v.ringPop 6 .invalidationRecord).invalidate (fun i => x.all || i == x.asid) fun e => e.meets x.all x.asid x.va x.len
      exec .invalidationRecord s = .next (({ w with invs := w.invs ++ [x] } : State).post .invalidationComplete)) ∧
    (s.invs = [] → exec .invalidationComplete s = .next s) ∧
    (∀ y r, s.invs = y :: r → exec .invalidationComplete s = .next
      ((({ s with invs := r } : State).setRingWord 6 2 (setField (s.ringWord 6 2) 32 32 y.seq.toNat)).msi 5))) ∧
  (∀ (s : State) (e : ErrRec) (r : List ErrRec),
    let v := s.postFaults
    let again := fun (u : State) => u.postOnce .deviceErrorRecord {}
    let bs := (v.listBytes e v.listSize).2
    (v.errors = [] → exec .deviceErrorRecord s = .next v) ∧
    (v.errors = e :: r → v.ringFull 5 = true → exec .deviceErrorRecord s = .next (again (v.askRing 5))) ∧
    (v.errors = e :: r → v.ringFull 5 = false →
      (v.listBase = 0 → ∃ u, exec .deviceErrorRecord s = .next u ∧ u.errors = r ∧
        u.listUse = v.listUse ++ [⟨v.ringTail 5, 0, 0, e.teams⟩]) ∧
      (v.listBase ≠ 0 → v.listPlace bs.length = none → exec .deviceErrorRecord s = .next (again v)) ∧
      (∀ off, v.listBase ≠ 0 → bs ≠ [] → v.listPlace bs.length = some off →
        (∀ y, v.unitWait ioDie (v.listBase + off) bs.length true = some y →
          exec .deviceErrorRecord s = .next (again (v.unitAsk y))) ∧
        (v.unitWait ioDie (v.listBase + off) bs.length true = none →
          ∃ u, exec .deviceErrorRecord s = .next u ∧ u.errors = r ∧
            u.listUse = v.listUse ++ [⟨v.ringTail 5, off, bs.length, e.teams⟩])))) ∧
  (∀ s : State,
    let off := s.arg.a
    let n := s.arg.b
    let r := off / 8 * 8
    let lanes : Word64 := if n = 8 then BitVec.allOnes 64 else 0xFFFFFFFF#64 <<< (8 * (off % 8))
    let v : Word64 := if n = 8 then s.arg.v else (s.arg.v &&& 0xFFFFFFFF#64) <<< (8 * (off % 8))
    let m := if ctlGated r = true ∧ s.quiet = false then 0 else ctlWritable r &&& lanes
    let u := s.setCreg r ((s.creg r &&& ~~~m ||| v &&& m) &&& ~~~(ctlClears r &&& v))
    let quietly := r ≠ 0x1000 ∧ r ≠ 0x60 ∧ r ≠ 0x50 ∧ r ≠ 0x168
    (((n ≠ 4 ∧ n ≠ 8) ∨ off % n ≠ 0 ∨ 65536 ≤ off) → exec .controlRegisterWrite s = .next s) ∧
    ((n = 4 ∨ n = 8) → off % n = 0 → off < 65536 →
      (s.sec.recovery = true → r < 0x1000 → exec .controlRegisterWrite s = .next s) ∧
      ((s.sec.recovery = false ∨ 0x1000 ≤ r) →
        (quietly → exec .controlRegisterWrite s = .next u) ∧
        (r = 0x168 → exec .controlRegisterWrite s = .next u.postFaults) ∧
        (r = 0x50 → exec .controlRegisterWrite s = .next (u.postOnce .hotnessHalving {})) ∧
        (r = 0x60 → exec .controlRegisterWrite s = .next (if lanes.getLsbD 62 then u.drainWrite (u.creg 0x60) else u)) ∧
        (r = 0x1000 → exec .controlRegisterWrite s = .next (if v.getLsbD 0 then u.mailboxGo else u))))) ∧
  (∀ (s : State) (v : Word64),
    let op := v.extractLsb' 62 2
    (op ≠ 1 → op ≠ 2 → s.drainWrite v = s) ∧
    ((op = 1 ∨ op = 2) → s.drainWrite v = if s.drainBusy then { s with drainQueued := s.drainQueued ++ [v] } else s.startDrain v)) ∧
  (∀ s : State,
    let u := (s.setCreg 0x1008 0x8000000000000000).setCreg 0x1000 (s.creg 0x1000 ||| 1)
    let op := (s.creg 0x1000).extractLsb' 56 8
    ((s.creg 0x1008).getLsbD 63 = true → s.mailboxGo = s) ∧
    ((s.creg 0x1008).getLsbD 63 = false →
      (op = 1 → s.mailboxGo = u.post .attestReport) ∧ (op = 2 → s.mailboxGo = u.post .attestCertChain) ∧
      (op = 3 → s.mailboxGo = u.post .attestStageImage) ∧ (op = 4 → s.mailboxGo = u.post .attestIdentityKey) ∧
      ((op = 0 ∨ 4 < op.toNat) → s.mailboxGo = u.mailboxEnd 1)))

/-- A cold reset with no bootable image leaves the device in recovery with every FAILED bit set and the stepping in ID;
with one it boots it, applies the configuration record and makes the stages due. Each stage that trains sets its READY
bits, else its FAILED bits; a port comes up, or waits for its peer to be authenticated. A function-level reset leaves
no launch running. A mailbox operation answers only while BUSY, in recovery only those of OP 3 and 4, and once the
home of its buffer can serve it; its end clears BUSY and GO and sets DONE with vector 6. (16 R381; 16 R388; 16 R389;
16 R390; 16 R398; 16 R400; 16 R401; 16 R402; 16 Table 16.6) -/
def Obligations.BringUpAndMailbox : Prop :=
  (∀ s : State,
    let first := s.sec.staged.getD s.sec.primary
    let ok := fun (img : List Byte) => bootable s.sec.minsvn img
    let img := if ok first then first else s.sec.backup
    ∃ u, exec .coldReset s = .next u ∧ u.sec.publicKey = identityPublic ∧ u.sec.privateKey = identityPrivate ∧ u.mem = [] ∧
      u.teams = [] ∧ u.sec.recovery = !(ok first || ok s.sec.backup) ∧
      if ok first = false ∧ ok s.sec.backup = false
      then u.creg 0x20 = BitVec.allOnes 64 ∧ u.creg 0 = BitVec.ofNat 64 (0x800 + Config.stepping % 256) ∧ u.events = []
      else u.sec.image = img ∧ u.sec.version = Config.imageVersion img ∧
        u.sec.minsvn = (if Config.imageAdvance img then Config.imageVersion img else s.sec.minsvn) ∧ u.config = storedConfig ∧
        (⟨.hostLinkTrained, {}⟩ : Event) ∈ u.events ∧ (⟨.steppeReady, {}⟩ : Event) ∈ u.events ∧
        (∀ d, d < 8 → (⟨.dieSelfTestDone, { a := d }⟩ : Event) ∈ u.events) ∧
        (∀ i, i < 16 → (⟨.hbmTrainingDone, { a := i }⟩ : Event) ∈ u.events)) ∧
  (∀ s : State,
    let trained := fun (bits : Word64) => if Config.trains s.tick then s.nowReady bits else s.nowFailed bits
    exec .hostLinkTrained s = .next { s with sec := { s.sec with hostTrained := true } } ∧
    exec .configurationRequest s = .next { s with sec := { s.sec with retried := some (!s.sec.hostTrained) } } ∧
    exec .hbmTrainingDone s = .next (trained (BitVec.ofNat 64 (2 ^ (16 + s.arg.a % 16)))) ∧
    (let d := s.arg.a % 8
     let u := trained (BitVec.ofNat 64 (2 ^ d))
     exec .dieSelfTestDone s = .next (if bitAt (u.creg 0x10).toNat d then
       u.setCreg 0x18 (u.creg 0x18 ||| BitVec.ofNat 64 (255 * 2 ^ (8 * d))) else u)) ∧
    ((s.config.cxlen = false ∨ s.sec.hostTrained = false) → exec .cxlEnable s = .next s) ∧
    (s.config.cxlen = true → s.sec.hostTrained = true → (s.creg 0x10 ||| s.creg 0x20) &&& 0xFF ≠ 0xFF →
      exec .cxlEnable s = .next (s.post .cxlEnable)) ∧
    (s.config.cxlen = true → s.sec.hostTrained = true → (s.creg 0x10 ||| s.creg 0x20) &&& 0xFF = 0xFF →
      exec .cxlEnable s = .next (s.nowReady 0x600000000)) ∧
    (bitAt (s.creg 0x20).toNat 32 = true → exec .steppeReady s = .next s) ∧
    (bitAt (s.creg 0x20).toNat 32 = false → s.tc ≠ 0 → s.creg 0x10 &&& 0xFFFF0000 ≠ 0xFFFF0000 →
      exec .steppeReady s = .next (s.post .steppeReady)) ∧
    (bitAt (s.creg 0x20).toNat 32 = false → (s.tc = 0 ∨ s.creg 0x10 &&& 0xFFFF0000 = 0xFFFF0000) →
      exec .steppeReady s = .next (trained 0x100000000))) ∧
  (∀ s : State,
    let p := s.arg.a % 8
    let bit : Word64 := BitVec.ofNat 64 (2 ^ (40 + p))
    let up := fun (u : State) => ((u.setLinkState p 3).nowReady bit).sendBacklog p
    let down := fun (u : State) => (u.setLinkState p 4).nowFailed bit
    (s.linkState p ≠ 1 → exec .abfortTrainingDone s = .next s) ∧
    (s.linkState p = 1 →
      ∃ u, u = (s.setCreg (0x800 + 32 * p) (setField (s.creg (0x800 + 32 * p)) 8 4 (Config.peerPort p))).setCreg (0x808 + 32 * p)
          (BitVec.ofNat 64 (Config.peerSerial p % 2 ^ 48 * 2 ^ 16)) ∧
        exec .abfortTrainingDone s = .next (if Config.trains s.tick then
          (if s.config.linkauth then (u.setLinkState p 2).post .peerAuthentication { a := p } else up u) else down s)) ∧
    (s.linkState p ≠ 2 → exec .peerAuthentication s = .next s) ∧
    (s.linkState p = 2 → exec .peerAuthentication s =
      .next (if Config.peerReportOk p && Config.peerReportSerial p == Config.peerSerial p then up s else down s))) ∧
  (∀ s : State, ∃ u, exec .functionLevelReset s = .next u ∧ (∀ l ∈ u.launches, l.ended = true) ∧
    (∀ t ∈ u.teams, t.status = .retired) ∧ u.copies = [] ∧ u.moves = [] ∧ u.resq = [] ∧ u.faults = [] ∧
    u.creg 0x10 = s.creg 0x10 ∧ u.creg 0x20 = s.creg 0x20) ∧
  (∀ s : State,
    let busy := bitAt (s.creg 0x1008).toNat 63 = true
    let closed := fun (status : Word64) => (s.setCreg 0x1008 status).setCreg 0x1000 (s.creg 0x1000 &&& ~~~1)
    let answers := fun (row : Instr) (bs : List Byte) =>
      (¬ busy → exec row s = .next s) ∧
      (busy → s.mailLen < bs.length → exec row s = .next (s.mailboxEnd 2)) ∧
      (∀ y, busy → bs.length ≤ s.mailLen → s.unitWait ioDie s.mailBuf bs.length true = some y →
        exec row s = .next ((s.unitAsk y).postOnce row {})) ∧
      (busy → bs.length ≤ s.mailLen → s.unitWait ioDie s.mailBuf bs.length true = none →
        exec row s = .next ((s.unitPut ioDie s.mailBuf bs).mailboxEnd 0))
    (s.sec.recovery = true → exec .attestReport s = .next (closed 0) ∧ exec .attestCertChain s = .next (closed 0)) ∧
    (s.sec.recovery = false → answers .attestReport s.report ∧ answers .attestCertChain Config.certChain) ∧
    answers .attestIdentityKey (sized 64 s.sec.publicKey) ∧
    (¬ busy → exec .attestStageImage s = .next s ∧ exec .attestDone s = .next s) ∧
    (∀ y, busy → s.unitWait ioDie s.mailBuf s.mailLen false = some y →
      exec .attestStageImage s = .next ((s.unitAsk y).postOnce .attestStageImage {})) ∧
    (busy → s.unitWait ioDie s.mailBuf s.mailLen false = none →
      let img := s.readsPhys s.mailBuf s.mailLen
      let u := s.unitTouch ioDie s.mailBuf s.mailLen
      exec .attestStageImage s = .next (if imageOk img = false then u.mailboxEnd 3
        else if Config.imageVersion img < u.sec.minsvn then u.mailboxEnd 4
        else ({ u with sec := { u.sec with staged := some img } } : State).mailboxEnd 0)) ∧
    (busy → exec .attestDone s = .next ((closed (s.creg 0x1008 &&& 0xFF ||| 0x4000000000000000)).msi 6)) ∧
    exec .spdmRequest s = .next (if s.arg.b = 0 then { s with sec := { s.sec with ide := true } } else s) ∧
    s.report.length = 30112)

/-- A row past the threshold of corrected errors has its lines blocked until its remap unblocks them. A failed core has
its teams saved with CAUSE 4 and its cluster's spare takes its place, once; the third failed row check of one unit
within a millisecond fails its core. A lost die has its bits in FAILED and out of READY and READYE, its homes forget
it, so that no cached line, no owner slot and no entry of it is left, and every launch with a team on it ends with a
record of kind 3. A flit carries its fields and the CRC of its bytes; one whose CRC fails is answered by NAK and
leaves no other trace, one with messages that is next in sequence is received, its requests due, and is acknowledged;
an acknowledgement frees what it covers; a port with an overdue flit fails. A peer's request outside its window does
nothing, one inside is a request for each of its lines. The power manager moves the clock at most every 10
microseconds, to the highest step its prediction allows, and changes no result. (11 R303; 15 R372; 15 R373; 15 R375;
15 R376; 16 R388; 16 R391; 16 R392; 16 R394; 16 R396; 16 R397) -/
def Obligations.FailuresAndLinks : Prop :=
  (∀ s : State, let at_ := (s.arg.a, s.arg.b)
    (at_ ∈ s.remaps → exec .rowRemap s = .next { s with remaps := s.remaps.filter fun r => r != at_ }) ∧
    (at_ ∉ s.remaps → s.arg.c < max 1 s.config.spare → exec .rowRemap s = .next s) ∧
    (at_ ∉ s.remaps → max 1 s.config.spare ≤ s.arg.c → exec .rowRemap s =
      .next (({ s with remaps := s.remaps ++ [at_] } : State).post .rowRemap s.arg))) ∧
  (∀ s : State,
    let u := s.arg.v.toNat - 1
    let here := fun (x : Nat × Nat × Nat × Nat × Nat) => x.1 = s.arg.a ∧ x.2.1 = s.arg.b ∧ x.2.2.1 = s.arg.c ∧ x.2.2.2.1 = u
    let recent := fun (x : Nat × Nat × Nat × Nat × Nat) => s.clock.toNat < x.2.2.2.2 + 1000000
    (s.arg.v = 0 → exec .evacuation s = .next (s.evacuate s.arg.a s.arg.b s.arg.c)) ∧
    (s.arg.v ≠ 0 → (s.unitFails.filter fun x => here x ∧ recent x).length < 2 → exec .evacuation s = .next { s with
      unitFails := (s.unitFails.filter fun x => ¬ here x ∨ recent x) ++ [(s.arg.a, s.arg.b, s.arg.c, u, s.clock.toNat)] }) ∧
    (s.arg.v ≠ 0 → 2 ≤ (s.unitFails.filter fun x => here x ∧ recent x).length → exec .evacuation s =
      .next (({ s with unitFails := s.unitFails.filter fun x => ¬ here x } : State).evacuate s.arg.a s.arg.b s.arg.c))) ∧
  (∀ (s : State) (d c i : Nat),
    let u := s.evacuate d c i
    ((d, c) ∉ s.sparesUsed → s.onCore d c i = [] → u = { s with sparesUsed := s.sparesUsed ++ [(d, c)] }) ∧
    ((d, c) ∉ s.sparesUsed → (d, c) ∈ u.sparesUsed ∧
      ∀ k ∈ s.onCore d c i, (u.teamAt k).cause = 4 ∧ (u.teamAt k).status ≠ .resident) ∧
    ((d, c) ∈ s.sparesUsed → s.onCore d c i = [] →
      let v : State := { s with coreDown := s.coreDown ++ [(d, c, i)] }
      (v.stranded d = true → u = v.loseDie d) ∧
      (v.stranded d = false → (∀ g, (s.group g).cluster ≠ some c) → u = v))) ∧
  (∀ s : State,
    let d := s.arg.a
    ((8 ≤ d ∨ d ∈ s.lostDies) → exec .dieLost s = .next s) ∧
    (d < 8 → d ∉ s.lostDies →
      let gone : Word64 := BitVec.ofNat 64 (2 ^ d + 3 * 2 ^ (16 + 2 * d)) ||| (if s.tc = 0 then 0 else 0x100000000)
      let ready := s.creg 0x10 &&& ~~~(gone ||| 0x8000000000000000)
      let failed := s.creg 0x20 ||| gone
      ∃ v : State, v.creg 0x10 = ready ∧ v.creg 0x20 = failed ∧
        v.creg 0x18 = s.creg 0x18 &&& ~~~(BitVec.ofNat 64 (255 * 2 ^ (8 * d))) ∧ v.lostDies = s.lostDies ++ [d] ∧
        v.mem = s.mem ∧ v.lines = s.lines ∧ v.dir = s.dir ∧ v.txns = s.txns ∧ v.teams = s.teams ∧ v.launches = s.launches ∧
        let w := v.homesForget d
        let ls := ((w.teamsWith fun t => t.die == d && t.status != .retired && t.status != .dead).map
          fun k => (w.teamAt k).launch).eraseDups
        let x := ls.foldl (fun (x : State) l => x.endLaunchWith l d 3 0 0 0 (s.lostLines d)) w
        exec .dieLost s = .next { x with bins := x.bins.filter fun b => b.die != d })) ∧
  (∀ (s : State) (d : Nat), (∀ t ∈ s.txns, ∀ a ∈ t.awaiting, a.on d = false) →
    let w := s.homesForget d
    (∀ c ∈ w.lines, c.agent.on d = false) ∧ (∀ t ∈ w.txns, t.site ≠ .die d) ∧ (∀ e ∈ w.tlb, e.die ≠ d) ∧
    ∀ e ∈ w.dir, e.site ≠ .die d ∧ e.o0.any (fun a => a.on d) = false ∧ e.o1.any (fun a => a.on d) = false) ∧
  (∀ (s : State) (l sock ekind code va pc : Nat) (lines : List (BitVec 192)), l < s.launches.length →
    let u := s.endLaunchWith l sock ekind code va pc lines
    (u.launch l).ended = true ∧ ((s.launch l).ended = false → ∃ e ∈ u.errors, e.lines = lines ∧
      (e.record.toNat / 2 ^ 168) % 2 ^ 8 = ekind % 2 ^ 8 ∧ (e.record.toNat / 2 ^ 180) % 2 ^ 4 = sock % 2 ^ 4)) ∧
  (∀ (d : Nat) (e : DirEntry),
    ((e.forget d).o0.any (fun a => a.on d)) = false ∧ ((e.forget d).o1.any fun a => a.on d) = false ∧
    (e.sound → (e.forget d).sound)) ∧
  (∀ (type vc : Nat) (seq ack : BitVec 12) (nak : Bool) (slots : List Byte),
    let f := Flit.make type vc seq ack nak slots
    f.crcOk = true ∧ f.type = type % 16 ∧ f.vc = vc % 4 ∧ f.seq = seq ∧ f.ack = ack ∧ f.nak = nak) ∧
  (∀ (s : State) (f : Flit),
    let p := s.arg.a
    let up := s.linkState p ≠ 0 ∧ s.linkState p < 4
    let x := (s.port p).acked f.ack s.clock.toNat
    let s1 := if f.nak then (s.setPort p x).resendFlits p else s.setPort p x
    let s2 := (s1.sendBacklog p).watchPort p
    let y := s2.port p
    let s3 := (s2.setPort p { y with rxSeq := f.seq, received := y.received ++ [f] }).answerFlit p false
    let overdue := ∃ z ∈ (s1.port p).retry, 16 ≤ z.2.2
    (s.arg.flit = none → exec .abfortFlitReceive s = .next s) ∧
    (s.arg.flit = some f → ¬ up → exec .abfortFlitReceive s = .next s) ∧
    (s.arg.flit = some f → up → f.crcOk = false → exec .abfortFlitReceive s = .next (s.answerFlit p true)) ∧
    (s.arg.flit = some f → up → f.crcOk = true →
      (overdue → exec .abfortFlitReceive s = .next (s1.failPort p)) ∧
      (¬ overdue → f.type ≠ 1 → exec .abfortFlitReceive s = .next s2) ∧
      (¬ overdue → f.type = 1 → f.seq ≠ y.rxSeq + 1 → exec .abfortFlitReceive s = .next (s2.answerFlit p false)) ∧
      (¬ overdue → f.type = 1 → f.seq = y.rxSeq + 1 → exec .abfortFlitReceive s =
        .next ((flitRequests p 15 f.slots).foldl (fun (u : State) r => u.post .peerInboundRequest { a := p, peer := some r }) s3))) ∧
    (∀ z ∈ (s.port p).retry, z ∈ x.retry ↔ 2048 ≤ (f.ack - z.1.seq).toNat)) ∧
  (∀ s : State,
    let p := s.arg.a
    let x := s.port p
    let late := x.since + 100000 ≤ s.clock.toNat ∨ ∃ y ∈ x.retry, 16 ≤ y.2.2
    (x.retry = [] → exec .linkAckTimeout s = .next s) ∧
    (x.retry ≠ [] → late → exec .linkAckTimeout s = .next (s.failPort p)) ∧
    (x.retry ≠ [] → ¬ late → exec .linkAckTimeout s = .next (s.post .linkAckTimeout s.arg))) ∧
  (∀ (s : State) (r : PeerRequest),
    let w := s.creg (0x818 + 32 * r.port)
    let n := (r.addr + r.len - 1) / 64 - r.addr / 64 + 1
    (s.arg.peer = none → exec .peerInboundRequest s = .next s) ∧
    (s.arg.peer = some r → (s.linkState r.port ≠ 3 ∨ r.addr < field w 0 20 * 2 ^ 32 ∨ field w 32 20 * 2 ^ 32 < r.addr + r.len) →
      exec .peerInboundRequest s = .next s) ∧
    (s.arg.peer = some r → s.inbound r = false → exec .peerInboundRequest s = .next s) ∧
    (s.arg.peer = some r → s.inbound r = true → r.len ≠ 0 →
      exec .peerInboundRequest s = .next ((List.range n).foldl (fun (u : State) i =>
        ({ u with nextTxn := u.nextTxn + 1 } : State).request (if r.op.isSome then .opH else if r.write then .putP else .getH)
          (r.msg u.tc (r.addr / 64 + i) u.nextTxn)) s))) ∧
  (∀ s : State,
    (s.clock.toNat < s.arg.v.toNat + 10000 → exec .powerManagerTick s = .next (s.post .powerManagerTick s.arg)) ∧
    (s.arg.v.toNat + 10000 ≤ s.clock.toNat →
      let f := field (s.creg 0x208) 44 8
      let log := (s.powerLog ++ [Config.watts s.tick]).drop (s.powerLog.length - 99)
      let want := bestClock (fun f => keepsWithin s.plim log (demand (Config.rate s.tick) f))
        (if (s.creg 0x200).getLsbD 51 then 140 else 120)
      let new := if want ≤ f ∨ s.powerDown + 1000000 ≤ s.clock.toNat then want else f
      let y := if new < f then s.clock.toNat else s.powerDown
      ∃ x, field x 44 8 = new ∧ exec .powerManagerTick s =
        .next (({ s with powerLog := log, powerDown := y } : State).setCreg 0x208 x |>.post .powerManagerTick { v := s.clock }))) ∧
  (∀ (ok : Nat → Bool) (top : Nat),
    let f := bestClock ok top
    60 ≤ f ∧ (60 < f → f ≤ top ∧ f % 5 = 0 ∧ ok f = true) ∧
    ∀ i, i < 17 → 60 + 5 * i ≤ top → ok (60 + 5 * i) = true → 60 + 5 * i ≤ f)

/-- At reset memory is canonical, no launch, team, command, message or cached line exists, no function is ready or failed,
the control block holds the reset values of its register maps (the fields TCSZ, SERIAL and STEP, which come from the
configuration record and the silicon, hold the model's choice, notes/assumptions/5.md), and the only thing due is
bring-up. A team of a new launch has its registers, tags, masks, flags and warnings zero, every row full, every lane
executing, empty stacks and TILE 32, with the scalar registers its record gives. (01 R21; 12 R321; 14 R356; 16 R383;
16 R388; 16 R389; 16 R394; 16 R396; 16 Table 16.6) -/
def Obligations.ResetState : Prop :=
  State.reset.mem.wf = true ∧ (∀ a, State.reset.mem.read a = 0) ∧
  State.reset.teams = [] ∧ State.reset.launches = [] ∧ State.reset.copies = [] ∧ State.reset.lines = [] ∧ State.reset.dir = [] ∧
  State.reset.txns = [] ∧ State.reset.tlb = [] ∧ State.reset.faults = [] ∧ State.reset.errors = [] ∧ State.reset.msix = 0 ∧
  State.reset.events = [⟨.coldReset, {}⟩] ∧
  (∀ off, off / 8 ∉ [0, 10, 11, 64, 65] → State.reset.creg off = 0) ∧
  field (State.reset.creg 0) 8 8 = 0x08 ∧
  field (State.reset.creg 0x50) 58 6 = 48 ∧ field (State.reset.creg 0x50) 54 4 = 6 ∧ field (State.reset.creg 0x50) 46 8 = 10 ∧
  field (State.reset.creg 0x50) 42 4 = 4 ∧ field (State.reset.creg 0x50) 34 8 = 10 ∧ field (State.reset.creg 0x50) 18 16 = 100 ∧
  field (State.reset.creg 0x50) 3 15 = 0 ∧
  field (State.reset.creg 0x58) 48 16 = 200 ∧ field (State.reset.creg 0x58) 32 16 = 2000 ∧ field (State.reset.creg 0x58) 16 16 = 16 ∧
  field (State.reset.creg 0x58) 8 8 = 4 ∧ field (State.reset.creg 0x58) 0 8 = 0 ∧
  field (State.reset.creg 0x200) 52 12 = 3200 ∧ field (State.reset.creg 0x200) 51 1 = 1 ∧ field (State.reset.creg 0x200) 0 51 = 0 ∧
  field (State.reset.creg 0x208) 52 12 = 0 ∧ field (State.reset.creg 0x208) 44 8 = 120 ∧ field (State.reset.creg 0x208) 0 44 = 0 ∧
  (∀ (l g die : Nat) (rec : BitVec 512) (ix n : Nat × Nat × Nat) (depth fp slim : Nat) (sreg : List (Nat × Nat)) (frame : Option Nat),
    let t := newTeam l g die rec ix n depth fp slim sreg frame
    (∀ r l, t.v r l = 0) ∧ (∀ r w, t.rowEmpty r w = false) ∧ (∀ r, t.tagOf r = 0) ∧
    (∀ r : BitVec 6, t.s r = BitVec.ofNat 64 (fget 0 sreg r.toNat)) ∧
    (∀ k, 0 < k → k < 16 → t.k k = 0) ∧ t.k 0 = allLanes t.lanes ∧
    t.div.map DivEntry.mask = [allLanes t.lanes] ∧ t.depthDiv = 1 ∧ t.ret = [] ∧ t.flags = 0 ∧ t.iwarn = 0 ∧ t.tileSize = 32)

/-- Where a team moves whose path does not end here, whose fetch reads words that decode, the step is exactly that
instruction at the fetched state, with its word in the issue record; words that do not decode take the row of the
illegal instruction, a fetch that finds a fault the row of the fetch fault, a fetch that only waits leaves the team
waiting. Where an event moves, the step is that row with its operand, taken out of the events. With nobody to move
only the counters advance. A word is the four bytes at its address, little-endian. (03 R68; 03 R72; 03 R84; 04 R111;
01 R32; 15 R369) -/
def Obligations.StepRuns : Prop :=
  (∀ (s : State) (k : Nat), s.pick = some (.team k) → k < s.teams.length → (s.teamAt k).status = .resident →
    let t := s.begin.take k
    (∀ e, t.reconverge k (t.teamAt k).depthDiv = .error e → step s = .next (t.stopWith e)) ∧
    (∀ u, t.reconverge k (t.teamAt k).depthDiv = .ok u → u.cur = k →
      let f := u.fetch (u.viaOf k) (u.teamAt k).pc.toNat
      (∀ v w0 w1 i n, f = .ok (v, w0, w1) → decodeWords w0 w1 = .ok (i, n) →
        step s = exec i { v with iw := if n = 8 then w1 else w0 }) ∧
      (∀ v w0 w1 e, f = .ok (v, w0, w1) → decodeWords w0 w1 = .error e → step s = exec .illegalInstruction { v with iw := w0 }) ∧
      (∀ e, f = .error e → e.waits = true → step s = .next (u.stopWith e)) ∧
      (∀ e, f = .error e → e.waits = false → step s = exec .fetchFault { u with arg := faultArg e })) ∧
    ((t.teamAt k).top.pc ≠ (t.teamAt k).top.reconv → t.reconverge k (t.teamAt k).depthDiv = .ok t) ∧ t.cur = k) ∧
  (∀ (s : State) (i : Nat) (e : Event), s.pick = some (.event i) → s.events[i]? = some e →
    step s = exec e.row { s.begin with arg := e.arg, events := s.begin.events.eraseIdx i }) ∧
  (∀ s : State, s.pick = none → step s = .next s.begin) ∧
  (∀ (s : State) (v : Via) (va : Nat),
    (∀ e, s.checkSpans v [(va, 4)] needX true polWt = .error e → s.fetchWord v va = .error e) ∧
    (∀ sp, s.checkSpans v [(va, 4)] needX true polWt = .ok sp → ∃ w, s.fetchWord v va = .ok (s.fillSpans v sp, w) ∧
      w = BitVec.ofNat 32 (leNat (sp.flatten.flatMap fun x => (s.fillSpans v sp).readsPhys x.1.key x.2))) ∧
    (∀ u w0, s.fetchWord v va = .ok (u, w0) → isPrefix w0 = false → s.fetch v va = .ok (u, w0, 0)) ∧
    (∀ u u' w0 w1, s.fetchWord v va = .ok (u, w0) → isPrefix w0 = true → u.fetchWord v (va + 4) = .ok (u', w1) →
      s.fetch v va = .ok (u', w0, w1))) ∧
  (∀ b0 b1 b2 b3 : Byte, wordFromBytes b0 b1 b2 b3 = BitVec.ofNat 32 (leNat [b0, b1, b2, b3]))

/-- From every state whose memory is canonical (addresses strictly rising, no entry equal to what an unlisted address
reads as), every step that answers a next state gives one whose memory is canonical, so equal memories stay equal data
whatever team or event moved. (01 R11; 06 R173; 10 R260; 12 R306) -/
def Obligations.MemoryStaysCanonical : Prop :=
  ∀ s s' : State, s.mem.wf = true → step s = .next s' → s'.mem.wf = true
end

