-- ==== Sys2Proof/Laws/State.lean ====
section
/-! SUPPORT. One lemma per field per update of the state and of a team, so that no proof unfolds a record update. -/

namespace Sys2Proof.Machine

@[simp] theorem State.setTeam_mem (s : State) (k : Nat) (t : Team) : (s.setTeam k t).mem = s.mem := rfl
@[simp] theorem State.setTeam_clock (s : State) (k : Nat) (t : Team) : (s.setTeam k t).clock = s.clock := rfl
@[simp] theorem State.setTeam_tick (s : State) (k : Nat) (t : Team) : (s.setTeam k t).tick = s.tick := rfl
@[simp] theorem State.setTeam_turn (s : State) (k : Nat) (t : Team) : (s.setTeam k t).turn = s.turn := rfl
@[simp] theorem State.setTeam_cur (s : State) (k : Nat) (t : Team) : (s.setTeam k t).cur = s.cur := rfl
@[simp] theorem State.setTeam_iw (s : State) (k : Nat) (t : Team) : (s.setTeam k t).iw = s.iw := rfl
@[simp] theorem State.setTeam_arg (s : State) (k : Nat) (t : Team) : (s.setTeam k t).arg = s.arg := rfl
@[simp] theorem State.setTeam_events (s : State) (k : Nat) (t : Team) : (s.setTeam k t).events = s.events := rfl
@[simp] theorem State.setTeam_launches (s : State) (k : Nat) (t : Team) : (s.setTeam k t).launches = s.launches := rfl
@[simp] theorem State.setTeam_groups (s : State) (k : Nat) (t : Team) : (s.setTeam k t).groups = s.groups := rfl
@[simp] theorem State.setTeam_shares (s : State) (k : Nat) (t : Team) : (s.setTeam k t).shares = s.shares := rfl
@[simp] theorem State.setTeam_resq (s : State) (k : Nat) (t : Team) : (s.setTeam k t).resq = s.resq := rfl
@[simp] theorem State.setTeam_reserved (s : State) (k : Nat) (t : Team) : (s.setTeam k t).reserved = s.reserved := rfl
@[simp] theorem State.setTeam_sparesUsed (s : State) (k : Nat) (t : Team) : (s.setTeam k t).sparesUsed = s.sparesUsed := rfl
@[simp] theorem State.setTeam_coreDown (s : State) (k : Nat) (t : Team) : (s.setTeam k t).coreDown = s.coreDown := rfl
@[simp] theorem State.setTeam_ctl (s : State) (k : Nat) (t : Team) : (s.setTeam k t).ctl = s.ctl := rfl
@[simp] theorem State.setTeam_queues (s : State) (k : Nat) (t : Team) : (s.setTeam k t).queues = s.queues := rfl
@[simp] theorem State.setTeam_ptr (s : State) (k : Nat) (t : Team) : (s.setTeam k t).ptr = s.ptr := rfl
@[simp] theorem State.setTeam_bins (s : State) (k : Nat) (t : Team) : (s.setTeam k t).bins = s.bins := rfl
@[simp] theorem State.setTeam_copies (s : State) (k : Nat) (t : Team) : (s.setTeam k t).copies = s.copies := rfl
@[simp] theorem State.setTeam_nextCopy (s : State) (k : Nat) (t : Team) : (s.setTeam k t).nextCopy = s.nextCopy := rfl
@[simp] theorem State.setTeam_collected (s : State) (k : Nat) (t : Team) : (s.setTeam k t).collected = s.collected := rfl
@[simp] theorem State.setTeam_faults (s : State) (k : Nat) (t : Team) : (s.setTeam k t).faults = s.faults := rfl
@[simp] theorem State.setTeam_nextFseq (s : State) (k : Nat) (t : Team) : (s.setTeam k t).nextFseq = s.nextFseq := rfl
@[simp] theorem State.setTeam_errors (s : State) (k : Nat) (t : Team) : (s.setTeam k t).errors = s.errors := rfl
@[simp] theorem State.setTeam_listUse (s : State) (k : Nat) (t : Team) : (s.setTeam k t).listUse = s.listUse := rfl
@[simp] theorem State.setTeam_listNext (s : State) (k : Nat) (t : Team) : (s.setTeam k t).listNext = s.listNext := rfl
@[simp] theorem State.setTeam_msix (s : State) (k : Nat) (t : Team) : (s.setTeam k t).msix = s.msix := rfl
@[simp] theorem State.setTeam_msiSent (s : State) (k : Nat) (t : Team) : (s.setTeam k t).msiSent = s.msiSent := rfl
@[simp] theorem State.setTeam_dir (s : State) (k : Nat) (t : Team) : (s.setTeam k t).dir = s.dir := rfl
@[simp] theorem State.setTeam_txns (s : State) (k : Nat) (t : Team) : (s.setTeam k t).txns = s.txns := rfl
@[simp] theorem State.setTeam_nextTxn (s : State) (k : Nat) (t : Team) : (s.setTeam k t).nextTxn = s.nextTxn := rfl
@[simp] theorem State.setTeam_lines (s : State) (k : Nat) (t : Team) : (s.setTeam k t).lines = s.lines := rfl
@[simp] theorem State.setTeam_llc (s : State) (k : Nat) (t : Team) : (s.setTeam k t).llc = s.llc := rfl
@[simp] theorem State.setTeam_wbuf (s : State) (k : Nat) (t : Team) : (s.setTeam k t).wbuf = s.wbuf := rfl
@[simp] theorem State.setTeam_miss (s : State) (k : Nat) (t : Team) : (s.setTeam k t).miss = s.miss := rfl
@[simp] theorem State.setTeam_delivered (s : State) (k : Nat) (t : Team) : (s.setTeam k t).delivered = s.delivered := rfl
@[simp] theorem State.setTeam_buffered (s : State) (k : Nat) (t : Team) : (s.setTeam k t).buffered = s.buffered := rfl
@[simp] theorem State.setTeam_seenTags (s : State) (k : Nat) (t : Team) : (s.setTeam k t).seenTags = s.seenTags := rfl
@[simp] theorem State.setTeam_biWait (s : State) (k : Nat) (t : Team) : (s.setTeam k t).biWait = s.biWait := rfl
@[simp] theorem State.setTeam_biReady (s : State) (k : Nat) (t : Team) : (s.setTeam k t).biReady = s.biReady := rfl
@[simp] theorem State.setTeam_cxl (s : State) (k : Nat) (t : Team) : (s.setTeam k t).cxl = s.cxl := rfl
@[simp] theorem State.setTeam_cxlNoData (s : State) (k : Nat) (t : Team) : (s.setTeam k t).cxlNoData = s.cxlNoData := rfl
@[simp] theorem State.setTeam_cxlWait (s : State) (k : Nat) (t : Team) : (s.setTeam k t).cxlWait = s.cxlWait := rfl
@[simp] theorem State.setTeam_llcCount (s : State) (k : Nat) (t : Team) : (s.setTeam k t).llcCount = s.llcCount := rfl
@[simp] theorem State.setTeam_tcSpare (s : State) (k : Nat) (t : Team) : (s.setTeam k t).tcSpare = s.tcSpare := rfl
@[simp] theorem State.setTeam_tcFills (s : State) (k : Nat) (t : Team) : (s.setTeam k t).tcFills = s.tcFills := rfl
@[simp] theorem State.setTeam_tlb (s : State) (k : Nat) (t : Team) : (s.setTeam k t).tlb = s.tlb := rfl
@[simp] theorem State.setTeam_walks (s : State) (k : Nat) (t : Team) : (s.setTeam k t).walks = s.walks := rfl
@[simp] theorem State.setTeam_invs (s : State) (k : Nat) (t : Team) : (s.setTeam k t).invs = s.invs := rfl
@[simp] theorem State.setTeam_moves (s : State) (k : Nat) (t : Team) : (s.setTeam k t).moves = s.moves := rfl
@[simp] theorem State.setTeam_framePool (s : State) (k : Nat) (t : Team) : (s.setTeam k t).framePool = s.framePool := rfl
@[simp] theorem State.setTeam_offers (s : State) (k : Nat) (t : Team) : (s.setTeam k t).offers = s.offers := rfl
@[simp] theorem State.setTeam_thrash (s : State) (k : Nat) (t : Team) : (s.setTeam k t).thrash = s.thrash := rfl
@[simp] theorem State.setTeam_lastHalve (s : State) (k : Nat) (t : Team) : (s.setTeam k t).lastHalve = s.lastHalve := rfl
@[simp] theorem State.setTeam_poison (s : State) (k : Nat) (t : Team) : (s.setTeam k t).poison = s.poison := rfl
@[simp] theorem State.setTeam_remaps (s : State) (k : Nat) (t : Team) : (s.setTeam k t).remaps = s.remaps := rfl
@[simp] theorem State.setTeam_routesDown (s : State) (k : Nat) (t : Team) : (s.setTeam k t).routesDown = s.routesDown := rfl
@[simp] theorem State.setTeam_lostDies (s : State) (k : Nat) (t : Team) : (s.setTeam k t).lostDies = s.lostDies := rfl
@[simp] theorem State.setTeam_ports (s : State) (k : Nat) (t : Team) : (s.setTeam k t).ports = s.ports := rfl
@[simp] theorem State.setTeam_config (s : State) (k : Nat) (t : Team) : (s.setTeam k t).config = s.config := rfl
@[simp] theorem State.setTeam_sec (s : State) (k : Nat) (t : Team) : (s.setTeam k t).sec = s.sec := rfl
@[simp] theorem State.setTeam_drainNow (s : State) (k : Nat) (t : Team) : (s.setTeam k t).drainNow = s.drainNow := rfl
@[simp] theorem State.setTeam_drainSince (s : State) (k : Nat) (t : Team) : (s.setTeam k t).drainSince = s.drainSince := rfl
@[simp] theorem State.setTeam_drainQueued (s : State) (k : Nat) (t : Team) : (s.setTeam k t).drainQueued = s.drainQueued := rfl
@[simp] theorem State.setTeam_savedOrder (s : State) (k : Nat) (t : Team) : (s.setTeam k t).savedOrder = s.savedOrder := rfl
@[simp] theorem State.setTeam_powerDown (s : State) (k : Nat) (t : Team) : (s.setTeam k t).powerDown = s.powerDown := rfl
@[simp] theorem State.setTeam_powerLog (s : State) (k : Nat) (t : Team) : (s.setTeam k t).powerLog = s.powerLog := rfl
@[simp] theorem State.setTeam_unitFails (s : State) (k : Nat) (t : Team) : (s.setTeam k t).unitFails = s.unitFails := rfl
@[simp] theorem State.setTeam_hostReady (s : State) (k : Nat) (t : Team) : (s.setTeam k t).hostReady = s.hostReady := rfl
@[simp] theorem State.setTeam_hostAnswer (s : State) (k : Nat) (t : Team) : (s.setTeam k t).hostAnswer = s.hostAnswer := rfl
@[simp] theorem State.setTeam_spawned (s : State) (k : Nat) (t : Team) : (s.setTeam k t).spawned = s.spawned := rfl

@[simp] theorem State.withTeam_mem (s : State) (t : Team) : (s.withTeam t).mem = s.mem := rfl
@[simp] theorem State.withTeam_clock (s : State) (t : Team) : (s.withTeam t).clock = s.clock := rfl
@[simp] theorem State.withTeam_tick (s : State) (t : Team) : (s.withTeam t).tick = s.tick := rfl
@[simp] theorem State.withTeam_turn (s : State) (t : Team) : (s.withTeam t).turn = s.turn := rfl
@[simp] theorem State.withTeam_cur (s : State) (t : Team) : (s.withTeam t).cur = s.cur := rfl
@[simp] theorem State.withTeam_iw (s : State) (t : Team) : (s.withTeam t).iw = s.iw := rfl
@[simp] theorem State.withTeam_arg (s : State) (t : Team) : (s.withTeam t).arg = s.arg := rfl
@[simp] theorem State.withTeam_events (s : State) (t : Team) : (s.withTeam t).events = s.events := rfl
@[simp] theorem State.withTeam_launches (s : State) (t : Team) : (s.withTeam t).launches = s.launches := rfl
@[simp] theorem State.withTeam_groups (s : State) (t : Team) : (s.withTeam t).groups = s.groups := rfl
@[simp] theorem State.withTeam_shares (s : State) (t : Team) : (s.withTeam t).shares = s.shares := rfl
@[simp] theorem State.withTeam_resq (s : State) (t : Team) : (s.withTeam t).resq = s.resq := rfl
@[simp] theorem State.withTeam_reserved (s : State) (t : Team) : (s.withTeam t).reserved = s.reserved := rfl
@[simp] theorem State.withTeam_sparesUsed (s : State) (t : Team) : (s.withTeam t).sparesUsed = s.sparesUsed := rfl
@[simp] theorem State.withTeam_coreDown (s : State) (t : Team) : (s.withTeam t).coreDown = s.coreDown := rfl
@[simp] theorem State.withTeam_ctl (s : State) (t : Team) : (s.withTeam t).ctl = s.ctl := rfl
@[simp] theorem State.withTeam_queues (s : State) (t : Team) : (s.withTeam t).queues = s.queues := rfl
@[simp] theorem State.withTeam_ptr (s : State) (t : Team) : (s.withTeam t).ptr = s.ptr := rfl
@[simp] theorem State.withTeam_bins (s : State) (t : Team) : (s.withTeam t).bins = s.bins := rfl
@[simp] theorem State.withTeam_copies (s : State) (t : Team) : (s.withTeam t).copies = s.copies := rfl
@[simp] theorem State.withTeam_nextCopy (s : State) (t : Team) : (s.withTeam t).nextCopy = s.nextCopy := rfl
@[simp] theorem State.withTeam_collected (s : State) (t : Team) : (s.withTeam t).collected = s.collected := rfl
@[simp] theorem State.withTeam_faults (s : State) (t : Team) : (s.withTeam t).faults = s.faults := rfl
@[simp] theorem State.withTeam_nextFseq (s : State) (t : Team) : (s.withTeam t).nextFseq = s.nextFseq := rfl
@[simp] theorem State.withTeam_errors (s : State) (t : Team) : (s.withTeam t).errors = s.errors := rfl
@[simp] theorem State.withTeam_listUse (s : State) (t : Team) : (s.withTeam t).listUse = s.listUse := rfl
@[simp] theorem State.withTeam_listNext (s : State) (t : Team) : (s.withTeam t).listNext = s.listNext := rfl
@[simp] theorem State.withTeam_msix (s : State) (t : Team) : (s.withTeam t).msix = s.msix := rfl
@[simp] theorem State.withTeam_msiSent (s : State) (t : Team) : (s.withTeam t).msiSent = s.msiSent := rfl
@[simp] theorem State.withTeam_dir (s : State) (t : Team) : (s.withTeam t).dir = s.dir := rfl
@[simp] theorem State.withTeam_txns (s : State) (t : Team) : (s.withTeam t).txns = s.txns := rfl
@[simp] theorem State.withTeam_nextTxn (s : State) (t : Team) : (s.withTeam t).nextTxn = s.nextTxn := rfl
@[simp] theorem State.withTeam_lines (s : State) (t : Team) : (s.withTeam t).lines = s.lines := rfl
@[simp] theorem State.withTeam_llc (s : State) (t : Team) : (s.withTeam t).llc = s.llc := rfl
@[simp] theorem State.withTeam_wbuf (s : State) (t : Team) : (s.withTeam t).wbuf = s.wbuf := rfl
@[simp] theorem State.withTeam_miss (s : State) (t : Team) : (s.withTeam t).miss = s.miss := rfl
@[simp] theorem State.withTeam_delivered (s : State) (t : Team) : (s.withTeam t).delivered = s.delivered := rfl
@[simp] theorem State.withTeam_buffered (s : State) (t : Team) : (s.withTeam t).buffered = s.buffered := rfl
@[simp] theorem State.withTeam_seenTags (s : State) (t : Team) : (s.withTeam t).seenTags = s.seenTags := rfl
@[simp] theorem State.withTeam_biWait (s : State) (t : Team) : (s.withTeam t).biWait = s.biWait := rfl
@[simp] theorem State.withTeam_biReady (s : State) (t : Team) : (s.withTeam t).biReady = s.biReady := rfl
@[simp] theorem State.withTeam_cxl (s : State) (t : Team) : (s.withTeam t).cxl = s.cxl := rfl
@[simp] theorem State.withTeam_cxlNoData (s : State) (t : Team) : (s.withTeam t).cxlNoData = s.cxlNoData := rfl
@[simp] theorem State.withTeam_cxlWait (s : State) (t : Team) : (s.withTeam t).cxlWait = s.cxlWait := rfl
@[simp] theorem State.withTeam_llcCount (s : State) (t : Team) : (s.withTeam t).llcCount = s.llcCount := rfl
@[simp] theorem State.withTeam_tcSpare (s : State) (t : Team) : (s.withTeam t).tcSpare = s.tcSpare := rfl
@[simp] theorem State.withTeam_tcFills (s : State) (t : Team) : (s.withTeam t).tcFills = s.tcFills := rfl
@[simp] theorem State.withTeam_tlb (s : State) (t : Team) : (s.withTeam t).tlb = s.tlb := rfl
@[simp] theorem State.withTeam_walks (s : State) (t : Team) : (s.withTeam t).walks = s.walks := rfl
@[simp] theorem State.withTeam_invs (s : State) (t : Team) : (s.withTeam t).invs = s.invs := rfl
@[simp] theorem State.withTeam_moves (s : State) (t : Team) : (s.withTeam t).moves = s.moves := rfl
@[simp] theorem State.withTeam_framePool (s : State) (t : Team) : (s.withTeam t).framePool = s.framePool := rfl
@[simp] theorem State.withTeam_offers (s : State) (t : Team) : (s.withTeam t).offers = s.offers := rfl
@[simp] theorem State.withTeam_thrash (s : State) (t : Team) : (s.withTeam t).thrash = s.thrash := rfl
@[simp] theorem State.withTeam_lastHalve (s : State) (t : Team) : (s.withTeam t).lastHalve = s.lastHalve := rfl
@[simp] theorem State.withTeam_poison (s : State) (t : Team) : (s.withTeam t).poison = s.poison := rfl
@[simp] theorem State.withTeam_remaps (s : State) (t : Team) : (s.withTeam t).remaps = s.remaps := rfl
@[simp] theorem State.withTeam_routesDown (s : State) (t : Team) : (s.withTeam t).routesDown = s.routesDown := rfl
@[simp] theorem State.withTeam_lostDies (s : State) (t : Team) : (s.withTeam t).lostDies = s.lostDies := rfl
@[simp] theorem State.withTeam_ports (s : State) (t : Team) : (s.withTeam t).ports = s.ports := rfl
@[simp] theorem State.withTeam_config (s : State) (t : Team) : (s.withTeam t).config = s.config := rfl
@[simp] theorem State.withTeam_sec (s : State) (t : Team) : (s.withTeam t).sec = s.sec := rfl
@[simp] theorem State.withTeam_drainNow (s : State) (t : Team) : (s.withTeam t).drainNow = s.drainNow := rfl
@[simp] theorem State.withTeam_drainSince (s : State) (t : Team) : (s.withTeam t).drainSince = s.drainSince := rfl
@[simp] theorem State.withTeam_drainQueued (s : State) (t : Team) : (s.withTeam t).drainQueued = s.drainQueued := rfl
@[simp] theorem State.withTeam_savedOrder (s : State) (t : Team) : (s.withTeam t).savedOrder = s.savedOrder := rfl
@[simp] theorem State.withTeam_powerDown (s : State) (t : Team) : (s.withTeam t).powerDown = s.powerDown := rfl
@[simp] theorem State.withTeam_powerLog (s : State) (t : Team) : (s.withTeam t).powerLog = s.powerLog := rfl
@[simp] theorem State.withTeam_unitFails (s : State) (t : Team) : (s.withTeam t).unitFails = s.unitFails := rfl
@[simp] theorem State.withTeam_hostReady (s : State) (t : Team) : (s.withTeam t).hostReady = s.hostReady := rfl
@[simp] theorem State.withTeam_hostAnswer (s : State) (t : Team) : (s.withTeam t).hostAnswer = s.hostAnswer := rfl
@[simp] theorem State.withTeam_spawned (s : State) (t : Team) : (s.withTeam t).spawned = s.spawned := rfl

@[simp] theorem State.setCreg_mem (s : State) (o : Nat) (v : Word64) : (s.setCreg o v).mem = s.mem := rfl
@[simp] theorem State.setCreg_clock (s : State) (o : Nat) (v : Word64) : (s.setCreg o v).clock = s.clock := rfl
@[simp] theorem State.setCreg_tick (s : State) (o : Nat) (v : Word64) : (s.setCreg o v).tick = s.tick := rfl
@[simp] theorem State.setCreg_turn (s : State) (o : Nat) (v : Word64) : (s.setCreg o v).turn = s.turn := rfl
@[simp] theorem State.setCreg_cur (s : State) (o : Nat) (v : Word64) : (s.setCreg o v).cur = s.cur := rfl
@[simp] theorem State.setCreg_iw (s : State) (o : Nat) (v : Word64) : (s.setCreg o v).iw = s.iw := rfl
@[simp] theorem State.setCreg_arg (s : State) (o : Nat) (v : Word64) : (s.setCreg o v).arg = s.arg := rfl
@[simp] theorem State.setCreg_events (s : State) (o : Nat) (v : Word64) : (s.setCreg o v).events = s.events := rfl
@[simp] theorem State.setCreg_teams (s : State) (o : Nat) (v : Word64) : (s.setCreg o v).teams = s.teams := rfl
@[simp] theorem State.setCreg_launches (s : State) (o : Nat) (v : Word64) : (s.setCreg o v).launches = s.launches := rfl
@[simp] theorem State.setCreg_groups (s : State) (o : Nat) (v : Word64) : (s.setCreg o v).groups = s.groups := rfl
@[simp] theorem State.setCreg_shares (s : State) (o : Nat) (v : Word64) : (s.setCreg o v).shares = s.shares := rfl
@[simp] theorem State.setCreg_resq (s : State) (o : Nat) (v : Word64) : (s.setCreg o v).resq = s.resq := rfl
@[simp] theorem State.setCreg_reserved (s : State) (o : Nat) (v : Word64) : (s.setCreg o v).reserved = s.reserved := rfl
@[simp] theorem State.setCreg_sparesUsed (s : State) (o : Nat) (v : Word64) : (s.setCreg o v).sparesUsed = s.sparesUsed := rfl
@[simp] theorem State.setCreg_coreDown (s : State) (o : Nat) (v : Word64) : (s.setCreg o v).coreDown = s.coreDown := rfl
@[simp] theorem State.setCreg_queues (s : State) (o : Nat) (v : Word64) : (s.setCreg o v).queues = s.queues := rfl
@[simp] theorem State.setCreg_ptr (s : State) (o : Nat) (v : Word64) : (s.setCreg o v).ptr = s.ptr := rfl
@[simp] theorem State.setCreg_bins (s : State) (o : Nat) (v : Word64) : (s.setCreg o v).bins = s.bins := rfl
@[simp] theorem State.setCreg_copies (s : State) (o : Nat) (v : Word64) : (s.setCreg o v).copies = s.copies := rfl
@[simp] theorem State.setCreg_nextCopy (s : State) (o : Nat) (v : Word64) : (s.setCreg o v).nextCopy = s.nextCopy := rfl
@[simp] theorem State.setCreg_collected (s : State) (o : Nat) (v : Word64) : (s.setCreg o v).collected = s.collected := rfl
@[simp] theorem State.setCreg_faults (s : State) (o : Nat) (v : Word64) : (s.setCreg o v).faults = s.faults := rfl
@[simp] theorem State.setCreg_nextFseq (s : State) (o : Nat) (v : Word64) : (s.setCreg o v).nextFseq = s.nextFseq := rfl
@[simp] theorem State.setCreg_errors (s : State) (o : Nat) (v : Word64) : (s.setCreg o v).errors = s.errors := rfl
@[simp] theorem State.setCreg_listUse (s : State) (o : Nat) (v : Word64) : (s.setCreg o v).listUse = s.listUse := rfl
@[simp] theorem State.setCreg_listNext (s : State) (o : Nat) (v : Word64) : (s.setCreg o v).listNext = s.listNext := rfl
@[simp] theorem State.setCreg_msix (s : State) (o : Nat) (v : Word64) : (s.setCreg o v).msix = s.msix := rfl
@[simp] theorem State.setCreg_msiSent (s : State) (o : Nat) (v : Word64) : (s.setCreg o v).msiSent = s.msiSent := rfl
@[simp] theorem State.setCreg_dir (s : State) (o : Nat) (v : Word64) : (s.setCreg o v).dir = s.dir := rfl
@[simp] theorem State.setCreg_txns (s : State) (o : Nat) (v : Word64) : (s.setCreg o v).txns = s.txns := rfl
@[simp] theorem State.setCreg_nextTxn (s : State) (o : Nat) (v : Word64) : (s.setCreg o v).nextTxn = s.nextTxn := rfl
@[simp] theorem State.setCreg_lines (s : State) (o : Nat) (v : Word64) : (s.setCreg o v).lines = s.lines := rfl
@[simp] theorem State.setCreg_llc (s : State) (o : Nat) (v : Word64) : (s.setCreg o v).llc = s.llc := rfl
@[simp] theorem State.setCreg_wbuf (s : State) (o : Nat) (v : Word64) : (s.setCreg o v).wbuf = s.wbuf := rfl
@[simp] theorem State.setCreg_miss (s : State) (o : Nat) (v : Word64) : (s.setCreg o v).miss = s.miss := rfl
@[simp] theorem State.setCreg_delivered (s : State) (o : Nat) (v : Word64) : (s.setCreg o v).delivered = s.delivered := rfl
@[simp] theorem State.setCreg_buffered (s : State) (o : Nat) (v : Word64) : (s.setCreg o v).buffered = s.buffered := rfl
@[simp] theorem State.setCreg_seenTags (s : State) (o : Nat) (v : Word64) : (s.setCreg o v).seenTags = s.seenTags := rfl
@[simp] theorem State.setCreg_biWait (s : State) (o : Nat) (v : Word64) : (s.setCreg o v).biWait = s.biWait := rfl
@[simp] theorem State.setCreg_biReady (s : State) (o : Nat) (v : Word64) : (s.setCreg o v).biReady = s.biReady := rfl
@[simp] theorem State.setCreg_cxl (s : State) (o : Nat) (v : Word64) : (s.setCreg o v).cxl = s.cxl := rfl
@[simp] theorem State.setCreg_cxlNoData (s : State) (o : Nat) (v : Word64) : (s.setCreg o v).cxlNoData = s.cxlNoData := rfl
@[simp] theorem State.setCreg_cxlWait (s : State) (o : Nat) (v : Word64) : (s.setCreg o v).cxlWait = s.cxlWait := rfl
@[simp] theorem State.setCreg_llcCount (s : State) (o : Nat) (v : Word64) : (s.setCreg o v).llcCount = s.llcCount := rfl
@[simp] theorem State.setCreg_tcSpare (s : State) (o : Nat) (v : Word64) : (s.setCreg o v).tcSpare = s.tcSpare := rfl
@[simp] theorem State.setCreg_tcFills (s : State) (o : Nat) (v : Word64) : (s.setCreg o v).tcFills = s.tcFills := rfl
@[simp] theorem State.setCreg_tlb (s : State) (o : Nat) (v : Word64) : (s.setCreg o v).tlb = s.tlb := rfl
@[simp] theorem State.setCreg_walks (s : State) (o : Nat) (v : Word64) : (s.setCreg o v).walks = s.walks := rfl
@[simp] theorem State.setCreg_invs (s : State) (o : Nat) (v : Word64) : (s.setCreg o v).invs = s.invs := rfl
@[simp] theorem State.setCreg_moves (s : State) (o : Nat) (v : Word64) : (s.setCreg o v).moves = s.moves := rfl
@[simp] theorem State.setCreg_framePool (s : State) (o : Nat) (v : Word64) : (s.setCreg o v).framePool = s.framePool := rfl
@[simp] theorem State.setCreg_offers (s : State) (o : Nat) (v : Word64) : (s.setCreg o v).offers = s.offers := rfl
@[simp] theorem State.setCreg_thrash (s : State) (o : Nat) (v : Word64) : (s.setCreg o v).thrash = s.thrash := rfl
@[simp] theorem State.setCreg_lastHalve (s : State) (o : Nat) (v : Word64) : (s.setCreg o v).lastHalve = s.lastHalve := rfl
@[simp] theorem State.setCreg_poison (s : State) (o : Nat) (v : Word64) : (s.setCreg o v).poison = s.poison := rfl
@[simp] theorem State.setCreg_remaps (s : State) (o : Nat) (v : Word64) : (s.setCreg o v).remaps = s.remaps := rfl
@[simp] theorem State.setCreg_routesDown (s : State) (o : Nat) (v : Word64) : (s.setCreg o v).routesDown = s.routesDown := rfl
@[simp] theorem State.setCreg_lostDies (s : State) (o : Nat) (v : Word64) : (s.setCreg o v).lostDies = s.lostDies := rfl
@[simp] theorem State.setCreg_ports (s : State) (o : Nat) (v : Word64) : (s.setCreg o v).ports = s.ports := rfl
@[simp] theorem State.setCreg_config (s : State) (o : Nat) (v : Word64) : (s.setCreg o v).config = s.config := rfl
@[simp] theorem State.setCreg_sec (s : State) (o : Nat) (v : Word64) : (s.setCreg o v).sec = s.sec := rfl
@[simp] theorem State.setCreg_drainNow (s : State) (o : Nat) (v : Word64) : (s.setCreg o v).drainNow = s.drainNow := rfl
@[simp] theorem State.setCreg_drainSince (s : State) (o : Nat) (v : Word64) : (s.setCreg o v).drainSince = s.drainSince := rfl
@[simp] theorem State.setCreg_drainQueued (s : State) (o : Nat) (v : Word64) : (s.setCreg o v).drainQueued = s.drainQueued := rfl
@[simp] theorem State.setCreg_savedOrder (s : State) (o : Nat) (v : Word64) : (s.setCreg o v).savedOrder = s.savedOrder := rfl
@[simp] theorem State.setCreg_powerDown (s : State) (o : Nat) (v : Word64) : (s.setCreg o v).powerDown = s.powerDown := rfl
@[simp] theorem State.setCreg_powerLog (s : State) (o : Nat) (v : Word64) : (s.setCreg o v).powerLog = s.powerLog := rfl
@[simp] theorem State.setCreg_unitFails (s : State) (o : Nat) (v : Word64) : (s.setCreg o v).unitFails = s.unitFails := rfl
@[simp] theorem State.setCreg_hostReady (s : State) (o : Nat) (v : Word64) : (s.setCreg o v).hostReady = s.hostReady := rfl
@[simp] theorem State.setCreg_hostAnswer (s : State) (o : Nat) (v : Word64) : (s.setCreg o v).hostAnswer = s.hostAnswer := rfl
@[simp] theorem State.setCreg_spawned (s : State) (o : Nat) (v : Word64) : (s.setCreg o v).spawned = s.spawned := rfl

@[simp] theorem State.setLaunch_mem (s : State) (l : Nat) (x : Launch) : (s.setLaunch l x).mem = s.mem := rfl
@[simp] theorem State.setLaunch_clock (s : State) (l : Nat) (x : Launch) : (s.setLaunch l x).clock = s.clock := rfl
@[simp] theorem State.setLaunch_tick (s : State) (l : Nat) (x : Launch) : (s.setLaunch l x).tick = s.tick := rfl
@[simp] theorem State.setLaunch_turn (s : State) (l : Nat) (x : Launch) : (s.setLaunch l x).turn = s.turn := rfl
@[simp] theorem State.setLaunch_cur (s : State) (l : Nat) (x : Launch) : (s.setLaunch l x).cur = s.cur := rfl
@[simp] theorem State.setLaunch_iw (s : State) (l : Nat) (x : Launch) : (s.setLaunch l x).iw = s.iw := rfl
@[simp] theorem State.setLaunch_arg (s : State) (l : Nat) (x : Launch) : (s.setLaunch l x).arg = s.arg := rfl
@[simp] theorem State.setLaunch_events (s : State) (l : Nat) (x : Launch) : (s.setLaunch l x).events = s.events := rfl
@[simp] theorem State.setLaunch_teams (s : State) (l : Nat) (x : Launch) : (s.setLaunch l x).teams = s.teams := rfl
@[simp] theorem State.setLaunch_groups (s : State) (l : Nat) (x : Launch) : (s.setLaunch l x).groups = s.groups := rfl
@[simp] theorem State.setLaunch_shares (s : State) (l : Nat) (x : Launch) : (s.setLaunch l x).shares = s.shares := rfl
@[simp] theorem State.setLaunch_resq (s : State) (l : Nat) (x : Launch) : (s.setLaunch l x).resq = s.resq := rfl
@[simp] theorem State.setLaunch_reserved (s : State) (l : Nat) (x : Launch) : (s.setLaunch l x).reserved = s.reserved := rfl
@[simp] theorem State.setLaunch_sparesUsed (s : State) (l : Nat) (x : Launch) : (s.setLaunch l x).sparesUsed = s.sparesUsed := rfl
@[simp] theorem State.setLaunch_coreDown (s : State) (l : Nat) (x : Launch) : (s.setLaunch l x).coreDown = s.coreDown := rfl
@[simp] theorem State.setLaunch_ctl (s : State) (l : Nat) (x : Launch) : (s.setLaunch l x).ctl = s.ctl := rfl
@[simp] theorem State.setLaunch_queues (s : State) (l : Nat) (x : Launch) : (s.setLaunch l x).queues = s.queues := rfl
@[simp] theorem State.setLaunch_ptr (s : State) (l : Nat) (x : Launch) : (s.setLaunch l x).ptr = s.ptr := rfl
@[simp] theorem State.setLaunch_bins (s : State) (l : Nat) (x : Launch) : (s.setLaunch l x).bins = s.bins := rfl
@[simp] theorem State.setLaunch_copies (s : State) (l : Nat) (x : Launch) : (s.setLaunch l x).copies = s.copies := rfl
@[simp] theorem State.setLaunch_nextCopy (s : State) (l : Nat) (x : Launch) : (s.setLaunch l x).nextCopy = s.nextCopy := rfl
@[simp] theorem State.setLaunch_collected (s : State) (l : Nat) (x : Launch) : (s.setLaunch l x).collected = s.collected := rfl
@[simp] theorem State.setLaunch_faults (s : State) (l : Nat) (x : Launch) : (s.setLaunch l x).faults = s.faults := rfl
@[simp] theorem State.setLaunch_nextFseq (s : State) (l : Nat) (x : Launch) : (s.setLaunch l x).nextFseq = s.nextFseq := rfl
@[simp] theorem State.setLaunch_errors (s : State) (l : Nat) (x : Launch) : (s.setLaunch l x).errors = s.errors := rfl
@[simp] theorem State.setLaunch_listUse (s : State) (l : Nat) (x : Launch) : (s.setLaunch l x).listUse = s.listUse := rfl
@[simp] theorem State.setLaunch_listNext (s : State) (l : Nat) (x : Launch) : (s.setLaunch l x).listNext = s.listNext := rfl
@[simp] theorem State.setLaunch_msix (s : State) (l : Nat) (x : Launch) : (s.setLaunch l x).msix = s.msix := rfl
@[simp] theorem State.setLaunch_msiSent (s : State) (l : Nat) (x : Launch) : (s.setLaunch l x).msiSent = s.msiSent := rfl
@[simp] theorem State.setLaunch_dir (s : State) (l : Nat) (x : Launch) : (s.setLaunch l x).dir = s.dir := rfl
@[simp] theorem State.setLaunch_txns (s : State) (l : Nat) (x : Launch) : (s.setLaunch l x).txns = s.txns := rfl
@[simp] theorem State.setLaunch_nextTxn (s : State) (l : Nat) (x : Launch) : (s.setLaunch l x).nextTxn = s.nextTxn := rfl
@[simp] theorem State.setLaunch_lines (s : State) (l : Nat) (x : Launch) : (s.setLaunch l x).lines = s.lines := rfl
@[simp] theorem State.setLaunch_llc (s : State) (l : Nat) (x : Launch) : (s.setLaunch l x).llc = s.llc := rfl
@[simp] theorem State.setLaunch_wbuf (s : State) (l : Nat) (x : Launch) : (s.setLaunch l x).wbuf = s.wbuf := rfl
@[simp] theorem State.setLaunch_miss (s : State) (l : Nat) (x : Launch) : (s.setLaunch l x).miss = s.miss := rfl
@[simp] theorem State.setLaunch_delivered (s : State) (l : Nat) (x : Launch) : (s.setLaunch l x).delivered = s.delivered := rfl
@[simp] theorem State.setLaunch_buffered (s : State) (l : Nat) (x : Launch) : (s.setLaunch l x).buffered = s.buffered := rfl
@[simp] theorem State.setLaunch_seenTags (s : State) (l : Nat) (x : Launch) : (s.setLaunch l x).seenTags = s.seenTags := rfl
@[simp] theorem State.setLaunch_biWait (s : State) (l : Nat) (x : Launch) : (s.setLaunch l x).biWait = s.biWait := rfl
@[simp] theorem State.setLaunch_biReady (s : State) (l : Nat) (x : Launch) : (s.setLaunch l x).biReady = s.biReady := rfl
@[simp] theorem State.setLaunch_cxl (s : State) (l : Nat) (x : Launch) : (s.setLaunch l x).cxl = s.cxl := rfl
@[simp] theorem State.setLaunch_cxlNoData (s : State) (l : Nat) (x : Launch) : (s.setLaunch l x).cxlNoData = s.cxlNoData := rfl
@[simp] theorem State.setLaunch_cxlWait (s : State) (l : Nat) (x : Launch) : (s.setLaunch l x).cxlWait = s.cxlWait := rfl
@[simp] theorem State.setLaunch_llcCount (s : State) (l : Nat) (x : Launch) : (s.setLaunch l x).llcCount = s.llcCount := rfl
@[simp] theorem State.setLaunch_tcSpare (s : State) (l : Nat) (x : Launch) : (s.setLaunch l x).tcSpare = s.tcSpare := rfl
@[simp] theorem State.setLaunch_tcFills (s : State) (l : Nat) (x : Launch) : (s.setLaunch l x).tcFills = s.tcFills := rfl
@[simp] theorem State.setLaunch_tlb (s : State) (l : Nat) (x : Launch) : (s.setLaunch l x).tlb = s.tlb := rfl
@[simp] theorem State.setLaunch_walks (s : State) (l : Nat) (x : Launch) : (s.setLaunch l x).walks = s.walks := rfl
@[simp] theorem State.setLaunch_invs (s : State) (l : Nat) (x : Launch) : (s.setLaunch l x).invs = s.invs := rfl
@[simp] theorem State.setLaunch_moves (s : State) (l : Nat) (x : Launch) : (s.setLaunch l x).moves = s.moves := rfl
@[simp] theorem State.setLaunch_framePool (s : State) (l : Nat) (x : Launch) : (s.setLaunch l x).framePool = s.framePool := rfl
@[simp] theorem State.setLaunch_offers (s : State) (l : Nat) (x : Launch) : (s.setLaunch l x).offers = s.offers := rfl
@[simp] theorem State.setLaunch_thrash (s : State) (l : Nat) (x : Launch) : (s.setLaunch l x).thrash = s.thrash := rfl
@[simp] theorem State.setLaunch_lastHalve (s : State) (l : Nat) (x : Launch) : (s.setLaunch l x).lastHalve = s.lastHalve := rfl
@[simp] theorem State.setLaunch_poison (s : State) (l : Nat) (x : Launch) : (s.setLaunch l x).poison = s.poison := rfl
@[simp] theorem State.setLaunch_remaps (s : State) (l : Nat) (x : Launch) : (s.setLaunch l x).remaps = s.remaps := rfl
@[simp] theorem State.setLaunch_routesDown (s : State) (l : Nat) (x : Launch) : (s.setLaunch l x).routesDown = s.routesDown := rfl
@[simp] theorem State.setLaunch_lostDies (s : State) (l : Nat) (x : Launch) : (s.setLaunch l x).lostDies = s.lostDies := rfl
@[simp] theorem State.setLaunch_ports (s : State) (l : Nat) (x : Launch) : (s.setLaunch l x).ports = s.ports := rfl
@[simp] theorem State.setLaunch_config (s : State) (l : Nat) (x : Launch) : (s.setLaunch l x).config = s.config := rfl
@[simp] theorem State.setLaunch_sec (s : State) (l : Nat) (x : Launch) : (s.setLaunch l x).sec = s.sec := rfl
@[simp] theorem State.setLaunch_drainNow (s : State) (l : Nat) (x : Launch) : (s.setLaunch l x).drainNow = s.drainNow := rfl
@[simp] theorem State.setLaunch_drainSince (s : State) (l : Nat) (x : Launch) : (s.setLaunch l x).drainSince = s.drainSince := rfl
@[simp] theorem State.setLaunch_drainQueued (s : State) (l : Nat) (x : Launch) : (s.setLaunch l x).drainQueued = s.drainQueued := rfl
@[simp] theorem State.setLaunch_savedOrder (s : State) (l : Nat) (x : Launch) : (s.setLaunch l x).savedOrder = s.savedOrder := rfl
@[simp] theorem State.setLaunch_powerDown (s : State) (l : Nat) (x : Launch) : (s.setLaunch l x).powerDown = s.powerDown := rfl
@[simp] theorem State.setLaunch_powerLog (s : State) (l : Nat) (x : Launch) : (s.setLaunch l x).powerLog = s.powerLog := rfl
@[simp] theorem State.setLaunch_unitFails (s : State) (l : Nat) (x : Launch) : (s.setLaunch l x).unitFails = s.unitFails := rfl
@[simp] theorem State.setLaunch_hostReady (s : State) (l : Nat) (x : Launch) : (s.setLaunch l x).hostReady = s.hostReady := rfl
@[simp] theorem State.setLaunch_hostAnswer (s : State) (l : Nat) (x : Launch) : (s.setLaunch l x).hostAnswer = s.hostAnswer := rfl
@[simp] theorem State.setLaunch_spawned (s : State) (l : Nat) (x : Launch) : (s.setLaunch l x).spawned = s.spawned := rfl

@[simp] theorem State.setGroup_mem (s : State) (g : Nat) (x : Group) : (s.setGroup g x).mem = s.mem := rfl
@[simp] theorem State.setGroup_clock (s : State) (g : Nat) (x : Group) : (s.setGroup g x).clock = s.clock := rfl
@[simp] theorem State.setGroup_tick (s : State) (g : Nat) (x : Group) : (s.setGroup g x).tick = s.tick := rfl
@[simp] theorem State.setGroup_turn (s : State) (g : Nat) (x : Group) : (s.setGroup g x).turn = s.turn := rfl
@[simp] theorem State.setGroup_cur (s : State) (g : Nat) (x : Group) : (s.setGroup g x).cur = s.cur := rfl
@[simp] theorem State.setGroup_iw (s : State) (g : Nat) (x : Group) : (s.setGroup g x).iw = s.iw := rfl
@[simp] theorem State.setGroup_arg (s : State) (g : Nat) (x : Group) : (s.setGroup g x).arg = s.arg := rfl
@[simp] theorem State.setGroup_events (s : State) (g : Nat) (x : Group) : (s.setGroup g x).events = s.events := rfl
@[simp] theorem State.setGroup_teams (s : State) (g : Nat) (x : Group) : (s.setGroup g x).teams = s.teams := rfl
@[simp] theorem State.setGroup_launches (s : State) (g : Nat) (x : Group) : (s.setGroup g x).launches = s.launches := rfl
@[simp] theorem State.setGroup_shares (s : State) (g : Nat) (x : Group) : (s.setGroup g x).shares = s.shares := rfl
@[simp] theorem State.setGroup_resq (s : State) (g : Nat) (x : Group) : (s.setGroup g x).resq = s.resq := rfl
@[simp] theorem State.setGroup_reserved (s : State) (g : Nat) (x : Group) : (s.setGroup g x).reserved = s.reserved := rfl
@[simp] theorem State.setGroup_sparesUsed (s : State) (g : Nat) (x : Group) : (s.setGroup g x).sparesUsed = s.sparesUsed := rfl
@[simp] theorem State.setGroup_coreDown (s : State) (g : Nat) (x : Group) : (s.setGroup g x).coreDown = s.coreDown := rfl
@[simp] theorem State.setGroup_ctl (s : State) (g : Nat) (x : Group) : (s.setGroup g x).ctl = s.ctl := rfl
@[simp] theorem State.setGroup_queues (s : State) (g : Nat) (x : Group) : (s.setGroup g x).queues = s.queues := rfl
@[simp] theorem State.setGroup_ptr (s : State) (g : Nat) (x : Group) : (s.setGroup g x).ptr = s.ptr := rfl
@[simp] theorem State.setGroup_bins (s : State) (g : Nat) (x : Group) : (s.setGroup g x).bins = s.bins := rfl
@[simp] theorem State.setGroup_copies (s : State) (g : Nat) (x : Group) : (s.setGroup g x).copies = s.copies := rfl
@[simp] theorem State.setGroup_nextCopy (s : State) (g : Nat) (x : Group) : (s.setGroup g x).nextCopy = s.nextCopy := rfl
@[simp] theorem State.setGroup_collected (s : State) (g : Nat) (x : Group) : (s.setGroup g x).collected = s.collected := rfl
@[simp] theorem State.setGroup_faults (s : State) (g : Nat) (x : Group) : (s.setGroup g x).faults = s.faults := rfl
@[simp] theorem State.setGroup_nextFseq (s : State) (g : Nat) (x : Group) : (s.setGroup g x).nextFseq = s.nextFseq := rfl
@[simp] theorem State.setGroup_errors (s : State) (g : Nat) (x : Group) : (s.setGroup g x).errors = s.errors := rfl
@[simp] theorem State.setGroup_listUse (s : State) (g : Nat) (x : Group) : (s.setGroup g x).listUse = s.listUse := rfl
@[simp] theorem State.setGroup_listNext (s : State) (g : Nat) (x : Group) : (s.setGroup g x).listNext = s.listNext := rfl
@[simp] theorem State.setGroup_msix (s : State) (g : Nat) (x : Group) : (s.setGroup g x).msix = s.msix := rfl
@[simp] theorem State.setGroup_msiSent (s : State) (g : Nat) (x : Group) : (s.setGroup g x).msiSent = s.msiSent := rfl
@[simp] theorem State.setGroup_dir (s : State) (g : Nat) (x : Group) : (s.setGroup g x).dir = s.dir := rfl
@[simp] theorem State.setGroup_txns (s : State) (g : Nat) (x : Group) : (s.setGroup g x).txns = s.txns := rfl
@[simp] theorem State.setGroup_nextTxn (s : State) (g : Nat) (x : Group) : (s.setGroup g x).nextTxn = s.nextTxn := rfl
@[simp] theorem State.setGroup_lines (s : State) (g : Nat) (x : Group) : (s.setGroup g x).lines = s.lines := rfl
@[simp] theorem State.setGroup_llc (s : State) (g : Nat) (x : Group) : (s.setGroup g x).llc = s.llc := rfl
@[simp] theorem State.setGroup_wbuf (s : State) (g : Nat) (x : Group) : (s.setGroup g x).wbuf = s.wbuf := rfl
@[simp] theorem State.setGroup_miss (s : State) (g : Nat) (x : Group) : (s.setGroup g x).miss = s.miss := rfl
@[simp] theorem State.setGroup_delivered (s : State) (g : Nat) (x : Group) : (s.setGroup g x).delivered = s.delivered := rfl
@[simp] theorem State.setGroup_buffered (s : State) (g : Nat) (x : Group) : (s.setGroup g x).buffered = s.buffered := rfl
@[simp] theorem State.setGroup_seenTags (s : State) (g : Nat) (x : Group) : (s.setGroup g x).seenTags = s.seenTags := rfl
@[simp] theorem State.setGroup_biWait (s : State) (g : Nat) (x : Group) : (s.setGroup g x).biWait = s.biWait := rfl
@[simp] theorem State.setGroup_biReady (s : State) (g : Nat) (x : Group) : (s.setGroup g x).biReady = s.biReady := rfl
@[simp] theorem State.setGroup_cxl (s : State) (g : Nat) (x : Group) : (s.setGroup g x).cxl = s.cxl := rfl
@[simp] theorem State.setGroup_cxlNoData (s : State) (g : Nat) (x : Group) : (s.setGroup g x).cxlNoData = s.cxlNoData := rfl
@[simp] theorem State.setGroup_cxlWait (s : State) (g : Nat) (x : Group) : (s.setGroup g x).cxlWait = s.cxlWait := rfl
@[simp] theorem State.setGroup_llcCount (s : State) (g : Nat) (x : Group) : (s.setGroup g x).llcCount = s.llcCount := rfl
@[simp] theorem State.setGroup_tcSpare (s : State) (g : Nat) (x : Group) : (s.setGroup g x).tcSpare = s.tcSpare := rfl
@[simp] theorem State.setGroup_tcFills (s : State) (g : Nat) (x : Group) : (s.setGroup g x).tcFills = s.tcFills := rfl
@[simp] theorem State.setGroup_tlb (s : State) (g : Nat) (x : Group) : (s.setGroup g x).tlb = s.tlb := rfl
@[simp] theorem State.setGroup_walks (s : State) (g : Nat) (x : Group) : (s.setGroup g x).walks = s.walks := rfl
@[simp] theorem State.setGroup_invs (s : State) (g : Nat) (x : Group) : (s.setGroup g x).invs = s.invs := rfl
@[simp] theorem State.setGroup_moves (s : State) (g : Nat) (x : Group) : (s.setGroup g x).moves = s.moves := rfl
@[simp] theorem State.setGroup_framePool (s : State) (g : Nat) (x : Group) : (s.setGroup g x).framePool = s.framePool := rfl
@[simp] theorem State.setGroup_offers (s : State) (g : Nat) (x : Group) : (s.setGroup g x).offers = s.offers := rfl
@[simp] theorem State.setGroup_thrash (s : State) (g : Nat) (x : Group) : (s.setGroup g x).thrash = s.thrash := rfl
@[simp] theorem State.setGroup_lastHalve (s : State) (g : Nat) (x : Group) : (s.setGroup g x).lastHalve = s.lastHalve := rfl
@[simp] theorem State.setGroup_poison (s : State) (g : Nat) (x : Group) : (s.setGroup g x).poison = s.poison := rfl
@[simp] theorem State.setGroup_remaps (s : State) (g : Nat) (x : Group) : (s.setGroup g x).remaps = s.remaps := rfl
@[simp] theorem State.setGroup_routesDown (s : State) (g : Nat) (x : Group) : (s.setGroup g x).routesDown = s.routesDown := rfl
@[simp] theorem State.setGroup_lostDies (s : State) (g : Nat) (x : Group) : (s.setGroup g x).lostDies = s.lostDies := rfl
@[simp] theorem State.setGroup_ports (s : State) (g : Nat) (x : Group) : (s.setGroup g x).ports = s.ports := rfl
@[simp] theorem State.setGroup_config (s : State) (g : Nat) (x : Group) : (s.setGroup g x).config = s.config := rfl
@[simp] theorem State.setGroup_sec (s : State) (g : Nat) (x : Group) : (s.setGroup g x).sec = s.sec := rfl
@[simp] theorem State.setGroup_drainNow (s : State) (g : Nat) (x : Group) : (s.setGroup g x).drainNow = s.drainNow := rfl
@[simp] theorem State.setGroup_drainSince (s : State) (g : Nat) (x : Group) : (s.setGroup g x).drainSince = s.drainSince := rfl
@[simp] theorem State.setGroup_drainQueued (s : State) (g : Nat) (x : Group) : (s.setGroup g x).drainQueued = s.drainQueued := rfl
@[simp] theorem State.setGroup_savedOrder (s : State) (g : Nat) (x : Group) : (s.setGroup g x).savedOrder = s.savedOrder := rfl
@[simp] theorem State.setGroup_powerDown (s : State) (g : Nat) (x : Group) : (s.setGroup g x).powerDown = s.powerDown := rfl
@[simp] theorem State.setGroup_powerLog (s : State) (g : Nat) (x : Group) : (s.setGroup g x).powerLog = s.powerLog := rfl
@[simp] theorem State.setGroup_unitFails (s : State) (g : Nat) (x : Group) : (s.setGroup g x).unitFails = s.unitFails := rfl
@[simp] theorem State.setGroup_hostReady (s : State) (g : Nat) (x : Group) : (s.setGroup g x).hostReady = s.hostReady := rfl
@[simp] theorem State.setGroup_hostAnswer (s : State) (g : Nat) (x : Group) : (s.setGroup g x).hostAnswer = s.hostAnswer := rfl
@[simp] theorem State.setGroup_spawned (s : State) (g : Nat) (x : Group) : (s.setGroup g x).spawned = s.spawned := rfl

@[simp] theorem State.setShare_mem (s : State) (d : Nat) (x : Share) : (s.setShare d x).mem = s.mem := rfl
@[simp] theorem State.setShare_clock (s : State) (d : Nat) (x : Share) : (s.setShare d x).clock = s.clock := rfl
@[simp] theorem State.setShare_tick (s : State) (d : Nat) (x : Share) : (s.setShare d x).tick = s.tick := rfl
@[simp] theorem State.setShare_turn (s : State) (d : Nat) (x : Share) : (s.setShare d x).turn = s.turn := rfl
@[simp] theorem State.setShare_cur (s : State) (d : Nat) (x : Share) : (s.setShare d x).cur = s.cur := rfl
@[simp] theorem State.setShare_iw (s : State) (d : Nat) (x : Share) : (s.setShare d x).iw = s.iw := rfl
@[simp] theorem State.setShare_arg (s : State) (d : Nat) (x : Share) : (s.setShare d x).arg = s.arg := rfl
@[simp] theorem State.setShare_events (s : State) (d : Nat) (x : Share) : (s.setShare d x).events = s.events := rfl
@[simp] theorem State.setShare_teams (s : State) (d : Nat) (x : Share) : (s.setShare d x).teams = s.teams := rfl
@[simp] theorem State.setShare_launches (s : State) (d : Nat) (x : Share) : (s.setShare d x).launches = s.launches := rfl
@[simp] theorem State.setShare_groups (s : State) (d : Nat) (x : Share) : (s.setShare d x).groups = s.groups := rfl
@[simp] theorem State.setShare_resq (s : State) (d : Nat) (x : Share) : (s.setShare d x).resq = s.resq := rfl
@[simp] theorem State.setShare_reserved (s : State) (d : Nat) (x : Share) : (s.setShare d x).reserved = s.reserved := rfl
@[simp] theorem State.setShare_sparesUsed (s : State) (d : Nat) (x : Share) : (s.setShare d x).sparesUsed = s.sparesUsed := rfl
@[simp] theorem State.setShare_coreDown (s : State) (d : Nat) (x : Share) : (s.setShare d x).coreDown = s.coreDown := rfl
@[simp] theorem State.setShare_ctl (s : State) (d : Nat) (x : Share) : (s.setShare d x).ctl = s.ctl := rfl
@[simp] theorem State.setShare_queues (s : State) (d : Nat) (x : Share) : (s.setShare d x).queues = s.queues := rfl
@[simp] theorem State.setShare_ptr (s : State) (d : Nat) (x : Share) : (s.setShare d x).ptr = s.ptr := rfl
@[simp] theorem State.setShare_bins (s : State) (d : Nat) (x : Share) : (s.setShare d x).bins = s.bins := rfl
@[simp] theorem State.setShare_copies (s : State) (d : Nat) (x : Share) : (s.setShare d x).copies = s.copies := rfl
@[simp] theorem State.setShare_nextCopy (s : State) (d : Nat) (x : Share) : (s.setShare d x).nextCopy = s.nextCopy := rfl
@[simp] theorem State.setShare_collected (s : State) (d : Nat) (x : Share) : (s.setShare d x).collected = s.collected := rfl
@[simp] theorem State.setShare_faults (s : State) (d : Nat) (x : Share) : (s.setShare d x).faults = s.faults := rfl
@[simp] theorem State.setShare_nextFseq (s : State) (d : Nat) (x : Share) : (s.setShare d x).nextFseq = s.nextFseq := rfl
@[simp] theorem State.setShare_errors (s : State) (d : Nat) (x : Share) : (s.setShare d x).errors = s.errors := rfl
@[simp] theorem State.setShare_listUse (s : State) (d : Nat) (x : Share) : (s.setShare d x).listUse = s.listUse := rfl
@[simp] theorem State.setShare_listNext (s : State) (d : Nat) (x : Share) : (s.setShare d x).listNext = s.listNext := rfl
@[simp] theorem State.setShare_msix (s : State) (d : Nat) (x : Share) : (s.setShare d x).msix = s.msix := rfl
@[simp] theorem State.setShare_msiSent (s : State) (d : Nat) (x : Share) : (s.setShare d x).msiSent = s.msiSent := rfl
@[simp] theorem State.setShare_dir (s : State) (d : Nat) (x : Share) : (s.setShare d x).dir = s.dir := rfl
@[simp] theorem State.setShare_txns (s : State) (d : Nat) (x : Share) : (s.setShare d x).txns = s.txns := rfl
@[simp] theorem State.setShare_nextTxn (s : State) (d : Nat) (x : Share) : (s.setShare d x).nextTxn = s.nextTxn := rfl
@[simp] theorem State.setShare_lines (s : State) (d : Nat) (x : Share) : (s.setShare d x).lines = s.lines := rfl
@[simp] theorem State.setShare_llc (s : State) (d : Nat) (x : Share) : (s.setShare d x).llc = s.llc := rfl
@[simp] theorem State.setShare_wbuf (s : State) (d : Nat) (x : Share) : (s.setShare d x).wbuf = s.wbuf := rfl
@[simp] theorem State.setShare_miss (s : State) (d : Nat) (x : Share) : (s.setShare d x).miss = s.miss := rfl
@[simp] theorem State.setShare_delivered (s : State) (d : Nat) (x : Share) : (s.setShare d x).delivered = s.delivered := rfl
@[simp] theorem State.setShare_buffered (s : State) (d : Nat) (x : Share) : (s.setShare d x).buffered = s.buffered := rfl
@[simp] theorem State.setShare_seenTags (s : State) (d : Nat) (x : Share) : (s.setShare d x).seenTags = s.seenTags := rfl
@[simp] theorem State.setShare_biWait (s : State) (d : Nat) (x : Share) : (s.setShare d x).biWait = s.biWait := rfl
@[simp] theorem State.setShare_biReady (s : State) (d : Nat) (x : Share) : (s.setShare d x).biReady = s.biReady := rfl
@[simp] theorem State.setShare_cxl (s : State) (d : Nat) (x : Share) : (s.setShare d x).cxl = s.cxl := rfl
@[simp] theorem State.setShare_cxlNoData (s : State) (d : Nat) (x : Share) : (s.setShare d x).cxlNoData = s.cxlNoData := rfl
@[simp] theorem State.setShare_cxlWait (s : State) (d : Nat) (x : Share) : (s.setShare d x).cxlWait = s.cxlWait := rfl
@[simp] theorem State.setShare_llcCount (s : State) (d : Nat) (x : Share) : (s.setShare d x).llcCount = s.llcCount := rfl
@[simp] theorem State.setShare_tcSpare (s : State) (d : Nat) (x : Share) : (s.setShare d x).tcSpare = s.tcSpare := rfl
@[simp] theorem State.setShare_tcFills (s : State) (d : Nat) (x : Share) : (s.setShare d x).tcFills = s.tcFills := rfl
@[simp] theorem State.setShare_tlb (s : State) (d : Nat) (x : Share) : (s.setShare d x).tlb = s.tlb := rfl
@[simp] theorem State.setShare_walks (s : State) (d : Nat) (x : Share) : (s.setShare d x).walks = s.walks := rfl
@[simp] theorem State.setShare_invs (s : State) (d : Nat) (x : Share) : (s.setShare d x).invs = s.invs := rfl
@[simp] theorem State.setShare_moves (s : State) (d : Nat) (x : Share) : (s.setShare d x).moves = s.moves := rfl
@[simp] theorem State.setShare_framePool (s : State) (d : Nat) (x : Share) : (s.setShare d x).framePool = s.framePool := rfl
@[simp] theorem State.setShare_offers (s : State) (d : Nat) (x : Share) : (s.setShare d x).offers = s.offers := rfl
@[simp] theorem State.setShare_thrash (s : State) (d : Nat) (x : Share) : (s.setShare d x).thrash = s.thrash := rfl
@[simp] theorem State.setShare_lastHalve (s : State) (d : Nat) (x : Share) : (s.setShare d x).lastHalve = s.lastHalve := rfl
@[simp] theorem State.setShare_poison (s : State) (d : Nat) (x : Share) : (s.setShare d x).poison = s.poison := rfl
@[simp] theorem State.setShare_remaps (s : State) (d : Nat) (x : Share) : (s.setShare d x).remaps = s.remaps := rfl
@[simp] theorem State.setShare_routesDown (s : State) (d : Nat) (x : Share) : (s.setShare d x).routesDown = s.routesDown := rfl
@[simp] theorem State.setShare_lostDies (s : State) (d : Nat) (x : Share) : (s.setShare d x).lostDies = s.lostDies := rfl
@[simp] theorem State.setShare_ports (s : State) (d : Nat) (x : Share) : (s.setShare d x).ports = s.ports := rfl
@[simp] theorem State.setShare_config (s : State) (d : Nat) (x : Share) : (s.setShare d x).config = s.config := rfl
@[simp] theorem State.setShare_sec (s : State) (d : Nat) (x : Share) : (s.setShare d x).sec = s.sec := rfl
@[simp] theorem State.setShare_drainNow (s : State) (d : Nat) (x : Share) : (s.setShare d x).drainNow = s.drainNow := rfl
@[simp] theorem State.setShare_drainSince (s : State) (d : Nat) (x : Share) : (s.setShare d x).drainSince = s.drainSince := rfl
@[simp] theorem State.setShare_drainQueued (s : State) (d : Nat) (x : Share) : (s.setShare d x).drainQueued = s.drainQueued := rfl
@[simp] theorem State.setShare_savedOrder (s : State) (d : Nat) (x : Share) : (s.setShare d x).savedOrder = s.savedOrder := rfl
@[simp] theorem State.setShare_powerDown (s : State) (d : Nat) (x : Share) : (s.setShare d x).powerDown = s.powerDown := rfl
@[simp] theorem State.setShare_powerLog (s : State) (d : Nat) (x : Share) : (s.setShare d x).powerLog = s.powerLog := rfl
@[simp] theorem State.setShare_unitFails (s : State) (d : Nat) (x : Share) : (s.setShare d x).unitFails = s.unitFails := rfl
@[simp] theorem State.setShare_hostReady (s : State) (d : Nat) (x : Share) : (s.setShare d x).hostReady = s.hostReady := rfl
@[simp] theorem State.setShare_hostAnswer (s : State) (d : Nat) (x : Share) : (s.setShare d x).hostAnswer = s.hostAnswer := rfl
@[simp] theorem State.setShare_spawned (s : State) (d : Nat) (x : Share) : (s.setShare d x).spawned = s.spawned := rfl

@[simp] theorem State.post_mem (s : State) (i : Instr) (a : EvArg) : (s.post i a).mem = s.mem := rfl
@[simp] theorem State.post_clock (s : State) (i : Instr) (a : EvArg) : (s.post i a).clock = s.clock := rfl
@[simp] theorem State.post_tick (s : State) (i : Instr) (a : EvArg) : (s.post i a).tick = s.tick := rfl
@[simp] theorem State.post_turn (s : State) (i : Instr) (a : EvArg) : (s.post i a).turn = s.turn := rfl
@[simp] theorem State.post_cur (s : State) (i : Instr) (a : EvArg) : (s.post i a).cur = s.cur := rfl
@[simp] theorem State.post_iw (s : State) (i : Instr) (a : EvArg) : (s.post i a).iw = s.iw := rfl
@[simp] theorem State.post_arg (s : State) (i : Instr) (a : EvArg) : (s.post i a).arg = s.arg := rfl
@[simp] theorem State.post_teams (s : State) (i : Instr) (a : EvArg) : (s.post i a).teams = s.teams := rfl
@[simp] theorem State.post_launches (s : State) (i : Instr) (a : EvArg) : (s.post i a).launches = s.launches := rfl
@[simp] theorem State.post_groups (s : State) (i : Instr) (a : EvArg) : (s.post i a).groups = s.groups := rfl
@[simp] theorem State.post_shares (s : State) (i : Instr) (a : EvArg) : (s.post i a).shares = s.shares := rfl
@[simp] theorem State.post_resq (s : State) (i : Instr) (a : EvArg) : (s.post i a).resq = s.resq := rfl
@[simp] theorem State.post_reserved (s : State) (i : Instr) (a : EvArg) : (s.post i a).reserved = s.reserved := rfl
@[simp] theorem State.post_sparesUsed (s : State) (i : Instr) (a : EvArg) : (s.post i a).sparesUsed = s.sparesUsed := rfl
@[simp] theorem State.post_coreDown (s : State) (i : Instr) (a : EvArg) : (s.post i a).coreDown = s.coreDown := rfl
@[simp] theorem State.post_ctl (s : State) (i : Instr) (a : EvArg) : (s.post i a).ctl = s.ctl := rfl
@[simp] theorem State.post_queues (s : State) (i : Instr) (a : EvArg) : (s.post i a).queues = s.queues := rfl
@[simp] theorem State.post_ptr (s : State) (i : Instr) (a : EvArg) : (s.post i a).ptr = s.ptr := rfl
@[simp] theorem State.post_bins (s : State) (i : Instr) (a : EvArg) : (s.post i a).bins = s.bins := rfl
@[simp] theorem State.post_copies (s : State) (i : Instr) (a : EvArg) : (s.post i a).copies = s.copies := rfl
@[simp] theorem State.post_nextCopy (s : State) (i : Instr) (a : EvArg) : (s.post i a).nextCopy = s.nextCopy := rfl
@[simp] theorem State.post_collected (s : State) (i : Instr) (a : EvArg) : (s.post i a).collected = s.collected := rfl
@[simp] theorem State.post_faults (s : State) (i : Instr) (a : EvArg) : (s.post i a).faults = s.faults := rfl
@[simp] theorem State.post_nextFseq (s : State) (i : Instr) (a : EvArg) : (s.post i a).nextFseq = s.nextFseq := rfl
@[simp] theorem State.post_errors (s : State) (i : Instr) (a : EvArg) : (s.post i a).errors = s.errors := rfl
@[simp] theorem State.post_listUse (s : State) (i : Instr) (a : EvArg) : (s.post i a).listUse = s.listUse := rfl
@[simp] theorem State.post_listNext (s : State) (i : Instr) (a : EvArg) : (s.post i a).listNext = s.listNext := rfl
@[simp] theorem State.post_msix (s : State) (i : Instr) (a : EvArg) : (s.post i a).msix = s.msix := rfl
@[simp] theorem State.post_msiSent (s : State) (i : Instr) (a : EvArg) : (s.post i a).msiSent = s.msiSent := rfl
@[simp] theorem State.post_dir (s : State) (i : Instr) (a : EvArg) : (s.post i a).dir = s.dir := rfl
@[simp] theorem State.post_txns (s : State) (i : Instr) (a : EvArg) : (s.post i a).txns = s.txns := rfl
@[simp] theorem State.post_nextTxn (s : State) (i : Instr) (a : EvArg) : (s.post i a).nextTxn = s.nextTxn := rfl
@[simp] theorem State.post_lines (s : State) (i : Instr) (a : EvArg) : (s.post i a).lines = s.lines := rfl
@[simp] theorem State.post_llc (s : State) (i : Instr) (a : EvArg) : (s.post i a).llc = s.llc := rfl
@[simp] theorem State.post_wbuf (s : State) (i : Instr) (a : EvArg) : (s.post i a).wbuf = s.wbuf := rfl
@[simp] theorem State.post_miss (s : State) (i : Instr) (a : EvArg) : (s.post i a).miss = s.miss := rfl
@[simp] theorem State.post_delivered (s : State) (i : Instr) (a : EvArg) : (s.post i a).delivered = s.delivered := rfl
@[simp] theorem State.post_buffered (s : State) (i : Instr) (a : EvArg) : (s.post i a).buffered = s.buffered := rfl
@[simp] theorem State.post_seenTags (s : State) (i : Instr) (a : EvArg) : (s.post i a).seenTags = s.seenTags := rfl
@[simp] theorem State.post_biWait (s : State) (i : Instr) (a : EvArg) : (s.post i a).biWait = s.biWait := rfl
@[simp] theorem State.post_biReady (s : State) (i : Instr) (a : EvArg) : (s.post i a).biReady = s.biReady := rfl
@[simp] theorem State.post_cxl (s : State) (i : Instr) (a : EvArg) : (s.post i a).cxl = s.cxl := rfl
@[simp] theorem State.post_cxlNoData (s : State) (i : Instr) (a : EvArg) : (s.post i a).cxlNoData = s.cxlNoData := rfl
@[simp] theorem State.post_cxlWait (s : State) (i : Instr) (a : EvArg) : (s.post i a).cxlWait = s.cxlWait := rfl
@[simp] theorem State.post_llcCount (s : State) (i : Instr) (a : EvArg) : (s.post i a).llcCount = s.llcCount := rfl
@[simp] theorem State.post_tcSpare (s : State) (i : Instr) (a : EvArg) : (s.post i a).tcSpare = s.tcSpare := rfl
@[simp] theorem State.post_tcFills (s : State) (i : Instr) (a : EvArg) : (s.post i a).tcFills = s.tcFills := rfl
@[simp] theorem State.post_tlb (s : State) (i : Instr) (a : EvArg) : (s.post i a).tlb = s.tlb := rfl
@[simp] theorem State.post_walks (s : State) (i : Instr) (a : EvArg) : (s.post i a).walks = s.walks := rfl
@[simp] theorem State.post_invs (s : State) (i : Instr) (a : EvArg) : (s.post i a).invs = s.invs := rfl
@[simp] theorem State.post_moves (s : State) (i : Instr) (a : EvArg) : (s.post i a).moves = s.moves := rfl
@[simp] theorem State.post_framePool (s : State) (i : Instr) (a : EvArg) : (s.post i a).framePool = s.framePool := rfl
@[simp] theorem State.post_offers (s : State) (i : Instr) (a : EvArg) : (s.post i a).offers = s.offers := rfl
@[simp] theorem State.post_thrash (s : State) (i : Instr) (a : EvArg) : (s.post i a).thrash = s.thrash := rfl
@[simp] theorem State.post_lastHalve (s : State) (i : Instr) (a : EvArg) : (s.post i a).lastHalve = s.lastHalve := rfl
@[simp] theorem State.post_poison (s : State) (i : Instr) (a : EvArg) : (s.post i a).poison = s.poison := rfl
@[simp] theorem State.post_remaps (s : State) (i : Instr) (a : EvArg) : (s.post i a).remaps = s.remaps := rfl
@[simp] theorem State.post_routesDown (s : State) (i : Instr) (a : EvArg) : (s.post i a).routesDown = s.routesDown := rfl
@[simp] theorem State.post_lostDies (s : State) (i : Instr) (a : EvArg) : (s.post i a).lostDies = s.lostDies := rfl
@[simp] theorem State.post_ports (s : State) (i : Instr) (a : EvArg) : (s.post i a).ports = s.ports := rfl
@[simp] theorem State.post_config (s : State) (i : Instr) (a : EvArg) : (s.post i a).config = s.config := rfl
@[simp] theorem State.post_sec (s : State) (i : Instr) (a : EvArg) : (s.post i a).sec = s.sec := rfl
@[simp] theorem State.post_drainNow (s : State) (i : Instr) (a : EvArg) : (s.post i a).drainNow = s.drainNow := rfl
@[simp] theorem State.post_drainSince (s : State) (i : Instr) (a : EvArg) : (s.post i a).drainSince = s.drainSince := rfl
@[simp] theorem State.post_drainQueued (s : State) (i : Instr) (a : EvArg) : (s.post i a).drainQueued = s.drainQueued := rfl
@[simp] theorem State.post_savedOrder (s : State) (i : Instr) (a : EvArg) : (s.post i a).savedOrder = s.savedOrder := rfl
@[simp] theorem State.post_powerDown (s : State) (i : Instr) (a : EvArg) : (s.post i a).powerDown = s.powerDown := rfl
@[simp] theorem State.post_powerLog (s : State) (i : Instr) (a : EvArg) : (s.post i a).powerLog = s.powerLog := rfl
@[simp] theorem State.post_unitFails (s : State) (i : Instr) (a : EvArg) : (s.post i a).unitFails = s.unitFails := rfl
@[simp] theorem State.post_hostReady (s : State) (i : Instr) (a : EvArg) : (s.post i a).hostReady = s.hostReady := rfl
@[simp] theorem State.post_hostAnswer (s : State) (i : Instr) (a : EvArg) : (s.post i a).hostAnswer = s.hostAnswer := rfl
@[simp] theorem State.post_spawned (s : State) (i : Instr) (a : EvArg) : (s.post i a).spawned = s.spawned := rfl

@[simp] theorem Team.setPc_status (t : Team) (a : BitVec 64) : (t.setPc a).status = t.status := by unfold Team.setPc; split <;> rfl
@[simp] theorem Team.setPc_launch (t : Team) (a : BitVec 64) : (t.setPc a).launch = t.launch := by unfold Team.setPc; split <;> rfl
@[simp] theorem Team.setPc_die (t : Team) (a : BitVec 64) : (t.setPc a).die = t.die := by unfold Team.setPc; split <;> rfl
@[simp] theorem Team.setPc_group (t : Team) (a : BitVec 64) : (t.setPc a).group = t.group := by unfold Team.setPc; split <;> rfl
@[simp] theorem Team.setPc_dix (t : Team) (a : BitVec 64) : (t.setPc a).dix = t.dix := by unfold Team.setPc; split <;> rfl
@[simp] theorem Team.setPc_gix (t : Team) (a : BitVec 64) : (t.setPc a).gix = t.gix := by unfold Team.setPc; split <;> rfl
@[simp] theorem Team.setPc_tix (t : Team) (a : BitVec 64) : (t.setPc a).tix = t.tix := by unfold Team.setPc; split <;> rfl
@[simp] theorem Team.setPc_ndie (t : Team) (a : BitVec 64) : (t.setPc a).ndie = t.ndie := by unfold Team.setPc; split <;> rfl
@[simp] theorem Team.setPc_ngrp (t : Team) (a : BitVec 64) : (t.setPc a).ngrp = t.ngrp := by unfold Team.setPc; split <;> rfl
@[simp] theorem Team.setPc_nteam (t : Team) (a : BitVec 64) : (t.setPc a).nteam = t.nteam := by unfold Team.setPc; split <;> rfl
@[simp] theorem Team.setPc_cluster (t : Team) (a : BitVec 64) : (t.setPc a).cluster = t.cluster := by unfold Team.setPc; split <;> rfl
@[simp] theorem Team.setPc_core (t : Team) (a : BitVec 64) : (t.setPc a).core = t.core := by unfold Team.setPc; split <;> rfl
@[simp] theorem Team.setPc_slot (t : Team) (a : BitVec 64) : (t.setPc a).slot = t.slot := by unfold Team.setPc; split <;> rfl
@[simp] theorem Team.setPc_lanes (t : Team) (a : BitVec 64) : (t.setPc a).lanes = t.lanes := by unfold Team.setPc; split <;> rfl
@[simp] theorem Team.setPc_vregs (t : Team) (a : BitVec 64) : (t.setPc a).vregs = t.vregs := by unfold Team.setPc; split <;> rfl
@[simp] theorem Team.setPc_depth (t : Team) (a : BitVec 64) : (t.setPc a).depth = t.depth := by unfold Team.setPc; split <;> rfl
@[simp] theorem Team.setPc_record (t : Team) (a : BitVec 64) : (t.setPc a).record = t.record := by unfold Team.setPc; split <;> rfl
@[simp] theorem Team.setPc_recAddr (t : Team) (a : BitVec 64) : (t.setPc a).recAddr = t.recAddr := by unfold Team.setPc; split <;> rfl
@[simp] theorem Team.setPc_joins (t : Team) (a : BitVec 64) : (t.setPc a).joins = t.joins := by unfold Team.setPc; split <;> rfl
@[simp] theorem Team.setPc_sreg (t : Team) (a : BitVec 64) : (t.setPc a).sreg = t.sreg := by unfold Team.setPc; split <;> rfl
@[simp] theorem Team.setPc_vreg (t : Team) (a : BitVec 64) : (t.setPc a).vreg = t.vreg := by unfold Team.setPc; split <;> rfl
@[simp] theorem Team.setPc_mask (t : Team) (a : BitVec 64) : (t.setPc a).mask = t.mask := by unfold Team.setPc; split <;> rfl
@[simp] theorem Team.setPc_empty (t : Team) (a : BitVec 64) : (t.setPc a).empty = t.empty := by unfold Team.setPc; split <;> rfl
@[simp] theorem Team.setPc_tag (t : Team) (a : BitVec 64) : (t.setPc a).tag = t.tag := by unfold Team.setPc; split <;> rfl
@[simp] theorem Team.setPc_genSeed (t : Team) (a : BitVec 64) : (t.setPc a).genSeed = t.genSeed := by unfold Team.setPc; split <;> rfl
@[simp] theorem Team.setPc_gen (t : Team) (a : BitVec 64) : (t.setPc a).gen = t.gen := by unfold Team.setPc; split <;> rfl
@[simp] theorem Team.setPc_ret (t : Team) (a : BitVec 64) : (t.setPc a).ret = t.ret := by unfold Team.setPc; split <;> rfl
@[simp] theorem Team.setPc_rp (t : Team) (a : BitVec 64) : (t.setPc a).rp = t.rp := by unfold Team.setPc; split <;> rfl
@[simp] theorem Team.setPc_spBase (t : Team) (a : BitVec 64) : (t.setPc a).spBase = t.spBase := by unfold Team.setPc; split <;> rfl
@[simp] theorem Team.setPc_spPtr (t : Team) (a : BitVec 64) : (t.setPc a).spPtr = t.spPtr := by unfold Team.setPc; split <;> rfl
@[simp] theorem Team.setPc_ndsp (t : Team) (a : BitVec 64) : (t.setPc a).ndsp = t.ndsp := by unfold Team.setPc; split <;> rfl
@[simp] theorem Team.setPc_nrsp (t : Team) (a : BitVec 64) : (t.setPc a).nrsp = t.nrsp := by unfold Team.setPc; split <;> rfl
@[simp] theorem Team.setPc_fp (t : Team) (a : BitVec 64) : (t.setPc a).fp = t.fp := by unfold Team.setPc; split <;> rfl
@[simp] theorem Team.setPc_stk (t : Team) (a : BitVec 64) : (t.setPc a).stk = t.stk := by unfold Team.setPc; split <;> rfl
@[simp] theorem Team.setPc_flags (t : Team) (a : BitVec 64) : (t.setPc a).flags = t.flags := by unfold Team.setPc; split <;> rfl
@[simp] theorem Team.setPc_fctl (t : Team) (a : BitVec 64) : (t.setPc a).fctl = t.fctl := by unfold Team.setPc; split <;> rfl
@[simp] theorem Team.setPc_iwarn (t : Team) (a : BitVec 64) : (t.setPc a).iwarn = t.iwarn := by unfold Team.setPc; split <;> rfl
@[simp] theorem Team.setPc_mbound (t : Team) (a : BitVec 64) : (t.setPc a).mbound = t.mbound := by unfold Team.setPc; split <;> rfl
@[simp] theorem Team.setPc_tile (t : Team) (a : BitVec 64) : (t.setPc a).tile = t.tile := by unfold Team.setPc; split <;> rfl
@[simp] theorem Team.setPc_gang (t : Team) (a : BitVec 64) : (t.setPc a).gang = t.gang := by unfold Team.setPc; split <;> rfl
@[simp] theorem Team.setPc_allow (t : Team) (a : BitVec 64) : (t.setPc a).allow = t.allow := by unfold Team.setPc; split <;> rfl
@[simp] theorem Team.setPc_closed (t : Team) (a : BitVec 64) : (t.setPc a).closed = t.closed := by unfold Team.setPc; split <;> rfl
@[simp] theorem Team.setPc_done (t : Team) (a : BitVec 64) : (t.setPc a).done = t.done := by unfold Team.setPc; split <;> rfl
@[simp] theorem Team.setPc_slim (t : Team) (a : BitVec 64) : (t.setPc a).slim = t.slim := by unfold Team.setPc; split <;> rfl
@[simp] theorem Team.setPc_tvec (t : Team) (a : BitVec 64) : (t.setPc a).tvec = t.tvec := by unfold Team.setPc; split <;> rfl
@[simp] theorem Team.setPc_tcause (t : Team) (a : BitVec 64) : (t.setPc a).tcause = t.tcause := by unfold Team.setPc; split <;> rfl
@[simp] theorem Team.setPc_tepc (t : Team) (a : BitVec 64) : (t.setPc a).tepc = t.tepc := by unfold Team.setPc; split <;> rfl
@[simp] theorem Team.setPc_tmask (t : Team) (a : BitVec 64) : (t.setPc a).tmask = t.tmask := by unfold Team.setPc; split <;> rfl
@[simp] theorem Team.setPc_acc0 (t : Team) (a : BitVec 64) : (t.setPc a).acc0 = t.acc0 := by unfold Team.setPc; split <;> rfl
@[simp] theorem Team.setPc_acc1 (t : Team) (a : BitVec 64) : (t.setPc a).acc1 = t.acc1 := by unfold Team.setPc; split <;> rfl
@[simp] theorem Team.setPc_holder (t : Team) (a : BitVec 64) : (t.setPc a).holder = t.holder := by unfold Team.setPc; split <;> rfl
@[simp] theorem Team.setPc_matq (t : Team) (a : BitVec 64) : (t.setPc a).matq = t.matq := by unfold Team.setPc; split <;> rfl
@[simp] theorem Team.setPc_prods (t : Team) (a : BitVec 64) : (t.setPc a).prods = t.prods := by unfold Team.setPc; split <;> rfl
@[simp] theorem Team.setPc_wait (t : Team) (a : BitVec 64) : (t.setPc a).wait = t.wait := by unfold Team.setPc; split <;> rfl
@[simp] theorem Team.setPc_arr (t : Team) (a : BitVec 64) : (t.setPc a).arr = t.arr := by unfold Team.setPc; split <;> rfl
@[simp] theorem Team.setPc_prow (t : Team) (a : BitVec 64) : (t.setPc a).prow = t.prow := by unfold Team.setPc; split <;> rfl
@[simp] theorem Team.setPc_exc (t : Team) (a : BitVec 64) : (t.setPc a).exc = t.exc := by unfold Team.setPc; split <;> rfl
@[simp] theorem Team.setPc_excFlags (t : Team) (a : BitVec 64) : (t.setPc a).excFlags = t.excFlags := by unfold Team.setPc; split <;> rfl
@[simp] theorem Team.setPc_fseq (t : Team) (a : BitVec 64) : (t.setPc a).fseq = t.fseq := by unfold Team.setPc; split <;> rfl
@[simp] theorem Team.setPc_cause (t : Team) (a : BitVec 64) : (t.setPc a).cause = t.cause := by unfold Team.setPc; split <;> rfl
@[simp] theorem Team.setPc_nsave (t : Team) (a : BitVec 64) : (t.setPc a).nsave = t.nsave := by unfold Team.setPc; split <;> rfl
@[simp] theorem Team.setPc_frameSlot (t : Team) (a : BitVec 64) : (t.setPc a).frameSlot = t.frameSlot := by unfold Team.setPc; split <;> rfl
@[simp] theorem Team.setPc_children (t : Team) (a : BitVec 64) : (t.setPc a).children = t.children := by unfold Team.setPc; split <;> rfl
@[simp] theorem Team.setPc_sliceStart (t : Team) (a : BitVec 64) : (t.setPc a).sliceStart = t.sliceStart := by unfold Team.setPc; split <;> rfl
@[simp] theorem Team.setPc_owed (t : Team) (a : BitVec 64) : (t.setPc a).owed = t.owed := by unfold Team.setPc; split <;> rfl
@[simp] theorem Team.setPc_badWords (t : Team) (a : BitVec 64) : (t.setPc a).badWords = t.badWords := by unfold Team.setPc; split <;> rfl
@[simp] theorem Team.setPc_pool (t : Team) (a : BitVec 64) : (t.setPc a).pool = t.pool := by unfold Team.setPc; split <;> rfl
@[simp] theorem Team.setPc_emitters (t : Team) (a : BitVec 64) : (t.setPc a).emitters = t.emitters := by unfold Team.setPc; split <;> rfl
@[simp] theorem Team.setPc_emit (t : Team) (a : BitVec 64) : (t.setPc a).emit = t.emit := by unfold Team.setPc; split <;> rfl

@[simp] theorem Team.advance_status (t : Team) (n : Nat) : (t.advance n).status = t.status := by simp [Team.advance]
@[simp] theorem Team.advance_launch (t : Team) (n : Nat) : (t.advance n).launch = t.launch := by simp [Team.advance]
@[simp] theorem Team.advance_die (t : Team) (n : Nat) : (t.advance n).die = t.die := by simp [Team.advance]
@[simp] theorem Team.advance_group (t : Team) (n : Nat) : (t.advance n).group = t.group := by simp [Team.advance]
@[simp] theorem Team.advance_dix (t : Team) (n : Nat) : (t.advance n).dix = t.dix := by simp [Team.advance]
@[simp] theorem Team.advance_gix (t : Team) (n : Nat) : (t.advance n).gix = t.gix := by simp [Team.advance]
@[simp] theorem Team.advance_tix (t : Team) (n : Nat) : (t.advance n).tix = t.tix := by simp [Team.advance]
@[simp] theorem Team.advance_ndie (t : Team) (n : Nat) : (t.advance n).ndie = t.ndie := by simp [Team.advance]
@[simp] theorem Team.advance_ngrp (t : Team) (n : Nat) : (t.advance n).ngrp = t.ngrp := by simp [Team.advance]
@[simp] theorem Team.advance_nteam (t : Team) (n : Nat) : (t.advance n).nteam = t.nteam := by simp [Team.advance]
@[simp] theorem Team.advance_cluster (t : Team) (n : Nat) : (t.advance n).cluster = t.cluster := by simp [Team.advance]
@[simp] theorem Team.advance_core (t : Team) (n : Nat) : (t.advance n).core = t.core := by simp [Team.advance]
@[simp] theorem Team.advance_slot (t : Team) (n : Nat) : (t.advance n).slot = t.slot := by simp [Team.advance]
@[simp] theorem Team.advance_lanes (t : Team) (n : Nat) : (t.advance n).lanes = t.lanes := by simp [Team.advance]
@[simp] theorem Team.advance_vregs (t : Team) (n : Nat) : (t.advance n).vregs = t.vregs := by simp [Team.advance]
@[simp] theorem Team.advance_depth (t : Team) (n : Nat) : (t.advance n).depth = t.depth := by simp [Team.advance]
@[simp] theorem Team.advance_record (t : Team) (n : Nat) : (t.advance n).record = t.record := by simp [Team.advance]
@[simp] theorem Team.advance_recAddr (t : Team) (n : Nat) : (t.advance n).recAddr = t.recAddr := by simp [Team.advance]
@[simp] theorem Team.advance_joins (t : Team) (n : Nat) : (t.advance n).joins = t.joins := by simp [Team.advance]
@[simp] theorem Team.advance_sreg (t : Team) (n : Nat) : (t.advance n).sreg = t.sreg := by simp [Team.advance]
@[simp] theorem Team.advance_vreg (t : Team) (n : Nat) : (t.advance n).vreg = t.vreg := by simp [Team.advance]
@[simp] theorem Team.advance_mask (t : Team) (n : Nat) : (t.advance n).mask = t.mask := by simp [Team.advance]
@[simp] theorem Team.advance_empty (t : Team) (n : Nat) : (t.advance n).empty = t.empty := by simp [Team.advance]
@[simp] theorem Team.advance_tag (t : Team) (n : Nat) : (t.advance n).tag = t.tag := by simp [Team.advance]
@[simp] theorem Team.advance_genSeed (t : Team) (n : Nat) : (t.advance n).genSeed = t.genSeed := by simp [Team.advance]
@[simp] theorem Team.advance_gen (t : Team) (n : Nat) : (t.advance n).gen = t.gen := by simp [Team.advance]
@[simp] theorem Team.advance_ret (t : Team) (n : Nat) : (t.advance n).ret = t.ret := by simp [Team.advance]
@[simp] theorem Team.advance_rp (t : Team) (n : Nat) : (t.advance n).rp = t.rp := by simp [Team.advance]
@[simp] theorem Team.advance_spBase (t : Team) (n : Nat) : (t.advance n).spBase = t.spBase := by simp [Team.advance]
@[simp] theorem Team.advance_spPtr (t : Team) (n : Nat) : (t.advance n).spPtr = t.spPtr := by simp [Team.advance]
@[simp] theorem Team.advance_ndsp (t : Team) (n : Nat) : (t.advance n).ndsp = t.ndsp := by simp [Team.advance]
@[simp] theorem Team.advance_nrsp (t : Team) (n : Nat) : (t.advance n).nrsp = t.nrsp := by simp [Team.advance]
@[simp] theorem Team.advance_fp (t : Team) (n : Nat) : (t.advance n).fp = t.fp := by simp [Team.advance]
@[simp] theorem Team.advance_stk (t : Team) (n : Nat) : (t.advance n).stk = t.stk := by simp [Team.advance]
@[simp] theorem Team.advance_flags (t : Team) (n : Nat) : (t.advance n).flags = t.flags := by simp [Team.advance]
@[simp] theorem Team.advance_fctl (t : Team) (n : Nat) : (t.advance n).fctl = t.fctl := by simp [Team.advance]
@[simp] theorem Team.advance_iwarn (t : Team) (n : Nat) : (t.advance n).iwarn = t.iwarn := by simp [Team.advance]
@[simp] theorem Team.advance_mbound (t : Team) (n : Nat) : (t.advance n).mbound = t.mbound := by simp [Team.advance]
@[simp] theorem Team.advance_tile (t : Team) (n : Nat) : (t.advance n).tile = t.tile := by simp [Team.advance]
@[simp] theorem Team.advance_gang (t : Team) (n : Nat) : (t.advance n).gang = t.gang := by simp [Team.advance]
@[simp] theorem Team.advance_allow (t : Team) (n : Nat) : (t.advance n).allow = t.allow := by simp [Team.advance]
@[simp] theorem Team.advance_closed (t : Team) (n : Nat) : (t.advance n).closed = t.closed := by simp [Team.advance]
@[simp] theorem Team.advance_done (t : Team) (n : Nat) : (t.advance n).done = t.done := by simp [Team.advance]
@[simp] theorem Team.advance_slim (t : Team) (n : Nat) : (t.advance n).slim = t.slim := by simp [Team.advance]
@[simp] theorem Team.advance_tvec (t : Team) (n : Nat) : (t.advance n).tvec = t.tvec := by simp [Team.advance]
@[simp] theorem Team.advance_tcause (t : Team) (n : Nat) : (t.advance n).tcause = t.tcause := by simp [Team.advance]
@[simp] theorem Team.advance_tepc (t : Team) (n : Nat) : (t.advance n).tepc = t.tepc := by simp [Team.advance]
@[simp] theorem Team.advance_tmask (t : Team) (n : Nat) : (t.advance n).tmask = t.tmask := by simp [Team.advance]
@[simp] theorem Team.advance_acc0 (t : Team) (n : Nat) : (t.advance n).acc0 = t.acc0 := by simp [Team.advance]
@[simp] theorem Team.advance_acc1 (t : Team) (n : Nat) : (t.advance n).acc1 = t.acc1 := by simp [Team.advance]
@[simp] theorem Team.advance_holder (t : Team) (n : Nat) : (t.advance n).holder = t.holder := by simp [Team.advance]
@[simp] theorem Team.advance_matq (t : Team) (n : Nat) : (t.advance n).matq = t.matq := by simp [Team.advance]
@[simp] theorem Team.advance_prods (t : Team) (n : Nat) : (t.advance n).prods = t.prods := by simp [Team.advance]
@[simp] theorem Team.advance_exc (t : Team) (n : Nat) : (t.advance n).exc = t.exc := by simp [Team.advance]
@[simp] theorem Team.advance_excFlags (t : Team) (n : Nat) : (t.advance n).excFlags = t.excFlags := by simp [Team.advance]
@[simp] theorem Team.advance_fseq (t : Team) (n : Nat) : (t.advance n).fseq = t.fseq := by simp [Team.advance]
@[simp] theorem Team.advance_cause (t : Team) (n : Nat) : (t.advance n).cause = t.cause := by simp [Team.advance]
@[simp] theorem Team.advance_nsave (t : Team) (n : Nat) : (t.advance n).nsave = t.nsave := by simp [Team.advance]
@[simp] theorem Team.advance_frameSlot (t : Team) (n : Nat) : (t.advance n).frameSlot = t.frameSlot := by simp [Team.advance]
@[simp] theorem Team.advance_children (t : Team) (n : Nat) : (t.advance n).children = t.children := by simp [Team.advance]
@[simp] theorem Team.advance_sliceStart (t : Team) (n : Nat) : (t.advance n).sliceStart = t.sliceStart := by simp [Team.advance]
@[simp] theorem Team.advance_owed (t : Team) (n : Nat) : (t.advance n).owed = t.owed := by simp [Team.advance]
@[simp] theorem Team.advance_badWords (t : Team) (n : Nat) : (t.advance n).badWords = t.badWords := by simp [Team.advance]
@[simp] theorem Team.advance_pool (t : Team) (n : Nat) : (t.advance n).pool = t.pool := by simp [Team.advance]
@[simp] theorem Team.advance_emitters (t : Team) (n : Nat) : (t.advance n).emitters = t.emitters := by simp [Team.advance]
@[simp] theorem Team.advance_emit (t : Team) (n : Nat) : (t.advance n).emit = t.emit := by simp [Team.advance]

@[simp] theorem Team.setS_status (t : Team) (r : BitVec 6) (v : Word64) : (t.setS r v).status = t.status := rfl
@[simp] theorem Team.setS_launch (t : Team) (r : BitVec 6) (v : Word64) : (t.setS r v).launch = t.launch := rfl
@[simp] theorem Team.setS_die (t : Team) (r : BitVec 6) (v : Word64) : (t.setS r v).die = t.die := rfl
@[simp] theorem Team.setS_group (t : Team) (r : BitVec 6) (v : Word64) : (t.setS r v).group = t.group := rfl
@[simp] theorem Team.setS_dix (t : Team) (r : BitVec 6) (v : Word64) : (t.setS r v).dix = t.dix := rfl
@[simp] theorem Team.setS_gix (t : Team) (r : BitVec 6) (v : Word64) : (t.setS r v).gix = t.gix := rfl
@[simp] theorem Team.setS_tix (t : Team) (r : BitVec 6) (v : Word64) : (t.setS r v).tix = t.tix := rfl
@[simp] theorem Team.setS_ndie (t : Team) (r : BitVec 6) (v : Word64) : (t.setS r v).ndie = t.ndie := rfl
@[simp] theorem Team.setS_ngrp (t : Team) (r : BitVec 6) (v : Word64) : (t.setS r v).ngrp = t.ngrp := rfl
@[simp] theorem Team.setS_nteam (t : Team) (r : BitVec 6) (v : Word64) : (t.setS r v).nteam = t.nteam := rfl
@[simp] theorem Team.setS_cluster (t : Team) (r : BitVec 6) (v : Word64) : (t.setS r v).cluster = t.cluster := rfl
@[simp] theorem Team.setS_core (t : Team) (r : BitVec 6) (v : Word64) : (t.setS r v).core = t.core := rfl
@[simp] theorem Team.setS_slot (t : Team) (r : BitVec 6) (v : Word64) : (t.setS r v).slot = t.slot := rfl
@[simp] theorem Team.setS_lanes (t : Team) (r : BitVec 6) (v : Word64) : (t.setS r v).lanes = t.lanes := rfl
@[simp] theorem Team.setS_vregs (t : Team) (r : BitVec 6) (v : Word64) : (t.setS r v).vregs = t.vregs := rfl
@[simp] theorem Team.setS_depth (t : Team) (r : BitVec 6) (v : Word64) : (t.setS r v).depth = t.depth := rfl
@[simp] theorem Team.setS_record (t : Team) (r : BitVec 6) (v : Word64) : (t.setS r v).record = t.record := rfl
@[simp] theorem Team.setS_recAddr (t : Team) (r : BitVec 6) (v : Word64) : (t.setS r v).recAddr = t.recAddr := rfl
@[simp] theorem Team.setS_joins (t : Team) (r : BitVec 6) (v : Word64) : (t.setS r v).joins = t.joins := rfl
@[simp] theorem Team.setS_vreg (t : Team) (r : BitVec 6) (v : Word64) : (t.setS r v).vreg = t.vreg := rfl
@[simp] theorem Team.setS_mask (t : Team) (r : BitVec 6) (v : Word64) : (t.setS r v).mask = t.mask := rfl
@[simp] theorem Team.setS_empty (t : Team) (r : BitVec 6) (v : Word64) : (t.setS r v).empty = t.empty := rfl
@[simp] theorem Team.setS_tag (t : Team) (r : BitVec 6) (v : Word64) : (t.setS r v).tag = t.tag := rfl
@[simp] theorem Team.setS_genSeed (t : Team) (r : BitVec 6) (v : Word64) : (t.setS r v).genSeed = t.genSeed := rfl
@[simp] theorem Team.setS_gen (t : Team) (r : BitVec 6) (v : Word64) : (t.setS r v).gen = t.gen := rfl
@[simp] theorem Team.setS_div (t : Team) (r : BitVec 6) (v : Word64) : (t.setS r v).div = t.div := rfl
@[simp] theorem Team.setS_ret (t : Team) (r : BitVec 6) (v : Word64) : (t.setS r v).ret = t.ret := rfl
@[simp] theorem Team.setS_rp (t : Team) (r : BitVec 6) (v : Word64) : (t.setS r v).rp = t.rp := rfl
@[simp] theorem Team.setS_spBase (t : Team) (r : BitVec 6) (v : Word64) : (t.setS r v).spBase = t.spBase := rfl
@[simp] theorem Team.setS_spPtr (t : Team) (r : BitVec 6) (v : Word64) : (t.setS r v).spPtr = t.spPtr := rfl
@[simp] theorem Team.setS_ndsp (t : Team) (r : BitVec 6) (v : Word64) : (t.setS r v).ndsp = t.ndsp := rfl
@[simp] theorem Team.setS_nrsp (t : Team) (r : BitVec 6) (v : Word64) : (t.setS r v).nrsp = t.nrsp := rfl
@[simp] theorem Team.setS_fp (t : Team) (r : BitVec 6) (v : Word64) : (t.setS r v).fp = t.fp := rfl
@[simp] theorem Team.setS_stk (t : Team) (r : BitVec 6) (v : Word64) : (t.setS r v).stk = t.stk := rfl
@[simp] theorem Team.setS_flags (t : Team) (r : BitVec 6) (v : Word64) : (t.setS r v).flags = t.flags := rfl
@[simp] theorem Team.setS_fctl (t : Team) (r : BitVec 6) (v : Word64) : (t.setS r v).fctl = t.fctl := rfl
@[simp] theorem Team.setS_iwarn (t : Team) (r : BitVec 6) (v : Word64) : (t.setS r v).iwarn = t.iwarn := rfl
@[simp] theorem Team.setS_mbound (t : Team) (r : BitVec 6) (v : Word64) : (t.setS r v).mbound = t.mbound := rfl
@[simp] theorem Team.setS_tile (t : Team) (r : BitVec 6) (v : Word64) : (t.setS r v).tile = t.tile := rfl
@[simp] theorem Team.setS_gang (t : Team) (r : BitVec 6) (v : Word64) : (t.setS r v).gang = t.gang := rfl
@[simp] theorem Team.setS_allow (t : Team) (r : BitVec 6) (v : Word64) : (t.setS r v).allow = t.allow := rfl
@[simp] theorem Team.setS_closed (t : Team) (r : BitVec 6) (v : Word64) : (t.setS r v).closed = t.closed := rfl
@[simp] theorem Team.setS_done (t : Team) (r : BitVec 6) (v : Word64) : (t.setS r v).done = t.done := rfl
@[simp] theorem Team.setS_slim (t : Team) (r : BitVec 6) (v : Word64) : (t.setS r v).slim = t.slim := rfl
@[simp] theorem Team.setS_tvec (t : Team) (r : BitVec 6) (v : Word64) : (t.setS r v).tvec = t.tvec := rfl
@[simp] theorem Team.setS_tcause (t : Team) (r : BitVec 6) (v : Word64) : (t.setS r v).tcause = t.tcause := rfl
@[simp] theorem Team.setS_tepc (t : Team) (r : BitVec 6) (v : Word64) : (t.setS r v).tepc = t.tepc := rfl
@[simp] theorem Team.setS_tmask (t : Team) (r : BitVec 6) (v : Word64) : (t.setS r v).tmask = t.tmask := rfl
@[simp] theorem Team.setS_acc0 (t : Team) (r : BitVec 6) (v : Word64) : (t.setS r v).acc0 = t.acc0 := rfl
@[simp] theorem Team.setS_acc1 (t : Team) (r : BitVec 6) (v : Word64) : (t.setS r v).acc1 = t.acc1 := rfl
@[simp] theorem Team.setS_holder (t : Team) (r : BitVec 6) (v : Word64) : (t.setS r v).holder = t.holder := rfl
@[simp] theorem Team.setS_matq (t : Team) (r : BitVec 6) (v : Word64) : (t.setS r v).matq = t.matq := rfl
@[simp] theorem Team.setS_prods (t : Team) (r : BitVec 6) (v : Word64) : (t.setS r v).prods = t.prods := rfl
@[simp] theorem Team.setS_wait (t : Team) (r : BitVec 6) (v : Word64) : (t.setS r v).wait = t.wait := rfl
@[simp] theorem Team.setS_arr (t : Team) (r : BitVec 6) (v : Word64) : (t.setS r v).arr = t.arr := rfl
@[simp] theorem Team.setS_prow (t : Team) (r : BitVec 6) (v : Word64) : (t.setS r v).prow = t.prow := rfl
@[simp] theorem Team.setS_exc (t : Team) (r : BitVec 6) (v : Word64) : (t.setS r v).exc = t.exc := rfl
@[simp] theorem Team.setS_excFlags (t : Team) (r : BitVec 6) (v : Word64) : (t.setS r v).excFlags = t.excFlags := rfl
@[simp] theorem Team.setS_fseq (t : Team) (r : BitVec 6) (v : Word64) : (t.setS r v).fseq = t.fseq := rfl
@[simp] theorem Team.setS_cause (t : Team) (r : BitVec 6) (v : Word64) : (t.setS r v).cause = t.cause := rfl
@[simp] theorem Team.setS_nsave (t : Team) (r : BitVec 6) (v : Word64) : (t.setS r v).nsave = t.nsave := rfl
@[simp] theorem Team.setS_frameSlot (t : Team) (r : BitVec 6) (v : Word64) : (t.setS r v).frameSlot = t.frameSlot := rfl
@[simp] theorem Team.setS_children (t : Team) (r : BitVec 6) (v : Word64) : (t.setS r v).children = t.children := rfl
@[simp] theorem Team.setS_sliceStart (t : Team) (r : BitVec 6) (v : Word64) : (t.setS r v).sliceStart = t.sliceStart := rfl
@[simp] theorem Team.setS_owed (t : Team) (r : BitVec 6) (v : Word64) : (t.setS r v).owed = t.owed := rfl
@[simp] theorem Team.setS_badWords (t : Team) (r : BitVec 6) (v : Word64) : (t.setS r v).badWords = t.badWords := rfl
@[simp] theorem Team.setS_pool (t : Team) (r : BitVec 6) (v : Word64) : (t.setS r v).pool = t.pool := rfl
@[simp] theorem Team.setS_emitters (t : Team) (r : BitVec 6) (v : Word64) : (t.setS r v).emitters = t.emitters := rfl
@[simp] theorem Team.setS_emit (t : Team) (r : BitVec 6) (v : Word64) : (t.setS r v).emit = t.emit := rfl

@[simp] theorem Team.setV_status (t : Team) (r l : Nat) (x : Word32) : (t.setV r l x).status = t.status := rfl
@[simp] theorem Team.setV_launch (t : Team) (r l : Nat) (x : Word32) : (t.setV r l x).launch = t.launch := rfl
@[simp] theorem Team.setV_die (t : Team) (r l : Nat) (x : Word32) : (t.setV r l x).die = t.die := rfl
@[simp] theorem Team.setV_group (t : Team) (r l : Nat) (x : Word32) : (t.setV r l x).group = t.group := rfl
@[simp] theorem Team.setV_dix (t : Team) (r l : Nat) (x : Word32) : (t.setV r l x).dix = t.dix := rfl
@[simp] theorem Team.setV_gix (t : Team) (r l : Nat) (x : Word32) : (t.setV r l x).gix = t.gix := rfl
@[simp] theorem Team.setV_tix (t : Team) (r l : Nat) (x : Word32) : (t.setV r l x).tix = t.tix := rfl
@[simp] theorem Team.setV_ndie (t : Team) (r l : Nat) (x : Word32) : (t.setV r l x).ndie = t.ndie := rfl
@[simp] theorem Team.setV_ngrp (t : Team) (r l : Nat) (x : Word32) : (t.setV r l x).ngrp = t.ngrp := rfl
@[simp] theorem Team.setV_nteam (t : Team) (r l : Nat) (x : Word32) : (t.setV r l x).nteam = t.nteam := rfl
@[simp] theorem Team.setV_cluster (t : Team) (r l : Nat) (x : Word32) : (t.setV r l x).cluster = t.cluster := rfl
@[simp] theorem Team.setV_core (t : Team) (r l : Nat) (x : Word32) : (t.setV r l x).core = t.core := rfl
@[simp] theorem Team.setV_slot (t : Team) (r l : Nat) (x : Word32) : (t.setV r l x).slot = t.slot := rfl
@[simp] theorem Team.setV_lanes (t : Team) (r l : Nat) (x : Word32) : (t.setV r l x).lanes = t.lanes := rfl
@[simp] theorem Team.setV_vregs (t : Team) (r l : Nat) (x : Word32) : (t.setV r l x).vregs = t.vregs := rfl
@[simp] theorem Team.setV_depth (t : Team) (r l : Nat) (x : Word32) : (t.setV r l x).depth = t.depth := rfl
@[simp] theorem Team.setV_record (t : Team) (r l : Nat) (x : Word32) : (t.setV r l x).record = t.record := rfl
@[simp] theorem Team.setV_recAddr (t : Team) (r l : Nat) (x : Word32) : (t.setV r l x).recAddr = t.recAddr := rfl
@[simp] theorem Team.setV_joins (t : Team) (r l : Nat) (x : Word32) : (t.setV r l x).joins = t.joins := rfl
@[simp] theorem Team.setV_sreg (t : Team) (r l : Nat) (x : Word32) : (t.setV r l x).sreg = t.sreg := rfl
@[simp] theorem Team.setV_mask (t : Team) (r l : Nat) (x : Word32) : (t.setV r l x).mask = t.mask := rfl
@[simp] theorem Team.setV_empty (t : Team) (r l : Nat) (x : Word32) : (t.setV r l x).empty = t.empty := rfl
@[simp] theorem Team.setV_tag (t : Team) (r l : Nat) (x : Word32) : (t.setV r l x).tag = t.tag := rfl
@[simp] theorem Team.setV_genSeed (t : Team) (r l : Nat) (x : Word32) : (t.setV r l x).genSeed = t.genSeed := rfl
@[simp] theorem Team.setV_gen (t : Team) (r l : Nat) (x : Word32) : (t.setV r l x).gen = t.gen := rfl
@[simp] theorem Team.setV_div (t : Team) (r l : Nat) (x : Word32) : (t.setV r l x).div = t.div := rfl
@[simp] theorem Team.setV_ret (t : Team) (r l : Nat) (x : Word32) : (t.setV r l x).ret = t.ret := rfl
@[simp] theorem Team.setV_rp (t : Team) (r l : Nat) (x : Word32) : (t.setV r l x).rp = t.rp := rfl
@[simp] theorem Team.setV_spBase (t : Team) (r l : Nat) (x : Word32) : (t.setV r l x).spBase = t.spBase := rfl
@[simp] theorem Team.setV_spPtr (t : Team) (r l : Nat) (x : Word32) : (t.setV r l x).spPtr = t.spPtr := rfl
@[simp] theorem Team.setV_ndsp (t : Team) (r l : Nat) (x : Word32) : (t.setV r l x).ndsp = t.ndsp := rfl
@[simp] theorem Team.setV_nrsp (t : Team) (r l : Nat) (x : Word32) : (t.setV r l x).nrsp = t.nrsp := rfl
@[simp] theorem Team.setV_fp (t : Team) (r l : Nat) (x : Word32) : (t.setV r l x).fp = t.fp := rfl
@[simp] theorem Team.setV_stk (t : Team) (r l : Nat) (x : Word32) : (t.setV r l x).stk = t.stk := rfl
@[simp] theorem Team.setV_flags (t : Team) (r l : Nat) (x : Word32) : (t.setV r l x).flags = t.flags := rfl
@[simp] theorem Team.setV_fctl (t : Team) (r l : Nat) (x : Word32) : (t.setV r l x).fctl = t.fctl := rfl
@[simp] theorem Team.setV_iwarn (t : Team) (r l : Nat) (x : Word32) : (t.setV r l x).iwarn = t.iwarn := rfl
@[simp] theorem Team.setV_mbound (t : Team) (r l : Nat) (x : Word32) : (t.setV r l x).mbound = t.mbound := rfl
@[simp] theorem Team.setV_tile (t : Team) (r l : Nat) (x : Word32) : (t.setV r l x).tile = t.tile := rfl
@[simp] theorem Team.setV_gang (t : Team) (r l : Nat) (x : Word32) : (t.setV r l x).gang = t.gang := rfl
@[simp] theorem Team.setV_allow (t : Team) (r l : Nat) (x : Word32) : (t.setV r l x).allow = t.allow := rfl
@[simp] theorem Team.setV_closed (t : Team) (r l : Nat) (x : Word32) : (t.setV r l x).closed = t.closed := rfl
@[simp] theorem Team.setV_done (t : Team) (r l : Nat) (x : Word32) : (t.setV r l x).done = t.done := rfl
@[simp] theorem Team.setV_slim (t : Team) (r l : Nat) (x : Word32) : (t.setV r l x).slim = t.slim := rfl
@[simp] theorem Team.setV_tvec (t : Team) (r l : Nat) (x : Word32) : (t.setV r l x).tvec = t.tvec := rfl
@[simp] theorem Team.setV_tcause (t : Team) (r l : Nat) (x : Word32) : (t.setV r l x).tcause = t.tcause := rfl
@[simp] theorem Team.setV_tepc (t : Team) (r l : Nat) (x : Word32) : (t.setV r l x).tepc = t.tepc := rfl
@[simp] theorem Team.setV_tmask (t : Team) (r l : Nat) (x : Word32) : (t.setV r l x).tmask = t.tmask := rfl
@[simp] theorem Team.setV_acc0 (t : Team) (r l : Nat) (x : Word32) : (t.setV r l x).acc0 = t.acc0 := rfl
@[simp] theorem Team.setV_acc1 (t : Team) (r l : Nat) (x : Word32) : (t.setV r l x).acc1 = t.acc1 := rfl
@[simp] theorem Team.setV_holder (t : Team) (r l : Nat) (x : Word32) : (t.setV r l x).holder = t.holder := rfl
@[simp] theorem Team.setV_matq (t : Team) (r l : Nat) (x : Word32) : (t.setV r l x).matq = t.matq := rfl
@[simp] theorem Team.setV_prods (t : Team) (r l : Nat) (x : Word32) : (t.setV r l x).prods = t.prods := rfl
@[simp] theorem Team.setV_wait (t : Team) (r l : Nat) (x : Word32) : (t.setV r l x).wait = t.wait := rfl
@[simp] theorem Team.setV_arr (t : Team) (r l : Nat) (x : Word32) : (t.setV r l x).arr = t.arr := rfl
@[simp] theorem Team.setV_prow (t : Team) (r l : Nat) (x : Word32) : (t.setV r l x).prow = t.prow := rfl
@[simp] theorem Team.setV_exc (t : Team) (r l : Nat) (x : Word32) : (t.setV r l x).exc = t.exc := rfl
@[simp] theorem Team.setV_excFlags (t : Team) (r l : Nat) (x : Word32) : (t.setV r l x).excFlags = t.excFlags := rfl
@[simp] theorem Team.setV_fseq (t : Team) (r l : Nat) (x : Word32) : (t.setV r l x).fseq = t.fseq := rfl
@[simp] theorem Team.setV_cause (t : Team) (r l : Nat) (x : Word32) : (t.setV r l x).cause = t.cause := rfl
@[simp] theorem Team.setV_nsave (t : Team) (r l : Nat) (x : Word32) : (t.setV r l x).nsave = t.nsave := rfl
@[simp] theorem Team.setV_frameSlot (t : Team) (r l : Nat) (x : Word32) : (t.setV r l x).frameSlot = t.frameSlot := rfl
@[simp] theorem Team.setV_children (t : Team) (r l : Nat) (x : Word32) : (t.setV r l x).children = t.children := rfl
@[simp] theorem Team.setV_sliceStart (t : Team) (r l : Nat) (x : Word32) : (t.setV r l x).sliceStart = t.sliceStart := rfl
@[simp] theorem Team.setV_owed (t : Team) (r l : Nat) (x : Word32) : (t.setV r l x).owed = t.owed := rfl
@[simp] theorem Team.setV_pool (t : Team) (r l : Nat) (x : Word32) : (t.setV r l x).pool = t.pool := rfl
@[simp] theorem Team.setV_emitters (t : Team) (r l : Nat) (x : Word32) : (t.setV r l x).emitters = t.emitters := rfl
@[simp] theorem Team.setV_emit (t : Team) (r l : Nat) (x : Word32) : (t.setV r l x).emit = t.emit := rfl

@[simp] theorem Team.setK_status (t : Team) (k : Nat) (m : Mask) : (t.setK k m).status = t.status := by unfold Team.setK; split <;> rfl
@[simp] theorem Team.setK_launch (t : Team) (k : Nat) (m : Mask) : (t.setK k m).launch = t.launch := by unfold Team.setK; split <;> rfl
@[simp] theorem Team.setK_die (t : Team) (k : Nat) (m : Mask) : (t.setK k m).die = t.die := by unfold Team.setK; split <;> rfl
@[simp] theorem Team.setK_group (t : Team) (k : Nat) (m : Mask) : (t.setK k m).group = t.group := by unfold Team.setK; split <;> rfl
@[simp] theorem Team.setK_dix (t : Team) (k : Nat) (m : Mask) : (t.setK k m).dix = t.dix := by unfold Team.setK; split <;> rfl
@[simp] theorem Team.setK_gix (t : Team) (k : Nat) (m : Mask) : (t.setK k m).gix = t.gix := by unfold Team.setK; split <;> rfl
@[simp] theorem Team.setK_tix (t : Team) (k : Nat) (m : Mask) : (t.setK k m).tix = t.tix := by unfold Team.setK; split <;> rfl
@[simp] theorem Team.setK_ndie (t : Team) (k : Nat) (m : Mask) : (t.setK k m).ndie = t.ndie := by unfold Team.setK; split <;> rfl
@[simp] theorem Team.setK_ngrp (t : Team) (k : Nat) (m : Mask) : (t.setK k m).ngrp = t.ngrp := by unfold Team.setK; split <;> rfl
@[simp] theorem Team.setK_nteam (t : Team) (k : Nat) (m : Mask) : (t.setK k m).nteam = t.nteam := by unfold Team.setK; split <;> rfl
@[simp] theorem Team.setK_cluster (t : Team) (k : Nat) (m : Mask) : (t.setK k m).cluster = t.cluster := by unfold Team.setK; split <;> rfl
@[simp] theorem Team.setK_core (t : Team) (k : Nat) (m : Mask) : (t.setK k m).core = t.core := by unfold Team.setK; split <;> rfl
@[simp] theorem Team.setK_slot (t : Team) (k : Nat) (m : Mask) : (t.setK k m).slot = t.slot := by unfold Team.setK; split <;> rfl
@[simp] theorem Team.setK_lanes (t : Team) (k : Nat) (m : Mask) : (t.setK k m).lanes = t.lanes := by unfold Team.setK; split <;> rfl
@[simp] theorem Team.setK_vregs (t : Team) (k : Nat) (m : Mask) : (t.setK k m).vregs = t.vregs := by unfold Team.setK; split <;> rfl
@[simp] theorem Team.setK_depth (t : Team) (k : Nat) (m : Mask) : (t.setK k m).depth = t.depth := by unfold Team.setK; split <;> rfl
@[simp] theorem Team.setK_record (t : Team) (k : Nat) (m : Mask) : (t.setK k m).record = t.record := by unfold Team.setK; split <;> rfl
@[simp] theorem Team.setK_recAddr (t : Team) (k : Nat) (m : Mask) : (t.setK k m).recAddr = t.recAddr := by unfold Team.setK; split <;> rfl
@[simp] theorem Team.setK_joins (t : Team) (k : Nat) (m : Mask) : (t.setK k m).joins = t.joins := by unfold Team.setK; split <;> rfl
@[simp] theorem Team.setK_sreg (t : Team) (k : Nat) (m : Mask) : (t.setK k m).sreg = t.sreg := by unfold Team.setK; split <;> rfl
@[simp] theorem Team.setK_vreg (t : Team) (k : Nat) (m : Mask) : (t.setK k m).vreg = t.vreg := by unfold Team.setK; split <;> rfl
@[simp] theorem Team.setK_empty (t : Team) (k : Nat) (m : Mask) : (t.setK k m).empty = t.empty := by unfold Team.setK; split <;> rfl
@[simp] theorem Team.setK_tag (t : Team) (k : Nat) (m : Mask) : (t.setK k m).tag = t.tag := by unfold Team.setK; split <;> rfl
@[simp] theorem Team.setK_genSeed (t : Team) (k : Nat) (m : Mask) : (t.setK k m).genSeed = t.genSeed := by unfold Team.setK; split <;> rfl
@[simp] theorem Team.setK_gen (t : Team) (k : Nat) (m : Mask) : (t.setK k m).gen = t.gen := by unfold Team.setK; split <;> rfl
@[simp] theorem Team.setK_div (t : Team) (k : Nat) (m : Mask) : (t.setK k m).div = t.div := by unfold Team.setK; split <;> rfl
@[simp] theorem Team.setK_ret (t : Team) (k : Nat) (m : Mask) : (t.setK k m).ret = t.ret := by unfold Team.setK; split <;> rfl
@[simp] theorem Team.setK_rp (t : Team) (k : Nat) (m : Mask) : (t.setK k m).rp = t.rp := by unfold Team.setK; split <;> rfl
@[simp] theorem Team.setK_spBase (t : Team) (k : Nat) (m : Mask) : (t.setK k m).spBase = t.spBase := by unfold Team.setK; split <;> rfl
@[simp] theorem Team.setK_spPtr (t : Team) (k : Nat) (m : Mask) : (t.setK k m).spPtr = t.spPtr := by unfold Team.setK; split <;> rfl
@[simp] theorem Team.setK_ndsp (t : Team) (k : Nat) (m : Mask) : (t.setK k m).ndsp = t.ndsp := by unfold Team.setK; split <;> rfl
@[simp] theorem Team.setK_nrsp (t : Team) (k : Nat) (m : Mask) : (t.setK k m).nrsp = t.nrsp := by unfold Team.setK; split <;> rfl
@[simp] theorem Team.setK_fp (t : Team) (k : Nat) (m : Mask) : (t.setK k m).fp = t.fp := by unfold Team.setK; split <;> rfl
@[simp] theorem Team.setK_stk (t : Team) (k : Nat) (m : Mask) : (t.setK k m).stk = t.stk := by unfold Team.setK; split <;> rfl
@[simp] theorem Team.setK_flags (t : Team) (k : Nat) (m : Mask) : (t.setK k m).flags = t.flags := by unfold Team.setK; split <;> rfl
@[simp] theorem Team.setK_fctl (t : Team) (k : Nat) (m : Mask) : (t.setK k m).fctl = t.fctl := by unfold Team.setK; split <;> rfl
@[simp] theorem Team.setK_iwarn (t : Team) (k : Nat) (m : Mask) : (t.setK k m).iwarn = t.iwarn := by unfold Team.setK; split <;> rfl
@[simp] theorem Team.setK_mbound (t : Team) (k : Nat) (m : Mask) : (t.setK k m).mbound = t.mbound := by unfold Team.setK; split <;> rfl
@[simp] theorem Team.setK_tile (t : Team) (k : Nat) (m : Mask) : (t.setK k m).tile = t.tile := by unfold Team.setK; split <;> rfl
@[simp] theorem Team.setK_gang (t : Team) (k : Nat) (m : Mask) : (t.setK k m).gang = t.gang := by unfold Team.setK; split <;> rfl
@[simp] theorem Team.setK_allow (t : Team) (k : Nat) (m : Mask) : (t.setK k m).allow = t.allow := by unfold Team.setK; split <;> rfl
@[simp] theorem Team.setK_closed (t : Team) (k : Nat) (m : Mask) : (t.setK k m).closed = t.closed := by unfold Team.setK; split <;> rfl
@[simp] theorem Team.setK_done (t : Team) (k : Nat) (m : Mask) : (t.setK k m).done = t.done := by unfold Team.setK; split <;> rfl
@[simp] theorem Team.setK_slim (t : Team) (k : Nat) (m : Mask) : (t.setK k m).slim = t.slim := by unfold Team.setK; split <;> rfl
@[simp] theorem Team.setK_tvec (t : Team) (k : Nat) (m : Mask) : (t.setK k m).tvec = t.tvec := by unfold Team.setK; split <;> rfl
@[simp] theorem Team.setK_tcause (t : Team) (k : Nat) (m : Mask) : (t.setK k m).tcause = t.tcause := by unfold Team.setK; split <;> rfl
@[simp] theorem Team.setK_tepc (t : Team) (k : Nat) (m : Mask) : (t.setK k m).tepc = t.tepc := by unfold Team.setK; split <;> rfl
@[simp] theorem Team.setK_tmask (t : Team) (k : Nat) (m : Mask) : (t.setK k m).tmask = t.tmask := by unfold Team.setK; split <;> rfl
@[simp] theorem Team.setK_acc0 (t : Team) (k : Nat) (m : Mask) : (t.setK k m).acc0 = t.acc0 := by unfold Team.setK; split <;> rfl
@[simp] theorem Team.setK_acc1 (t : Team) (k : Nat) (m : Mask) : (t.setK k m).acc1 = t.acc1 := by unfold Team.setK; split <;> rfl
@[simp] theorem Team.setK_holder (t : Team) (k : Nat) (m : Mask) : (t.setK k m).holder = t.holder := by unfold Team.setK; split <;> rfl
@[simp] theorem Team.setK_matq (t : Team) (k : Nat) (m : Mask) : (t.setK k m).matq = t.matq := by unfold Team.setK; split <;> rfl
@[simp] theorem Team.setK_prods (t : Team) (k : Nat) (m : Mask) : (t.setK k m).prods = t.prods := by unfold Team.setK; split <;> rfl
@[simp] theorem Team.setK_wait (t : Team) (k : Nat) (m : Mask) : (t.setK k m).wait = t.wait := by unfold Team.setK; split <;> rfl
@[simp] theorem Team.setK_arr (t : Team) (k : Nat) (m : Mask) : (t.setK k m).arr = t.arr := by unfold Team.setK; split <;> rfl
@[simp] theorem Team.setK_prow (t : Team) (k : Nat) (m : Mask) : (t.setK k m).prow = t.prow := by unfold Team.setK; split <;> rfl
@[simp] theorem Team.setK_exc (t : Team) (k : Nat) (m : Mask) : (t.setK k m).exc = t.exc := by unfold Team.setK; split <;> rfl
@[simp] theorem Team.setK_excFlags (t : Team) (k : Nat) (m : Mask) : (t.setK k m).excFlags = t.excFlags := by unfold Team.setK; split <;> rfl
@[simp] theorem Team.setK_fseq (t : Team) (k : Nat) (m : Mask) : (t.setK k m).fseq = t.fseq := by unfold Team.setK; split <;> rfl
@[simp] theorem Team.setK_cause (t : Team) (k : Nat) (m : Mask) : (t.setK k m).cause = t.cause := by unfold Team.setK; split <;> rfl
@[simp] theorem Team.setK_nsave (t : Team) (k : Nat) (m : Mask) : (t.setK k m).nsave = t.nsave := by unfold Team.setK; split <;> rfl
@[simp] theorem Team.setK_frameSlot (t : Team) (k : Nat) (m : Mask) : (t.setK k m).frameSlot = t.frameSlot := by unfold Team.setK; split <;> rfl
@[simp] theorem Team.setK_children (t : Team) (k : Nat) (m : Mask) : (t.setK k m).children = t.children := by unfold Team.setK; split <;> rfl
@[simp] theorem Team.setK_sliceStart (t : Team) (k : Nat) (m : Mask) : (t.setK k m).sliceStart = t.sliceStart := by unfold Team.setK; split <;> rfl
@[simp] theorem Team.setK_owed (t : Team) (k : Nat) (m : Mask) : (t.setK k m).owed = t.owed := by unfold Team.setK; split <;> rfl
@[simp] theorem Team.setK_badWords (t : Team) (k : Nat) (m : Mask) : (t.setK k m).badWords = t.badWords := by unfold Team.setK; split <;> rfl
@[simp] theorem Team.setK_pool (t : Team) (k : Nat) (m : Mask) : (t.setK k m).pool = t.pool := by unfold Team.setK; split <;> rfl
@[simp] theorem Team.setK_emitters (t : Team) (k : Nat) (m : Mask) : (t.setK k m).emitters = t.emitters := by unfold Team.setK; split <;> rfl
@[simp] theorem Team.setK_emit (t : Team) (k : Nat) (m : Mask) : (t.setK k m).emit = t.emit := by unfold Team.setK; split <;> rfl

@[simp] theorem Team.setRow_status (t : Team) (g r : Nat) (e : Bool) : (t.setRow g r e).status = t.status := rfl
@[simp] theorem Team.setRow_launch (t : Team) (g r : Nat) (e : Bool) : (t.setRow g r e).launch = t.launch := rfl
@[simp] theorem Team.setRow_die (t : Team) (g r : Nat) (e : Bool) : (t.setRow g r e).die = t.die := rfl
@[simp] theorem Team.setRow_group (t : Team) (g r : Nat) (e : Bool) : (t.setRow g r e).group = t.group := rfl
@[simp] theorem Team.setRow_dix (t : Team) (g r : Nat) (e : Bool) : (t.setRow g r e).dix = t.dix := rfl
@[simp] theorem Team.setRow_gix (t : Team) (g r : Nat) (e : Bool) : (t.setRow g r e).gix = t.gix := rfl
@[simp] theorem Team.setRow_tix (t : Team) (g r : Nat) (e : Bool) : (t.setRow g r e).tix = t.tix := rfl
@[simp] theorem Team.setRow_ndie (t : Team) (g r : Nat) (e : Bool) : (t.setRow g r e).ndie = t.ndie := rfl
@[simp] theorem Team.setRow_ngrp (t : Team) (g r : Nat) (e : Bool) : (t.setRow g r e).ngrp = t.ngrp := rfl
@[simp] theorem Team.setRow_nteam (t : Team) (g r : Nat) (e : Bool) : (t.setRow g r e).nteam = t.nteam := rfl
@[simp] theorem Team.setRow_cluster (t : Team) (g r : Nat) (e : Bool) : (t.setRow g r e).cluster = t.cluster := rfl
@[simp] theorem Team.setRow_core (t : Team) (g r : Nat) (e : Bool) : (t.setRow g r e).core = t.core := rfl
@[simp] theorem Team.setRow_slot (t : Team) (g r : Nat) (e : Bool) : (t.setRow g r e).slot = t.slot := rfl
@[simp] theorem Team.setRow_lanes (t : Team) (g r : Nat) (e : Bool) : (t.setRow g r e).lanes = t.lanes := rfl
@[simp] theorem Team.setRow_vregs (t : Team) (g r : Nat) (e : Bool) : (t.setRow g r e).vregs = t.vregs := rfl
@[simp] theorem Team.setRow_depth (t : Team) (g r : Nat) (e : Bool) : (t.setRow g r e).depth = t.depth := rfl
@[simp] theorem Team.setRow_record (t : Team) (g r : Nat) (e : Bool) : (t.setRow g r e).record = t.record := rfl
@[simp] theorem Team.setRow_recAddr (t : Team) (g r : Nat) (e : Bool) : (t.setRow g r e).recAddr = t.recAddr := rfl
@[simp] theorem Team.setRow_joins (t : Team) (g r : Nat) (e : Bool) : (t.setRow g r e).joins = t.joins := rfl
@[simp] theorem Team.setRow_sreg (t : Team) (g r : Nat) (e : Bool) : (t.setRow g r e).sreg = t.sreg := rfl
@[simp] theorem Team.setRow_vreg (t : Team) (g r : Nat) (e : Bool) : (t.setRow g r e).vreg = t.vreg := rfl
@[simp] theorem Team.setRow_mask (t : Team) (g r : Nat) (e : Bool) : (t.setRow g r e).mask = t.mask := rfl
@[simp] theorem Team.setRow_tag (t : Team) (g r : Nat) (e : Bool) : (t.setRow g r e).tag = t.tag := rfl
@[simp] theorem Team.setRow_genSeed (t : Team) (g r : Nat) (e : Bool) : (t.setRow g r e).genSeed = t.genSeed := rfl
@[simp] theorem Team.setRow_gen (t : Team) (g r : Nat) (e : Bool) : (t.setRow g r e).gen = t.gen := rfl
@[simp] theorem Team.setRow_div (t : Team) (g r : Nat) (e : Bool) : (t.setRow g r e).div = t.div := rfl
@[simp] theorem Team.setRow_ret (t : Team) (g r : Nat) (e : Bool) : (t.setRow g r e).ret = t.ret := rfl
@[simp] theorem Team.setRow_rp (t : Team) (g r : Nat) (e : Bool) : (t.setRow g r e).rp = t.rp := rfl
@[simp] theorem Team.setRow_spBase (t : Team) (g r : Nat) (e : Bool) : (t.setRow g r e).spBase = t.spBase := rfl
@[simp] theorem Team.setRow_spPtr (t : Team) (g r : Nat) (e : Bool) : (t.setRow g r e).spPtr = t.spPtr := rfl
@[simp] theorem Team.setRow_ndsp (t : Team) (g r : Nat) (e : Bool) : (t.setRow g r e).ndsp = t.ndsp := rfl
@[simp] theorem Team.setRow_nrsp (t : Team) (g r : Nat) (e : Bool) : (t.setRow g r e).nrsp = t.nrsp := rfl
@[simp] theorem Team.setRow_fp (t : Team) (g r : Nat) (e : Bool) : (t.setRow g r e).fp = t.fp := rfl
@[simp] theorem Team.setRow_stk (t : Team) (g r : Nat) (e : Bool) : (t.setRow g r e).stk = t.stk := rfl
@[simp] theorem Team.setRow_flags (t : Team) (g r : Nat) (e : Bool) : (t.setRow g r e).flags = t.flags := rfl
@[simp] theorem Team.setRow_fctl (t : Team) (g r : Nat) (e : Bool) : (t.setRow g r e).fctl = t.fctl := rfl
@[simp] theorem Team.setRow_iwarn (t : Team) (g r : Nat) (e : Bool) : (t.setRow g r e).iwarn = t.iwarn := rfl
@[simp] theorem Team.setRow_mbound (t : Team) (g r : Nat) (e : Bool) : (t.setRow g r e).mbound = t.mbound := rfl
@[simp] theorem Team.setRow_tile (t : Team) (g r : Nat) (e : Bool) : (t.setRow g r e).tile = t.tile := rfl
@[simp] theorem Team.setRow_gang (t : Team) (g r : Nat) (e : Bool) : (t.setRow g r e).gang = t.gang := rfl
@[simp] theorem Team.setRow_allow (t : Team) (g r : Nat) (e : Bool) : (t.setRow g r e).allow = t.allow := rfl
@[simp] theorem Team.setRow_closed (t : Team) (g r : Nat) (e : Bool) : (t.setRow g r e).closed = t.closed := rfl
@[simp] theorem Team.setRow_done (t : Team) (g r : Nat) (e : Bool) : (t.setRow g r e).done = t.done := rfl
@[simp] theorem Team.setRow_slim (t : Team) (g r : Nat) (e : Bool) : (t.setRow g r e).slim = t.slim := rfl
@[simp] theorem Team.setRow_tvec (t : Team) (g r : Nat) (e : Bool) : (t.setRow g r e).tvec = t.tvec := rfl
@[simp] theorem Team.setRow_tcause (t : Team) (g r : Nat) (e : Bool) : (t.setRow g r e).tcause = t.tcause := rfl
@[simp] theorem Team.setRow_tepc (t : Team) (g r : Nat) (e : Bool) : (t.setRow g r e).tepc = t.tepc := rfl
@[simp] theorem Team.setRow_tmask (t : Team) (g r : Nat) (e : Bool) : (t.setRow g r e).tmask = t.tmask := rfl
@[simp] theorem Team.setRow_acc0 (t : Team) (g r : Nat) (e : Bool) : (t.setRow g r e).acc0 = t.acc0 := rfl
@[simp] theorem Team.setRow_acc1 (t : Team) (g r : Nat) (e : Bool) : (t.setRow g r e).acc1 = t.acc1 := rfl
@[simp] theorem Team.setRow_holder (t : Team) (g r : Nat) (e : Bool) : (t.setRow g r e).holder = t.holder := rfl
@[simp] theorem Team.setRow_matq (t : Team) (g r : Nat) (e : Bool) : (t.setRow g r e).matq = t.matq := rfl
@[simp] theorem Team.setRow_prods (t : Team) (g r : Nat) (e : Bool) : (t.setRow g r e).prods = t.prods := rfl
@[simp] theorem Team.setRow_wait (t : Team) (g r : Nat) (e : Bool) : (t.setRow g r e).wait = t.wait := rfl
@[simp] theorem Team.setRow_arr (t : Team) (g r : Nat) (e : Bool) : (t.setRow g r e).arr = t.arr := rfl
@[simp] theorem Team.setRow_prow (t : Team) (g r : Nat) (e : Bool) : (t.setRow g r e).prow = t.prow := rfl
@[simp] theorem Team.setRow_exc (t : Team) (g r : Nat) (e : Bool) : (t.setRow g r e).exc = t.exc := rfl
@[simp] theorem Team.setRow_excFlags (t : Team) (g r : Nat) (e : Bool) : (t.setRow g r e).excFlags = t.excFlags := rfl
@[simp] theorem Team.setRow_fseq (t : Team) (g r : Nat) (e : Bool) : (t.setRow g r e).fseq = t.fseq := rfl
@[simp] theorem Team.setRow_cause (t : Team) (g r : Nat) (e : Bool) : (t.setRow g r e).cause = t.cause := rfl
@[simp] theorem Team.setRow_nsave (t : Team) (g r : Nat) (e : Bool) : (t.setRow g r e).nsave = t.nsave := rfl
@[simp] theorem Team.setRow_frameSlot (t : Team) (g r : Nat) (e : Bool) : (t.setRow g r e).frameSlot = t.frameSlot := rfl
@[simp] theorem Team.setRow_children (t : Team) (g r : Nat) (e : Bool) : (t.setRow g r e).children = t.children := rfl
@[simp] theorem Team.setRow_sliceStart (t : Team) (g r : Nat) (e : Bool) : (t.setRow g r e).sliceStart = t.sliceStart := rfl
@[simp] theorem Team.setRow_owed (t : Team) (g r : Nat) (e : Bool) : (t.setRow g r e).owed = t.owed := rfl
@[simp] theorem Team.setRow_badWords (t : Team) (g r : Nat) (e : Bool) : (t.setRow g r e).badWords = t.badWords := rfl
@[simp] theorem Team.setRow_pool (t : Team) (g r : Nat) (e : Bool) : (t.setRow g r e).pool = t.pool := rfl
@[simp] theorem Team.setRow_emitters (t : Team) (g r : Nat) (e : Bool) : (t.setRow g r e).emitters = t.emitters := rfl
@[simp] theorem Team.setRow_emit (t : Team) (g r : Nat) (e : Bool) : (t.setRow g r e).emit = t.emit := rfl

@[simp] theorem Team.setTags_status (t : Team) (rs : List Nat) (g : BitVec 4) : (t.setTags rs g).status = t.status := rfl
@[simp] theorem Team.setTags_launch (t : Team) (rs : List Nat) (g : BitVec 4) : (t.setTags rs g).launch = t.launch := rfl
@[simp] theorem Team.setTags_die (t : Team) (rs : List Nat) (g : BitVec 4) : (t.setTags rs g).die = t.die := rfl
@[simp] theorem Team.setTags_group (t : Team) (rs : List Nat) (g : BitVec 4) : (t.setTags rs g).group = t.group := rfl
@[simp] theorem Team.setTags_dix (t : Team) (rs : List Nat) (g : BitVec 4) : (t.setTags rs g).dix = t.dix := rfl
@[simp] theorem Team.setTags_gix (t : Team) (rs : List Nat) (g : BitVec 4) : (t.setTags rs g).gix = t.gix := rfl
@[simp] theorem Team.setTags_tix (t : Team) (rs : List Nat) (g : BitVec 4) : (t.setTags rs g).tix = t.tix := rfl
@[simp] theorem Team.setTags_ndie (t : Team) (rs : List Nat) (g : BitVec 4) : (t.setTags rs g).ndie = t.ndie := rfl
@[simp] theorem Team.setTags_ngrp (t : Team) (rs : List Nat) (g : BitVec 4) : (t.setTags rs g).ngrp = t.ngrp := rfl
@[simp] theorem Team.setTags_nteam (t : Team) (rs : List Nat) (g : BitVec 4) : (t.setTags rs g).nteam = t.nteam := rfl
@[simp] theorem Team.setTags_cluster (t : Team) (rs : List Nat) (g : BitVec 4) : (t.setTags rs g).cluster = t.cluster := rfl
@[simp] theorem Team.setTags_core (t : Team) (rs : List Nat) (g : BitVec 4) : (t.setTags rs g).core = t.core := rfl
@[simp] theorem Team.setTags_slot (t : Team) (rs : List Nat) (g : BitVec 4) : (t.setTags rs g).slot = t.slot := rfl
@[simp] theorem Team.setTags_lanes (t : Team) (rs : List Nat) (g : BitVec 4) : (t.setTags rs g).lanes = t.lanes := rfl
@[simp] theorem Team.setTags_vregs (t : Team) (rs : List Nat) (g : BitVec 4) : (t.setTags rs g).vregs = t.vregs := rfl
@[simp] theorem Team.setTags_depth (t : Team) (rs : List Nat) (g : BitVec 4) : (t.setTags rs g).depth = t.depth := rfl
@[simp] theorem Team.setTags_record (t : Team) (rs : List Nat) (g : BitVec 4) : (t.setTags rs g).record = t.record := rfl
@[simp] theorem Team.setTags_recAddr (t : Team) (rs : List Nat) (g : BitVec 4) : (t.setTags rs g).recAddr = t.recAddr := rfl
@[simp] theorem Team.setTags_joins (t : Team) (rs : List Nat) (g : BitVec 4) : (t.setTags rs g).joins = t.joins := rfl
@[simp] theorem Team.setTags_sreg (t : Team) (rs : List Nat) (g : BitVec 4) : (t.setTags rs g).sreg = t.sreg := rfl
@[simp] theorem Team.setTags_vreg (t : Team) (rs : List Nat) (g : BitVec 4) : (t.setTags rs g).vreg = t.vreg := rfl
@[simp] theorem Team.setTags_mask (t : Team) (rs : List Nat) (g : BitVec 4) : (t.setTags rs g).mask = t.mask := rfl
@[simp] theorem Team.setTags_empty (t : Team) (rs : List Nat) (g : BitVec 4) : (t.setTags rs g).empty = t.empty := rfl
@[simp] theorem Team.setTags_genSeed (t : Team) (rs : List Nat) (g : BitVec 4) : (t.setTags rs g).genSeed = t.genSeed := rfl
@[simp] theorem Team.setTags_gen (t : Team) (rs : List Nat) (g : BitVec 4) : (t.setTags rs g).gen = t.gen := rfl
@[simp] theorem Team.setTags_div (t : Team) (rs : List Nat) (g : BitVec 4) : (t.setTags rs g).div = t.div := rfl
@[simp] theorem Team.setTags_ret (t : Team) (rs : List Nat) (g : BitVec 4) : (t.setTags rs g).ret = t.ret := rfl
@[simp] theorem Team.setTags_rp (t : Team) (rs : List Nat) (g : BitVec 4) : (t.setTags rs g).rp = t.rp := rfl
@[simp] theorem Team.setTags_spBase (t : Team) (rs : List Nat) (g : BitVec 4) : (t.setTags rs g).spBase = t.spBase := rfl
@[simp] theorem Team.setTags_spPtr (t : Team) (rs : List Nat) (g : BitVec 4) : (t.setTags rs g).spPtr = t.spPtr := rfl
@[simp] theorem Team.setTags_ndsp (t : Team) (rs : List Nat) (g : BitVec 4) : (t.setTags rs g).ndsp = t.ndsp := rfl
@[simp] theorem Team.setTags_nrsp (t : Team) (rs : List Nat) (g : BitVec 4) : (t.setTags rs g).nrsp = t.nrsp := rfl
@[simp] theorem Team.setTags_fp (t : Team) (rs : List Nat) (g : BitVec 4) : (t.setTags rs g).fp = t.fp := rfl
@[simp] theorem Team.setTags_stk (t : Team) (rs : List Nat) (g : BitVec 4) : (t.setTags rs g).stk = t.stk := rfl
@[simp] theorem Team.setTags_flags (t : Team) (rs : List Nat) (g : BitVec 4) : (t.setTags rs g).flags = t.flags := rfl
@[simp] theorem Team.setTags_fctl (t : Team) (rs : List Nat) (g : BitVec 4) : (t.setTags rs g).fctl = t.fctl := rfl
@[simp] theorem Team.setTags_iwarn (t : Team) (rs : List Nat) (g : BitVec 4) : (t.setTags rs g).iwarn = t.iwarn := rfl
@[simp] theorem Team.setTags_mbound (t : Team) (rs : List Nat) (g : BitVec 4) : (t.setTags rs g).mbound = t.mbound := rfl
@[simp] theorem Team.setTags_tile (t : Team) (rs : List Nat) (g : BitVec 4) : (t.setTags rs g).tile = t.tile := rfl
@[simp] theorem Team.setTags_gang (t : Team) (rs : List Nat) (g : BitVec 4) : (t.setTags rs g).gang = t.gang := rfl
@[simp] theorem Team.setTags_allow (t : Team) (rs : List Nat) (g : BitVec 4) : (t.setTags rs g).allow = t.allow := rfl
@[simp] theorem Team.setTags_closed (t : Team) (rs : List Nat) (g : BitVec 4) : (t.setTags rs g).closed = t.closed := rfl
@[simp] theorem Team.setTags_done (t : Team) (rs : List Nat) (g : BitVec 4) : (t.setTags rs g).done = t.done := rfl
@[simp] theorem Team.setTags_slim (t : Team) (rs : List Nat) (g : BitVec 4) : (t.setTags rs g).slim = t.slim := rfl
@[simp] theorem Team.setTags_tvec (t : Team) (rs : List Nat) (g : BitVec 4) : (t.setTags rs g).tvec = t.tvec := rfl
@[simp] theorem Team.setTags_tcause (t : Team) (rs : List Nat) (g : BitVec 4) : (t.setTags rs g).tcause = t.tcause := rfl
@[simp] theorem Team.setTags_tepc (t : Team) (rs : List Nat) (g : BitVec 4) : (t.setTags rs g).tepc = t.tepc := rfl
@[simp] theorem Team.setTags_tmask (t : Team) (rs : List Nat) (g : BitVec 4) : (t.setTags rs g).tmask = t.tmask := rfl
@[simp] theorem Team.setTags_acc0 (t : Team) (rs : List Nat) (g : BitVec 4) : (t.setTags rs g).acc0 = t.acc0 := rfl
@[simp] theorem Team.setTags_acc1 (t : Team) (rs : List Nat) (g : BitVec 4) : (t.setTags rs g).acc1 = t.acc1 := rfl
@[simp] theorem Team.setTags_holder (t : Team) (rs : List Nat) (g : BitVec 4) : (t.setTags rs g).holder = t.holder := rfl
@[simp] theorem Team.setTags_matq (t : Team) (rs : List Nat) (g : BitVec 4) : (t.setTags rs g).matq = t.matq := rfl
@[simp] theorem Team.setTags_prods (t : Team) (rs : List Nat) (g : BitVec 4) : (t.setTags rs g).prods = t.prods := rfl
@[simp] theorem Team.setTags_wait (t : Team) (rs : List Nat) (g : BitVec 4) : (t.setTags rs g).wait = t.wait := rfl
@[simp] theorem Team.setTags_arr (t : Team) (rs : List Nat) (g : BitVec 4) : (t.setTags rs g).arr = t.arr := rfl
@[simp] theorem Team.setTags_prow (t : Team) (rs : List Nat) (g : BitVec 4) : (t.setTags rs g).prow = t.prow := rfl
@[simp] theorem Team.setTags_exc (t : Team) (rs : List Nat) (g : BitVec 4) : (t.setTags rs g).exc = t.exc := rfl
@[simp] theorem Team.setTags_excFlags (t : Team) (rs : List Nat) (g : BitVec 4) : (t.setTags rs g).excFlags = t.excFlags := rfl
@[simp] theorem Team.setTags_fseq (t : Team) (rs : List Nat) (g : BitVec 4) : (t.setTags rs g).fseq = t.fseq := rfl
@[simp] theorem Team.setTags_cause (t : Team) (rs : List Nat) (g : BitVec 4) : (t.setTags rs g).cause = t.cause := rfl
@[simp] theorem Team.setTags_nsave (t : Team) (rs : List Nat) (g : BitVec 4) : (t.setTags rs g).nsave = t.nsave := rfl
@[simp] theorem Team.setTags_frameSlot (t : Team) (rs : List Nat) (g : BitVec 4) : (t.setTags rs g).frameSlot = t.frameSlot := rfl
@[simp] theorem Team.setTags_children (t : Team) (rs : List Nat) (g : BitVec 4) : (t.setTags rs g).children = t.children := rfl
@[simp] theorem Team.setTags_sliceStart (t : Team) (rs : List Nat) (g : BitVec 4) : (t.setTags rs g).sliceStart = t.sliceStart := rfl
@[simp] theorem Team.setTags_owed (t : Team) (rs : List Nat) (g : BitVec 4) : (t.setTags rs g).owed = t.owed := rfl
@[simp] theorem Team.setTags_badWords (t : Team) (rs : List Nat) (g : BitVec 4) : (t.setTags rs g).badWords = t.badWords := rfl
@[simp] theorem Team.setTags_pool (t : Team) (rs : List Nat) (g : BitVec 4) : (t.setTags rs g).pool = t.pool := rfl
@[simp] theorem Team.setTags_emitters (t : Team) (rs : List Nat) (g : BitVec 4) : (t.setTags rs g).emitters = t.emitters := rfl
@[simp] theorem Team.setTags_emit (t : Team) (rs : List Nat) (g : BitVec 4) : (t.setTags rs g).emit = t.emit := rfl

@[simp] theorem Team.setG_status (t : Team) (l : Nat) (g : Word32) : (t.setG l g).status = t.status := rfl
@[simp] theorem Team.setG_launch (t : Team) (l : Nat) (g : Word32) : (t.setG l g).launch = t.launch := rfl
@[simp] theorem Team.setG_die (t : Team) (l : Nat) (g : Word32) : (t.setG l g).die = t.die := rfl
@[simp] theorem Team.setG_group (t : Team) (l : Nat) (g : Word32) : (t.setG l g).group = t.group := rfl
@[simp] theorem Team.setG_dix (t : Team) (l : Nat) (g : Word32) : (t.setG l g).dix = t.dix := rfl
@[simp] theorem Team.setG_gix (t : Team) (l : Nat) (g : Word32) : (t.setG l g).gix = t.gix := rfl
@[simp] theorem Team.setG_tix (t : Team) (l : Nat) (g : Word32) : (t.setG l g).tix = t.tix := rfl
@[simp] theorem Team.setG_ndie (t : Team) (l : Nat) (g : Word32) : (t.setG l g).ndie = t.ndie := rfl
@[simp] theorem Team.setG_ngrp (t : Team) (l : Nat) (g : Word32) : (t.setG l g).ngrp = t.ngrp := rfl
@[simp] theorem Team.setG_nteam (t : Team) (l : Nat) (g : Word32) : (t.setG l g).nteam = t.nteam := rfl
@[simp] theorem Team.setG_cluster (t : Team) (l : Nat) (g : Word32) : (t.setG l g).cluster = t.cluster := rfl
@[simp] theorem Team.setG_core (t : Team) (l : Nat) (g : Word32) : (t.setG l g).core = t.core := rfl
@[simp] theorem Team.setG_slot (t : Team) (l : Nat) (g : Word32) : (t.setG l g).slot = t.slot := rfl
@[simp] theorem Team.setG_lanes (t : Team) (l : Nat) (g : Word32) : (t.setG l g).lanes = t.lanes := rfl
@[simp] theorem Team.setG_vregs (t : Team) (l : Nat) (g : Word32) : (t.setG l g).vregs = t.vregs := rfl
@[simp] theorem Team.setG_depth (t : Team) (l : Nat) (g : Word32) : (t.setG l g).depth = t.depth := rfl
@[simp] theorem Team.setG_record (t : Team) (l : Nat) (g : Word32) : (t.setG l g).record = t.record := rfl
@[simp] theorem Team.setG_recAddr (t : Team) (l : Nat) (g : Word32) : (t.setG l g).recAddr = t.recAddr := rfl
@[simp] theorem Team.setG_joins (t : Team) (l : Nat) (g : Word32) : (t.setG l g).joins = t.joins := rfl
@[simp] theorem Team.setG_sreg (t : Team) (l : Nat) (g : Word32) : (t.setG l g).sreg = t.sreg := rfl
@[simp] theorem Team.setG_vreg (t : Team) (l : Nat) (g : Word32) : (t.setG l g).vreg = t.vreg := rfl
@[simp] theorem Team.setG_mask (t : Team) (l : Nat) (g : Word32) : (t.setG l g).mask = t.mask := rfl
@[simp] theorem Team.setG_empty (t : Team) (l : Nat) (g : Word32) : (t.setG l g).empty = t.empty := rfl
@[simp] theorem Team.setG_tag (t : Team) (l : Nat) (g : Word32) : (t.setG l g).tag = t.tag := rfl
@[simp] theorem Team.setG_genSeed (t : Team) (l : Nat) (g : Word32) : (t.setG l g).genSeed = t.genSeed := rfl
@[simp] theorem Team.setG_div (t : Team) (l : Nat) (g : Word32) : (t.setG l g).div = t.div := rfl
@[simp] theorem Team.setG_ret (t : Team) (l : Nat) (g : Word32) : (t.setG l g).ret = t.ret := rfl
@[simp] theorem Team.setG_rp (t : Team) (l : Nat) (g : Word32) : (t.setG l g).rp = t.rp := rfl
@[simp] theorem Team.setG_spBase (t : Team) (l : Nat) (g : Word32) : (t.setG l g).spBase = t.spBase := rfl
@[simp] theorem Team.setG_spPtr (t : Team) (l : Nat) (g : Word32) : (t.setG l g).spPtr = t.spPtr := rfl
@[simp] theorem Team.setG_ndsp (t : Team) (l : Nat) (g : Word32) : (t.setG l g).ndsp = t.ndsp := rfl
@[simp] theorem Team.setG_nrsp (t : Team) (l : Nat) (g : Word32) : (t.setG l g).nrsp = t.nrsp := rfl
@[simp] theorem Team.setG_fp (t : Team) (l : Nat) (g : Word32) : (t.setG l g).fp = t.fp := rfl
@[simp] theorem Team.setG_stk (t : Team) (l : Nat) (g : Word32) : (t.setG l g).stk = t.stk := rfl
@[simp] theorem Team.setG_flags (t : Team) (l : Nat) (g : Word32) : (t.setG l g).flags = t.flags := rfl
@[simp] theorem Team.setG_fctl (t : Team) (l : Nat) (g : Word32) : (t.setG l g).fctl = t.fctl := rfl
@[simp] theorem Team.setG_iwarn (t : Team) (l : Nat) (g : Word32) : (t.setG l g).iwarn = t.iwarn := rfl
@[simp] theorem Team.setG_mbound (t : Team) (l : Nat) (g : Word32) : (t.setG l g).mbound = t.mbound := rfl
@[simp] theorem Team.setG_tile (t : Team) (l : Nat) (g : Word32) : (t.setG l g).tile = t.tile := rfl
@[simp] theorem Team.setG_gang (t : Team) (l : Nat) (g : Word32) : (t.setG l g).gang = t.gang := rfl
@[simp] theorem Team.setG_allow (t : Team) (l : Nat) (g : Word32) : (t.setG l g).allow = t.allow := rfl
@[simp] theorem Team.setG_closed (t : Team) (l : Nat) (g : Word32) : (t.setG l g).closed = t.closed := rfl
@[simp] theorem Team.setG_done (t : Team) (l : Nat) (g : Word32) : (t.setG l g).done = t.done := rfl
@[simp] theorem Team.setG_slim (t : Team) (l : Nat) (g : Word32) : (t.setG l g).slim = t.slim := rfl
@[simp] theorem Team.setG_tvec (t : Team) (l : Nat) (g : Word32) : (t.setG l g).tvec = t.tvec := rfl
@[simp] theorem Team.setG_tcause (t : Team) (l : Nat) (g : Word32) : (t.setG l g).tcause = t.tcause := rfl
@[simp] theorem Team.setG_tepc (t : Team) (l : Nat) (g : Word32) : (t.setG l g).tepc = t.tepc := rfl
@[simp] theorem Team.setG_tmask (t : Team) (l : Nat) (g : Word32) : (t.setG l g).tmask = t.tmask := rfl
@[simp] theorem Team.setG_acc0 (t : Team) (l : Nat) (g : Word32) : (t.setG l g).acc0 = t.acc0 := rfl
@[simp] theorem Team.setG_acc1 (t : Team) (l : Nat) (g : Word32) : (t.setG l g).acc1 = t.acc1 := rfl
@[simp] theorem Team.setG_holder (t : Team) (l : Nat) (g : Word32) : (t.setG l g).holder = t.holder := rfl
@[simp] theorem Team.setG_matq (t : Team) (l : Nat) (g : Word32) : (t.setG l g).matq = t.matq := rfl
@[simp] theorem Team.setG_prods (t : Team) (l : Nat) (g : Word32) : (t.setG l g).prods = t.prods := rfl
@[simp] theorem Team.setG_wait (t : Team) (l : Nat) (g : Word32) : (t.setG l g).wait = t.wait := rfl
@[simp] theorem Team.setG_arr (t : Team) (l : Nat) (g : Word32) : (t.setG l g).arr = t.arr := rfl
@[simp] theorem Team.setG_prow (t : Team) (l : Nat) (g : Word32) : (t.setG l g).prow = t.prow := rfl
@[simp] theorem Team.setG_exc (t : Team) (l : Nat) (g : Word32) : (t.setG l g).exc = t.exc := rfl
@[simp] theorem Team.setG_excFlags (t : Team) (l : Nat) (g : Word32) : (t.setG l g).excFlags = t.excFlags := rfl
@[simp] theorem Team.setG_fseq (t : Team) (l : Nat) (g : Word32) : (t.setG l g).fseq = t.fseq := rfl
@[simp] theorem Team.setG_cause (t : Team) (l : Nat) (g : Word32) : (t.setG l g).cause = t.cause := rfl
@[simp] theorem Team.setG_nsave (t : Team) (l : Nat) (g : Word32) : (t.setG l g).nsave = t.nsave := rfl
@[simp] theorem Team.setG_frameSlot (t : Team) (l : Nat) (g : Word32) : (t.setG l g).frameSlot = t.frameSlot := rfl
@[simp] theorem Team.setG_children (t : Team) (l : Nat) (g : Word32) : (t.setG l g).children = t.children := rfl
@[simp] theorem Team.setG_sliceStart (t : Team) (l : Nat) (g : Word32) : (t.setG l g).sliceStart = t.sliceStart := rfl
@[simp] theorem Team.setG_owed (t : Team) (l : Nat) (g : Word32) : (t.setG l g).owed = t.owed := rfl
@[simp] theorem Team.setG_badWords (t : Team) (l : Nat) (g : Word32) : (t.setG l g).badWords = t.badWords := rfl
@[simp] theorem Team.setG_pool (t : Team) (l : Nat) (g : Word32) : (t.setG l g).pool = t.pool := rfl
@[simp] theorem Team.setG_emitters (t : Team) (l : Nat) (g : Word32) : (t.setG l g).emitters = t.emitters := rfl
@[simp] theorem Team.setG_emit (t : Team) (l : Nat) (g : Word32) : (t.setG l g).emit = t.emit := rfl

@[simp] theorem Team.warn_status (t : Team) (b : Nat) : (t.warn b).status = t.status := rfl
@[simp] theorem Team.warn_launch (t : Team) (b : Nat) : (t.warn b).launch = t.launch := rfl
@[simp] theorem Team.warn_die (t : Team) (b : Nat) : (t.warn b).die = t.die := rfl
@[simp] theorem Team.warn_group (t : Team) (b : Nat) : (t.warn b).group = t.group := rfl
@[simp] theorem Team.warn_dix (t : Team) (b : Nat) : (t.warn b).dix = t.dix := rfl
@[simp] theorem Team.warn_gix (t : Team) (b : Nat) : (t.warn b).gix = t.gix := rfl
@[simp] theorem Team.warn_tix (t : Team) (b : Nat) : (t.warn b).tix = t.tix := rfl
@[simp] theorem Team.warn_ndie (t : Team) (b : Nat) : (t.warn b).ndie = t.ndie := rfl
@[simp] theorem Team.warn_ngrp (t : Team) (b : Nat) : (t.warn b).ngrp = t.ngrp := rfl
@[simp] theorem Team.warn_nteam (t : Team) (b : Nat) : (t.warn b).nteam = t.nteam := rfl
@[simp] theorem Team.warn_cluster (t : Team) (b : Nat) : (t.warn b).cluster = t.cluster := rfl
@[simp] theorem Team.warn_core (t : Team) (b : Nat) : (t.warn b).core = t.core := rfl
@[simp] theorem Team.warn_slot (t : Team) (b : Nat) : (t.warn b).slot = t.slot := rfl
@[simp] theorem Team.warn_lanes (t : Team) (b : Nat) : (t.warn b).lanes = t.lanes := rfl
@[simp] theorem Team.warn_vregs (t : Team) (b : Nat) : (t.warn b).vregs = t.vregs := rfl
@[simp] theorem Team.warn_depth (t : Team) (b : Nat) : (t.warn b).depth = t.depth := rfl
@[simp] theorem Team.warn_record (t : Team) (b : Nat) : (t.warn b).record = t.record := rfl
@[simp] theorem Team.warn_recAddr (t : Team) (b : Nat) : (t.warn b).recAddr = t.recAddr := rfl
@[simp] theorem Team.warn_joins (t : Team) (b : Nat) : (t.warn b).joins = t.joins := rfl
@[simp] theorem Team.warn_sreg (t : Team) (b : Nat) : (t.warn b).sreg = t.sreg := rfl
@[simp] theorem Team.warn_vreg (t : Team) (b : Nat) : (t.warn b).vreg = t.vreg := rfl
@[simp] theorem Team.warn_mask (t : Team) (b : Nat) : (t.warn b).mask = t.mask := rfl
@[simp] theorem Team.warn_empty (t : Team) (b : Nat) : (t.warn b).empty = t.empty := rfl
@[simp] theorem Team.warn_tag (t : Team) (b : Nat) : (t.warn b).tag = t.tag := rfl
@[simp] theorem Team.warn_genSeed (t : Team) (b : Nat) : (t.warn b).genSeed = t.genSeed := rfl
@[simp] theorem Team.warn_gen (t : Team) (b : Nat) : (t.warn b).gen = t.gen := rfl
@[simp] theorem Team.warn_div (t : Team) (b : Nat) : (t.warn b).div = t.div := rfl
@[simp] theorem Team.warn_ret (t : Team) (b : Nat) : (t.warn b).ret = t.ret := rfl
@[simp] theorem Team.warn_rp (t : Team) (b : Nat) : (t.warn b).rp = t.rp := rfl
@[simp] theorem Team.warn_spBase (t : Team) (b : Nat) : (t.warn b).spBase = t.spBase := rfl
@[simp] theorem Team.warn_spPtr (t : Team) (b : Nat) : (t.warn b).spPtr = t.spPtr := rfl
@[simp] theorem Team.warn_ndsp (t : Team) (b : Nat) : (t.warn b).ndsp = t.ndsp := rfl
@[simp] theorem Team.warn_nrsp (t : Team) (b : Nat) : (t.warn b).nrsp = t.nrsp := rfl
@[simp] theorem Team.warn_fp (t : Team) (b : Nat) : (t.warn b).fp = t.fp := rfl
@[simp] theorem Team.warn_stk (t : Team) (b : Nat) : (t.warn b).stk = t.stk := rfl
@[simp] theorem Team.warn_flags (t : Team) (b : Nat) : (t.warn b).flags = t.flags := rfl
@[simp] theorem Team.warn_fctl (t : Team) (b : Nat) : (t.warn b).fctl = t.fctl := rfl
@[simp] theorem Team.warn_mbound (t : Team) (b : Nat) : (t.warn b).mbound = t.mbound := rfl
@[simp] theorem Team.warn_tile (t : Team) (b : Nat) : (t.warn b).tile = t.tile := rfl
@[simp] theorem Team.warn_gang (t : Team) (b : Nat) : (t.warn b).gang = t.gang := rfl
@[simp] theorem Team.warn_allow (t : Team) (b : Nat) : (t.warn b).allow = t.allow := rfl
@[simp] theorem Team.warn_closed (t : Team) (b : Nat) : (t.warn b).closed = t.closed := rfl
@[simp] theorem Team.warn_done (t : Team) (b : Nat) : (t.warn b).done = t.done := rfl
@[simp] theorem Team.warn_slim (t : Team) (b : Nat) : (t.warn b).slim = t.slim := rfl
@[simp] theorem Team.warn_tvec (t : Team) (b : Nat) : (t.warn b).tvec = t.tvec := rfl
@[simp] theorem Team.warn_tcause (t : Team) (b : Nat) : (t.warn b).tcause = t.tcause := rfl
@[simp] theorem Team.warn_tepc (t : Team) (b : Nat) : (t.warn b).tepc = t.tepc := rfl
@[simp] theorem Team.warn_tmask (t : Team) (b : Nat) : (t.warn b).tmask = t.tmask := rfl
@[simp] theorem Team.warn_acc0 (t : Team) (b : Nat) : (t.warn b).acc0 = t.acc0 := rfl
@[simp] theorem Team.warn_acc1 (t : Team) (b : Nat) : (t.warn b).acc1 = t.acc1 := rfl
@[simp] theorem Team.warn_holder (t : Team) (b : Nat) : (t.warn b).holder = t.holder := rfl
@[simp] theorem Team.warn_matq (t : Team) (b : Nat) : (t.warn b).matq = t.matq := rfl
@[simp] theorem Team.warn_prods (t : Team) (b : Nat) : (t.warn b).prods = t.prods := rfl
@[simp] theorem Team.warn_wait (t : Team) (b : Nat) : (t.warn b).wait = t.wait := rfl
@[simp] theorem Team.warn_arr (t : Team) (b : Nat) : (t.warn b).arr = t.arr := rfl
@[simp] theorem Team.warn_prow (t : Team) (b : Nat) : (t.warn b).prow = t.prow := rfl
@[simp] theorem Team.warn_exc (t : Team) (b : Nat) : (t.warn b).exc = t.exc := rfl
@[simp] theorem Team.warn_excFlags (t : Team) (b : Nat) : (t.warn b).excFlags = t.excFlags := rfl
@[simp] theorem Team.warn_fseq (t : Team) (b : Nat) : (t.warn b).fseq = t.fseq := rfl
@[simp] theorem Team.warn_cause (t : Team) (b : Nat) : (t.warn b).cause = t.cause := rfl
@[simp] theorem Team.warn_nsave (t : Team) (b : Nat) : (t.warn b).nsave = t.nsave := rfl
@[simp] theorem Team.warn_frameSlot (t : Team) (b : Nat) : (t.warn b).frameSlot = t.frameSlot := rfl
@[simp] theorem Team.warn_children (t : Team) (b : Nat) : (t.warn b).children = t.children := rfl
@[simp] theorem Team.warn_sliceStart (t : Team) (b : Nat) : (t.warn b).sliceStart = t.sliceStart := rfl
@[simp] theorem Team.warn_owed (t : Team) (b : Nat) : (t.warn b).owed = t.owed := rfl
@[simp] theorem Team.warn_badWords (t : Team) (b : Nat) : (t.warn b).badWords = t.badWords := rfl
@[simp] theorem Team.warn_pool (t : Team) (b : Nat) : (t.warn b).pool = t.pool := rfl
@[simp] theorem Team.warn_emitters (t : Team) (b : Nat) : (t.warn b).emitters = t.emitters := rfl
@[simp] theorem Team.warn_emit (t : Team) (b : Nat) : (t.warn b).emit = t.emit := rfl

@[simp] theorem Team.setAcc_status (t : Team) (i : Nat) (a : AccSet) : (t.setAcc i a).status = t.status := by unfold Team.setAcc; split <;> rfl
@[simp] theorem Team.setAcc_launch (t : Team) (i : Nat) (a : AccSet) : (t.setAcc i a).launch = t.launch := by unfold Team.setAcc; split <;> rfl
@[simp] theorem Team.setAcc_die (t : Team) (i : Nat) (a : AccSet) : (t.setAcc i a).die = t.die := by unfold Team.setAcc; split <;> rfl
@[simp] theorem Team.setAcc_group (t : Team) (i : Nat) (a : AccSet) : (t.setAcc i a).group = t.group := by unfold Team.setAcc; split <;> rfl
@[simp] theorem Team.setAcc_dix (t : Team) (i : Nat) (a : AccSet) : (t.setAcc i a).dix = t.dix := by unfold Team.setAcc; split <;> rfl
@[simp] theorem Team.setAcc_gix (t : Team) (i : Nat) (a : AccSet) : (t.setAcc i a).gix = t.gix := by unfold Team.setAcc; split <;> rfl
@[simp] theorem Team.setAcc_tix (t : Team) (i : Nat) (a : AccSet) : (t.setAcc i a).tix = t.tix := by unfold Team.setAcc; split <;> rfl
@[simp] theorem Team.setAcc_ndie (t : Team) (i : Nat) (a : AccSet) : (t.setAcc i a).ndie = t.ndie := by unfold Team.setAcc; split <;> rfl
@[simp] theorem Team.setAcc_ngrp (t : Team) (i : Nat) (a : AccSet) : (t.setAcc i a).ngrp = t.ngrp := by unfold Team.setAcc; split <;> rfl
@[simp] theorem Team.setAcc_nteam (t : Team) (i : Nat) (a : AccSet) : (t.setAcc i a).nteam = t.nteam := by unfold Team.setAcc; split <;> rfl
@[simp] theorem Team.setAcc_cluster (t : Team) (i : Nat) (a : AccSet) : (t.setAcc i a).cluster = t.cluster := by unfold Team.setAcc; split <;> rfl
@[simp] theorem Team.setAcc_core (t : Team) (i : Nat) (a : AccSet) : (t.setAcc i a).core = t.core := by unfold Team.setAcc; split <;> rfl
@[simp] theorem Team.setAcc_slot (t : Team) (i : Nat) (a : AccSet) : (t.setAcc i a).slot = t.slot := by unfold Team.setAcc; split <;> rfl
@[simp] theorem Team.setAcc_lanes (t : Team) (i : Nat) (a : AccSet) : (t.setAcc i a).lanes = t.lanes := by unfold Team.setAcc; split <;> rfl
@[simp] theorem Team.setAcc_vregs (t : Team) (i : Nat) (a : AccSet) : (t.setAcc i a).vregs = t.vregs := by unfold Team.setAcc; split <;> rfl
@[simp] theorem Team.setAcc_depth (t : Team) (i : Nat) (a : AccSet) : (t.setAcc i a).depth = t.depth := by unfold Team.setAcc; split <;> rfl
@[simp] theorem Team.setAcc_record (t : Team) (i : Nat) (a : AccSet) : (t.setAcc i a).record = t.record := by unfold Team.setAcc; split <;> rfl
@[simp] theorem Team.setAcc_recAddr (t : Team) (i : Nat) (a : AccSet) : (t.setAcc i a).recAddr = t.recAddr := by unfold Team.setAcc; split <;> rfl
@[simp] theorem Team.setAcc_joins (t : Team) (i : Nat) (a : AccSet) : (t.setAcc i a).joins = t.joins := by unfold Team.setAcc; split <;> rfl
@[simp] theorem Team.setAcc_sreg (t : Team) (i : Nat) (a : AccSet) : (t.setAcc i a).sreg = t.sreg := by unfold Team.setAcc; split <;> rfl
@[simp] theorem Team.setAcc_vreg (t : Team) (i : Nat) (a : AccSet) : (t.setAcc i a).vreg = t.vreg := by unfold Team.setAcc; split <;> rfl
@[simp] theorem Team.setAcc_mask (t : Team) (i : Nat) (a : AccSet) : (t.setAcc i a).mask = t.mask := by unfold Team.setAcc; split <;> rfl
@[simp] theorem Team.setAcc_empty (t : Team) (i : Nat) (a : AccSet) : (t.setAcc i a).empty = t.empty := by unfold Team.setAcc; split <;> rfl
@[simp] theorem Team.setAcc_tag (t : Team) (i : Nat) (a : AccSet) : (t.setAcc i a).tag = t.tag := by unfold Team.setAcc; split <;> rfl
@[simp] theorem Team.setAcc_genSeed (t : Team) (i : Nat) (a : AccSet) : (t.setAcc i a).genSeed = t.genSeed := by unfold Team.setAcc; split <;> rfl
@[simp] theorem Team.setAcc_gen (t : Team) (i : Nat) (a : AccSet) : (t.setAcc i a).gen = t.gen := by unfold Team.setAcc; split <;> rfl
@[simp] theorem Team.setAcc_div (t : Team) (i : Nat) (a : AccSet) : (t.setAcc i a).div = t.div := by unfold Team.setAcc; split <;> rfl
@[simp] theorem Team.setAcc_ret (t : Team) (i : Nat) (a : AccSet) : (t.setAcc i a).ret = t.ret := by unfold Team.setAcc; split <;> rfl
@[simp] theorem Team.setAcc_rp (t : Team) (i : Nat) (a : AccSet) : (t.setAcc i a).rp = t.rp := by unfold Team.setAcc; split <;> rfl
@[simp] theorem Team.setAcc_spBase (t : Team) (i : Nat) (a : AccSet) : (t.setAcc i a).spBase = t.spBase := by unfold Team.setAcc; split <;> rfl
@[simp] theorem Team.setAcc_spPtr (t : Team) (i : Nat) (a : AccSet) : (t.setAcc i a).spPtr = t.spPtr := by unfold Team.setAcc; split <;> rfl
@[simp] theorem Team.setAcc_ndsp (t : Team) (i : Nat) (a : AccSet) : (t.setAcc i a).ndsp = t.ndsp := by unfold Team.setAcc; split <;> rfl
@[simp] theorem Team.setAcc_nrsp (t : Team) (i : Nat) (a : AccSet) : (t.setAcc i a).nrsp = t.nrsp := by unfold Team.setAcc; split <;> rfl
@[simp] theorem Team.setAcc_fp (t : Team) (i : Nat) (a : AccSet) : (t.setAcc i a).fp = t.fp := by unfold Team.setAcc; split <;> rfl
@[simp] theorem Team.setAcc_stk (t : Team) (i : Nat) (a : AccSet) : (t.setAcc i a).stk = t.stk := by unfold Team.setAcc; split <;> rfl
@[simp] theorem Team.setAcc_flags (t : Team) (i : Nat) (a : AccSet) : (t.setAcc i a).flags = t.flags := by unfold Team.setAcc; split <;> rfl
@[simp] theorem Team.setAcc_fctl (t : Team) (i : Nat) (a : AccSet) : (t.setAcc i a).fctl = t.fctl := by unfold Team.setAcc; split <;> rfl
@[simp] theorem Team.setAcc_iwarn (t : Team) (i : Nat) (a : AccSet) : (t.setAcc i a).iwarn = t.iwarn := by unfold Team.setAcc; split <;> rfl
@[simp] theorem Team.setAcc_mbound (t : Team) (i : Nat) (a : AccSet) : (t.setAcc i a).mbound = t.mbound := by unfold Team.setAcc; split <;> rfl
@[simp] theorem Team.setAcc_tile (t : Team) (i : Nat) (a : AccSet) : (t.setAcc i a).tile = t.tile := by unfold Team.setAcc; split <;> rfl
@[simp] theorem Team.setAcc_gang (t : Team) (i : Nat) (a : AccSet) : (t.setAcc i a).gang = t.gang := by unfold Team.setAcc; split <;> rfl
@[simp] theorem Team.setAcc_allow (t : Team) (i : Nat) (a : AccSet) : (t.setAcc i a).allow = t.allow := by unfold Team.setAcc; split <;> rfl
@[simp] theorem Team.setAcc_closed (t : Team) (i : Nat) (a : AccSet) : (t.setAcc i a).closed = t.closed := by unfold Team.setAcc; split <;> rfl
@[simp] theorem Team.setAcc_done (t : Team) (i : Nat) (a : AccSet) : (t.setAcc i a).done = t.done := by unfold Team.setAcc; split <;> rfl
@[simp] theorem Team.setAcc_slim (t : Team) (i : Nat) (a : AccSet) : (t.setAcc i a).slim = t.slim := by unfold Team.setAcc; split <;> rfl
@[simp] theorem Team.setAcc_tvec (t : Team) (i : Nat) (a : AccSet) : (t.setAcc i a).tvec = t.tvec := by unfold Team.setAcc; split <;> rfl
@[simp] theorem Team.setAcc_tcause (t : Team) (i : Nat) (a : AccSet) : (t.setAcc i a).tcause = t.tcause := by unfold Team.setAcc; split <;> rfl
@[simp] theorem Team.setAcc_tepc (t : Team) (i : Nat) (a : AccSet) : (t.setAcc i a).tepc = t.tepc := by unfold Team.setAcc; split <;> rfl
@[simp] theorem Team.setAcc_tmask (t : Team) (i : Nat) (a : AccSet) : (t.setAcc i a).tmask = t.tmask := by unfold Team.setAcc; split <;> rfl
@[simp] theorem Team.setAcc_holder (t : Team) (i : Nat) (a : AccSet) : (t.setAcc i a).holder = t.holder := by unfold Team.setAcc; split <;> rfl
@[simp] theorem Team.setAcc_matq (t : Team) (i : Nat) (a : AccSet) : (t.setAcc i a).matq = t.matq := by unfold Team.setAcc; split <;> rfl
@[simp] theorem Team.setAcc_prods (t : Team) (i : Nat) (a : AccSet) : (t.setAcc i a).prods = t.prods := by unfold Team.setAcc; split <;> rfl
@[simp] theorem Team.setAcc_wait (t : Team) (i : Nat) (a : AccSet) : (t.setAcc i a).wait = t.wait := by unfold Team.setAcc; split <;> rfl
@[simp] theorem Team.setAcc_arr (t : Team) (i : Nat) (a : AccSet) : (t.setAcc i a).arr = t.arr := by unfold Team.setAcc; split <;> rfl
@[simp] theorem Team.setAcc_prow (t : Team) (i : Nat) (a : AccSet) : (t.setAcc i a).prow = t.prow := by unfold Team.setAcc; split <;> rfl
@[simp] theorem Team.setAcc_exc (t : Team) (i : Nat) (a : AccSet) : (t.setAcc i a).exc = t.exc := by unfold Team.setAcc; split <;> rfl
@[simp] theorem Team.setAcc_excFlags (t : Team) (i : Nat) (a : AccSet) : (t.setAcc i a).excFlags = t.excFlags := by unfold Team.setAcc; split <;> rfl
@[simp] theorem Team.setAcc_fseq (t : Team) (i : Nat) (a : AccSet) : (t.setAcc i a).fseq = t.fseq := by unfold Team.setAcc; split <;> rfl
@[simp] theorem Team.setAcc_cause (t : Team) (i : Nat) (a : AccSet) : (t.setAcc i a).cause = t.cause := by unfold Team.setAcc; split <;> rfl
@[simp] theorem Team.setAcc_nsave (t : Team) (i : Nat) (a : AccSet) : (t.setAcc i a).nsave = t.nsave := by unfold Team.setAcc; split <;> rfl
@[simp] theorem Team.setAcc_frameSlot (t : Team) (i : Nat) (a : AccSet) : (t.setAcc i a).frameSlot = t.frameSlot := by unfold Team.setAcc; split <;> rfl
@[simp] theorem Team.setAcc_children (t : Team) (i : Nat) (a : AccSet) : (t.setAcc i a).children = t.children := by unfold Team.setAcc; split <;> rfl
@[simp] theorem Team.setAcc_sliceStart (t : Team) (i : Nat) (a : AccSet) : (t.setAcc i a).sliceStart = t.sliceStart := by unfold Team.setAcc; split <;> rfl
@[simp] theorem Team.setAcc_owed (t : Team) (i : Nat) (a : AccSet) : (t.setAcc i a).owed = t.owed := by unfold Team.setAcc; split <;> rfl
@[simp] theorem Team.setAcc_badWords (t : Team) (i : Nat) (a : AccSet) : (t.setAcc i a).badWords = t.badWords := by unfold Team.setAcc; split <;> rfl
@[simp] theorem Team.setAcc_pool (t : Team) (i : Nat) (a : AccSet) : (t.setAcc i a).pool = t.pool := by unfold Team.setAcc; split <;> rfl
@[simp] theorem Team.setAcc_emitters (t : Team) (i : Nat) (a : AccSet) : (t.setAcc i a).emitters = t.emitters := by unfold Team.setAcc; split <;> rfl
@[simp] theorem Team.setAcc_emit (t : Team) (i : Nat) (a : AccSet) : (t.setAcc i a).emit = t.emit := by unfold Team.setAcc; split <;> rfl

/-! ### What the updates write -/

@[simp] theorem State.setTeam_teams (s : State) (k : Nat) (t : Team) : (s.setTeam k t).teams = s.teams.set k t := rfl
@[simp] theorem State.withTeam_teams (s : State) (t : Team) : (s.withTeam t).teams = s.teams.set s.cur t := rfl
@[simp] theorem State.setCreg_ctl (s : State) (o : Nat) (v : Word64) : (s.setCreg o v).ctl = fput s.ctl (o / 8) v := rfl
@[simp] theorem State.setLaunch_launches (s : State) (l : Nat) (x : Launch) : (s.setLaunch l x).launches = s.launches.set l x := rfl
@[simp] theorem State.setGroup_groups (s : State) (g : Nat) (x : Group) : (s.setGroup g x).groups = s.groups.set g x := rfl
@[simp] theorem State.setShare_shares (s : State) (d : Nat) (x : Share) : (s.setShare d x).shares = s.shares.set d x := rfl
@[simp] theorem State.post_events (s : State) (i : Instr) (a : EvArg) : (s.post i a).events = s.events ++ [⟨i, a⟩] := rfl
@[simp] theorem Team.setS_sreg (t : Team) (r : BitVec 6) (v : Word64) : (t.setS r v).sreg = fput t.sreg r.toNat v := rfl
@[simp] theorem Team.setV_vreg (t : Team) (r l : Nat) (x : Word32) : (t.setV r l x).vreg = fput t.vreg (r * 1024 + l) x := rfl
@[simp] theorem Team.setV_badWords (t : Team) (r l : Nat) (x : Word32) :
    (t.setV r l x).badWords = t.badWords.filter (fun b => b != (r, l)) := rfl
@[simp] theorem Team.setTags_tag (t : Team) (rs : List Nat) (g : BitVec 4) : (t.setTags rs g).tag = fputAll t.tag rs (fun _ => g) := rfl
@[simp] theorem Team.setG_gen (t : Team) (l : Nat) (g : Word32) : (t.setG l g).gen = fput t.gen l g := rfl
@[simp] theorem Team.warn_iwarn (t : Team) (b : Nat) : (t.warn b).iwarn = t.iwarn ||| BitVec.ofNat 64 b := rfl
@[simp] theorem Team.advance_wait (t : Team) (n : Nat) : (t.advance n).wait = .none := rfl
@[simp] theorem Team.advance_arr (t : Team) (n : Nat) : (t.advance n).arr = false := rfl
@[simp] theorem Team.advance_prow (t : Team) (n : Nat) : (t.advance n).prow = none := rfl
@[simp] theorem Team.advance_div (t : Team) (n : Nat) : (t.advance n).div = (t.setPc (t.pc + BitVec.ofNat 64 n)).div := rfl

/-- A divergence stack whose top entry has another PC. -/
def movePc (d : List DivEntry) (a : BitVec 64) : List DivEntry :=
  match d with
  | [] => [⟨a, 0, noAddr⟩]
  | e :: r => { e with pc := a } :: r

/-- Setting the PC changes the divergence stack alone. -/
theorem Team.setPc_eq (t : Team) (a : BitVec 64) : t.setPc a = { t with div := movePc t.div a } := by
  unfold Team.setPc movePc; split <;> simp_all

/-- The PC after it is set. -/
@[simp] theorem Team.setPc_pc (t : Team) (a : BitVec 64) : (t.setPc a).pc = a := by
  unfold Team.setPc Team.pc Team.top; split <;> rfl

/-- Setting the PC of a team whose divergence stack holds an entry keeps its mask. -/
theorem Team.setPc_exec (t : Team) (a : BitVec 64) (h : t.div ≠ []) : (t.setPc a).exec = t.exec := by
  unfold Team.setPc Team.exec Team.top; split <;> simp_all

/-! ### The executing team -/

/-- The team put back is the team found, where the executing team exists. -/
theorem State.team_withTeam (s : State) (t : Team) (h : s.cur < s.teams.length) : (s.withTeam t).team = t := by
  simp [State.team, State.teamAt, h]

/-- A team put back is found at its number, where that exists. -/
theorem State.teamAt_setTeam (s : State) (k j : Nat) (t : Team) (h : k < s.teams.length) :
    (s.setTeam k t).teamAt j = if j = k then t else s.teamAt j := by
  by_cases hj : j = k
  · subst hj; simp [State.teamAt, h]
  · simp [State.teamAt, Ne.symm hj, hj]

/-- Putting a team back twice keeps the second. -/
@[simp] theorem State.withTeam_withTeam (s : State) (t u : Team) : (s.withTeam t).withTeam u = s.withTeam u := by
  simp [State.withTeam, State.setTeam]

/-- The team put back where nothing about it changed. -/
theorem State.withTeam_self (s : State) (h : s.cur < s.teams.length) : s.withTeam s.team = s := by
  simp only [State.withTeam, State.setTeam, State.team, State.teamAt]
  simp [h]

end Sys2Proof.Machine
end

