-- ==== Sys2Proof/Laws/Store.lean ====
section
/-! SUPPORT. The laws of the sparse maps and of memory: what a read gives after a write, and that every write keeps the
canonical form. -/

namespace Sys2Proof.Machine

/-! ### Sparse maps -/

@[simp] theorem fget_nil {α : Type} (d : α) (k : Nat) : fget d [] k = d := rfl

/-- Read after write, in any map. -/
@[simp] theorem fget_fput {α : Type} (d : α) (m : FMap α) (k j : Nat) (v : α) :
    fget d (fput m k v) j = if j = k then v else fget d m j := by
  induction m with
  | nil =>
    simp only [fput, fget]
    by_cases h : j = k
    · simp [h]
    · simp [h]
  | cons e r ih =>
    obtain ⟨i, w⟩ := e
    by_cases h1 : k < i
    · by_cases h : j = k
      · subst h; simp [fput, fget, h1]
      · by_cases h2 : j < k
        · have : j < i := by omega
          simp [fput, fget, h1, h, h2, this]
        · simp [fput, fget, h1, h, h2]
    · by_cases h2 : k = i
      · subst h2
        by_cases h : j = k
        · subst h; simp [fput, fget]
        · simp [fput, fget, h]
      · by_cases h3 : j < i
        · have : ¬ j = k := by omega
          simp [fput, fget, h1, h2, h3, this]
        · by_cases h4 : j = i
          · have : ¬ j = k := by omega
            subst h4
            simp [fput, fget, h1, h2, this]
          · simp [fput, fget, h1, h2, h3, h4, ih]

/-- Read after the writes of a list of keys. -/
theorem fget_fputAll {α : Type} (d : α) (ks : List Nat) (f : Nat → α) (m : FMap α) (j : Nat) :
    fget d (fputAll m ks f) j = if j ∈ ks then f j else fget d m j := by
  unfold fputAll
  induction ks generalizing m with
  | nil => simp
  | cons k r ih =>
    simp only [List.foldl_cons, ih, fget_fput, List.mem_cons]
    by_cases h : j ∈ r
    · simp [h]
    · by_cases h2 : j = k
      · subst h2; simp
      · simp [h, h2]

/-- Read after the writes of a list of (key, value) pairs: the last pair of the key, if there is one. -/
theorem fget_writes {α : Type} (d : α) (ws : List (Nat × α)) (m : FMap α) (j : Nat) :
    fget d (ws.foldl (fun m (x : Nat × α) => fput m x.1 x.2) m) j =
      match ws.reverse.find? (fun x => x.1 == j) with
      | some x => x.2
      | none => fget d m j := by
  induction ws generalizing m with
  | nil => simp
  | cons w r ih =>
    simp only [List.foldl_cons, ih, List.reverse_cons, List.find?_append]
    cases h : r.reverse.find? (fun x => x.1 == j) with
    | some x => simp
    | none =>
      by_cases h2 : w.1 = j
      · simp [h2]
      · have h3 : ¬ j = w.1 := fun e => h2 e.symm
        simp [h2, h3]

/-- Writes of other keys leave a key alone. -/
theorem fget_writes_other {α : Type} (d : α) (ws : List (Nat × α)) (m : FMap α) (j : Nat) (h : ∀ x ∈ ws, x.1 ≠ j) :
    fget d (ws.foldl (fun m (x : Nat × α) => fput m x.1 x.2) m) j = fget d m j := by
  rw [fget_writes]
  have : ws.reverse.find? (fun x => x.1 == j) = none := by
    simp only [List.find?_eq_none, List.mem_reverse]
    intro x hx; simp [h x hx]
  rw [this]

/-! ### Memory -/

theorem Memory.rising_mono (m : Memory) (a b : Nat) (h : Memory.rising b m = true) (hab : a ≤ b) :
    Memory.rising a m = true := by
  cases m with
  | nil => rfl
  | cons e r =>
    obtain ⟨i, w⟩ := e
    simp only [Memory.rising, Bool.and_eq_true, decide_eq_true_eq] at h ⊢
    exact ⟨by omega, h.2⟩

theorem Memory.rising_write (m : Memory) (lo a : Nat) (b : Byte) (h : Memory.rising lo m = true) (hlo : lo ≤ a) :
    Memory.rising lo (Memory.write m a b) = true := by
  induction m generalizing lo with
  | nil =>
    simp only [Memory.write]
    split
    · rfl
    · simp [Memory.rising, hlo]
  | cons e r ih =>
    obtain ⟨i, w⟩ := e
    simp only [Memory.rising, Bool.and_eq_true, decide_eq_true_eq] at h
    simp only [Memory.write]
    split
    · split
      · simp [Memory.rising, h]
      · simp only [Memory.rising, Bool.and_eq_true, decide_eq_true_eq]
        exact ⟨hlo, by omega, h.2⟩
    · split
      · split
        · exact Memory.rising_mono r lo (i + 1) h.2 (by omega)
        · simp only [Memory.rising, Bool.and_eq_true, decide_eq_true_eq]
          refine ⟨hlo, ?_⟩
          have : a = i := by assumption
          rw [this]; exact h.2
      · simp only [Memory.rising, Bool.and_eq_true, decide_eq_true_eq]
        exact ⟨h.1, ih (i + 1) h.2 (by omega)⟩

theorem Memory.all_write (m : Memory) (a : Nat) (b : Byte) (h : m.all (fun c => c.2 != Memory.unlisted) = true) :
    (Memory.write m a b).all (fun c => c.2 != Memory.unlisted) = true := by
  induction m with
  | nil =>
    simp only [Memory.write]
    split
    · rfl
    · simpa using by assumption
  | cons e r ih =>
    obtain ⟨i, w⟩ := e
    simp only [List.all_cons, Bool.and_eq_true] at h
    simp only [Memory.write]
    split
    · split
      · simp only [List.all_cons, Bool.and_eq_true]; exact h
      · simp only [List.all_cons, Bool.and_eq_true]
        exact ⟨by simpa using by assumption, h⟩
    · split
      · split
        · exact h.2
        · simp only [List.all_cons, Bool.and_eq_true]
          exact ⟨by simpa using by assumption, h.2⟩
      · simp only [List.all_cons, Bool.and_eq_true]
        exact ⟨h.1, ih h.2⟩

/-- A write keeps the canonical form. -/
theorem Memory.wf_write (m : Memory) (a : Nat) (b : Byte) (h : m.wf = true) : (m.write a b).wf = true := by
  simp only [Memory.wf, Bool.and_eq_true] at h ⊢
  exact ⟨Memory.rising_write m 0 a b h.1 (Nat.zero_le a), Memory.all_write m a b h.2⟩

/-- A write of consecutive bytes keeps the canonical form. -/
theorem Memory.wf_writes (m : Memory) (a : Nat) (bs : List Byte) (h : m.wf = true) : (m.writes a bs).wf = true := by
  induction bs generalizing m a with
  | nil => exact h
  | cons b r ih => exact ih (m.write a b) (a + 1) (Memory.wf_write m a b h)

/-- A write of a little-endian word keeps the canonical form. -/
theorem Memory.wf_writeLe (m : Memory) (a n v : Nat) (h : m.wf = true) : (m.writeLe a n v).wf = true :=
  Memory.wf_writes m a _ h

theorem Memory.read_below (m : Memory) (lo a : Nat) (h : Memory.rising lo m = true) (ha : a < lo) :
    Memory.read m a = Memory.unlisted := by
  cases m with
  | nil => rfl
  | cons e r =>
    obtain ⟨i, w⟩ := e
    simp only [Memory.rising, Bool.and_eq_true, decide_eq_true_eq] at h
    have : a < i := by omega
    simp [Memory.read, fget, this]

theorem Memory.read_write_rising (m : Memory) (lo a j : Nat) (b : Byte) (h : Memory.rising lo m = true) :
    Memory.read (Memory.write m a b) j = if j = a then b else Memory.read m j := by
  induction m generalizing lo with
  | nil =>
    simp only [Memory.write]
    split
    · next hb => subst hb; by_cases hj : j = a <;> simp [Memory.read, fget, hj]
    · by_cases hj : j = a
      · simp [Memory.read, fget, hj]
      · simp [Memory.read, fget, hj]
  | cons e r ih =>
    obtain ⟨i, w⟩ := e
    simp only [Memory.rising, Bool.and_eq_true, decide_eq_true_eq] at h
    simp only [Memory.write]
    by_cases h1 : a < i
    · simp only [h1, if_true]
      by_cases hb : b = Memory.unlisted
      · simp only [hb, if_true]
        by_cases hj : j = a
        · subst hj; simp [Memory.read, fget, h1]
        · simp [hj]
      · simp only [hb, if_false]
        by_cases hj : j = a
        · subst hj; simp [Memory.read, fget]
        · by_cases h2 : j < a
          · have : j < i := by omega
            simp [Memory.read, fget, hj, h2, this]
          · simp [Memory.read, fget, hj, h2]
    · simp only [h1, if_false]
      by_cases h2 : a = i
      · subst h2
        simp only [if_true]
        by_cases hb : b = Memory.unlisted
        · simp only [hb, if_true]
          by_cases hj : j = a
          · subst hj; simp only [if_true]; exact Memory.read_below r (j + 1) j h.2 (by omega)
          · simp only [hj, if_false]
            by_cases h3 : j < a
            · rw [Memory.read_below r (a + 1) j h.2 (by omega)]; simp [Memory.read, fget, h3]
            · simp [Memory.read, fget, h3, hj]
        · simp only [hb, if_false]
          by_cases hj : j = a
          · subst hj; simp [Memory.read, fget]
          · simp [Memory.read, fget, hj]
      · simp only [h2, if_false]
        by_cases h3 : j < i
        · have : ¬ j = a := by omega
          simp [Memory.read, fget, h3, this]
        · by_cases h4 : j = i
          · have : ¬ j = a := by omega
            subst h4; simp [Memory.read, fget, this]
          · have := ih (i + 1) h.2
            simp only [Memory.read] at this ⊢
            simp [fget, h3, h4, this]

/-- Read after write in canonical memory. -/
theorem Memory.read_write (m : Memory) (a j : Nat) (b : Byte) (h : m.wf = true) :
    (m.write a b).read j = if j = a then b else m.read j := by
  simp only [Memory.wf, Bool.and_eq_true] at h
  exact Memory.read_write_rising m 0 a j b h.1

/-- Read after a write of consecutive bytes: outside them nothing changed, inside them the byte written. -/
theorem Memory.read_writes (m : Memory) (a j : Nat) (bs : List Byte) (h : m.wf = true) :
    (m.writes a bs).read j = if a ≤ j ∧ j < a + bs.length then bs.getD (j - a) 0 else m.read j := by
  induction bs generalizing m a with
  | nil =>
    have : ¬ (a ≤ j ∧ j < a) := by omega
    simp [Memory.writes, this]
  | cons b r ih =>
    simp only [Memory.writes]
    rw [ih (m.write a b) (a + 1) (Memory.wf_write m a b h), Memory.read_write m a j b h]
    by_cases h1 : j = a
    · subst h1
      have h2 : ¬ (j + 1 ≤ j ∧ j < j + 1 + r.length) := by omega
      have h3 : j ≤ j ∧ j < j + (b :: r).length := by simp
      rw [if_neg h2, if_pos h3]; simp
    · by_cases h2 : a + 1 ≤ j ∧ j < a + 1 + r.length
      · have h3 : a ≤ j ∧ j < a + (b :: r).length := by simp; omega
        rw [if_pos h2, if_pos h3]
        have : j - a = (j - (a + 1)) + 1 := by omega
        rw [this]; simp
      · have h3 : ¬ (a ≤ j ∧ j < a + (b :: r).length) := by simp; omega
        rw [if_neg h2, if_neg h3]; simp [h1]

/-! ### Little-endian words -/

@[simp] theorem leBytes_length (n v : Nat) : (leBytes n v).length = n := by
  induction n generalizing v with
  | zero => rfl
  | succ n ih => simp [leBytes, ih]

/-- The number of the bytes of a number. -/
theorem leNat_leBytes (n v : Nat) : leNat (leBytes n v) = v % 256 ^ n := by
  induction n generalizing v with
  | zero => simp [leBytes, leNat, Nat.mod_one]
  | succ n ih =>
    simp only [leBytes, leNat, ih, BitVec.toNat_ofNat]
    have : v % 256 ^ (n + 1) = v % 256 + 256 * (v / 256 % 256 ^ n) := by
      rw [Nat.pow_succ', Nat.mod_mul]
    rw [this]

/-- The word read where it was written. -/
theorem Memory.readLe_writeLe (m : Memory) (a n v : Nat) (h : m.wf = true) : (m.writeLe a n v).readLe a n = v % 256 ^ n := by
  have : (m.writeLe a n v).reads a n = leBytes n v := by
    apply List.ext_getElem
    · simp [Memory.reads]
    · intro i h1 h2
      simp only [Memory.reads, List.length_map, List.length_range] at h1
      simp only [Memory.reads, List.getElem_map, List.getElem_range, Memory.writeLe]
      rw [Memory.read_writes m a (a + i) (leBytes n v) h]
      have h3 : a ≤ a + i ∧ a + i < a + (leBytes n v).length := by simp; omega
      rw [if_pos h3]
      have : a + i - a = i := by omega
      rw [this, List.getD_eq_getElem?_getD, List.getElem?_eq_getElem h2]; rfl
  rw [Memory.readLe, this, leNat_leBytes]

end Sys2Proof.Machine
end

