-- ==== Sys2Proof/Laws/Physical.lean ====
section
/-! SUPPORT. What physical memory's operations change, in the words of Safety.lean: the tier cache and the expansion of
compressed blocks move bytes, and every byte that rests holds what it held. -/

namespace Sys2Proof.Machine

/-! ### The relation -/

theorem Accessed.refl (W : Nat → Prop) (s : State) : Accessed W s s := ⟨rfl, id, fun _ _ h => ⟨h, rfl⟩⟩

theorem Accessed.trans {W : Nat → Prop} {s t u : State} (h : Accessed W s t) (h' : Accessed W t u) : Accessed W s u :=
  ⟨h'.apart.trans h.apart, fun w => h'.wf (h.wf w), fun w a r =>
    ⟨(h'.rests (h.wf w) a (h.rests w a r).1).1, ((h'.rests (h.wf w) a (h.rests w a r).1).2).trans (h.rests w a r).2⟩⟩

theorem Accessed.foldl {α : Type} {W : Nat → Prop} (f : State → α → State) (xs : List α) (s : State)
    (h : ∀ s, ∀ x ∈ xs, Accessed W s (f s x)) : Accessed W s (xs.foldl f s) := by
  induction xs generalizing s with
  | nil => exact .refl W s
  | cons x r ih => exact (h s x List.mem_cons_self).trans (ih _ fun s y hy => h s y (List.mem_cons_of_mem _ hy))

/-- Stores to bytes that wait already count as none. -/
theorem Accessed.settle {W W' : Nat → Prop} {s t : State} (h : Accessed W' s t) (hw : ∀ b, W b → W' b)
    (ha : ∀ b, W' b → W b ∨ s.awaits b) : Accessed W s t := by
  refine ⟨h.apart, h.wf, fun w a r => ?_⟩
  have r' : s.rests W' a := ⟨r.1, r.2.1, fun b hb => ⟨fun hw' => by
    rcases ha b hw' with h1 | h1
    · exact (r.2.2 b hb).1 h1
    · exact (r.2.2 b hb).2 h1, (r.2.2 b hb).2⟩⟩
  have := h.rests w a r'
  exact ⟨⟨this.1.1, this.1.2.1, fun b hb => ⟨fun hw' => (this.1.2.2 b hb).1 (hw b hw'), (this.1.2.2 b hb).2⟩⟩, this.2⟩

theorem apart_tc {s t : State} (h : t.apart = s.apart) : t.tc = s.tc := by
  have e : t.apart.ctl = s.apart.ctl := congrArg State.ctl h
  have e2 : t.ctl = s.ctl := e
  unfold State.tc State.creg
  rw [e2]

/-! ### Where things lie -/

/-- The sizes of a tier cache (12 R307). -/
def tcSizes (tc : Nat) : Prop :=
  tc = 17179869184 ∨ tc = 34359738368 ∨ tc = 68719476736 ∨ tc = 137438953472 ∨ tc = 274877906944

theorem tc_sizes (s : State) (h : s.tc ≠ 0) : tcSizes s.tc := by
  unfold State.tc tcBytes at *
  unfold tcSizes
  split at h <;> simp_all

/-- The ranges in numbers. -/
theorem physRange_eq (tc a : Nat) : physRange tc a =
    if a < 824633720832 then
      if a % 103079215104 < 103079215104 - tc / 8 then .flat (a / 103079215104) else .unmapped
    else if 1099511627776 ≤ a ∧ a < 3298534883328 then .steppe
    else if 1125899906842624 ≤ a ∧ a < 2251799813685248 then .host
    else if 2251799813685248 ≤ a ∧ a < 2392537302040576 then .peer ((a - 2251799813685248) / 17592186044416)
    else .unmapped := by
  unfold physRange
  simp only [Bool.and_eq_true, decide_eq_true_eq]
  rfl

theorem plainByte_eq (tc a : Nat) : plainByte tc a = true ↔
    (a < 824633720832 ∧ a % 103079215104 < 103079215104 - tc / 8) ∨ (1125899906842624 ≤ a ∧ a < 2251799813685248) ∨
      9007199254740992 ≤ a := by
  unfold plainByte
  rw [physRange_eq]
  have e4 : scratchKey = 9007199254740992 := by decide
  rw [e4]
  split <;> rename_i h
  · split at h
    · split at h
      · simp; omega
      · cases h
    · split at h
      · cases h
      · split at h
        · cases h
        · split at h <;> cases h
  · split at h
    · split at h <;> cases h
    · split at h
      · cases h
      · split at h
        · simp; omega
        · split at h <;> cases h
  · next x hf =>
    simp only [decide_eq_true_eq]
    constructor
    · intro h3; exact Or.inr (Or.inr h3)
    · intro h3
      rcases h3 with h3 | h3 | h3
      · exact (hf (a / 103079215104) (by rw [if_pos h3.1, if_pos h3.2])).elim
      · have a1 : ¬ a < 824633720832 := by omega
        have a2 : ¬ (1099511627776 ≤ a ∧ a < 3298534883328) := by omega
        exact (h (by rw [if_neg a1, if_neg a2, if_pos h3])).elim
      · exact h3

/-- The metadata byte of a block lies nowhere an access stores. -/
theorem meta_facts (a : Nat) (h : a < 3298534883328) :
    3298534883328 ≤ metaBase + a / 256 ∧ metaBase + a / 256 < 3311419785216 := by
  have : metaBase = 3298534883328 := by decide
  rw [this]; omega

/-- The tier cache's lines lie in the dies' memory past its plain bytes. -/
theorem tcLoc_range (tc k l o : Nat) (ht : tcSizes tc) (hk : k < tcSets tc) (ho : o < 64) :
    tcLoc tc k l + o < 824633720832 ∧ 103079215104 - tc / 8 ≤ (tcLoc tc k l + o) % 103079215104 := by
  have hl : l % 32 < 32 := Nat.mod_lt _ (by omega)
  have hd : dieSpan = 103079215104 := rfl
  unfold tcLoc
  unfold tcSets at hk
  rw [hd]
  have split : ∀ x, x < 103079215104 → k % 8 * 103079215104 + x < 824633720832 ∧ (k % 8 * 103079215104 + x) % 103079215104 = x := by
    intro x hx
    refine ⟨by omega, ?_⟩
    rw [Nat.mul_comm, Nat.mul_add_mod, Nat.mod_eq_of_lt hx]
  have hx : (103079215104 - tc / 8) + k / 8 * 2048 + l % 32 * 64 + o < 103079215104 := by
    rcases ht with rfl | rfl | rfl | rfl | rfl <;> omega
  have e : k % 8 * 103079215104 + (103079215104 - tc / 8) + k / 8 * 2048 + l % 32 * 64 + o =
      k % 8 * 103079215104 + ((103079215104 - tc / 8) + k / 8 * 2048 + l % 32 * 64 + o) := by omega
  rw [e]
  have h := split _ hx
  rw [h.2]
  exact ⟨h.1, by omega⟩

/-- The bytes that decide whether byte `a` rests: itself and its block's metadata byte. -/
def restKeys (a b : Nat) : Prop := b = a ∨ b = metaBase + a / 256

/-- They lie neither in Steppe nor in the tier cache. -/
theorem restKeys_range (tc a b : Nat) (ha : plainByte tc a = true) (hb : restKeys a b) :
    ¬ (1099511627776 ≤ b ∧ b < 3298534883328) ∧ (b < 824633720832 → b % 103079215104 < 103079215104 - tc / 8) := by
  have hm : metaBase = 3298534883328 := by decide
  rw [plainByte_eq] at ha
  rcases hb with rfl | rfl
  · omega
  · rw [hm]; omega

/-! ### Building the relation -/

theorem Accessed.mk' {W : Nat → Prop} {s s' : State} (ha : s'.apart = s.apart) (hw : s.mem.wf = true → s'.mem.wf = true)
    (hr : s.mem.wf = true → ∀ a, s.rests W a → ∀ b, restKeys a b →
      s'.mem.read b = s.mem.read b ∧ (s'.awaits b → s.awaits b)) : Accessed W s s' := by
  refine ⟨ha, hw, fun w a r => ?_⟩
  have h := hr w a r
  refine ⟨⟨by rw [apart_tc ha]; exact r.1, ?_, fun b hb => ⟨(r.2.2 b hb).1, fun e => (r.2.2 b hb).2 ((h b hb).2 e)⟩⟩, (h a (Or.inl rfl)).1⟩
  have e : s'.metaByte a = s.metaByte a := (h _ (Or.inr rfl)).1
  have := r.2.1
  unfold State.packed at this ⊢
  rw [e]; exact this

/-- Fewer bytes are stored to than `W'` names, for every byte that rests. -/
theorem Accessed.narrow {W W' : Nat → Prop} {s t : State} (h : Accessed W' s t) (hw : ∀ b, W b → W' b)
    (hr : s.mem.wf = true → ∀ a, s.rests W a → ∀ b, restKeys a b → ¬ W' b) : Accessed W s t := by
  refine ⟨h.apart, h.wf, fun w a r => ?_⟩
  have := h.rests w a ⟨r.1, r.2.1, fun b hb => ⟨hr w a r b hb, (r.2.2 b hb).2⟩⟩
  exact ⟨⟨this.1.1, this.1.2.1, fun b hb => ⟨fun hw' => (this.1.2.2 b hb).1 (hw b hw'), (this.1.2.2 b hb).2⟩⟩, this.2⟩

/-- A change of what neither memory nor a cache holds. -/
theorem Accessed.same {W : Nat → Prop} {s s' : State} (ha : s'.apart = s.apart) (hm : s'.mem = s.mem) (hl : s'.lines = s.lines)
    (hs : s'.tcSpare = s.tcSpare) : Accessed W s s' := by
  refine .mk' ha (by rw [hm]; exact id) fun _ a _ b _ => ⟨by rw [hm], ?_⟩
  unfold State.awaits State.spare
  rw [hl, hs, apart_tc ha]
  exact id

/-! ### The tier cache -/

theorem read_copyLine (m : Memory) (dst src b : Nat) (h : m.wf = true) (hb : ¬ (dst ≤ b ∧ b < dst + 64)) :
    (copyLine m dst src).read b = m.read b := by
  unfold copyLine
  rw [Memory.read_writes _ _ _ _ h]
  have : (Memory.reads m src 64).length = 64 := by simp [Memory.reads]
  rw [this]
  rw [if_neg hb]

theorem wf_copyLine (m : Memory) (dst src : Nat) (h : m.wf = true) : (copyLine m dst src).wf = true :=
  Memory.wf_writes _ _ _ h

theorem spareBits_dirty (t : Nat) : bitAt (spareBits t true false).toNat 7 = false := by
  unfold spareBits bitAt
  simp only [if_true, Bool.false_eq_true, if_false, Nat.add_zero, BitVec.toNat_ofNat]
  rw [Nat.testBit_mod_two_pow]
  have : (t * 512 + 256).testBit 7 = false := by
    rw [Nat.testBit_eq_decide_div_mod_eq]
    simp; omega
  rw [this]; simp

theorem spare_setSpare (s : State) (k l k' l' : Nat) (x : BitVec 16) :
    (s.setSpare k l x).spare k' l' = if k' * 32 + l' = k * 32 + l then x else s.spare k' l' := by
  unfold State.setSpare State.spare
  simp only [fget_fput]

/-- A line landed, with the copied memory and the words in error as names. -/
theorem landLine_eq (s : State) (k t l : Nat) :
    ∃ m p, m = copyLine s.mem (tcLoc s.tc k l) (steppeLine s.tc k t l) ∧
      s.landLine k t l = { s.setSpare k l (spareBits t true false) with mem := m, poison := p } :=
  ⟨_, copyPoison s.poison (tcLoc s.tc k l) (steppeLine s.tc k t l), rfl, by simp only [State.landLine]⟩

theorem landLine_acc (W : Nat → Prop) (s : State) (k t l : Nat) (ht : tcSizes s.tc) (hk : k < tcSets s.tc) :
    Accessed W s (s.landLine k t l) := by
  obtain ⟨m, p, hm, e⟩ := landLine_eq s k t l
  rw [e]
  refine .mk' rfl (fun h => by show m.wf = true; rw [hm]; exact wf_copyLine _ _ _ h)
    fun w a r b hb => ?_
  have hr := restKeys_range s.tc a b r.1 hb
  constructor
  · show m.read b = _
    rw [hm]
    refine read_copyLine _ _ _ _ w fun hin => ?_
    obtain ⟨o, ho⟩ : ∃ o, b = tcLoc s.tc k l + o := ⟨b - tcLoc s.tc k l, by omega⟩
    have h64 : o < 64 := by omega
    have := tcLoc_range s.tc k l o ht hk h64
    rw [← ho] at this
    have := hr.2 this.1
    omega
  · rintro (h | ⟨h0, k', l', h1, h2, h3, h4⟩)
    · exact Or.inl h
    · have e : ({ s.setSpare k l (spareBits t true false) with mem := m, poison := p } : State).spare k' l' =
          if k' * 32 + l' = k * 32 + l then spareBits t true false else s.spare k' l' := spare_setSpare s k l k' l' _
      rw [e] at h2 h3 h4
      by_cases he : k' * 32 + l' = k * 32 + l
      · rw [if_pos he, spareBits_dirty] at h3; cases h3
      · rw [if_neg he] at h2 h3 h4
        exact Or.inr ⟨h0, k', l', h1, h2, h3, h4⟩

theorem clearV (x : BitVec 16) : bitAt (x &&& 0xFEFF).toNat 8 = false := by
  unfold bitAt
  rw [BitVec.toNat_and, Nat.testBit_and]
  have : (BitVec.toNat (0xFEFF : BitVec 16)).testBit 8 = false := by decide
  rw [this]; simp

theorem steppeLine_mod (tc k t l : Nat) : steppeLine tc k t l % 64 = 0 := by
  unfold steppeLine
  have : steppeBase = 1099511627776 := by decide
  rw [this]; omega

/-- One line of a set written back and given up. -/
theorem evictOne_acc (W : Nat → Prop) (s : State) (k l : Nat) (p : List Nat) (hl : l < 32) (h0 : s.tc ≠ 0) :
    Accessed W s (((if bitAt (s.spare k l).toNat 8 && bitAt (s.spare k l).toNat 7
      then { s with mem := copyLine s.mem (steppeLine s.tc k (bitsAt (s.spare k l).toNat 9 7) l) (tcLoc s.tc k l), poison := p }
      else s)).setSpare k l (s.spare k l &&& 0xFEFF)) := by
  have aw : ∀ (u : State) b, u.tcSpare = s.tcSpare → u.lines = s.lines → u.ctl = s.ctl →
      (u.setSpare k l (s.spare k l &&& 0xFEFF)).awaits b → s.awaits b := by
    intro u b e1 e2 e3
    have etc : (u.setSpare k l (s.spare k l &&& 0xFEFF)).tc = s.tc := by
      show u.tc = s.tc
      unfold State.tc State.creg; rw [e3]
    have esp : ∀ k' l', u.spare k' l' = s.spare k' l' := by intro k' l'; unfold State.spare; rw [e1]
    rintro (⟨c, hc, h⟩ | ⟨h0, k', l', h1, h2, h3, h4⟩)
    · exact Or.inl ⟨c, e2 ▸ hc, h⟩
    · rw [etc] at h0 h4
      rw [spare_setSpare, esp] at h2 h3 h4
      by_cases he : k' * 32 + l' = k * 32 + l
      · rw [if_pos he, clearV] at h2; cases h2
      · rw [if_neg he] at h2 h3 h4
        exact Or.inr ⟨h0, k', l', h1, h2, h3, h4⟩
  by_cases hd : (bitAt (s.spare k l).toNat 8 && bitAt (s.spare k l).toNat 7) = true
  · rw [if_pos hd]
    simp only [Bool.and_eq_true] at hd
    generalize hm : copyLine s.mem (steppeLine s.tc k (bitsAt (s.spare k l).toNat 9 7) l) (tcLoc s.tc k l) = m
    refine .mk' rfl (fun h => by show m.wf = true; rw [← hm]; exact wf_copyLine _ _ _ h)
      fun w a r b hb => ⟨?_, aw { s with mem := m, poison := p } b rfl rfl rfl⟩
    show m.read b = _
    rw [← hm]
    refine read_copyLine _ _ _ _ w fun hin => (r.2.2 b hb).2 (Or.inr ⟨h0, k, l, hl, hd.1, hd.2, ?_⟩)
    have := steppeLine_mod s.tc k (bitsAt (s.spare k l).toNat 9 7) l
    omega
  · rw [if_neg hd]
    exact .mk' rfl id fun w a r b hb => ⟨rfl, aw s b rfl rfl rfl⟩

theorem evictSet_acc (W : Nat → Prop) (s : State) (k : Nat) (h0 : s.tc ≠ 0) : Accessed W s (s.evictSet k) := by
  unfold State.evictSet
  have key : ∀ (ls : List Nat), (∀ l ∈ ls, l < 32) → ∀ s : State, s.tc ≠ 0 →
      Accessed W s (ls.foldl (fun (s : State) l =>
        let x := s.spare k l
        let s := if bitAt x.toNat 8 && bitAt x.toNat 7
                 then { s with
                   mem := copyLine s.mem (steppeLine s.tc k (bitsAt x.toNat 9 7) l) (tcLoc s.tc k l)
                   poison := copyPoison s.poison (steppeLine s.tc k (bitsAt x.toNat 9 7) l) (tcLoc s.tc k l) }
                 else s
        s.setSpare k l (x &&& 0xFEFF)) s) := by
    intro ls
    induction ls with
    | nil => intro _ s _; exact .refl W s
    | cons l r ih =>
      intro hl s h0
      have h1 := evictOne_acc W s k l
        (copyPoison s.poison (steppeLine s.tc k (bitsAt (s.spare k l).toNat 9 7) l) (tcLoc s.tc k l)) (hl l List.mem_cons_self) h0
      refine h1.trans (ih (fun l h => hl l (List.mem_cons_of_mem _ h)) _ ?_)
      rw [apart_tc h1.apart]; exact h0
  exact key _ (fun l h => List.mem_range.mp h) s h0

theorem landAll_acc (W : Nat → Prop) (s : State) (k : Nat) (ht : tcSizes s.tc) (hk : k < tcSets s.tc) :
    Accessed W s (s.landAll k) := by
  unfold State.landAll
  split
  · exact .refl W s
  · next t ls _ =>
    have key : ∀ (ls : List Nat) (u : State), u.tc = s.tc → Accessed W u (ls.foldl (fun s l => s.landLine k t l) u) := by
      intro ls
      induction ls with
      | nil => intro u _; exact .refl W u
      | cons l r ih =>
        intro u hu
        have h1 := landLine_acc W u k t l (by rw [hu]; exact ht) (by rw [hu]; exact hk)
        rw [List.foldl_cons]
        exact h1.trans (ih (u.landLine k t l) ((apart_tc h1.apart).trans hu))
    have h := key ls s rfl
    generalize ls.foldl (fun s l => s.landLine k t l) s = u at h ⊢
    exact h.trans (.same rfl rfl rfl rfl)

theorem tcSets_pos (tc : Nat) (h : tcSizes tc) : 0 < tcSets tc := by
  unfold tcSets; rcases h with rfl | rfl | rfl | rfl | rfl <;> decide

theorem tcSet_lt (tc pa : Nat) (h : tcSizes tc) : tcSet tc pa < tcSets tc := Nat.mod_lt _ (tcSets_pos tc h)

theorem tcSettle_acc (W : Nat → Prop) (s : State) (k t l : Nat) (ht : tcSizes s.tc) (hk : k < tcSets s.tc) :
    Accessed W s (s.tcSettle k t l) := by
  unfold State.tcSettle
  split
  · exact .refl W s
  · split
    · exact .refl W s
    · exact landAll_acc W s _ ht hk

theorem tcFetch_acc (W : Nat → Prop) (s : State) (k t l : Nat) (ht : tcSizes s.tc) (hk : k < tcSets s.tc) :
    Accessed W s (s.tcFetch k t l) := by
  unfold State.tcFetch
  split
  · exact .refl W s
  split
  · exact landLine_acc W s k t l ht hk
  · have h0 : s.tc ≠ 0 := by rcases ht with h | h | h | h | h <;> rw [h] <;> decide
    have h1 := landAll_acc W s k ht hk
    have e1 := apart_tc h1.apart
    have h2 := evictSet_acc W (s.landAll k) k (by rw [e1]; exact h0)
    have e2 := apart_tc h2.apart
    have h3 := landLine_acc W ((s.landAll k).evictSet k) k t l (by rw [e2, e1]; exact ht) (by rw [e2, e1]; exact hk)
    have h := h1.trans (h2.trans h3)
    generalize ((s.landAll k).evictSet k).landLine k t l = u at h ⊢
    exact h.trans (.same rfl rfl rfl rfl)

theorem tcEnsure_acc (W : Nat → Prop) (s : State) (pa : Nat) : Accessed W s (s.tcEnsure pa) := by
  unfold State.tcEnsure
  by_cases h0 : s.tc = 0
  · simp only [h0, if_true]; exact .refl W s
  have ht := tc_sizes s h0
  have hk := tcSet_lt s.tc pa ht
  simp only [h0, if_false]
  have h1 := tcSettle_acc W s (tcSet s.tc pa) (tcTag s.tc pa) (tcLine pa) ht hk
  have e1 := apart_tc h1.apart
  exact h1.trans (tcFetch_acc W _ _ _ _ (by rw [e1]; exact ht) (by rw [e1]; exact hk))

/-! ### Hits after a fetch -/

theorem spareBits_hit (t : Nat) (d : Bool) (h : t < 128) : spareHit (spareBits t true d) t = true := by
  unfold spareHit spareBits bitAt bitsAt
  simp only [if_true, BitVec.toNat_ofNat, Bool.and_eq_true, beq_iff_eq]
  cases d
  · simp only [Bool.false_eq_true, if_false, Nat.add_zero]
    have : (t * 512 + 256) % 2 ^ 16 = t * 512 + 256 := Nat.mod_eq_of_lt (by omega)
    rw [this, Nat.testBit_eq_decide_div_mod_eq, Nat.shiftRight_eq_div_pow]
    simp; omega
  · simp only [if_true]
    have : (t * 512 + 256 + 128) % 2 ^ 16 = t * 512 + 256 + 128 := Nat.mod_eq_of_lt (by omega)
    rw [this, Nat.testBit_eq_decide_div_mod_eq, Nat.shiftRight_eq_div_pow]
    simp; omega

/-- After a fetch the line is there. -/
theorem tcFetch_hit (s : State) (k t l : Nat) (h : t < 128) : spareHit ((s.tcFetch k t l).spare k l) t = true := by
  unfold State.tcFetch
  have landed : ∀ u : State, spareHit ((u.landLine k t l).spare k l) t = true := fun u => by
    obtain ⟨m, p, _, e⟩ := landLine_eq u k t l
    have e2 : ({ u.setSpare k l (spareBits t true false) with mem := m, poison := p } : State).spare k l = spareBits t true false := by
      have := spare_setSpare u k l k l (spareBits t true false)
      rw [if_pos rfl] at this
      exact this
    rw [e, e2]
    exact spareBits_hit t false h
  by_cases hh : s.tcHit k t l = true
  · rw [if_pos hh]
    simp only [State.tcHit, Bool.and_eq_true] at hh
    exact hh.1
  · rw [if_neg hh]
    split
    · exact landed s
    · have h2 := landed ((s.landAll k).evictSet k)
      generalize ((s.landAll k).evictSet k).landLine k t l = u at h2 ⊢
      exact h2

/-- A Steppe address's tag, by the size of the tier cache. -/
theorem tcTag_lt (tc pa : Nat) (ht : tcSizes tc) (h1 : 1099511627776 ≤ pa) (h2 : pa < 3298534883328) : tcTag tc pa < 128 := by
  unfold tcTag sectorOf tcSets
  have : steppeBase = 1099511627776 := by decide
  rw [this]
  rcases ht with rfl | rfl | rfl | rfl | rfl <;> omega

/-- Where the line of a Steppe address lies. -/
theorem steppeLine_of (tc pa : Nat) (h1 : 1099511627776 ≤ pa) :
    steppeLine tc (tcSet tc pa) (tcTag tc pa) (tcLine pa) = pa / 64 * 64 := by
  unfold steppeLine tcSet tcTag tcLine sectorOf bitsAt
  have : steppeBase = 1099511627776 := by decide
  rw [this, Nat.shiftRight_eq_div_pow]
  have h := Nat.div_add_mod ((pa - 1099511627776) / 2048) (tcSets tc)
  rw [Nat.mul_comm] at h
  rw [h]
  omega

theorem orD (x : BitVec 16) : bitsAt (x ||| 0x80).toNat 9 7 = bitsAt x.toNat 9 7 ∧ bitAt (x ||| 0x80).toNat 8 = bitAt x.toNat 8 := by
  unfold bitsAt bitAt
  rw [BitVec.toNat_or]
  have e : BitVec.toNat (0x80 : BitVec 16) = 128 := by decide
  rw [e]
  constructor
  · rw [Nat.shiftRight_or_distrib]
    have : 128 >>> 9 = 0 := by decide
    rw [this, Nat.or_zero]
  · rw [Nat.testBit_or]
    have : Nat.testBit 128 8 = false := by decide
    rw [this, Bool.or_false]

theorem orD_dirty (x : BitVec 16) : bitAt (x ||| 0x80).toNat 7 = true := by
  unfold bitAt
  rw [BitVec.toNat_or, Nat.testBit_or]
  have : Nat.testBit (BitVec.toNat (0x80 : BitVec 16)) 7 = true := by decide
  rw [this, Bool.or_true]

/-! ### Bytes stored at their home -/

theorem writeRaw_acc (W : Nat → Prop) (s : State) (pa : Nat) (b : Byte) (hW : W pa) : Accessed W s (s.writeRaw pa b) := by
  unfold State.writeRaw
  have plain : Accessed W s { s with mem := s.mem.write pa b } := by
    refine .mk' rfl (fun h => Memory.wf_write _ _ _ h) fun w a r k hk => ⟨?_, id⟩
    show (s.mem.write pa b).read k = _
    rw [Memory.read_write _ _ _ _ w, if_neg]
    intro e
    exact (r.2.2 k hk).1 (e ▸ hW)
  split
  · next hst =>
    have hp : 1099511627776 ≤ pa ∧ pa < 3298534883328 := by
      rw [physRange_eq] at hst
      split at hst
      · split at hst <;> cases hst
      · split at hst
        · assumption
        · split at hst
          · cases hst
          · split at hst <;> cases hst
    by_cases h0 : s.tc = 0
    · have e : (s.tcEnsure pa) = s := by unfold State.tcEnsure; simp only [h0, if_true]
      have e2 : s.tcDirty pa = s := by unfold State.tcDirty; simp only [h0, if_true]
      rw [e, e2]
      have e3 : s.placeOf pa = pa := by
        unfold State.placeOf
        rw [hst]; simp only [h0, if_true]
      simp only [e3]
      exact plain
    · have h1 := tcEnsure_acc W s pa
      have et := apart_tc h1.apart
      have ht := tc_sizes s h0
      have hk := tcSet_lt s.tc pa ht
      have hit : spareHit ((s.tcEnsure pa).spare (tcSet s.tc pa) (tcLine pa)) (tcTag s.tc pa) = true := by
        unfold State.tcEnsure
        simp only [h0, if_false]
        exact tcFetch_hit _ _ _ _ (tcTag_lt _ _ ht hp.1 hp.2)
      generalize s.tcEnsure pa = u at h1 et hit ⊢
      refine h1.trans ?_
      rw [← et] at ht hk hit h0
      have etd : u.tcDirty pa = u.setSpare (tcSet u.tc pa) (tcLine pa) (u.spare (tcSet u.tc pa) (tcLine pa) ||| 0x80) := by
        unfold State.tcDirty; simp only [h0, if_false]
      have hst2 : physRange u.tc pa = .steppe := by rw [et]; exact hst
      have hbit := hit
      unfold spareHit at hbit
      simp only [Bool.and_eq_true, beq_iff_eq] at hbit
      have ep : (u.tcDirty pa).placeOf pa = tcLoc u.tc (tcSet u.tc pa) (tcLine pa) + (pa - steppeBase) % 64 := by
        have etc : (u.tcDirty pa).tc = u.tc := by rw [etd]; rfl
        unfold State.placeOf
        rw [etc, hst2]
        simp only [h0, if_false]
        rw [if_pos]
        unfold State.tcHit
        rw [etd, spare_setSpare, if_pos rfl]
        unfold spareHit
        rw [(orD _).1, (orD _).2, hbit.1, hbit.2, orD_dirty]
        simp
      show Accessed W u { u.tcDirty pa with mem := (u.tcDirty pa).mem.write ((u.tcDirty pa).placeOf pa) b }
      rw [ep, etd]
      refine .mk' (rfl) (fun h => Memory.wf_write _ _ _ h) fun w a r k hk2 => ?_
      have hr := restKeys_range u.tc a k r.1 hk2
      constructor
      · show (u.mem.write _ b).read k = _
        rw [Memory.read_write _ _ _ _ w, if_neg]
        intro e
        have := tcLoc_range u.tc (tcSet u.tc pa) (tcLine pa) ((pa - steppeBase) % 64) ht hk (Nat.mod_lt _ (by omega))
        rw [← e] at this
        have h3 := hr.2 this.1
        omega
      · rintro (h | ⟨h0', k', l', g1, g2, g3, g4⟩)
        · exact Or.inl h
        · have e : ∀ m, ({ u.setSpare (tcSet u.tc pa) (tcLine pa) (u.spare (tcSet u.tc pa) (tcLine pa) ||| 0x80) with mem := m } : State).spare k' l' =
              if k' * 32 + l' = tcSet u.tc pa * 32 + tcLine pa then u.spare (tcSet u.tc pa) (tcLine pa) ||| 0x80 else u.spare k' l' :=
            fun m => spare_setSpare u _ _ k' l' _
          rw [e] at g2 g3 g4
          by_cases he : k' * 32 + l' = tcSet u.tc pa * 32 + tcLine pa
          · have hl : tcLine pa < 32 := by unfold tcLine bitsAt; exact Nat.mod_lt _ (by decide)
            have ek : k' = tcSet u.tc pa := by omega
            have el : l' = tcLine pa := by omega
            rw [if_pos he, (orD _).1, hbit.2, ek, el] at g4
            have g5 : steppeLine u.tc (tcSet u.tc pa) (tcTag u.tc pa) (tcLine pa) = k / 64 * 64 := g4
            rw [steppeLine_of u.tc pa hp.1] at g5
            exact absurd ⟨by omega, by omega⟩ hr.1
          · rw [if_neg he] at g2 g3 g4
            exact Or.inr ⟨h0', k', l', g1, g2, g3, g4⟩
  · exact .refl W s
  · exact plain

/-- One byte of `State.mem` written under its own address. -/
theorem memWrite_acc (W : Nat → Prop) (s : State) (a : Nat) (b : Byte) (hW : W a) :
    Accessed W s { s with mem := s.mem.write a b } := by
  refine .mk' rfl (fun h => Memory.wf_write _ _ _ h) fun w x r k hk => ⟨?_, id⟩
  show (s.mem.write a b).read k = _
  rw [Memory.read_write _ _ _ _ w, if_neg]
  intro e
  exact (r.2.2 k hk).1 (e ▸ hW)

theorem memWrites_acc (W : Nat → Prop) (s : State) (a : Nat) (bs : List Byte) (hW : ∀ x, a ≤ x → x < a + bs.length → W x) :
    Accessed W s { s with mem := s.mem.writes a bs } := by
  refine .mk' rfl (fun h => Memory.wf_writes _ _ _ h) fun w x r k hk => ⟨?_, id⟩
  show (s.mem.writes a bs).read k = _
  rw [Memory.read_writes _ _ _ _ w, if_neg]
  intro e
  exact (r.2.2 k hk).1 (hW k e.1 e.2)

theorem writesRaw_acc (W : Nat → Prop) (bs : List Byte) : ∀ (s : State) (pa : Nat),
    (∀ x, pa ≤ x → x < pa + bs.length → W x) → Accessed W s (s.writesRaw pa bs) := by
  induction bs with
  | nil => intro s pa _; exact .refl W s
  | cons b r ih =>
    intro s pa h
    rw [State.writesRaw]
    refine (writeRaw_acc W s pa b (h pa (Nat.le_refl _) (by simp))).trans (ih _ _ fun x h1 h2 => h x (by omega) ?_)
    simp only [List.length_cons]; omega

theorem packed_block (s : State) (a pa : Nat) (h : pa / 256 = a / 256) : s.packed a = s.packed pa := by
  unfold State.packed State.metaByte
  rw [h]
  have : metaBase = 3298534883328 := by decide
  have : decide (a < metaBase) = decide (pa < metaBase) := by
    rw [decide_eq_decide]; omega
  rw [this]

theorem expand_acc (W : Nat → Prop) (s : State) (pa : Nat) : Accessed W s (s.expand pa) := by
  unfold State.expand
  split
  · next hp =>
    have hm : metaBase = 3298534883328 := by decide
    have hlt : pa < metaBase := by
      unfold State.packed at hp
      simp only [Bool.and_eq_true, decide_eq_true_eq] at hp
      exact hp.1
    refine Accessed.narrow (W' := fun x => W x ∨ (pa / 256 * 256 ≤ x ∧ x < pa / 256 * 256 + 256) ∨ x = metaBase + pa / 256)
      ?_ (fun b h => Or.inl h) ?_
    · generalize hb : ((List.range 256).map fun i => (s.unpackBlock pa).out.reverse.getD i 0) = bs
      have hlen : bs.length = 256 := by rw [← hb]; simp
      have h1 := writesRaw_acc (fun x => W x ∨ (pa / 256 * 256 ≤ x ∧ x < pa / 256 * 256 + 256) ∨ x = metaBase + pa / 256)
        bs s (pa / 256 * 256) (by intro x h1 h2; rw [hlen] at h2; exact Or.inr (Or.inl ⟨h1, h2⟩))
      exact h1.trans (memWrite_acc _ _ _ _ (Or.inr (Or.inr rfl)))
    · intro w a r b hb h
      have ha := r.1
      rw [plainByte_eq] at ha
      rcases h with h | h | h
      · exact (r.2.2 b hb).1 h
      · rcases hb with rfl | rfl
        · have : s.packed b = s.packed pa := packed_block s b pa (by omega)
          rw [hp, r.2.1] at this; cases this
        · rw [hm] at hlt h; omega
      · rcases hb with rfl | rfl
        · rw [hm] at hlt h; omega
        · have : s.packed a = s.packed pa := packed_block s a pa (by omega)
          rw [hp, r.2.1] at this; cases this
  · exact .refl W s

theorem writePhys_acc (W : Nat → Prop) (s : State) (pa : Nat) (b : Byte) (hW : W pa) : Accessed W s (s.writePhys pa b) :=
  (expand_acc W s pa).trans (writeRaw_acc W _ pa b hW)

theorem writesPhys_acc (W : Nat → Prop) (bs : List Byte) : ∀ (s : State) (pa : Nat),
    (∀ x, pa ≤ x → x < pa + bs.length → W x) → Accessed W s (s.writesPhys pa bs) := by
  induction bs with
  | nil => intro s pa _; exact .refl W s
  | cons b r ih =>
    intro s pa h
    rw [State.writesPhys]
    refine (writePhys_acc W s pa b (h pa (Nat.le_refl _) (by simp))).trans (ih _ _ fun x h1 h2 => h x (by omega) ?_)
    simp only [List.length_cons]; omega

theorem writePhysLe_acc (W : Nat → Prop) (s : State) (pa n v : Nat) (hW : ∀ x, pa ≤ x → x < pa + n → W x) :
    Accessed W s (s.writePhysLe pa n v) := writesPhys_acc W _ s pa (by rw [leBytes_length]; exact hW)

theorem clearPoison_acc (W : Nat → Prop) (s : State) (pa n : Nat) : Accessed W s (s.clearPoison pa n) := by
  unfold State.clearPoison
  split
  · exact .refl W s
  · exact .same rfl rfl rfl rfl

end Sys2Proof.Machine
end

