-- ==== Sys2Proof/Laws/Coherence.lean ====
section
/-! SUPPORT. What the operations of caches, homes and proxies change, in the words of Safety.lean: they move bytes that wait
to be written back, and every byte that rests holds what it held. -/

namespace Sys2Proof.Machine

/-! ### Masks -/

/-- The sum `wordsToBytes` forms over the first `n` words. -/
def wordSum (w : BitVec 16) (n : Nat) : Nat :=
  (List.range n).foldl (fun a i => if w.getLsbD i then a + 15 * 2 ^ (4 * i) else a) 0

theorem wordSum_succ (w : BitVec 16) (n : Nat) :
    wordSum w (n + 1) = 2 ^ (4 * n) * (if w.getLsbD n then 15 else 0) + wordSum w n := by
  unfold wordSum
  rw [List.range_succ, List.foldl_append]
  simp only [List.foldl_cons, List.foldl_nil]
  split
  · rw [Nat.mul_comm 15, Nat.add_comm]
  · simp

theorem wordSum_lt (w : BitVec 16) (n : Nat) : wordSum w n < 2 ^ (4 * n) := by
  induction n with
  | zero => simp [wordSum]
  | succ n ih =>
    rw [wordSum_succ]
    have : 2 ^ (4 * (n + 1)) = 2 ^ (4 * n) * 16 := by rw [Nat.mul_add, Nat.pow_add]
    rw [this]
    split <;> omega

theorem wordSum_bit (w : BitVec 16) (n i : Nat) (hi : i < 4 * n) : (wordSum w n).testBit i = w.getLsbD (i / 4) := by
  induction n with
  | zero => omega
  | succ n ih =>
    rw [wordSum_succ, Nat.testBit_two_pow_mul_add _ (wordSum_lt w n)]
    by_cases h : i < 4 * n
    · rw [if_pos h]; exact ih h
    · rw [if_neg h]
      have e : i / 4 = n := by omega
      rw [e]
      have h4 : i - 4 * n < 4 := by omega
      have key : ∀ j, j < 4 → Nat.testBit 15 j = true := by decide
      split
      · next hw => rw [key _ h4, hw]
      · next hw => simp at hw; simp [hw]

/-- A byte is in the mask of a word mask when its word is. -/
theorem wordsToBytes_bit (w : BitVec 16) (i : Nat) (hi : i < 64) : (wordsToBytes w).getLsbD i = w.getLsbD (i / 4) := by
  unfold wordsToBytes
  rw [BitVec.getLsbD_ofNat]
  have := wordSum_bit w 16 i (by omega)
  unfold wordSum at this
  rw [this]
  simp [hi]

theorem siDirty_bit (c : CLine) (i : Nat) (hi : i < 64) :
    c.siDirty.getLsbD i = (c.dirty.getLsbD i && !c.owned.getLsbD (i / 4)) := by
  unfold CLine.siDirty
  rw [BitVec.getLsbD_and, BitVec.getLsbD_not, wordsToBytes_bit _ _ hi]
  simp [hi]

theorem mem_maskBytes (m : BitVec 64) (i : Nat) : i ∈ maskBytes m ↔ i < 64 ∧ m.getLsbD i = true := by
  unfold maskBytes; rw [List.mem_filter, List.mem_range]

/-! ### Copies -/

/-- What a copy a state lists holds dirty under si waits. -/
theorem awaits_of_mem {s : State} {c : CLine} (hc : c ∈ s.lines) (i : Nat) (hi : i < 64) (h : c.siDirty.getLsbD i = true) :
    s.awaits (64 * c.line + i) := by
  refine Or.inl ⟨c, hc, by omega, ?_⟩
  have : (64 * c.line + i) % 64 = i := by omega
  rw [this]; exact h

theorem line_spec (s : State) (a : Agent) (l : Nat) :
    (s.line a l).line = l ∧ (s.line a l).agent = a ∧ (s.line a l ∈ s.lines ∨ s.line a l = noLine a l) := by
  unfold State.line
  cases h : s.lines.find? fun c => c.line == l && c.agent == a with
  | none => exact ⟨rfl, rfl, Or.inr rfl⟩
  | some c =>
    have h1 := List.find?_some h
    simp only [Bool.and_eq_true, beq_iff_eq] at h1
    exact ⟨h1.1, h1.2, Or.inl (List.mem_of_find?_eq_some h)⟩

theorem line_line (s : State) (a : Agent) (l : Nat) : (s.line a l).line = l := (line_spec s a l).1

/-- What an agent's copy holds dirty under si waits. -/
theorem awaits_line {s : State} (a : Agent) (l i : Nat) (hi : i < 64) (h : (s.line a l).siDirty.getLsbD i = true) :
    s.awaits (64 * l + i) := by
  rcases (line_spec s a l).2.2 with h1 | h1
  · have := awaits_of_mem h1 i hi h
    rw [line_line] at this; exact this
  · rw [h1] at h
    rw [siDirty_bit _ _ hi] at h
    simp [noLine] at h

/-- Bytes that waited before count as none stored to. -/
theorem Accessed.awaited {W : Nat → Prop} {s t : State} (h : Accessed (fun b => W b ∨ s.awaits b) s t) : Accessed W s t :=
  h.settle (fun _ h => Or.inl h) fun _ h => h

/-- Copies replaced: what the new ones hold dirty under si was waiting, or is stored to. -/
theorem Accessed.ofLines {W : Nat → Prop} {s : State} (ls : List CLine)
    (h : ∀ c ∈ ls, ∀ i, i < 64 → c.siDirty.getLsbD i = true → W (64 * c.line + i) ∨ s.awaits (64 * c.line + i)) :
    Accessed W s { s with lines := ls } := by
  refine .mk' rfl id fun w a r b hb => ⟨rfl, ?_⟩
  rintro (⟨c, hc, h1, h2⟩ | h1)
  · have e : 64 * c.line + b % 64 = b := by omega
    have := h c hc (b % 64) (Nat.mod_lt _ (by omega)) h2
    rw [e] at this
    rcases this with h3 | h3
    · exact absurd h3 (r.2.2 b hb).1
    · exact h3
  · exact Or.inr h1

theorem setLine_acc (W : Nat → Prop) (s : State) (c : CLine)
    (h : ∀ i, i < 64 → c.siDirty.getLsbD i = true → W (64 * c.line + i) ∨ s.awaits (64 * c.line + i)) :
    Accessed W s (s.setLine c) := by
  unfold State.setLine
  apply Accessed.ofLines
  intro x hx i hi hb
  have old : x ∈ (s.lines.filter fun x => !(x.line == c.line && x.agent == c.agent)) → _ := fun hm =>
    (Or.inr (awaits_of_mem (List.mem_filter.mp hm).1 i hi hb) : W (64 * x.line + i) ∨ s.awaits (64 * x.line + i))
  split at hx
  · exact old hx
  · rcases List.mem_append.mp hx with h1 | h1
    · exact old h1
    · have : x = c := by simpa using h1
      subst this
      exact h i hi hb

/-- A copy of which no byte becomes dirty under si that was not. -/
theorem setLine_sub (W : Nat → Prop) (s : State) (c : CLine) (a : Agent) (l : Nat) (hl : c.line = l)
    (h : ∀ i, i < 64 → c.siDirty.getLsbD i = true → (s.line a l).siDirty.getLsbD i = true) : Accessed W s (s.setLine c) :=
  setLine_acc W s c fun i hi hb => by rw [hl]; exact Or.inr (awaits_line a l i hi (h i hi hb))

theorem setEntry_acc (W : Nat → Prop) (s : State) (e : DirEntry) : Accessed W s (s.setEntry e) :=
  .same rfl rfl rfl rfl

/-! ### Merging -/

theorem watchPort_acc (W : Nat → Prop) (s : State) (p : Nat) : Accessed W s (s.watchPort p) := by
  unfold State.watchPort State.postOnce
  split
  · exact .refl W s
  · split
    · exact .refl W s
    · exact .same rfl rfl rfl rfl

theorem sendFlit_acc (W : Nat → Prop) (s : State) (p l : Nat) (m : List Byte) : Accessed W s (s.sendFlit p l m) := by
  unfold State.sendFlit
  simp only []
  split
  · exact .same rfl rfl rfl rfl
  · refine Accessed.trans ?_ (watchPort_acc W _ p)
    exact .same rfl rfl rfl rfl

theorem biReady_acc (W : Nat → Prop) (s : State) (x : List Nat) : Accessed W s { s with biReady := x } := .same rfl rfl rfl rfl

theorem askHost_acc (W : Nat → Prop) (s : State) (l want : Nat) : Accessed W s (s.askHost l want) := by
  unfold State.askHost
  split
  · exact .refl W s
  · exact .same rfl rfl rfl rfl

theorem hostMerged_acc (W : Nat → Prop) (s : State) (l : Nat) (m : BitVec 64) : Accessed W s (s.hostMerged l m) := by
  unfold State.hostMerged
  split
  · exact .refl W s
  · split
    · exact askHost_acc W s l 4
    · exact .same rfl rfl rfl rfl
    · exact .refl W s

/-- Copies changed in what waits behind their dirty bytes alone. -/
theorem behind_acc (W : Nat → Prop) (s : State) (p : CLine → Bool) (f : CLine → BitVec 512) :
    Accessed W s { s with lines := s.lines.map fun c => if p c then { c with behind := f c } else c } := by
  apply Accessed.ofLines
  intro x hx j hj hb
  obtain ⟨c, hc, rfl⟩ := List.mem_map.mp hx
  have e : (if p c = true then { c with behind := f c } else c).siDirty = c.siDirty ∧
      (if p c = true then { c with behind := f c } else c).line = c.line := by
    split <;> exact ⟨rfl, rfl⟩
  rw [e.1] at hb
  rw [e.2]
  exact Or.inr (awaits_of_mem hc j hj hb)

theorem mergeHome_acc (W : Nat → Prop) (s : State) (l : Nat) (m : BitVec 64) (d : BitVec 512)
    (h : ∀ i, i < 64 → m.getLsbD i = true → W (64 * l + i)) : Accessed W s (s.mergeHome l m d) := by
  unfold State.mergeHome
  refine (hostMerged_acc W s l m).trans (Accessed.foldl _ _ _ ?_)
  intro u i hi
  rw [mem_maskBytes] at hi
  split
  · exact behind_acc W u _ _
  · exact writePhys_acc W u _ _ (h i hi.1 hi.2)

/-- Clearing the si bytes of a copy leaves none. -/
theorem siDirty_owned (c : CLine) (i : Nat) (hi : i < 64) :
    ({ c with dirty := c.dirty &&& wordsToBytes c.owned } : CLine).siDirty.getLsbD i = false := by
  rw [siDirty_bit _ _ hi]
  simp only [BitVec.getLsbD_and, wordsToBytes_bit _ _ hi]
  cases c.owned.getLsbD (i / 4) <;> simp

theorem writeBackLlc_acc (W : Nat → Prop) (s : State) (d l : Nat) : Accessed W s (s.writeBackLlc d l) := by
  unfold State.writeBackLlc
  simp only []
  split
  · exact .refl W s
  · apply Accessed.awaited
    refine (mergeHome_acc _ s l _ _ fun i hi hb => Or.inr (awaits_line _ l i hi hb)).trans (setLine_acc _ _ _ ?_)
    intro i hi hb
    have e : (s.line (.llc d) l).cleanSi.siDirty.getLsbD i = false := siDirty_owned _ i hi
    rw [e] at hb; cases hb

/-- A byte marked dirty in a copy is stored to, or was dirty before. -/
theorem soil_acc (W : Nat → Prop) (s : State) (a : Agent) (l i : Nat) (b : Byte) (hW : W (64 * l + i)) :
    Accessed W s (s.setLine ((s.line a l).soil i b)) := by
  refine setLine_acc W s _ fun j hj hb => ?_
  have el : ((s.line a l).soil i b).line = l := line_line s a l
  rw [el]
  rw [siDirty_bit _ _ hj] at hb
  unfold CLine.soil at hb
  simp only [BitVec.getLsbD_or, BitVec.getLsbD_ofNat, Nat.testBit_two_pow] at hb
  by_cases e : i = j
  · exact Or.inl (e ▸ hW)
  · refine Or.inr (awaits_line a l j hj ?_)
    rw [siDirty_bit _ _ hj]
    simpa [e] using hb

theorem ownedPut_acc (W : Nat → Prop) (s : State) (a : Agent) (l i : Nat) (b : Byte) (hW : W (64 * l + i)) :
    Accessed W s (s.ownedPut a l i b) := by
  unfold State.ownedPut
  exact (soil_acc W s a l i _ hW).trans (writePhys_acc W _ _ _ hW)

theorem mergeOwned_acc (W : Nat → Prop) (s : State) (d l : Nat) (m : BitVec 64) (data : BitVec 512)
    (h : ∀ i, i < 64 → m.getLsbD i = true → W (64 * l + i)) : Accessed W s (s.mergeOwned d l m data) := by
  unfold State.mergeOwned
  refine Accessed.foldl _ _ s fun u i hi => ?_
  rw [mem_maskBytes] at hi
  split
  · exact soil_acc W u _ l i _ (h i hi.1 hi.2)
  · exact ownedPut_acc W u _ l i _ (h i hi.1 hi.2)

theorem mergeDie_acc (W : Nat → Prop) (s : State) (d l : Nat) (m : BitVec 64) (data : BitVec 512)
    (h : ∀ i, i < 64 → m.getLsbD i = true → W (64 * l + i)) : Accessed W s (s.mergeDie d l m data) := by
  unfold State.mergeDie
  split
  · exact mergeHome_acc W s l m data h
  · simp only []
    have h1 := mergeOwned_acc W s d l (m &&& wordsToBytes (s.line (.llc d) l).owned) data fun i hi hb => by
      rw [BitVec.getLsbD_and, Bool.and_eq_true] at hb; exact h i hi hb.1
    split
    · exact h1
    · refine h1.trans (setLine_acc _ _ _ ?_)
      intro i hi hb
      simp only [line_line]
      rw [siDirty_bit _ _ hi] at hb
      simp only [BitVec.getLsbD_or, BitVec.getLsbD_and, Bool.and_eq_true, Bool.or_eq_true] at hb
      rcases hb.1 with h2 | h2
      · refine Or.inr (awaits_line (.llc d) l i hi ?_)
        rw [siDirty_bit _ _ hi, h2, hb.2]; rfl
      · exact Or.inl (h i hi h2.1)

theorem mergeUp_acc (W : Nat → Prop) (s : State) (a : Agent) (l : Nat) (m : BitVec 64) (data : BitVec 512)
    (h : ∀ i, i < 64 → m.getLsbD i = true → W (64 * l + i)) : Accessed W s (s.mergeUp a l m data) := by
  unfold State.mergeUp
  split
  · exact mergeDie_acc W s _ l m data h
  · exact mergeHome_acc W s l m data h

theorem cleanSi_none (c : CLine) (i : Nat) (hi : i < 64) : c.cleanSi.siDirty.getLsbD i = false := siDirty_owned c i hi

theorem writeBackCore_acc (W : Nat → Prop) (s : State) (d idx l : Nat) : Accessed W s (s.writeBackCore d idx l) := by
  unfold State.writeBackCore
  simp only []
  split
  · exact .refl W s
  · have h1 : Accessed W s ((s.mergeDie d l (s.line (.core d idx) l).siDirty (s.line (.core d idx) l).data).setLine
        (s.line (.core d idx) l).cleanSi) := by
      apply Accessed.awaited
      refine (mergeDie_acc _ s d l _ _ fun i hi hb => Or.inr (awaits_line _ l i hi hb)).trans (setLine_acc _ _ _ ?_)
      intro i hi hb
      rw [cleanSi_none _ _ hi] at hb; cases hb
    split
    · exact h1.trans (writeBackLlc_acc W _ d l)
    · exact h1

theorem writeBackSi_acc (W : Nat → Prop) (s : State) (a : Agent) (l : Nat) : Accessed W s (s.writeBackSi a l) := by
  unfold State.writeBackSi
  split
  · exact writeBackCore_acc W s _ _ l
  · exact writeBackLlc_acc W s _ l
  · exact .refl W s

/-! ### Strips and invalidations -/

theorem ownedToDie_acc (W : Nat → Prop) (s : State) (a : Agent) (l : Nat) (m : BitVec 64) : Accessed W s (s.ownedToDie a l m) := by
  unfold State.ownedToDie
  split
  · split
    · exact .refl W s
    · simp only []
      split
      · exact .refl W s
      · next d _ _ _ =>
        refine setLine_sub W s _ (.llc d) l (line_line s _ l) fun i hi hb => ?_
        rw [siDirty_bit _ _ hi] at hb ⊢
        simp only [BitVec.getLsbD_or, BitVec.getLsbD_and, wordsToBytes_bit _ _ hi] at hb
        revert hb
        cases (s.line (.llc d) l).dirty.getLsbD i <;> cases (s.line (.llc d) l).owned.getLsbD (i / 4) <;> simp
  · exact .refl W s

theorem dropOwned_acc (W : Nat → Prop) (s : State) (a : Agent) (l : Nat) (R : BitVec 16) : Accessed W s (s.dropOwned a l R) := by
  unfold State.dropOwned
  simp only []
  split
  · exact .refl W s
  · refine (ownedToDie_acc W s a l (wordsToBytes R)).trans ?_
    generalize s.ownedToDie a l (wordsToBytes R) = u
    refine setLine_sub W u _ a l (line_line u a l) ?_
    intro i hi hb
    rw [siDirty_bit _ _ hi] at hb ⊢
    simp only [BitVec.getLsbD_and, BitVec.getLsbD_not, wordsToBytes_bit _ _ hi] at hb
    have h16 : i / 4 < 16 := by omega
    revert hb
    cases (u.line a l).dirty.getLsbD i <;> cases (u.line a l).owned.getLsbD (i / 4) <;> cases R.getLsbD (i / 4) <;> simp [hi, h16]

theorem dropTracked_acc (W : Nat → Prop) (s : State) (a : Agent) (l : Nat) (R : BitVec 16) : Accessed W s (s.dropTracked a l R) := by
  unfold State.dropTracked
  simp only []
  split
  · exact .refl W s
  · apply Accessed.awaited
    have hm : ∀ i, i < 64 → ((s.line a l).siDirty &&& wordsToBytes R).getLsbD i = true → s.awaits (64 * l + i) := by
      intro i hi hb
      rw [BitVec.getLsbD_and, Bool.and_eq_true] at hb
      exact awaits_line a l i hi hb.1
    have less : ∀ (W' : Nat → Prop) (u : State) (m : BitVec 64) (v : BitVec 16) (b : Bool), Accessed W' u
        (u.setLine { u.line a l with valid := v, dirty := (u.line a l).dirty &&& ~~~m, tracked := b }) := by
      intro W' u m v b
      refine setLine_sub W' u _ a l (line_line u a l) fun i hi hc => ?_
      rw [siDirty_bit _ _ hi] at hc ⊢
      simp only [BitVec.getLsbD_and] at hc
      revert hc
      cases (u.line a l).dirty.getLsbD i <;> simp
    split
    · exact less _ s _ _ _
    · exact (mergeUp_acc _ s a l _ _ fun i hi hb => Or.inr (hm i hi hb)).trans (less _ _ _ _ _)

theorem stripCores_acc (W : Nat → Prop) (s : State) (d l : Nat) (a : Option Agent) (R : BitVec 16) :
    Accessed W s (s.stripCores d l a R) := by
  unfold State.stripCores
  exact (Accessed.foldl _ _ s fun u x _ => dropOwned_acc W u _ l _).trans (setEntry_acc W _ _)

theorem invCores_acc (W : Nat → Prop) (s : State) (d l : Nat) (a : Option Agent) (R : BitVec 16) :
    Accessed W s (s.invCores d l a R) := by
  unfold State.invCores
  exact (Accessed.foldl _ _ s fun u x _ => dropTracked_acc W u _ l _).trans (setEntry_acc W _ _)

theorem untrack_acc (W : Nat → Prop) (s : State) (d l : Nat) (R : BitVec 16) : Accessed W s (s.untrack d l R) := by
  unfold State.untrack
  simp only []
  split
  · exact .refl W s
  · exact invCores_acc W s d l none _

theorem stripAgent_acc (W : Nat → Prop) (s : State) (a : Agent) (l : Nat) (R : BitVec 16) : Accessed W s (s.stripAgent a l R) := by
  unfold State.stripAgent
  split
  · exact dropOwned_acc W s _ l R
  · exact ((stripCores_acc W s _ l none R).trans (untrack_acc W _ _ l R)).trans (dropOwned_acc W _ _ l R)
  · exact .refl W s

theorem invAgent_acc (W : Nat → Prop) (s : State) (a : Agent) (l : Nat) (R : BitVec 16) : Accessed W s (s.invAgent a l R) := by
  unfold State.invAgent
  split
  · exact dropTracked_acc W s _ l R
  · exact (invCores_acc W s _ l none R).trans (dropTracked_acc W _ _ l R)
  · exact .refl W s

/-! ### Requests -/

theorem probeStrips_acc (W : Nat → Prop) (s : State) (site : Site) (l : Nat) (a : Agent) (k : ReqKind) (R : BitVec 16) :
    Accessed W s (if k.strips then
      (((s.entry site l).owners (some a) R).foldl (fun s x => s.stripAgent x.1 l x.2) s).setEntry
        (((((s.entry site l).owners (some a) R).foldl (fun s x => s.stripAgent x.1 l x.2) s).entry site l).release (some a) R).settle
      else s) := by
  split
  · exact (Accessed.foldl _ _ s fun u x _ => stripAgent_acc W u _ l _).trans (setEntry_acc W _ _)
  · exact .refl W s

theorem probes_acc (W : Nat → Prop) (s : State) (site : Site) (l : Nat) (a : Agent) (k : ReqKind) (rd : Bool) (R : BitVec 16) :
    Accessed W s (s.probes site l a k rd R) := by
  unfold State.probes
  have h1 := probeStrips_acc W s site l a k R
  simp only [] at h1 ⊢
  generalize (if k.strips = true then
      (((s.entry site l).owners (some a) R).foldl (fun s x => s.stripAgent x.1 l x.2) s).setEntry
        (((((s.entry site l).owners (some a) R).foldl (fun s x => s.stripAgent x.1 l x.2) s).entry site l).release (some a) R).settle
      else s) = u at h1 ⊢
  refine h1.trans ?_
  split
  · refine Accessed.trans ?_ (setEntry_acc W _ _)
    refine Accessed.trans ?_ (biReady_acc W _ _)
    refine Accessed.trans ?_ (Accessed.foldl _ _ _ fun v x _ => invAgent_acc W v _ l _)
    split
    · exact Accessed.foldl _ _ _ fun v x _ => invAgent_acc W v _ l _
    · exact .refl W u
  · exact .refl W u

theorem freeSlot_acc (W : Nat → Prop) (s : State) (site : Site) (l : Nat) (a : Agent) :
    Accessed W s (s.freeSlot site l a) := by
  unfold State.freeSlot
  split
  · exact (stripAgent_acc W _ _ l _).trans (setEntry_acc W _ _)
  · exact .refl W _

theorem serve_acc (W : Nat → Prop) (s : State) (site : Site) (l : Nat) (a : Agent) (k : ReqKind) (rd : Bool) (R : BitVec 16) :
    Accessed W s (s.serve site l a k rd R) := by
  unfold State.serve
  have h0 : Accessed W s (if (k.expands && decide (homeOf s.tc (64 * l) = site)) = true then s.expand (64 * l) else s) := by
    split
    · exact expand_acc W s _
    · exact .refl W s
  generalize (if (k.expands && decide (homeOf s.tc (64 * l) = site)) = true then s.expand (64 * l) else s) = v at h0 ⊢
  have h1 := h0.trans (probes_acc W v site l a k rd R)
  simp only [] at h1 ⊢
  generalize State.probes v site l a k rd R = u at h1 ⊢
  refine h1.trans ?_
  clear h0 h1
  cases k
  case getO => exact (freeSlot_acc W u site l a).trans (setEntry_acc W _ _)
  case getT => exact setEntry_acc W _ _
  case putT => exact setEntry_acc W _ _
  all_goals exact .refl W _

theorem releaseOwned_acc (W : Nat → Prop) (s : State) (site : Site) (a : Agent) (l : Nat) (R : BitVec 16) :
    Accessed W s (s.releaseOwned site a l R) := by
  unfold State.releaseOwned
  exact (stripAgent_acc W s a l R).trans (setEntry_acc W _ _)

theorem cleanOwned_acc (W : Nat → Prop) (s : State) (a : Agent) (l : Nat) (R : BitVec 16) : Accessed W s (s.cleanOwned a l R) := by
  unfold State.cleanOwned
  refine (ownedToDie_acc W s a l (wordsToBytes R)).trans ?_
  generalize s.ownedToDie a l (wordsToBytes R) = u
  refine setLine_sub W u _ a l (line_line u a l) ?_
  intro i hi hb
  rw [siDirty_bit _ _ hi] at hb ⊢
  simp only [BitVec.getLsbD_and] at hb
  revert hb
  cases (u.line a l).dirty.getLsbD i <;> simp

theorem dropSi_acc (W : Nat → Prop) (s : State) (a : Agent) (l : Nat) : Accessed W s (s.dropSi a l) := by
  unfold State.dropSi
  simp only []
  split
  · exact writeBackSi_acc W s a l
  · refine (writeBackSi_acc W s a l).trans (setLine_acc W _ _ ?_)
    intro i hi hb
    have e : ({ (State.line (s.writeBackSi a l) a l).cleanSi with
        valid := (State.line (s.writeBackSi a l) a l).valid &&& (State.line (s.writeBackSi a l) a l).owned } : CLine).siDirty.getLsbD i =
        false := siDirty_owned _ i hi
    rw [e] at hb; cases hb

/-! ### Accesses -/

theorem changePolicy_acc (W : Nat → Prop) (s : State) (site : Site) (a : Agent) (l pol : Nat) (store : Bool) (R : BitVec 16) :
    Accessed W s (s.changePolicy site a l pol store R) := by
  unfold State.changePolicy
  simp only []
  split
  · exact .refl W s
  · split
    · have h1 : Accessed W s (if (s.line a l).owned &&& R = 0 then s else s.cleanOwned a l R) := by
        split
        · exact .refl W s
        · exact cleanOwned_acc W s a l R
      split
      · exact h1.trans (writeBackSi_acc W _ a l)
      · exact h1
    · split
      · exact (dropSi_acc W s a l).trans (releaseOwned_acc W _ site a l _)
      · exact dropSi_acc W s a l

/-- Owning more words leaves fewer bytes dirty under si. -/
theorem siDirty_more (c : CLine) (o : BitVec 16) (i : Nat) (hi : i < 64) (v : BitVec 16) (data : BitVec 512) :
    ({ c with owned := c.owned ||| o, valid := v, data := data } : CLine).siDirty.getLsbD i = true → c.siDirty.getLsbD i = true := by
  rw [siDirty_bit _ _ hi, siDirty_bit _ _ hi]
  simp only [BitVec.getLsbD_or]
  cases c.dirty.getLsbD i <;> cases c.owned.getLsbD (i / 4) <;> simp

theorem install_acc (W : Nat → Prop) (s : State) (site : Site) (a : Agent) (l : Nat) (k : ReqKind) (d : BitVec 512) :
    Accessed W s (s.install site a l k d) := by
  unfold State.install
  simp only []
  split
  · exact setLine_sub W s _ a l (line_line s a l) fun i hi hb => siDirty_more _ _ i hi _ _ hb
  · exact setLine_sub W s _ a l (line_line s a l) fun i hi hb => hb
  · exact setLine_sub W s _ a l (line_line s a l) fun i hi hb => hb
  · exact setLine_sub W s _ a l (line_line s a l) fun i hi hb => hb
  · exact .refl W s

/-! ### Evictions and the ways of a last-level cache -/

theorem sendWb_acc (W : Nat → Prop) (s : State) (d l : Nat) : Accessed W s (s.sendWb d l) := by
  unfold State.sendWb
  simp only []
  refine (untrack_acc W s d l (s.line (.llc d) l).owned).trans ?_
  generalize s.untrack d l (s.line (.llc d) l).owned = u
  have h1 : Accessed W u (u.setLine
      { u.line (.llc d) l with
        owned := 0
        valid := (u.line (.llc d) l).valid &&& ~~~(u.line (.llc d) l).owned
        dirty := (u.line (.llc d) l).siDirty }) := by
    refine setLine_sub W u _ (.llc d) l (line_line u _ l) fun i hi hb => ?_
    rw [siDirty_bit _ _ hi] at hb
    simp only [Bool.and_eq_true] at hb
    exact hb.1
  refine h1.trans ?_
  unfold State.watch
  split
  · exact .same rfl rfl rfl rfl
  · exact .same rfl rfl rfl rfl

theorem evictLine_acc (W : Nat → Prop) (s : State) (c : CLine) : Accessed W s (s.evictLine c) := by
  unfold State.evictLine
  simp only []
  refine (writeBackSi_acc W s c.agent c.line).trans ?_
  generalize s.writeBackSi c.agent c.line = u
  refine Accessed.trans (t := if c.owned = 0 then u else match c.agent with
    | .llc d => if u.wbFlying c.line then u.releaseOwned (siteFor c.agent (homeOf u.tc (64 * c.line))) c.agent c.line c.owned
      else (u.stripCores d c.line none c.owned).sendWb d c.line
    | _ => u.releaseOwned (siteFor c.agent (homeOf u.tc (64 * c.line))) c.agent c.line c.owned) ?_
    (setLine_acc W _ _ fun i hi hb => by rw [siDirty_bit _ _ hi] at hb; simp at hb)
  split
  · exact .refl W u
  · split
    · split
      · exact releaseOwned_acc W u _ _ _ _
      · exact (stripCores_acc W u _ _ none _).trans (sendWb_acc W _ _ _)
    · exact releaseOwned_acc W u _ _ _ _

theorem countFill_acc (W : Nat → Prop) (s : State) (d l : Nat) : Accessed W s (s.countFill d l) := by
  unfold State.countFill
  refine Accessed.foldl _ _ s fun u i _ => ?_
  simp only []
  split
  · exact .same rfl rfl rfl rfl
  · exact .refl W u

theorem llc_acc (W : Nat → Prop) (s : State) (x : List LlcWay) : Accessed W s { s with llc := x } := .same rfl rfl rfl rfl

theorem llcPlace_acc (W : Nat → Prop) (s : State) (d l way v : Nat) : Accessed W s (s.llcPlace d l way v) := by
  unfold State.llcPlace
  simp only []
  split
  · split
    · exact .same rfl rfl rfl rfl
    · exact Accessed.trans (llc_acc W s _) (evictLine_acc W _ _)
  · exact .same rfl rfl rfl rfl

theorem llcTouch_acc (W : Nat → Prop) (s : State) (d l hint : Nat) (fill : Bool) : Accessed W s (s.llcTouch d l hint fill) := by
  unfold State.llcTouch
  simp only []
  split
  · exact .same rfl rfl rfl rfl
  · refine (countFill_acc W s d l).trans ?_
    split
    · exact llcPlace_acc W _ d l _ _
    · split
      · exact Accessed.trans (llc_acc W _ _) (llcPlace_acc W _ d l _ _)
      · exact .same rfl rfl rfl rfl

theorem peerSend_acc (W : Nat → Prop) (s : State) (p l : Nat) : Accessed W s (s.peerSend p l) := by
  unfold State.peerSend
  split
  · exact .refl W s
  · exact sendFlit_acc W s _ _ _

theorem tcTouch_acc (W : Nat → Prop) (s : State) (l : Nat) : Accessed W s (s.tcTouch l) := by
  unfold State.tcTouch
  split
  · exact tcEnsure_acc W s _
  · exact .refl W s

theorem homeTouch_acc (W : Nat → Prop) (s : State) (home : Site) (l hint : Nat) : Accessed W s (s.homeTouch home l hint) := by
  unfold State.homeTouch
  split
  · exact llcTouch_acc W s _ l hint false
  · exact peerSend_acc W s _ l
  · exact tcTouch_acc W s l

theorem installBlock_acc (W : Nat → Prop) (s : State) (home : Site) (a : Agent) (l : Nat) (k : ReqKind) :
    Accessed W s (s.installBlock home a l k) := by
  unfold State.installBlock
  refine Accessed.foldl _ _ s fun u i _ => ?_
  simp only []
  refine Accessed.trans ?_ (install_acc W _ home a _ k _)
  split
  · exact setEntry_acc W u _
  · exact .refl W u

theorem llcAccess_acc (W : Nat → Prop) (s : State) (d l pol : Nat) (store : Bool) (R : BitVec 16) (hint : Nat) (cmp : Bool) :
    Accessed W s (s.llcAccess d l pol store R hint cmp) := by
  unfold State.llcAccess
  simp only []
  have h1 := changePolicy_acc W s (homeOf s.tc (64 * l)) (.llc d) l pol store R
  generalize s.changePolicy (homeOf s.tc (64 * l)) (.llc d) l pol store R = u at h1 ⊢
  refine h1.trans ?_
  split
  · exact llcTouch_acc W u d l hint false
  · have h2 := (homeTouch_acc W u (homeOf s.tc (64 * l)) l hint).trans
      (serve_acc W _ (homeOf s.tc (64 * l)) l (.llc d) (missKind pol store) false R)
    generalize (u.homeTouch (homeOf s.tc (64 * l)) l hint).serve (homeOf s.tc (64 * l)) l (.llc d) (missKind pol store) false R = v at h2 ⊢
    refine h2.trans ?_
    have h3 : Accessed W v (if (missKind pol store).keeps = true then v.llcTouch d l hint true else v) := by
      split
      · exact llcTouch_acc W v d l hint true
      · exact .refl W v
    generalize (if (missKind pol store).keeps = true then v.llcTouch d l hint true else v) = w at h3 ⊢
    refine h3.trans ((install_acc W w (homeOf s.tc (64 * l)) (.llc d) l (missKind pol store) (w.homeData l)).trans ?_)
    split
    · exact installBlock_acc W _ _ _ l _
    · exact .refl W _

theorem coreAccess_acc (W : Nat → Prop) (s : State) (d idx l pol : Nat) (store : Bool) (R : BitVec 16) (hint : Nat)
    (cmp : Bool) : Accessed W s (s.coreAccess d idx l pol store R hint cmp) := by
  unfold State.coreAccess
  simp only []
  have h1 := changePolicy_acc W s (.die d) (.core d idx) l pol store R
  generalize s.changePolicy (.die d) (.core d idx) l pol store R = u at h1 ⊢
  refine h1.trans ?_
  split
  · exact .refl W u
  · split
    · exact ((homeTouch_acc W u _ l hint).trans (serve_acc W _ _ l _ _ false R)).trans (install_acc W _ _ _ l _ _)
    · exact (probes_acc W u _ l _ _ false R).trans ((llcAccess_acc W _ d l pol store R hint cmp).trans
        ((serve_acc W _ _ l _ _ false R).trans (install_acc W _ _ _ l _ _)))

theorem engineAccess_acc (W : Nat → Prop) (s : State) (d l pol : Nat) (store : Bool) (R : BitVec 16) (hint : Nat) (cmp : Bool) :
    Accessed W s (s.engineAccess d l pol store R hint cmp) := by
  unfold State.engineAccess
  split
  · exact (homeTouch_acc W s _ l hint).trans (serve_acc W _ _ l _ _ false R)
  · exact (probes_acc W s _ l _ _ false R).trans (llcAccess_acc W _ d l pol store R hint cmp)

theorem opAccess_acc (W : Nat → Prop) (s : State) (d idx l : Nat) (rd : Bool) (R : BitVec 16) :
    Accessed W s (s.opAccess d idx l rd R) := by
  unfold State.opAccess
  simp only []
  have h1 := (releaseOwned_acc W s (.die d) (.core d idx) l R).trans (dropSi_acc W _ (.core d idx) l)
  generalize (s.releaseOwned (.die d) (.core d idx) l R).dropSi (.core d idx) l = u at h1 ⊢
  refine h1.trans (Accessed.trans (t := if homeOf s.tc (64 * l) = .die d then u
    else ((u.probes (.die d) l (.core d idx) .opH rd R).releaseOwned (homeOf s.tc (64 * l)) (.llc d) l R).dropSi (.llc d) l) ?_
    ((homeTouch_acc W _ _ l 0).trans (serve_acc W _ _ l _ _ rd R)))
  split
  · exact .refl W u
  · exact ((probes_acc W u _ l _ _ rd R).trans (releaseOwned_acc W _ _ _ l R)).trans (dropSi_acc W _ _ l)

theorem packAccess_acc (W : Nat → Prop) (s : State) (d idx l : Nat) : Accessed W s (s.packAccess d idx l) := by
  unfold State.packAccess
  simp only []
  refine (releaseOwned_acc W s (.die d) (.core d idx) l 0xFFFF).trans ?_
  split
  · exact serve_acc W _ _ l _ _ true _
  · exact ((probes_acc W _ _ l _ _ true _).trans (releaseOwned_acc W _ _ _ l _)).trans (serve_acc W _ _ l _ _ true _)

theorem releaseCore_acc (W : Nat → Prop) (s : State) (d idx : Nat) : Accessed W s (s.releaseCore d idx) := by
  unfold State.releaseCore
  exact Accessed.foldl _ _ s fun u l _ => writeBackCore_acc W u d idx l

theorem acquireCore_acc (W : Nat → Prop) (s : State) (d idx : Nat) : Accessed W s (s.acquireCore d idx) := by
  unfold State.acquireCore
  exact Accessed.foldl _ _ s fun u l _ => dropSi_acc W u _ l

theorem hostWritten_acc (W : Nat → Prop) (s : State) (l : Nat) : Accessed W s (s.hostWritten l) := by
  unfold State.hostWritten
  split
  · exact .same rfl rfl rfl rfl
  · exact .refl W s

end Sys2Proof.Machine
end

