-- ==== Sys2Proof/Laws/Access.lean ====
section
/-! SUPPORT. What a team's loads, stores and read-modify-writes change, in the words of Safety.lean. -/

namespace Sys2Proof.Machine

/-! ### Translation caches -/

theorem tlbAdd_acc (W : Nat → Prop) (s : State) (e : TlbEntry) : Accessed W s (s.tlbAdd e) := by
  unfold State.tlbAdd
  simp only []
  split
  · exact .same rfl rfl rfl rfl
  · split
    · exact .same rfl rfl rfl rfl
    · exact .same rfl rfl rfl rfl

theorem keepWalk_acc (W : Nat → Prop) (s : State) (v : Via) (va : Nat) : Accessed W s (s.keepWalk v va) := by
  unfold State.keepWalk
  simp only []
  refine Accessed.trans ?_ (Accessed.foldl _ _ _ fun u p _ => engineAccess_acc W u _ _ _ _ _ _ _)
  exact .same rfl rfl rfl rfl

theorem tlbFill_acc (W : Nat → Prop) (s : State) (v : Via) (va : Nat) : Accessed W s (s.tlbFill v va) := by
  unfold State.tlbFill
  split
  · refine Accessed.trans (t := if (s.cached v va).isSome then s else s.keepWalk v va) ?_
      (Accessed.foldl _ _ _ fun u c _ => ?_)
    · split
      · exact .refl W s
      · exact keepWalk_acc W s v va
    · split
      · exact .refl W u
      · exact tlbAdd_acc W u _
  · exact .refl W s

theorem countHot_acc (W : Nat → Prop) (s : State) (v : Via) (va : Nat) : Accessed W s (s.countHot v va) := by
  unfold State.countHot
  simp only []
  split
  · exact .refl W s
  · split
    · exact .same rfl rfl rfl rfl
    · exact .same rfl rfl rfl rfl

theorem fillSpans_acc (W : Nat → Prop) (s : State) (v : Via) (spans : List Span) : Accessed W s (s.fillSpans v spans) := by
  unfold State.fillSpans
  refine Accessed.foldl _ _ s fun u sp _ => Accessed.foldl _ _ u fun t x _ => ?_
  split
  · exact tlbFill_acc W t v _
  · exact .refl W t

/-! ### Loads -/

theorem lineAccess_acc (W : Nat → Prop) (s : State) (v : Via) (h : Hit) (n : Nat) (store : Bool) (hint : Nat) :
    Accessed W s (s.lineAccess v h n store hint) := by
  unfold State.lineAccess
  simp only []
  split
  · exact .refl W s
  · have h1 : Accessed W s (if ((s.line (.core v.die v.idx) h.line).hits h.pol store (h.words n) && !v.engine) = true then s
        else s.countHot v h.va) := by
      split
      · exact .refl W s
      · exact countHot_acc W s v h.va
    generalize (if ((s.line (.core v.die v.idx) h.line).hits h.pol store (h.words n) && !v.engine) = true then s
        else s.countHot v h.va) = u at h1 ⊢
    refine h1.trans ?_
    clear h1
    have h2 : Accessed W u { u with hostReady := u.hostReady.filter (· != h.line) } :=
      .same rfl rfl rfl rfl
    refine h2.trans ?_
    generalize ({ u with hostReady := u.hostReady.filter (· != h.line) } : State) = w
    have h3 : Accessed W w (if (store && h.pol != polSi) = true then w.hostWritten h.line else w) := by
      split
      · exact hostWritten_acc W w _
      · exact .refl W w
    refine h3.trans ?_
    generalize (if (store && h.pol != polSi) = true then w.hostWritten h.line else w) = x
    split
    · exact engineAccess_acc W x _ _ _ _ _ _ _
    · exact coreAccess_acc W x _ _ _ _ _ _ _ _

theorem teamLoad_acc (W : Nat → Prop) (s : State) (k : Nat) (h : Hit) (n hint : Nat) : Accessed W s (s.teamLoad k h n hint).1 :=
  lineAccess_acc W s _ h n false hint

theorem loadSpan_acc (W : Nat → Prop) (k hint : Nat) (sp : Span) : ∀ (s : State), Accessed W s (s.loadSpan k sp hint).1 := by
  have key : ∀ (sp : Span) (x : State × List Byte), Accessed W x.1 (sp.foldl (fun (x : State × List Byte) p =>
      ((x.1.teamLoad k p.1 p.2 hint).1, x.2 ++ (x.1.teamLoad k p.1 p.2 hint).2)) x).1 := by
    intro sp
    induction sp with
    | nil => intro x; exact .refl W _
    | cons p r ih =>
      intro x
      rw [List.foldl_cons]
      exact (teamLoad_acc W x.1 k p.1 p.2 hint).trans <|
        ih ((x.1.teamLoad k p.1 p.2 hint).1, x.2 ++ (x.1.teamLoad k p.1 p.2 hint).2)
  intro s
  exact key sp (s, [])

theorem loadLanes_acc (W : Nat → Prop) (s : State) (xs : List (Nat × Span)) (hint : Nat) :
    Accessed W s (s.loadLanes xs hint).1 := by
  have key : ∀ (xs : List (Nat × Span)) (y : State × List (Nat × Nat)), Accessed W y.1
      (xs.foldl (fun (y : State × List (Nat × Nat)) x =>
        ((y.1.loadSpan y.1.cur x.2 hint).1, y.2 ++ [(x.1, leNat (y.1.loadSpan y.1.cur x.2 hint).2)])) y).1 := by
    intro xs
    induction xs with
    | nil => intro y; exact .refl W _
    | cons x r ih =>
      intro y
      rw [List.foldl_cons]
      exact (loadSpan_acc W y.1.cur hint x.2 y.1).trans <|
        ih ((y.1.loadSpan y.1.cur x.2 hint).1, y.2 ++ [(x.1, leNat (y.1.loadSpan y.1.cur x.2 hint).2)])
  exact key xs (s, [])

/-! ### Stores -/

/-- Putting a byte into an si copy makes it wait. -/
theorem put_siDirty (c : CLine) (o : Nat) (b : Byte) (i : Nat) (hi : i < 64) (h : (c.put o b).siDirty.getLsbD i = true) :
    i = o ∨ c.siDirty.getLsbD i = true := by
  rw [siDirty_bit _ _ hi] at h ⊢
  unfold CLine.put at h
  simp only [BitVec.getLsbD_or, BitVec.getLsbD_ofNat, Nat.testBit_two_pow] at h
  by_cases e : o = i
  · exact Or.inl e.symm
  · right
    simp only [e, decide_false, Bool.and_false, Bool.or_false] at h
    exact h

theorem storeByte_acc (W : Nat → Prop) (s : State) (v : Via) (h : Hit) (i : Nat) (b : Byte) (hW : W (h.key + i))
    (hin : h.global = true → h.key % 64 + i < 64) : Accessed W s (s.storeByte v h i b) := by
  unfold State.storeByte
  by_cases hg : h.global = true
  · have h64 := hin hg
    have ek : 64 * h.line + (h.key % 64 + i) = h.key + i := by unfold Hit.line; omega
    simp only [hg, Bool.not_true, Bool.false_eq_true, if_false]
    generalize (if v.engine = true then Agent.llc v.die else Agent.core v.die v.idx) = ca
    by_cases ho : ((s.line ca h.line).owned.getLsbD ((h.key % 64 + i) / 4) &&
        (h.pol == polOwn || h.pol == polSi)) = true
    · rw [if_pos ho]
      exact ownedPut_acc W s ca h.line _ b (ek ▸ hW)
    · rw [if_neg ho]
      split
      · refine setLine_acc W s _ ?_
        intro j hj hb
        have el : ((s.line ca h.line).put (h.key % 64 + i) b).line = h.line :=
          line_line s _ _
        rw [el]
        rcases put_siDirty _ _ _ j hj hb with h1 | h1
        · left; rw [h1, ek]; exact hW
        · right; exact awaits_line _ _ j hj h1
      · exact writePhys_acc W s _ _ hW
  · simp only [hg, Bool.not_false, if_true]
    exact memWrite_acc W s _ b hW

theorem storeBytes_acc (W : Nat → Prop) (v : Via) (h : Hit) (bs : List Byte) : ∀ (s : State) (i : Nat),
    (∀ x, h.key + i ≤ x → x < h.key + i + bs.length → W x) → (h.global = true → h.key % 64 + i + bs.length ≤ 64) →
    Accessed W s (s.storeBytes v h i bs) := by
  induction bs with
  | nil => intro s i _ _; exact .refl W s
  | cons b r ih =>
    intro s i hW hin
    unfold State.storeBytes
    simp only [List.length_cons] at hW hin
    refine (storeByte_acc W s v h i b (hW _ (Nat.le_refl _) (by omega)) fun hg => by have := hin hg; omega).trans ?_
    exact ih _ (i + 1) (fun x h1 h2 => hW x (by omega) (by omega)) fun hg => by have := hin hg; omega

theorem storeRest_acc (W : Nat → Prop) (v : Via) (t : Team) (h : Hit) (bs : List Byte) : ∀ (s : State) (i : Nat),
    (∀ x, h.key + i ≤ x → x < h.key + i + bs.length → W x) → (h.global = true → h.key % 64 + i + bs.length ≤ 64) →
    Accessed W s (s.storeRest v t h i bs) := by
  induction bs with
  | nil => intro s i _ _; exact .refl W s
  | cons b r ih =>
    intro s i hW hin
    unfold State.storeRest
    simp only [List.length_cons] at hW hin
    have h1 : Accessed W s (if h.stack t i = true then s else s.storeByte v h i b) := by
      split
      · exact .refl W s
      · exact storeByte_acc W s v h i b (hW _ (Nat.le_refl _) (by omega)) fun hg => by have := hin hg; omega
    exact h1.trans (ih _ (i + 1) (fun x h1 h2 => hW x (by omega) (by omega)) fun hg => by have := hin hg; omega)

/-- The teams play no part in what an access changes. -/
theorem Accessed.teams {W : Nat → Prop} {s t : State} (h : Accessed W s t) (x : List Team) :
    Accessed W { s with teams := x } { t with teams := x } :=
  ⟨congrArg (fun u : State => ({ u with teams := x } : State)) h.apart, h.wf, h.rests⟩

theorem Accessed.teams_eq {W : Nat → Prop} {s t : State} (h : Accessed W s t) : t.teams = s.teams := by
  have e : t.apart.teams = s.apart.teams := congrArg State.teams h.apart
  exact e

theorem Accessed.cur_eq {W : Nat → Prop} {s t : State} (h : Accessed W s t) : t.cur = s.cur := by
  have e : t.apart.cur = s.apart.cur := congrArg State.cur h.apart
  exact e

theorem Accessed.team_eq {W : Nat → Prop} {s t : State} (h : Accessed W s t) : t.team = s.team := by
  unfold State.team State.teamAt
  rw [h.teams_eq, h.cur_eq]

theorem Accessed.stored {W : Nat → Prop} {s t : State} (h : Accessed W s t) : Stored W s t := by
  refine ⟨?_, by rw [h.teams_eq]⟩
  have e : ({ t with teams := s.teams } : State) = t := by rw [← h.teams_eq]
  rw [e]; exact h

theorem Stored.refl (W : Nat → Prop) (s : State) : Stored W s s := (Accessed.refl W s).stored

theorem Stored.trans {W : Nat → Prop} {s t u : State} (h : Stored W s t) (h' : Stored W t u) : Stored W s u :=
  ⟨h.accessed.trans (h'.accessed.teams s.teams), h'.teams.trans h.teams⟩

theorem Stored.then {W : Nat → Prop} {s t u : State} (h : Stored W s t) (h' : Accessed W t u) : Stored W s u := h.trans h'.stored

theorem Stored.foldl {α : Type} {W : Nat → Prop} (f : State → α → State) (xs : List α) (s : State)
    (h : ∀ u, ∀ x ∈ xs, Stored W u (f u x)) : Stored W s (xs.foldl f s) := by
  induction xs generalizing s with
  | nil => exact .refl W s
  | cons x r ih =>
    exact (h s x (List.mem_cons_self ..)).trans (ih (f s x) fun u y hy => h u y (List.mem_cons_of_mem _ hy))

/-- Changing a team's stack cache alone. -/
theorem setStk_acc (W : Nat → Prop) (s : State) (k : Nat) (x : FMap Byte) : Stored W s (s.setTeam k { s.teamAt k with stk := x }) := by
  refine ⟨.refl W s, ?_⟩
  unfold State.setTeam
  refine List.ext_getElem? fun i => ?_
  simp only [List.getElem?_map, List.getElem?_set]
  split
  · next e =>
    subst e
    split
    · next hl => simp [State.teamAt, List.getD_eq_getElem?_getD, List.getElem?_eq_getElem hl]
    · next hl => simp [List.getElem?_eq_none (Nat.le_of_not_lt hl)]
  · rfl

theorem teamStore_acc (W : Nat → Prop) (s : State) (k : Nat) (h : Hit) (bs : List Byte) (hint : Nat)
    (hW : ∀ x, h.key ≤ x → x < h.key + bs.length → W x) (hin : h.global = true → h.key % 64 + bs.length ≤ 64) :
    Stored W s (s.teamStore k h bs hint) := by
  unfold State.teamStore
  simp only []
  generalize (List.range bs.length).filter (h.stack (s.teamAt k)) = ins
  generalize he : ins.foldl (fun m i => fput m (h.va + i) (bs.getD i 0)) (s.teamAt k).stk = stk
  have h1 : Stored W s (if ins.isEmpty = true then s else s.setTeam k { s.teamAt k with stk := stk }) := by
    split
    · exact .refl W s
    · exact setStk_acc W s k stk
  refine h1.trans ?_
  generalize (if ins.isEmpty = true then s else s.setTeam k { s.teamAt k with stk := stk }) = u
  split
  · exact .refl W u
  · refine Accessed.stored ?_
    have h2 := (lineAccess_acc W u (u.viaOf k) h bs.length true hint).trans
      (storeRest_acc W (u.viaOf k) (s.teamAt k) h bs (u.lineAccess (u.viaOf k) h bs.length true hint) 0
        (by simpa using hW) (by simpa using hin))
    refine h2.trans ?_
    split
    · exact clearPoison_acc W _ _ _
    · exact .refl W _

theorem storeSpan_acc (W : Nat → Prop) (k : Nat) (sp : Span) (hf : Span.inLines sp) (hW : ∀ a, Span.has sp a → W a) :
    ∀ (s : State) (bs : List Byte), Stored W s (s.storeSpan k sp bs) := by
  have key : ∀ (sp : Span), Span.inLines sp → (∀ a, Span.has sp a → W a) → ∀ (x : State × List Byte), Stored W x.1
      (sp.foldl (fun (x : State × List Byte) p => (x.1.teamStore k p.1 (x.2.take p.2) 0, x.2.drop p.2)) x).1 := by
    intro sp
    induction sp with
    | nil => intro _ _ x; exact .refl W _
    | cons p r ih =>
      intro hf hW x
      rw [List.foldl_cons]
      have hl : (x.2.take p.2).length ≤ p.2 := by simp [Nat.min_le_left]
      refine (teamStore_acc W x.1 k p.1 (x.2.take p.2) 0 ?_ ?_).trans <|
        ih (fun q hq => hf q (List.mem_cons_of_mem _ hq))
          (fun a ⟨q, hq, h⟩ => hW a ⟨q, List.mem_cons_of_mem _ hq, h⟩) (x.1.teamStore k p.1 (x.2.take p.2) 0, x.2.drop p.2)
      · exact fun a h1 h2 => hW a ⟨p, List.mem_cons_self .., h1, by omega⟩
      · exact fun hg => by have := hf p (List.mem_cons_self ..) hg; omega
  exact fun s bs => key sp hf hW (s, bs)

/-! ### Checked spans lie in lines -/

theorem brick_low (o : Nat) : brick o % 32 = o % 32 := by
  unfold brick bitsAt
  omega

theorem leafPhys_low (x : Word64) (va : Nat) : leafPhys x va % 32 = va % 32 := by
  have hs : pageSize (field x 6 2) % 32 = 0 := by
    have : field x 6 2 < 4 := Nat.mod_lt _ (by decide)
    generalize field x 6 2 = n at this
    have : n = 0 ∨ n = 1 ∨ n = 2 ∨ n = 3 := by omega
    rcases this with h | h | h | h <;> subst h <;> rfl
  have hm : va % pageSize (field x 6 2) % 32 = va % 32 := Nat.mod_mod_of_dvd _ (Nat.dvd_of_mod_eq_zero hs)
  unfold leafPhys
  simp only []
  split
  · have := brick_low (va % pageSize (field x 6 2)); omega
  · omega

/-- What keeps a home from taking an access is never a hit. -/
theorem homeCheck_ne (s : State) (v : Via) (pa : Nat) (store reads : Bool) (pol : Nat) (h : Hit) :
    s.homeCheck v pa store reads pol ≠ some (.hit h) := by
  unfold State.homeCheck
  simp only []
  repeat' split
  all_goals simp

theorem windowState_ne (s : State) (key : Nat) (h : Hit) : windowState s key ≠ some (.hit h) := by
  unfold windowState
  simp only []
  repeat' split
  all_goals simp

theorem reach_low (s : State) (v : Via) (need : Need) (reads : Bool) (pol va : Nat) (h : Hit)
    (e : s.reach v need reads pol va = .hit h) (hg : h.global = true) : h.key % 32 = va % 32 := by
  unfold State.reach at e
  split at e
  · exact absurd e (by simp)
  · next key _ =>
    cases hw : windowState s key with
    | some r => rw [hw] at e; exact absurd (hw.trans (congrArg some e)) (windowState_ne s key h)
    | none =>
      rw [hw] at e
      simp only [Option.getD_none, Reach.hit.injEq] at e
      subst e
      exact absurd hg (by simp)
  · split at e
    · exact absurd e (by simp)
    · exact absurd e (by simp)
    · exact absurd e (by simp)
    · exact absurd e (by simp)
    · exact absurd e (by simp)
    · split at e
      · exact absurd e (by simp)
      · simp only [] at e
        split at e
        · next r hr => 
          subst e
          exact absurd hr (homeCheck_ne _ _ _ _ _ _ _)
        · simp only [Reach.hit.injEq] at e; subst e; exact leafPhys_low _ _

/-- A part checked is a hit only where its first byte is. -/
theorem reachPart_hit (s : State) (v : Via) (span part : Nat × Nat) (need : Need) (reads : Bool) (pol : Nat) (h : Hit)
    (e : (s.reachPart v span part need reads pol).1 = .hit h) : ∃ v', s.reach v' need reads pol part.1 = .hit h := by
  unfold State.reachPart at e
  simp only [] at e
  refine ⟨{ v with full := decide (span.1 ≤ part.1 / 64 * 64) && decide (part.1 / 64 * 64 + 64 ≤ span.1 + span.2) }, ?_⟩
  split at e
  · next hh he =>
    refine he.trans ?_
    split at e
    · exact e
    · split at e
      · exact absurd e (by simp)
      · exact e
  · exact e

theorem spanParts_in (f : Nat) : ∀ (va n : Nat), ∀ x ∈ spanParts f va n, x.1 % 32 + x.2 ≤ 32 := by
  induction f with
  | zero => intro va n x h; simp [spanParts] at h
  | succ f ih =>
    intro va n x h
    unfold spanParts at h
    split at h
    · simp at h
    · simp only [List.mem_cons] at h
      rcases h with h | h
      · subst h; simp only []; omega
      · exact ih _ _ x h

theorem joinParts_in (sp : Span) : Span.inLines sp → Span.inLines (joinParts sp) := by
  induction sp with
  | nil => exact id
  | cons x r ih =>
    intro hf
    obtain ⟨h, n⟩ := x
    have hr := ih fun y hy => hf y (List.mem_cons_of_mem _ hy)
    have h0 := hf (h, n) (List.mem_cons_self ..)
    unfold joinParts
    split
    · intro y hy
      simp only [List.mem_cons, List.not_mem_nil, or_false] at hy
      subst hy; exact h0
    · next g m q e =>
      rw [e] at hr
      split
      · next hc =>
        simp only [Bool.and_eq_true, beq_iff_eq] at hc
        intro y hy
        simp only [List.mem_cons] at hy
        rcases hy with hy | hy
        · subst hy
          intro hg
          have := hr (g, m) (List.mem_cons_self ..) hc.1.1.2
          have := h0 hg
          simp only [] at *
          omega
        · exact hr y (List.mem_cons_of_mem _ hy)
      · intro y hy
        simp only [List.mem_cons] at hy
        rcases hy with hy | hy
        · subst hy; exact h0
        · exact hr y (by simpa using hy)

/-- The parts of a checked span each lie in one line. -/
theorem checkSpans_in (s : State) (v : Via) (spans : List (Nat × Nat)) (need : Need) (reads : Bool) (pol : Nat)
    (sp : List Span) (h : s.checkSpans v spans need reads pol = .ok sp) : ∀ x ∈ sp, Span.inLines x := by
  unfold State.checkSpans at h
  simp only [] at h
  split at h
  · exact absurd h (by simp)
  · simp only [Except.ok.injEq] at h
    subst h
    intro x hx
    simp only [List.mem_map] at hx
    obtain ⟨ps, ⟨y, hy, rfl⟩, rfl⟩ := hx
    refine joinParts_in _ ?_
    intro z hz hg
    simp only [List.mem_filterMap, List.mem_map] at hz
    obtain ⟨w, ⟨q, hq, rfl⟩, hw⟩ := hz
    have hb := spanParts_in _ _ _ q hq
    simp only [] at hw
    split at hw
    · next hh e =>
      simp only [Option.some.injEq] at hw
      subst hw
      obtain ⟨v', e'⟩ := reachPart_hit s v y q need reads pol hh e
      have := reach_low s v' need reads pol q.1 hh e' hg
      simp only [] at *
      omega
    · exact absurd hw (by simp)

theorem checkSpans_length (s : State) (v : Via) (spans : List (Nat × Nat)) (need : Need) (reads : Bool) (pol : Nat)
    (sp : List Span) (h : s.checkSpans v spans need reads pol = .ok sp) : sp.length = spans.length := by
  unfold State.checkSpans at h
  simp only [] at h
  split at h
  · exact absurd h (by simp)
  · simp only [Except.ok.injEq] at h; subst h; simp

/-! ### Orderings and read-modify-writes -/

theorem flushByte_acc (W : Nat → Prop) (s : State) (k : Nat) (whole : Nat → Bool) (e : Nat × Byte) (hW : ∀ a, W a) :
    Stored W s (s.flushByte k whole e) := by
  unfold State.flushByte
  simp only []
  split
  · next hh e1 =>
    refine Accessed.stored ?_
    have h1 := (lineAccess_acc W s (s.viaOf k) hh 1 true 0).trans
      (storeByte_acc W _ (s.viaOf k) hh 0 e.2 (hW _) (by intro _; omega))
    split
    · exact h1.trans (clearPoison_acc W _ _ _)
    · exact h1
  · exact setStk_acc W s k _

theorem flushSome_acc (W : Nat → Prop) (s : State) (k : Nat) (out : FMap Byte) (hW : ∀ a, W a) : Stored W s (s.flushSome k out) := by
  unfold State.flushSome
  exact (setStk_acc W s k _).trans (Stored.foldl _ _ _ fun u e _ => flushByte_acc W u k _ e hW)

theorem flushStack_acc (W : Nat → Prop) (s : State) (k : Nat) (h : (s.teamAt k).stk ≠ [] → ∀ a, W a) : Stored W s (s.flushStack k) := by
  unfold State.flushStack
  split
  · exact .refl W s
  · next hne => exact flushSome_acc W s k _ (h (by intro e; rw [e] at hne; exact hne rfl))

theorem acquire_acc (W : Nat → Prop) (s : State) (k sc : Nat) : Accessed W s (s.acquire k sc) := by
  unfold State.acquire
  split
  · exact .refl W s
  · exact acquireCore_acc W s _ _

theorem release_acc (W : Nat → Prop) (s : State) (k sc : Nat) (h : (s.teamAt k).stk ≠ [] → ∀ a, W a) : Stored W s (s.release k sc) := by
  unfold State.release
  split
  · exact .refl W s
  · exact (flushStack_acc W s k h).then (releaseCore_acc W _ _ _)

theorem rmw_acc (W : Nat → Prop) (s : State) (k : Nat) (h : Hit) (n : Nat) (upd : Word64 → Option Nat)
    (hs : (s.teamAt k).stk ≠ [] → ∀ a, W a) (hW : ∀ x, h.key ≤ x → x < h.key + n → W x) : Stored W s (s.rmw k h n upd).1 := by
  unfold State.rmw
  split
  · simp only []
    have h1 := ((flushStack_acc W s k hs).then (countHot_acc W _ (s.viaOf k) h.va)).then
      (opAccess_acc W _ (s.viaOf k).die (s.viaOf k).idx h.line false (h.words n))
    generalize (((s.flushStack k).countHot (s.viaOf k) h.va).opAccess (s.viaOf k).die (s.viaOf k).idx h.line false (h.words n)) = u at h1 ⊢
    refine h1.trans ?_
    split
    · exact .refl W u
    · exact ((hostWritten_acc W u _).trans (writePhysLe_acc W _ _ _ _ hW)).stored
  · simp only []
    split
    · exact .refl W s
    · next x _ => exact (memWrites_acc W s h.key (leBytes n x) (by simpa [leBytes_length] using hW)).stored

/-- An empty stack cache flushes to nothing. -/
theorem flushStack_empty (s : State) (k : Nat) (h : (s.teamAt k).stk = []) : s.flushStack k = s := by
  unfold State.flushStack
  simp only [h, List.isEmpty_nil, if_true]

theorem homeRead_acc (W : Nat → Prop) (s : State) (k : Nat) (sp : Span) (rd : Bool) (h : (s.teamAt k).stk ≠ [] → ∀ a, W a) :
    Stored W s (s.homeRead k sp rd).1 := by
  have key : ∀ (sp : Span) (x : State × List Byte), ((x.1.teamAt k).stk ≠ [] → ∀ a, W a) → Stored W x.1
      (sp.foldl (fun (x : State × List Byte) p =>
        if p.1.global then
          ((((x.1.flushStack k).countHot (x.1.viaOf k) p.1.va).opAccess (x.1.viaOf k).die (x.1.viaOf k).idx p.1.line rd (p.1.words p.2)),
            x.2 ++ (((x.1.flushStack k).countHot (x.1.viaOf k) p.1.va).opAccess (x.1.viaOf k).die (x.1.viaOf k).idx p.1.line rd
              (p.1.words p.2)).readsPhys p.1.key p.2)
        else (x.1, x.2 ++ x.1.mem.reads p.1.key p.2)) x).1 := by
    intro sp
    induction sp with
    | nil => intro x _; exact .refl W _
    | cons p r ih =>
      intro x hx
      rw [List.foldl_cons]
      split
      · have h1 := (countHot_acc W (x.1.flushStack k) (x.1.viaOf k) p.1.va).trans
          (opAccess_acc W _ (x.1.viaOf k).die (x.1.viaOf k).idx p.1.line rd (p.1.words p.2))
        have h2 := (flushStack_acc W x.1 k hx).then h1
        generalize hu : ((x.1.flushStack k).countHot (x.1.viaOf k) p.1.va).opAccess (x.1.viaOf k).die (x.1.viaOf k).idx p.1.line rd
          (p.1.words p.2) = u at h1 h2 ⊢
        refine h2.trans (ih (u, x.2 ++ u.readsPhys p.1.key p.2) ?_)
        intro hne a
        by_cases he : (x.1.teamAt k).stk = []
        · rw [flushStack_empty _ _ he] at h1
          refine absurd ?_ hne
          have e : u.teamAt k = x.1.teamAt k := by unfold State.teamAt; rw [h1.teams_eq]
          simpa [e] using he
        · exact hx he a
      · exact ih (x.1, x.2 ++ x.1.mem.reads p.1.key p.2) hx
  exact key sp (s, []) h

theorem homeWrite_acc (W : Nat → Prop) (s : State) (sp : Span) (bs : List Byte) (hW : ∀ a, Span.has sp a → W a) :
    Accessed W s (s.homeWrite sp bs) := by
  have key : ∀ (sp : Span), (∀ a, Span.has sp a → W a) → ∀ (x : State × List Byte), Accessed W x.1
      (sp.foldl (fun (x : State × List Byte) p =>
        if p.1.global then
          (((x.1.hostWritten p.1.line).writesPhys p.1.key (x.2.take p.2)).clearPoison p.1.key p.2, x.2.drop p.2)
        else ({ x.1 with mem := x.1.mem.writes p.1.key (x.2.take p.2) }, x.2.drop p.2)) x).1 := by
    intro sp
    induction sp with
    | nil => intro _ x; exact .refl W _
    | cons p r ih =>
      intro hW x
      have hw : ∀ a, p.1.key ≤ a → a < p.1.key + (x.2.take p.2).length → W a := fun a h1 h2 =>
        hW a ⟨p, List.mem_cons_self .., h1, by simp at h2; omega⟩
      have hr : ∀ a, Span.has r a → W a := fun a ⟨q, hq, h⟩ => hW a ⟨q, List.mem_cons_of_mem _ hq, h⟩
      rw [List.foldl_cons]
      split
      · exact (((hostWritten_acc W x.1 p.1.line).trans (writesPhys_acc W _ _ _ hw)).trans (clearPoison_acc W _ _ _)).trans <|
          ih hr (((x.1.hostWritten p.1.line).writesPhys p.1.key (x.2.take p.2)).clearPoison p.1.key p.2, x.2.drop p.2)
      · exact (memWrites_acc W x.1 p.1.key _ hw).trans <|
          ih hr (({ x.1 with mem := x.1.mem.writes p.1.key (x.2.take p.2) } : State), x.2.drop p.2)
  exact key sp hW (s, bs)

/-- With nothing in the stack cache, no team changes. -/
theorem rmw_quiet (W : Nat → Prop) (s : State) (k : Nat) (h : Hit) (n : Nat) (upd : Word64 → Option Nat)
    (hs : (s.teamAt k).stk = []) (hW : ∀ x, h.key ≤ x → x < h.key + n → W x) : Accessed W s (s.rmw k h n upd).1 := by
  unfold State.rmw
  rw [flushStack_empty s k hs]
  split
  · simp only []
    have h1 := (countHot_acc W s (s.viaOf k) h.va).trans
      (opAccess_acc W _ (s.viaOf k).die (s.viaOf k).idx h.line false (h.words n))
    generalize ((s.countHot (s.viaOf k) h.va).opAccess (s.viaOf k).die (s.viaOf k).idx h.line false (h.words n)) = u at h1 ⊢
    refine h1.trans ?_
    split
    · exact .refl W u
    · exact (hostWritten_acc W u _).trans (writePhysLe_acc W _ _ _ _ hW)
  · simp only []
    split
    · exact .refl W s
    · next x _ => exact memWrites_acc W s h.key (leBytes n x) (by simpa [leBytes_length] using hW)

theorem homeRead_quiet (W : Nat → Prop) (s : State) (k : Nat) (sp : Span) (rd : Bool) (h : (s.teamAt k).stk = []) :
    Accessed W s (s.homeRead k sp rd).1 := by
  have key : ∀ (sp : Span) (x : State × List Byte), (x.1.teamAt k).stk = [] → Accessed W x.1
      (sp.foldl (fun (x : State × List Byte) p =>
        if p.1.global then
          ((((x.1.flushStack k).countHot (x.1.viaOf k) p.1.va).opAccess (x.1.viaOf k).die (x.1.viaOf k).idx p.1.line rd (p.1.words p.2)),
            x.2 ++ (((x.1.flushStack k).countHot (x.1.viaOf k) p.1.va).opAccess (x.1.viaOf k).die (x.1.viaOf k).idx p.1.line rd
              (p.1.words p.2)).readsPhys p.1.key p.2)
        else (x.1, x.2 ++ x.1.mem.reads p.1.key p.2)) x).1 := by
    intro sp
    induction sp with
    | nil => intro x _; exact .refl W _
    | cons p r ih =>
      intro x hx
      rw [List.foldl_cons]
      split
      · have h1 := (countHot_acc W (x.1.flushStack k) (x.1.viaOf k) p.1.va).trans
          (opAccess_acc W _ (x.1.viaOf k).die (x.1.viaOf k).idx p.1.line rd (p.1.words p.2))
        generalize ((x.1.flushStack k).countHot (x.1.viaOf k) p.1.va).opAccess (x.1.viaOf k).die (x.1.viaOf k).idx p.1.line rd
          (p.1.words p.2) = u at h1 ⊢
        rw [flushStack_empty _ _ hx] at h1
        refine h1.trans (ih (u, x.2 ++ u.readsPhys p.1.key p.2) ?_)
        have e : u.teamAt k = x.1.teamAt k := by unfold State.teamAt; rw [h1.teams_eq]
        simpa [e] using hx
      · exact ih (x.1, x.2 ++ x.1.mem.reads p.1.key p.2) hx
  exact key sp (s, []) h

end Sys2Proof.Machine
end

