-- ==== Sys2Proof/Laws/Encoding.lean ====
section
/-! SUPPORT. The fields the decoder reads from a word that the encoder put together. -/

namespace Sys2Proof

/-- Bits of a concatenation below the cut, above it, and all of a vector. -/
theorem extract_low {n m : Nat} (a : BitVec n) (b : BitVec m) (s k : Nat) (h : s + k ≤ m) :
    (a ++ b).extractLsb' s k = b.extractLsb' s k := by
  apply BitVec.eq_of_getLsbD_eq
  intro i hi
  simp only [BitVec.getLsbD_extractLsb', BitVec.getLsbD_append, hi, decide_true, Bool.true_and]
  rw [if_pos (by omega)]

theorem extract_high {n m : Nat} (a : BitVec n) (b : BitVec m) (s k : Nat) (h : m ≤ s) :
    (a ++ b).extractLsb' s k = a.extractLsb' (s - m) k := by
  apply BitVec.eq_of_getLsbD_eq
  intro i hi
  simp only [BitVec.getLsbD_extractLsb', BitVec.getLsbD_append, hi, decide_true, Bool.true_and]
  rw [if_neg (by omega)]
  congr 1; omega

theorem extract_all {n : Nat} (a : BitVec n) : a.extractLsb' 0 n = a := by
  apply BitVec.eq_of_getLsbD_eq
  intro i hi
  simp [hi]

section
variable (s : BitVec 1) (m : BitVec 6) (u : BitVec 3) (b : BitVec 22)

@[simp] theorem setOf_word : setOf (wordOf s m u b) = s := by
  unfold setOf wordOf
  simp (disch := decide) only [extract_high, Nat.reduceSub, extract_all]

@[simp] theorem majorOf_word : majorOf (wordOf s m u b) = m := by
  unfold majorOf wordOf
  simp (disch := decide) only [extract_low, extract_high, Nat.reduceSub, extract_all]

@[simp] theorem subOf_word : subOf (wordOf s m u b) = u := by
  unfold subOf wordOf
  simp (disch := decide) only [extract_low, extract_high, Nat.reduceSub, extract_all]

/-- The bits below the sub come from the body. -/
theorem body_word (i k : Nat) (h : i + k ≤ 22) : (wordOf s m u b).extractLsb' i k = b.extractLsb' i k :=
  extract_low _ b i k h

@[simp] theorem lrOf_word (f : LR) : lrOf (wordOf s m u f.bits) = f := by
  unfold lrOf
  simp (disch := decide) only [body_word, LR.bits, extract_low, extract_high, Nat.reduceSub, extract_all]

@[simp] theorem liOf_word (f : LI) : liOf (wordOf s m u f.bits) = f := by
  unfold liOf
  simp (disch := decide) only [body_word, LI.bits, extract_low, extract_high, Nat.reduceSub, extract_all]

@[simp] theorem lmOf_word (f : LM) : lmOf (wordOf s m u f.bits) = f := by
  unfold lmOf
  simp (disch := decide) only [body_word, LM.bits, extract_low, extract_high, Nat.reduceSub, extract_all]

@[simp] theorem urOf_word (f : UR) : urOf (wordOf s m u f.bits) = f := by
  unfold urOf
  simp (disch := decide) only [body_word, UR.bits, extract_low, extract_high, Nat.reduceSub, extract_all]

@[simp] theorem uiOf_word (f : UI) : uiOf (wordOf s m u f.bits) = f := by
  unfold uiOf
  simp (disch := decide) only [body_word, UI.bits, extract_low, extract_high, Nat.reduceSub, extract_all]

@[simp] theorem ubOf_word (f : UB) : ubOf (wordOf s m u f.bits) = f := by
  unfold ubOf
  simp (disch := decide) only [body_word, UB.bits, extract_low, extract_high, Nat.reduceSub, extract_all]

@[simp] theorem ueOf_word (f : UE) : ueOf (wordOf s m u f.bits) = f := by
  unfold ueOf
  simp (disch := decide) only [body_word, UE.bits, extract_low, extract_high, Nat.reduceSub, extract_all]

@[simp] theorem ue7Of_word (f : UE7) (op : BitVec 3) : ue7Of (wordOf s m u (f.bits op)) = f := by
  unfold ue7Of
  simp (disch := decide) only [body_word, UE7.bits, extract_low, extract_high, Nat.reduceSub, extract_all]

@[simp] theorem ue8Of_word (f : UE8) (op : BitVec 2) : ue8Of (wordOf s m u (f.bits op)) = f := by
  unfold ue8Of
  simp (disch := decide) only [body_word, UE8.bits, extract_low, extract_high, Nat.reduceSub, extract_all]
end

@[simp] theorem pfxOf_word (p : Pfx) : pfxOf p.word = p := by
  unfold pfxOf Pfx.word
  simp (disch := decide) only [extract_low, extract_high, Nat.reduceSub, extract_all]

@[simp] theorem isPrefix_pfx (p : Pfx) : isPrefix p.word = true := by
  have h1 : setOf p.word = 0 := by
    unfold setOf Pfx.word
    simp (disch := decide) only [extract_high, Nat.reduceSub, extract_all]
  have h2 : majorOf p.word = 0x3F := by
    unfold majorOf Pfx.word
    simp (disch := decide) only [extract_low, extract_high, Nat.reduceSub, extract_all]
  unfold isPrefix
  rw [h1, h2]; rfl

end Sys2Proof
end

