-- ==== Sys2Proof/Laws/Engine.lean ====
section
/-! SUPPORT. What a copy engine's reads and writes change, and a block read by a team, in the words of Safety.lean. -/

namespace Sys2Proof.Machine

theorem engLoad_acc (W : Nat → Prop) (v : Via) (sp : Span) (s : State) : Accessed W s (s.engLoad v sp).1 := by
  have key : ∀ (sp : Span) (x : State × List Byte), Accessed W x.1
      (sp.foldl (fun (x : State × List Byte) p =>
        (x.1.lineAccess v p.1 p.2 false 0,
          x.2 ++ (List.range p.2).map fun i => (x.1.lineAccess v p.1 p.2 false 0).loadByte v p.1 i)) x).1 := by
    intro sp
    induction sp with
    | nil => intro x; exact .refl W _
    | cons p r ih =>
      intro x
      rw [List.foldl_cons]
      exact (lineAccess_acc W x.1 v p.1 p.2 false 0).trans (ih (x.1.lineAccess v p.1 p.2 false 0, _))
  exact key sp (s, [])

theorem engStore_acc (W : Nat → Prop) (v : Via) (sp : Span) (hf : Span.inLines sp) (hW : ∀ a, Span.has sp a → W a) (s : State)
    (bs : List Byte) : Accessed W s (s.engStore v sp bs) := by
  have key : ∀ (sp : Span), Span.inLines sp → (∀ a, Span.has sp a → W a) → ∀ (x : State × List Byte), Accessed W x.1
      (sp.foldl (fun (x : State × List Byte) p =>
        (if p.1.global then ((x.1.lineAccess v p.1 p.2 true 0).storeBytes v p.1 0 (x.2.take p.2)).clearPoison p.1.key p.2
          else (x.1.lineAccess v p.1 p.2 true 0).storeBytes v p.1 0 (x.2.take p.2), x.2.drop p.2)) x).1 := by
    intro sp
    induction sp with
    | nil => intro _ _ x; exact .refl W _
    | cons p r ih =>
      intro hf hW x
      have hl : (x.2.take p.2).length ≤ p.2 := by simp [Nat.min_le_left]
      rw [List.foldl_cons]
      have h1 : Accessed W x.1 ((x.1.lineAccess v p.1 p.2 true 0).storeBytes v p.1 0 (x.2.take p.2)) :=
        (lineAccess_acc W x.1 v p.1 p.2 true 0).trans <| storeBytes_acc W v p.1 _ _ 0
          (fun a h1 h2 => hW a ⟨p, List.mem_cons_self .., by omega, by omega⟩)
          (fun hg => by have := hf p (List.mem_cons_self ..) hg; omega)
      have h2 : Accessed W x.1 (if p.1.global then
          ((x.1.lineAccess v p.1 p.2 true 0).storeBytes v p.1 0 (x.2.take p.2)).clearPoison p.1.key p.2
          else (x.1.lineAccess v p.1 p.2 true 0).storeBytes v p.1 0 (x.2.take p.2)) := by
        split
        · exact h1.trans (clearPoison_acc W _ _ _)
        · exact h1
      exact h2.trans (ih (fun q hq => hf q (List.mem_cons_of_mem _ hq))
        (fun a ⟨q, hq, h⟩ => hW a ⟨q, List.mem_cons_of_mem _ hq, h⟩) (_, x.2.drop p.2))
  exact key sp hf hW (s, bs)

theorem readBlock_acc (W : Nat → Prop) (s s' : State) (a n need x : Nat) (h : s.readBlock a n need = .ok (s', x)) :
    Accessed W s s' := by
  unfold State.readBlock at h
  split at h
  · cases h
  · cases h
    exact (fillSpans_acc W s _ _).trans (loadSpan_acc W _ _ _ _)

/-- Batches counted done change no memory, no commands, and of a team its `DONE` alone. -/
theorem advanceBatches_mem (s : State) (k : Nat) :
    (s.advanceBatches k).mem = s.mem ∧ (s.advanceBatches k).copies = s.copies := by
  unfold State.advanceBatches
  simp only []
  split
  · exact ⟨rfl, rfl⟩
  · split <;> exact ⟨rfl, rfl⟩

/-- A command that is complete is gone, and memory that rests is as it was. -/
theorem copyDone_rests (W : Nat → Prop) (s : State) (c : Copy) :
    (∀ x ∈ (s.copyDone c).copies, x.id ≠ c.id) ∧
    (s.mem.wf = true → (s.copyDone c).mem.wf = true ∧ ∀ a, s.rests W a → (s.copyDone c).mem.read a = s.mem.read a) := by
  unfold State.copyDone
  simp only []
  have h : Accessed W s (List.foldl (fun (s : State) l => s.writeBackLlc c.die l) s
      (List.map (fun x => x.line) (List.filter (fun x => x.agent == Agent.llc c.die && x.siDirty != 0) s.lines))) :=
    .foldl _ _ s fun u l _ => writeBackLlc_acc W u c.die l
  generalize List.foldl (fun (s : State) l => s.writeBackLlc c.die l) s
      (List.map (fun x => x.line) (List.filter (fun x => x.agent == Agent.llc c.die && x.siDirty != 0) s.lines)) = u at h
  obtain ⟨e1, e2⟩ := advanceBatches_mem ({ u with copies := u.copies.filter fun x => x.id != c.id }) c.team
  rw [e1, e2]
  refine ⟨fun x hx => ?_, fun hw => ⟨h.wf hw, fun a ha => (h.rests hw a ha).2⟩⟩
  simpa using (List.mem_filter.1 hx).2

end Sys2Proof.Machine
end

