-- ==== Sys2Proof/Laws/Exec.lean ====
section
/-! SUPPORT. What `exec` answers for each constructor: its meaning. One equation each, so that no proof unfolds the dispatch. -/

namespace Sys2Proof.Machine

@[simp] theorem exec_addI32 {p} {f} (s : State) : exec (.addI32 p f) s = execAddI32 p f s := rfl
@[simp] theorem exec_subI32 {p} {f} (s : State) : exec (.subI32 p f) s = execSubI32 p f s := rfl
@[simp] theorem exec_mulI32 {p} {f} (s : State) : exec (.mulI32 p f) s = execMulI32 p f s := rfl
@[simp] theorem exec_mulhI32 {p} {f} (s : State) : exec (.mulhI32 p f) s = execMulhI32 p f s := rfl
@[simp] theorem exec_minI32 {p} {f} (s : State) : exec (.minI32 p f) s = execMinI32 p f s := rfl
@[simp] theorem exec_maxI32 {p} {f} (s : State) : exec (.maxI32 p f) s = execMaxI32 p f s := rfl
@[simp] theorem exec_addsI32 {p} {f} (s : State) : exec (.addsI32 p f) s = execAddsI32 p f s := rfl
@[simp] theorem exec_subsI32 {p} {f} (s : State) : exec (.subsI32 p f) s = execSubsI32 p f s := rfl
@[simp] theorem exec_addN32 {p} {f} (s : State) : exec (.addN32 p f) s = execAddN32 p f s := rfl
@[simp] theorem exec_subN32 {p} {f} (s : State) : exec (.subN32 p f) s = execSubN32 p f s := rfl
@[simp] theorem exec_mulN32 {p} {f} (s : State) : exec (.mulN32 p f) s = execMulN32 p f s := rfl
@[simp] theorem exec_mulhN32 {p} {f} (s : State) : exec (.mulhN32 p f) s = execMulhN32 p f s := rfl
@[simp] theorem exec_minN32 {p} {f} (s : State) : exec (.minN32 p f) s = execMinN32 p f s := rfl
@[simp] theorem exec_maxN32 {p} {f} (s : State) : exec (.maxN32 p f) s = execMaxN32 p f s := rfl
@[simp] theorem exec_addsN32 {p} {f} (s : State) : exec (.addsN32 p f) s = execAddsN32 p f s := rfl
@[simp] theorem exec_subsN32 {p} {f} (s : State) : exec (.subsN32 p f) s = execSubsN32 p f s := rfl
@[simp] theorem exec_addI16 {p} {f} (s : State) : exec (.addI16 p f) s = execAddI16 p f s := rfl
@[simp] theorem exec_subI16 {p} {f} (s : State) : exec (.subI16 p f) s = execSubI16 p f s := rfl
@[simp] theorem exec_mulI16 {p} {f} (s : State) : exec (.mulI16 p f) s = execMulI16 p f s := rfl
@[simp] theorem exec_mulhI16 {p} {f} (s : State) : exec (.mulhI16 p f) s = execMulhI16 p f s := rfl
@[simp] theorem exec_minI16 {p} {f} (s : State) : exec (.minI16 p f) s = execMinI16 p f s := rfl
@[simp] theorem exec_maxI16 {p} {f} (s : State) : exec (.maxI16 p f) s = execMaxI16 p f s := rfl
@[simp] theorem exec_addsI16 {p} {f} (s : State) : exec (.addsI16 p f) s = execAddsI16 p f s := rfl
@[simp] theorem exec_subsI16 {p} {f} (s : State) : exec (.subsI16 p f) s = execSubsI16 p f s := rfl
@[simp] theorem exec_addN16 {p} {f} (s : State) : exec (.addN16 p f) s = execAddN16 p f s := rfl
@[simp] theorem exec_subN16 {p} {f} (s : State) : exec (.subN16 p f) s = execSubN16 p f s := rfl
@[simp] theorem exec_mulN16 {p} {f} (s : State) : exec (.mulN16 p f) s = execMulN16 p f s := rfl
@[simp] theorem exec_mulhN16 {p} {f} (s : State) : exec (.mulhN16 p f) s = execMulhN16 p f s := rfl
@[simp] theorem exec_minN16 {p} {f} (s : State) : exec (.minN16 p f) s = execMinN16 p f s := rfl
@[simp] theorem exec_maxN16 {p} {f} (s : State) : exec (.maxN16 p f) s = execMaxN16 p f s := rfl
@[simp] theorem exec_addsN16 {p} {f} (s : State) : exec (.addsN16 p f) s = execAddsN16 p f s := rfl
@[simp] theorem exec_subsN16 {p} {f} (s : State) : exec (.subsN16 p f) s = execSubsN16 p f s := rfl
@[simp] theorem exec_andB32 {p} {f} (s : State) : exec (.andB32 p f) s = execAndB32 p f s := rfl
@[simp] theorem exec_orB32 {p} {f} (s : State) : exec (.orB32 p f) s = execOrB32 p f s := rfl
@[simp] theorem exec_xorB32 {p} {f} (s : State) : exec (.xorB32 p f) s = execXorB32 p f s := rfl
@[simp] theorem exec_andnB32 {p} {f} (s : State) : exec (.andnB32 p f) s = execAndnB32 p f s := rfl
@[simp] theorem exec_shlB32 {p} {f} (s : State) : exec (.shlB32 p f) s = execShlB32 p f s := rfl
@[simp] theorem exec_shrB32 {p} {f} (s : State) : exec (.shrB32 p f) s = execShrB32 p f s := rfl
@[simp] theorem exec_sraB32 {p} {f} (s : State) : exec (.sraB32 p f) s = execSraB32 p f s := rfl
@[simp] theorem exec_rolB32 {p} {f} (s : State) : exec (.rolB32 p f) s = execRolB32 p f s := rfl
@[simp] theorem exec_notB {p} {f} (s : State) : exec (.notB p f) s = execNotB p f s := rfl
@[simp] theorem exec_popc {p} {f} (s : State) : exec (.popc p f) s = execPopc p f s := rfl
@[simp] theorem exec_clz {p} {f} (s : State) : exec (.clz p f) s = execClz p f s := rfl
@[simp] theorem exec_ctz {p} {f} (s : State) : exec (.ctz p f) s = execCtz p f s := rfl
@[simp] theorem exec_brev {p} {f} (s : State) : exec (.brev p f) s = execBrev p f s := rfl
@[simp] theorem exec_iabs {p} {f} (s : State) : exec (.iabs p f) s = execIabs p f s := rfl
@[simp] theorem exec_ineg {p} {f} (s : State) : exec (.ineg p f) s = execIneg p f s := rfl
@[simp] theorem exec_icmpEq {p} {f} (s : State) : exec (.icmpEq p f) s = execIcmpEq p f s := rfl
@[simp] theorem exec_icmpNe {p} {f} (s : State) : exec (.icmpNe p f) s = execIcmpNe p f s := rfl
@[simp] theorem exec_icmpLtI {p} {f} (s : State) : exec (.icmpLtI p f) s = execIcmpLtI p f s := rfl
@[simp] theorem exec_icmpLeI {p} {f} (s : State) : exec (.icmpLeI p f) s = execIcmpLeI p f s := rfl
@[simp] theorem exec_icmpLtN {p} {f} (s : State) : exec (.icmpLtN p f) s = execIcmpLtN p f s := rfl
@[simp] theorem exec_icmpLeN {p} {f} (s : State) : exec (.icmpLeN p f) s = execIcmpLeN p f s := rfl
@[simp] theorem exec_selLane {p} {f} (s : State) : exec (.selLane p f) s = execSelLane p f s := rfl
@[simp] theorem exec_addImm {p} {f} (s : State) : exec (.addImm p f) s = execAddImm p f s := rfl
@[simp] theorem exec_mulImm {p} {f} (s : State) : exec (.mulImm p f) s = execMulImm p f s := rfl
@[simp] theorem exec_andImm {p} {f} (s : State) : exec (.andImm p f) s = execAndImm p f s := rfl
@[simp] theorem exec_orImm {p} {f} (s : State) : exec (.orImm p f) s = execOrImm p f s := rfl
@[simp] theorem exec_xorImm {p} {f} (s : State) : exec (.xorImm p f) s = execXorImm p f s := rfl
@[simp] theorem exec_shlImm {p} {f} (s : State) : exec (.shlImm p f) s = execShlImm p f s := rfl
@[simp] theorem exec_shrImm {p} {f} (s : State) : exec (.shrImm p f) s = execShrImm p f s := rfl
@[simp] theorem exec_sraImm {p} {f} (s : State) : exec (.sraImm p f) s = execSraImm p f s := rfl
@[simp] theorem exec_icmpEqImm {p} {f} (s : State) : exec (.icmpEqImm p f) s = execIcmpEqImm p f s := rfl
@[simp] theorem exec_icmpNeImm {p} {f} (s : State) : exec (.icmpNeImm p f) s = execIcmpNeImm p f s := rfl
@[simp] theorem exec_icmpLtImm {p} {f} (s : State) : exec (.icmpLtImm p f) s = execIcmpLtImm p f s := rfl
@[simp] theorem exec_icmpLeImm {p} {f} (s : State) : exec (.icmpLeImm p f) s = execIcmpLeImm p f s := rfl
@[simp] theorem exec_icmpGtImm {p} {f} (s : State) : exec (.icmpGtImm p f) s = execIcmpGtImm p f s := rfl
@[simp] theorem exec_icmpGeImm {p} {f} (s : State) : exec (.icmpGeImm p f) s = execIcmpGeImm p f s := rfl
@[simp] theorem exec_movi {p} {f} (s : State) : exec (.movi p f) s = execMovi p f s := rfl
@[simp] theorem exec_fadd {p} {f} (s : State) : exec (.fadd p f) s = execFadd p f s := rfl
@[simp] theorem exec_fsub {p} {f} (s : State) : exec (.fsub p f) s = execFsub p f s := rfl
@[simp] theorem exec_fmul {p} {f} (s : State) : exec (.fmul p f) s = execFmul p f s := rfl
@[simp] theorem exec_fma {p} {f} (s : State) : exec (.fma p f) s = execFma p f s := rfl
@[simp] theorem exec_fmin {p} {f} (s : State) : exec (.fmin p f) s = execFmin p f s := rfl
@[simp] theorem exec_fmax {p} {f} (s : State) : exec (.fmax p f) s = execFmax p f s := rfl
@[simp] theorem exec_fabs {p} {f} (s : State) : exec (.fabs p f) s = execFabs p f s := rfl
@[simp] theorem exec_fneg {p} {f} (s : State) : exec (.fneg p f) s = execFneg p f s := rfl
@[simp] theorem exec_faddBf16 {p} {f} (s : State) : exec (.faddBf16 p f) s = execFaddBf16 p f s := rfl
@[simp] theorem exec_fsubBf16 {p} {f} (s : State) : exec (.fsubBf16 p f) s = execFsubBf16 p f s := rfl
@[simp] theorem exec_fmulBf16 {p} {f} (s : State) : exec (.fmulBf16 p f) s = execFmulBf16 p f s := rfl
@[simp] theorem exec_fmaBf16 {p} {f} (s : State) : exec (.fmaBf16 p f) s = execFmaBf16 p f s := rfl
@[simp] theorem exec_fminBf16 {p} {f} (s : State) : exec (.fminBf16 p f) s = execFminBf16 p f s := rfl
@[simp] theorem exec_fmaxBf16 {p} {f} (s : State) : exec (.fmaxBf16 p f) s = execFmaxBf16 p f s := rfl
@[simp] theorem exec_fabsBf16 {p} {f} (s : State) : exec (.fabsBf16 p f) s = execFabsBf16 p f s := rfl
@[simp] theorem exec_fnegBf16 {p} {f} (s : State) : exec (.fnegBf16 p f) s = execFnegBf16 p f s := rfl
@[simp] theorem exec_fcmpEq {p} {f} (s : State) : exec (.fcmpEq p f) s = execFcmpEq p f s := rfl
@[simp] theorem exec_fcmpNe {p} {f} (s : State) : exec (.fcmpNe p f) s = execFcmpNe p f s := rfl
@[simp] theorem exec_fcmpLt {p} {f} (s : State) : exec (.fcmpLt p f) s = execFcmpLt p f s := rfl
@[simp] theorem exec_fcmpLe {p} {f} (s : State) : exec (.fcmpLe p f) s = execFcmpLe p f s := rfl
@[simp] theorem exec_fcmpGt {p} {f} (s : State) : exec (.fcmpGt p f) s = execFcmpGt p f s := rfl
@[simp] theorem exec_fcmpGe {p} {f} (s : State) : exec (.fcmpGe p f) s = execFcmpGe p f s := rfl
@[simp] theorem exec_fcmpUn {p} {f} (s : State) : exec (.fcmpUn p f) s = execFcmpUn p f s := rfl
@[simp] theorem exec_fclass {p} {f} (s : State) : exec (.fclass p f) s = execFclass p f s := rfl
@[simp] theorem exec_faddx {p} {f} (s : State) : exec (.faddx p f) s = execFaddx p f s := rfl
@[simp] theorem exec_fsubx {p} {f} (s : State) : exec (.fsubx p f) s = execFsubx p f s := rfl
@[simp] theorem exec_fmulx {p} {f} (s : State) : exec (.fmulx p f) s = execFmulx p f s := rfl
@[simp] theorem exec_dwadd {p} {f} (s : State) : exec (.dwadd p f) s = execDwadd p f s := rfl
@[simp] theorem exec_dwmul {p} {f} (s : State) : exec (.dwmul p f) s = execDwmul p f s := rfl
@[simp] theorem exec_dwfma {p} {f} (s : State) : exec (.dwfma p f) s = execDwfma p f s := rfl
@[simp] theorem exec_dwdiv {p} {f} (s : State) : exec (.dwdiv p f) s = execDwdiv p f s := rfl
@[simp] theorem exec_dwsqrt {p} {f} (s : State) : exec (.dwsqrt p f) s = execDwsqrt p f s := rfl
@[simp] theorem exec_rcp {p} {f} (s : State) : exec (.rcp p f) s = execRcp p f s := rfl
@[simp] theorem exec_rsq {p} {f} (s : State) : exec (.rsq p f) s = execRsq p f s := rfl
@[simp] theorem exec_exp2 {p} {f} (s : State) : exec (.exp2 p f) s = execExp2 p f s := rfl
@[simp] theorem exec_log2 {p} {f} (s : State) : exec (.log2 p f) s = execLog2 p f s := rfl
@[simp] theorem exec_sin {p} {f} (s : State) : exec (.sin p f) s = execSin p f s := rfl
@[simp] theorem exec_cos {p} {f} (s : State) : exec (.cos p f) s = execCos p f s := rfl
@[simp] theorem exec_gelu {p} {f} (s : State) : exec (.gelu p f) s = execGelu p f s := rfl
@[simp] theorem exec_silu {p} {f} (s : State) : exec (.silu p f) s = execSilu p f s := rfl
@[simp] theorem exec_splus {p} {f} (s : State) : exec (.splus p f) s = execSplus p f s := rfl
@[simp] theorem exec_tanh {p} {f} (s : State) : exec (.tanh p f) s = execTanh p f s := rfl
@[simp] theorem exec_sigm {p} {f} (s : State) : exec (.sigm p f) s = execSigm p f s := rfl
@[simp] theorem exec_cvt {p} {c} {f} (s : State) : exec (.cvt p c f) s = execCvt p c f s := rfl
@[simp] theorem exec_cvtmx {p} {c} {f} (s : State) : exec (.cvtmx p c f) s = execCvtmx p c f s := rfl
@[simp] theorem exec_mov {p} {f} (s : State) : exec (.mov p f) s = execMov p f s := rfl
@[simp] theorem exec_movs {p} {f} (s : State) : exec (.movs p f) s = execMovs p f s := rfl
@[simp] theorem exec_movx {p} {f} (s : State) : exec (.movx p f) s = execMovx p f s := rfl
@[simp] theorem exec_idx {p} {f} (s : State) : exec (.idx p f) s = execIdx p f s := rfl
@[simp] theorem exec_ballot {p} {f} (s : State) : exec (.ballot p f) s = execBallot p f s := rfl
@[simp] theorem exec_cred {p} {f} (s : State) : exec (.cred p f) s = execCred p f s := rfl
@[simp] theorem exec_tcred {p} {f} (s : State) : exec (.tcred p f) s = execTcred p f s := rfl
@[simp] theorem exec_shflIdx {p} {f} (s : State) : exec (.shflIdx p f) s = execShflIdx p f s := rfl
@[simp] theorem exec_shflXor {p} {f} (s : State) : exec (.shflXor p f) s = execShflXor p f s := rfl
@[simp] theorem exec_shflUp {p} {f} (s : State) : exec (.shflUp p f) s = execShflUp p f s := rfl
@[simp] theorem exec_shflDn {p} {f} (s : State) : exec (.shflDn p f) s = execShflDn p f s := rfl
@[simp] theorem exec_pshw {p} {f} (s : State) : exec (.pshw p f) s = execPshw p f s := rfl
@[simp] theorem exec_voteAny {p} {f} (s : State) : exec (.voteAny p f) s = execVoteAny p f s := rfl
@[simp] theorem exec_voteAll {p} {f} (s : State) : exec (.voteAll p f) s = execVoteAll p f s := rfl
@[simp] theorem exec_voteEq {p} {f} (s : State) : exec (.voteEq p f) s = execVoteEq p f s := rfl
@[simp] theorem exec_ld {p} {ty} {f} (s : State) : exec (.ld p ty f) s = execLd p ty f s := rfl
@[simp] theorem exec_st {p} {ty} {f} (s : State) : exec (.st p ty f) s = execSt p ty f s := rfl
@[simp] theorem exec_ldImm {p} {ty} {f} (s : State) : exec (.ldImm p ty f) s = execLdImm p ty f s := rfl
@[simp] theorem exec_stImm {p} {ty} {f} (s : State) : exec (.stImm p ty f) s = execStImm p ty f s := rfl
@[simp] theorem exec_ldAcq {p} {ty} {f} (s : State) : exec (.ldAcq p ty f) s = execLdAcq p ty f s := rfl
@[simp] theorem exec_stRel {p} {ty} {f} (s : State) : exec (.stRel p ty f) s = execStRel p ty f s := rfl
@[simp] theorem exec_ldb {p} {ty} {f} (s : State) : exec (.ldb p ty f) s = execLdb p ty f s := rfl
@[simp] theorem exec_ldw {p} {ty} {f} (s : State) : exec (.ldw p ty f) s = execLdw p ty f s := rfl
@[simp] theorem exec_ldt {p} {ty} {f} (s : State) : exec (.ldt p ty f) s = execLdt p ty f s := rfl
@[simp] theorem exec_atomI32 {p} {op} {f} (s : State) : exec (.atomI32 p op f) s = execAtomI32 p op f s := rfl
@[simp] theorem exec_atomN32 {p} {op} {f} (s : State) : exec (.atomN32 p op f) s = execAtomN32 p op f s := rfl
@[simp] theorem exec_atomI64 {p} {op} {f} (s : State) : exec (.atomI64 p op f) s = execAtomI64 p op f s := rfl
@[simp] theorem exec_atomN64 {p} {op} {f} (s : State) : exec (.atomN64 p op f) s = execAtomN64 p op f s := rfl
@[simp] theorem exec_atomCas {p} {aty} {f} (s : State) : exec (.atomCas p aty f) s = execAtomCas p aty f s := rfl
@[simp] theorem exec_fxacc {p} {t} {f} (s : State) : exec (.fxacc p t f) s = execFxacc p t f s := rfl
@[simp] theorem exec_fxaccSc {p} {f} (s : State) : exec (.fxaccSc p f) s = execFxaccSc p f s := rfl
@[simp] theorem exec_fxrd {p} {t} {f} (s : State) : exec (.fxrd p t f) s = execFxrd p t f s := rfl
@[simp] theorem exec_rwb {p} {f} (s : State) : exec (.rwb p f) s = execRwb p f s := rfl
@[simp] theorem exec_rinv {p} {f} (s : State) : exec (.rinv p f) s = execRinv p f s := rfl
@[simp] theorem exec_rdisc {p} {f} (s : State) : exec (.rdisc p f) s = execRdisc p f s := rfl
@[simp] theorem exec_decode {p} {f} (s : State) : exec (.decode p f) s = execDecode p f s := rfl
@[simp] theorem exec_vsampNear {p} {f} (s : State) : exec (.vsampNear p f) s = execVsampNear p f s := rfl
@[simp] theorem exec_vsampTri {p} {f} (s : State) : exec (.vsampTri p f) s = execVsampTri p f s := rfl
@[simp] theorem exec_rbox {p} {f} (s : State) : exec (.rbox p f) s = execRbox p f s := rfl
@[simp] theorem exec_rboxIdx {p} {f} (s : State) : exec (.rboxIdx p f) s = execRboxIdx p f s := rfl
@[simp] theorem exec_scalarAdd {f} (s : State) : exec (.scalarAdd f) s = execScalarAdd f s := rfl
@[simp] theorem exec_scalarSub {f} (s : State) : exec (.scalarSub f) s = execScalarSub f s := rfl
@[simp] theorem exec_scalarMul {f} (s : State) : exec (.scalarMul f) s = execScalarMul f s := rfl
@[simp] theorem exec_mulhI64 {f} (s : State) : exec (.mulhI64 f) s = execMulhI64 f s := rfl
@[simp] theorem exec_mulhN64 {f} (s : State) : exec (.mulhN64 f) s = execMulhN64 f s := rfl
@[simp] theorem exec_divI64 {f} (s : State) : exec (.divI64 f) s = execDivI64 f s := rfl
@[simp] theorem exec_divN64 {f} (s : State) : exec (.divN64 f) s = execDivN64 f s := rfl
@[simp] theorem exec_remI64 {f} (s : State) : exec (.remI64 f) s = execRemI64 f s := rfl
@[simp] theorem exec_remN64 {f} (s : State) : exec (.remN64 f) s = execRemN64 f s := rfl
@[simp] theorem exec_minI64 {f} (s : State) : exec (.minI64 f) s = execMinI64 f s := rfl
@[simp] theorem exec_minN64 {f} (s : State) : exec (.minN64 f) s = execMinN64 f s := rfl
@[simp] theorem exec_maxI64 {f} (s : State) : exec (.maxI64 f) s = execMaxI64 f s := rfl
@[simp] theorem exec_maxN64 {f} (s : State) : exec (.maxN64 f) s = execMaxN64 f s := rfl
@[simp] theorem exec_scalarIcmp {f} (s : State) : exec (.scalarIcmp f) s = execScalarIcmp f s := rfl
@[simp] theorem exec_scalarSel {f} (s : State) : exec (.scalarSel f) s = execScalarSel f s := rfl
@[simp] theorem exec_scalarAnd {f} (s : State) : exec (.scalarAnd f) s = execScalarAnd f s := rfl
@[simp] theorem exec_scalarOr {f} (s : State) : exec (.scalarOr f) s = execScalarOr f s := rfl
@[simp] theorem exec_scalarXor {f} (s : State) : exec (.scalarXor f) s = execScalarXor f s := rfl
@[simp] theorem exec_scalarAndn {f} (s : State) : exec (.scalarAndn f) s = execScalarAndn f s := rfl
@[simp] theorem exec_scalarShl {f} (s : State) : exec (.scalarShl f) s = execScalarShl f s := rfl
@[simp] theorem exec_scalarShr {f} (s : State) : exec (.scalarShr f) s = execScalarShr f s := rfl
@[simp] theorem exec_scalarSra {f} (s : State) : exec (.scalarSra f) s = execScalarSra f s := rfl
@[simp] theorem exec_scalarRol {f} (s : State) : exec (.scalarRol f) s = execScalarRol f s := rfl
@[simp] theorem exec_scalarAddImm {f} (s : State) : exec (.scalarAddImm f) s = execScalarAddImm f s := rfl
@[simp] theorem exec_scalarMulImm {f} (s : State) : exec (.scalarMulImm f) s = execScalarMulImm f s := rfl
@[simp] theorem exec_scalarAndImm {f} (s : State) : exec (.scalarAndImm f) s = execScalarAndImm f s := rfl
@[simp] theorem exec_scalarOrImm {f} (s : State) : exec (.scalarOrImm f) s = execScalarOrImm f s := rfl
@[simp] theorem exec_scalarXorImm {f} (s : State) : exec (.scalarXorImm f) s = execScalarXorImm f s := rfl
@[simp] theorem exec_scalarShlImm {f} (s : State) : exec (.scalarShlImm f) s = execScalarShlImm f s := rfl
@[simp] theorem exec_scalarShrImm {f} (s : State) : exec (.scalarShrImm f) s = execScalarShrImm f s := rfl
@[simp] theorem exec_scalarSraImm {f} (s : State) : exec (.scalarSraImm f) s = execScalarSraImm f s := rfl
@[simp] theorem exec_movl {f} (s : State) : exec (.movl f) s = execMovl f s := rfl
@[simp] theorem exec_movhH1 {f} (s : State) : exec (.movhH1 f) s = execMovhH1 f s := rfl
@[simp] theorem exec_movhH2 {f} (s : State) : exec (.movhH2 f) s = execMovhH2 f s := rfl
@[simp] theorem exec_movhH3 {f} (s : State) : exec (.movhH3 f) s = execMovhH3 f s := rfl
@[simp] theorem exec_scalarMov {f} (s : State) : exec (.scalarMov f) s = execScalarMov f s := rfl
@[simp] theorem exec_scalarNot {f} (s : State) : exec (.scalarNot f) s = execScalarNot f s := rfl
@[simp] theorem exec_scalarPopc {f} (s : State) : exec (.scalarPopc f) s = execScalarPopc f s := rfl
@[simp] theorem exec_scalarClz {f} (s : State) : exec (.scalarClz f) s = execScalarClz f s := rfl
@[simp] theorem exec_scalarCtz {f} (s : State) : exec (.scalarCtz f) s = execScalarCtz f s := rfl
@[simp] theorem exec_scalarBrev {f} (s : State) : exec (.scalarBrev f) s = execScalarBrev f s := rfl
@[simp] theorem exec_csrr {f} (s : State) : exec (.csrr f) s = execCsrr f s := rfl
@[simp] theorem exec_csrw {f} (s : State) : exec (.csrw f) s = execCsrw f s := rfl
@[simp] theorem exec_scalarLd {sc} {f} (s : State) : exec (.scalarLd sc f) s = execScalarLd sc f s := rfl
@[simp] theorem exec_scalarSt {sc} {f} (s : State) : exec (.scalarSt sc f) s = execScalarSt sc f s := rfl
@[simp] theorem exec_scalarAtomAdd {f} (s : State) : exec (.scalarAtomAdd f) s = execScalarAtomAdd f s := rfl
@[simp] theorem exec_scalarAtomMin {f} (s : State) : exec (.scalarAtomMin f) s = execScalarAtomMin f s := rfl
@[simp] theorem exec_scalarAtomMax {f} (s : State) : exec (.scalarAtomMax f) s = execScalarAtomMax f s := rfl
@[simp] theorem exec_scalarAtomAnd {f} (s : State) : exec (.scalarAtomAnd f) s = execScalarAtomAnd f s := rfl
@[simp] theorem exec_scalarAtomOr {f} (s : State) : exec (.scalarAtomOr f) s = execScalarAtomOr f s := rfl
@[simp] theorem exec_scalarAtomXor {f} (s : State) : exec (.scalarAtomXor f) s = execScalarAtomXor f s := rfl
@[simp] theorem exec_scalarAtomXchg {f} (s : State) : exec (.scalarAtomXchg f) s = execScalarAtomXchg f s := rfl
@[simp] theorem exec_scalarAtomCas {f} (s : State) : exec (.scalarAtomCas f) s = execScalarAtomCas f s := rfl
@[simp] theorem exec_bra {f} (s : State) : exec (.bra f) s = execBra f s := rfl
@[simp] theorem exec_brcEqz {f} (s : State) : exec (.brcEqz f) s = execBrcEqz f s := rfl
@[simp] theorem exec_brcNez {f} (s : State) : exec (.brcNez f) s = execBrcNez f s := rfl
@[simp] theorem exec_brcLtz {f} (s : State) : exec (.brcLtz f) s = execBrcLtz f s := rfl
@[simp] theorem exec_brcGez {f} (s : State) : exec (.brcGez f) s = execBrcGez f s := rfl
@[simp] theorem exec_brv {f} (s : State) : exec (.brv f) s = execBrv f s := rfl
@[simp] theorem exec_brvAny {f} (s : State) : exec (.brvAny f) s = execBrvAny f s := rfl
@[simp] theorem exec_brvAll {f} (s : State) : exec (.brvAll f) s = execBrvAll f s := rfl
@[simp] theorem exec_brvNone {f} (s : State) : exec (.brvNone f) s = execBrvNone f s := rfl
@[simp] theorem exec_call {f} (s : State) : exec (.call f) s = execCall f s := rfl
@[simp] theorem exec_recMark {f} (s : State) : exec (.recMark f) s = execRecMark f s := rfl
@[simp] theorem exec_setmAnd {f} (s : State) : exec (.setmAnd f) s = execSetmAnd f s := rfl
@[simp] theorem exec_setmOr {f} (s : State) : exec (.setmOr f) s = execSetmOr f s := rfl
@[simp] theorem exec_setmXor {f} (s : State) : exec (.setmXor f) s = execSetmXor f s := rfl
@[simp] theorem exec_setmAndn {f} (s : State) : exec (.setmAndn f) s = execSetmAndn f s := rfl
@[simp] theorem exec_setmNot {f} (s : State) : exec (.setmNot f) s = execSetmNot f s := rfl
@[simp] theorem exec_setmMov {f} (s : State) : exec (.setmMov f) s = execSetmMov f s := rfl
@[simp] theorem exec_setmAll {f} (s : State) : exec (.setmAll f) s = execSetmAll f s := rfl
@[simp] theorem exec_setmNone {f} (s : State) : exec (.setmNone f) s = execSetmNone f s := rfl
@[simp] theorem exec_getm {f} (s : State) : exec (.getm f) s = execGetm f s := rfl
@[simp] theorem exec_fence {f} (s : State) : exec (.fence f) s = execFence f s := rfl
@[simp] theorem exec_mma {sb} {f} (s : State) : exec (.mma sb f) s = execMma sb f s := rfl
@[simp] theorem exec_mmag {sb} {f} (s : State) : exec (.mmag sb f) s = execMmag sb f s := rfl
@[simp] theorem exec_mdrain {f} (s : State) : exec (.mdrain f) s = execMdrain f s := rfl
@[simp] theorem exec_cpy {sc} {f} (s : State) : exec (.cpy sc f) s = execCpy sc f s := rfl
@[simp] theorem exec_cpymgInj {sc} {f} (s : State) : exec (.cpymgInj sc f) s = execCpymgInj sc f s := rfl
@[simp] theorem exec_cpymgFw {sc} {f} (s : State) : exec (.cpymgFw sc f) s = execCpymgFw sc f s := rfl
@[simp] theorem exec_cpymgPro {sc} {f} (s : State) : exec (.cpymgPro sc f) s = execCpymgPro sc f s := rfl
@[simp] theorem exec_cpymgProadd {sc} {f} (s : State) : exec (.cpymgProadd sc f) s = execCpymgProadd sc f s := rfl
@[simp] theorem exec_cpymgCvt {sc} {f} (s : State) : exec (.cpymgCvt sc f) s = execCpymgCvt sc f s := rfl
@[simp] theorem exec_cpyred {sc} {f} (s : State) : exec (.cpyred sc f) s = execCpyred sc f s := rfl
@[simp] theorem exec_emit {f} (s : State) : exec (.emit f) s = execEmit f s := rfl
@[simp] theorem exec_spawn {f} (s : State) : exec (.spawn f) s = execSpawn f s := rfl
@[simp] theorem exec_pharv {f} (s : State) : exec (.pharv f) s = execPharv f s := rfl
@[simp] theorem exec_phwait {f} (s : State) : exec (.phwait f) s = execPhwait f s := rfl
@[simp] theorem exec_prefBw {f} (s : State) : exec (.prefBw f) s = execPrefBw f s := rfl
@[simp] theorem exec_prefTc {f} (s : State) : exec (.prefTc f) s = execPrefTc f s := rfl
@[simp] theorem exec_fctlReseed (s : State) : exec .fctlReseed s = execFctlReseed s := rfl
@[simp] theorem exec_ret (s : State) : exec .ret s = execRet s := rfl
@[simp] theorem exec_callr (s : State) : exec .callr s = execCallr s := rfl
@[simp] theorem exec_jmpr (s : State) : exec .jmpr s = execJmpr s := rfl
@[simp] theorem exec_join (s : State) : exec .join s = execJoin s := rfl
@[simp] theorem exec_endTeam (s : State) : exec .endTeam s = execEndTeam s := rfl
@[simp] theorem exec_yield (s : State) : exec .yield s = execYield s := rfl
@[simp] theorem exec_rft (s : State) : exec .rft s = execRft s := rfl
@[simp] theorem exec_trapCode (s : State) : exec .trapCode s = execTrapCode s := rfl
@[simp] theorem exec_callv (s : State) : exec .callv s = execCallv s := rfl
@[simp] theorem exec_bar (s : State) : exec .bar s = execBar s := rfl
@[simp] theorem exec_cbar (s : State) : exec .cbar s = execCbar s := rfl
@[simp] theorem exec_dbar (s : State) : exec .dbar s = execDbar s := rfl
@[simp] theorem exec_mzero (s : State) : exec .mzero s = execMzero s := rfl
@[simp] theorem exec_cpyclose (s : State) : exec .cpyclose s = execCpyclose s := rfl
@[simp] theorem exec_cpywait (s : State) : exec .cpywait s = execCpywait s := rfl
@[simp] theorem exec_pack (s : State) : exec .pack s = execPack s := rfl
@[simp] theorem exec_producerRowFull (s : State) : exec .producerRowFull s = execProducerRowFull s := rfl
@[simp] theorem exec_matrixComplete (s : State) : exec .matrixComplete s = execMatrixComplete s := rfl
@[simp] theorem exec_gangLatchComplete (s : State) : exec .gangLatchComplete s = execGangLatchComplete s := rfl
@[simp] theorem exec_barrierComplete (s : State) : exec .barrierComplete s = execBarrierComplete s := rfl
@[simp] theorem exec_copyCommandComplete (s : State) : exec .copyCommandComplete s = execCopyCommandComplete s := rfl
@[simp] theorem exec_cpyredContribution (s : State) : exec .cpyredContribution s = execCpyredContribution s := rfl
@[simp] theorem exec_teamStart (s : State) : exec .teamStart s = execTeamStart s := rfl
@[simp] theorem exec_contextSave (s : State) : exec .contextSave s = execContextSave s := rfl
@[simp] theorem exec_teamRestore (s : State) : exec .teamRestore s = execTeamRestore s := rfl
@[simp] theorem exec_timeSlice (s : State) : exec .timeSlice s = execTimeSlice s := rfl
@[simp] theorem exec_teamRetire (s : State) : exec .teamRetire s = execTeamRetire s := rfl
@[simp] theorem exec_queueDoorbell (s : State) : exec .queueDoorbell s = execQueueDoorbell s := rfl
@[simp] theorem exec_dispatchDecision (s : State) : exec .dispatchDecision s = execDispatchDecision s := rfl
@[simp] theorem exec_queuePromotion (s : State) : exec .queuePromotion s = execQueuePromotion s := rfl
@[simp] theorem exec_binFlush (s : State) : exec .binFlush s = execBinFlush s := rfl
@[simp] theorem exec_gatherTimeout (s : State) : exec .gatherTimeout s = execGatherTimeout s := rfl
@[simp] theorem exec_aggregatorFlush (s : State) : exec .aggregatorFlush s = execAggregatorFlush s := rfl
@[simp] theorem exec_aggregatorTimeout (s : State) : exec .aggregatorTimeout s = execAggregatorTimeout s := rfl
@[simp] theorem exec_drain (s : State) : exec .drain s = execDrain s := rfl
@[simp] theorem exec_drainEscalation (s : State) : exec .drainEscalation s = execDrainEscalation s := rfl
@[simp] theorem exec_drainComplete (s : State) : exec .drainComplete s = execDrainComplete s := rfl
@[simp] theorem exec_resume (s : State) : exec .resume s = execResume s := rfl
@[simp] theorem exec_geth (s : State) : exec .geth s = execGeth s := rfl
@[simp] theorem exec_getu (s : State) : exec .getu s = execGetu s := rfl
@[simp] theorem exec_gett (s : State) : exec .gett s = execGett s := rfl
@[simp] theorem exec_geto (s : State) : exec .geto s = execGeto s := rfl
@[simp] theorem exec_oph (s : State) : exec .oph s = execOph s := rfl
@[simp] theorem exec_packMessage (s : State) : exec .packMessage s = execPackMessage s := rfl
@[simp] theorem exec_putp (s : State) : exec .putp s = execPutp s := rfl
@[simp] theorem exec_putt (s : State) : exec .putt s = execPutt s := rfl
@[simp] theorem exec_wb (s : State) : exec .wb s = execWb s := rfl
@[simp] theorem exec_strip (s : State) : exec .strip s = execStrip s := rfl
@[simp] theorem exec_flush (s : State) : exec .flush s = execFlush s := rfl
@[simp] theorem exec_invMsg (s : State) : exec .invMsg s = execInvMsg s := rfl
@[simp] theorem exec_stripack (s : State) : exec .stripack s = execStripack s := rfl
@[simp] theorem exec_flushack (s : State) : exec .flushack s = execFlushack s := rfl
@[simp] theorem exec_invack (s : State) : exec .invack s = execInvack s := rfl
@[simp] theorem exec_dataMsg (s : State) : exec .dataMsg s = execDataMsg s := rfl
@[simp] theorem exec_cmpMsg (s : State) : exec .cmpMsg s = execCmpMsg s := rfl
@[simp] theorem exec_doneMsg (s : State) : exec .doneMsg s = execDoneMsg s := rfl
@[simp] theorem exec_snpdata (s : State) : exec .snpdata s = execSnpdata s := rfl
@[simp] theorem exec_snpinv (s : State) : exec .snpinv s = execSnpinv s := rfl
@[simp] theorem exec_snpcur (s : State) : exec .snpcur s = execSnpcur s := rfl
@[simp] theorem exec_cxlCacheResponse (s : State) : exec .cxlCacheResponse s = execCxlCacheResponse s := rfl
@[simp] theorem exec_memrd (s : State) : exec .memrd s = execMemrd s := rfl
@[simp] theorem exec_memwr (s : State) : exec .memwr s = execMemwr s := rfl
@[simp] theorem exec_birsp (s : State) : exec .birsp s = execBirsp s := rfl
@[simp] theorem exec_windowRead (s : State) : exec .windowRead s = execWindowRead s := rfl
@[simp] theorem exec_windowWrite (s : State) : exec .windowWrite s = execWindowWrite s := rfl
@[simp] theorem exec_routeFailure (s : State) : exec .routeFailure s = execRouteFailure s := rfl
@[simp] theorem exec_resendTimeout (s : State) : exec .resendTimeout s = execResendTimeout s := rfl
@[simp] theorem exec_tierCacheFill (s : State) : exec .tierCacheFill s = execTierCacheFill s := rfl
@[simp] theorem exec_hotnessSample (s : State) : exec .hotnessSample s = execHotnessSample s := rfl
@[simp] theorem exec_hotnessHalving (s : State) : exec .hotnessHalving s = execHotnessHalving s := rfl
@[simp] theorem exec_throttleExpiry (s : State) : exec .throttleExpiry s = execThrottleExpiry s := rfl
@[simp] theorem exec_migrateBlock (s : State) : exec .migrateBlock s = execMigrateBlock s := rfl
@[simp] theorem exec_migrateCopy (s : State) : exec .migrateCopy s = execMigrateCopy s := rfl
@[simp] theorem exec_migrateMap (s : State) : exec .migrateMap s = execMigrateMap s := rfl
@[simp] theorem exec_migrateReplay (s : State) : exec .migrateReplay s = execMigrateReplay s := rfl
@[simp] theorem exec_freeFrameRecord (s : State) : exec .freeFrameRecord s = execFreeFrameRecord s := rfl
@[simp] theorem exec_migrationRequest (s : State) : exec .migrationRequest s = execMigrationRequest s := rfl
@[simp] theorem exec_faultReply (s : State) : exec .faultReply s = execFaultReply s := rfl
@[simp] theorem exec_invalidationRecord (s : State) : exec .invalidationRecord s = execInvalidationRecord s := rfl
@[simp] theorem exec_invalidationComplete (s : State) : exec .invalidationComplete s = execInvalidationComplete s := rfl
@[simp] theorem exec_ringTailWrite (s : State) : exec .ringTailWrite s = execRingTailWrite s := rfl
@[simp] theorem exec_ringHeadWrite (s : State) : exec .ringHeadWrite s = execRingHeadWrite s := rfl
@[simp] theorem exec_deviceErrorRecord (s : State) : exec .deviceErrorRecord s = execDeviceErrorRecord s := rfl
@[simp] theorem exec_controlRegisterWrite (s : State) : exec .controlRegisterWrite s = execControlRegisterWrite s := rfl
@[simp] theorem exec_attestReport (s : State) : exec .attestReport s = execAttestReport s := rfl
@[simp] theorem exec_attestCertChain (s : State) : exec .attestCertChain s = execAttestCertChain s := rfl
@[simp] theorem exec_attestStageImage (s : State) : exec .attestStageImage s = execAttestStageImage s := rfl
@[simp] theorem exec_attestIdentityKey (s : State) : exec .attestIdentityKey s = execAttestIdentityKey s := rfl
@[simp] theorem exec_attestDone (s : State) : exec .attestDone s = execAttestDone s := rfl
@[simp] theorem exec_abfortFlitReceive (s : State) : exec .abfortFlitReceive s = execAbfortFlitReceive s := rfl
@[simp] theorem exec_linkAckTimeout (s : State) : exec .linkAckTimeout s = execLinkAckTimeout s := rfl
@[simp] theorem exec_peerInboundRequest (s : State) : exec .peerInboundRequest s = execPeerInboundRequest s := rfl
@[simp] theorem exec_rowRemap (s : State) : exec .rowRemap s = execRowRemap s := rfl
@[simp] theorem exec_evacuation (s : State) : exec .evacuation s = execEvacuation s := rfl
@[simp] theorem exec_dieLost (s : State) : exec .dieLost s = execDieLost s := rfl
@[simp] theorem exec_powerManagerTick (s : State) : exec .powerManagerTick s = execPowerManagerTick s := rfl
@[simp] theorem exec_coldReset (s : State) : exec .coldReset s = execColdReset s := rfl
@[simp] theorem exec_hostLinkTrained (s : State) : exec .hostLinkTrained s = execHostLinkTrained s := rfl
@[simp] theorem exec_dieSelfTestDone (s : State) : exec .dieSelfTestDone s = execDieSelfTestDone s := rfl
@[simp] theorem exec_hbmTrainingDone (s : State) : exec .hbmTrainingDone s = execHbmTrainingDone s := rfl
@[simp] theorem exec_cxlEnable (s : State) : exec .cxlEnable s = execCxlEnable s := rfl
@[simp] theorem exec_abfortTrainingDone (s : State) : exec .abfortTrainingDone s = execAbfortTrainingDone s := rfl
@[simp] theorem exec_peerAuthentication (s : State) : exec .peerAuthentication s = execPeerAuthentication s := rfl
@[simp] theorem exec_steppeReady (s : State) : exec .steppeReady s = execSteppeReady s := rfl
@[simp] theorem exec_functionLevelReset (s : State) : exec .functionLevelReset s = execFunctionLevelReset s := rfl
@[simp] theorem exec_illegalInstruction (s : State) : exec .illegalInstruction s = execIllegalInstruction s := rfl
@[simp] theorem exec_fetchFault (s : State) : exec .fetchFault s = execFetchFault s := rfl
@[simp] theorem exec_spdmRequest (s : State) : exec .spdmRequest s = execSpdmRequest s := rfl
@[simp] theorem exec_configurationRequest (s : State) : exec .configurationRequest s = execConfigurationRequest s := rfl

end Sys2Proof.Machine
end

