-- ==== Sys2Proof/Laws/Lane.lean ====
section
/-! SUPPORT. What a lane instruction leaves, once for all of them: the sweep over its rows by induction, then its checks and
its retirement. -/

namespace Sys2Proof.Machine

/-! ### Teams that differ in what rows write -/

/-- A team with other vector registers, generators and pending exceptions. -/
def Team.rowsOf (t : Team) (vreg : FMap Word32) (gen : FMap Word32) (exc : Mask) (fl : BitVec 5) : Team :=
  { t with vreg := vreg, gen := gen, exc := exc, excFlags := fl }

/-- A lane's computation, on teams with this `TILE`, reads no lane outside its row, and no pending exception. -/
def RowLocal (tile : Word64) (f : Team → Nat → LaneOut) : Prop :=
  ∀ (t : Team), t.tile = tile → ∀ (vreg gen : FMap Word32) (exc : Mask) (fl : BitVec 5) (l : Nat), l < 1024 →
    (∀ r j, j / 32 = l / 32 → fget 0 vreg (r * 1024 + j) = t.v r j) →
    (∀ j, j / 32 = l / 32 → fget (genSeedOf t.genSeed j) gen j = t.g j) →
    f (t.rowsOf vreg gen exc fl) l = f t l

/-- A lane's value of a register under its computation: the last it gives, else the old one. -/
def LaneOut.get (o : LaneOut) (r : Nat) (old : Word32) : Word32 :=
  match o.regs.reverse.find? (fun x => x.1 == r) with
  | some x => x.2
  | none => old

theorem rowsOf_self (t : Team) : t.rowsOf t.vreg t.gen t.exc t.excFlags = t := rfl

theorem rowsOf_rowsOf (t : Team) (a b : FMap Word32) (c : Mask) (d : BitVec 5) (a' b' : FMap Word32) (c' : Mask)
    (d' : BitVec 5) : (t.rowsOf a b c d).rowsOf a' b' c' d' = t.rowsOf a' b' c' d' := rfl

/-- The team after one generator write of a row, as `rowsOf`. -/
theorem foldl_setG (gs : List (Nat × Word32)) (t : Team) :
    gs.foldl (fun (t : Team) x => t.setG x.1 x.2) t =
      { t with gen := gs.foldl (fun m (x : Nat × Word32) => fput m x.1 x.2) t.gen } := by
  induction gs generalizing t with
  | nil => rfl
  | cons x r ih => simp only [List.foldl_cons, ih]; rfl

/-- A row written changes only what rows write, in a team with no word in error. -/
theorem writeRow_eq (t : Team) (o : RowOut) (hb : t.badWords = []) :
    t.writeRow o = t.rowsOf (o.writes.foldl (fun m (x : Nat × Word32) => fput m x.1 x.2) t.vreg)
      (o.gens.foldl (fun m (x : Nat × Word32) => fput m x.1 x.2) t.gen)
      (o.fl.foldl (fun m x => if x.2 &&& t.te != 0 then m ||| BitVec.ofNat 1024 (2 ^ x.1) else m) t.exc)
      (o.fl.foldl (fun a x => a ||| x.2) t.excFlags) := by
  simp only [Team.writeRow, foldl_setG, hb, List.filter_nil]
  unfold Team.rowsOf Team.noteFl
  rw [hb]
  rfl

theorem heal_none (t : Team) (regs : List Nat) (w : Nat) (hb : t.badWords = []) : t.heal regs w = t := by
  simp [Team.heal, hb]

/-! ### One row -/

theorem mem_rowLanes (w l : Nat) : l ∈ rowLanes w ↔ l / 32 = w := by
  simp only [rowLanes, List.mem_map, List.mem_range]
  constructor
  · rintro ⟨i, hi, rfl⟩; omega
  · intro h; exact ⟨l % 32, by omega, by omega⟩

theorem key_eq (r l r' l' : Nat) (h : l < 1024) (h' : l' < 1024) : r * 1024 + l = r' * 1024 + l' ↔ r = r' ∧ l = l' := by
  omega

/-- The pairs a row writes: an acting lane's values, a zeroed lane's zeros. -/
theorem mem_writes (t : Team) (p : Option Pfx) (dsts : List (Nat × Nat)) (f : Nat → LaneOut) (w k : Nat) (v : Word32) :
    (k, v) ∈ (lanesRow t p dsts f w).writes ↔
      (∃ l, l / 32 = w ∧ inMask (t.acting p) l = true ∧ ∃ r, (r, v) ∈ (f l).regs ∧ k = r * 1024 + l) ∨
      (∃ l, l / 32 = w ∧ inMask (t.zeroed p) l = true ∧ v = 0 ∧ ∃ r ∈ dsts.flatMap (fun d => run d.1 d.2), k = r * 1024 + l) := by
  simp only [lanesRow, List.mem_append, List.mem_flatMap, List.mem_map, List.mem_filter, mem_rowLanes, Prod.mk.injEq,
    Prod.exists]
  constructor
  · rintro (⟨a, b, ⟨l, ⟨h1, h2⟩, rfl, rfl⟩, r, v', h3, rfl, rfl⟩ | ⟨l, ⟨h1, h2⟩, r, h3, rfl, rfl⟩)
    · exact Or.inl ⟨_, h1, h2, r, h3, rfl⟩
    · exact Or.inr ⟨l, h1, h2, rfl, r, h3, rfl⟩
  · rintro (⟨l, h1, h2, r, h3, rfl⟩ | ⟨l, h1, h2, rfl, r, h3, rfl⟩)
    · exact Or.inl ⟨l, f l, ⟨l, ⟨h1, h2⟩, rfl, rfl⟩, r, v, h3, rfl, rfl⟩
    · exact Or.inr ⟨l, ⟨h1, h2⟩, r, h3, rfl, rfl⟩

/-- Writes of several lanes, each to keys of its own lane: what a lane's key holds depends on that lane's writes only. -/
theorem fget_lanes (d : Word32) (ls : List Nat) (hn : ls.Nodup) (g : Nat → List (Nat × Word32))
    (hg : ∀ l ∈ ls, ∀ x ∈ g l, x.1 % 1024 = l) (m : FMap Word32) (r l : Nat) (hl : l < 1024) :
    fget d ((ls.flatMap g).foldl (fun m (x : Nat × Word32) => fput m x.1 x.2) m) (r * 1024 + l) =
      if l ∈ ls then fget d ((g l).foldl (fun m (x : Nat × Word32) => fput m x.1 x.2) m) (r * 1024 + l)
      else fget d m (r * 1024 + l) := by
  induction ls generalizing m with
  | nil => simp
  | cons a rest ih =>
    rw [List.nodup_cons] at hn
    simp only [List.flatMap_cons, List.foldl_append]
    rw [ih hn.2 (fun l h => hg l (List.mem_cons_of_mem _ h))]
    by_cases h1 : l = a
    · subst h1
      simp [hn.1]
    · have other : fget d ((g a).foldl (fun m (x : Nat × Word32) => fput m x.1 x.2) m) (r * 1024 + l) = fget d m (r * 1024 + l) := by
        apply fget_writes_other
        intro x hx e
        have := hg a List.mem_cons_self x hx
        omega
      by_cases h2 : l ∈ rest
      · simp only [h2, if_true, List.mem_cons, or_true]
        rw [fget_writes d (g l), fget_writes d (g l), other]
      · simp only [h2, if_false, List.mem_cons, h1, or_false, other]

/-- The writes of an acting lane. -/
theorem fget_regs (d : Word32) (o : LaneOut) (m : FMap Word32) (r l : Nat) :
    fget d ((o.regs.map fun v => (v.1 * 1024 + l, v.2)).foldl (fun m (x : Nat × Word32) => fput m x.1 x.2) m) (r * 1024 + l) =
      o.get r (fget d m (r * 1024 + l)) := by
  rw [fget_writes, ← List.map_reverse, List.find?_map]
  have : ((fun x : Nat × Word32 => x.1 == r * 1024 + l) ∘ fun v : Nat × Word32 => (v.1 * 1024 + l, v.2)) =
      fun x => x.1 == r := by
    funext x
    show (x.1 * 1024 + l == r * 1024 + l) = (x.1 == r)
    by_cases h : x.1 = r
    · simp [h]
    · have h2 : x.1 * 1024 + l ≠ r * 1024 + l := by omega
      rw [beq_false_of_ne h, beq_false_of_ne h2]
  rw [this, LaneOut.get]
  cases o.regs.reverse.find? (fun x => x.1 == r) <;> rfl

/-- The writes of a zeroed lane. -/
theorem fget_zeros (d : Word32) (regs : List Nat) (m : FMap Word32) (r l : Nat) :
    fget d ((regs.map fun r => (r * 1024 + l, (0 : Word32))).foldl (fun m (x : Nat × Word32) => fput m x.1 x.2) m) (r * 1024 + l) =
      if r ∈ regs then 0 else fget d m (r * 1024 + l) := by
  induction regs generalizing m with
  | nil => simp
  | cons a rest ih =>
    simp only [List.map_cons, List.foldl_cons, ih, fget_fput, List.mem_cons]
    by_cases h : r ∈ rest
    · simp [h]
    · by_cases h2 : r = a
      · subst h2; simp [h]
      · have h3 : r * 1024 + l ≠ a * 1024 + l := by omega
        rw [if_neg h, if_neg h3, if_neg (by simp [h, h2])]

theorem nodup_rowLanes (w : Nat) : (rowLanes w).Nodup := by
  unfold rowLanes
  rw [List.Nodup, List.pairwise_map]
  exact List.nodup_range.imp (by intro a b h e; omega)

/-- A lane that acts is not zeroed. -/
theorem acting_not_zeroed (t : Team) (p : Option Pfx) (l : Nat) (h : inMask (t.acting p) l = true) :
    inMask (t.zeroed p) l = false := by
  unfold inMask Team.acting at h
  unfold inMask Team.zeroed
  split
  · simp only [BitVec.getLsbD_and, Bool.and_eq_true] at h
    simp [h.1, h.2]
  · simp

/-- The registers after one row's writes. -/
theorem fget_row (d : Word32) (t : Team) (p : Option Pfx) (dsts : List (Nat × Nat)) (f : Nat → LaneOut) (w : Nat)
    (hw : w < 32) (m : FMap Word32) (r l : Nat) (hl : l < 1024) :
    fget d ((lanesRow t p dsts f w).writes.foldl (fun m (x : Nat × Word32) => fput m x.1 x.2) m) (r * 1024 + l) =
      if l / 32 = w then
        if inMask (t.acting p) l then (f l).get r (fget d m (r * 1024 + l))
        else if inMask (t.zeroed p) l ∧ r ∈ dsts.flatMap (fun d => run d.1 d.2) then 0 else fget d m (r * 1024 + l)
      else fget d m (r * 1024 + l) := by
  have small : ∀ j ∈ rowLanes w, j < 1024 := by
    intro j hj; rw [mem_rowLanes] at hj; omega
  have e1 : (lanesRow t p dsts f w).writes =
      ((rowLanes w).filter (inMask (t.acting p))).flatMap (fun n => (f n).regs.map fun v => (v.1 * 1024 + n, v.2)) ++
      ((rowLanes w).filter (inMask (t.zeroed p))).flatMap (fun n =>
        (dsts.flatMap fun d => run d.1 d.2).map fun r => (r * 1024 + n, (0 : Word32))) := by
    simp [lanesRow, List.flatMap_map]
  rw [e1, List.foldl_append]
  rw [fget_lanes _ _ ((nodup_rowLanes w).filter _) _ (by
    intro j hj x hx
    simp only [List.mem_map] at hx
    obtain ⟨a, _, rfl⟩ := hx
    have := small j (List.mem_filter.mp hj).1
    show (_ * 1024 + j) % 1024 = j
    omega) _ _ _ hl]
  rw [fget_zeros]
  rw [fget_lanes _ _ ((nodup_rowLanes w).filter _) _ (by
    intro j hj x hx
    simp only [List.mem_map] at hx
    obtain ⟨a, _, rfl⟩ := hx
    have := small j (List.mem_filter.mp hj).1
    show (_ * 1024 + j) % 1024 = j
    omega) _ _ _ hl]
  rw [fget_regs]
  simp only [List.mem_filter, mem_rowLanes]
  by_cases h1 : l / 32 = w
  · by_cases h2 : inMask (t.acting p) l = true
    · have h3 := acting_not_zeroed t p l h2
      simp [h1, h2, h3]
    · by_cases h3 : inMask (t.zeroed p) l = true
      · by_cases h4 : r ∈ dsts.flatMap (fun d => run d.1 d.2)
        · rw [if_pos ⟨h1, h3⟩, if_pos h4, if_pos h1, if_neg h2, if_pos ⟨h3, h4⟩]
        · rw [if_pos ⟨h1, h3⟩, if_neg h4, if_neg (fun e => h2 e.2), if_pos h1, if_neg h2, if_neg (fun e => h4 e.2)]
      · simp [h1, h2, h3]
  · simp [h1]

/-- The generators after one row's writes. -/
theorem fget_row_gens (t : Team) (p : Option Pfx) (dsts : List (Nat × Nat)) (f : Nat → LaneOut) (w : Nat)
    (m : FMap Word32) (d : Word32) (l : Nat) :
    fget d ((lanesRow t p dsts f w).gens.foldl (fun m (x : Nat × Word32) => fput m x.1 x.2) m) l =
      if l / 32 = w ∧ inMask (t.acting p) l then ((f l).g).getD (fget d m l) else fget d m l := by
  have e1 : (lanesRow t p dsts f w).gens =
      ((rowLanes w).filter (inMask (t.acting p))).filterMap (fun n => (f n).g.map fun g => (n, g)) := by
    simp [lanesRow, List.filterMap_map] <;> rfl
  have hmem : (l / 32 = w ∧ inMask (t.acting p) l) ↔ l ∈ (rowLanes w).filter (inMask (t.acting p)) := by
    simp [List.mem_filter, mem_rowLanes]
  have hn : ((rowLanes w).filter (inMask (t.acting p))).Nodup := (nodup_rowLanes w).filter _
  rw [e1]
  simp only [hmem]
  generalize (rowLanes w).filter (inMask (t.acting p)) = ls at hn
  induction ls generalizing m with
  | nil => simp
  | cons a rest ih =>
    rw [List.nodup_cons] at hn
    cases hg : (f a).g with
    | none =>
      have e2 : List.filterMap (fun n => (f n).g.map fun g => (n, g)) (a :: rest) =
          List.filterMap (fun n => (f n).g.map fun g => (n, g)) rest := by
        simp [hg]
      rw [e2, ih m hn.2]
      by_cases h1 : l = a
      · subst h1; simp [hn.1, hg]
      · simp [h1]
    | some g =>
      have e2 : List.filterMap (fun n => (f n).g.map fun g => (n, g)) (a :: rest) =
          (a, g) :: List.filterMap (fun n => (f n).g.map fun g => (n, g)) rest := by
        simp [hg]
      rw [e2, List.foldl_cons, ih _ hn.2]
      by_cases h1 : l = a
      · subst h1; simp [hn.1, hg]
      · simp [h1]

theorem foldl_or_bit (xs : List (Nat × Fl)) (a : BitVec 5) (i : Nat) :
    (xs.foldl (fun a x => a ||| x.2) a).getLsbD i = true ↔ a.getLsbD i = true ∨ ∃ x ∈ xs, x.2.getLsbD i = true := by
  induction xs generalizing a with
  | nil => simp
  | cons x r ih =>
    simp only [List.foldl_cons, ih, BitVec.getLsbD_or, Bool.or_eq_true, List.mem_cons, exists_eq_or_imp, or_assoc]

theorem inMask_bit (n l : Nat) (h : l < 1024) : inMask (BitVec.ofNat 1024 (2 ^ n)) l = decide (n = l) := by
  unfold inMask
  rw [BitVec.getLsbD_ofNat, Nat.testBit_two_pow]; simp [h]

theorem foldl_exc_bit (te : BitVec 5) (xs : List (Nat × Fl)) (m : Mask) (l : Nat) (h : l < 1024) :
    inMask (xs.foldl (fun m x => if x.2 &&& te != 0 then m ||| BitVec.ofNat 1024 (2 ^ x.1) else m) m) l = true ↔
      inMask m l = true ∨ ∃ x ∈ xs, x.1 = l ∧ x.2 &&& te ≠ 0 := by
  induction xs generalizing m with
  | nil => simp
  | cons x r ih =>
    simp only [List.foldl_cons, ih, List.mem_cons, exists_eq_or_imp]
    by_cases h2 : x.2 &&& te = 0
    · simp [h2]
    · have e : inMask (m ||| BitVec.ofNat 1024 (2 ^ x.1)) l = (inMask m l || decide (x.1 = l)) := by
        rw [← inMask_bit x.1 l h]; simp [inMask]
      have e2 : (x.2 &&& te != 0) = true := by simpa using h2
      simp only [e2, if_true, e, Bool.or_eq_true, decide_eq_true_eq, or_assoc]
      simp only [ne_eq, h2, not_false_eq_true, and_true]

/-- The exceptions a row notes. -/
theorem mem_row_fl (t : Team) (p : Option Pfx) (dsts : List (Nat × Nat)) (f : Nat → LaneOut) (w : Nat) (x : Nat × Fl) :
    x ∈ (lanesRow t p dsts f w).fl ↔
      x.1 / 32 = w ∧ inMask (t.acting p) x.1 = true ∧ x.2 = (f x.1).fl ∧ (f x.1).fl ≠ 0 := by
  obtain ⟨l, b⟩ := x
  simp only [lanesRow, List.mem_map, List.mem_filter, mem_rowLanes, Prod.mk.injEq, Prod.exists, bne_iff_ne, ne_eq]
  constructor
  · rintro ⟨a, o, ⟨⟨n, ⟨h1, h2⟩, rfl, rfl⟩, h3⟩, rfl, rfl⟩
    exact ⟨h1, h2, rfl, h3⟩
  · rintro ⟨h1, h2, rfl, h3⟩
    exact ⟨l, f l, ⟨⟨l, ⟨h1, h2⟩, rfl, rfl⟩, h3⟩, rfl, rfl⟩

/-! ### The sweep -/

/-- What the rows `ws` of a lane instruction with computation `f` leave. -/
structure SweepOut (t : Team) (p : Option Pfx) (regs : List Nat) (f : Nat → LaneOut) (ws : List Nat)
    (vreg gen : FMap Word32) (exc : Mask) (fl : BitVec 5) : Prop where
  regs : ∀ r l, l < 1024 → fget 0 vreg (r * 1024 + l) =
    if l / 32 ∈ ws then
      if inMask (t.acting p) l then (f l).get r (t.v r l)
      else if inMask (t.zeroed p) l ∧ r ∈ regs then 0 else t.v r l
    else t.v r l
  gens : ∀ l, l < 1024 → fget (genSeedOf t.genSeed l) gen l =
    if l / 32 ∈ ws ∧ inMask (t.acting p) l then ((f l).g).getD (t.g l) else t.g l
  exc : ∀ l, l < 1024 → (inMask exc l = true ↔ inMask t.exc l = true ∨
    (l / 32 ∈ ws ∧ inMask (t.acting p) l = true ∧ (f l).fl &&& t.te ≠ 0))
  flags : ∀ i, fl.getLsbD i = true ↔ t.excFlags.getLsbD i = true ∨
    ∃ l, l < 1024 ∧ l / 32 ∈ ws ∧ inMask (t.acting p) l = true ∧ (f l).fl.getLsbD i = true

/-- One row of a lane instruction. -/
theorem writeRow_out (t : Team) (p : Option Pfx) (dsts : List (Nat × Nat)) (f : Nat → LaneOut) (w : Nat) (hw : w < 32)
    (hb : t.badWords = []) : ∃ vreg gen exc fl, t.writeRow (lanesRow t p dsts f w) = t.rowsOf vreg gen exc fl ∧
      SweepOut t p (dsts.flatMap fun d => run d.1 d.2) f [w] vreg gen exc fl := by
  refine ⟨_, _, _, _, writeRow_eq t _ hb, ?_, ?_, ?_, ?_⟩
  · intro r l hl
    rw [fget_row 0 t p dsts f w hw t.vreg r l hl]
    simp only [List.mem_singleton]; rfl
  · intro l _
    rw [fget_row_gens]
    simp only [List.mem_singleton]; rfl
  · intro l hl
    rw [foldl_exc_bit _ _ _ _ hl]
    constructor
    · rintro (h | ⟨x, hx, rfl, h⟩)
      · exact Or.inl h
      · rw [mem_row_fl] at hx
        exact Or.inr ⟨by simp [hx.1], hx.2.1, by rw [← hx.2.2.1]; exact h⟩
    · rintro (h | ⟨h1, h2, h3⟩)
      · exact Or.inl h
      · refine Or.inr ⟨(l, (f l).fl), ?_, rfl, h3⟩
        rw [mem_row_fl]
        exact ⟨by simpa using h1, h2, rfl, fun e => h3 (by rw [e]; simp)⟩
  · intro i
    rw [foldl_or_bit]
    constructor
    · rintro (h | ⟨x, hx, h⟩)
      · exact Or.inl h
      · rw [mem_row_fl] at hx
        exact Or.inr ⟨x.1, by omega, by simp [hx.1], hx.2.1, by rw [← hx.2.2.1]; exact h⟩
    · rintro (h | ⟨l, _, h1, h2, h3⟩)
      · exact Or.inl h
      · refine Or.inr ⟨(l, (f l).fl), ?_, h3⟩
        rw [mem_row_fl]
        exact ⟨by simpa using h1, h2, rfl, fun e => by simp [e] at h3⟩

/-- The rows of a lane instruction swept: none waits, and each writes its own lanes. -/
theorem sweep_out (o : LaneOp) (zs : List (Nat × Nat)) (f : Team → Nat → LaneOut) (hrow : o.row = fun t w => lanesRow t o.p zs (f t) w)
    (hlong : o.long = false) (ws : List Nat) (hn : ws.Nodup) (hw : ∀ w ∈ ws, w < 32) (t : Team) (hf : RowLocal t.tile f)
    (hr : ∀ w ∈ ws, t.rowReady o w = true) (hb : t.badWords = []) :
    ∃ vreg gen exc fl, sweepRows o ws t = .done (t.rowsOf vreg gen exc fl) ∧
      SweepOut t o.p (zs.flatMap fun d => run d.1 d.2) (f t) ws vreg gen exc fl := by
  induction ws generalizing t with
  | nil =>
    refine ⟨t.vreg, t.gen, t.exc, t.excFlags, rfl, ?_, ?_, ?_, ?_⟩
    · intro r l _; simp; rfl
    · intro l _; simp; rfl
    · intro l _; simp
    · intro i; simp
  | cons w rest ih =>
    rw [List.nodup_cons] at hn
    have ready := hr w List.mem_cons_self
    have lost : t.lostRow o w = false := by simp [Team.lostRow, Team.lostAt, hb]
    have healed : t.heal o.reads w = t := heal_none t _ w hb
    obtain ⟨v1, g1, e1, l1, h1, s1⟩ := writeRow_out t o.p zs (f t) w (hw w List.mem_cons_self) hb
    obtain ⟨v2, g2, e2, l2, h2, s2⟩ := ih hn.2 (fun x hx => hw x (List.mem_cons_of_mem _ hx)) (t.rowsOf v1 g1 e1 l1) hf
      (fun x hx => hr x (List.mem_cons_of_mem _ hx)) hb
    have same : ∀ l, l < 1024 → l / 32 ∈ rest → f (t.rowsOf v1 g1 e1 l1) l = f t l := by
      intro l hl hm
      apply hf t rfl _ _ _ _ _ hl
      · intro r j hj
        have hj1 : j < 1024 := by omega
        rw [s1.regs r j hj1]
        have : ¬ j / 32 ∈ [w] := by
          rw [hj]; simp only [List.mem_singleton]; intro e; rw [e] at hm; exact hn.1 hm
        rw [if_neg this]
      · intro j hj
        have hj1 : j < 1024 := by omega
        rw [s1.gens j hj1]
        have : ¬ (j / 32 ∈ [w] ∧ inMask (t.acting o.p) j = true) := by
          rw [hj]; simp only [List.mem_singleton]; intro e; rw [e.1] at hm; exact hn.1 hm
        rw [if_neg this]
    refine ⟨v2, g2, e2, l2, ?_, ?_, ?_, ?_, ?_⟩
    · rw [sweepRows]
      simp only [ready, lost, healed, hlong, hrow, Bool.not_true, Bool.false_eq_true, if_false]
      rw [h1]; exact h2
    · intro r l hl
      rw [s2.regs r l hl]
      have base : (t.rowsOf v1 g1 e1 l1).v r l = fget 0 v1 (r * 1024 + l) := rfl
      have act : (t.rowsOf v1 g1 e1 l1).acting o.p = t.acting o.p := rfl
      have zer : (t.rowsOf v1 g1 e1 l1).zeroed o.p = t.zeroed o.p := rfl
      rw [act, zer, base, s1.regs r l hl]
      by_cases h3 : l / 32 ∈ rest
      · have h4 : ¬ l / 32 = w := by intro e; rw [e] at h3; exact hn.1 h3
        have h5 : ¬ l / 32 ∈ [w] := by simpa using h4
        have h6 : l / 32 ∈ w :: rest := List.mem_cons_of_mem _ h3
        simp only [if_pos h3, if_neg h5, if_pos h6, same l hl h3]
      · by_cases h4 : l / 32 = w
        · have h5 : l / 32 ∈ [w] := by simp [h4]
          have h6 : l / 32 ∈ w :: rest := by simp [h4]
          simp only [if_neg h3, if_pos h5, if_pos h6]
        · rw [if_neg h3, if_neg (by simpa using h4), if_neg (by simp [h3, h4])]
    · intro l hl
      have base : (t.rowsOf v1 g1 e1 l1).g l = fget (genSeedOf t.genSeed l) g1 l := rfl
      have seed : (t.rowsOf v1 g1 e1 l1).genSeed = t.genSeed := rfl
      have act : (t.rowsOf v1 g1 e1 l1).acting o.p = t.acting o.p := rfl
      have := s2.gens l hl
      rw [seed, act, base, s1.gens l hl] at this
      rw [this]
      by_cases h3 : l / 32 ∈ rest
      · have h4 : ¬ l / 32 = w := by intro e; rw [e] at h3; exact hn.1 h3
        have h5 : ¬ l / 32 ∈ [w] := by simpa using h4
        have h6 : l / 32 ∈ w :: rest := List.mem_cons_of_mem _ h3
        simp only [h3, h5, h6, false_and, if_false, true_and, same l hl h3]
      · by_cases h4 : l / 32 = w
        · rw [if_neg (fun e => h3 e.1)]
          simp [h4]
        · have h5 : ¬ l / 32 ∈ [w] := by simpa using h4
          have h6 : ¬ l / 32 ∈ w :: rest := by simp [h3, h4]
          simp only [h3, h5, h6, false_and, if_false]
    · intro l hl
      have act : (t.rowsOf v1 g1 e1 l1).acting o.p = t.acting o.p := rfl
      have te : (t.rowsOf v1 g1 e1 l1).te = t.te := rfl
      have ex : (t.rowsOf v1 g1 e1 l1).exc = e1 := rfl
      rw [s2.exc l hl, act, te, ex, s1.exc l hl]
      constructor
      · rintro ((h | ⟨h3, h4, h5⟩) | ⟨h3, h4, h5⟩)
        · exact Or.inl h
        · exact Or.inr ⟨by simp only [List.mem_singleton] at h3; simp [h3], h4, h5⟩
        · exact Or.inr ⟨List.mem_cons_of_mem _ h3, h4, by rw [← same l hl h3]; exact h5⟩
      · rintro (h | ⟨h3, h4, h5⟩)
        · exact Or.inl (Or.inl h)
        · rcases List.mem_cons.mp h3 with h6 | h6
          · exact Or.inl (Or.inr ⟨by simp [h6], h4, h5⟩)
          · exact Or.inr ⟨h6, h4, by rw [same l hl h6]; exact h5⟩
    · intro i
      have act : (t.rowsOf v1 g1 e1 l1).acting o.p = t.acting o.p := rfl
      have ex : (t.rowsOf v1 g1 e1 l1).excFlags = l1 := rfl
      rw [s2.flags i, act, ex, s1.flags i]
      constructor
      · rintro ((h | ⟨l, hl, h3, h4, h5⟩) | ⟨l, hl, h3, h4, h5⟩)
        · exact Or.inl h
        · exact Or.inr ⟨l, hl, by simp only [List.mem_singleton] at h3; simp [h3], h4, h5⟩
        · exact Or.inr ⟨l, hl, List.mem_cons_of_mem _ h3, h4, by rw [← same l hl h3]; exact h5⟩
      · rintro (h | ⟨l, hl, h3, h4, h5⟩)
        · exact Or.inl (Or.inl h)
        · rcases List.mem_cons.mp h3 with h6 | h6
          · exact Or.inl (Or.inr ⟨l, hl, by simp [h6], h4, h5⟩)
          · exact Or.inr ⟨l, hl, h6, h4, by rw [same l hl h6]; exact h5⟩

end Sys2Proof.Machine
end

