-- ==== Sys2Proof/Laws/Long.lean ====
section
/-! SUPPORT. What a long-latency producer leaves: the rows it marks empty, the rows still to land, and the registers once
they have landed. -/

namespace Sys2Proof.Machine

/-! ### Empty bits -/

theorem fullBit_set (w : Word32) (r i : Nat) (h : i < 32) :
    (w ||| BitVec.ofNat 32 (2 ^ r)).getLsbD i = (decide (i = r) || w.getLsbD i) := by
  rw [BitVec.getLsbD_or, BitVec.getLsbD_ofNat, Nat.testBit_two_pow]
  simp only [h, decide_true, Bool.true_and]
  rw [Bool.or_comm, decide_eq_decide.mpr (eq_comm)]

theorem fullBit_clear (w : Word32) (r i : Nat) (h : i < 32) :
    (w &&& ~~~BitVec.ofNat 32 (2 ^ r)).getLsbD i = (decide (i ≠ r) && w.getLsbD i) := by
  rw [BitVec.getLsbD_and, BitVec.getLsbD_not, BitVec.getLsbD_ofNat, Nat.testBit_two_pow]
  simp only [h, decide_true, Bool.true_and]
  rw [Bool.and_comm]
  congr 1
  by_cases e : r = i
  · simp [e]
  · simp [e, Ne.symm e]

/-- A row's empty bit after one is set. -/
theorem rowEmpty_setRow (t : Team) (g r g' r' : Nat) (e : Bool) (h' : r' < 32) :
    (t.setRow g r e).rowEmpty g' r' = if g' = g ∧ r' = r then e else t.rowEmpty g' r' := by
  unfold Team.rowEmpty Team.emptyRows Team.setRow
  simp only [fget_fput]
  by_cases h1 : g' = g
  · subst h1
    simp only [if_true, true_and]
    cases e
    · simp only [Bool.false_eq_true, if_false]
      rw [fullBit_clear _ _ _ h']
      by_cases h2 : r' = r <;> simp [h2, Team.emptyRows]
    · simp only [if_true]
      rw [fullBit_set _ _ _ h']
      by_cases h2 : r' = r <;> simp [h2, Team.emptyRows]
  · simp [h1]

/-! ### A row issued -/

/-- The values a row gives one register, by lane. -/
def RowOut.ofReg (o : RowOut) (r : Nat) : List (Nat × Word32) :=
  (o.writes.filter fun x => x.1 / 1024 == r).map fun x => (x.1 % 1024, x.2)

/-- Empty bits of the registers `regs` set in row `w`. -/
def emptied (t : Team) (regs : List Nat) (w : Nat) : FMap Word32 :=
  regs.foldl (fun m r => fput m r (fget 0 m r ||| BitVec.ofNat 32 (2 ^ w))) t.empty

theorem pending_reg (o : LaneOp) (w : Nat) (x : RowOut) (r : Nat) : (o.pending w x r).reg = r := rfl
theorem pending_row (o : LaneOp) (w : Nat) (x : RowOut) (r : Nat) : (o.pending w x r).row = w := rfl
theorem pending_vals (o : LaneOp) (w : Nat) (x : RowOut) (r : Nat) : (o.pending w x r).vals = x.ofReg r := rfl

/-- The registers a producer writes. -/
def LaneOp.dstRegs (o : LaneOp) : List Nat := o.dsts.flatMap fun d => run d.1 d.2

theorem issueRow_eq (t : Team) (o : LaneOp) (w : Nat) (x : RowOut) :
    t.issueRow o w x =
      { t with
        empty := emptied t o.dstRegs w
        prods := t.prods ++ o.dstRegs.map (o.pending w x)
        gen := x.gens.foldl (fun m (x : Nat × Word32) => fput m x.1 x.2) t.gen
        exc := x.fl.foldl (fun m x => if x.2 &&& t.te != 0 then m ||| BitVec.ofNat 1024 (2 ^ x.1) else m) t.exc
        excFlags := x.fl.foldl (fun a x => a ||| x.2) t.excFlags } := by
  unfold Team.issueRow
  simp only [foldl_setG]
  have key : ∀ (regs : List Nat) (t : Team), regs.foldl (fun (t : Team) r =>
      { t.setRow r w true with prods := t.prods ++ [o.pending w x r] }) t =
      { t with empty := emptied t regs w, prods := t.prods ++ regs.map (o.pending w x) } := by
    intro regs
    induction regs with
    | nil => intro t; simp [emptied]
    | cons r rest ih =>
      intro t
      rw [List.foldl_cons, ih]
      simp [emptied, Team.setRow, Team.emptyRows]
  rw [key _ t]
  rfl

theorem rowEmpty_emptied (t : Team) (regs : List Nat) (w g i : Nat) (hi : i < 32) :
    (fget 0 (emptied t regs w) g).getLsbD i = if g ∈ regs ∧ i = w then true else t.rowEmpty g i := by
  unfold emptied
  have key : ∀ m : FMap Word32, (fget 0 (regs.foldl (fun m r => fput m r (fget 0 m r ||| BitVec.ofNat 32 (2 ^ w))) m) g).getLsbD i =
      if g ∈ regs ∧ i = w then true else (fget 0 m g).getLsbD i := by
    induction regs with
    | nil => intro m; simp
    | cons r rest ih =>
      intro m
      rw [List.foldl_cons, ih, fget_fput]
      by_cases h1 : g ∈ rest ∧ i = w
      · simp [h1]
      · rw [if_neg h1]
        by_cases h2 : g = r
        · subst h2
          rw [if_pos rfl, fullBit_set _ _ _ hi]
          by_cases h3 : i = w
          · simp [h3]
          · simp [h3]
        · have : ¬ (g ∈ r :: rest ∧ i = w) := by
            rintro ⟨h3, h4⟩
            rcases List.mem_cons.mp h3 with h5 | h5
            · exact h2 h5
            · exact h1 ⟨h5, h4⟩
          rw [if_neg h2, if_neg this]
  exact key t.empty

/-! ### Landing -/

theorem fget_filter {α : Type} (d : α) (ws : List (Nat × α)) (m : FMap α) (k : Nat) :
    fget d (ws.foldl (fun m (x : Nat × α) => fput m x.1 x.2) m) k =
      fget d ((ws.filter fun x => x.1 == k).foldl (fun m (x : Nat × α) => fput m x.1 x.2) m) k := by
  rw [fget_writes, fget_writes, ← List.filter_reverse, List.find?_filter]
  rw [show (fun a : Nat × α => decide ((a.1 == k) = true ∧ (a.1 == k) = true)) = fun a => a.1 == k by
    funext a; cases a.1 == k <;> rfl]

theorem flatMap_single {α β : Type} (L : List α) (hn : L.Nodup) (g : α → List β) (c : α)
    (h : ∀ a ∈ L, a ≠ c → g a = []) (hc : c ∈ L) : L.flatMap g = g c := by
  induction L with
  | nil => cases hc
  | cons a rest ih =>
    rw [List.nodup_cons] at hn
    rw [List.flatMap_cons]
    by_cases h1 : a = c
    · subst h1
      have : rest.flatMap g = [] := by
        rw [List.flatMap_eq_nil_iff]
        intro b hb
        exact h b (List.mem_cons_of_mem _ hb) (fun e => hn.1 (e ▸ hb))
      rw [this, List.append_nil]
    · have h2 : c ∈ rest := by
        rcases List.mem_cons.mp hc with h3 | h3
        · exact absurd h3.symm h1
        · exact h3
      rw [h a List.mem_cons_self h1, List.nil_append]
      exact ih hn.2 (fun b hb => h b (List.mem_cons_of_mem _ hb)) h2

theorem landRow_vreg (t : Team) (p : ProdRow) :
    (t.landRow p).vreg =
      (p.vals.map fun x => (p.reg * 1024 + x.1, x.2)).foldl (fun m (x : Nat × Word32) => fput m x.1 x.2) t.vreg := by
  unfold Team.landRow
  rw [Team.setRow_vreg]
  generalize p.vals = vs
  induction vs generalizing t with
  | nil => rfl
  | cons v r ih => simp only [List.foldl_cons, List.map_cons, ih]; rfl

theorem foldl_landRow_vreg (ps : List ProdRow) (t : Team) :
    (ps.foldl Team.landRow t).vreg =
      (ps.flatMap fun p => p.vals.map fun x => (p.reg * 1024 + x.1, x.2)).foldl
        (fun m (x : Nat × Word32) => fput m x.1 x.2) t.vreg := by
  induction ps generalizing t with
  | nil => rfl
  | cons p r ih => rw [List.foldl_cons, ih, landRow_vreg, List.flatMap_cons, List.foldl_append]

/-- The rows a lane instruction issues for its registers over the rows `ws`. -/
def issued (o : LaneOp) (R : Nat → RowOut) (regs ws : List Nat) : List ProdRow :=
  ws.flatMap fun w => regs.map (o.pending w (R w))

/-- Every lane a row writes lies in the row. -/
theorem writes_in_row (t : Team) (p : Option Pfx) (dsts : List (Nat × Nat)) (f : Nat → LaneOut) (w : Nat) (hw : w < 32)
    (x : Nat × Word32) (hx : x ∈ (lanesRow t p dsts f w).writes) : x.1 % 1024 / 32 = w := by
  obtain ⟨k, v⟩ := x
  rw [mem_writes] at hx
  rcases hx with ⟨l, h1, _, r, _, rfl⟩ | ⟨l, h1, _, _, r, _, rfl⟩
  · show (r * 1024 + l) % 1024 / 32 = w; omega
  · show (r * 1024 + l) % 1024 / 32 = w; omega

/-- The registers once every issued row has landed. -/
theorem v_landed (t u : Team) (o : LaneOp) (p : Option Pfx) (zero : List (Nat × Nat)) (f : Nat → LaneOut) (regs ws : List Nat)
    (hr : regs.Nodup) (hn : ws.Nodup) (hw : ∀ w ∈ ws, w < 32) (r l : Nat) (hl : l < 1024) :
    ((issued o (lanesRow u p zero f) regs ws).foldl Team.landRow t).v r l =
      if r ∈ regs ∧ l / 32 ∈ ws then
        if inMask (u.acting p) l then (f l).get r (t.v r l)
        else if inMask (u.zeroed p) l ∧ r ∈ zero.flatMap (fun d => run d.1 d.2) then 0 else t.v r l
      else t.v r l := by
  have cell : ∀ w ∈ ws, ∀ r', (((lanesRow u p zero f w).ofReg r').map fun x => (r' * 1024 + x.1, x.2)).filter
      (fun x => x.1 == r * 1024 + l) =
      if r' = r ∧ w = l / 32 then (lanesRow u p zero f w).writes.filter (fun x => x.1 == r * 1024 + l) else [] := by
    intro w hm r'
    unfold RowOut.ofReg
    rw [List.map_map, List.filter_map, List.filter_filter]
    split
    · next h =>
      obtain ⟨rfl, rfl⟩ := h
      have e1 : ∀ x : Nat × Word32, (((fun x : Nat × Word32 => x.1 == r' * 1024 + l) ∘
          ((fun x : Nat × Word32 => (r' * 1024 + x.1, x.2)) ∘ fun x : Nat × Word32 => (x.1 % 1024, x.2))) x &&
          (x.1 / 1024 == r')) = (x.1 == r' * 1024 + l) := by
        intro x
        show ((r' * 1024 + x.1 % 1024 == r' * 1024 + l) && (x.1 / 1024 == r')) = (x.1 == r' * 1024 + l)
        by_cases h1 : x.1 = r' * 1024 + l
        · have h2 : r' * 1024 + x.1 % 1024 = r' * 1024 + l := by omega
          have h3 : x.1 / 1024 = r' := by omega
          rw [beq_iff_eq.mpr h1, beq_iff_eq.mpr h2, beq_iff_eq.mpr h3]; rfl
        · rw [beq_false_of_ne h1]
          by_cases h3 : x.1 / 1024 = r'
          · have h2 : r' * 1024 + x.1 % 1024 ≠ r' * 1024 + l := by omega
            rw [beq_false_of_ne h2]; rfl
          · rw [beq_false_of_ne h3, Bool.and_false]
      simp only [e1]
      have e2 : ∀ (xs : List (Nat × Word32)), ((xs.filter fun x => x.1 == r' * 1024 + l).map
          ((fun x : Nat × Word32 => (r' * 1024 + x.1, x.2)) ∘ fun x : Nat × Word32 => (x.1 % 1024, x.2))) =
          xs.filter fun x => x.1 == r' * 1024 + l := by
        intro xs
        conv => rhs; rw [← List.map_id (xs.filter fun x => x.1 == r' * 1024 + l)]
        apply List.map_congr_left
        intro x hx
        have := (List.mem_filter.mp hx).2
        have h1 : x.1 = r' * 1024 + l := by simpa using this
        show (r' * 1024 + x.1 % 1024, x.2) = x
        have h2 : r' * 1024 + x.1 % 1024 = x.1 := by omega
        rw [h2]
      exact e2 _
    · next h =>
      rw [List.map_eq_nil_iff, List.filter_eq_nil_iff]
      intro x hx
      have hin := writes_in_row u p zero f w (hw w hm) x hx
      intro e
      have h1 : r' * 1024 + x.1 % 1024 = r * 1024 + l := by
        have := (Bool.and_eq_true _ _ ▸ e).1
        exact eq_of_beq this
      have h2 : x.1 % 1024 < 1024 := Nat.mod_lt _ (by omega)
      exact h ⟨by omega, by omega⟩
  have step : ((issued o (lanesRow u p zero f) regs ws).foldl Team.landRow t).v r l =
      fget 0 ((((issued o (lanesRow u p zero f) regs ws).flatMap fun p => p.vals.map fun x => (p.reg * 1024 + x.1, x.2)).filter
        fun x => x.1 == r * 1024 + l).foldl (fun m (x : Nat × Word32) => fput m x.1 x.2) t.vreg) (r * 1024 + l) := by
    rw [Team.v, foldl_landRow_vreg, fget_filter]
  have shape : ((issued o (lanesRow u p zero f) regs ws).flatMap fun p => p.vals.map fun x => (p.reg * 1024 + x.1, x.2)).filter
      (fun x => x.1 == r * 1024 + l) =
      if r ∈ regs ∧ l / 32 ∈ ws then (lanesRow u p zero f (l / 32)).writes.filter (fun x => x.1 == r * 1024 + l) else [] := by
    have e1 : ((issued o (lanesRow u p zero f) regs ws).flatMap fun p => p.vals.map fun x => (p.reg * 1024 + x.1, x.2)).filter
        (fun x => x.1 == r * 1024 + l) =
        ws.flatMap fun w => regs.flatMap fun r' =>
          (((lanesRow u p zero f w).ofReg r').map fun x => (r' * 1024 + x.1, x.2)).filter (fun x => x.1 == r * 1024 + l) := by
      simp only [issued, List.flatMap_assoc, List.flatMap_map, List.filter_flatMap, pending_vals, pending_reg]
    rw [e1]
    split
    · next h =>
      rw [flatMap_single ws hn _ (l / 32) _ h.2, flatMap_single regs hr _ r _ h.1, cell _ h.2, if_pos ⟨rfl, rfl⟩]
      · intro r' _ hne
        rw [cell _ h.2, if_neg (fun e => hne e.1)]
      · intro w hm hne
        rw [List.flatMap_eq_nil_iff]
        intro r' _
        rw [cell w hm, if_neg (fun e => hne e.2)]
    · next h =>
      rw [List.flatMap_eq_nil_iff]
      intro w hm
      rw [List.flatMap_eq_nil_iff]
      intro r' hr'
      rw [cell w hm, if_neg]
      rintro ⟨rfl, rfl⟩
      exact h ⟨hr', hm⟩
  rw [step, shape]
  split
  · next h =>
    rw [← fget_filter, fget_row 0 u p zero f (l / 32) (hw _ h.2) t.vreg r l hl, if_pos rfl]
    rfl
  · rfl

end Sys2Proof.Machine
end

