-- ==== Sys2Proof/Laws/RunLane.lean ====
section
/-! SUPPORT. A lane instruction from its checks to its retirement: what `runLane` answers on a team on which it executes
normally, in the words of Safety.lean. -/

namespace Sys2Proof.Machine

/-- The form of a lane instruction describes the operation its meaning runs. -/
structure LaneForm.Of (x : LaneForm) (o : LaneOp) : Prop where
  p : o.p = x.p
  srcs : (o.srcs.map fun a => (a.reg, a.n, a.tags)) = x.srcs
  dst : ∀ d ∈ o.dsts, ∀ r ∈ run d.1 d.2, r ∈ x.dst
  some : ∀ d ∈ o.dsts, d.2 ≠ 0
  even : o.aligned = x.even
  merge : o.tags = x.merged
  tags : ∀ (m : FMap (BitVec 4)) r,
    fget 0 ((o.tags ++ o.more).foldl (fun m (y : Nat × Nat) => fput m y.1 (BitVec.ofNat 4 y.2)) m) r =
      if r ∈ x.tagged then BitVec.ofNat 4 (x.tag r) else fget 0 m r
  warn : o.warn = x.warn

/-- A register is in the destinations of an operation exactly when it is one of the form's. -/
theorem LaneForm.Of.src {x : LaneForm} {o : LaneOp} (h : x.Of o) (a : Src) (ha : a ∈ o.srcs) :
    (a.reg, a.n, a.tags) ∈ x.srcs := by
  rw [← h.srcs]; exact List.mem_map_of_mem ha

theorem tagFits_iff (t : Team) (tags : List Nat) (r : Nat) :
    t.tagFits tags r = true ↔ tags = [] ∨ (t.tagOf r).toNat = 0 ∨ (t.tagOf r).toNat ∈ tags := by
  simp only [Team.tagFits, Bool.or_eq_true, List.isEmpty_iff, beq_iff_eq, List.contains_iff_mem, or_assoc]

/-- The tag checks of the operation are those of the form. -/
theorem LaneForm.Of.fits {x : LaneForm} {o : LaneOp} (h : x.Of o) (t : Team) : t.tagsFit o = true ↔ x.fits t := by
  unfold Team.tagsFit LaneForm.fits
  rw [Bool.and_eq_true]
  apply and_congr
  · rw [List.all_eq_true, ← h.srcs]
    simp only [List.mem_map, forall_exists_index, and_imp]
    constructor
    · rintro h1 a b hb rfl r hr
      exact (tagFits_iff t _ r).mp (List.all_eq_true.mp (h1 b hb) r hr)
    · intro h1 b hb
      rw [List.all_eq_true]
      intro r hr
      exact (tagFits_iff t _ r).mpr (h1 _ b hb rfl r hr)
  · rw [h.merge, h.p]
    simp only [Bool.or_eq_true, beq_iff_eq, List.all_eq_true, tagFits_iff]
    constructor
    · intro h1 hk hz r hr
      rcases h1 with (h2 | h2) | h2
      · exact absurd h2 hk
      · rw [h2] at hz; cases hz
      · simpa using h2 r hr
    · intro h1
      by_cases hk : pk x.p = 0
      · exact Or.inl (Or.inl hk)
      · cases hz : pz x.p
        · refine Or.inr ?_
          intro y hy
          simpa using h1 hk hz y hy
        · exact Or.inl (Or.inr rfl)

/-- Nothing stops an instruction that executes normally. -/
theorem LaneForm.Of.precheck {x : LaneForm} {o : LaneOp} (h : x.Of o) {t : Team} (hr : x.Ready t) :
    t.precheck true o = none := by
  unfold Team.precheck
  have h1 : t.regsOk o = true := by
    unfold Team.regsOk
    rw [h.even, hr.even, Bool.true_and, Bool.and_eq_true]
    constructor
    · rw [List.all_eq_true]
      intro a ha
      have := hr.srcBelow _ (h.src a ha)
      simpa [Team.inRange] using this
    · rw [List.all_eq_true]
      intro d hd
      have hm : d.1 + (d.2 - 1) ∈ x.dst := by
        have := h.some d hd
        refine h.dst d hd _ ?_
        simp only [run, List.mem_map, List.mem_range]
        exact ⟨d.2 - 1, by omega, rfl⟩
      have := hr.dstBelow _ hm
      have h2 := h.some d hd
      simp only [Team.inRange, decide_eq_true_eq]
      omega
  have h2 : (t.tagt && !t.tagsFit o) = false := by
    cases ht : t.tagt
    · rfl
    · rw [(h.fits t).mpr (hr.tags ht)]; rfl
  simp [h1, h2]

theorem LaneForm.Of.rowReady {x : LaneForm} {o : LaneOp} (h : x.Of o) {t : Team} (hr : x.Ready t) (w : Nat)
    (hw : w ∈ t.sweptRows) : t.rowReady o w = true := by
  unfold Team.rowReady
  rw [Bool.and_eq_true, List.all_eq_true, List.all_eq_true]
  constructor
  · intro a ha
    rw [List.all_eq_true]
    intro r hm
    rw [hr.srcFull _ (h.src a ha) r hm w hw]; rfl
  · intro d hd
    rw [List.all_eq_true]
    intro r hm
    have : r ∈ x.dst := h.dst d hd r hm
    rw [hr.dstFull r this w hw]; rfl

theorem LaneForm.Of.emptyTrap {x : LaneForm} {o : LaneOp} (h : x.Of o) {t : Team} (hr : x.Ready t) :
    t.emptyTrap o = none := by
  unfold Team.emptyTrap
  rw [List.find?_eq_none]
  intro r hm
  have : ∃ a ∈ o.srcs, r ∈ run a.reg a.n := by
    rcases List.mem_append.mp hm with h1 | h1
    · obtain ⟨a, ha, hr1⟩ := List.mem_flatMap.mp h1
      exact ⟨a, (List.mem_filter.mp ha).1, hr1⟩
    · obtain ⟨a, ha, hr1⟩ := List.mem_flatMap.mp h1
      exact ⟨a, (List.mem_filter.mp ha).1, hr1⟩
  obtain ⟨a, ha, hr1⟩ := this
  simp only [List.any_eq_true, not_exists, not_and]
  intro w hw
  rw [hr.srcFull _ (h.src a ha) r hr1 w hw]; simp

theorem sweptRows_nodup (t : Team) : t.sweptRows.Nodup := List.nodup_range.filter _

theorem sweptRows_lt (t : Team) (h : t.lanes ≤ 1024) (w : Nat) (hw : w ∈ t.sweptRows) : w < 32 := by
  have := List.mem_range.mp (List.mem_filter.mp hw).1
  omega

/-- A lane of the execute mask stands in a swept row exactly when it stands in a row of the team. -/
theorem mem_sweptRows (t : Team) (l : Nat) (h : inMask t.exec l = true) : l / 32 ∈ t.sweptRows ↔ l / 32 < t.lanes / 32 := by
  unfold Team.sweptRows Team.rows
  rw [List.mem_filter, List.mem_range]
  constructor
  · exact fun h => h.1
  · intro h1
    refine ⟨h1, ?_⟩
    simp only [bne_iff_ne, ne_eq]
    intro e
    have : (rowWord t.exec (l / 32)).getLsbD (l % 32) = true := by
      unfold rowWord
      rw [BitVec.getLsbD_extractLsb']
      have h2 : l % 32 < 32 := Nat.mod_lt _ (by omega)
      have h3 : 32 * (l / 32) + l % 32 = l := by omega
      rw [h3]
      simpa [h2, inMask] using h
    rw [e] at this
    simp at this

theorem acts_iff (t : Team) (p : Option Pfx) (l : Nat) :
    t.acts p l ↔ l / 32 ∈ t.sweptRows ∧ inMask (t.acting p) l = true := by
  unfold Team.acts
  have e : t.exec &&& t.k (pk p) = t.acting p := rfl
  rw [e]
  constructor
  · rintro ⟨h1, h2⟩
    have h3 : inMask t.exec l = true := by
      simp only [Team.acting, inMask, BitVec.getLsbD_and, Bool.and_eq_true] at h2; exact h2.1
    exact ⟨(mem_sweptRows t l h3).mpr h1, h2⟩
  · rintro ⟨h1, h2⟩
    have h3 : inMask t.exec l = true := by
      simp only [Team.acting, inMask, BitVec.getLsbD_and, Bool.and_eq_true] at h2; exact h2.1
    exact ⟨(mem_sweptRows t l h3).mp h1, h2⟩

theorem zeroes_iff (t : Team) (p : Option Pfx) (l : Nat) :
    t.zeroes p l ↔ l / 32 ∈ t.sweptRows ∧ inMask (t.zeroed p) l = true := by
  unfold Team.zeroes Team.zeroed
  by_cases hz : pz p = true
  · simp only [hz, if_true, true_and]
    constructor
    · rintro ⟨h1, h2⟩
      have h3 : inMask t.exec l = true := by
        simp only [inMask, BitVec.getLsbD_and, Bool.and_eq_true] at h2; exact h2.1
      exact ⟨(mem_sweptRows t l h3).mpr h1, h2⟩
    · rintro ⟨h1, h2⟩
      have h3 : inMask t.exec l = true := by
        simp only [inMask, BitVec.getLsbD_and, Bool.and_eq_true] at h2; exact h2.1
      exact ⟨(mem_sweptRows t l h3).mp h1, h2⟩
  · simp [hz, inMask]

theorem acts_not_zeroes (t : Team) (p : Option Pfx) (l : Nat) (h : t.acts p l) : ¬ t.zeroes p l := by
  rw [acts_iff] at h
  rw [zeroes_iff]
  intro h2
  have := acting_not_zeroed t p l h.2
  rw [this] at h2
  cases h2.2

/-- The registers a sweep leaves, in the words of the form. -/
theorem SweepOut.toRegs {x : LaneForm} {t u : Team} {f : Nat → LaneOut} {vreg gen : FMap Word32} {exc : Mask}
    {fl : BitVec 5} (h : SweepOut t x.p x.zero f t.sweptRows vreg gen exc fl) (hu : u.vreg = vreg)
    (hreg : ∀ l, t.acts x.p l → ∀ r v, (r, v) ∈ (f l).regs → r ∈ x.dst) :
    x.Regs t (fun r l => (f l).get r (t.v r l)) u := by
  intro r l hl
  have e : u.v r l = fget 0 vreg (r * 1024 + l) := by rw [Team.v, hu]
  rw [e, h.regs r l hl]
  refine ⟨?_, ?_, ?_⟩
  · intro _ ha
    rw [acts_iff] at ha
    rw [if_pos ha.1, if_pos ha.2]
  · intro hr hz
    have hna : ¬ (inMask (t.acting x.p) l = true) := fun h1 =>
      acts_not_zeroes t x.p l ((acts_iff t x.p l).mpr ⟨((zeroes_iff t x.p l).mp hz).1, h1⟩) hz
    rw [zeroes_iff] at hz
    rw [if_pos hz.1, if_neg hna, if_pos ⟨hz.2, hr⟩]
  · intro ha hz
    rw [acts_iff] at ha
    rw [zeroes_iff] at hz
    split
    · next hw =>
      split
      · next hact =>
        have hr : r ∉ x.dst := fun e => ha ⟨e, hw, hact⟩
        have : (f l).regs.reverse.find? (fun x => x.1 == r) = none := by
          rw [List.find?_eq_none]
          intro y hy hy2
          obtain ⟨r', v⟩ := y
          have h2 : r' = r := by simpa using hy2
          subst h2
          exact hr (hreg l ((acts_iff _ _ _).mpr ⟨hw, hact⟩) r' v (List.mem_reverse.mp hy))
        rw [LaneOut.get, this]
      · rw [if_neg (fun e => hz ⟨e.2, hw, e.1⟩)]
    · rfl

/-- A lane instruction that executes normally sweeps every row and retires. -/
theorem runLane_next {x : LaneForm} {o : LaneOp} (of : x.Of o) (s : State) (hr : x.Ready s.team)
    (zs : List (Nat × Nat))
    (hz : (zs.flatMap fun d => run d.1 d.2) = x.zero) (f : Team → Nat → LaneOut)
    (hrow : o.row = fun t w => lanesRow t o.p zs (f t) w) (hlong : o.long = false)
    (hfin : o.fin = fun t => ⟨t, [], false⟩) (hf : RowLocal s.team.tile f) :
    ∃ vreg gen exc fl, runLane true o s = .next (s.finishLane o (s.team.rowsOf vreg gen exc fl)) ∧
      SweepOut s.team x.p x.zero (f s.team) s.team.sweptRows vreg gen exc fl := by
  obtain ⟨vreg, gen, exc, fl, h1, h2⟩ := sweep_out o zs f hrow hlong s.team.sweptRows (sweptRows_nodup _)
    (sweptRows_lt _ hr.lanes) s.team hf (fun w hw => of.rowReady hr w hw) hr.fresh.2.2.2.1
  refine ⟨vreg, gen, exc, fl, ?_, ?_⟩
  · unfold runLane
    simp only [of.precheck hr, hr.active, if_false, of.emptyTrap hr, Option.isSome_none, Bool.and_false,
      Bool.false_eq_true, hr.fresh.1, Option.getD_none]
    have e : (s.team.sweptRows.filter fun w => decide (0 ≤ w)) = s.team.sweptRows := by
      rw [List.filter_eq_self]; intro a _; simp
    rw [e, h1]
    simp only [hfin]
    rfl
  · rw [of.p, hz] at h2; exact h2

theorem foldl_setTags (xs : List (Nat × Nat)) (t : Team) :
    xs.foldl (fun (t : Team) (x : Nat × Nat) => t.setTags [x.1] (BitVec.ofNat 4 x.2)) t =
      { t with tag := xs.foldl (fun m (y : Nat × Nat) => fput m y.1 (BitVec.ofNat 4 y.2)) t.tag } := by
  induction xs generalizing t with
  | nil => rfl
  | cons r rest ih => rw [List.foldl_cons, ih]; rfl

/-- Retirement of a lane instruction that goes on to no trap, as a record. -/
theorem retireLane_eq {x : LaneForm} {o : LaneOp} (of : x.Of o) (t : Team) (hq : t.excFlags &&& t.te = 0) :
    t.retireLane o =
      { t with
        div := movePc t.div (t.pc + BitVec.ofNat 64 (plen x.p))
        tag := (o.tags ++ o.more).foldl (fun m (y : Nat × Nat) => fput m y.1 (BitVec.ofNat 4 y.2)) t.tag, flags := t.flags ||| t.excFlags.setWidth 64,
        iwarn := t.iwarn ||| BitVec.ofNat 64 x.warn ||| BitVec.ofNat 64 (wIf (!t.tagsFit o) wTAG),
        wait := .none, arr := false, prow := none, exc := 0, excFlags := 0 } := by
  unfold Team.retireLane
  rw [of.p, of.warn]
  have e : (t.excFlags &&& t.te == 0) = true := by rw [hq]; rfl
  simp only [foldl_setTags, Team.advance, Team.warn, Team.setPc_eq, e, if_true, Bool.true_and]
  rfl

theorem or_ofNat (a b : Nat) : BitVec.ofNat 64 a ||| BitVec.ofNat 64 b = BitVec.ofNat 64 (a ||| b) := by
  apply BitVec.eq_of_getLsbD_eq
  intro i _
  simp [BitVec.getLsbD_ofNat]

/-- Tags set by a list of registers that is a function of the register. -/
theorem fget_tags (rs : List Nat) (tag : Nat → Nat) (m : FMap (BitVec 4)) (r : Nat) :
    fget 0 ((rs.map fun r => (r, tag r)).foldl (fun m (y : Nat × Nat) => fput m y.1 (BitVec.ofNat 4 y.2)) m) r =
      if r ∈ rs then BitVec.ofNat 4 (tag r) else fget 0 m r := by
  have e : ∀ m : FMap (BitVec 4), (rs.map fun r => (r, tag r)).foldl (fun m (y : Nat × Nat) => fput m y.1 (BitVec.ofNat 4 y.2)) m =
      fputAll m rs fun r => BitVec.ofNat 4 (tag r) := by
    intro m; rw [List.foldl_map]; rfl
  rw [e, fget_fputAll]

theorem postRows_zero (s : State) : s.postRows 0 = s := by simp [State.postRows]

/-- A floating-point lane instruction that raises nothing enabled has its effect; what its other lanes would
write is not asked. -/
theorem runLane_acting {x : LaneForm} {o : LaneOp} (of : x.Of o) (s : State) (hr : x.Ready s.team)
    (zs : List (Nat × Nat))
    (hz : (zs.flatMap fun d => run d.1 d.2) = x.zero) (f : Team → Nat → LaneOut)
    (hrow : o.row = fun t w => lanesRow t o.p zs (f t) w) (hlong : o.long = false)
    (hfin : o.fin = fun t => ⟨t, [], false⟩) (hf : RowLocal s.team.tile f)
    (hreg : ∀ l, s.team.acts x.p l → ∀ r v, (r, v) ∈ (f s.team l).regs → r ∈ x.dst)
    (hq : x.Quiet s.team fun l => (f s.team l).fl) :
    x.DoneFp s (fun r l => (f s.team l).get r (s.team.v r l)) (fun l => (f s.team l).fl)
      (fun l => ((f s.team l).g).getD (s.team.g l)) (runLane true o s) := by
  obtain ⟨vreg, gen, exc, fl, h1, h2⟩ := runLane_next of s hr zs hz f hrow hlong hfin hf
  have hfl0 := hr.fresh.2.2.1
  have raised : fl &&& s.team.te = 0 := by
    apply BitVec.eq_of_getLsbD_eq
    intro i _
    have z : (0 : BitVec 5).getLsbD i = false := BitVec.getLsbD_zero
    rw [BitVec.getLsbD_and, z]
    cases hb : fl.getLsbD i
    · rfl
    · rw [Bool.true_and]
      rcases (h2.flags i).mp hb with h3 | ⟨l, hl, h4, h5, h6⟩
      · rw [hfl0] at h3; simp at h3
      · have := hq l hl ((acts_iff _ _ _).mpr ⟨h4, h5⟩)
        have e : ((f s.team l).fl &&& s.team.te).getLsbD i = false := by rw [this]; simp
        rw [BitVec.getLsbD_and, h6, Bool.true_and] at e
        exact e
  have quiet : (s.team.rowsOf vreg gen exc fl).excFlags &&& (s.team.rowsOf vreg gen exc fl).te = 0 := raised
  refine ⟨(s.team.rowsOf vreg gen exc fl).retireLane o, fl, ?_, ?_, ?_, ?_, ?_, ?_, ?_, ?_⟩
  · rw [h1]
    unfold State.finishLane
    have e1 : (s.team.rowsOf vreg gen exc fl).excFlags = fl := rfl
    have e2 : (s.team.rowsOf vreg gen exc fl).te = s.team.te := rfl
    have e3 : (s.team.rowsOf vreg gen exc fl).prods = s.team.prods := rfl
    simp only [e1, e2, e3, raised, if_true, Nat.sub_self, postRows_zero]
  · rw [retireLane_eq of _ quiet]
    exact ⟨_, _, _, _, _, by rw [Team.setPc_eq]; rfl⟩
  · exact h2.toRegs (by rw [retireLane_eq of _ quiet]; rfl) hreg
  · intro r
    rw [Team.tagOf, retireLane_eq of _ quiet]
    exact of.tags s.team.tag r
  · have hfit : (s.team.rowsOf vreg gen exc fl).tagsFit o = s.team.tagsFit o := rfl
    constructor
    · intro h3
      rw [retireLane_eq of _ quiet, hfit, (of.fits _).mpr h3]
      show s.team.iwarn ||| _ ||| 0#64 = _
      rw [BitVec.or_zero]
    · intro h3
      have h4 : s.team.tagsFit o = false := by
        cases hb : s.team.tagsFit o
        · rfl
        · exact absurd ((of.fits _).mp hb) h3
      rw [retireLane_eq of _ quiet, hfit, h4]
      show s.team.iwarn ||| BitVec.ofNat 64 x.warn ||| BitVec.ofNat 64 wTAG = _
      rw [BitVec.or_assoc, or_ofNat]
  · intro i
    have z : (0 : BitVec 5).getLsbD i = false := BitVec.getLsbD_zero
    rw [h2.flags i, hfl0, z]
    simp only [Bool.false_eq_true, false_or]
    constructor
    · rintro ⟨l, hl, h3, h4, h5⟩; exact ⟨l, hl, (acts_iff _ _ _).mpr ⟨h3, h4⟩, h5⟩
    · rintro ⟨l, hl, h3, h5⟩; exact ⟨l, hl, ((acts_iff _ _ _).mp h3).1, ((acts_iff _ _ _).mp h3).2, h5⟩
  · rw [retireLane_eq of _ quiet]; rfl
  · intro l hl
    have e : ((s.team.rowsOf vreg gen exc fl).retireLane o).g l = fget (genSeedOf s.team.genSeed l) gen l := by
      rw [retireLane_eq of _ quiet]; rfl
    rw [e, h2.gens l hl]
    constructor
    · intro ha; rw [if_pos ((acts_iff _ _ _).mp ha)]
    · intro ha; rw [if_neg (fun e => ha ((acts_iff _ _ _).mpr e))]

theorem runLane_fp {x : LaneForm} {o : LaneOp} (of : x.Of o) (s : State) (hr : x.Ready s.team)
    (zs : List (Nat × Nat))
    (hz : (zs.flatMap fun d => run d.1 d.2) = x.zero) (f : Team → Nat → LaneOut)
    (hrow : o.row = fun t w => lanesRow t o.p zs (f t) w) (hlong : o.long = false)
    (hfin : o.fin = fun t => ⟨t, [], false⟩) (hf : RowLocal s.team.tile f)
    (hreg : ∀ l r v, (r, v) ∈ (f s.team l).regs → r ∈ x.dst)
    (hq : x.Quiet s.team fun l => (f s.team l).fl) :
    x.DoneFp s (fun r l => (f s.team l).get r (s.team.v r l)) (fun l => (f s.team l).fl)
      (fun l => ((f s.team l).g).getD (s.team.g l)) (runLane true o s) :=
  runLane_acting of s hr zs hz f hrow hlong hfin hf (fun l _ => hreg l) hq

/-- A lane instruction that raises nothing and steps no generator has its effect. -/
theorem runLane_done {x : LaneForm} {o : LaneOp} (of : x.Of o) (s : State) (hr : x.Ready s.team)
    (zs : List (Nat × Nat))
    (hz : (zs.flatMap fun d => run d.1 d.2) = x.zero) (f : Team → Nat → LaneOut)
    (hrow : o.row = fun t w => lanesRow t o.p zs (f t) w) (hlong : o.long = false)
    (hfin : o.fin = fun t => ⟨t, [], false⟩) (hf : RowLocal s.team.tile f)
    (hreg : ∀ l r v, (r, v) ∈ (f s.team l).regs → r ∈ x.dst)
    (hfl : ∀ l, (f s.team l).fl = 0) (hg : ∀ l, (f s.team l).g = none) :
    x.Done s (fun r l => (f s.team l).get r (s.team.v r l)) (runLane true o s) := by
  obtain ⟨t, u, h1, h2, h3, h4, h5, h6, h7, h8⟩ := runLane_fp of s hr zs hz f hrow hlong hfin hf hreg
    (by intro l _ _; show (f s.team l).fl &&& _ = 0; rw [hfl l]; simp)
  refine ⟨t, h1, h2, h3, h4, h5, ?_, ?_⟩
  · have : u = 0 := by
      apply BitVec.eq_of_getLsbD_eq
      intro i _
      cases hb : u.getLsbD i
      · simp
      · obtain ⟨l, _, _, h⟩ := (h6 i).mp hb
        simp only [hfl l] at h; simp at h
    rw [h7, this]; simp
  · intro l hl
    by_cases ha : s.team.acts x.p l
    · rw [(h8 l hl).1 ha]; simp only [hg l, Option.getD_none]
    · exact (h8 l hl).2 ha

end Sys2Proof.Machine
end

