-- ==== Sys2Proof/Laws/Families.lean ====
section
/-! SUPPORT. What each shared shape of lane arithmetic leaves, in the words of Safety.lean. -/

namespace Sys2Proof.Machine

/-! ### Reading a team whose other rows have been written -/

theorem rowsOf_v (t : Team) (a b : FMap Word32) (c : Mask) (d : BitVec 5) (r j l : Nat) (hj : j / 32 = l / 32)
    (h : ∀ r j, j / 32 = l / 32 → fget 0 a (r * 1024 + j) = t.v r j) : (t.rowsOf a b c d).v r j = t.v r j := h r j hj

theorem rowsOf_v64 (t : Team) (a b : FMap Word32) (c : Mask) (d : BitVec 5) (r j l : Nat) (hj : j / 32 = l / 32)
    (h : ∀ r j, j / 32 = l / 32 → fget 0 a (r * 1024 + j) = t.v r j) : (t.rowsOf a b c d).v64 r j = t.v64 r j := by
  unfold Team.v64; rw [rowsOf_v t a b c d (r + 1) j l hj h, rowsOf_v t a b c d r j l hj h]

theorem rowsOf_fpElem (t : Team) (a b : FMap Word32) (c : Mask) (d : BitVec 5) (w : Bool) (r j l : Nat) (hj : j / 32 = l / 32)
    (h : ∀ r j, j / 32 = l / 32 → fget 0 a (r * 1024 + j) = t.v r j) :
    (t.rowsOf a b c d).fpElem w r j = t.fpElem w r j := by
  unfold Team.fpElem; rw [rowsOf_v t a b c d r j l hj h, rowsOf_v64 t a b c d r j l hj h]

theorem rowsOf_g (t : Team) (a b : FMap Word32) (c : Mask) (d : BitVec 5) (j l : Nat) (hj : j / 32 = l / 32)
    (h : ∀ j, j / 32 = l / 32 → fget (genSeedOf t.genSeed j) b j = t.g j) : (t.rowsOf a b c d).g j = t.g j := h j hj

/-! ### Results -/

/-- Regs with values that agree on the destinations of acting lanes. -/
theorem LaneForm.Regs.congr {x : LaneForm} {t u : Team} {v w : Nat → Nat → Word32} (h : x.Regs t v u)
    (e : ∀ r l, r ∈ x.dst → t.acts x.p l → v r l = w r l) : x.Regs t w u :=
  fun r l hl => ⟨fun hr ha => by rw [(h r l hl).1 hr ha, e r l hr ha], (h r l hl).2⟩

theorem LaneForm.Done.congr {x : LaneForm} {s : State} {v w : Nat → Nat → Word32} {o : Out} (h : x.Done s v o)
    (e : ∀ r l, r ∈ x.dst → s.team.acts x.p l → v r l = w r l) : x.Done s w o := by
  obtain ⟨t, h1, h2, h3, h4⟩ := h
  exact ⟨t, h1, h2, h3.congr e, h4⟩

theorem LaneForm.DoneFp.congr {x : LaneForm} {s : State} {v w : Nat → Nat → Word32} {fl : Nat → Fl} {g g' : Nat → Word32}
    {o : Out} (h : x.DoneFp s v fl g o) (e : ∀ r l, r ∈ x.dst → s.team.acts x.p l → v r l = w r l)
    (eg : ∀ l, s.team.acts x.p l → g l = g' l) : x.DoneFp s w fl g' o := by
  obtain ⟨t, u, h1, h2, h3, h4, h5, h6, h7, h8⟩ := h
  exact ⟨t, u, h1, h2, h3.congr e, h4, h5, h6, h7, fun l hl => ⟨fun ha => by rw [(h8 l hl).1 ha, eg l ha], (h8 l hl).2⟩⟩

/-- A lane instruction whose computation is known lane by lane. -/
theorem runLane_out {x : LaneForm} {o : LaneOp} (of : x.Of o) (s : State) (hr : x.Ready s.team) (zs : List (Nat × Nat))
    (hz : (zs.flatMap fun d => run d.1 d.2) = x.zero) (f : Team → Nat → LaneOut)
    (hrow : o.row = fun t w => lanesRow t o.p zs (f t) w) (hlong : o.long = false)
    (hfin : o.fin = fun t => ⟨t, [], false⟩) (hf : RowLocal s.team.tile f) (R : Nat → List (Nat × Word32)) (F : Nat → Fl)
    (G : Nat → Option Word32) (out : ∀ l, f s.team l = ⟨R l, F l, G l⟩) (hreg : ∀ l r v, (r, v) ∈ R l → r ∈ x.dst)
    (val : Nat → Nat → Word32)
    (hval : ∀ r l, r ∈ x.dst → s.team.acts x.p l → (⟨R l, F l, G l⟩ : LaneOut).get r (s.team.v r l) = val r l)
    (gen : Nat → Word32) (hgen : ∀ l, (G l).getD (s.team.g l) = gen l) (hq : x.Quiet s.team F) :
    x.DoneFp s val F gen (runLane true o s) := by
  have h := runLane_fp of s hr zs hz f hrow hlong hfin hf (by intro l r v hv; rw [out] at hv; exact hreg l r v hv)
    (by intro l hl ha; simp only [out]; exact hq l hl ha)
  simp only [out] at h
  exact h.congr hval (fun l _ => hgen l)

theorem mem_run (d n r : Nat) : r ∈ run d n ↔ d ≤ r ∧ r < d + n := by
  simp only [run, List.mem_map, List.mem_range]
  constructor
  · rintro ⟨i, hi, rfl⟩; omega
  · rintro ⟨h1, h2⟩; exact ⟨r - d, by omega, by omega⟩

theorem get_single (d r : Nat) (v old : Word32) (fl : Fl) (g : Option Word32) :
    ({ regs := [(d, v)], fl := fl, g := g } : LaneOut).get r old = if r = d then v else old := by
  unfold LaneOut.get
  by_cases h : r = d
  · subst h; simp
  · have : (d == r) = false := beq_false_of_ne (Ne.symm h)
    simp [this, h]

theorem get_pair (d r : Nat) (v : Word64) (old : Word32) (fl : Fl) (g : Option Word32) :
    ({ regs := pairRegs d v, fl := fl, g := g } : LaneOut).get r old =
      if r = d then v.setWidth 32 else if r = d + 1 then v.extractLsb' 32 32 else old := by
  unfold LaneOut.get pairRegs
  by_cases h1 : r = d + 1
  · subst h1; simp
  · have e1 : (d + 1 == r) = false := beq_false_of_ne (Ne.symm h1)
    by_cases h2 : r = d
    · subst h2; simp
    · have e2 : (d == r) = false := beq_false_of_ne (Ne.symm h2)
      simp [e1, e2, h1, h2]

/-- A lane's element result at a destination register. -/
theorem get_elem (wide : Bool) (d r : Nat) (v32 : Word32) (v64 : Word64) (old : Word32) (fl : Fl) (g : Option Word32)
    (h : r ∈ run d (nregs wide)) :
    ({ regs := if wide then pairRegs d v64 else [(d, v32)], fl := fl, g := g } : LaneOut).get r old =
      elemReg wide d v32 v64 r := by
  cases wide
  · have : r = d := by rw [mem_run] at h; simp only [nregs] at h; simp at h; omega
    simp only [Bool.false_eq_true, if_false, elemReg]
    rw [get_single, if_pos this]
  · rw [mem_run] at h
    simp only [nregs, if_true] at h
    simp only [if_true, elemReg]
    rw [get_pair]
    by_cases h1 : r = d
    · simp [h1]
    · have : r = d + 1 := by omega
      simp [this]

theorem mem_elem (wide : Bool) (d r : Nat) (v32 : Word32) (v64 : Word64) (v : Word32)
    (h : (r, v) ∈ (if wide then pairRegs d v64 else [(d, v32)])) : r ∈ run d (nregs wide) := by
  rw [mem_run]
  cases wide
  · simp at h; simp [nregs, h.1]
  · simp [pairRegs] at h
    simp only [nregs, if_true]
    rcases h with h | h <;> omega

theorem run_one (d : Nat) : run d 1 = [d] := by simp [run]

theorem tagRun_eq (d n tag : Nat) : tagRun d n tag = (run d n).map fun r => (r, tag) := rfl

theorem nregs_ne (w : Bool) : nregs w ≠ 0 := by cases w <;> simp [nregs]

/-! ### Forms and their operations -/

/-- A form describes `laneOp` over its sources and destination run. -/
theorem laneOp_of (x : LaneForm) (p : Option Pfx) (srcs : List Src) (d n : Nat) (aligned : Bool) (tag warn : Nat)
    (f : Team → Nat → LaneOut) (h1 : x.p = p) (h2 : (srcs.map fun a => (a.reg, a.n, a.tags)) = x.srcs)
    (h3 : x.dst = run d n) (h4 : n ≠ 0) (h5 : aligned = x.even) (h6 : x.merged = x.dst.map fun r => (r, x.tag r)) (h7 : ∀ r, x.tag r = tag)
    (h8 : x.warn = warn) (h9 : x.tagged = x.dst := by rfl) : x.Of (laneOp p srcs d n aligned tag warn f) where
  p := h1.symm
  srcs := h2
  dst := by
    intro y hy r hm
    have : y = (d, n) := by simpa [laneOp] using hy
    rw [this] at hm
    rw [h3]; exact hm
  some := by
    intro y hy
    have : y = (d, n) := by simpa [laneOp] using hy
    rw [this]; exact h4
  even := h5
  merge := by
    show tagRun d n tag = _
    rw [h6, h3, tagRun_eq]
    exact List.map_congr_left fun r _ => by rw [h7]
  tags := by
    intro m r
    show fget 0 ((tagRun d n tag ++ []).foldl _ m) r = _
    rw [List.append_nil, tagRun_eq, fget_tags, h9, h3, h7]
  warn := h8.symm

theorem laneOp_zero (d n : Nat) : ([(d, n)].flatMap fun x : Nat × Nat => run x.1 x.2) = run d n := by simp

theorem laneTwo_done (p : Option Pfx) (f : LR) (accept : List Nat) (tag : Nat)
    (op : (w : Nat) → BitVec w → BitVec w → BitVec w) (s : State) (hr : (twoForm p f accept tag).Ready s.team) :
    (twoForm p f accept tag).Done s (fun r l => elemReg f.wide f.vd.toNat
      (op 32 (s.team.v f.va.toNat l) (s.team.v f.vb.toNat l))
      (op 64 (s.team.v64 f.va.toNat l) (s.team.v64 f.vb.toNat l)) r) (laneTwo p f accept tag op s) := by
  unfold laneTwo
  rw [show pfxOk p = true from hr.prefixOk]
  refine LaneForm.Done.congr (runLane_done (laneOp_of _ _ _ _ _ _ _ _ _ rfl rfl rfl (nregs_ne _) rfl rfl (fun _ => rfl) rfl)
    s hr _ (laneOp_zero _ _) _ rfl rfl rfl ?_ ?_ (fun _ => rfl) (fun _ => rfl)) ?_
  · intro t _ a b c d l _ h _
    simp only [rowsOf_v t a b c d _ l l rfl h, rowsOf_v64 t a b c d _ l l rfl h]
  · intro l r v hv
    exact mem_elem _ _ _ _ _ _ hv
  · intro r l hm _
    exact get_elem _ _ _ _ _ _ _ _ hm

theorem lanePacked_done (p : Option Pfx) (f : LR) (op : (w : Nat) → BitVec w → BitVec w → BitVec w) (s : State)
    (hr : (packedForm p f (if f.wide then 11 else 12)).Ready s.team) :
    (packedForm p f (if f.wide then 11 else 12)).Done s (fun _ l =>
      if f.wide then packed8 (op 8) (s.team.v f.va.toNat l) (s.team.v f.vb.toNat l)
      else packed16 (op 16) (s.team.v f.va.toNat l) (s.team.v f.vb.toNat l)) (lanePacked p f op s) := by
  unfold lanePacked
  rw [show pfxOk p = true from hr.prefixOk]
  refine LaneForm.Done.congr (runLane_done (laneOp_of _ _ _ _ _ _ _ _ _ rfl rfl (run_one _).symm (by simp) rfl rfl
    (fun _ => rfl) rfl) s hr _ (laneOp_zero _ _) _ rfl rfl rfl ?_ ?_ (fun _ => rfl) (fun _ => rfl)) ?_
  · intro t _ a b c d l _ h _
    simp only [rowsOf_v t a b c d _ l l rfl h]
  · intro l r v hv
    simp only [List.mem_singleton, Prod.mk.injEq] at hv
    simp [packedForm, hv.1]
  · intro r l hm _
    have : r = f.vd.toNat := by simpa [packedForm] using hm
    rw [get_single, if_pos this]

theorem laneOne_done (p : Option Pfx) (f : LR) (accept : List Nat) (tag : Nat) (op : (w : Nat) → BitVec w → BitVec w)
    (s : State) (hr : (oneForm p f accept tag).Ready s.team) :
    (oneForm p f accept tag).Done s (fun r l => elemReg f.wide f.vd.toNat (op 32 (s.team.v f.va.toNat l))
      (op 64 (s.team.v64 f.va.toNat l)) r) (laneOne p f accept tag op s) := by
  unfold laneOne
  rw [show pfxOk p = true from hr.prefixOk]
  refine LaneForm.Done.congr (runLane_done (laneOp_of _ _ _ _ _ _ _ _ _ rfl rfl rfl (nregs_ne _) rfl rfl (fun _ => rfl) rfl)
    s hr _ (laneOp_zero _ _) _ rfl rfl rfl ?_ ?_ (fun _ => rfl) (fun _ => rfl)) ?_
  · intro t _ a b c d l _ h _
    simp only [rowsOf_v t a b c d _ l l rfl h, rowsOf_v64 t a b c d _ l l rfl h]
  · intro l r v hv
    exact mem_elem _ _ _ _ _ _ hv
  · intro r l hm _
    exact get_elem _ _ _ _ _ _ _ _ hm

theorem laneCount_done (p : Option Pfx) (f : LR) (op : (w : Nat) → BitVec w → Nat)
    (s : State) (hr : (countForm p f [intTag f.wide]).Ready s.team) :
    (countForm p f [intTag f.wide]).Done s (fun _ l => BitVec.ofNat 32
      (if f.wide then op 64 (s.team.v64 f.va.toNat l) else op 32 (s.team.v f.va.toNat l))) (laneCount p f op s) := by
  unfold laneCount
  rw [show pfxOk p = true from hr.prefixOk]
  refine LaneForm.Done.congr (runLane_done (laneOp_of _ _ _ _ _ _ _ _ _ rfl rfl (run_one _).symm (by simp) rfl rfl
    (fun _ => rfl) rfl) s hr _ (laneOp_zero _ _) _ rfl rfl rfl ?_ ?_ (fun _ => rfl) (fun _ => rfl)) ?_
  · intro t _ a b c d l _ h _
    simp only [rowsOf_v t a b c d _ l l rfl h, rowsOf_v64 t a b c d _ l l rfl h]
  · intro l r v hv
    simp only [List.mem_singleton, Prod.mk.injEq] at hv
    simp [countForm, hv.1]
  · intro r l hm _
    have : r = f.vd.toNat := by simpa [countForm] using hm
    rw [get_single, if_pos this]

theorem laneCompare_done (p : Option Pfx) (f : LR) (test : (w : Nat) → BitVec w → BitVec w → Bool)
    (s : State) (hr : (compareForm p f [intTag f.wide]).Ready s.team) :
    (compareForm p f [intTag f.wide]).Done s (fun _ l => flag32
      (if f.wide then test 64 (s.team.v64 f.va.toNat l) (s.team.v64 f.vb.toNat l)
       else test 32 (s.team.v f.va.toNat l) (s.team.v f.vb.toNat l))) (laneCompare p f test s) := by
  unfold laneCompare
  rw [show pfxOk p = true from hr.prefixOk]
  refine LaneForm.Done.congr (runLane_done (laneOp_of _ _ _ _ _ _ _ _ _ rfl rfl (run_one _).symm (by simp) rfl rfl
    (fun _ => rfl) rfl) s hr _ (laneOp_zero _ _) _ rfl rfl rfl ?_ ?_ (fun _ => rfl) (fun _ => rfl)) ?_
  · intro t _ a b c d l _ h _
    simp only [rowsOf_v t a b c d _ l l rfl h, rowsOf_v64 t a b c d _ l l rfl h]
  · intro l r v hv
    simp only [List.mem_singleton, Prod.mk.injEq] at hv
    simp [compareForm, hv.1]
  · intro r l hm _
    have : r = f.vd.toNat := by simpa [compareForm] using hm
    rw [get_single, if_pos this]

theorem laneImm_done (p : Option Pfx) (f : LI) (accept : List Nat) (tag warn : Nat) (op : Word32 → Word32)
    (s : State) (hr : (immForm p f accept tag warn).Ready s.team) :
    (immForm p f accept tag warn).Done s (fun _ l => op (s.team.v f.va.toNat l)) (laneImm p f accept tag warn op s) := by
  unfold laneImm
  rw [show pfxOk p = true from hr.prefixOk]
  refine LaneForm.Done.congr (runLane_done (laneOp_of _ _ _ _ _ _ _ _ _ rfl rfl (run_one _).symm (by simp) rfl rfl
    (fun _ => rfl) rfl) s hr _ (laneOp_zero _ _) _ rfl rfl rfl ?_ ?_ (fun _ => rfl) (fun _ => rfl)) ?_
  · intro t _ a b c d l _ h _
    simp only [rowsOf_v t a b c d _ l l rfl h]
  · intro l r v hv
    simp only [List.mem_singleton, Prod.mk.injEq] at hv
    simp [immForm, hv.1]
  · intro r l hm _
    have : r = f.vd.toNat := by simpa [immForm] using hm
    rw [get_single, if_pos this]

theorem laneFill_done (p : Option Pfx) (d : BitVec 7) (wide : Bool) (tag warn : Nat) (v : Team → Nat → Word64)
    (hv : ∀ (t : Team) a b c e l, v (t.rowsOf a b c e) l = v t l)
    (s : State) (hr : (fillForm p d wide tag warn).Ready s.team) :
    (fillForm p d wide tag warn).Done s (fun r l => elemReg wide d.toNat ((v s.team l).setWidth 32) (v s.team l) r)
      (laneFill p d wide tag warn v s) := by
  unfold laneFill
  rw [show pfxOk p = true from hr.prefixOk]
  refine LaneForm.Done.congr (runLane_done (laneOp_of _ _ _ _ _ _ _ _ _ rfl rfl rfl (nregs_ne _) rfl rfl (fun _ => rfl) rfl)
    s hr _ (laneOp_zero _ _) _ rfl rfl rfl ?_ ?_ (fun _ => rfl) (fun _ => rfl)) ?_
  · intro t _ a b c d l _ h _
    simp only [hv]
  · intro l r v hv
    exact mem_elem _ _ _ _ _ _ hv
  · intro r l hm _
    exact get_elem _ _ _ _ _ _ _ _ hm

theorem execSelLane_done (p : Option Pfx) (f : LR) (s : State) (hr : (selForm p f s.team).Ready s.team) :
    (selForm p f s.team).Done s (fun r l =>
      let a := if s.team.v (selC p f) l ≠ 0 then f.va.toNat else f.vb.toNat
      elemReg f.wide f.vd.toNat (s.team.v a l) (s.team.v64 a l) r) (execSelLane p f s) := by
  unfold execSelLane
  rw [show pfxOk p = true from hr.prefixOk]
  refine LaneForm.Done.congr (runLane_done (laneOp_of _ _ _ _ _ _ _ _ _ rfl rfl rfl (nregs_ne _) rfl rfl (fun _ => rfl) rfl)
    s hr _ (laneOp_zero _ _) _ rfl rfl rfl ?_ ?_ (fun _ => rfl) (fun _ => rfl)) ?_
  · intro t _ a b c d l _ h _
    simp only [rowsOf_v t a b c d _ l l rfl h, rowsOf_v64 t a b c d _ l l rfl h]
  · intro l r v hv
    exact mem_elem _ _ _ _ _ _ hv
  · intro r l hm _
    rw [get_elem _ _ _ _ _ _ _ _ hm]
    by_cases h : s.team.v (selC p f) l = 0 <;> simp [h]

theorem execMov_done (p : Option Pfx) (f : LR) (s : State) (hr : (movForm p f s.team).Ready s.team) :
    (movForm p f s.team).Done s (fun r l => elemReg f.wide f.vd.toNat (s.team.v f.va.toNat l) (s.team.v64 f.va.toNat l) r)
      (execMov p f s) := by
  unfold execMov
  rw [show pfxOk p = true from hr.prefixOk]
  refine LaneForm.Done.congr (runLane_done (x := movForm p f s.team) ⟨rfl, rfl, ?_, ?_, rfl, tagRun_eq _ _ _, ?_, rfl⟩
    s hr _ (laneOp_zero _ _) _ rfl rfl rfl ?_ ?_ (fun _ => rfl) (fun _ => rfl)) ?_
  · simp [laneOp, movForm]
  · intro y hy
    have : y = (f.vd.toNat, nregs f.wide) := by simpa [laneOp] using hy
    rw [this]; exact nregs_ne _
  · intro m r
    show fget 0 ((tagRun f.vd.toNat (nregs f.wide) (s.team.tagOf f.va.toNat).toNat ++ []).foldl _ m) r = _
    rw [List.append_nil, tagRun_eq, fget_tags]; rfl
  · intro t _ a b c d l _ h _
    simp only [rowsOf_v t a b c d _ l l rfl h, rowsOf_v64 t a b c d _ l l rfl h]
  · intro l r v hv
    exact mem_elem _ _ _ _ _ _ hv
  · intro r l hm _
    exact get_elem _ _ _ _ _ _ _ _ hm

end Sys2Proof.Machine
end

