-- ==== Sys2Proof/Laws/FamiliesFp.lean ====
section
/-! SUPPORT. What the shared shapes of lane floating point leave, in the words of Safety.lean. -/

namespace Sys2Proof.Machine

theorem stepped_getD (mode : Nat) (g old : Word32) : (stepped mode g).getD old = if mode = 5 then g else old := by
  unfold stepped; split <;> rfl

/-- Floating-point arithmetic on 32-bit or 64-bit elements. -/
theorem wideFp_done (i : Option Pfx → LR → Instr) (operands : Nat) (rounds : Bool) (op : FOp)
    (ho : operands = 1 ∨ operands = 2 ∨ operands = 3)
    (h : ∀ p f s, exec (i p f) s = fpArith false p f (decide (operands = 1)) rounds
      (if operands = 3 then some (accReg p f) else none)
      { wa := true, wb := decide (2 ≤ operands), rnd := true, vc := decide (operands = 3) } op s) :
    WideFp i operands rounds op := by
  intro p f s x t mode res hr hq
  rw [h p f s]
  unfold fpArith
  rw [show pfxOk p = true from hr.prefixOk]
  have tail : ∀ (srcs : List Src) (al : Bool) (w : Nat), x.Of (laneOp p srcs f.vd.toNat (nregs (f.wide && !false)) al
      (tagWide f.wide) w (fpLane (f.wide && !false) rounds f.vd.toNat f.va.toNat f.vb.toNat
        ((if operands = 3 then some (accReg p f) else none : Option Nat).getD 0) op (rmode s.team p))) →
      x.DoneFp s (fun r l => elemReg f.wide f.vd.toNat (BitVec.ofNat 32 (res l).1) (BitVec.ofNat 64 (res l).1) r)
        (fun l => (res l).2) (genAfter mode t 1) (runLane true (laneOp p srcs f.vd.toNat (nregs (f.wide && !false)) al
          (tagWide f.wide) w (fpLane (f.wide && !false) rounds f.vd.toNat f.va.toNat f.vb.toNat
            ((if operands = 3 then some (accReg p f) else none : Option Nat).getD 0) op (rmode s.team p))) s) := by
    intro srcs al w of
    have out : ∀ l, fpLane (f.wide && !false) rounds f.vd.toNat f.va.toNat f.vb.toNat
        ((if operands = 3 then some (accReg p f) else none : Option Nat).getD 0) op (rmode s.team p) s.team l =
        { regs := if f.wide then pairRegs f.vd.toNat (BitVec.ofNat 64 (res l).1) else [(f.vd.toNat, BitVec.ofNat 32 (res l).1)],
          fl := (res l).2, g := stepped mode (elemRnd mode t l 0).2 } := by
      intro l
      have hw : (f.wide && !false) = f.wide := by simp
      have hc : ((if operands = 3 then some (accReg p f) else none : Option Nat).getD 0) = (if operands = 3 then accReg p f else 0) := by
        split <;> rfl
      rw [hw, hc]
      rfl
    refine runLane_out of s hr _ (laneOp_zero _ _) _ rfl rfl rfl ?_ _ _ _ out ?_ _ ?_ _ ?_ hq
    · intro t _ a b c d l _ h1 h2
      simp only [fpLane, rowsOf_v t a b c d _ l l rfl h1, rowsOf_v64 t a b c d _ l l rfl h1, rowsOf_g t a b c d l l rfl h2]
    · intro l r v hv
      have := mem_elem _ _ _ _ _ _ hv
      simpa [x, fpForm] using this
    · intro r l hm _
      exact get_elem _ _ _ _ _ _ _ _ (by simpa [x, fpForm] using hm)
    · intro l
      rw [stepped_getD]; rfl
  rcases ho with rfl | rfl | rfl
  · exact tail _ _ _ (laneOp_of _ _ _ _ _ _ _ _ _ rfl (by simp [x, fpForm, srcA]) rfl (nregs_ne _)
      (by simp [x, fpForm]) rfl (fun _ => rfl) rfl)
  · exact tail _ _ _ (laneOp_of _ _ _ _ _ _ _ _ _ rfl (by simp [x, fpForm, srcAB]) rfl (nregs_ne _)
      (by simp [x, fpForm]) rfl (fun _ => rfl) rfl)
  · exact tail _ _ _ (laneOp_of _ _ _ _ _ _ _ _ _ rfl (by simp [x, fpForm, srcAB]) rfl (nregs_ne _)
      (by simp [x, fpForm]) rfl (fun _ => rfl) rfl)

/-- Floating-point arithmetic on packed 16-bit elements. -/
theorem halfFp_done (i : Option Pfx → LR → Instr) (operands : Nat) (rounds : Bool) (op : FOp)
    (ho : operands = 1 ∨ operands = 2 ∨ operands = 3)
    (h : ∀ p f s, exec (i p f) s = fpArith true p f (decide (operands = 1)) rounds
      (if operands = 3 then some (accReg p f) else none)
      { wa := true, wb := decide (2 ≤ operands), rnd := true, vc := decide (operands = 3) } op s) :
    HalfFp i operands rounds op := by
  intro p f s x t mode res hr hq
  rw [h p f s]
  unfold fpArith
  rw [show pfxOk p = true from hr.prefixOk]
  have hw : (f.wide && !true) = false := by simp
  have tail : ∀ (srcs : List Src) (al : Bool) (w : Nat), x.Of (laneOp p srcs f.vd.toNat (nregs (f.wide && !true)) al
      (tagHalf f.wide) w (fpLaneHalf f.wide rounds f.vd.toNat f.va.toNat f.vb.toNat
        ((if operands = 3 then some (accReg p f) else none : Option Nat).getD 0) op (rmode s.team p))) →
      x.DoneFp s (fun _ l => BitVec.ofNat 32 ((res l 0).1 + (res l 1).1 * 65536))
        (fun l => (res l 0).2 ||| (res l 1).2) (genAfter mode t 2)
        (runLane true (laneOp p srcs f.vd.toNat (nregs (f.wide && !true)) al
          (tagHalf f.wide) w (fpLaneHalf f.wide rounds f.vd.toNat f.va.toNat f.vb.toNat
            ((if operands = 3 then some (accReg p f) else none : Option Nat).getD 0) op (rmode s.team p))) s) := by
    intro srcs al w of
    have out : ∀ l, fpLaneHalf f.wide rounds f.vd.toNat f.va.toNat f.vb.toNat
        ((if operands = 3 then some (accReg p f) else none : Option Nat).getD 0) op (rmode s.team p) s.team l =
        { regs := [(f.vd.toNat, BitVec.ofNat 32 ((res l 0).1 + (res l 1).1 * 65536))],
          fl := (res l 0).2 ||| (res l 1).2, g := stepped mode (elemRnd mode t l 1).2 } := by
      intro l
      have hc : ((if operands = 3 then some (accReg p f) else none : Option Nat).getD 0) = (if operands = 3 then accReg p f else 0) := by
        split <;> rfl
      rw [hc]
      rfl
    refine runLane_out of s hr _ (laneOp_zero _ _) _ rfl rfl rfl ?_ _ _ _ out ?_ _ ?_ _ ?_ hq
    · intro t _ a b c d l _ h1 h2
      simp only [fpLaneHalf, rowsOf_v t a b c d _ l l rfl h1, rowsOf_g t a b c d l l rfl h2]
      rfl
    · intro l r v hv
      simp only [List.mem_singleton, Prod.mk.injEq] at hv
      simp [x, fpForm, run, nregs, hv.1]
    · intro r l hm _
      have : r = f.vd.toNat := by simpa [x, fpForm, run, nregs] using hm
      rw [get_single, if_pos this]
    · intro l
      rw [stepped_getD]; rfl
  rcases ho with rfl | rfl | rfl
  · exact tail _ _ _ (laneOp_of _ _ _ _ _ _ _ _ _ rfl (by simp [x, fpForm, srcA]) rfl (nregs_ne _)
      (by simp [x, fpForm]) rfl (fun _ => rfl) rfl)
  · exact tail _ _ _ (laneOp_of _ _ _ _ _ _ _ _ _ rfl (by simp [x, fpForm, srcAB]) rfl (nregs_ne _)
      (by simp [x, fpForm]) rfl (fun _ => rfl) rfl)
  · exact tail _ _ _ (laneOp_of _ _ _ _ _ _ _ _ _ rfl (by simp [x, fpForm, srcAB]) rfl (nregs_ne _)
      (by simp [x, fpForm]) rfl (fun _ => rfl) rfl)

/-- A floating-point compare. -/
theorem fcmpLane_done (p : Option Pfx) (f : LR) (test : Int → Bool) (un quiet : Bool) (s : State) (res : Nat → Bool × Fl)
    (hres : ∀ l, res l = match fvCmp ((fmtWide f.wide).unpack (s.team.fpElem f.wide f.va.toNat l))
        ((fmtWide f.wide).unpack (s.team.fpElem f.wide f.vb.toNat l)) with
      | none => (un, if !quiet || ((fmtWide f.wide).unpack (s.team.fpElem f.wide f.va.toNat l)).snan ||
          ((fmtWide f.wide).unpack (s.team.fpElem f.wide f.vb.toNat l)).snan then fNV else 0)
      | some c => (test c, 0))
    (hr : (compareForm p f [tagWide f.wide]).Ready s.team) (hq : (compareForm p f [tagWide f.wide]).Quiet s.team fun l => (res l).2) :
    (compareForm p f [tagWide f.wide]).DoneFp s (fun _ l => flag32 (res l).1) (fun l => (res l).2) s.team.g
      (fcmpLane p f test un quiet s) := by
  unfold fcmpLane
  rw [show pfxOk p = true from hr.prefixOk]
  refine runLane_out (laneOp_of _ _ _ _ _ _ _ _ _ rfl rfl (run_one _).symm (by simp) rfl rfl (fun _ => rfl) rfl)
    s hr _ (laneOp_zero _ _) _ rfl rfl rfl ?_ (fun l => [(f.vd.toNat, flag32 (res l).1)]) _ (fun _ => none) ?_ ?_ _ ?_ _
    (fun _ => rfl) hq
  · intro t _ a b c d l _ h1 h2
    simp only [rowsOf_v t a b c d _ l l rfl h1, rowsOf_v64 t a b c d _ l l rfl h1]
  · intro l
    rw [hres l]
    simp only [Team.fpElem]
    split
    · next e => simp only [e]; rfl
    · next e => simp only [e]
  · intro l r v hv
    simp only [List.mem_singleton, Prod.mk.injEq] at hv
    simp [compareForm, hv.1]
  · intro r l hm _
    have : r = f.vd.toNat := by simpa [compareForm] using hm
    rw [get_single, if_pos this]

/-- The class of a floating-point element. -/
theorem execFclass_done (p : Option Pfx) (f : LR) (s : State) (hr : (countForm p f [tagWide f.wide]).Ready s.team) :
    (countForm p f [tagWide f.wide]).Done s
      (fun _ l => BitVec.ofNat 32 (classOf (fmtWide f.wide) (s.team.fpElem f.wide f.va.toNat l))) (execFclass p f s) := by
  unfold execFclass
  rw [show pfxOk p = true from hr.prefixOk]
  refine LaneForm.Done.congr (runLane_done (laneOp_of _ _ _ _ _ _ _ _ _ rfl rfl (run_one _).symm (by simp) rfl rfl
    (fun _ => rfl) rfl) s hr _ (laneOp_zero _ _) _ rfl rfl rfl ?_ ?_ (fun _ => rfl) (fun _ => rfl)) ?_
  · intro t _ a b c d l _ h _
    simp only [rowsOf_v t a b c d _ l l rfl h, rowsOf_v64 t a b c d _ l l rfl h]
  · intro l r v hv
    simp only [List.mem_singleton, Prod.mk.injEq] at hv
    simp [countForm, hv.1]
  · intro r l hm _
    have : r = f.vd.toNat := by simpa [countForm] using hm
    rw [get_single, if_pos this]; rfl

/-! ### Double words -/

theorem dwRegs_ne (w : Bool) : dwRegs w ≠ 0 := by cases w <;> simp [dwRegs]

theorem mem_dwWrites (w : Bool) (d : Nat) (x : HiLo) (r : Nat) (v : Word32) (h : (r, v) ∈ dwWrites w d x) :
    r ∈ run d (dwRegs w) := by
  rw [mem_run]
  cases w
  · simp [dwWrites] at h; simp only [dwRegs]; simp; omega
  · simp [dwWrites, pairRegs] at h; simp only [dwRegs]; simp; omega

theorem get_dw (w : Bool) (d : Nat) (x : HiLo) (r : Nat) (old : Word32) (fl : Fl) (g : Option Word32)
    (h : r ∈ run d (dwRegs w)) : ({ regs := dwWrites w d x, fl := fl, g := g } : LaneOut).get r old = dwReg w d x r := by
  rw [mem_run] at h
  unfold LaneOut.get dwWrites dwReg elemReg pairRegs
  cases w
  · simp [dwRegs] at h
    by_cases h1 : r = d
    · subst h1; simp
    · have : r = d + 1 := by omega
      subst this; simp
  · simp [dwRegs] at h
    have b : ∀ a : Nat, a ≠ r → (a == r) = false := fun a h => beq_false_of_ne h
    have : r = d ∨ r = d + 1 ∨ r = d + 2 ∨ r = d + 3 := by omega
    rcases this with h1 | h1 | h1 | h1
    · subst h1
      have e1 : (r + 2 + 1 == r) = false := b _ (by omega)
      simp [e1]
    · subst h1; simp
    · subst h1; simp
    · subst h1; simp

/-- Error pairs. -/
theorem errPair_done (p : Option Pfx) (f : LR) (op : Fmt → FV → FV → HiLo × Fl) (s : State)
    (hr : (errForm p f).Ready s.team) (res : Nat → HiLo × Fl)
    (hres : ∀ l, res l = op (fmtWide f.wide) ((fmtWide f.wide).unpack (s.team.fpElem f.wide f.va.toNat l))
      ((fmtWide f.wide).unpack (s.team.fpElem f.wide f.vb.toNat l)))
    (hq : (errForm p f).Quiet s.team fun l => (res l).2) :
    (errForm p f).DoneFp s (fun r l => dwReg f.wide f.vd.toNat (res l).1 r) (fun l => (res l).2) s.team.g
      (errPair p f op s) := by
  unfold errPair
  rw [show pfxOk p = true from hr.prefixOk]
  refine runLane_out (laneOp_of _ _ _ _ _ _ _ _ _ rfl rfl rfl (dwRegs_ne _) rfl rfl (fun _ => rfl) rfl)
    s hr _ (laneOp_zero _ _) _ rfl rfl rfl ?_ (fun l => dwWrites f.wide f.vd.toNat (res l).1) _ (fun _ => none) ?_ ?_ _ ?_ _
    (fun _ => rfl) hq
  · intro t _ a b c d l _ h1 h2
    simp only [rowsOf_fpElem t a b c d _ _ l l rfl h1]
  · intro l
    rw [hres l]
  · intro l r v hv
    exact mem_dwWrites _ _ _ _ _ hv
  · intro r l hm _
    exact get_dw _ _ _ _ _ _ _ hm

theorem rowsOf_dwElem (t : Team) (a b : FMap Word32) (c : Mask) (d : BitVec 5) (w : Bool) (r j l : Nat) (hj : j / 32 = l / 32)
    (h : ∀ r j, j / 32 = l / 32 → fget 0 a (r * 1024 + j) = t.v r j) :
    (t.rowsOf a b c d).dwElem w r j = t.dwElem w r j := by
  unfold Team.dwElem; rw [rowsOf_fpElem t a b c d w r j l hj h, rowsOf_fpElem t a b c d w _ j l hj h]

/-- The number of operands of a double-word operation. -/
def DwOp.operands (op : DwOp) : Nat :=
  match op with
  | .sqrt => 1
  | .fma => 3
  | _ => 2

/-- Double-word arithmetic. -/
theorem dwLane_done (p : Option Pfx) (f : LR) (op : DwOp) (s : State)
    (hr : (dwForm p f op.operands).Ready s.team) (res : Nat → HiLo × Fl)
    (hres : ∀ l, res l = dword (fmtWide f.wide) op (s.team.dwElem f.wide f.va.toNat l) (s.team.dwElem f.wide f.vb.toNat l)
      (s.team.dwElem f.wide (accReg p f) l))
    (hq : (dwForm p f op.operands).Quiet s.team fun l => (res l).2) :
    (dwForm p f op.operands).DoneFp s (fun r l => dwReg f.wide f.vd.toNat (res l).1 r) (fun l => (res l).2) s.team.g
      (dwLane p f op s) := by
  unfold dwLane
  rw [show pfxOk p = true from hr.prefixOk]
  refine runLane_out (laneOp_of _ _ _ _ _ _ _ _ _ rfl ?_ rfl (dwRegs_ne _) ?_ rfl (fun _ => rfl) ?_)
    s hr _ (laneOp_zero _ _) _ rfl rfl rfl ?_ (fun l => dwWrites f.wide f.vd.toNat (res l).1) _ (fun _ => none) ?_ ?_ _ ?_ _
    (fun _ => rfl) hq
  · have e : ∀ a b : DwOp, (a == b) = decide (a = b) := fun a b => rfl
    cases op <;> simp [dwForm, DwOp.operands, srcA, srcAB, e]
  · have e : ∀ a b : DwOp, (a == b) = decide (a = b) := fun a b => rfl
    cases op <;> simp [dwForm, DwOp.operands, e]
  · cases op <;> rfl
  · intro t _ a b c d l _ h1 h2
    simp only [rowsOf_dwElem t a b c d _ _ l l rfl h1]
  · intro l
    rw [hres l]
  · intro l r v hv
    exact mem_dwWrites _ _ _ _ _ hv
  · intro r l hm _
    exact get_dw _ _ _ _ _ _ _ hm

end Sys2Proof.Machine
end

