-- ==== Sys2Proof/Laws/FamiliesX.lean ====
section
/-! SUPPORT. What reductions, conversions and exchanges leave, in the words of Safety.lean. -/

namespace Sys2Proof.Machine

/-! ### Lane instructions with a scalar result -/

/-- The rows of a lane instruction that writes no vector register. -/
theorem sweep_nothing (o : LaneOp) (h : o.row = fun _ _ => ⟨[], [], []⟩) (hlong : o.long = false) (ws : List Nat) (t : Team)
    (hr : ∀ w ∈ ws, t.rowReady o w = true) (hb : t.badWords = []) : sweepRows o ws t = .done t := by
  induction ws with
  | nil => rfl
  | cons w rest ih =>
    rw [sweepRows]
    have lost : t.lostRow o w = false := by simp [Team.lostRow, Team.lostAt, hb]
    have e : t.writeRow ⟨[], [], []⟩ = t := (writeRow_eq t _ hb).trans rfl
    simp only [hr w List.mem_cons_self, lost, heal_none t _ w hb, hlong, h, e, Bool.not_true, Bool.false_eq_true, if_false]
    exact ih fun x hx => hr x (List.mem_cons_of_mem _ hx)

/-- A lane instruction without a vector destination that executes normally retires with what its end gives. -/
theorem runLane_fin {x : LaneForm} {o : LaneOp} (of : x.Of o) (s : State) (hr : x.Ready s.team)
    (h : o.row = fun _ _ => ⟨[], [], []⟩) (hlong : o.long = false) (hs : (o.fin s.team).stack = false) :
    runLane true o s = .next (s.finishLane o ((o.fin s.team).team.noteFl (o.fin s.team).fl)) := by
  unfold runLane
  simp only [of.precheck hr, hr.active, if_false, of.emptyTrap hr, Option.isSome_none, Bool.and_false,
    Bool.false_eq_true, hr.fresh.1, Option.getD_none]
  have e : (s.team.sweptRows.filter fun w => decide (0 ≤ w)) = s.team.sweptRows := by
    rw [List.filter_eq_self]; intro a _; simp
  rw [e, sweep_nothing o h hlong _ _ (fun w hw => of.rowReady hr w hw) hr.fresh.2.2.2.1]
  simp only [hs, Bool.false_eq_true, if_false]

/-- Retirement of a team that raised `u` and nothing enabled. -/
theorem finishLane_quiet (s : State) (o : LaneOp) (T : Team) (hp : T.prods = s.team.prods) (h : T.excFlags &&& T.te = 0) :
    s.finishLane o T = s.withTeam (T.retireLane o) := by
  unfold State.finishLane
  simp only [h, if_true, hp, Nat.sub_self, postRows_zero]

/-- What retirement leaves of the team that executed an instruction without a vector destination. -/
theorem retire_scalar {x : LaneForm} {o : LaneOp} (of : x.Of o) (T : Team) (hd : x.dst = []) (hz : x.zero = [])
    (hq : T.excFlags &&& T.te = 0) :
    x.Past T (T.retireLane o) ∧ x.Regs T (fun _ _ => 0) (T.retireLane o) ∧ x.Tags T (T.retireLane o) ∧
      x.Warns T (T.retireLane o) ∧ (T.retireLane o).flags = T.flags ||| T.excFlags.setWidth 64 ∧
      ∀ l, (T.retireLane o).g l = T.g l := by
  rw [retireLane_eq of T hq]
  refine ⟨⟨_, _, _, _, _, by rw [Team.setPc_eq]⟩, ?_, ?_, ?_, rfl, fun _ => rfl⟩
  · intro r l _
    refine ⟨?_, ?_, fun _ _ => rfl⟩
    · rw [hd]; intro h; cases h
    · rw [hz]; intro h; cases h
  · intro r
    exact of.tags T.tag r
  · constructor
    · intro h3
      show T.iwarn ||| _ ||| BitVec.ofNat 64 (wIf (!T.tagsFit o) wTAG) = _
      rw [(of.fits _).mpr h3]
      show T.iwarn ||| _ ||| 0#64 = _
      rw [BitVec.or_zero]
    · intro h3
      have h4 : T.tagsFit o = false := by
        cases hb : T.tagsFit o
        · rfl
        · exact absurd ((of.fits _).mp hb) h3
      show T.iwarn ||| _ ||| BitVec.ofNat 64 (wIf (!T.tagsFit o) wTAG) = _
      rw [h4]
      show T.iwarn ||| BitVec.ofNat 64 x.warn ||| BitVec.ofNat 64 wTAG = _
      rw [BitVec.or_assoc, or_ofNat]

/-- The lowest acting lane acts, and there is one when a lane acts. -/
theorem lowest_acts (t : Team) (p : Option Pfx) (l : Nat) (h : lowest (t.acting p) t.lanes = some l) :
    l < t.lanes ∧ inMask (t.acting p) l = true := by
  unfold lowest at h
  have h1 := List.find?_some h
  have h2 := List.mem_of_find?_eq_some h
  exact ⟨List.mem_range.mp h2, h1⟩

/-! ### Reductions and exchanges within a tile -/

/-- A tile of 2 to 32 lanes lies in one row. -/
theorem tile_row (z l j : Nat) (hz : z = 2 ∨ z = 4 ∨ z = 8 ∨ z = 16 ∨ z = 32) (hj : j < z) : (l - l % z + j) / 32 = l / 32 := by
  rcases hz with rfl | rfl | rfl | rfl | rfl <;> omega

/-- Legal values of `TILE`: 1 to 5 (01 R28). -/
theorem tile_size (t : Team) (h1 : 1 ≤ field t.tile 0 3) (h5 : field t.tile 0 3 ≤ 5) :
    t.tileSize = 2 ∨ t.tileSize = 4 ∨ t.tileSize = 8 ∨ t.tileSize = 16 ∨ t.tileSize = 32 := by
  unfold Team.tileSize
  have : field t.tile 0 3 = 1 ∨ field t.tile 0 3 = 2 ∨ field t.tile 0 3 = 3 ∨ field t.tile 0 3 = 4 ∨ field t.tile 0 3 = 5 := by
    omega
  rcases this with h | h | h | h | h <;> simp [h]

theorem mem_tileOf (t : Team) (l k : Nat) (h1 : 1 ≤ field t.tile 0 3) (h5 : field t.tile 0 3 ≤ 5) (h : k ∈ tileOf t l) :
    k / 32 = l / 32 := by
  unfold tileOf at h
  obtain ⟨j, hj, rfl⟩ := List.mem_map.mp h
  exact tile_row _ _ _ (tile_size t h1 h5) (List.mem_range.mp hj)

/-- CRED. -/
theorem execCred_done (p : Option Pfx) (f : LR) (s : State) (h1 : 1 ≤ field s.team.tile 0 3) (h5 : field s.team.tile 0 3 ≤ 5)
    (hr : (credForm p f).Ready s.team) (hq : (credForm p f).Quiet s.team fun l => (credLane p f s.team l).fl) :
    (credForm p f).DoneFp s (fun r l =>
        match credRoot p f s.team l with
        | some x => if (tileOf s.team l).find? (inMask (s.team.acting p)) = some l then dwReg f.wide f.vd.toNat x.1 r
          else s.team.v r l
        | none => s.team.v r l)
      (fun l => (credLane p f s.team l).fl) s.team.g (execCred p f s) := by
  unfold execCred
  rw [show pfxOk p = true from hr.prefixOk]
  refine runLane_out (laneOp_of _ _ _ _ _ _ _ _ _ rfl rfl rfl (dwRegs_ne _) rfl rfl (fun _ => rfl) rfl)
    s hr _ (laneOp_zero _ _) _ rfl rfl rfl ?_ (fun l => (credLane p f s.team l).regs) (fun l => (credLane p f s.team l).fl)
    (fun _ => none) ?_ ?_ _ ?_ _ (fun _ => rfl) hq
  · intro t ht a b c d l _ h _
    have e : ∀ k ∈ tileOf t l, leaf (t.rowsOf a b c d) p f.wide f.va.toNat k = leaf t p f.wide f.va.toNat k := by
      intro k hk
      have hk2 := mem_tileOf t l k (by rw [ht]; exact h1) (by rw [ht]; exact h5) hk
      unfold leaf
      rw [rowsOf_fpElem t a b c d _ _ k l hk2 h]
      rfl
    have e2 : credRoot p f (t.rowsOf a b c d) l = credRoot p f t l := by
      unfold credRoot
      have : tileOf (t.rowsOf a b c d) l = tileOf t l := rfl
      rw [this, List.map_congr_left e]
      rfl
    unfold credLane
    rw [e2]
    rfl
  · intro l
    show credLane p f s.team l = ⟨_, _, none⟩
    unfold credLane
    split
    · split <;> rfl
    · rfl
  · intro l r v hv
    unfold credLane at hv
    split at hv
    · split at hv
      · exact mem_dwWrites _ _ _ _ _ hv
      · cases hv
    · cases hv
  · intro r l hm _
    show (LaneOut.mk (credLane p f s.team l).regs _ none).get r _ = _
    unfold credLane
    cases credRoot p f s.team l with
    | none => rfl
    | some x =>
      by_cases hl : (tileOf s.team l).find? (inMask (s.team.acting p)) = some l
      · simp only [hl, if_true]
        exact get_dw _ _ _ _ _ _ _ hm
      · simp only [hl, if_false]
        rfl

theorem mem_tileLanes (z l k : Nat) (hz : z = 2 ∨ z = 4 ∨ z = 8 ∨ z = 16 ∨ z = 32) (h : k ∈ tileLanes z l) : k / 32 = l / 32 := by
  unfold tileLanes tileBase at h
  obtain ⟨j, hj, rfl⟩ := List.mem_map.mp h
  exact tile_row _ _ _ hz (List.mem_range.mp hj)

theorem rowsOf_exchElem (t : Team) (a b : FMap Word32) (c : Mask) (d : BitVec 5) (f : LR) (j l : Nat) (hj : j / 32 = l / 32)
    (h : ∀ r j, j / 32 = l / 32 → fget 0 a (r * 1024 + j) = t.v r j) :
    exchElem f (t.rowsOf a b c d) j = exchElem f t j := by
  unfold exchElem; rw [rowsOf_v t a b c d _ j l hj h, rowsOf_v64 t a b c d _ j l hj h]

theorem mem_tileActing (p : Option Pfx) (t : Team) (l k : Nat)
    (hz : t.tileSize = 2 ∨ t.tileSize = 4 ∨ t.tileSize = 8 ∨ t.tileSize = 16 ∨ t.tileSize = 32) (h : k ∈ tileActing p t l) :
    k / 32 = l / 32 := mem_tileLanes _ _ _ hz (List.mem_filter.mp h).1

/-- A vote or a ballot of a computation that reads the tile's acting lanes only. -/
theorem vote_done (p : Option Pfx) (f : LR) (g : Team → Nat → Word32) (s : State)
    (hg : RowLocal s.team.tile fun t l => { regs := [(f.vd.toNat, g t l)] })
    (hr : (countForm p f []).Ready s.team) :
    (countForm p f []).Done s (fun _ l => g s.team l) (vote p f g s) := by
  unfold vote
  rw [show pfxOk p = true from hr.prefixOk]
  refine LaneForm.Done.congr (runLane_done (laneOp_of _ _ _ _ _ _ _ _ _ rfl rfl (run_one _).symm (by simp) rfl rfl
    (fun _ => rfl) rfl) s hr _ (laneOp_zero _ _) _ rfl rfl rfl hg ?_ (fun _ => rfl) (fun _ => rfl)) ?_
  · intro l r v hv
    simp only [List.mem_singleton, Prod.mk.injEq] at hv
    simp [countForm, hv.1]
  · intro r l hm _
    have : r = f.vd.toNat := by simpa [countForm] using hm
    rw [get_single, if_pos this]

/-- The tile's acting lanes with their elements are not changed by other rows. -/
theorem tileActing_rowsOf (p : Option Pfx) (t : Team) (a b : FMap Word32) (c : Mask) (d : BitVec 5) (l : Nat) :
    tileActing p (t.rowsOf a b c d) l = tileActing p t l := rfl

theorem any_tile (p : Option Pfx) (t : Team) (a b : FMap Word32) (c : Mask) (d : BitVec 5) (f : LR) (l : Nat)
    (hz : t.tileSize = 2 ∨ t.tileSize = 4 ∨ t.tileSize = 8 ∨ t.tileSize = 16 ∨ t.tileSize = 32)
    (h : ∀ r j, j / 32 = l / 32 → fget 0 a (r * 1024 + j) = t.v r j) (P : Nat → Bool) :
    ((tileActing p (t.rowsOf a b c d) l).filter fun k => P (exchElem f (t.rowsOf a b c d) k)) =
      (tileActing p t l).filter fun k => P (exchElem f t k) := by
  rw [tileActing_rowsOf]
  apply List.filter_congr
  intro k hk
  rw [rowsOf_exchElem t a b c d f k l (mem_tileActing p t l k hz hk) h]

theorem vote_local (p : Option Pfx) (f : LR) (s : State) (h1 : 1 ≤ field s.team.tile 0 3) (h5 : field s.team.tile 0 3 ≤ 5)
    (G : Nat → List Nat → List Nat → Word32) :
    RowLocal s.team.tile fun t l => { regs := [(f.vd.toNat, G t.tileSize (tileActing p t l)
      ((tileActing p t l).filter fun k => exchElem f t k != 0))] } := by
  intro t ht a b c d l _ h _
  have hz := tile_size t (by rw [ht]; exact h1) (by rw [ht]; exact h5)
  have e := any_tile p t a b c d f l hz h (fun x => x != 0)
  show LaneOut.mk [(f.vd.toNat, G t.tileSize (tileActing p t l) _)] 0 none = _
  rw [e]

/-- A shuffle whose source position lies in the tile. -/
theorem shuffle_done (p : Option Pfx) (f : LR) (src : Nat → Nat → Nat → Option Nat) (s : State)
    (h1 : 1 ≤ field s.team.tile 0 3) (h5 : field s.team.tile 0 3 ≤ 5)
    (hsrc : ∀ q d i, q < s.team.tileSize → src s.team.tileSize q d = some i → i < s.team.tileSize)
    (hr : (shflForm p f s.team).Ready s.team) :
    (shflForm p f s.team).Done s (fun r l =>
        let q := match src s.team.tileSize (tilePos s.team.tileSize l) (s.team.v f.vb.toNat l).toNat with
          | some i => tileBase s.team.tileSize l + i
          | none => l
        elemReg f.wide f.vd.toNat (s.team.v f.va.toNat q) (s.team.v64 f.va.toNat q) r) (shuffle p f src s) := by
  unfold shuffle
  rw [show pfxOk p = true from hr.prefixOk]
  refine LaneForm.Done.congr (runLane_done (x := shflForm p f s.team) ⟨rfl, rfl, ?_, ?_, rfl, ?_, ?_, rfl⟩
    s hr _ (laneOp_zero _ _) _ rfl rfl rfl ?_ ?_ (fun _ => rfl) (fun _ => rfl)) ?_
  · simp [laneOp, shflForm]
  · intro y hy
    have : y = (f.vd.toNat, nregs f.wide) := by simpa [laneOp] using hy
    rw [this]; exact nregs_ne _
  · exact tagRun_eq _ _ _
  · intro m r
    show fget 0 ((tagRun f.vd.toNat (nregs f.wide) (s.team.tagOf f.va.toNat).toNat ++ []).foldl _ m) r = _
    rw [List.append_nil, tagRun_eq, fget_tags]; rfl
  · intro t ht a b c d l _ h _
    have ez : t.tileSize = s.team.tileSize := by unfold Team.tileSize; rw [ht]
    have hz := tile_size s.team h1 h5
    have hv := rowsOf_v t a b c d f.vb.toNat l l rfl h
    have ets : (t.rowsOf a b c d).tileSize = t.tileSize := rfl
    simp only [hv, ets]
    have hrow : ∀ i, src t.tileSize (tilePos t.tileSize l) (t.v f.vb.toNat l).toNat = some i →
        (tileBase t.tileSize l + i) / 32 = l / 32 := by
      intro i hi
      rw [ez] at hi ⊢
      have hp : tilePos s.team.tileSize l < s.team.tileSize := by
        unfold tilePos; apply Nat.mod_lt; rcases hz with h | h | h | h | h <;> omega
      exact tile_row _ _ _ hz (hsrc _ _ i hp hi)
    cases hs : src t.tileSize (tilePos t.tileSize l) (t.v f.vb.toNat l).toNat with
    | none => simp only [rowsOf_v t a b c d _ l l rfl h, rowsOf_v64 t a b c d _ l l rfl h]
    | some i => simp only [rowsOf_v t a b c d _ _ l (hrow i hs) h, rowsOf_v64 t a b c d _ _ l (hrow i hs) h]
  · intro l r v hv
    exact mem_elem _ _ _ _ _ _ hv
  · intro r l hm _
    exact get_elem _ _ _ _ _ _ _ _ hm

/-- VOTE.eq. -/
theorem execVoteEq_done (p : Option Pfx) (f : LR) (s : State) (h1 : 1 ≤ field s.team.tile 0 3) (h5 : field s.team.tile 0 3 ≤ 5)
    (hr : (voteEqForm p f).Ready s.team) :
    (voteEqForm p f).Done s (fun _ l => positions s.team.tileSize ((tileActing p s.team l).filter fun k =>
      (exchElem f s.team k) &&& (s.team.v f.vb.toNat l).toNat == (exchElem f s.team l) &&& (s.team.v f.vb.toNat l).toNat))
      (execVoteEq p f s) := by
  unfold execVoteEq
  rw [show pfxOk p = true from hr.prefixOk]
  refine LaneForm.Done.congr (runLane_done (laneOp_of _ _ _ _ _ _ _ _ _ rfl rfl (run_one _).symm (by simp) rfl rfl
    (fun _ => rfl) rfl) s hr _ (laneOp_zero _ _) _ rfl rfl rfl ?_ ?_ (fun _ => rfl) (fun _ => rfl)) ?_
  · intro t ht a b c d l _ h _
    have hz := tile_size t (by rw [ht]; exact h1) (by rw [ht]; exact h5)
    have e := any_tile p t a b c d f l hz h (fun x => x &&& (t.v f.vb.toNat l).toNat == exchElem f t l &&& (t.v f.vb.toNat l).toNat)
    simp only [rowsOf_v t a b c d _ l l rfl h, rowsOf_exchElem t a b c d f l l rfl h]
    rw [e]; rfl
  · intro l r v hv
    simp only [List.mem_singleton, Prod.mk.injEq] at hv
    simp [voteEqForm, hv.1]
  · intro r l hm _
    have : r = f.vd.toNat := by simpa [voteEqForm] using hm
    rw [get_single, if_pos this]

end Sys2Proof.Machine
end

