-- ==== Sys2Proof/Laws/FamiliesY.lean ====
section
/-! SUPPORT. What exchanges, conversions and the lane instructions with a scalar result leave, in the words of
Safety.lean. -/

namespace Sys2Proof.Machine

theorem any_tileActing (p : Option Pfx) (t : Team) (a b : FMap Word32) (c : Mask) (d : BitVec 5) (f : LR) (l : Nat)
    (hz : t.tileSize = 2 ∨ t.tileSize = 4 ∨ t.tileSize = 8 ∨ t.tileSize = 16 ∨ t.tileSize = 32)
    (h : ∀ r j, j / 32 = l / 32 → fget 0 a (r * 1024 + j) = t.v r j) (P : Nat → Bool) :
    ((tileActing p (t.rowsOf a b c d) l).map fun k => P (exchElem f (t.rowsOf a b c d) k)) =
      (tileActing p t l).map fun k => P (exchElem f t k) := by
  rw [tileActing_rowsOf]
  apply List.map_congr_left
  intro k hk
  rw [rowsOf_exchElem t a b c d f k l (mem_tileActing p t l k hz hk) h]

theorem execVoteAny_done (p : Option Pfx) (f : LR) (s : State) (h1 : 1 ≤ field s.team.tile 0 3) (h5 : field s.team.tile 0 3 ≤ 5)
    (hr : (countForm p f []).Ready s.team) :
    (countForm p f []).Done s (fun _ l => flag32 ((tileActing p s.team l).any fun k => exchElem f s.team k != 0))
      (execVoteAny p f s) := by
  refine vote_done p f _ s ?_ hr
  intro t ht a b c d l _ h _
  have hz := tile_size t (by rw [ht]; exact h1) (by rw [ht]; exact h5)
  have e := any_tileActing p t a b c d f l hz h (fun x => x != 0)
  have e2 : ((tileActing p (t.rowsOf a b c d) l).any fun k => exchElem f (t.rowsOf a b c d) k != 0) =
      (tileActing p t l).any fun k => exchElem f t k != 0 := by
    have := congrArg (fun x => x.any id) e
    simpa [List.any_map] using this
  simp only [e2]

theorem execVoteAll_done (p : Option Pfx) (f : LR) (s : State) (h1 : 1 ≤ field s.team.tile 0 3) (h5 : field s.team.tile 0 3 ≤ 5)
    (hr : (countForm p f []).Ready s.team) :
    (countForm p f []).Done s (fun _ l => flag32 ((tileActing p s.team l).all fun k => exchElem f s.team k != 0))
      (execVoteAll p f s) := by
  refine vote_done p f _ s ?_ hr
  intro t ht a b c d l _ h _
  have hz := tile_size t (by rw [ht]; exact h1) (by rw [ht]; exact h5)
  have e := any_tileActing p t a b c d f l hz h (fun x => x != 0)
  have e2 : ((tileActing p (t.rowsOf a b c d) l).all fun k => exchElem f (t.rowsOf a b c d) k != 0) =
      (tileActing p t l).all fun k => exchElem f t k != 0 := by
    have := congrArg (fun x => x.all id) e
    simpa [List.all_map] using this
  simp only [e2]

theorem execBallot_done (p : Option Pfx) (f : LR) (s : State) (h1 : 1 ≤ field s.team.tile 0 3) (h5 : field s.team.tile 0 3 ≤ 5)
    (hr : (countForm p f []).Ready s.team) :
    (countForm p f []).Done s (fun _ l => positions s.team.tileSize ((tileActing p s.team l).filter fun k => exchElem f s.team k != 0))
      (execBallot p f s) := by
  refine vote_done p f _ s ?_ hr
  intro t ht a b c d l hl h hg
  exact vote_local p f s h1 h5 (fun z _ x => positions z x) t ht a b c d l hl h hg

/-- Positions in a tile of a power of two. -/
theorem xor_lt_tile (z q d : Nat) (hz : z = 2 ∨ z = 4 ∨ z = 8 ∨ z = 16 ∨ z = 32) (hq : q < z) : q ^^^ (d % z) < z := by
  have hd : d % z < z := Nat.mod_lt _ (by omega)
  rcases hz with rfl | rfl | rfl | rfl | rfl
  · exact Nat.xor_lt_two_pow (n := 1) hq hd
  · exact Nat.xor_lt_two_pow (n := 2) hq hd
  · exact Nat.xor_lt_two_pow (n := 3) hq hd
  · exact Nat.xor_lt_two_pow (n := 4) hq hd
  · exact Nat.xor_lt_two_pow (n := 5) hq hd

theorem execShflIdx_done (p : Option Pfx) (f : LR) (s : State) (h1 : 1 ≤ field s.team.tile 0 3) (h5 : field s.team.tile 0 3 ≤ 5)
    (hr : (shflForm p f s.team).Ready s.team) :
    (shflForm p f s.team).Done s (shflVal f s.team fun l =>
      tileBase s.team.tileSize l + (s.team.v f.vb.toNat l).toNat % s.team.tileSize) (execShflIdx p f s) := by
  refine (shuffle_done p f _ s h1 h5 ?_ hr).congr fun _ _ _ _ => rfl
  intro q d i hq hi
  cases hi
  exact Nat.mod_lt _ (by have := tile_size s.team h1 h5; omega)

theorem execShflXor_done (p : Option Pfx) (f : LR) (s : State) (h1 : 1 ≤ field s.team.tile 0 3) (h5 : field s.team.tile 0 3 ≤ 5)
    (hr : (shflForm p f s.team).Ready s.team) :
    (shflForm p f s.team).Done s (shflVal f s.team fun l => tileBase s.team.tileSize l +
      (tilePos s.team.tileSize l ^^^ ((s.team.v f.vb.toNat l).toNat % s.team.tileSize))) (execShflXor p f s) := by
  refine (shuffle_done p f _ s h1 h5 ?_ hr).congr fun _ _ _ _ => rfl
  intro q d i hq hi
  cases hi
  exact xor_lt_tile _ _ _ (tile_size s.team h1 h5) hq

theorem execShflUp_done (p : Option Pfx) (f : LR) (s : State) (h1 : 1 ≤ field s.team.tile 0 3) (h5 : field s.team.tile 0 3 ≤ 5)
    (hr : (shflForm p f s.team).Ready s.team) :
    (shflForm p f s.team).Done s (shflVal f s.team fun l =>
      if (s.team.v f.vb.toNat l).toNat ≤ tilePos s.team.tileSize l then l - (s.team.v f.vb.toNat l).toNat else l)
      (execShflUp p f s) := by
  refine (shuffle_done p f _ s h1 h5 ?_ hr).congr ?_
  · intro q d i hq hi
    simp only [Option.ite_none_right_eq_some, Option.some.injEq] at hi
    omega
  · intro r l _ _
    unfold shflVal
    have hm : l % s.team.tileSize ≤ l := Nat.mod_le _ _
    by_cases h : (s.team.v f.vb.toNat l).toNat ≤ tilePos s.team.tileSize l
    · simp only [if_pos h]
      have : tileBase s.team.tileSize l + (tilePos s.team.tileSize l - (s.team.v f.vb.toNat l).toNat) =
          l - (s.team.v f.vb.toNat l).toNat := by unfold tileBase tilePos at *; omega
      rw [this]
    · simp only [h, if_false]

theorem execShflDn_done (p : Option Pfx) (f : LR) (s : State) (h1 : 1 ≤ field s.team.tile 0 3) (h5 : field s.team.tile 0 3 ≤ 5)
    (hr : (shflForm p f s.team).Ready s.team) :
    (shflForm p f s.team).Done s (shflVal f s.team fun l =>
      if tilePos s.team.tileSize l + (s.team.v f.vb.toNat l).toNat < s.team.tileSize then l + (s.team.v f.vb.toNat l).toNat else l)
      (execShflDn p f s) := by
  refine (shuffle_done p f _ s h1 h5 ?_ hr).congr ?_
  · intro q d i hq hi
    simp only [Option.ite_none_right_eq_some, Option.some.injEq] at hi
    omega
  · intro r l _ _
    unfold shflVal
    have hm : l % s.team.tileSize ≤ l := Nat.mod_le _ _
    by_cases h : tilePos s.team.tileSize l + (s.team.v f.vb.toNat l).toNat < s.team.tileSize
    · simp only [if_pos h]
      have : tileBase s.team.tileSize l + (tilePos s.team.tileSize l + (s.team.v f.vb.toNat l).toNat) =
          l + (s.team.v f.vb.toNat l).toNat := by unfold tileBase tilePos at *; omega
      rw [this]
    · simp only [h, if_false]

/-- A team's rows written do not change what a lane's tile pushes to it. -/
theorem rowsOf_pushed (p : Option Pfx) (t : Team) (a b : FMap Word32) (c : Mask) (d : BitVec 5) (vb l : Nat)
    (hz : t.tileSize = 2 ∨ t.tileSize = 4 ∨ t.tileSize = 8 ∨ t.tileSize = 16 ∨ t.tileSize = 32)
    (h : ∀ r j, j / 32 = l / 32 → fget 0 a (r * 1024 + j) = t.v r j) :
    pushed p (t.rowsOf a b c d) vb l = pushed p t vb l := by
  have e : ((tileLanes t.tileSize l).filter fun k => inMask ((t.rowsOf a b c d).acting p) k && pushTarget (t.rowsOf a b c d) vb k == l) =
      (tileLanes t.tileSize l).filter fun k => inMask (t.acting p) k && pushTarget t vb k == l := by
    apply List.filter_congr
    intro k hk
    have hk2 := mem_tileLanes _ _ _ hz hk
    have : pushTarget (t.rowsOf a b c d) vb k = pushTarget t vb k := by
      unfold pushTarget; rw [rowsOf_v t a b c d vb k l hk2 h]; rfl
    rw [this]; rfl
  unfold pushed
  show (((tileLanes t.tileSize l).filter fun k => inMask ((t.rowsOf a b c d).acting p) k && pushTarget (t.rowsOf a b c d) vb k == l).getLast?,
    BitVec.ofNat 32 (((tileLanes t.tileSize l).filter fun k => inMask ((t.rowsOf a b c d).acting p) k && pushTarget (t.rowsOf a b c d) vb k == l).foldl _ 0)) = _
  rw [e]; rfl

theorem pushed_row (p : Option Pfx) (t : Team) (vb l q : Nat)
    (hz : t.tileSize = 2 ∨ t.tileSize = 4 ∨ t.tileSize = 8 ∨ t.tileSize = 16 ∨ t.tileSize = 32)
    (h : (pushed p t vb l).1 = some q) : q / 32 = l / 32 := by
  unfold pushed at h
  exact mem_tileLanes _ _ _ hz (List.mem_filter.mp (List.mem_of_getLast? h)).1

theorem execPshw_done (p : Option Pfx) (f : LR) (s : State) (h1 : 1 ≤ field s.team.tile 0 3) (h5 : field s.team.tile 0 3 ≤ 5)
    (hr : (pshwForm p f s.team).Ready s.team) :
    (pshwForm p f s.team).Done s (pshwVal p f s.team) (execPshw p f s) := by
  unfold execPshw
  rw [show pfxOk p = true from hr.prefixOk]
  have tg : vaTags s.team f (nregs f.wide) ++ [(f.vd.toNat + nregs f.wide, 13)] =
      (run f.vd.toNat (nregs f.wide + 1)).map fun r => (r, if r = f.vd.toNat + nregs f.wide then 13
        else (s.team.tagOf f.va.toNat).toNat) := by
    unfold vaTags
    rw [tagRun_eq, run, run, List.range_succ, List.map_append, List.map_append, List.map_map, List.map_map]
    congr 1
    · apply List.map_congr_left
      intro i hi
      have := List.mem_range.mp hi
      show _ = (f.vd.toNat + i, if f.vd.toNat + i = f.vd.toNat + nregs f.wide then 13 else (s.team.tagOf f.va.toNat).toNat)
      rw [if_neg (by omega)]
      rfl
    · simp
  refine LaneForm.Done.congr (runLane_done (x := pshwForm p f s.team) ⟨rfl, rfl, ?_, ?_, rfl, ?_, ?_, rfl⟩
    s hr [(f.vd.toNat, nregs f.wide + 1)] ?_ _ rfl rfl rfl ?_ ?_ (fun _ => rfl) (fun _ => rfl)) ?_
  · simp [laneOp, pshwForm]
  · intro y hy
    have : y = (f.vd.toNat, nregs f.wide + 1) := by simpa [laneOp] using hy
    rw [this]; simp
  · exact tg
  · intro m r
    show fget 0 ((vaTags s.team f (nregs f.wide) ++ [(f.vd.toNat + nregs f.wide, 13)] ++ []).foldl _ m) r = _
    rw [List.append_nil, tg, fget_tags]; rfl
  · simp [pshwForm]
  · intro t ht a b c d l _ h _
    have hz := tile_size t (by rw [ht]; exact h1) (by rw [ht]; exact h5)
    simp only [rowsOf_pushed p t a b c d f.vb.toNat l hz h]
    cases hq : (pushed p t f.vb.toNat l).1 with
    | none => rfl
    | some q =>
      have hrow := pushed_row p t _ l q hz hq
      simp only [rowsOf_v t a b c d _ q l hrow h, rowsOf_v64 t a b c d _ q l hrow h]
  · intro l r v hv
    show r ∈ run f.vd.toNat (nregs f.wide + 1)
    rw [mem_run]
    rcases List.mem_append.mp hv with hv | hv
    · cases hq : (pushed p s.team f.vb.toNat l).1 with
      | none => rw [hq] at hv; cases hv
      | some q =>
        rw [hq] at hv
        have := mem_elem _ _ _ _ _ _ hv
        rw [mem_run] at this; omega
    · simp at hv; omega
  · intro r l hm _
    have hm2 : r ∈ run f.vd.toNat (nregs f.wide + 1) := hm
    rw [mem_run] at hm2
    unfold pshwVal
    by_cases hc : r = f.vd.toNat + nregs f.wide
    · rw [if_pos hc]
      unfold LaneOut.get
      subst hc; simp
    · rw [if_neg hc]
      have hb : (f.vd.toNat + nregs f.wide == r) = false := beq_false_of_ne (Ne.symm hc)
      cases hq : (pushed p s.team f.vb.toNat l).1 with
      | none => unfold LaneOut.get; simp [hb, hq]
      | some q =>
        have hrun : r ∈ run f.vd.toNat (nregs f.wide) := by rw [mem_run]; omega
        simp only
        rw [← get_elem f.wide f.vd.toNat r _ _ (s.team.v r l) 0 none hrun]
        unfold LaneOut.get
        simp [hb, hq]

/-! ### Conversions -/

theorem rowsOf_elements (t : Team) (a b : FMap Word32) (c : Mask) (d : BitVec 5) (code v n l : Nat)
    (h : ∀ r j, j / 32 = l / 32 → fget 0 a (r * 1024 + j) = t.v r j) :
    (t.rowsOf a b c d).elements code v n l = t.elements code v n l := by
  unfold Team.elements
  apply List.map_congr_left
  intro e _
  unfold Team.element
  simp only [rowsOf_v t a b c d _ l l rfl h, rowsOf_v64 t a b c d _ l l rfl h]

theorem mem_sideWrites (c v n : Nat) (es : List Nat) (r : Nat) (x : Word32) (h : (r, x) ∈ sideWrites c v n es) :
    r ∈ run v (sideRegs c n) := by
  unfold sideWrites at h
  obtain ⟨i, hi, e⟩ := List.mem_map.mp h
  have := List.mem_range.mp hi
  rw [mem_run]
  cases e
  omega

theorem get_regOf (ws : List (Nat × Word32)) (fl : Fl) (g : Option Word32) (r : Nat) (old : Word32) :
    (⟨ws, fl, g⟩ : LaneOut).get r old = regOf ws old r := rfl

theorem density2_pos (c : Nat) : 1 ≤ density2 c ∧ density2 c ≤ 16 := by
  unfold density2; split <;> omega

theorem sideRegs_ne (s d : Nat) : sideRegs s (cvtCount s d) ≠ 0 ∧ sideRegs d (cvtCount s d) ≠ 0 := by
  unfold sideRegs cvtCount density2
  split <;> split <;> decide

theorem execCvt_done (p : Option Pfx) (c : BitVec 3) (f : LR) (s : State) (hc : cvtCodesOk c f = true)
    (hr : (cvtForm p c f).Ready s.team) (hq : (cvtForm p c f).Quiet s.team fun l => (cvtOut p c f s.team l).2.1) :
    (cvtForm p c f).DoneFp s (fun r l =>
        regOf (sideWrites (cvtD c f) f.vd.toNat (cvtCount (cvtS f) (cvtD c f)) (cvtOut p c f s.team l).1) (s.team.v r l) r)
      (fun l => (cvtOut p c f s.team l).2.1)
      (fun l => if cvtSteps (cvtS f) (cvtD c f) ∧ rmode s.team p = 5 then (cvtOut p c f s.team l).2.2 else s.team.g l)
      (execCvt p c f s) := by
  unfold execCvt
  rw [show pfxOk p = true from hr.prefixOk, hc, Bool.true_and]
  refine runLane_out (x := cvtForm p c f) (laneOp_of _ _ _ _ _ _ _ _ _ rfl rfl rfl (sideRegs_ne _ _).2 rfl rfl (fun _ => rfl) rfl)
    s hr _ (laneOp_zero _ _) _ rfl rfl rfl ?_ _ _ _ (fun _ => rfl) ?_ _ ?_ _ ?_ hq
  · intro t _ a b c' d l _ h1 h2
    simp only [rowsOf_elements t a b c' d _ _ _ l h1, rowsOf_g t a b c' d l l rfl h2]
    rfl
  · intro l r v hv
    exact mem_sideWrites _ _ _ _ _ _ hv
  · intro r l _ _
    exact get_regOf _ _ _ _ _
  · intro l
    rw [stepped_getD]
    unfold cvtOut
    cases hs : cvtSteps (cvtS f) (cvtD c f) <;> simp [hs]

/-- A tile or block of 4 or 8 lanes lies in one row. -/
theorem mx_row (c l j : Nat) (h : j < mxLanes c) : (mxFirst c l + j) / 32 = l / 32 := by
  unfold mxFirst mxLanes at *
  by_cases e : c = 9
  · simp only [e, if_true] at h ⊢; omega
  · simp only [e, if_false] at h ⊢; omega

theorem mxFirst_row (c l : Nat) : mxFirst c l / 32 = l / 32 := by
  have := mx_row c l 0 (by unfold mxLanes; split <;> omega)
  simpa using this

theorem rowsOf_scaleByte (t : Team) (a b : FMap Word32) (c : Mask) (d : BitVec 5) (v q sb l : Nat) (hq : q / 32 = l / 32)
    (h : ∀ r j, j / 32 = l / 32 → fget 0 a (r * 1024 + j) = t.v r j) :
    (t.rowsOf a b c d).scaleByte v q sb = t.scaleByte v q sb := by
  unfold Team.scaleByte; rw [rowsOf_v t a b c d v q l hq h]

theorem rowsOf_mxBlockScale (t : Team) (a b : FMap Word32) (c : Mask) (d : BitVec 5) (p : Option Pfx) (sc dc v n l : Nat)
    (h : ∀ r j, j / 32 = l / 32 → fget 0 a (r * 1024 + j) = t.v r j) :
    mxBlockScale (t.rowsOf a b c d) p sc dc v n l = mxBlockScale t p sc dc v n l := by
  unfold mxBlockScale
  have e : ∀ k ∈ ((List.range (mxLanes dc)).map (mxFirst dc l + ·)).filter (inMask (t.acting p)),
      ((t.rowsOf a b c d).elements sc v n k).map (fun x => cvtVal sc t.f16z false x) =
        (t.elements sc v n k).map fun x => cvtVal sc t.f16z false x := by
    intro k hk
    obtain ⟨j, hj, rfl⟩ := List.mem_map.mp (List.mem_filter.mp hk).1
    have hrow := mx_row dc l j (List.mem_range.mp hj)
    rw [rowsOf_elements t a b c d _ _ _ _ (fun r i hi => h r i (hi.trans hrow))]
  exact congrArg (mxScale dc) (by
    rw [List.flatMap_def, List.flatMap_def]
    exact congrArg List.flatten (List.map_congr_left e))

theorem rowsOf_cvtmxLane (p : Option Pfx) (sc dc : Nat) (f : LR) (mode : Nat) (tile : Word64) :
    RowLocal tile (cvtmxLane p sc dc f mode) := by
  intro t _ a b c d l _ h1 h2
  have ef : (t.rowsOf a b c d).f16z = t.f16z := rfl
  have hm : ∀ q, mxFirst q l / 32 = l / 32 := fun q => mxFirst_row q l
  unfold cvtmxLane
  simp only [rowsOf_elements t a b c d _ _ _ l h1, rowsOf_g t a b c d l l rfl h2,
    rowsOf_mxBlockScale t a b c d p sc dc _ _ l h1, rowsOf_scaleByte t a b c d _ _ _ l (hm _) h1,
    rowsOf_v t a b c d _ l l rfl h1, ef]

theorem execCvtmx_done (p : Option Pfx) (c : BitVec 3) (f : LR) (s : State) (hp : p.isSome = true)
    (hc : cvtmxCodesOk c f = true) (hn : (mxCode (cvtD c f) && cvtSat f) = false) (hr : (cvtmxForm p c f).Ready s.team)
    (hq : (cvtmxForm p c f).Quiet s.team fun l => (cvtmxLane p (cvtS f) (cvtD c f) f (rmode s.team p) s.team l).fl) :
    (cvtmxForm p c f).DoneFp s (fun r l =>
        regOf (cvtmxLane p (cvtS f) (cvtD c f) f (rmode s.team p) s.team l).regs (s.team.v r l) r)
      (fun l => (cvtmxLane p (cvtS f) (cvtD c f) f (rmode s.team p) s.team l).fl)
      (fun l => (cvtmxLane p (cvtS f) (cvtD c f) f (rmode s.team p) s.team l).g.getD (s.team.g l)) (execCvtmx p c f s) := by
  unfold execCvtmx
  rw [show pfxOk p = true from hr.prefixOk, hc, hp]
  simp only [hn, Bool.false_eq_true, if_false, Bool.false_and, Bool.true_and]
  have of := laneOp_of (cvtmxForm p c f) p [⟨f.va.toNat, sideRegs (cvtS f) (cvtCount (cvtS f) (cvtD c f)), 1, [cvtS f]⟩, ⟨pvc p, 1, 0, [10]⟩] f.vd.toNat
    (sideRegs (cvtD c f) (cvtCount (cvtS f) (cvtD c f))) (sideOk (cvtS f) f.va && sideOk (cvtD c f) f.vd) (cvtD c f)
    (pfxWarn p { wa := true, rnd := true, vc := true }) (fun _ _ => { regs := [] }) rfl rfl rfl (sideRegs_ne _ _).2 rfl rfl
    (fun _ => rfl) rfl
  have of2 : ∀ row, (cvtmxForm p c f).Of { laneOp p [⟨f.va.toNat, sideRegs (cvtS f) (cvtCount (cvtS f) (cvtD c f)), 1, [cvtS f]⟩, ⟨pvc p, 1, 0, [10]⟩] f.vd.toNat
    (sideRegs (cvtD c f) (cvtCount (cvtS f) (cvtD c f))) (sideOk (cvtS f) f.va && sideOk (cvtD c f) f.vd) (cvtD c f)
    (pfxWarn p { wa := true, rnd := true, vc := true }) (fun _ _ => { regs := [] }) with more := [], row := row } :=
    fun _ => ⟨of.p, of.srcs, of.dst, of.some, of.even, of.merge, of.tags, of.warn⟩
  simp only [List.append_nil]
  refine runLane_out (of2 fun t w => lanesRow t p [(f.vd.toNat, sideRegs (cvtD c f) (cvtCount (cvtS f) (cvtD c f)))]
    (cvtmxLane p (cvtS f) (cvtD c f) f (rmode s.team p) t) w)
    s hr _ (laneOp_zero _ _) (cvtmxLane p (cvtS f) (cvtD c f) f (rmode s.team p)) rfl rfl rfl (rowsOf_cvtmxLane p _ _ f _ _)
    (fun l => (cvtmxLane p (cvtS f) (cvtD c f) f (rmode s.team p) s.team l).regs)
    (fun l => (cvtmxLane p (cvtS f) (cvtD c f) f (rmode s.team p) s.team l).fl)
    (fun l => (cvtmxLane p (cvtS f) (cvtD c f) f (rmode s.team p) s.team l).g) (fun _ => rfl) ?_ _ ?_ _ (fun _ => rfl) hq
  · intro l r v hv
    unfold cvtmxLane at hv
    simp only [hn, Bool.false_and, Bool.false_eq_true, if_false, List.append_nil] at hv
    exact mem_sideWrites _ _ _ _ _ _ hv
  · intro r l _ _
    exact get_regOf _ _ _ _ _

/-- `CVTMX` that computes its block scales. -/
theorem execCvtmx_make (p : Option Pfx) (c : BitVec 3) (f : LR) (s : State) (hp : p.isSome = true)
    (hc : cvtmxCodesOk c f = true) (hn : (mxCode (cvtD c f) && cvtSat f) = true)
    (hr : (cvtmxMakeForm p c f s.team).Ready s.team)
    (hq : (cvtmxMakeForm p c f s.team).Quiet s.team fun l => (cvtmxLane p (cvtS f) (cvtD c f) f (rmode s.team p) s.team l).fl) :
    (cvtmxMakeForm p c f s.team).DoneFp s (fun r l =>
        regOf (cvtmxLane p (cvtS f) (cvtD c f) f (rmode s.team p) s.team l).regs (s.team.v r l) r)
      (fun l => (cvtmxLane p (cvtS f) (cvtD c f) f (rmode s.team p) s.team l).fl)
      (fun l => (cvtmxLane p (cvtS f) (cvtD c f) f (rmode s.team p) s.team l).g.getD (s.team.g l)) (execCvtmx p c f s) := by
  unfold execCvtmx
  rw [show pfxOk p = true from hr.prefixOk, hc, hp]
  simp only [hn, if_true, Bool.true_and]
  have of : (cvtmxMakeForm p c f s.team).Of
    { laneOp p [⟨f.va.toNat, sideRegs (cvtS f) (cvtCount (cvtS f) (cvtD c f)), 1, [cvtS f]⟩, ⟨pvc p, 1, 0, []⟩] f.vd.toNat
        (sideRegs (cvtD c f) (cvtCount (cvtS f) (cvtD c f))) (sideOk (cvtS f) f.va && sideOk (cvtD c f) f.vd) (cvtD c f)
        (pfxWarn p { wa := true, rnd := true, vc := true }) (fun _ _ => { regs := [] }) with
      tags := tagRun f.vd.toNat (sideRegs (cvtD c f) (cvtCount (cvtS f) (cvtD c f))) (cvtD c f) ++
        if mxWritesScale s.team p (cvtD c f) = true then [(pvc p, 10)] else []
      row := fun t w => lanesRow t p [(f.vd.toNat, sideRegs (cvtD c f) (cvtCount (cvtS f) (cvtD c f)))]
        (cvtmxLane p (cvtS f) (cvtD c f) f (rmode s.team p) t) w } := by
    refine ⟨rfl, rfl, ?_, ?_, rfl, ?_, ?_, rfl⟩
    · intro y hy r hm
      have : y = (f.vd.toNat, sideRegs (cvtD c f) (cvtCount (cvtS f) (cvtD c f))) := by simpa [laneOp] using hy
      rw [this] at hm
      exact List.mem_append_left _ hm
    · intro y hy
      have : y = (f.vd.toNat, sideRegs (cvtD c f) (cvtCount (cvtS f) (cvtD c f))) := by simpa [laneOp] using hy
      rw [this]; exact (sideRegs_ne _ _).2
    · simp only [cvtmxMakeForm, cvtmxForm, tagRun_eq]
    · intro m r
      show fget 0 ((tagRun _ _ _ ++ _ ++ []).foldl _ m) r = _
      rw [List.append_nil, List.foldl_append, tagRun_eq]
      show _ = if r ∈ run f.vd.toNat (sideRegs (cvtD c f) (cvtCount (cvtS f) (cvtD c f))) ++ _ then _ else _
      cases hw : mxWritesScale s.team p (cvtD c f)
      · simp only [Bool.false_eq_true, if_false, List.foldl_nil, List.append_nil, cvtmxMakeForm, hw, and_false]
        exact fget_tags _ (fun _ => cvtD c f) m r
      · simp only [if_true, List.foldl_cons, List.foldl_nil, cvtmxMakeForm, hw, and_true, List.mem_append, List.mem_singleton]
        rw [fget_fput]
        by_cases e : r = pvc p
        · rw [if_pos e, if_pos (Or.inr e), if_pos e]
        · rw [if_neg e, if_neg e, fget_tags _ (fun _ => cvtD c f) m r]
          simp only [e, or_false]
  have h := runLane_acting of s hr [(f.vd.toNat, sideRegs (cvtD c f) (cvtCount (cvtS f) (cvtD c f)))] (laneOp_zero _ _)
    (cvtmxLane p (cvtS f) (cvtD c f) f (rmode s.team p)) rfl rfl rfl (rowsOf_cvtmxLane p _ _ f _ _) ?_ hq
  · exact h
  · intro l ha r v hm
    show r ∈ run f.vd.toNat (sideRegs (cvtD c f) (cvtCount (cvtS f) (cvtD c f))) ++ (if mxWritesScale s.team p (cvtD c f) then [pvc p] else [])
    unfold cvtmxLane at hm
    rcases List.mem_append.mp hm with hm | hm
    · exact List.mem_append_left _ (mem_sideWrites _ _ _ _ _ _ hm)
    · apply List.mem_append_right
      simp only [hn, Bool.true_and] at hm
      by_cases hb : (l % mxLanes (cvtD c f) == 0) = true
      · rw [if_pos hb] at hm
        have hr2 : r = pvc p := by simp at hm; exact hm.1
        have hw : mxWritesScale s.team p (cvtD c f) = true := by
          unfold mxWritesScale
          rw [List.any_eq_true]
          have hl := ha.1
          refine ⟨l, List.mem_range.mpr (by omega), ?_⟩
          have : inMask (s.team.acting p) l = true := ha.2
          rw [this, hb]; rfl
        rw [hw, hr2]; simp
      · rw [if_neg hb] at hm; cases hm

/-! ### A scalar result -/

theorem movx_of (p : Option Pfx) (f : LR) : (movxForm p f).Of (movxOp p f) :=
  ⟨rfl, rfl, by intro d h; (cases h), by intro d h; (cases h), rfl, rfl, fun _ _ => rfl, rfl⟩

theorem tcred_of (p : Option Pfx) (f : LR) : (tcredForm p f).Of (tcredOp p f) :=
  ⟨rfl, rfl, by intro d h; (cases h), by intro d h; (cases h), rfl, rfl, fun _ _ => rfl, rfl⟩

/-- Retirement with a scalar result. -/
theorem scalar_done {x : LaneForm} {o : LaneOp} (of : x.Of o) (hd : x.dst = []) (hz : x.zero = []) (s : State) (B : Team)
    (e : Mask) (u : Fl) (hp : B.prods = s.team.prods) (hq : u &&& B.te = 0) :
    x.DoneScalar s B u (.next (s.finishLane o { B with exc := e, excFlags := u })) := by
  rw [finishLane_quiet s o { B with exc := e, excFlags := u } hp hq]
  have h := retire_scalar of { B with exc := e, excFlags := u } hd hz hq
  have past : x.Past B (({ B with exc := e, excFlags := u } : Team).retireLane o) := by
    rw [retireLane_eq of { B with exc := e, excFlags := u } hq]
    exact ⟨_, _, _, _, _, by rw [Team.setPc_eq]; rfl⟩
  exact ⟨_, rfl, past, h.2.1, h.2.2.1, h.2.2.2.1, h.2.2.2.2.1,
    fun l _ => h.2.2.2.2.2 l⟩

theorem execMovx_done (p : Option Pfx) (f : LR) (s : State) (hr : (movxForm p f).Ready s.team)
    (h63 : ∀ v, movxValue p f s.team = some v → s.team.s63Bad (f.vd.setWidth 6) v = false) :
    (movxForm p f).DoneScalar s (match movxValue p f s.team with
      | some v => s.team.setS (f.vd.setWidth 6) v
      | none => s.team) 0 (execMovx p f s) := by
  unfold execMovx
  rw [show pfxOk p = true from hr.prefixOk]
  have x0 : s.team.excFlags = 0 := hr.fresh.2.2.1
  cases he : movxValue p f s.team with
  | none =>
    have fin : (movxOp p f).fin s.team = { team := s.team } := by simp only [movxOp, he]
    rw [runLane_fin (movx_of p f) s hr rfl rfl (by rw [fin]), fin]
    have e : s.team.noteFl [] = { s.team with exc := s.team.exc, excFlags := 0 } := by rw [← x0]; rfl
    simp only [e]
    exact scalar_done (movx_of p f) rfl rfl s s.team _ 0 rfl (by simp)
  | some v =>
    have fin : (movxOp p f).fin s.team =
        { team := s.team.setS (f.vd.setWidth 6) v, stack := s.team.s63Bad (f.vd.setWidth 6) v } := by simp only [movxOp, he]
    rw [runLane_fin (movx_of p f) s hr rfl rfl (by rw [fin]; exact h63 v he), fin]
    have e : (s.team.setS (f.vd.setWidth 6) v).noteFl [] =
        { s.team.setS (f.vd.setWidth 6) v with exc := s.team.exc, excFlags := 0 } := by rw [← x0]; rfl
    simp only [e]
    exact scalar_done (movx_of p f) rfl rfl s _ _ 0 rfl (by simp)

theorem execTcred_done (p : Option Pfx) (f : LR) (s : State) (hr : (tcredForm p f).Ready s.team)
    (h63 : s.team.s63Bad (f.vd.setWidth 6 + 1) (BitVec.ofNat 64 (tcredSum p f s.team).1.2) = false)
    (hq : (tcredSum p f s.team).2 &&& s.team.te = 0) :
    (tcredForm p f).DoneScalar s
      ((s.team.setS (f.vd.setWidth 6) (BitVec.ofNat 64 (tcredSum p f s.team).1.1)).setS (f.vd.setWidth 6 + 1)
        (BitVec.ofNat 64 (tcredSum p f s.team).1.2)) (tcredSum p f s.team).2 (execTcred p f s) := by
  have x0 : s.team.excFlags = 0 := hr.fresh.2.2.1
  unfold execTcred
  rw [show pfxOk p = true from hr.prefixOk, runLane_fin (tcred_of p f) s hr rfl rfl h63]
  have fin : (tcredOp p f).fin s.team = tcredFin p f s.team := rfl
  rw [fin]
  unfold tcredFin
  generalize hS : tcredSum p f s.team = S at *
  have e : ∀ B : Team, B.excFlags = 0 → ∃ m, B.noteFl (if S.2 = 0 then [] else
      [((lowest (s.team.acting p) s.team.lanes).getD 0, S.2)]) = { B with exc := m, excFlags := S.2 } := by
    intro B hB
    by_cases h : S.2 = 0
    · rw [if_pos h, h, ← hB]; exact ⟨B.exc, rfl⟩
    · rw [if_neg h]
      refine ⟨(B.noteFl [((lowest (s.team.acting p) s.team.lanes).getD 0, S.2)]).exc, ?_⟩
      show ({ B with excFlags := B.excFlags ||| S.2, exc := _ } : Team) = _
      rw [hB]
      have z : (0 : Fl) ||| S.2 = S.2 := by simp
      rw [z]; rfl
  obtain ⟨m, hm⟩ := e ((s.team.setS (f.vd.setWidth 6) (BitVec.ofNat 64 S.1.1)).setS (f.vd.setWidth 6 + 1) (BitVec.ofNat 64 S.1.2)) x0
  simp only [hm]
  exact scalar_done (tcred_of p f) rfl rfl s _ _ _ rfl hq

end Sys2Proof.Machine
end

