-- ==== Sys2Proof/Laws/Issue.lean ====
section
/-! SUPPORT. Long-latency producers: the rows of an instruction issued one after another, and what the team holds then, in
the words of Safety.lean. -/

namespace Sys2Proof.Machine

/-- Rows whose values are known issued in order. -/
def Team.issueAll (t : Team) (o : LaneOp) (R : Nat → RowOut) (ws : List Nat) : Team :=
  ws.foldl (fun (t : Team) w => t.issueRow o w (R w)) t

/-- What issuing rows leaves: everything but the empty bits, the rows due, the generators and the exceptions as before. -/
structure IssueOut (t : Team) (p : Option Pfx) (regs : List Nat) (f : Nat → LaneOut) (ws : List Nat)
    (empty gen : FMap Word32) (exc : Mask) (fl : BitVec 5) : Prop where
  empty : ∀ r w, w < 32 → ({ t with empty := empty } : Team).rowEmpty r w =
    if r ∈ regs ∧ w ∈ ws then true else t.rowEmpty r w
  gens : ∀ l, l < 1024 → fget (genSeedOf t.genSeed l) gen l =
    if l / 32 ∈ ws ∧ inMask (t.acting p) l then ((f l).g).getD (t.g l) else t.g l
  flags : ∀ i, fl.getLsbD i = true ↔ t.excFlags.getLsbD i = true ∨
    ∃ l, l < 1024 ∧ l / 32 ∈ ws ∧ inMask (t.acting p) l = true ∧ (f l).fl.getLsbD i = true

/-- One row issued. -/
theorem issueRow_out (t u : Team) (o : LaneOp) (p : Option Pfx) (zero : List (Nat × Nat)) (f : Nat → LaneOut) (w : Nat) (hw : w < 32)
    (hu : u.acting p = t.acting p) :
    ∃ empty gen exc fl, t.issueRow o w (lanesRow u p zero f w) =
        { t with
          empty := empty
          prods := t.prods ++ o.dstRegs.map (o.pending w (lanesRow u p zero f w))
          gen := gen, exc := exc, excFlags := fl } ∧
      IssueOut t p o.dstRegs f [w] empty gen exc fl := by
  refine ⟨_, _, _, _, issueRow_eq t o w _, ?_, ?_, ?_⟩
  · intro r w' hw'
    show (fget 0 (emptied t _ w) r).getLsbD w' = _
    rw [rowEmpty_emptied t _ w r w' hw']
    simp only [List.mem_singleton]
  · intro l _
    rw [fget_row_gens, hu]
    simp only [List.mem_singleton]; rfl
  · intro i
    rw [foldl_or_bit]
    constructor
    · rintro (h | ⟨x, hx, h⟩)
      · exact Or.inl h
      · rw [mem_row_fl, hu] at hx
        exact Or.inr ⟨x.1, by omega, by simp [hx.1], hx.2.1, by rw [← hx.2.2.1]; exact h⟩
    · rintro (h | ⟨l, _, h1, h2, h3⟩)
      · exact Or.inl h
      · refine Or.inr ⟨(l, (f l).fl), ?_, h3⟩
        rw [mem_row_fl, hu]
        exact ⟨by simpa using h1, h2, rfl, fun e => by simp [e] at h3⟩

/-- Rows issued, of which each is known from the start. -/
theorem issueAll_out (u : Team) (o : LaneOp) (p : Option Pfx) (zero : List (Nat × Nat)) (f : Nat → LaneOut) (ws : List Nat)
    (hn : ws.Nodup) (hw : ∀ w ∈ ws, w < 32) (t : Team) (hu : u.acting p = t.acting p) :
    ∃ empty gen exc fl, t.issueAll o (lanesRow u p zero f) ws =
        { t with
          empty := empty
          prods := t.prods ++ issued o (lanesRow u p zero f) o.dstRegs ws
          gen := gen, exc := exc, excFlags := fl } ∧
      IssueOut t p o.dstRegs f ws empty gen exc fl := by
  induction ws generalizing t with
  | nil =>
    refine ⟨t.empty, t.gen, t.exc, t.excFlags, ?_, ?_, ?_, ?_⟩
    · show t = { t with prods := t.prods ++ [] }
      rw [List.append_nil]
    · intro r w _; simp [Team.rowEmpty, Team.emptyRows]
    · intro l _; simp; rfl
    · intro i; simp
  | cons w rest ih =>
    rw [List.nodup_cons] at hn
    obtain ⟨e1, g1, x1, f1, h1, o1⟩ := issueRow_out t u o p zero f w (hw w List.mem_cons_self) hu
    obtain ⟨e2, g2, x2, f2, h2, o2⟩ := ih hn.2 (fun v hv => hw v (List.mem_cons_of_mem _ hv))
      (t.issueRow o w (lanesRow u p zero f w)) (by rw [h1]; exact hu)
    refine ⟨e2, g2, x2, f2, ?_, ?_, ?_, ?_⟩
    · show Team.issueAll (t.issueRow o w (lanesRow u p zero f w)) o (lanesRow u p zero f) rest = _
      rw [h2, h1]
      have : issued o (lanesRow u p zero f) o.dstRegs (w :: rest) =
          o.dstRegs.map (o.pending w (lanesRow u p zero f w)) ++
          issued o (lanesRow u p zero f) o.dstRegs rest := by
        unfold issued; rw [List.flatMap_cons]
      rw [this, ← List.append_assoc]
    · intro r v hv
      have a := o2.empty r v hv
      have b := o1.empty r v hv
      rw [h1] at a
      have e : ({ t with empty := e2 } : Team).rowEmpty r v = if r ∈ o.dstRegs ∧ v ∈ rest then true
          else ({ t with empty := e1 } : Team).rowEmpty r v := a
      rw [e, b]
      by_cases h3 : r ∈ o.dstRegs
      · by_cases h4 : v ∈ rest
        · rw [if_pos ⟨h3, h4⟩, if_pos ⟨h3, List.mem_cons_of_mem _ h4⟩]
        · rw [if_neg (fun h => h4 h.2)]
          by_cases h5 : v = w
          · rw [if_pos ⟨h3, by simp [h5]⟩, if_pos ⟨h3, by simp [h5]⟩]
          · rw [if_neg (by simp [h5]), if_neg (by simp [h5, h4])]
      · rw [if_neg (fun h => h3 h.1), if_neg (fun h => h3 h.1), if_neg (fun h => h3 h.1)]
    · intro l hl
      have a := o2.gens l hl
      have b := o1.gens l hl
      rw [h1] at a
      have e : fget (genSeedOf t.genSeed l) g2 l = if l / 32 ∈ rest ∧ inMask (t.acting p) l then ((f l).g).getD (fget (genSeedOf t.genSeed l) g1 l)
          else fget (genSeedOf t.genSeed l) g1 l := a
      rw [e, b]
      by_cases h3 : inMask (t.acting p) l = true
      · by_cases h4 : l / 32 = w
        · have h5 : l / 32 ∉ rest := by rw [h4]; exact hn.1
          rw [if_neg (fun h => h5 h.1), if_pos ⟨by simp [h4], h3⟩, if_pos ⟨by simp [h4], h3⟩]
        · rw [if_neg (c := l / 32 ∈ [w] ∧ _) (by simp [h4])]
          simp [h4, h3]
      · rw [if_neg (fun h => h3 h.2), if_neg (fun h => h3 h.2), if_neg (fun h => h3 h.2)]
    · intro i
      have a := o2.flags i
      have b := o1.flags i
      rw [h1] at a
      have e : f2.getLsbD i = true ↔ f1.getLsbD i = true ∨ ∃ l, l < 1024 ∧ l / 32 ∈ rest ∧ inMask (t.acting p) l = true ∧ (f l).fl.getLsbD i = true := a
      rw [e, b, or_assoc]
      apply or_congr Iff.rfl
      constructor
      · rintro (⟨l, h2, h3, h4⟩ | ⟨l, h2, h3, h4⟩)
        · exact ⟨l, h2, by simp at h3; simp [h3], h4⟩
        · exact ⟨l, h2, List.mem_cons_of_mem _ h3, h4⟩
      · rintro ⟨l, h2, h3, h4⟩
        rcases List.mem_cons.mp h3 with h5 | h5
        · exact Or.inl ⟨l, h2, by simp [h5], h4⟩
        · exact Or.inr ⟨l, h2, h5, h4⟩

/-- A long-latency producer whose rows are known retires: in the words of the form. -/
theorem issue_done {x : LaneForm} {o : LaneOp} (of : x.Of o) (s : State) (hl : s.team.lanes ≤ 1024)
    (h0 : s.team.excFlags = 0) (hregs : o.dstRegs = x.dst) (hnd : x.dst.Nodup)
    (zs : List (Nat × Nat)) (hz : (zs.flatMap fun d => run d.1 d.2) = x.zero) (f : Nat → LaneOut)
    (hzd : ∀ r ∈ x.zero, r ∈ x.dst)
    (hq : x.Quiet s.team fun l => (f l).fl) :
    x.Issued s (fun r l => (f l).get r (s.team.v r l)) (fun l => (f l).fl) (fun l => ((f l).g).getD (s.team.g l))
      (.next (s.finishLane o (s.team.issueAll o (lanesRow s.team o.p zs f) s.team.sweptRows))) := by
  obtain ⟨em, gen, exc, fl, h1, h2⟩ := issueAll_out s.team o o.p zs f s.team.sweptRows (sweptRows_nodup _)
    (sweptRows_lt _ hl) s.team rfl
  rw [of.p] at h1 h2 ⊢
  rw [hregs] at h1 h2
  generalize hnew : issued o (lanesRow s.team x.p zs f) x.dst s.team.sweptRows = new at h1
  have raised : fl &&& s.team.te = 0 := by
    apply BitVec.eq_of_getLsbD_eq
    intro i _
    have z : (0 : BitVec 5).getLsbD i = false := BitVec.getLsbD_zero
    rw [BitVec.getLsbD_and, z]
    cases hb : fl.getLsbD i
    · rfl
    · rw [Bool.true_and]
      rcases (h2.flags i).mp hb with h3 | ⟨l, hl, h4, h5, h6⟩
      · rw [h0] at h3; simp at h3
      · have := hq l hl ((acts_iff _ _ _).mpr ⟨h4, h5⟩)
        have e : ((f l).fl &&& s.team.te).getLsbD i = false := by rw [this]; simp
        rw [BitVec.getLsbD_and, h6, Bool.true_and] at e
        exact e
  rw [h1]
  generalize hT : ({ s.team with empty := em, prods := s.team.prods ++ new, gen := gen, exc := exc, excFlags := fl } : Team) = T
  have eT : T.retireLane o = { s.team.setPc (s.team.pc + BitVec.ofNat 64 (plen x.p)) with
      empty := em, prods := s.team.prods ++ new
      tag := (o.tags ++ o.more).foldl (fun m (y : Nat × Nat) => fput m y.1 (BitVec.ofNat 4 y.2)) s.team.tag
      gen := gen, flags := s.team.flags ||| fl.setWidth 64
      iwarn := s.team.iwarn ||| BitVec.ofNat 64 x.warn ||| BitVec.ofNat 64 (wIf (!s.team.tagsFit o) wTAG)
      wait := .none, arr := false, prow := none, exc := 0, excFlags := 0 } := by
    have quiet : T.excFlags &&& T.te = 0 := by rw [← hT]; exact raised
    rw [retireLane_eq of _ quiet, Team.setPc_eq, ← hT]; rfl
  refine ⟨T.retireLane o, new, fl, ?_, ?_, ?_, ?_, ?_, ?_, ?_, ?_, ?_, ?_⟩
  · unfold State.finishLane
    have e1 : T.excFlags = fl := by rw [← hT]
    have e2 : T.te = s.team.te := by rw [← hT]; rfl
    have e3 : T.prods = s.team.prods ++ new := by rw [← hT]
    simp only [e1, e2, e3, raised, if_true, List.length_append, Nat.add_sub_cancel_left]
    rfl
  · exact ⟨_, _, _, _, _, eT⟩
  · rw [← hnew]
    unfold issued
    rw [List.map_flatMap]
    simp only [List.map_map]
    rfl
  · intro r w hw
    have := h2.empty r w hw
    rw [eT]; exact this
  · intro r l hl
    rw [← hnew, v_landed s.team s.team o x.p zs f x.dst s.team.sweptRows hnd (sweptRows_nodup _) (sweptRows_lt _ ‹_›) r l hl, hz]
    refine ⟨?_, ?_, ?_⟩
    · intro hr ha
      rw [acts_iff] at ha
      rw [if_pos ⟨hr, ha.1⟩, if_pos ha.2]
    · intro hr hz'
      have hna : ¬ (inMask (s.team.acting x.p) l = true) := fun h1 =>
        acts_not_zeroes s.team x.p l ((acts_iff s.team x.p l).mpr ⟨((zeroes_iff s.team x.p l).mp hz').1, h1⟩) hz'
      rw [zeroes_iff] at hz'
      rw [if_pos ⟨hzd r hr, hz'.1⟩, if_neg hna, if_pos ⟨hz'.2, hr⟩]
    · intro ha hz'
      rw [acts_iff] at ha
      rw [zeroes_iff] at hz'
      split
      · next hw =>
        split
        · next hact => exact absurd ⟨hw.1, hw.2, hact⟩ ha
        · rw [if_neg (fun e => hz' ⟨e.2, hw.2, e.1⟩)]
      · rfl
  · intro r
    rw [eT]
    exact of.tags s.team.tag r
  · constructor
    · intro h3
      rw [eT, (of.fits _).mpr h3]
      show s.team.iwarn ||| _ ||| 0#64 = _
      rw [BitVec.or_zero]
    · intro h3
      have h4 : s.team.tagsFit o = false := by
        cases hb : s.team.tagsFit o
        · rfl
        · exact absurd ((of.fits _).mp hb) h3
      rw [eT, h4]
      show s.team.iwarn ||| BitVec.ofNat 64 x.warn ||| BitVec.ofNat 64 wTAG = _
      rw [BitVec.or_assoc, or_ofNat]
  · intro i
    have z : (0 : BitVec 5).getLsbD i = false := BitVec.getLsbD_zero
    rw [h2.flags i, h0, z]
    simp only [Bool.false_eq_true, false_or]
    constructor
    · rintro ⟨l, hl, h3, h4, h5⟩; exact ⟨l, hl, (acts_iff _ _ _).mpr ⟨h3, h4⟩, h5⟩
    · rintro ⟨l, hl, h3, h5⟩; exact ⟨l, hl, ((acts_iff _ _ _).mp h3).1, ((acts_iff _ _ _).mp h3).2, h5⟩
  · rw [eT]
  · intro l hl
    have e : (T.retireLane o).g l = fget (genSeedOf s.team.genSeed l) gen l := by rw [eT, Team.setPc_eq]; rfl
    rw [e, h2.gens l hl]
    constructor
    · intro ha; rw [if_pos ((acts_iff _ _ _).mp ha)]
    · intro ha; rw [if_neg (fun e => ha ((acts_iff _ _ _).mpr e))]

/-- The rows of a long-latency lane instruction swept, when its computation reads nothing that issuing a row changes. -/
theorem sweep_issue (o : LaneOp) (zs : List (Nat × Nat)) (f : Team → Nat → LaneOut)
    (hrow : o.row = fun t w => lanesRow t o.p zs (f t) w) (hlong : o.long = true)
    (steady : ∀ (t : Team) (a : FMap Word32) (b : List ProdRow) (c : FMap Word32) (d : Mask) (e : BitVec 5),
      f { t with empty := a, prods := b, gen := c, exc := d, excFlags := e } = f t)
    (ws : List Nat) (hn : ws.Nodup) (hw : ∀ w ∈ ws, w < 32) (t : Team)
    (hr : ∀ w ∈ ws, t.rowReady o w = true) (hb : t.badWords = []) :
    sweepRows o ws t = .done (t.issueAll o (lanesRow t o.p zs (f t)) ws) := by
  induction ws generalizing t with
  | nil => rfl
  | cons w rest ih =>
    rw [List.nodup_cons] at hn
    have lost : t.lostRow o w = false := by simp [Team.lostRow, Team.lostAt, hb]
    have healed : t.heal o.reads w = t := heal_none t _ w hb
    have h32 : w < 32 := hw w List.mem_cons_self
    obtain ⟨em, g, x, e, h1, h2⟩ := issueRow_out t t o o.p zs (f t) w h32 rfl
    rw [sweepRows]
    have er : o.row t w = lanesRow t o.p zs (f t) w := by rw [hrow]
    simp only [hr w List.mem_cons_self, lost, healed, hlong, Bool.not_true, Bool.false_eq_true, if_false, if_true, er]
    have next := ih hn.2 (fun v hv => hw v (List.mem_cons_of_mem _ hv)) (t.issueRow o w (lanesRow t o.p zs (f t) w)) ?_ ?_
    · rw [next]
      show Sweep.done _ = .done (Team.issueAll (t.issueRow o w (lanesRow t o.p zs (f t) w)) o (lanesRow t o.p zs (f t)) rest)
      have e2 : f (t.issueRow o w (lanesRow t o.p zs (f t) w)) = f t := by rw [h1]; exact steady t _ _ _ _ _
      have e3 : lanesRow (t.issueRow o w (lanesRow t o.p zs (f t) w)) o.p zs (f t) = lanesRow t o.p zs (f t) := by
        rw [h1]; rfl
      rw [e2, e3]
    · intro v hv
      have hne : v ≠ w := fun e => hn.1 (e ▸ hv)
      have h := hr v (List.mem_cons_of_mem _ hv)
      have emp : ∀ r, (t.issueRow o w (lanesRow t o.p zs (f t) w)).rowEmpty r v = t.rowEmpty r v := by
        intro r
        have := h2.empty r v (hw v (List.mem_cons_of_mem _ hv))
        rw [if_neg (by simp [hne])] at this
        rw [h1]; exact this
      unfold Team.rowReady at h ⊢
      simp only [emp]
      exact h
    · rw [h1]; exact hb

/-- A long-latency lane instruction that executes normally issues its rows. -/
theorem runLane_issued {x : LaneForm} {o : LaneOp} (of : x.Of o) (s : State) (hr : x.Ready s.team)
    (hregs : o.dstRegs = x.dst) (hnd : x.dst.Nodup)
    (zs : List (Nat × Nat)) (hz : (zs.flatMap fun d => run d.1 d.2) = x.zero) (hzd : ∀ r ∈ x.zero, r ∈ x.dst)
    (f : Team → Nat → LaneOut)
    (hrow : o.row = fun t w => lanesRow t o.p zs (f t) w) (hlong : o.long = true) (hfin : o.fin = fun t => ⟨t, [], false⟩)
    (steady : ∀ (t : Team) (a : FMap Word32) (b : List ProdRow) (c : FMap Word32) (d : Mask) (e : BitVec 5),
      f { t with empty := a, prods := b, gen := c, exc := d, excFlags := e } = f t)
    (hq : x.Quiet s.team fun l => (f s.team l).fl) :
    x.Issued s (fun r l => (f s.team l).get r (s.team.v r l)) (fun l => (f s.team l).fl)
      (fun l => ((f s.team l).g).getD (s.team.g l)) (runLane true o s) := by
  unfold runLane
  simp only [of.precheck hr, hr.active, if_false, of.emptyTrap hr, Option.isSome_none, Bool.and_false,
    Bool.false_eq_true, hr.fresh.1, Option.getD_none]
  have e : (s.team.sweptRows.filter fun w => decide (0 ≤ w)) = s.team.sweptRows := by
    rw [List.filter_eq_self]; intro a _; simp
  rw [e, sweep_issue o zs f hrow hlong steady _ (sweptRows_nodup _) (sweptRows_lt _ hr.lanes) _
    (fun w hw => of.rowReady hr w hw) hr.fresh.2.2.2.1]
  simp only [hfin]
  exact issue_done of s hr.lanes hr.fresh.2.2.1 hregs hnd zs hz (f s.team) hzd hq

theorem nodup_run (d n : Nat) : (run d n).Nodup := by
  unfold run
  rw [List.Nodup, List.pairwise_map]
  exact List.nodup_range.imp (by intro a b h e; omega)

theorem LaneForm.Issued.congr {x : LaneForm} {s : State} {v w : Nat → Nat → Word32} {fl : Nat → Fl} {g g' : Nat → Word32}
    {o : Out} (h : x.Issued s v fl g o) (e : ∀ r l, r ∈ x.dst → s.team.acts x.p l → v r l = w r l)
    (eg : ∀ l, s.team.acts x.p l → g l = g' l) : x.Issued s w fl g' o := by
  obtain ⟨t, new, u, h1, h2, h3, h4, h5, h6, h7, h8, h9, h10⟩ := h
  exact ⟨t, new, u, h1, h2, h3, h4, h5.congr e, h6, h7, h8, h9,
    fun l hl => ⟨fun ha => by rw [(h10 l hl).1 ha, eg l ha], (h10 l hl).2⟩⟩

/-- A special function. -/
theorem specialLane_done (p : Option Pfx) (f : LR) (fn : SpecialFn) (s : State) :
    (oneForm p f [tagWide f.wide] (tagWide f.wide)).Ready s.team →
    ((oneForm p f [tagWide f.wide] (tagWide f.wide)).Quiet s.team fun l => (specialOf fn f s.team l).2) →
    (oneForm p f [tagWide f.wide] (tagWide f.wide)).Issued s
      (fun r l => elemReg f.wide f.vd.toNat (BitVec.ofNat 32 (specialOf fn f s.team l).1) (BitVec.ofNat 64 (specialOf fn f s.team l).1) r)
      (fun l => (specialOf fn f s.team l).2) s.team.g (specialLane p f fn s) := by
  intro hr hq
  unfold specialLane
  rw [show pfxOk p = true from hr.prefixOk]
  have out : ∀ (t : Team) l, (if f.wide = true then
      ({ regs := pairRegs f.vd.toNat (BitVec.ofNat 64 (specialFn fmtF64 fn (t.v64 f.va.toNat l).toNat).1)
         fl := (specialFn fmtF64 fn (t.v64 f.va.toNat l).toNat).2 } : LaneOut)
      else { regs := [(f.vd.toNat, BitVec.ofNat 32 (specialFn fmtF32 fn (t.v f.va.toNat l).toNat).1)]
             fl := (specialFn fmtF32 fn (t.v f.va.toNat l).toNat).2 }) =
      { regs := if f.wide = true then pairRegs f.vd.toNat (BitVec.ofNat 64 (specialOf fn f t l).1)
          else [(f.vd.toNat, BitVec.ofNat 32 (specialOf fn f t l).1)], fl := (specialOf fn f t l).2 } := by
    intro t l
    unfold specialOf fmtWide Team.fpElem
    cases f.wide <;> rfl
  have even : (pairOk f.wide f.va && pairOk f.wide f.vd) = (oneForm p f [tagWide f.wide] (tagWide f.wide)).even := Bool.and_comm _ _
  have of : (oneForm p f [tagWide f.wide] (tagWide f.wide)).Of
      { laneOp p (srcA f (nregs f.wide) [tagWide f.wide]) f.vd.toNat (nregs f.wide) (pairOk f.wide f.va && pairOk f.wide f.vd)
          (tagWide f.wide) (pfxWarn p uses1 ||| wIf (f.vb != 0) wOPND) fun t l =>
          if f.wide then
            { regs := pairRegs f.vd.toNat (BitVec.ofNat 64 (specialFn fmtF64 fn (t.v64 f.va.toNat l).toNat).1)
              fl := (specialFn fmtF64 fn (t.v64 f.va.toNat l).toNat).2 }
          else
            { regs := [(f.vd.toNat, BitVec.ofNat 32 (specialFn fmtF32 fn (t.v f.va.toNat l).toNat).1)]
              fl := (specialFn fmtF32 fn (t.v f.va.toNat l).toNat).2 } with long := true, fp := true } := by
    have h := laneOp_of (oneForm p f [tagWide f.wide] (tagWide f.wide)) p (srcA f (nregs f.wide) [tagWide f.wide]) f.vd.toNat
      (nregs f.wide) (pairOk f.wide f.va && pairOk f.wide f.vd) (tagWide f.wide) (pfxWarn p uses1 ||| wIf (f.vb != 0) wOPND)
      (fun _ _ => { regs := [] }) rfl rfl rfl (nregs_ne _) even rfl (fun _ => rfl) rfl
    exact ⟨h.p, h.srcs, h.dst, h.some, h.even, h.merge, h.tags, h.warn⟩
  have h := runLane_issued of s hr (laneOp_zero _ _) (nodup_run _ _) [(f.vd.toNat, nregs f.wide)] (laneOp_zero _ _)
    (fun r h => h) _ rfl rfl rfl (fun _ _ _ _ _ _ => rfl) (by simp only [out]; exact hq)
  simp only [out] at h ⊢
  exact h.congr (fun r l hm _ => get_elem _ _ _ _ _ _ _ _ hm) (fun _ _ => rfl)

/-- An activation. -/
theorem actLane_done (p : Option Pfx) (f : LR) (fn : ActFn) (s : State) (hr : (actForm p f).Ready s.team)
    (hq : (actForm p f).Quiet s.team fun l => (actOf fn f s.team l).2) :
    (actForm p f).Issued s (fun _ l => BitVec.ofNat 32 (actOf fn f s.team l).1) (fun l => (actOf fn f s.team l).2)
      s.team.g (actLane p f fn s) := by
  unfold actLane
  rw [show pfxOk p = true from hr.prefixOk]
  have of : ∀ g, (actForm p f).Of { laneOp p (srcA f 1 [if f.wide then 3 else 1]) f.vd.toNat 1 true (if f.wide then 3 else 1)
      (pfxWarn p uses1 ||| wIf (f.vb != 0) wOPND) g with long := true, fp := true } := by
    intro g
    have h := laneOp_of (actForm p f) p (srcA f 1 [if f.wide then 3 else 1]) f.vd.toNat 1 true (if f.wide then 3 else 1)
      (pfxWarn p uses1 ||| wIf (f.vb != 0) wOPND) g rfl rfl (run_one _).symm (by simp) rfl rfl (fun _ => rfl) rfl
    exact ⟨h.p, h.srcs, h.dst, h.some, h.even, h.merge, h.tags, h.warn⟩
  have out : ∀ (t : Team) l, (if f.wide = true then
      ({ regs := [(f.vd.toNat, BitVec.ofNat 32 ((activation fmtBF16 t.f16z fn ((t.v f.va.toNat l).toNat % 65536)).1 +
            (activation fmtBF16 t.f16z fn ((t.v f.va.toNat l).toNat / 65536)).1 * 65536))]
         fl := (activation fmtBF16 t.f16z fn ((t.v f.va.toNat l).toNat % 65536)).2 |||
            (activation fmtBF16 t.f16z fn ((t.v f.va.toNat l).toNat / 65536)).2 } : LaneOut)
      else { regs := [(f.vd.toNat, BitVec.ofNat 32 (activation fmtF32 false fn (t.v f.va.toNat l).toNat).1)]
             fl := (activation fmtF32 false fn (t.v f.va.toNat l).toNat).2 }) =
      { regs := [(f.vd.toNat, BitVec.ofNat 32 (actOf fn f t l).1)], fl := (actOf fn f t l).2 } := by
    intro t l
    unfold actOf
    cases f.wide <;> rfl
  have e1 : ([(f.vd.toNat, 1)].flatMap fun d : Nat × Nat => run d.1 d.2) = [f.vd.toNat] := by rw [laneOp_zero, run_one]
  have h := runLane_issued (of fun t l => if f.wide = true then
      ({ regs := [(f.vd.toNat, BitVec.ofNat 32 ((activation fmtBF16 t.f16z fn ((t.v f.va.toNat l).toNat % 65536)).1 +
            (activation fmtBF16 t.f16z fn ((t.v f.va.toNat l).toNat / 65536)).1 * 65536))]
         fl := (activation fmtBF16 t.f16z fn ((t.v f.va.toNat l).toNat % 65536)).2 |||
            (activation fmtBF16 t.f16z fn ((t.v f.va.toNat l).toNat / 65536)).2 } : LaneOut)
      else { regs := [(f.vd.toNat, BitVec.ofNat 32 (activation fmtF32 false fn (t.v f.va.toNat l).toNat).1)]
             fl := (activation fmtF32 false fn (t.v f.va.toNat l).toNat).2 }) s hr e1 (by simp [actForm]) [(f.vd.toNat, 1)]
    e1 (fun r h => h) _ rfl rfl rfl (fun _ _ _ _ _ _ => rfl) (by simp only [out]; exact hq)
  simp only [out] at h ⊢
  refine h.congr ?_ (fun _ _ => rfl)
  intro r l hm _
  have : r = f.vd.toNat := by simpa [actForm] using hm
  rw [get_single, if_pos this]

end Sys2Proof.Machine
end

