-- ==== Sys2Proof/Laws/MemLane.lean ====
section
/-! SUPPORT. Lane accesses to memory that pass their checks: what they answer, in the words of Safety.lean. -/

namespace Sys2Proof.Machine

/-- A team put where it stands. -/
theorem withTeam_same (s : State) : s.withTeam s.team = s := by
  unfold State.withTeam State.setTeam State.team State.teamAt
  by_cases h : s.cur < s.teams.length
  · simp [List.getD_eq_getElem?_getD, List.getElem?_eq_getElem h]
  · rw [List.set_eq_of_length_le (Nat.le_of_not_lt h)]

/-- A lane memory instruction that executes normally reaches its addresses. -/
theorem memLane_ready {x : LaneForm} {o : LaneOp} (of : x.Of o) {s : State} (hr : x.Ready s.team) (k : State → Out) :
    memLane true o s k = k s := by
  have h1 : s.withTeam (s.team.reclaim o) = s := by
    have : s.team.reclaim o = s.team := by
      unfold Team.reclaim
      rw [if_neg hr.fresh.2.2.2.2]
    rw [this, withTeam_same]
  unfold memLane
  rw [of.precheck hr]
  simp only [h1]
  rw [if_neg hr.active]
  have h2 : (s.team.emptyTrap o).isSome = false := by rw [of.emptyTrap hr]; rfl
  have h3 : (s.team.sweptRows.any fun w => !s.team.rowReady o w) = false := by
    rw [List.any_eq_false]
    intro w hw
    simp [of.rowReady hr w hw]
  have h4 : (s.team.sweptRows.any fun w => s.team.lostRow o w) = false := by
    rw [List.any_eq_false]
    intro w hw
    simp [Team.lostRow, Team.lostAt, hr.fresh.2.2.2.1]
  have h5 : s.team.healRows o.reads = s.team := by simp [Team.healRows, hr.fresh.2.2.2.1]
  rw [h2, h3, h4, h5, withTeam_same]
  rfl

/-- More fallbacks. -/
theorem LaneForm.Of.plus {x : LaneForm} {o : LaneOp} (h : x.Of o) (w : Nat) : (x.plus w).Of { o with warn := o.warn ||| w } :=
  ⟨h.p, h.srcs, h.dst, h.some, h.even, h.merge, h.tags, by show o.warn ||| w = x.warn ||| w; rw [h.warn]⟩

/-- Loads retire as long-latency producers. -/
theorem finishMem_issued {x : LaneForm} {o : LaneOp} (of : x.Of o) (s : State) (hl : s.team.lanes ≤ 1024)
    (h0 : s.team.excFlags = 0) (hregs : o.dstRegs = x.dst) (hnd : x.dst.Nodup)
    (zs : List (Nat × Nat)) (hz : (zs.flatMap fun d => run d.1 d.2) = x.zero) (f : Nat → LaneOut)
    (hzd : ∀ r ∈ x.zero, r ∈ x.dst) (w : Nat) (hq : x.Quiet s.team fun l => (f l).fl) :
    (x.plus w).Issued s (fun r l => (f l).get r (s.team.v r l)) (fun l => (f l).fl) (fun l => ((f l).g).getD (s.team.g l))
      (s.finishMem o zs w f) :=
  issue_done (of.plus w) s hl h0 hregs hnd zs hz f hzd hq

/-- Stores retire with nothing to land. -/
theorem finishMem_done {x : LaneForm} {o : LaneOp} (of : x.Of o) (hd : x.dst = []) (hz : x.zero = []) (ho : o.dsts = [])
    (s : State) (h0 : s.team.excFlags = 0) (w : Nat) :
    (x.plus w).Done s (fun _ _ => 0) (s.finishMem o [] w fun _ => { regs := [] }) := by
  have e : ∀ (ws : List Nat) (t : Team), t.excFlags = 0 → ws.foldl (fun (t : Team) w =>
      t.issueRow o w (lanesRow s.team o.p [] (fun _ => { regs := [] }) w)) t = t := by
    intro ws
    induction ws with
    | nil => intro t _; rfl
    | cons v r ih =>
      intro t ht
      rw [List.foldl_cons]
      have : t.issueRow o v (lanesRow s.team o.p [] (fun _ => { regs := [] }) v) = t := by
        unfold Team.issueRow lanesRow
        simp only [ho, List.flatMap_nil, List.foldl_nil, List.filterMap_map, List.filter_map, Function.comp_def, Option.map_none, bne_self_eq_false]
        have a1 : ∀ xs : List Nat, xs.filterMap (fun _ => (none : Option (Nat × Word32))) = [] := by
          intro xs; induction xs <;> simp_all
        have a2 : ∀ xs : List Nat, xs.filter (fun _ => false) = [] := by
          intro xs; induction xs <;> simp_all
        rw [a1, a2]
        rfl
      rw [this]; exact ih t ht
  unfold State.finishMem
  simp only [e _ _ h0]
  rw [finishLane_quiet s _ s.team rfl (by rw [h0]; simp)]
  have h := retire_scalar (of.plus w) s.team hd hz (by rw [h0]; simp)
  refine ⟨_, rfl, h.1, h.2.1, h.2.2.1, h.2.2.2.1, ?_, fun l _ => h.2.2.2.2.2 l⟩
  rw [h.2.2.2.2.1, h0]; simp

/-- No acting lane's address is misaligned. -/
theorem misaligned_none (t : Team) (p : Option Pfx) (n : Nat) (a : Nat → Nat) (h : ∀ l ∈ t.actors p, a l % n = 0) :
    (misaligned (t.actors p) n a != 0) = false := by
  unfold misaligned
  have : (t.actors p).filter (fun l => a l % n != 0) = [] := by
    rw [List.filter_eq_nil_iff]
    intro l hl
    simp [h l hl]
  rw [this]; simp [maskOfList]

/-- A form of one destination run describes its operation. -/
theorem memOf (x : LaneForm) (o : LaneOp) (ds : List (Nat × Nat)) (tg : List (Nat × Nat)) (hp : o.p = x.p)
    (hs : (o.srcs.map fun a => (a.reg, a.n, a.tags)) = x.srcs) (hd : o.dsts = ds)
    (hdst : ∀ d ∈ ds, ∀ r ∈ run d.1 d.2, r ∈ x.dst) (hn : ∀ d ∈ ds, d.2 ≠ 0) (he : o.aligned = x.even)
    (ht : o.tags = tg) (hmg : tg = x.merged) (hmore : o.more = [])
    (htg : x.merged = x.tagged.map fun r => (r, x.tag r)) (hw : o.warn = x.warn) : x.Of o where
  p := hp
  srcs := hs
  dst := by rw [hd]; exact hdst
  some := by rw [hd]; exact hn
  even := he
  merge := by rw [ht, hmg]
  tags := by
    intro m r
    rw [ht, hmore, List.append_nil, hmg, htg, fget_tags]
  warn := hw

theorem loadForm_of (p : Option Pfx) (f : LM) (vec wide : Bool) (tag : Nat) (u : Uses) :
    (loadForm p f vec wide tag u).Of
      { p := p, srcs := if vec then [⟨f.vo.toNat, 1, 1, []⟩] else [], dsts := [(f.vd.toNat, nregs wide)],
        aligned := pairOk wide f.vd, tags := tagRun f.vd.toNat (nregs wide) tag, warn := pfxWarn p u, long := true,
        row := fun _ _ => ⟨[], [], []⟩ } :=
  memOf _ _ [(f.vd.toNat, nregs wide)] _ rfl (by cases vec <;> rfl) rfl (by simp [loadForm]) (by simp [nregs_ne]) rfl rfl rfl
    rfl rfl rfl

/-- What a load has done to the machine before its rows are issued. -/
theorem loaded_acc (W : Nat → Prop) (s : State) (p : Option Pfx) (sp : List Span) : Accessed W s (s.loaded p sp).1 :=
  (fillSpans_acc W s _ sp).trans (loadLanes_acc W _ _ _)

theorem acquired_acc (W : Nat → Prop) (s : State) (acq : Option Nat) :
    Accessed W s (match acq with
      | none => s
      | some sc => s.acquire s.cur sc) := by
  cases acq
  · exact .refl W s
  · exact acquire_acc W s _ _

theorem loadedReg_get (wide : Bool) (d v r : Nat) (old : Word32) (h : r ∈ run d (nregs wide)) :
    ({ regs := if wide then pairRegs d (BitVec.ofNat 64 v) else [(d, BitVec.ofNat 32 v)] } : LaneOut).get r old =
      loadedReg wide d v r := get_elem wide d r _ _ old 0 none h

theorem load_done (p : Option Pfx) (f : LM) (wide : Bool) (tag : Nat) (vec : Bool) (acq : Option Nat) (u : Uses) (s : State)
    (sp : List Span) (hr : (loadForm p f vec wide tag u).Ready s.team)
    (hs : s.Reaches p (if vec then addrVec p f s.team else addrImm f (laneBytes wide) s.team) (laneBytes wide) (laneBytes wide)
      needR true f.pol.toNat sp) :
    Accessed (fun _ => False) s ((s.loaded p sp).1.closed acq) ∧
    ((loadForm p f vec wide tag u).plus (spanWarn sp f.pol.toNat)).Issued ((s.loaded p sp).1.closed acq)
      (fun r l => loadedReg wide f.vd.toNat (valueOf (s.loaded p sp).2 l) r) (fun _ => 0) s.team.g
      (laneLoad p true f wide tag vec acq u s) := by
  have of := loadForm_of p f vec wide tag u
  unfold laneLoad
  simp only []
  rw [memLane_ready of hr]
  simp only [misaligned_none s.team p _ _ hs.aligned, Bool.false_eq_true, if_false, hs.found]
  have h1 := (loaded_acc (fun _ => False) s p sp).trans (acquired_acc _ _ acq)
  refine ⟨h1, ?_⟩
  have ht := h1.team_eq
  have hi := finishMem_issued of _ (by rw [ht]; exact hr.lanes) (by rw [ht]; exact hr.fresh.2.2.1) (by simp [LaneOp.dstRegs, loadForm])
    (nodup_run _ _) [(f.vd.toNat, nregs wide)] (by simp [loadForm])
    (fun l =>
      { regs := if wide then pairRegs f.vd.toNat (BitVec.ofNat 64 (valueOf (s.loaded p sp).2 l))
                else [(f.vd.toNat, BitVec.ofNat 32 (valueOf (s.loaded p sp).2 l))] })
    (fun _ h => h) (spanWarn sp f.pol.toNat) (by intro l _ _; simp)
  refine LaneForm.Issued.congr hi (fun r l hm _ => loadedReg_get wide _ _ r _ hm) (fun l _ => by rw [ht]; rfl)

theorem opened_acc (W : Nat → Prop) (s : State) (sp : List Span) (rel : Option Nat)
    (h : rel.isSome = true → s.team.stk ≠ [] → ∀ a, W a) : Stored W s (s.opened sp rel) := by
  unfold State.opened
  have h1 := fillSpans_acc W s (s.viaOf s.cur) sp
  cases rel with
  | none => exact h1.stored
  | some sc =>
    refine h1.stored.trans ?_
    refine release_acc W _ _ _ fun hne => h rfl ?_
    have e : (s.fillSpans (s.viaOf s.cur) sp).teamAt (s.fillSpans (s.viaOf s.cur) sp).cur = s.team := h1.team_eq
    rw [e] at hne
    exact hne

theorem opened_flush (s : State) (sp : List Span) (rel : Option Nat) (W : Nat → Prop) (h : s.team.stk ≠ [] → ∀ a, W a) :
    (s.opened sp rel).team.stk ≠ [] → ∀ a, W a := by
  intro hne
  refine h fun he => hne ?_
  have h1 := fillSpans_acc W s (s.viaOf s.cur) sp
  unfold State.opened
  cases rel with
  | none => show (s.fillSpans (s.viaOf s.cur) sp).team.stk = []; rw [h1.team_eq]; exact he
  | some sc =>
    have e : ((s.fillSpans (s.viaOf s.cur) sp).teamAt (s.fillSpans (s.viaOf s.cur) sp).cur).stk = [] := by
      have : (s.fillSpans (s.viaOf s.cur) sp).teamAt (s.fillSpans (s.viaOf s.cur) sp).cur = s.team := h1.team_eq
      rw [this]; exact he
    show ((s.fillSpans (s.viaOf s.cur) sp).release _ sc).team.stk = []
    unfold State.release
    split
    · rw [h1.team_eq]; exact he
    · rw [flushStack_empty _ _ e, (releaseCore_acc W _ _ _).team_eq, h1.team_eq]; exact he

theorem closed_acc (W : Nat → Prop) (s : State) (acq : Option Nat) : Accessed W s (s.closed acq) := acquired_acc W s acq

/-- What stays of a team where only stack caches may have changed. -/
theorem Stored.cur_eq {W : Nat → Prop} {s t : State} (h : Stored W s t) : t.cur = s.cur := h.accessed.cur_eq

theorem Stored.teamAt_eq {W : Nat → Prop} {s t : State} (h : Stored W s t) (k : Nat) :
    t.teamAt k = { s.teamAt k with stk := (t.teamAt k).stk } := by
  have e : ∀ u : State, (u.teams.map fun t => { t with stk := [] }).getD k { blankTeam with stk := [] } = { u.teamAt k with stk := [] } := by
    intro u
    unfold State.teamAt
    simp only [List.getD_eq_getElem?_getD, List.getElem?_map]
    cases u.teams[k]? <;> rfl
  have h1 := e t
  rw [h.teams, e s] at h1
  generalize t.teamAt k = x at *
  generalize s.teamAt k = y at *
  have h2 := congrArg (fun z : Team => { z with stk := x.stk }) h1
  exact h2.symm

theorem Stored.team_eq {W : Nat → Prop} {s t : State} (h : Stored W s t) : t.team = { s.team with stk := t.team.stk } := by
  unfold State.team
  rw [h.cur_eq]
  exact h.teamAt_eq _

theorem storeLanes_acc (W : Nat → Prop) (s : State) (xs : List (Nat × Span)) (n : Nat) (v : Nat → Nat)
    (h : ∀ x ∈ xs, Span.inLines x.2 ∧ ∀ a, Span.has x.2 a → W a) : Stored W s (s.storeLanes xs n v) :=
  Stored.foldl _ _ _ fun u x hx => storeSpan_acc W _ x.2 (h x hx).1 (h x hx).2 u _

theorem storeForm_of (p : Option Pfx) (f : LM) (vec wide : Bool) (tag : Nat) (u : Uses) :
    (storeForm p f vec wide tag u).Of
      { p := p, srcs := (if vec then [⟨f.vo.toNat, 1, 1, []⟩] else []) ++ [⟨f.vd.toNat, nregs wide, 2, if tag = 0 then [] else [tag]⟩],
        dsts := [], aligned := pairOk wide f.vd, tags := [], warn := pfxWarn p u, row := fun _ _ => ⟨[], [], []⟩ } :=
  memOf _ _ [] [] rfl (by cases vec <;> rfl) rfl (by simp) (by simp) rfl rfl rfl rfl rfl rfl

theorem zip_snd {α β : Type} (xs : List α) (ys : List β) (z : α × β) (h : z ∈ xs.zip ys) : z.2 ∈ ys := (List.of_mem_zip h).2

theorem store_done (p : Option Pfx) (f : LM) (wide : Bool) (tag : Nat) (vec : Bool) (rel : Option Nat) (u : Uses) (s : State)
    (sp : List Span) (hr : (storeForm p f vec wide tag u).Ready s.team)
    (hs : s.Reaches p (if vec then addrVec p f s.team else addrImm f (laneBytes wide) s.team) (laneBytes wide) (laneBytes wide)
      needW false f.pol.toNat sp) :
    Stored (s.mayStore sp rel.isSome) s
      ((s.opened sp rel).storeLanes ((s.team.actors p).zip sp) (laneBytes wide) (dataElem s.team wide f.vd.toNat)) ∧
    ((storeForm p f vec wide tag u).plus (spanWarn sp f.pol.toNat)).Done
      ((s.opened sp rel).storeLanes ((s.team.actors p).zip sp) (laneBytes wide) (dataElem s.team wide f.vd.toNat)) (fun _ _ => 0)
      (laneStore p true f wide tag vec rel u s) := by
  have of := storeForm_of p f vec wide tag u
  have h1 := opened_acc (s.mayStore sp rel.isSome) s sp rel fun h0 h1 a => Or.inr ⟨h0, h1⟩
  have h2 := storeLanes_acc (s.mayStore sp rel.isSome) (s.opened sp rel) ((s.team.actors p).zip sp) (laneBytes wide)
    (dataElem s.team wide f.vd.toNat) fun x hx =>
      ⟨checkSpans_in _ _ _ _ _ _ _ hs.found x.2 (zip_snd _ _ _ hx), fun a ha => Or.inl ⟨x.2, zip_snd _ _ _ hx, ha⟩⟩
  have h3 := h1.trans h2
  refine ⟨h3, ?_⟩
  have ht := h3.team_eq
  unfold laneStore
  simp only []
  rw [memLane_ready of hr]
  simp only [misaligned_none s.team p _ _ hs.aligned, Bool.false_eq_true, if_false, hs.found]
  cases rel <;> exact finishMem_done of rfl rfl rfl _ (by rw [ht]; exact hr.fresh.2.2.1) _

/-! ### Transposing loads -/

theorem ldtForm_of (p : Option Pfx) (ty : BitVec 3) (f : LM) :
    (ldtForm p ty f).Of
      { p := p, srcs := [⟨f.vo.toNat, 1, 1, []⟩], dsts := [(f.vd.toNat, 1)], tags := [(f.vd.toNat, ldtTag ty)],
        warn := pfxWarn p { wa := true, os := true }, long := true, row := fun _ _ => ⟨[], [], []⟩ } :=
  memOf _ _ [(f.vd.toNat, 1)] _ rfl rfl rfl (by simp [ldtForm, run_one]) (by simp) rfl rfl rfl rfl rfl rfl

theorem ldt_done (p : Option Pfx) (ty : BitVec 3) (f : LM) (s : State) (sp : List Span) (hwf : (Instr.ldt p ty f).wf = true)
    (hr : (ldtForm p ty f).Ready s.team) (hs : s.Reaches p (addrVec p f s.team) 4 4 needR true f.pol.toNat sp)
    (hc : ∀ l ∈ s.team.actors p, s.ldtStop (addrVec p f s.team) l = none) :
    ∃ s1, Accessed (fun _ => False) s s1 ∧ ((ldtForm p ty f).plus (spanWarn sp f.pol.toNat)).Issued s1
      (fun _ l => BitVec.ofNat 32 (transposed (ldtRho ty) (s.team.acting p)
        (valueOf (s.loadLanes ((s.team.actors p).zip sp) 0).2) l)) (fun _ => 0) s.team.g (execLdt p ty f s) := by
  have of := ldtForm_of p ty f
  unfold execLdt
  simp only []
  rw [hwf, memLane_ready of hr]
  have h0 : (s.team.actors p).findSome? (s.ldtStop (addrVec p f s.team)) = none := by
    rw [List.findSome?_eq_none_iff]; exact hc
  simp only [misaligned_none s.team p _ _ hs.aligned, Bool.false_eq_true, if_false, h0, hs.found]
  have h1 := loadLanes_acc (fun _ => False) s ((s.team.actors p).zip sp) 0
  refine ⟨_, h1, ?_⟩
  have ht := h1.team_eq
  have hi := finishMem_issued of _ (by rw [ht]; exact hr.lanes) (by rw [ht]; exact hr.fresh.2.2.1) (by simp [LaneOp.dstRegs, ldtForm, run_one])
    (by simp [ldtForm]) [(f.vd.toNat, 1)] (by simp [ldtForm, run_one])
    (fun l => { regs := [(f.vd.toNat, BitVec.ofNat 32 (transposed (ldtRho ty) (s.team.acting p)
        (valueOf (s.loadLanes ((s.team.actors p).zip sp) 0).2) l))] })
    (fun _ h => h) (spanWarn sp f.pol.toNat) (by intro l _ _; simp)
  refine LaneForm.Issued.congr hi (fun r l hm _ => ?_) (fun l _ => by rw [ht]; rfl)
  have : r = f.vd.toNat := by simpa [LaneForm.plus, ldtForm] using hm
  rw [get_single, if_pos this]

/-! ### Atomics -/

/-- An aligned span of 1, 2, 4, 8, 16 or 32 bytes is one part. -/
theorem parts_one (va n : Nat) (h0 : 0 < n) (hn : n ∣ 32) (ha : va % n = 0) : parts va n = [(va, n)] := by
  obtain ⟨c, hc⟩ := hn
  have h1 : va % 32 % n = 0 := by rw [hc, Nat.mod_mul_right_mod]; exact ha
  have h2 : va % 32 + n ≤ 32 := by
    obtain ⟨q, hq⟩ := Nat.dvd_of_mod_eq_zero h1
    have h3 : va % 32 < 32 := Nat.mod_lt _ (by decide)
    rw [hq] at h3 ⊢
    have : q < c := by
      rw [hc] at h3
      exact Nat.lt_of_mul_lt_mul_left h3
    calc n * q + n = n * (q + 1) := by rw [Nat.mul_succ]
      _ ≤ n * c := Nat.mul_le_mul_left n this
      _ = 32 := hc.symm
  unfold parts
  have e : min n (32 - va % 32) = n := by omega
  rw [show n / 32 + 2 = (n / 32 + 1) + 1 from rfl, spanParts]
  simp only [e, Nat.sub_self]
  rw [if_neg (by omega), spanParts]
  simp

/-- A checked span of that kind is one hit. -/
theorem checkSpans_one (s : State) (v : Via) (as : List Nat) (n : Nat) (need : Need) (reads : Bool) (pol : Nat)
    (sp : List Span) (h0 : 0 < n) (hn : n ∣ 32) (ha : ∀ a ∈ as, a % n = 0)
    (h : s.checkSpans v (as.map fun a => (a, n)) need reads pol = .ok sp) : ∀ x ∈ sp, x = [(Span.first x, n)] := by
  have hne : ∀ (r : Reach) (va : Nat), r.stop va need = none → ∃ hh, r = .hit hh := by
    intro r va e
    cases r <;> simp [Reach.stop] at e
    exact ⟨_, rfl⟩
  unfold State.checkSpans at h
  simp only [] at h
  split at h
  · exact absurd h (by simp)
  · next hst =>
    simp only [Except.ok.injEq] at h
    subst h
    intro x hx
    simp only [List.map_map, List.mem_map, Function.comp] at hx
    obtain ⟨a, hm, rfl⟩ := hx
    rw [parts_one a n h0 hn (ha a hm)]
    have hit : ∃ hh, (s.reachPart v (a, n) (a, n) need reads pol).1 = .hit hh := by
      refine hne _ (s.reachPart v (a, n) (a, n) need reads pol).2 ?_
      cases e : (s.reachPart v (a, n) (a, n) need reads pol).1.stop (s.reachPart v (a, n) (a, n) need reads pol).2 need with
      | none => rfl
      | some st =>
        exfalso
        unfold firstStop at hst
        rw [List.findSome?_eq_none_iff] at hst
        have h1 := hst st.rank (by rw [List.mem_range]; cases st <;> simp [Stop.rank])
        rw [List.find?_eq_none] at h1
        have h2 := h1 st ?_
        · exact h2 (by simp)
        · rw [List.mem_flatMap]
          refine ⟨[((a, n), s.reachPart v (a, n) (a, n) need reads pol)], ?_, ?_⟩
          · simp only [List.map_map, List.mem_map, Function.comp]
            exact ⟨a, hm, by rw [parts_one a n h0 hn (ha a hm)]; rfl⟩
          · simp [e]
    obtain ⟨hh, e⟩ := hit
    simp [e, joinParts, Span.first]

/-- A run of accesses that write a stack cache back first: those of an empty one leave the teams as they are. -/
theorem foldl_flushing {α : Type} {W : Nat → Prop} (f : State → α → State) (xs : List α) (s : State)
    (hs : s.team.stk ≠ [] → ∀ a, W a) (h1 : ∀ u : State, ∀ x ∈ xs, (u.team.stk ≠ [] → ∀ a, W a) → Stored W u (f u x))
    (h2 : ∀ u : State, ∀ x ∈ xs, u.team.stk = [] → Accessed W u (f u x)) : Stored W s (xs.foldl f s) := by
  induction xs generalizing s with
  | nil => exact .refl W s
  | cons x r ih =>
    rw [List.foldl_cons]
    refine (h1 s x (List.mem_cons_self ..) hs).trans (ih (f s x) ?_ (fun u y hy => h1 u y (List.mem_cons_of_mem _ hy))
      fun u y hy => h2 u y (List.mem_cons_of_mem _ hy))
    intro hne a
    by_cases he : s.team.stk = []
    · have := (h2 s x (List.mem_cons_self ..) he).team_eq
      rw [this] at hne
      exact absurd he hne
    · exact hs he a

theorem rmwLanes_acc (W : Nat → Prop) (xs : List (Nat × Span)) (n : Nat) (upd : Nat → Word64 → Option Nat) (s : State)
    (hs : s.team.stk ≠ [] → ∀ a, W a) (h : ∀ x ∈ xs, ∀ a, (Span.first x.2).key ≤ a → a < (Span.first x.2).key + n → W a) :
    Stored W s (s.rmwLanes xs n upd).1 := by
  have e : ∀ (xs : List (Nat × Span)) (y : State × List (Nat × Nat)),
      (xs.foldl (fun (y : State × List (Nat × Nat)) x =>
        ((y.1.rmw y.1.cur (Span.first x.2) n (upd x.1)).1,
          y.2 ++ [(x.1, (y.1.rmw y.1.cur (Span.first x.2) n (upd x.1)).2.toNat)])) y).1 =
      xs.foldl (fun (s : State) x => (s.rmw s.cur (Span.first x.2) n (upd x.1)).1) y.1 := by
    intro xs
    induction xs with
    | nil => intro y; rfl
    | cons x r ih => intro y; rw [List.foldl_cons, List.foldl_cons]; exact ih _
  unfold State.rmwLanes
  rw [e]
  exact foldl_flushing _ xs s hs (fun u x hx hu => rmw_acc W u u.cur _ n _ hu (h x hx))
    fun u x hx hu => rmw_quiet W u u.cur _ n _ hu (h x hx)

theorem atomForm_of (p : Option Pfx) (op ty : Nat) (f : LM) :
    (atomForm p op ty f).Of
      { p := p,
        srcs := [⟨f.vo.toNat, 1, 1, []⟩, ⟨f.vd.toNat, nregs (decide (2 ≤ ty)), 2, [atomTag ty]⟩] ++
          (if (op == 7) = true then [⟨pvc p, nregs (decide (2 ≤ ty)), 0, [atomTag ty]⟩] else []),
        dsts := [(f.vd.toNat, nregs (decide (2 ≤ ty)))],
        aligned := pairOk (decide (2 ≤ ty)) f.vd && (!(op == 7) || !decide (2 ≤ ty) || pvc p % 2 == 0),
        tags := tagRun f.vd.toNat (nregs (decide (2 ≤ ty))) (atomTag ty),
        warn := pfxWarn p { wa := true, wb := true, vc := op == 7, scope := true, os := true }, long := true,
        row := fun _ _ => ⟨[], [], []⟩ } :=
  memOf _ _ [(f.vd.toNat, nregs (decide (2 ≤ ty)))] _ rfl (by cases h : op == 7 <;> simp [atomForm, h]) rfl (by simp [atomForm])
    (by simp [nregs_ne]) rfl rfl rfl rfl rfl rfl

theorem dvd_laneBytes (w : Bool) : 0 < laneBytes w ∧ laneBytes w ∣ 32 := by cases w <;> decide

theorem atom_done (p : Option Pfx) (op ty : Nat) (f : LM) (s : State) (sp : List Span) (hr : (atomForm p op ty f).Ready s.team)
    (hs : s.Reaches p (addrVec p f s.team) (laneBytes (decide (2 ≤ ty))) (laneBytes (decide (2 ≤ ty))) (needR ||| needW) true
      polWt sp) (r : State × List (Nat × Nat))
    (he : (s.opened sp (if ordRel f.pol.toNat then some (pscope p) else none)).rmwLanes ((s.team.actors p).zip sp)
      (laneBytes (decide (2 ≤ ty))) (atomUpd p op ty f s.team) = r) :
    Stored (s.mayStore sp true) s (r.1.closed (if ordAcq f.pol.toNat then some (pscope p) else none)) ∧
    (atomForm p op ty f).Issued (r.1.closed (if ordAcq f.pol.toNat then some (pscope p) else none))
      (fun q l => loadedReg (decide (2 ≤ ty)) f.vd.toNat (valueOf r.2 l) q) (fun _ => 0) s.team.g
      (laneAtom p true op ty f s) := by
  have of := atomForm_of p op ty f
  have hflush : s.team.stk ≠ [] → ∀ a, s.mayStore sp true a := fun h a => Or.inr ⟨rfl, h⟩
  have h1 := opened_acc (s.mayStore sp true) s sp (if ordRel f.pol.toNat then some (pscope p) else none) fun _ h => hflush h
  have hone := checkSpans_one s (s.viaOf s.cur) ((s.team.actors p).map (addrVec p f s.team)) (laneBytes (decide (2 ≤ ty)))
    (needR ||| needW) true polWt sp (dvd_laneBytes _).1 (dvd_laneBytes _).2
    (by intro a ha; obtain ⟨l, hl, rfl⟩ := List.mem_map.mp ha; exact hs.aligned l hl)
    (by rw [List.map_map]; exact hs.found)
  have h2 := rmwLanes_acc (s.mayStore sp true) ((s.team.actors p).zip sp) (laneBytes (decide (2 ≤ ty))) (atomUpd p op ty f s.team)
    (s.opened sp (if ordRel f.pol.toNat then some (pscope p) else none)) (opened_flush s sp _ _ hflush) fun x hx a ha hb => by
      refine Or.inl ⟨x.2, zip_snd _ _ _ hx, ?_⟩
      rw [hone x.2 (zip_snd _ _ _ hx)]
      exact ⟨_, List.mem_singleton.mpr rfl, ha, hb⟩
  rw [he] at h2
  have h3 := (h1.trans h2).then (closed_acc _ r.1 (if ordAcq f.pol.toNat then some (pscope p) else none))
  refine ⟨h3, ?_⟩
  have ht := h3.team_eq
  unfold laneAtom
  simp only []
  rw [memLane_ready of hr]
  simp only [misaligned_none s.team p _ _ hs.aligned, Bool.false_eq_true, if_false, hs.found]
  have e1 : (if ordRel f.pol.toNat = true then (s.fillSpans (s.viaOf s.cur) sp).release (s.fillSpans (s.viaOf s.cur) sp).cur (pscope p)
      else s.fillSpans (s.viaOf s.cur) sp) = s.opened sp (if ordRel f.pol.toNat then some (pscope p) else none) := by
    cases ordRel f.pol.toNat <;> rfl
  rw [e1]
  have e2 : (s.opened sp (if ordRel f.pol.toNat then some (pscope p) else none)).rmwLanes ((s.team.actors p).zip sp)
      (laneBytes (decide (2 ≤ ty))) (fun l old => atomNew op ty old (BitVec.ofNat 64 (dataElem s.team (decide (2 ≤ ty)) f.vd.toNat l))
        (BitVec.ofNat 64 (dataElem s.team (decide (2 ≤ ty)) (pvc p) l))) = r := he
  rw [e2]
  have e3 : (if ordAcq f.pol.toNat = true then r.1.acquire r.1.cur (pscope p) else r.1) =
      r.1.closed (if ordAcq f.pol.toNat then some (pscope p) else none) := by
    cases ordAcq f.pol.toNat <;> rfl
  rw [e3]
  have hi := finishMem_issued of (r.1.closed (if ordAcq f.pol.toNat then some (pscope p) else none)) (by rw [ht]; exact hr.lanes)
    (by rw [ht]; exact hr.fresh.2.2.1) (by simp [LaneOp.dstRegs, atomForm]) (nodup_run _ _) [(f.vd.toNat, nregs (decide (2 ≤ ty)))] (by simp [atomForm])
    (fun l =>
      { regs := if decide (2 ≤ ty) = true then pairRegs f.vd.toNat (BitVec.ofNat 64 (valueOf r.2 l))
                else [(f.vd.toNat, BitVec.ofNat 32 (valueOf r.2 l))] })
    (fun _ h => h) 0 (by intro l _ _; simp)
  have e4 : (atomForm p op ty f).plus 0 = atomForm p op ty f := by simp [LaneForm.plus]
  rw [e4] at hi
  exact LaneForm.Issued.congr hi (fun q l hm _ => loadedReg_get _ _ _ q _ hm) (fun l _ => by rw [ht]; rfl)

/-! ### Narrow-block loads -/

theorem blockForm_of (p : Option Pfx) (f : LM) (b : BlockForm) (tag stag : Nat) (t : Team) (hd : f.vd.toNat ≠ f.vo.toNat) :
    (blockForm p f b tag stag t).Of
      { p := p, srcs := [], dsts := [(f.vd.toNat, 1), (f.vo.toNat, 1)], aligned := f.vd.toNat != f.vo.toNat && f.sa.toNat % 2 == 0,
        tags := (f.vd.toNat, tag) :: (if ((t.actors p).filter fun l => l % b.lanes == 0).isEmpty then [] else [(f.vo.toNat, stag)])
        warn := pfxWarn p { reuse := true }, long := true, row := fun _ _ => ⟨[], [], []⟩ } where
  p := rfl
  srcs := rfl
  dst := by simp [blockForm, run_one]
  some := by simp
  even := rfl
  merge := rfl
  tags := by
    intro m r
    cases h : ((t.actors p).filter fun l => l % b.lanes == 0).isEmpty
    · simp only [h, Bool.false_eq_true, if_false, List.append_nil, List.foldl_cons, List.foldl_nil, blockForm]
      rw [fget_fput, fget_fput]
      by_cases e : r = f.vo.toNat
      · subst e; simp
      · by_cases e2 : r = f.vd.toNat
        · subst e2; simp [hd]
        · simp [e, e2]
    · simp only [h, if_true, List.append_nil, List.foldl_cons, List.foldl_nil, blockForm]
      rw [fget_fput]
      by_cases e2 : r = f.vd.toNat
      · subst e2; simp [hd]
      · simp [e2]
  warn := rfl

theorem block_done (p : Option Pfx) (f : LM) (b : BlockForm) (tag stag : Nat) (elems : Nat → Nat → Nat → Nat)
    (scale : Nat → Nat → Nat) (s : State) (sp : List Span) (hr : (blockForm p f b tag stag s.team).Ready s.team)
    (ha : b.head = 4 → (s.team.s (f.sa + 1)).toNat % 4 = 0)
    (hs : s.checkSpans (s.viaOf s.cur) (b.spans s.team f (s.team.actors p)) needR true polSi = .ok sp) :
    ∃ s1, Accessed (fun _ => False) s s1 ∧ ((blockForm p f b tag stag s.team).plus (spanWarn sp polSi)).Issued s1
      (blockReg p f b elems scale s sp) (fun _ => 0) s.team.g (blockLoad p true f b tag stag elems scale s) := by
  have he := hr.even
  have hd : f.vd.toNat ≠ f.vo.toNat := by
    simp only [blockForm, Bool.and_eq_true, bne_iff_ne, ne_eq] at he; exact he.1
  have of := blockForm_of p f b tag stag s.team hd
  unfold blockLoad
  simp only []
  rw [memLane_ready of hr]
  have hc : ¬ (b.head = 4 ∧ (s.team.s (f.sa + 1)).toNat % 4 ≠ 0 ∧ s.team.actors p ≠ []) := fun h => h.2.1 (ha h.1)
  simp only [if_neg hc, hs]
  have h1 := (fillSpans_acc (fun _ => False) s (s.viaOf s.cur) sp).trans
    (loadLanes_acc _ (s.fillSpans (s.viaOf s.cur) sp) ((List.range sp.length).zip sp) (preuse p))
  refine ⟨_, h1, ?_⟩
  have ht := h1.team_eq
  have hi := finishMem_issued of _ (by rw [ht]; exact hr.lanes) (by rw [ht]; exact hr.fresh.2.2.1) (by simp [LaneOp.dstRegs, blockForm, run_one])
    (by simp [blockForm, hd]) [(f.vd.toNat, 1)] (by simp [blockForm, run_one])
    (fun l =>
      { regs := (f.vd.toNat, BitVec.ofNat 32 (elems (blockGot p f b s sp (b.dataAt s.team f (l / b.lanes)) b.bytes)
          (blockGot p f b s sp (b.headAt s.team f (l / b.lanes)) b.head) (l % b.lanes))) ::
            (if l % b.lanes = 0 then [(f.vo.toNat, BitVec.ofNat 32 (scale (s.team.v f.vo.toNat l).toNat
              (blockGot p f b s sp (b.headAt s.team f (l / b.lanes)) b.head)))] else []) })
    (by simp [blockForm]) (spanWarn sp polSi) (by intro l _ _; simp)
  refine LaneForm.Issued.congr hi (fun r l hm _ => ?_) (fun l _ => by rw [ht]; rfl)
  have hm' : r = f.vd.toNat ∨ r = f.vo.toNat := by simpa [LaneForm.plus, blockForm] using hm
  unfold blockReg
  rw [ht]
  rcases hm' with e | e
  · rw [if_pos e]
    subst e
    split
    · simp [LaneOut.get, Ne.symm hd]
    · rw [get_single, if_pos rfl]
  · have e2 : r ≠ f.vd.toNat := by rw [e]; exact hd.symm
    rw [if_neg e2]
    subst e
    split
    · simp [LaneOut.get]
    · rw [get_single, if_neg e2]

/-! ### Exact accumulation -/

theorem accumulate_acc (W : Nat → Prop) (s : State) (xs : List (Nat × Span)) (v : Nat → FV × Int)
    (hs : s.team.stk ≠ [] → ∀ a, W a) (h : ∀ x ∈ xs, ∀ a, Span.has x.2 a → W a) : Stored W s (s.accumulate xs v) :=
  foldl_flushing _ xs s hs
    (fun u x hx hu => (homeRead_acc W u u.cur x.2 false hu).then (homeWrite_acc W _ _ _ (h x hx)))
    fun u x hx hu => (homeRead_quiet W u u.cur x.2 false hu).trans (homeWrite_acc W _ _ _ (h x hx))

theorem readObjects_acc (W : Nat → Prop) (s : State) (xs : List (Nat × Span)) (hs : s.team.stk ≠ [] → ∀ a, W a) :
    Stored W s (s.readObjects xs).1 := by
  have e : ∀ (xs : List (Nat × Span)) (y : State × List (Nat × Nat)),
      (xs.foldl (fun (y : State × List (Nat × Nat)) x => ((y.1.homeObj x.2 true).1, y.2 ++ [(x.1, (y.1.homeObj x.2 true).2)])) y).1 =
      xs.foldl (fun (s : State) x => (s.homeObj x.2 true).1) y.1 := by
    intro xs
    induction xs with
    | nil => intro y; rfl
    | cons x r ih => intro y; rw [List.foldl_cons, List.foldl_cons]; exact ih _
  unfold State.readObjects
  rw [e]
  exact foldl_flushing _ xs s hs (fun u x _ hu => homeRead_acc W u u.cur x.2 true hu) fun u x _ hu => homeRead_quiet W u u.cur x.2 true hu

theorem firstStop_none (xs : List Stop) (h : firstStop xs = none) : xs = [] := by
  unfold firstStop at h
  rw [List.findSome?_eq_none_iff] at h
  rw [List.eq_nil_iff_forall_not_mem]
  intro st hm
  have h1 := h st.rank (by rw [List.mem_range]; cases st <;> simp [Stop.rank])
  rw [List.find?_eq_none] at h1
  exact h1 st hm (by simp)

/-- Where several spans pass their checks, each passes alone, with the parts it has among them. -/
theorem checkSpans_each (s : State) (v : Via) (spans : List (Nat × Nat)) (need : Need) (reads : Bool) (pol : Nat) (sp : List Span)
    (h : s.checkSpans v spans need reads pol = .ok sp) (x : Nat × Nat) (hx : x ∈ spans) :
    ∃ y ∈ sp, s.checkSpans v [x] need reads pol = .ok [y] := by
  unfold State.checkSpans at h ⊢
  simp only [] at h ⊢
  split at h
  · exact absurd h (by simp)
  · next hst =>
    simp only [Except.ok.injEq] at h
    subst h
    have h0 := firstStop_none _ hst
    rw [List.flatMap_eq_nil_iff] at h0
    have h1 := h0 ((parts x.1 x.2).map fun p => (p, s.reachPart v x p need reads pol)) (List.mem_map_of_mem hx)
    refine ⟨_, List.mem_map_of_mem (List.mem_map_of_mem hx), ?_⟩
    simp only [List.map_cons, List.map_nil, List.flatMap_cons, List.flatMap_nil, List.append_nil]
    rw [h1]
    rfl

theorem badObject_none (s : State) (need : Need) (x64 : Bool) (as : List (Nat × Nat)) (sp : List Span)
    (h : s.checkSpans (s.viaOf s.cur) as need true polOp = .ok sp)
    (hk : ∀ k ∈ s.objects sp, objKind k = 2 ∨ (objKind k = 1 ∧ x64 = false)) (a : Nat) (ha : (a, 64) ∈ as) :
    s.badObject need x64 a = false := by
  obtain ⟨y, hy, e⟩ := checkSpans_each s _ as need true polOp sp h (a, 64) ha
  unfold State.badObject
  rw [e]
  simp only [Bool.and_eq_false_iff]
  right
  rw [List.any_eq_false]
  intro k hm
  have hm' : k ∈ s.objects sp := by
    unfold State.objects at hm ⊢
    simp only [List.map_cons, List.map_nil, List.mem_singleton] at hm
    rw [hm]
    exact List.mem_map_of_mem hy
  unfold kindOk
  rcases hk k hm' with h1 | h1
  · simp [h1]
  · simp [h1.1, h1.2]

/-- An access to objects that passes its checks reaches their homes. -/
theorem objectLane_ready {x : LaneForm} {o : LaneOp} (of : x.Of o) {s : State} (hr : x.Ready s.team) (f : LM) (need : Need)
    (x64 : Bool) (sp : List Span) (hs : s.Reaches x.p (addrVec x.p f s.team) 64 64 need true polOp sp)
    (hk : ∀ k ∈ s.objects sp, objKind k = 2 ∨ (objKind k = 1 ∧ x64 = false)) (k : State → List Nat → List Span → Out) :
    objectLane o true f need x64 s k =
      k (s.opened sp (if ordRel f.pol.toNat then some (pscope x.p) else none)) (s.team.actors x.p) sp := by
  unfold objectLane
  rw [memLane_ready of hr, of.p]
  have h1 : ((s.team.actors x.p).any fun l => s.badObject need x64 (addrVec x.p f s.team l)) = false := by
    rw [List.any_eq_false]
    intro l hl
    rw [badObject_none s need x64 _ sp hs.found hk _ (List.mem_map_of_mem hl)]
    simp
  simp only [h1, misaligned_none s.team x.p _ _ hs.aligned, Bool.false_eq_true, if_false, hs.found]
  have e1 : (if ordRel f.pol.toNat = true then (s.fillSpans (s.viaOf s.cur) sp).release (s.fillSpans (s.viaOf s.cur) sp).cur (pscope x.p)
      else s.fillSpans (s.viaOf s.cur) sp) = s.opened sp (if ordRel f.pol.toNat then some (pscope x.p) else none) := by
    cases ordRel f.pol.toNat <;> rfl
  rw [e1]

theorem fxaccForm_of (p : Option Pfx) (f : LM) (wide : Bool) (kreg : Option Nat) :
    (fxaccForm p f wide kreg).Of
      { p := p, srcs := [⟨f.vo.toNat, 1, 1, []⟩, ⟨f.vd.toNat, nregs wide, 2, [tagWide wide]⟩] ++ scaleSrc kreg,
        dsts := [], aligned := pairOk wide f.vd, tags := [], row := fun _ _ => ⟨[], [], []⟩,
        warn := pfxWarn p { z := false, wa := true, wb := true, vc := kreg.isSome, scope := true, os := true } } :=
  memOf _ _ [] [] rfl (by cases kreg <;> rfl) rfl (by simp) (by simp) rfl rfl rfl rfl rfl rfl

theorem fxacc_done (p : Option Pfx) (f : LM) (wide : Bool) (kreg : Option Nat) (s : State) (sp : List Span)
    (hr : (fxaccForm p f wide kreg).Ready s.team)
    (hs : s.Reaches p (addrVec p f s.team) 64 64 (needR ||| needW) true polOp sp)
    (hk : ∀ k ∈ s.objects sp, objKind k = 2 ∨ (objKind k = 1 ∧ wide = false)) :
    Stored (s.mayStore sp true) s (((s.opened sp (if ordRel f.pol.toNat then some (pscope p) else none)).accumulate
      ((s.team.actors p).zip sp) (addendOf f wide kreg s.team)).closed (if ordAcq f.pol.toNat then some (pscope p) else none)) ∧
    (fxaccForm p f wide kreg).Done (((s.opened sp (if ordRel f.pol.toNat then some (pscope p) else none)).accumulate
      ((s.team.actors p).zip sp) (addendOf f wide kreg s.team)).closed (if ordAcq f.pol.toNat then some (pscope p) else none))
      (fun _ _ => 0) (laneFxacc p true f wide kreg s) := by
  have of := fxaccForm_of p f wide kreg
  have hflush : s.team.stk ≠ [] → ∀ a, s.mayStore sp true a := fun h a => Or.inr ⟨rfl, h⟩
  have h1 := opened_acc (s.mayStore sp true) s sp (if ordRel f.pol.toNat then some (pscope p) else none) fun _ h => hflush h
  have ht1 := h1.team_eq
  have h2 := accumulate_acc (s.mayStore sp true) (s.opened sp (if ordRel f.pol.toNat then some (pscope p) else none))
    ((s.team.actors p).zip sp) (addendOf f wide kreg s.team) (opened_flush s sp _ _ hflush)
    fun x hx a ha => Or.inl ⟨x.2, zip_snd _ _ _ hx, ha⟩
  have h3 := (h1.trans h2).then (closed_acc _ _ (if ordAcq f.pol.toNat then some (pscope p) else none))
  refine ⟨h3, ?_⟩
  have ht := h3.team_eq
  unfold laneFxacc
  simp only []
  rw [objectLane_ready of hr f _ wide sp hs hk]
  have e2 : addendOf f wide kreg (s.opened sp (if ordRel f.pol.toNat then some (pscope p) else none)).team =
      addendOf f wide kreg s.team := by rw [ht1]; rfl
  have e4 : (fxaccForm p f wide kreg).plus 0 = fxaccForm p f wide kreg := by simp [LaneForm.plus]
  have e3 : ∀ u : State, (if ordAcq f.pol.toNat = true then u.acquire u.cur (pscope p) else u) =
      u.closed (if ordAcq f.pol.toNat then some (pscope p) else none) := by
    intro u; cases ordAcq f.pol.toNat <;> rfl
  have hi := finishMem_done of rfl rfl rfl (((s.opened sp (if ordRel f.pol.toNat then some (pscope p) else none)).accumulate
      ((s.team.actors p).zip sp) (addendOf f wide kreg s.team)).closed (if ordAcq f.pol.toNat then some (pscope p) else none))
      (by rw [ht]; exact hr.fresh.2.2.1) 0
  rw [e4] at hi
  simp only [e3]
  have hp : (fxaccForm p f wide kreg).p = p := rfl
  rw [hp, e2]
  exact hi

theorem fxrdForm_of (p : Option Pfx) (f : LM) (wide : Bool) :
    (fxrdForm p f wide).Of
      { p := p, srcs := [⟨f.vo.toNat, 1, 1, []⟩], dsts := [(f.vd.toNat, nregs wide)], aligned := pairOk wide f.vd,
        tags := tagRun f.vd.toNat (nregs wide) (tagWide wide), long := true, fp := true, row := fun _ _ => ⟨[], [], []⟩,
        warn := pfxWarn p { rnd := true, wa := true, scope := true, os := true } } :=
  memOf _ _ [(f.vd.toNat, nregs wide)] _ rfl rfl rfl (by simp [fxrdForm]) (by simp [nregs_ne]) rfl rfl rfl rfl rfl rfl

theorem fxrd_done (p : Option Pfx) (w : BitVec 1) (f : LM) (s : State) (sp : List Span) (hwf : (Instr.fxrd p w f).wf = true)
    (hr : (fxrdForm p f (w == 1)).Ready s.team) (hs : s.Reaches p (addrVec p f s.team) 64 64 needR true polOp sp)
    (hk : ∀ k ∈ s.objects sp, objKind k = 2 ∨ objKind k = 1)
    (hq : (fxrdForm p f (w == 1)).Quiet s.team fun l => (fxrdOf p (w == 1) f s sp l).1.2) :
    ∃ s1, Stored (s.mayStore [] true) s s1 ∧ (fxrdForm p f (w == 1)).Issued s1
      (fun r l => loadedReg (w == 1) f.vd.toNat (fxrdOf p (w == 1) f s sp l).1.1 r) (fun l => (fxrdOf p (w == 1) f s sp l).1.2)
      (fun l => if rmode s.team p = 5 then (fxrdOf p (w == 1) f s sp l).2 else s.team.g l) (execFxrd p w f s) := by
  have of := fxrdForm_of p f (w == 1)
  have hflush : s.team.stk ≠ [] → ∀ a, s.mayStore [] true a := fun h a => Or.inr ⟨rfl, h⟩
  have h1 := opened_acc (s.mayStore [] true) s sp (if ordRel f.pol.toNat then some (pscope p) else none) fun _ h => hflush h
  have h2 := readObjects_acc (s.mayStore [] true) (s.opened sp (if ordRel f.pol.toNat then some (pscope p) else none))
    ((s.team.actors p).zip sp) (opened_flush s sp _ _ hflush)
  have h3 := (h1.trans h2).then (closed_acc _ _ (if ordAcq f.pol.toNat then some (pscope p) else none))
  refine ⟨_, h3, ?_⟩
  have ht := h3.team_eq
  unfold execFxrd
  simp only []
  rw [hwf, objectLane_ready of hr f _ false sp hs (by simpa using hk)]
  have hp : (fxrdForm p f (w == 1)).p = p := rfl
  rw [hp]
  have e3 : ∀ u : State, (if ordAcq f.pol.toNat = true then u.acquire u.cur (pscope p) else u) =
      u.closed (if ordAcq f.pol.toNat then some (pscope p) else none) := by
    intro u; cases ordAcq f.pol.toNat <;> rfl
  simp only [e3]
  generalize hu : ((s.opened sp (if ordRel f.pol.toNat then some (pscope p) else none)).readObjects ((s.team.actors p).zip sp)).1.closed
    (if ordAcq f.pol.toNat then some (pscope p) else none) = u at *
  have hg : ∀ l, u.team.g l = s.team.g l := fun l => by rw [ht]; rfl
  have hi := finishMem_issued of u (by rw [ht]; exact hr.lanes) (by rw [ht]; exact hr.fresh.2.2.1) (by simp [LaneOp.dstRegs, fxrdForm])
    (nodup_run _ _) [(f.vd.toNat, nregs (w == 1))] (by simp [fxrdForm])
    (fun l =>
      { regs := if (w == 1) = true then pairRegs f.vd.toNat (BitVec.ofNat 64 (fxrdOf p (w == 1) f s sp l).1.1)
                else [(f.vd.toNat, BitVec.ofNat 32 (fxrdOf p (w == 1) f s sp l).1.1)]
        fl := (fxrdOf p (w == 1) f s sp l).1.2, g := stepped (rmode s.team p) (fxrdOf p (w == 1) f s sp l).2 })
    (fun _ h => h) 0 (by rw [ht]; exact hq)
  have e4 : (fxrdForm p f (w == 1)).plus 0 = fxrdForm p f (w == 1) := by simp [LaneForm.plus]
  rw [e4] at hi
  have e5 : ∀ l, roundElem (rmode s.team p) (u.team.g l) (fxrdElem (fmtWide (w == 1)) (valueOf
      ((s.opened sp (if ordRel f.pol.toNat then some (pscope p) else none)).readObjects ((s.team.actors p).zip sp)).2 l)) =
      fxrdOf p (w == 1) f s sp l := by
    intro l; rw [hg]; rfl
  simp only [e5]
  have ha : ∀ l, u.team.acts (fxrdForm p f (w == 1)).p l → s.team.acts (fxrdForm p f (w == 1)).p l := by
    intro l; rw [ht]; exact id
  exact LaneForm.Issued.congr hi (fun r l hm _ => get_elem _ _ r _ _ _ _ _ hm) (fun l _ => by rw [stepped_getD, hg])

/-! ### DECODE -/

theorem decodeForm_of (p : Option Pfx) (f : LM) :
    (decodeForm p f).Of
      { p := p, srcs := [], dsts := [(f.vd.toNat, 1)], tags := [(f.vd.toNat, 0)], long := true, inOrder := true, row := fun _ _ => ⟨[], [], []⟩,
        warn := pfxWarn p {} ||| wIf (f.pol != 0 || f.vo.getLsbD 0) wOPND } :=
  memOf _ _ [(f.vd.toNat, 1)] _ rfl rfl rfl (by simp [decodeForm, run_one]) (by simp) rfl rfl rfl rfl rfl rfl

/-- Replacing the executing team gives it, or, where no team executes, the machine as it was. -/
theorem withTeam_team (s : State) (t : Team) : (s.withTeam t).team = t ∨ s.withTeam t = s := by
  by_cases h : s.cur < s.teams.length
  · left
    show (s.teams.set s.cur t).getD s.cur blankTeam = t
    rw [List.getD_eq_getElem?_getD, List.getElem?_set_self h]; rfl
  · right
    unfold State.withTeam State.setTeam
    rw [List.set_eq_of_length_le (Nat.le_of_not_lt h)]

theorem decode_done (p : Option Pfx) (f : LM) (s : State) (hr : (decodeForm p f).Ready s.team)
    (h1 : s.outsideCluster (s.team.s f.sa).toNat 4 = none)
    (h2 : s.outsideCluster (s.team.s f.sa).toNat (blockHead (s.clusterByte (s.team.s f.sa).toNat)).clen = none)
    (r : Decoded) (hd : decodeBlock (s.clusterByte (s.team.s f.sa).toNat) (4 * s.team.lanes) = r)
    (h63 : s.team.s63Bad (decodeSd f) r.status = false) (ht : r.code = 0 ∨ bitAt s.team.fctl.toNat 17 = false) :
    (decodeForm p f).Issued (s.withTeam (s.team.setS (decodeSd f) r.status))
      (fun _ l => BitVec.ofNat 32 (decodedWord r.out.reverse l)) (fun _ => 0)
      (s.withTeam (s.team.setS (decodeSd f) r.status)).team.g (execDecode p f s) := by
  have of := decodeForm_of p f
  unfold execDecode
  simp only []
  rw [show pfxOk p = true from hr.prefixOk, memLane_ready of hr]
  simp only [h1, h2, hd, h63, Bool.false_eq_true, if_false]
  have hc : ¬ (r.code ≠ 0 ∧ bitAt s.team.fctl.toNat 17 = true) := by
    rintro ⟨a, b⟩
    rcases ht with h | h
    · exact a h
    · rw [h] at b; cases b
  have hl : (s.withTeam (s.team.setS (decodeSd f) r.status)).team.lanes ≤ 1024 ∧
      (s.withTeam (s.team.setS (decodeSd f) r.status)).team.excFlags = 0 := by
    rcases withTeam_team s (s.team.setS (decodeSd f) r.status) with e | e
    · rw [e]; exact ⟨hr.lanes, hr.fresh.2.2.1⟩
    · rw [e]; exact ⟨hr.lanes, hr.fresh.2.2.1⟩
  have hi := finishMem_issued of (s.withTeam (s.team.setS (decodeSd f) r.status)) hl.1 hl.2 (by simp [LaneOp.dstRegs, decodeForm, run_one])
    (by simp [decodeForm]) [(f.vd.toNat, 1)] (by simp [decodeForm, run_one])
    (fun l => { regs := [(f.vd.toNat, BitVec.ofNat 32 (decodedWord r.out.reverse l))] }) (fun _ h => h) 0 (by intro l _ _; simp)
  have e4 : (decodeForm p f).plus 0 = decodeForm p f := by simp [LaneForm.plus]
  rw [e4] at hi
  have hi' := LaneForm.Issued.congr (w := fun _ l => BitVec.ofNat 32 (decodedWord r.out.reverse l)) hi (fun q l hm _ => by
    have : q = f.vd.toNat := by simpa [decodeForm] using hm
    rw [get_single, if_pos this]) (fun l _ => rfl)
  unfold State.finishMem at hi' ⊢
  simp only [if_neg hc]
  exact hi'

/-! ### Volumes and boxes -/

theorem vsampForm_of (p : Option Pfx) (f : LM) :
    (vsampForm p f).Of
      { p := p, srcs := [⟨f.vo.toNat, 3, 1, [1]⟩], dsts := [(f.vd.toNat, 1)], tags := [(f.vd.toNat, 1)], long := true, fp := true,
        warn := pfxWarn p { wa := true, reuse := true }, row := fun _ _ => ⟨[], [], []⟩ } :=
  memOf _ _ [(f.vd.toNat, 1)] _ rfl rfl rfl (by simp [vsampForm, run_one]) (by simp) rfl rfl rfl rfl rfl rfl

theorem vsamp_done (p : Option Pfx) (tri : Bool) (f : LM) (s : State) (hr : (vsampForm p f).Ready s.team) (dsp sp : List Span)
    (u : State) (vol : Volume) (hne : s.team.actors p ≠ []) (ha : (s.team.s f.sa).toNat % 32 = 0)
    (hd : s.checkSpans (s.viaOf s.cur) [((s.team.s f.sa).toNat, 32)] needR true f.pol.toNat = .ok dsp)
    (hv : volumeAt p s dsp = (u, vol)) (hb : vol.bmode ≠ 3) (h4 : vol.base % 4 = 0 ∧ vol.pitchY % 4 = 0 ∧ vol.pitchZ % 4 = 0)
    (hs : u.checkSpans (s.viaOf s.cur) ((vol.plan p tri f s.team).map fun c => (c.1, 4)) needR true f.pol.toNat = .ok sp)
    (hq : (vsampForm p f).Quiet s.team fun l => (vol.sample tri s.team f.vo.toNat (valueOf (vol.voxels p tri f u s.team sp).2) l).2) :
    ∃ s1, Accessed (fun _ => False) s s1 ∧ ((vsampForm p f).plus (spanWarn (dsp ++ sp) f.pol.toNat)).Issued s1
      (fun _ l => BitVec.ofNat 32 (vol.sample tri s.team f.vo.toNat (valueOf (vol.voxels p tri f u s.team sp).2) l).1)
      (fun l => (vol.sample tri s.team f.vo.toNat (valueOf (vol.voxels p tri f u s.team sp).2) l).2) s.team.g
      (vsamp p tri f s) := by
  have of := vsampForm_of p f
  have hu : Accessed (fun _ => False) s u := by
    have e : u = (volumeAt p s dsp).1 := by rw [hv]
    rw [e]
    exact (fillSpans_acc _ s _ dsp).trans (loadSpan_acc _ _ _ _ _)
  have hvia : u.viaOf u.cur = s.viaOf s.cur := by
    have e : u.launches = s.launches := (congrArg State.launches hu.apart : u.apart.launches = s.apart.launches)
    unfold State.viaOf State.launch
    have e2 : u.teamAt u.cur = s.teamAt s.cur := hu.team_eq
    rw [e2, e]
  have h1 : Accessed (fun _ => False) s (vol.voxels p tri f u s.team sp).1 :=
    hu.trans ((fillSpans_acc _ u _ sp).trans (loadLanes_acc _ _ _ _))
  refine ⟨_, h1, ?_⟩
  have ht := h1.team_eq
  unfold vsamp
  simp only []
  rw [show pfxOk p = true from hr.prefixOk, memLane_ready of hr]
  rw [if_neg hne, if_neg (by simp [ha])]
  simp only [hd]
  have e1 : ((s.fillSpans (s.viaOf s.cur) dsp).loadSpan s.cur dsp.flatten (preuse p)).1 = u := congrArg Prod.fst hv
  have e2 : volumeOf (leNat ((s.fillSpans (s.viaOf s.cur) dsp).loadSpan s.cur dsp.flatten (preuse p)).2) = vol := congrArg Prod.snd hv
  simp only [e1, e2]
  rw [if_neg hb, if_neg (by simp [h4])]
  have e3 : u.checkSpans (s.viaOf s.cur) (((s.team.actors p).flatMap fun l => byAddress (vol.laneCorners tri s.team f.vo.toNat l)).map
      fun c => (c.1, 4)) needR true f.pol.toNat = .ok sp := hs
  simp only [e3]
  have e5 : (u.fillSpans (s.viaOf s.cur) sp).loadLanes ((((s.team.actors p).flatMap fun l =>
      byAddress (vol.laneCorners tri s.team f.vo.toNat l)).map (·.1)).zip sp) (preuse p) = vol.voxels p tri f u s.team sp := by
    unfold Volume.voxels Volume.plan; rw [hvia]
  rw [e5]
  have hi := finishMem_issued of (vol.voxels p tri f u s.team sp).1 (by rw [ht]; exact hr.lanes) (by rw [ht]; exact hr.fresh.2.2.1)
    (by simp [LaneOp.dstRegs, vsampForm, run_one]) (by simp [vsampForm]) [(f.vd.toNat, 1)] (by simp [vsampForm, run_one])
    (fun l =>
      { regs := [(f.vd.toNat, BitVec.ofNat 32 (vol.sample tri s.team f.vo.toNat (valueOf (vol.voxels p tri f u s.team sp).2) l).1)]
        fl := (vol.sample tri s.team f.vo.toNat (valueOf (vol.voxels p tri f u s.team sp).2) l).2 })
    (fun _ h => h) (spanWarn (dsp ++ sp) f.pol.toNat) (by rw [ht]; exact hq)
  refine LaneForm.Issued.congr hi (fun q l hm _ => ?_) (fun l _ => by rw [ht]; rfl)
  have : q = f.vd.toNat := by simpa [LaneForm.plus, vsampForm] using hm
  rw [get_single, if_pos this]

theorem vsamp_idle (p : Option Pfx) (tri : Bool) (f : LM) (s : State) (hr : (vsampForm p f).Ready s.team)
    (hne : s.team.actors p = []) (val : Nat → Nat → Word32) : (vsampForm p f).Issued s val (fun _ => 0) s.team.g (vsamp p tri f s) := by
  have of := vsampForm_of p f
  unfold vsamp
  simp only []
  rw [show pfxOk p = true from hr.prefixOk, memLane_ready of hr, if_pos hne]
  have hi := finishMem_issued of s hr.lanes hr.fresh.2.2.1 (by simp [LaneOp.dstRegs, vsampForm, run_one]) (by simp [vsampForm])
    [(f.vd.toNat, 1)] (by simp [vsampForm, run_one]) (fun _ => { regs := [] }) (fun _ h => h) 0 (by intro l _ _; simp)
  have e4 : (vsampForm p f).plus 0 = vsampForm p f := by simp [LaneForm.plus]
  rw [e4] at hi
  refine LaneForm.Issued.congr hi (fun q l _ ha => ?_) (fun l _ => rfl)
  have hm : l ∈ s.team.actors p := by
    unfold Team.actors
    rw [List.mem_filter, List.mem_range]
    have := ha.1
    exact ⟨by omega, ha.2⟩
  rw [hne] at hm; cases hm

theorem rboxForm_of (p : Option Pfx) (f : LM) (idx : Bool) :
    (rboxForm p f idx).Of
      { p := p, srcs := ⟨f.vo.toNat, 6, 1, [1]⟩ :: (if idx then [⟨f.vd.toNat, 1, 2, [13]⟩] else []), dsts := [(f.vd.toNat, 2)],
        aligned := f.vd.toNat % 2 == 0, tags := if idx then [(f.vd.toNat + 1, 1)] else tagRun f.vd.toNat 2 1,
        more := if idx then [(f.vd.toNat, 1)] else [], long := true, fp := true,
        warn := pfxWarn p { wa := true, wb := idx, reuse := true }, row := fun _ _ => ⟨[], [], []⟩ } where
  p := rfl
  srcs := by cases idx <;> rfl
  dst := by simp [rboxForm]
  some := by simp
  even := rfl
  merge := by cases idx <;> rfl
  tags := by
    intro m r
    have e : run f.vd.toNat 2 = [f.vd.toNat, f.vd.toNat + 1] := by simp [run, List.range, List.range.loop]
    cases idx
    · show fget 0 ((tagRun f.vd.toNat 2 1 ++ []).foldl _ m) r = _
      rw [List.append_nil, tagRun_eq, fget_tags]; rfl
    · simp only [if_true, List.cons_append, List.nil_append, List.foldl_cons, List.foldl_nil, rboxForm, e]
      rw [fget_fput, fget_fput]
      by_cases e1 : r = f.vd.toNat
      · subst e1; simp
      · by_cases e2 : r = f.vd.toNat + 1
        · subst e2; simp
        · simp [e1, e2]
  warn := rfl

theorem rbox_done (p : Option Pfx) (f : LM) (idx : Bool) (s : State) (sp : List Span) (hr : (rboxForm p f idx).Ready s.team)
    (hs : s.Reaches p (rboxAddr f idx s.team) 32 32 needR true f.pol.toNat sp)
    (hq : (rboxForm p f idx).Quiet s.team fun l => (rboxOf p f s sp l).2) :
    ∃ s1, Accessed (fun _ => False) s s1 ∧ ((rboxForm p f idx).plus (spanWarn sp f.pol.toNat)).Issued s1
      (fun r l => BitVec.ofNat 32 (if r = f.vd.toNat then (rboxOf p f s sp l).1.1 else (rboxOf p f s sp l).1.2))
      (fun l => (rboxOf p f s sp l).2) s.team.g (rboxLane p idx f s) := by
  have of := rboxForm_of p f idx
  have e : run f.vd.toNat 2 = [f.vd.toNat, f.vd.toNat + 1] := by simp [run, List.range, List.range.loop]
  unfold rboxLane
  simp only []
  rw [show pfxOk p = true from hr.prefixOk, memLane_ready of hr]
  have hs1 := hs.aligned
  have hs2 := hs.found
  unfold rboxAddr at hs1 hs2
  simp only [misaligned_none s.team p _ _ hs1, Bool.false_eq_true, if_false, hs2]
  have h1 := loaded_acc (fun _ => False) s p sp
  refine ⟨_, h1, ?_⟩
  have ht := h1.team_eq
  have hi := finishMem_issued of (s.loaded p sp).1 (by rw [ht]; exact hr.lanes) (by rw [ht]; exact hr.fresh.2.2.1) (by simp [LaneOp.dstRegs, rboxForm])
    (nodup_run _ _) [(f.vd.toNat, 2)] (by simp [rboxForm])
    (fun l =>
      { regs := [(f.vd.toNat, BitVec.ofNat 32 (rboxOf p f s sp l).1.1), (f.vd.toNat + 1, BitVec.ofNat 32 (rboxOf p f s sp l).1.2)]
        fl := (rboxOf p f s sp l).2 })
    (fun _ h => h) (spanWarn sp f.pol.toNat) (by rw [ht]; exact hq)
  refine LaneForm.Issued.congr hi (fun q l hm _ => ?_) (fun l _ => by rw [ht]; rfl)
  have hm' : q = f.vd.toNat ∨ q = f.vd.toNat + 1 := by simpa [LaneForm.plus, rboxForm, e] using hm
  rcases hm' with e1 | e1
  · subst e1; simp [LaneOut.get]
  · subst e1; simp [LaneOut.get]

end Sys2Proof.Machine
end

