-- ==== Sys2Proof/Laws/Range.lean ====
section
/-! SUPPORT. Range operations: what they change, and what they answer, in the words of Safety.lean. -/

namespace Sys2Proof.Machine

theorem setLine_in (W : Nat → Prop) (s : State) (c : CLine) (l : Nat) (h : ∀ i, i < 64 → W (64 * l + i)) (e : c.line = l) :
    Accessed W s (s.setLine c) := setLine_acc W s c fun i hi _ => Or.inl (by rw [e]; exact h i hi)

theorem rangeWbCore_acc (W : Nat → Prop) (s : State) (d idx l : Nat) (m : BitVec 64) (h : ∀ i, i < 64 → W (64 * l + i)) :
    Accessed W s (s.rangeWbCore d idx l m) := by
  unfold State.rangeWbCore
  simp only []
  have h1 : Accessed W s (if (s.line (.core d idx) l).siDirty &&& m = 0 then s
      else s.mergeDie d l ((s.line (.core d idx) l).siDirty &&& m) (s.line (.core d idx) l).data) := by
    split
    · exact .refl W s
    · exact mergeDie_acc W s d l _ _ fun i hi _ => h i hi
  refine h1.trans ?_
  generalize (if (s.line (.core d idx) l).siDirty &&& m = 0 then s
      else s.mergeDie d l ((s.line (.core d idx) l).siDirty &&& m) (s.line (.core d idx) l).data) = u
  refine (ownedToDie_acc W u (.core d idx) l m).trans ?_
  generalize u.ownedToDie (.core d idx) l m = w
  have h2 : Accessed W w (w.setLine { w.line (.core d idx) l with dirty := (w.line (.core d idx) l).dirty &&& ~~~m }) :=
    setLine_in W w _ l h (line_line _ _ l)
  split
  · exact h2.trans (writeBackLlc_acc W _ d l)
  · exact h2

theorem rangeWbLlc_acc (W : Nat → Prop) (s : State) (d l : Nat) (m : BitVec 64) (h : ∀ i, i < 64 → W (64 * l + i)) :
    Accessed W s (s.rangeWbLlc d l m) := by
  unfold State.rangeWbLlc
  simp only []
  refine Accessed.trans ?_ (setLine_in W _ _ l h ?b)
  case b => exact line_line _ _ l
  split
  · exact .refl W s
  · exact mergeHome_acc W s l _ _ fun i hi _ => h i hi

theorem rangeDrop_acc (W : Nat → Prop) (s : State) (a : Agent) (l : Nat) (R : BitVec 16) (h : ∀ i, i < 64 → W (64 * l + i)) :
    Accessed W s (s.rangeDrop a l R) := by
  unfold State.rangeDrop
  simp only []
  refine Accessed.trans ?_ (setLine_in W _ _ l h ?b)
  case b => exact line_line _ _ l
  split
  · exact .refl W s
  · exact releaseOwned_acc W s _ a l R

theorem rangeDiscard_acc (W : Nat → Prop) (s : State) (a : Agent) (l : Nat) (m : BitVec 64) (h : ∀ i, i < 64 → W (64 * l + i)) :
    Accessed W s (s.rangeDiscard a l m) := by
  unfold State.rangeDiscard
  simp only []
  refine Accessed.trans (Accessed.foldl _ _ s fun u i hi => ?_) (setLine_in W _ _ l h ?b)
  case b => exact line_line _ _ l
  exact writePhys_acc W u _ _ (h i ((mem_maskBytes _ _).mp hi).1)

theorem rangeLine_acc (W : Nat → Prop) (s : State) (op : RangeOp) (v : Via) (l : Nat) (m : BitVec 64) (scope : Nat) (scr : Bool)
    (h : ∀ i, i < 64 → W (64 * l + i)) : Accessed W s (s.rangeLine op v l m scope scr) := by
  have disc : ∀ (u : State) (c : Bool) (a : Agent), Accessed W u (if c then u.rangeDiscard a l m else u) := by
    intro u c a
    cases c
    · exact .refl W u
    · exact rangeDiscard_acc W u a l m h
  have rest : ∀ (c d : Bool), Accessed W s (
      let s := if c then s.rangeDiscard (.core v.die v.idx) l m else s
      let s := (s.rangeWbCore v.die v.idx l (wordsToBytes (bytesToWords m))).rangeDrop (.core v.die v.idx) l (bytesToWords m)
      if d then
        let s := if c then s.rangeDiscard (.llc v.die) l m else s
        (s.rangeWbLlc v.die l (wordsToBytes (bytesToWords m))).rangeDrop (.llc v.die) l (bytesToWords m)
      else s) := by
    intro c d
    simp only []
    have h1 := ((disc s c (.core v.die v.idx)).trans (rangeWbCore_acc W _ v.die v.idx l (wordsToBytes (bytesToWords m)) h)).trans
      (rangeDrop_acc W _ (.core v.die v.idx) l (bytesToWords m) h)
    generalize State.rangeDrop _ _ _ _ = u at h1 ⊢
    cases d
    · exact h1
    · exact h1.trans (((disc u c (.llc v.die)).trans (rangeWbLlc_acc W _ v.die l _ h)).trans (rangeDrop_acc W _ _ l _ h))
  unfold State.rangeLine
  cases op
  · simp only []
    have h1 := rangeWbCore_acc W s v.die v.idx l m h
    split
    · exact h1.trans (rangeWbLlc_acc W _ v.die l m h)
    · exact h1
  · exact rest _ _
  · exact rest _ _

theorem rangeStack_acc (W : Nat → Prop) (s : State) (op : RangeOp) (k a n : Nat) (scr : Bool)
    (h : (s.teamAt k).stk ≠ [] → ∀ a, W a) : Stored W s (s.rangeStack op k a n scr) := by
  unfold State.rangeStack
  simp only []
  by_cases he : (s.teamAt k).stk = []
  · rw [he]; exact .refl W s
  · split
    · exact .refl W s
    · exact (setStk_acc W s k _).trans (flushSome_acc W _ k _ (h he))

theorem rangeStack_empty (s : State) (op : RangeOp) (k a n : Nat) (scr : Bool) (h : (s.teamAt k).stk = []) :
    s.rangeStack op k a n scr = s := by
  unfold State.rangeStack
  simp only [h]
  rfl

theorem rangePart_acc (W : Nat → Prop) (s : State) (op : RangeOp) (scope va n : Nat)
    (hW : ∀ pa scr, s.rangePage (s.viaOf s.cur) va = .page pa scr → ∀ i, i < 64 → W (64 * (pa / 64) + i))
    (h : s.team.stk ≠ [] → ∀ a, W a) :
    Stored W s (s.rangePart op scope va n) ∧ (s.team.stk = [] → Accessed W s (s.rangePart op scope va n)) := by
  unfold State.rangePart
  simp only []
  split
  · next pa scr e =>
    have hl := hW pa scr e
    split
    · split
      · exact ⟨.refl W s, fun _ => .refl W s⟩
      · refine ⟨(rangeStack_acc W s op s.cur _ _ scr h).then (rangeLine_acc W _ op _ _ _ 1 scr hl), fun he => ?_⟩
        rw [rangeStack_empty s op s.cur _ _ scr he]
        exact rangeLine_acc W s op _ _ _ 1 scr hl
    · refine ⟨(rangeStack_acc W s op s.cur _ _ scr h).then (rangeLine_acc W _ op _ _ _ scope scr hl), fun he => ?_⟩
      rw [rangeStack_empty s op s.cur _ _ scr he]
      exact rangeLine_acc W s op _ _ _ scope scr hl
  · exact ⟨.refl W s, fun _ => .refl W s⟩

theorem ranges_acc (W : Nat → Prop) (op : RangeOp) (scope : Nat) (ps : List (Nat × Nat)) : ∀ (s : State),
    (∀ a, s.rangeLines op scope ps a → W a) → (s.team.stk ≠ [] → ∀ a, W a) →
    Stored W s (ps.foldl (fun (s : State) x => s.rangePart op scope x.1 x.2) s) := by
  induction ps with
  | nil => intro s _ _; exact .refl W s
  | cons x r ih =>
    intro s hW hs
    rw [List.foldl_cons]
    have h1 := rangePart_acc W s op scope x.1 x.2 (fun pa scr e i hi => hW _ (Or.inl ⟨pa, scr, e, by omega⟩)) hs
    refine h1.1.trans (ih _ (fun a ha => hW a (Or.inr ha)) ?_)
    intro hne a
    by_cases he : s.team.stk = []
    · rw [(h1.2 he).team_eq] at hne; exact absurd he hne
    · exact hs he a

theorem rangeForm_of (p : Option Pfx) (f : LM) :
    (rangeForm p f).Of
      { p := p, srcs := [⟨f.vo.toNat, 1, 1, []⟩, ⟨f.vd.toNat, 1, 2, [13]⟩], dsts := [], tags := [], row := fun _ _ => ⟨[], [], []⟩,
        warn := pfxWarn p { z := false, wa := true, wb := true, scope := true, os := true } ||| wIf (f.pol != 0) wOPND } :=
  memOf _ _ [] [] rfl rfl rfl (by simp) (by simp) rfl rfl rfl rfl rfl rfl

theorem range_done (p : Option Pfx) (op : RangeOp) (f : LM) (s : State) (hr : (rangeForm p f).Ready s.team)
    (hw : ∀ x ∈ rangesOf p f s.team, s.rangePage (s.viaOf s.cur) x.1 ≠ .wait)
    (hk : s.rangeStop s.cur (rangesOf p f s.team) = none) :
    Stored (fun a => s.rangeLines op (pscope p) (rangesOf p f s.team) a ∨ s.team.stk ≠ []) s (s.ranged op p f) ∧
    ((rangeForm p f).plus (wIf (s.rangeWarns op p f) wDISC)).Done (s.ranged op p f) (fun _ _ => 0) (rangeLane p op f s) := by
  have of := rangeForm_of p f
  have h1 := ranges_acc (fun a => s.rangeLines op (pscope p) (rangesOf p f s.team) a ∨ s.team.stk ≠ []) op (pscope p)
    (rangesOf p f s.team) s (fun _ h => Or.inl h) fun h _ => Or.inr h
  refine ⟨h1, ?_⟩
  unfold rangeLane
  simp only []
  rw [show pfxOk p = true from hr.prefixOk, memLane_ready of hr]
  have hn : (((rangesOf p f s.team).map fun x => (x, s.rangePage (s.viaOf s.cur) x.1)).any fun x => match x.2 with
        | .wait => true
        | _ => false) = false := by
    rw [List.any_eq_false]
    intro y hy
    obtain ⟨x, hx, rfl⟩ := List.mem_map.mp hy
    have := hw x hx
    revert this
    cases s.rangePage (s.viaOf s.cur) x.1 <;> simp
  show LaneForm.Done _ _ _ (if (((rangesOf p f s.team).map fun x => (x, s.rangePage (s.viaOf s.cur) x.1)).any fun x => match x.2 with
        | .wait => true
        | _ => false) = true then _ else _)
  rw [if_neg (by rw [hn]; simp)]
  have hk' : s.rangeStop s.cur ((s.team.actors (rangeForm p f).p).flatMap fun l =>
      rangeParts (addrVec p f s.team l) (s.team.v f.vd.toNat l).toNat) = none := hk
  show LaneForm.Done _ _ _ (match s.rangeStop s.cur ((s.team.actors (rangeForm p f).p).flatMap fun l =>
      rangeParts (addrVec p f s.team l) (s.team.v f.vd.toNat l).toNat) with
    | some e => _
    | none => _)
  rw [hk']
  exact finishMem_done of rfl rfl rfl _ (by rw [show (s.ranged op p f).team = _ from h1.team_eq]; exact hr.fresh.2.2.1) _

end Sys2Proof.Machine
end

