-- ==== Sys2Proof/Tests/Slice0.lean ====
section
/-! SUPPORT. Decode tests from words written out bit by bit, an ill-formed term for each check, small one-step tests with
results from the spec's worked cases, and a witness for the hypotheses of every obligation. -/

open Sys2Proof Sys2Proof.Machine
open Sys2Proof.Machine.State (reset)

namespace Sys2Proof.Tests

set_option Elab.async false

/-! ### Helpers -/

/-- Four bytes read as one instruction of four bytes. -/
def reads (w : Word32) (i : Instr) : Prop := decodeWords w 0 = .ok (i, 4)

/-- A device with one resident team at PC 0x100000 and an address space whose first gigabyte is mapped. -/
def S0 : State := reset.withFetchWord 32 0

/-- That team with lane 0 alone executing and 0x200000 in s5 and s6. -/
def T1 : Team :=
  { fetchTeam 0 with div := [⟨0x100000, 1, noAddr⟩], sreg := [(5, 0x200000), (6, 0x200000), (63, 0x200000)] }

def S1 : State := S0.withTeam T1

theorem S1_team : S1.team = T1 := rfl

/-- The device with another team in its place. -/
def on (t : Team) : State := S0.withTeam t

theorem on_team (t : Team) : (on t).team = t := rfl

/-- The next state, where there is one. -/
def next? (o : Out) : Option State :=
  match o with
  | .next s => some s
  | _ => none

/-- What a test asks of the next state, false where there is none. -/
def after (o : Out) (f : State → Bool) : Bool :=
  match o with
  | .next s => f s
  | _ => false

theorem ok_of {ε α : Type} (x : Except ε α) (h : x.isOk = true) : ∃ a, x = .ok a := by
  cases x with
  | ok a => exact ⟨a, rfl⟩
  | error e => cases h

theorem error_of {ε α : Type} (x : Except ε α) (h : x.isOk = false) : ∃ e, x = .error e := by
  cases x with
  | ok a => cases h
  | error e => exact ⟨e, rfl⟩

theorem some_of {α : Type} (x : Option α) (h : x.isSome = true) : ∃ a, x = some a := by
  cases x with
  | some a => exact ⟨a, rfl⟩
  | none => cases h

/-- What makes a form execute normally on T1, whose registers are full, below 128 and tagged RAW. -/
def plain (x : LaneForm) : Bool :=
  pfxOk x.p && x.even && x.srcs.all (fun a => decide (a.1 + a.2.1 ≤ 128)) && x.dst.all fun r => decide (r < 128)

theorem row_full (w : Nat) : (0 : BitVec 32).getLsbD w = false := by simp

theorem plain_ready (x : LaneForm) (h : plain x = true) : x.Ready S1.team := by
  simp only [plain, Bool.and_eq_true, List.all_eq_true, decide_eq_true_eq] at h
  obtain ⟨⟨⟨h1, h2⟩, h3⟩, h4⟩ := h
  rw [S1_team]
  exact ⟨h1, h2, by decide +kernel, by decide +kernel, by decide +kernel, h3, h4, fun _ _ _ _ w _ => row_full w,
    fun _ _ w _ => row_full w, fun _ => ⟨fun _ _ _ _ => .inr (.inl rfl), fun _ _ _ _ => .inl rfl⟩⟩

/-! ### Decoding -/

theorem test_decode_lane_01 :
    reads (0b0_000001_000_0101101_1101011_1011010_1) (.addI32 none ⟨45, 107, 90, 1⟩) ∧
    reads (0b0_000001_001_0101101_1101011_1011010_1) (.subI32 none ⟨45, 107, 90, 1⟩) ∧
    reads (0b0_000001_010_0101101_1101011_1011010_1) (.mulI32 none ⟨45, 107, 90, 1⟩) ∧
    reads (0b0_000001_011_0101101_1101011_1011010_1) (.mulhI32 none ⟨45, 107, 90, 1⟩) ∧
    reads (0b0_000001_100_0101101_1101011_1011010_1) (.minI32 none ⟨45, 107, 90, 1⟩) ∧
    reads (0b0_000001_101_0101101_1101011_1011010_1) (.maxI32 none ⟨45, 107, 90, 1⟩) ∧
    reads (0b0_000001_110_0101101_1101011_1011010_1) (.addsI32 none ⟨45, 107, 90, 1⟩) ∧
    reads (0b0_000001_111_0101101_1101011_1011010_1) (.subsI32 none ⟨45, 107, 90, 1⟩) := by
  and_intros <;> rfl

theorem test_decode_lane_02 :
    reads (0b0_000010_000_0101101_1101011_1011010_1) (.addN32 none ⟨45, 107, 90, 1⟩) ∧
    reads (0b0_000010_001_0101101_1101011_1011010_1) (.subN32 none ⟨45, 107, 90, 1⟩) ∧
    reads (0b0_000010_010_0101101_1101011_1011010_1) (.mulN32 none ⟨45, 107, 90, 1⟩) ∧
    reads (0b0_000010_011_0101101_1101011_1011010_1) (.mulhN32 none ⟨45, 107, 90, 1⟩) ∧
    reads (0b0_000010_100_0101101_1101011_1011010_1) (.minN32 none ⟨45, 107, 90, 1⟩) ∧
    reads (0b0_000010_101_0101101_1101011_1011010_1) (.maxN32 none ⟨45, 107, 90, 1⟩) ∧
    reads (0b0_000010_110_0101101_1101011_1011010_1) (.addsN32 none ⟨45, 107, 90, 1⟩) ∧
    reads (0b0_000010_111_0101101_1101011_1011010_1) (.subsN32 none ⟨45, 107, 90, 1⟩) := by
  and_intros <;> rfl

theorem test_decode_lane_03 :
    reads (0b0_000011_000_0101101_1101011_1011010_1) (.addI16 none ⟨45, 107, 90, 1⟩) ∧
    reads (0b0_000011_001_0101101_1101011_1011010_1) (.subI16 none ⟨45, 107, 90, 1⟩) ∧
    reads (0b0_000011_010_0101101_1101011_1011010_1) (.mulI16 none ⟨45, 107, 90, 1⟩) ∧
    reads (0b0_000011_011_0101101_1101011_1011010_1) (.mulhI16 none ⟨45, 107, 90, 1⟩) ∧
    reads (0b0_000011_100_0101101_1101011_1011010_1) (.minI16 none ⟨45, 107, 90, 1⟩) ∧
    reads (0b0_000011_101_0101101_1101011_1011010_1) (.maxI16 none ⟨45, 107, 90, 1⟩) ∧
    reads (0b0_000011_110_0101101_1101011_1011010_1) (.addsI16 none ⟨45, 107, 90, 1⟩) ∧
    reads (0b0_000011_111_0101101_1101011_1011010_1) (.subsI16 none ⟨45, 107, 90, 1⟩) := by
  and_intros <;> rfl

theorem test_decode_lane_04 :
    reads (0b0_000100_000_0101101_1101011_1011010_1) (.addN16 none ⟨45, 107, 90, 1⟩) ∧
    reads (0b0_000100_001_0101101_1101011_1011010_1) (.subN16 none ⟨45, 107, 90, 1⟩) ∧
    reads (0b0_000100_010_0101101_1101011_1011010_1) (.mulN16 none ⟨45, 107, 90, 1⟩) ∧
    reads (0b0_000100_011_0101101_1101011_1011010_1) (.mulhN16 none ⟨45, 107, 90, 1⟩) ∧
    reads (0b0_000100_100_0101101_1101011_1011010_1) (.minN16 none ⟨45, 107, 90, 1⟩) ∧
    reads (0b0_000100_101_0101101_1101011_1011010_1) (.maxN16 none ⟨45, 107, 90, 1⟩) ∧
    reads (0b0_000100_110_0101101_1101011_1011010_1) (.addsN16 none ⟨45, 107, 90, 1⟩) ∧
    reads (0b0_000100_111_0101101_1101011_1011010_1) (.subsN16 none ⟨45, 107, 90, 1⟩) := by
  and_intros <;> rfl

theorem test_decode_lane_05 :
    reads (0b0_000101_000_0101101_1101011_1011010_1) (.andB32 none ⟨45, 107, 90, 1⟩) ∧
    reads (0b0_000101_001_0101101_1101011_1011010_1) (.orB32 none ⟨45, 107, 90, 1⟩) ∧
    reads (0b0_000101_010_0101101_1101011_1011010_1) (.xorB32 none ⟨45, 107, 90, 1⟩) ∧
    reads (0b0_000101_011_0101101_1101011_1011010_1) (.andnB32 none ⟨45, 107, 90, 1⟩) ∧
    reads (0b0_000101_100_0101101_1101011_1011010_1) (.shlB32 none ⟨45, 107, 90, 1⟩) ∧
    reads (0b0_000101_101_0101101_1101011_1011010_1) (.shrB32 none ⟨45, 107, 90, 1⟩) ∧
    reads (0b0_000101_110_0101101_1101011_1011010_1) (.sraB32 none ⟨45, 107, 90, 1⟩) ∧
    reads (0b0_000101_111_0101101_1101011_1011010_1) (.rolB32 none ⟨45, 107, 90, 1⟩) := by
  and_intros <;> rfl

theorem test_decode_lane_06 :
    reads (0b0_000110_000_0101101_1101011_0000000_1) (.notB none ⟨45, 107, 0, 1⟩) ∧
    reads (0b0_000110_001_0101101_1101011_0000000_1) (.popc none ⟨45, 107, 0, 1⟩) ∧
    reads (0b0_000110_010_0101101_1101011_0000000_1) (.clz none ⟨45, 107, 0, 1⟩) ∧
    reads (0b0_000110_011_0101101_1101011_0000000_1) (.ctz none ⟨45, 107, 0, 1⟩) ∧
    reads (0b0_000110_100_0101101_1101011_0000000_1) (.brev none ⟨45, 107, 0, 1⟩) ∧
    reads (0b0_000110_101_0101101_1101011_0000000_1) (.iabs none ⟨45, 107, 0, 1⟩) ∧
    reads (0b0_000110_110_0101101_1101011_0000000_1) (.ineg none ⟨45, 107, 0, 1⟩) := by
  and_intros <;> rfl

theorem test_decode_lane_07 :
    reads (0b0_000111_000_0101101_1101011_1011010_1) (.icmpEq none ⟨45, 107, 90, 1⟩) ∧
    reads (0b0_000111_001_0101101_1101011_1011010_1) (.icmpNe none ⟨45, 107, 90, 1⟩) ∧
    reads (0b0_000111_010_0101101_1101011_1011010_1) (.icmpLtI none ⟨45, 107, 90, 1⟩) ∧
    reads (0b0_000111_011_0101101_1101011_1011010_1) (.icmpLeI none ⟨45, 107, 90, 1⟩) ∧
    reads (0b0_000111_100_0101101_1101011_1011010_1) (.icmpLtN none ⟨45, 107, 90, 1⟩) ∧
    reads (0b0_000111_101_0101101_1101011_1011010_1) (.icmpLeN none ⟨45, 107, 90, 1⟩) ∧
    reads (0b0_000111_110_0101101_1101011_1011010_1) (.selLane none ⟨45, 107, 90, 1⟩) := by
  and_intros <;> rfl

theorem test_decode_lane_08 :
    reads (0b0_001000_000_0101101_1101011_01011010) (.addImm none ⟨45, 107, 90⟩) ∧
    reads (0b0_001000_001_0101101_1101011_01011010) (.mulImm none ⟨45, 107, 90⟩) ∧
    reads (0b0_001000_010_0101101_1101011_01011010) (.andImm none ⟨45, 107, 90⟩) ∧
    reads (0b0_001000_011_0101101_1101011_01011010) (.orImm none ⟨45, 107, 90⟩) ∧
    reads (0b0_001000_100_0101101_1101011_01011010) (.xorImm none ⟨45, 107, 90⟩) ∧
    reads (0b0_001000_101_0101101_1101011_00011010) (.shlImm none ⟨45, 107, 26⟩) ∧
    reads (0b0_001000_110_0101101_1101011_00011010) (.shrImm none ⟨45, 107, 26⟩) ∧
    reads (0b0_001000_111_0101101_1101011_00011010) (.sraImm none ⟨45, 107, 26⟩) := by
  and_intros <;> rfl

theorem test_decode_lane_09 :
    reads (0b0_001001_000_0101101_1101011_01011010) (.icmpEqImm none ⟨45, 107, 90⟩) ∧
    reads (0b0_001001_001_0101101_1101011_01011010) (.icmpNeImm none ⟨45, 107, 90⟩) ∧
    reads (0b0_001001_010_0101101_1101011_01011010) (.icmpLtImm none ⟨45, 107, 90⟩) ∧
    reads (0b0_001001_011_0101101_1101011_01011010) (.icmpLeImm none ⟨45, 107, 90⟩) ∧
    reads (0b0_001001_100_0101101_1101011_01011010) (.icmpGtImm none ⟨45, 107, 90⟩) ∧
    reads (0b0_001001_101_0101101_1101011_01011010) (.icmpGeImm none ⟨45, 107, 90⟩) ∧
    reads (0b0_001001_110_0101101_0000000_01101011) (.movi none ⟨45, 0, 107⟩) := by
  and_intros <;> rfl

theorem test_decode_lane_10 :
    reads (0b0_010000_000_0101101_1101011_1011010_1) (.fadd none ⟨45, 107, 90, 1⟩) ∧
    reads (0b0_010000_001_0101101_1101011_1011010_1) (.fsub none ⟨45, 107, 90, 1⟩) ∧
    reads (0b0_010000_010_0101101_1101011_1011010_1) (.fmul none ⟨45, 107, 90, 1⟩) ∧
    reads (0b0_010000_011_0101101_1101011_1011010_1) (.fma none ⟨45, 107, 90, 1⟩) ∧
    reads (0b0_010000_100_0101101_1101011_1011010_1) (.fmin none ⟨45, 107, 90, 1⟩) ∧
    reads (0b0_010000_101_0101101_1101011_1011010_1) (.fmax none ⟨45, 107, 90, 1⟩) ∧
    reads (0b0_010000_110_0101101_1101011_0000000_1) (.fabs none ⟨45, 107, 0, 1⟩) ∧
    reads (0b0_010000_111_0101101_1101011_0000000_1) (.fneg none ⟨45, 107, 0, 1⟩) := by
  and_intros <;> rfl

theorem test_decode_lane_11 :
    reads (0b0_010001_000_0101101_1101011_1011010_1) (.faddBf16 none ⟨45, 107, 90, 1⟩) ∧
    reads (0b0_010001_001_0101101_1101011_1011010_1) (.fsubBf16 none ⟨45, 107, 90, 1⟩) ∧
    reads (0b0_010001_010_0101101_1101011_1011010_1) (.fmulBf16 none ⟨45, 107, 90, 1⟩) ∧
    reads (0b0_010001_011_0101101_1101011_1011010_1) (.fmaBf16 none ⟨45, 107, 90, 1⟩) ∧
    reads (0b0_010001_100_0101101_1101011_1011010_1) (.fminBf16 none ⟨45, 107, 90, 1⟩) ∧
    reads (0b0_010001_101_0101101_1101011_1011010_1) (.fmaxBf16 none ⟨45, 107, 90, 1⟩) ∧
    reads (0b0_010001_110_0101101_1101011_0000000_1) (.fabsBf16 none ⟨45, 107, 0, 1⟩) ∧
    reads (0b0_010001_111_0101101_1101011_0000000_1) (.fnegBf16 none ⟨45, 107, 0, 1⟩) := by
  and_intros <;> rfl

theorem test_decode_lane_12 :
    reads (0b0_010010_000_0101101_1101011_1011010_1) (.fcmpEq none ⟨45, 107, 90, 1⟩) ∧
    reads (0b0_010010_001_0101101_1101011_1011010_1) (.fcmpNe none ⟨45, 107, 90, 1⟩) ∧
    reads (0b0_010010_010_0101101_1101011_1011010_1) (.fcmpLt none ⟨45, 107, 90, 1⟩) ∧
    reads (0b0_010010_011_0101101_1101011_1011010_1) (.fcmpLe none ⟨45, 107, 90, 1⟩) ∧
    reads (0b0_010010_100_0101101_1101011_1011010_1) (.fcmpGt none ⟨45, 107, 90, 1⟩) ∧
    reads (0b0_010010_101_0101101_1101011_1011010_1) (.fcmpGe none ⟨45, 107, 90, 1⟩) ∧
    reads (0b0_010010_110_0101101_1101011_1011010_1) (.fcmpUn none ⟨45, 107, 90, 1⟩) ∧
    reads (0b0_010010_111_0101101_1101011_0000000_1) (.fclass none ⟨45, 107, 0, 1⟩) := by
  and_intros <;> rfl

theorem test_decode_lane_13 :
    reads (0b0_010011_000_0101101_1101011_1011010_1) (.faddx none ⟨45, 107, 90, 1⟩) ∧
    reads (0b0_010011_001_0101101_1101011_1011010_1) (.fsubx none ⟨45, 107, 90, 1⟩) ∧
    reads (0b0_010011_010_0101101_1101011_1011010_1) (.fmulx none ⟨45, 107, 90, 1⟩) ∧
    reads (0b0_010011_011_0101101_1101011_1011010_1) (.dwadd none ⟨45, 107, 90, 1⟩) ∧
    reads (0b0_010011_100_0101101_1101011_1011010_1) (.dwmul none ⟨45, 107, 90, 1⟩) ∧
    reads (0b0_010011_101_0101101_1101011_1011010_1) (.dwfma none ⟨45, 107, 90, 1⟩) ∧
    reads (0b0_010011_110_0101101_1101011_1011010_1) (.dwdiv none ⟨45, 107, 90, 1⟩) ∧
    reads (0b0_010011_111_0101101_1101011_0000000_1) (.dwsqrt none ⟨45, 107, 0, 1⟩) := by
  and_intros <;> rfl

theorem test_decode_lane_14 :
    reads (0b0_010100_000_0101101_1101011_0000000_1) (.rcp none ⟨45, 107, 0, 1⟩) ∧
    reads (0b0_010100_001_0101101_1101011_0000000_1) (.rsq none ⟨45, 107, 0, 1⟩) ∧
    reads (0b0_010100_010_0101101_1101011_0000000_1) (.exp2 none ⟨45, 107, 0, 1⟩) ∧
    reads (0b0_010100_011_0101101_1101011_0000000_1) (.log2 none ⟨45, 107, 0, 1⟩) ∧
    reads (0b0_010100_100_0101101_1101011_0000000_1) (.sin none ⟨45, 107, 0, 1⟩) ∧
    reads (0b0_010100_101_0101101_1101011_0000000_1) (.cos none ⟨45, 107, 0, 1⟩) := by
  and_intros <;> rfl

theorem test_decode_lane_15 :
    reads (0b0_010101_000_0101101_1101011_0000000_1) (.gelu none ⟨45, 107, 0, 1⟩) ∧
    reads (0b0_010101_001_0101101_1101011_0000000_1) (.silu none ⟨45, 107, 0, 1⟩) ∧
    reads (0b0_010101_010_0101101_1101011_0000000_1) (.splus none ⟨45, 107, 0, 1⟩) ∧
    reads (0b0_010101_011_0101101_1101011_0000000_1) (.tanh none ⟨45, 107, 0, 1⟩) ∧
    reads (0b0_010101_100_0101101_1101011_0000000_1) (.sigm none ⟨45, 107, 0, 1⟩) := by
  and_intros <;> rfl

theorem test_decode_lane_16 :
    reads (0b0_010110_101_1101011_1011010_0110101_1) (.cvt none 5 ⟨107, 90, 53, 1⟩) := by
  rfl

theorem test_decode_lane_18 :
    reads (0b0_011000_000_0101101_1101011_0000000_1) (.mov none ⟨45, 107, 0, 1⟩) ∧
    reads (0b0_011000_001_0101101_0101011_0000000_1) (.movs none ⟨45, 43, 0, 1⟩) ∧
    reads (0b0_011000_010_0101101_1101011_0000000_1) (.movx none ⟨45, 107, 0, 1⟩) ∧
    reads (0b0_011000_011_0101101_0000000_0000000_0) (.idx none ⟨45, 0, 0, 0⟩) ∧
    reads (0b0_011000_100_0101101_1101011_0000000_1) (.ballot none ⟨45, 107, 0, 1⟩) ∧
    reads (0b0_011000_101_0101101_1101011_0000000_1) (.cred none ⟨45, 107, 0, 1⟩) ∧
    reads (0b0_011000_110_0101101_1101011_0000000_1) (.tcred none ⟨45, 107, 0, 1⟩) := by
  and_intros <;> rfl

theorem test_decode_lane_19 :
    reads (0b0_011001_000_0101101_1101011_1011010_1) (.shflIdx none ⟨45, 107, 90, 1⟩) ∧
    reads (0b0_011001_001_0101101_1101011_1011010_1) (.shflXor none ⟨45, 107, 90, 1⟩) ∧
    reads (0b0_011001_010_0101101_1101011_1011010_1) (.shflUp none ⟨45, 107, 90, 1⟩) ∧
    reads (0b0_011001_011_0101101_1101011_1011010_1) (.shflDn none ⟨45, 107, 90, 1⟩) ∧
    reads (0b0_011001_100_0101101_1101011_1011010_1) (.pshw none ⟨45, 107, 90, 1⟩) ∧
    reads (0b0_011001_101_0101101_1101011_0000000_1) (.voteAny none ⟨45, 107, 0, 1⟩) ∧
    reads (0b0_011001_110_0101101_1101011_0000000_1) (.voteAll none ⟨45, 107, 0, 1⟩) ∧
    reads (0b0_011001_111_0101101_1101011_1011010_1) (.voteEq none ⟨45, 107, 90, 1⟩) := by
  and_intros <;> rfl

theorem test_decode_lane_20 :
    reads (0b0_100001_101_1101011_011010_1010110_01) (.ld none 13 ⟨107, 26, 86, 1⟩) := by
  rfl

theorem test_decode_lane_22 :
    reads (0b0_100011_101_1101011_011010_1010110_01) (.st none 13 ⟨107, 26, 86, 1⟩) := by
  rfl

theorem test_decode_lane_24 :
    reads (0b0_100101_101_1101011_011010_1010110_01) (.ldImm none 13 ⟨107, 26, 86, 1⟩) := by
  rfl

theorem test_decode_lane_26 :
    reads (0b0_100111_101_1101011_011010_1010110_01) (.stImm none 13 ⟨107, 26, 86, 1⟩) := by
  rfl

theorem test_decode_lane_28 :
    reads (0b0_101000_101_1101011_011010_1010110_01) (.ldAcq none 5 ⟨107, 26, 86, 1⟩) := by
  rfl

theorem test_decode_lane_29 :
    reads (0b0_101001_101_1101011_011010_1010110_01) (.stRel none 5 ⟨107, 26, 86, 1⟩) := by
  rfl

theorem test_decode_lane_2A :
    reads (0b0_101010_101_1101011_011010_1010110_01) (.ldb none 5 ⟨107, 26, 86, 1⟩) := by
  rfl

theorem test_decode_lane_2B :
    reads (0b0_101011_101_1101011_011010_1010110_01) (.ldw none 5 ⟨107, 26, 86, 1⟩) := by
  rfl

theorem test_decode_lane_2C :
    reads (0b0_101100_101_1101011_011010_1010110_01) (.ldt none 5 ⟨107, 26, 86, 1⟩) := by
  rfl

theorem test_decode_lane_2D :
    reads (0b0_101101_101_1101011_011010_1010110_01) (.atomI32 none 5 ⟨107, 26, 86, 1⟩) := by
  rfl

theorem test_decode_lane_2E :
    reads (0b0_101110_101_1101011_011010_1010110_01) (.atomN32 none 5 ⟨107, 26, 86, 1⟩) := by
  rfl

theorem test_decode_lane_2F :
    reads (0b0_101111_101_1101011_011010_1010110_01) (.atomI64 none 5 ⟨107, 26, 86, 1⟩) := by
  rfl

theorem test_decode_lane_30 :
    reads (0b0_110000_101_1101011_011010_1010110_01) (.atomN64 none 5 ⟨107, 26, 86, 1⟩) := by
  rfl

theorem test_decode_lane_31 :
    reads (0b0_110001_001_1101011_011010_1010110_01) (.fxacc none 1 ⟨107, 26, 86, 1⟩) ∧
    reads (0b0_110001_101_1101011_011010_1010110_01) (.fxrd none 1 ⟨107, 26, 86, 1⟩) := by
  and_intros <;> rfl

theorem test_decode_lane_32 :
    reads (0b0_110010_000_0101101_101011_1011010_00) (.rwb none ⟨45, 43, 90, 0⟩) ∧
    reads (0b0_110010_001_0101101_101011_1011010_00) (.rinv none ⟨45, 43, 90, 0⟩) ∧
    reads (0b0_110010_010_0101101_101011_1011010_00) (.rdisc none ⟨45, 43, 90, 0⟩) := by
  and_intros <;> rfl

theorem test_decode_lane_33 :
    reads (0b0_110011_000_0101101_101011_0110100_00) (.decode none ⟨45, 43, 52, 0⟩) := by
  rfl

theorem test_decode_lane_34 :
    reads (0b0_110100_000_0101101_101011_1011010_10) (.vsampNear none ⟨45, 43, 90, 2⟩) ∧
    reads (0b0_110100_001_0101101_101011_1011010_10) (.vsampTri none ⟨45, 43, 90, 2⟩) := by
  and_intros <;> rfl

theorem test_decode_lane_35 :
    reads (0b0_110101_000_0101101_101011_1011010_10) (.rbox none ⟨45, 43, 90, 2⟩) ∧
    reads (0b0_110101_001_0101101_101011_1011010_10) (.rboxIdx none ⟨45, 43, 90, 2⟩) := by
  and_intros <;> rfl

theorem test_decode_uniform_01 :
    reads (0b1_000001_000_101101_101011_011010_0000) (.scalarAdd ⟨45, 43, 26, 0⟩) ∧
    reads (0b1_000001_001_101101_101011_011010_0000) (.scalarSub ⟨45, 43, 26, 0⟩) ∧
    reads (0b1_000001_010_101101_101011_011010_0000) (.scalarMul ⟨45, 43, 26, 0⟩) ∧
    reads (0b1_000001_011_101101_101011_011010_0000) (.mulhI64 ⟨45, 43, 26, 0⟩) ∧
    reads (0b1_000001_100_101101_101011_011010_0000) (.mulhN64 ⟨45, 43, 26, 0⟩) ∧
    reads (0b1_000001_101_101101_101011_011010_0000) (.divI64 ⟨45, 43, 26, 0⟩) ∧
    reads (0b1_000001_110_101101_101011_011010_0000) (.divN64 ⟨45, 43, 26, 0⟩) ∧
    reads (0b1_000001_111_101101_101011_011010_0000) (.remI64 ⟨45, 43, 26, 0⟩) := by
  and_intros <;> rfl

theorem test_decode_uniform_02 :
    reads (0b1_000010_000_101101_101011_011010_0000) (.remN64 ⟨45, 43, 26, 0⟩) ∧
    reads (0b1_000010_001_101101_101011_011010_0000) (.minI64 ⟨45, 43, 26, 0⟩) ∧
    reads (0b1_000010_010_101101_101011_011010_0000) (.minN64 ⟨45, 43, 26, 0⟩) ∧
    reads (0b1_000010_011_101101_101011_011010_0000) (.maxI64 ⟨45, 43, 26, 0⟩) ∧
    reads (0b1_000010_100_101101_101011_011010_0000) (.maxN64 ⟨45, 43, 26, 0⟩) ∧
    reads (0b1_000010_101_101101_101011_011010_0110) (.scalarIcmp ⟨45, 43, 26, 6⟩) ∧
    reads (0b1_000010_110_101101_101011_011010_0110) (.scalarSel ⟨45, 43, 26, 6⟩) := by
  and_intros <;> rfl

theorem test_decode_uniform_03 :
    reads (0b1_000011_000_101101_101011_011010_0000) (.scalarAnd ⟨45, 43, 26, 0⟩) ∧
    reads (0b1_000011_001_101101_101011_011010_0000) (.scalarOr ⟨45, 43, 26, 0⟩) ∧
    reads (0b1_000011_010_101101_101011_011010_0000) (.scalarXor ⟨45, 43, 26, 0⟩) ∧
    reads (0b1_000011_011_101101_101011_011010_0000) (.scalarAndn ⟨45, 43, 26, 0⟩) ∧
    reads (0b1_000011_100_101101_101011_011010_0000) (.scalarShl ⟨45, 43, 26, 0⟩) ∧
    reads (0b1_000011_101_101101_101011_011010_0000) (.scalarShr ⟨45, 43, 26, 0⟩) ∧
    reads (0b1_000011_110_101101_101011_011010_0000) (.scalarSra ⟨45, 43, 26, 0⟩) ∧
    reads (0b1_000011_111_101101_101011_011010_0000) (.scalarRol ⟨45, 43, 26, 0⟩) := by
  and_intros <;> rfl

theorem test_decode_uniform_04 :
    reads (0b1_000100_000_101101_0010110101101011) (.scalarAddImm ⟨45, 11627⟩) ∧
    reads (0b1_000100_001_101101_0010110101101011) (.scalarMulImm ⟨45, 11627⟩) ∧
    reads (0b1_000100_010_101101_0010110101101011) (.scalarAndImm ⟨45, 11627⟩) ∧
    reads (0b1_000100_011_101101_0010110101101011) (.scalarOrImm ⟨45, 11627⟩) ∧
    reads (0b1_000100_100_101101_0010110101101011) (.scalarXorImm ⟨45, 11627⟩) ∧
    reads (0b1_000100_101_101101_0000000000101011) (.scalarShlImm ⟨45, 43⟩) ∧
    reads (0b1_000100_110_101101_0000000000101011) (.scalarShrImm ⟨45, 43⟩) ∧
    reads (0b1_000100_111_101101_0000000000101011) (.scalarSraImm ⟨45, 43⟩) := by
  and_intros <;> rfl

theorem test_decode_uniform_05 :
    reads (0b1_000101_000_101101_0010110101101011) (.movl ⟨45, 11627⟩) ∧
    reads (0b1_000101_001_101101_0010110101101011) (.movhH1 ⟨45, 11627⟩) ∧
    reads (0b1_000101_010_101101_0010110101101011) (.movhH2 ⟨45, 11627⟩) ∧
    reads (0b1_000101_011_101101_0010110101101011) (.movhH3 ⟨45, 11627⟩) := by
  and_intros <;> rfl

theorem test_decode_uniform_06 :
    reads (0b1_000110_000_101101_101011_000000_0000) (.scalarMov ⟨45, 43, 0, 0⟩) ∧
    reads (0b1_000110_001_101101_101011_000000_0000) (.scalarNot ⟨45, 43, 0, 0⟩) ∧
    reads (0b1_000110_010_101101_101011_000000_0000) (.scalarPopc ⟨45, 43, 0, 0⟩) ∧
    reads (0b1_000110_011_101101_101011_000000_0000) (.scalarClz ⟨45, 43, 0, 0⟩) ∧
    reads (0b1_000110_100_101101_101011_000000_0000) (.scalarCtz ⟨45, 43, 0, 0⟩) ∧
    reads (0b1_000110_101_101101_101011_000000_0000) (.scalarBrev ⟨45, 43, 0, 0⟩) := by
  and_intros <;> rfl

theorem test_decode_uniform_07 :
    reads (0b1_000111_000_101101_0000110101101011) (.csrr ⟨45, 3435⟩) ∧
    reads (0b1_000111_001_101101_0000110101101011) (.csrw ⟨45, 3435⟩) := by
  and_intros <;> rfl

theorem test_decode_uniform_08 :
    reads (0b1_001000_101_101011_011010_100101_0111) (.scalarLd 5 ⟨43, 26, 37, 7⟩) := by
  rfl

theorem test_decode_uniform_09 :
    reads (0b1_001001_101_101011_011010_100101_0111) (.scalarSt 5 ⟨43, 26, 37, 7⟩) := by
  rfl

theorem test_decode_uniform_0A :
    reads (0b1_001010_000_101101_101011_010000_1001) (.scalarAtomAdd ⟨45, 43, 16, 9⟩) ∧
    reads (0b1_001010_001_101101_101011_010000_1001) (.scalarAtomMin ⟨45, 43, 16, 9⟩) ∧
    reads (0b1_001010_010_101101_101011_010000_1001) (.scalarAtomMax ⟨45, 43, 16, 9⟩) ∧
    reads (0b1_001010_011_101101_101011_010000_1001) (.scalarAtomAnd ⟨45, 43, 16, 9⟩) ∧
    reads (0b1_001010_100_101101_101011_010000_1001) (.scalarAtomOr ⟨45, 43, 16, 9⟩) ∧
    reads (0b1_001010_101_101101_101011_010000_1001) (.scalarAtomXor ⟨45, 43, 16, 9⟩) ∧
    reads (0b1_001010_110_101101_101011_010000_1001) (.scalarAtomXchg ⟨45, 43, 16, 9⟩) ∧
    reads (0b1_001010_111_101101_101011_010000_1001) (.scalarAtomCas ⟨45, 43, 16, 9⟩) := by
  and_intros <;> rfl

theorem test_decode_uniform_10 :
    reads (0b1_010000_000_0000_001011010110101101) (.bra ⟨0, 46509⟩) ∧
    reads (0b1_010000_001_1101_000010110101101011) (.brcEqz ⟨13, 11627⟩) ∧
    reads (0b1_010000_010_1101_000010110101101011) (.brcNez ⟨13, 11627⟩) ∧
    reads (0b1_010000_011_1101_000010110101101011) (.brcLtz ⟨13, 11627⟩) ∧
    reads (0b1_010000_100_1101_000010110101101011) (.brcGez ⟨13, 11627⟩) := by
  and_intros <;> rfl

theorem test_decode_uniform_11 :
    reads (0b1_010001_000_1101_000010110101101011) (.brv ⟨13, 11627⟩) ∧
    reads (0b1_010001_001_1101_000010110101101011) (.brvAny ⟨13, 11627⟩) ∧
    reads (0b1_010001_010_1101_000010110101101011) (.brvAll ⟨13, 11627⟩) ∧
    reads (0b1_010001_011_1101_000010110101101011) (.brvNone ⟨13, 11627⟩) := by
  and_intros <;> rfl

theorem test_decode_uniform_12 :
    reads (0b1_010010_000_0000_001011010110101101) (.call ⟨0, 46509⟩) := by
  rfl

theorem test_decode_uniform_13 :
    reads (0b1_010011_000_0000_001011010110101101) (.recMark ⟨0, 46509⟩) := by
  rfl

theorem test_decode_uniform_14 :
    reads (0b1_010100_000_000000_000000_000000_0000) (.ret) ∧
    reads (0b1_010100_001_000000_101101_000000_0000) (.callr) ∧
    reads (0b1_010100_010_000000_101101_000000_0000) (.jmpr) ∧
    reads (0b1_010100_011_000000_000000_000000_0000) (.join) ∧
    reads (0b1_010100_100_000000_000000_000000_0000) (.endTeam) ∧
    reads (0b1_010100_101_000000_000000_000000_0000) (.yield) ∧
    reads (0b1_010100_110_000000_000000_000000_0000) (.rft) := by
  and_intros <;> rfl

theorem test_decode_uniform_15 :
    reads (0b1_010101_000_000000_1011010110101101) (.trapCode) := by
  rfl

theorem test_decode_uniform_16 :
    reads (0b1_010110_000_000000_0000000000101101) (.callv) := by
  rfl

theorem test_decode_uniform_17 :
    reads (0b1_010111_000_101101_101011_011010_0000) (.setmAnd ⟨45, 43, 26, 0⟩) ∧
    reads (0b1_010111_001_101101_101011_011010_0000) (.setmOr ⟨45, 43, 26, 0⟩) ∧
    reads (0b1_010111_010_101101_101011_011010_0000) (.setmXor ⟨45, 43, 26, 0⟩) ∧
    reads (0b1_010111_011_101101_101011_011010_0000) (.setmAndn ⟨45, 43, 26, 0⟩) ∧
    reads (0b1_010111_100_101101_101011_011010_0000) (.setmNot ⟨45, 43, 26, 0⟩) ∧
    reads (0b1_010111_101_101101_101011_011010_0000) (.setmMov ⟨45, 43, 26, 0⟩) ∧
    reads (0b1_010111_110_101101_101011_011010_0000) (.setmAll ⟨45, 43, 26, 0⟩) ∧
    reads (0b1_010111_111_101101_101011_011010_0000) (.setmNone ⟨45, 43, 26, 0⟩) := by
  and_intros <;> rfl

theorem test_decode_uniform_18 :
    reads (0b1_011000_000_101101_0000000001101011) (.getm ⟨45, 107⟩) := by
  rfl

theorem test_decode_uniform_19 :
    reads (0b1_011001_000_000000_000000_000001_0011) (.fence ⟨0, 0, 1, 3⟩) ∧
    reads (0b1_011001_001_000000_000000_000000_0000) (.bar) ∧
    reads (0b1_011001_010_000000_000000_000000_0000) (.cbar) ∧
    reads (0b1_011001_011_000000_000000_000000_0000) (.dbar) := by
  and_intros <;> rfl

theorem test_decode_uniform_20 :
    reads (0b1_100000_010_101011_011010_0110111011) (.mma 2 ⟨43, 26, 443⟩) := by
  rfl

theorem test_decode_uniform_21 :
    reads (0b1_100001_010_101011_011010_0110111011) (.mmag 2 ⟨43, 26, 443⟩) := by
  rfl

theorem test_decode_uniform_22 :
    reads (0b1_100010_000_101101_101011_0101101100) (.mdrain ⟨45, 43, 364⟩) := by
  rfl

theorem test_decode_uniform_23 :
    reads (0b1_100011_000_000000_000000_0000010000) (.mzero) := by
  rfl

theorem test_decode_uniform_24 :
    reads (0b1_100100_101_101011_011010_0101101111) (.cpy 5 ⟨43, 26, 367⟩) := by
  rfl

theorem test_decode_uniform_25 :
    reads (0b1_100101_101_000000_101011_000_1011011) (.cpymgInj 5 ⟨0, 43, 91⟩) ∧
    reads (0b1_100101_101_000000_101011_001_1011011) (.cpymgFw 5 ⟨0, 43, 91⟩) ∧
    reads (0b1_100101_101_000000_101011_010_1011011) (.cpymgPro 5 ⟨0, 43, 91⟩) ∧
    reads (0b1_100101_101_000000_101011_011_1011011) (.cpymgProadd 5 ⟨0, 43, 91⟩) ∧
    reads (0b1_100101_101_000000_101011_100_1011011) (.cpymgCvt 5 ⟨0, 43, 91⟩) := by
  and_intros <;> rfl

theorem test_decode_uniform_26 :
    reads (0b1_100110_101_000000_101011_1010000011) (.cpyred 5 ⟨0, 43, 643⟩) := by
  rfl

theorem test_decode_uniform_27 :
    reads (0b1_100111_000_101101_000000_0000000000) (.cpyclose) ∧
    reads (0b1_100111_001_000000_101101_0000000000) (.cpywait) := by
  and_intros <;> rfl

theorem test_decode_uniform_28 :
    reads (0b1_101000_000_000000_101101_1101011010) (.emit ⟨0, 45, 858⟩) ∧
    reads (0b1_101000_001_101101_101011_0000000000) (.spawn ⟨45, 43, 0⟩) ∧
    reads (0b1_101000_010_101101_101011_0000000000) (.pharv ⟨45, 43, 0⟩) ∧
    reads (0b1_101000_011_101101_101011_0000000000) (.phwait ⟨45, 43, 0⟩) ∧
    reads (0b1_101000_100_101101_101011_00_00000000) (.prefBw ⟨45, 43, 0⟩) ∧
    reads (0b1_101000_100_101101_101011_01_00000000) (.prefTc ⟨45, 43, 0⟩) ∧
    reads (0b1_101000_101_000000_101101_0000000000) (.pack) := by
  and_intros <;> rfl

/-- Words the spec prints beside their assembly in file 03. -/
theorem test_spec_words_03 :
    reads 0x20010305 (.fadd none ⟨2, 3, 2, 1⟩) ∧
    reads 0x42010A07 (.ld none 8 ⟨2, 5, 1, 3⟩) ∧
    reads 0x30C08000 (.idx none ⟨1, 0, 0, 0⟩) ∧
    reads 0x11408102 (.shlImm none ⟨1, 1, 2⟩) ∧
    reads 0x42010004 (.ld none 8 ⟨2, 0, 1, 0⟩) ∧
    reads 0x20010204 (.fadd none ⟨2, 2, 2, 0⟩) ∧
    reads 0x46010004 (.st none 8 ⟨2, 0, 1, 0⟩) ∧
    reads 0xA9000000 (.endTeam) ∧
    decodeWords 0x7E721800 0x20C20204 = .ok (.fma (some ⟨3, 1, 1, 6, 0, 0, 0, 0, 0⟩) ⟨4, 2, 2, 0⟩, 8) ∧
    decodeWords 0x7E021000 0x20C20204 = .ok (.fma (some ⟨0, 0, 1, 4, 0, 0, 0, 0, 0⟩) ⟨4, 2, 2, 0⟩, 8) ∧
    reads 0x8A050000 (.movl ⟨5, 0⟩) ∧
    reads 0x8A85FFF8 (.movhH2 ⟨5, 0xFFF8⟩) ∧
    reads 0x8AC501FF (.movhH3 ⟨5, 0x01FF⟩) ∧
    decodeWords 0x7E0C0000 0x02010204 = .ok (.addI32 (some ⟨0, 0, 6, 0, 0, 0, 0, 0, 0⟩) ⟨2, 2, 2, 0⟩, 8) := by
  and_intros <;> rfl

/-- Words the spec prints beside their assembly in file 04. -/
theorem test_spec_words_04 :
    reads 0x8E040000 (.csrr ⟨4, 0⟩) ∧
    reads 0x8E470001 (.csrw ⟨7, 1⟩) ∧
    reads 0x90C41625 (.scalarLd 3 ⟨4, 5, 0b100010, 5⟩) ∧
    reads 0xA9400000 (.yield) ∧
    reads 0xA053FFFE (.brcEqz ⟨4, 0x3FFFE⟩) ∧
    reads 0xB2000023 (.fence ⟨0, 0, 2, 3⟩) ∧
    reads 0xB2800000 (.cbar) ∧
    reads 0xA9800000 (.rft) ∧
    reads 0xA2040003 (.brv ⟨1, 3⟩) := by
  and_intros <;> rfl

/-- Words the spec prints beside their assembly in file 05. -/
theorem test_spec_words_05 :
    reads 0x02010204 (.addI32 none ⟨2, 2, 2, 0⟩) ∧
    reads 0x2002020D (.fadd none ⟨4, 2, 6, 1⟩) ∧
    reads 0x24808206 (.fcmpLt none ⟨1, 2, 3, 0⟩) ∧
    reads 0x26020104 (.faddx none ⟨4, 1, 2, 0⟩) ∧
    reads 0x26C40C21 (.dwadd none ⟨8, 12, 16, 1⟩) ∧
    reads 0x2C430211 (.cvt none 1 ⟨6, 2, 8, 1⟩) ∧
    reads 0x2B028400 (.sigm none ⟨5, 4, 0, 0⟩) ∧
    reads 0x2A038701 (.gelu none ⟨7, 7, 0, 1⟩) ∧
    reads 0x31450300 (.cred none ⟨10, 3, 0, 0⟩) ∧
    reads 0x31820801 (.tcred none ⟨4, 8, 0, 1⟩) := by
  and_intros <;> rfl

/-- Words the spec prints beside their assembly in file 06. -/
theorem test_spec_words_06 :
    reads 0x4A018500 (.ldImm none 8 ⟨3, 2, 64, 0⟩) ∧
    decodeWords 0x7E0C0040 0x51010004 = .ok (.ldAcq (some ⟨0, 0, 6, 0, 0, 0, 2, 0, 0⟩) 4 ⟨2, 0, 1, 0⟩, 8) ∧
    reads 0x52420C04 (.stRel none 1 ⟨4, 6, 1, 0⟩) ∧
    reads 0x4244060A (.ld none 9 ⟨8, 3, 2, 2⟩) ∧
    reads 0x560A0C54 (.ldw none 0 ⟨20, 6, 21, 0⟩) ∧
    reads 0x5A020404 (.atomI32 none 0 ⟨4, 2, 1, 0⟩) ∧
    decodeWords 0x7E0C0040 0x64018808 = .ok (.rwb (some ⟨0, 0, 6, 0, 0, 0, 2, 0, 0⟩) ⟨3, 4, 2, 0⟩, 8) ∧
    reads 0x66020430 (.decode none ⟨4, 2, 12, 0⟩) ∧
    reads 0x68461010 (.vsampTri none ⟨12, 8, 4, 0⟩) ∧
    reads 0x6A0A1008 (.rbox none ⟨20, 8, 2, 0⟩) := by
  and_intros <;> rfl

/-- Words the spec prints beside their assembly in file 07. -/
theorem test_spec_words_07 :
    reads 0xC0001260 (.mma 0 ⟨0, 4, 0x260⟩) ∧
    reads 0xC0820C55 (.mma 2 ⟨2, 3, 0x55⟩) ∧
    reads 0xC4080000 (.mdrain ⟨8, 0, 0⟩) ∧
    reads 0xC40C198C (.mdrain ⟨12, 6, 0x18C⟩) ∧
    reads 0xC6000010 (.mzero) ∧
    reads 0xC8041461 (.cpy 0 ⟨4, 5, 0x61⟩) ∧
    reads 0xCE070000 (.cpyclose) ∧
    reads 0xCE401C00 (.cpywait) ∧
    reads 0xC20004A2 (.mmag 0 ⟨0, 1, 0xA2⟩) ∧
    reads 0xC8C41465 (.cpy 3 ⟨4, 5, 0x65⟩) ∧
    reads 0xCA0020A0 (.cpymgFw 0 ⟨0, 8, 0x20⟩) ∧
    reads 0xCCC02901 (.cpyred 3 ⟨0, 10, 0x101⟩) ∧
    reads 0xD0003042 (.emit ⟨0, 12, 0x42⟩) ∧
    reads 0xD0433000 (.spawn ⟨3, 12, 0⟩) ∧
    reads 0xD0842400 (.pharv ⟨4, 9, 0⟩) ∧
    reads 0xD1061D00 (.prefTc ⟨6, 7, 0⟩) ∧
    reads 0xD1401C00 (.pack) := by
  and_intros <;> rfl

/-- The three rows that need a prefix, with one (03 R73): vc = 9. -/
theorem test_decode_prefixed :
    decodeWords 0b0_111111_0000_0_110_0001001_0_0_000_000_00 0b0_010111_011_0000100_0000110_0011_010_1 =
      .ok (.cvtmx (some ⟨0, 0, 6, 9, 0, 0, 0, 0, 0⟩) 3 ⟨4, 6, 0b0011010, 1⟩, 8) ∧
    decodeWords 0b0_111111_0000_0_110_0001001_0_0_000_000_00 0b0_101111_111_0000100_000010_0000001_01 =
      .ok (.atomCas (some ⟨0, 0, 6, 9, 0, 0, 0, 0, 0⟩) 2 ⟨4, 2, 1, 1⟩, 8) ∧
    decodeWords 0b0_111111_0000_0_110_0001001_0_0_000_000_00 0b0_110001_010_0000100_000010_0000001_00 =
      .ok (.fxaccSc (some ⟨0, 0, 6, 9, 0, 0, 0, 0, 0⟩) ⟨4, 2, 1, 0⟩, 8) := by
  and_intros <;> rfl

/-! ### Witnesses: encoding -/

theorem witness_DecodeOfEncode : (Instr.addI32 (some ⟨1, 1, 6, 0, 1, 0, 0, 0, 0⟩) ⟨127, 0, 127, 1⟩).wf = true ∧
    encode (.addI32 (some ⟨1, 1, 6, 0, 1, 0, 0, 0, 0⟩) ⟨127, 0, 127, 1⟩) ≠ [] ∧ Instr.join.wf = true ∧ encode .join ≠ [] := by
  decide

theorem witness_EncodeOfDecode : decodeWords 0x7E0C0000 0x02010204 = .ok (.addI32 (some ⟨0, 0, 6, 0, 0, 0, 0, 0, 0⟩) ⟨2, 2, 2, 0⟩, 8) ∧
    decodeWords 0x02010204 0 = .ok (.addI32 none ⟨2, 2, 2, 0⟩, 4) ∧ decodeWords 0xA93FFFFF 0 = .ok (.endTeam, 4) := by
  and_intros <;> rfl

theorem witness_PrefixBindsLaneWord : (isPrefix 0x7E0C0000 = true ∧ isPrefix 0x7E0C0000 = true) ∧ setOf 0xA9000000 = 1 ∧
    isPrefix 0x02010204 = false ∧ (∃ x, decodeWords 0x02010204 0 = .ok x) := by
  exact ⟨by decide, by decide, by decide, _, rfl⟩

theorem witness_AssignedEncodings : isPrefix 0x02010204 = false ∧ assigned 0x02010204 = true ∧ isPrefix 0 = false ∧
    assigned 0 = false := by decide

/-! ### Witnesses: lane arithmetic -/

theorem plain_quiet (x : LaneForm) (fl : Nat → Fl) : x.Quiet S1.team fl := fun l _ _ => by
  rw [S1_team]; exact (by decide +kernel : ∀ f : Fl, f &&& T1.te = 0) (fl l)

theorem witness_LaneIntegerArithmetic : (twoForm none ⟨126, 124, 8, 1⟩ [intTag true] (intTag true)).Ready S1.team ∧
    (twoForm (some ⟨1, 1, 6, 0, 1, 1, 0, 0, 0⟩) ⟨127, 127, 0, 0⟩ [intTag false] (intTag false)).Ready S1.team :=
  ⟨plain_ready _ (by decide), plain_ready _ (by decide)⟩

theorem witness_LanePackedArithmetic : (packedForm none ⟨127, 0, 1, 1⟩ 11).Ready S1.team ∧
    (packedForm none ⟨127, 0, 1, 0⟩ 12).Ready S1.team := ⟨plain_ready _ (by decide), plain_ready _ (by decide)⟩

theorem witness_LaneBitwise : (twoForm none ⟨4, 6, 8, 1⟩ [] 0).Ready S1.team ∧
    (oneForm none ⟨4, 6, 0, 1⟩ [intTag true] (intTag true)).Ready S1.team ∧ (oneForm none ⟨4, 6, 0, 0⟩ [] 0).Ready S1.team ∧
    (countForm none ⟨5, 6, 0, 1⟩ [intTag true]).Ready S1.team :=
  ⟨plain_ready _ (by decide), plain_ready _ (by decide), plain_ready _ (by decide), plain_ready _ (by decide)⟩

theorem witness_LaneCompareAndSelect : (compareForm none ⟨5, 6, 8, 1⟩ [intTag true]).Ready S1.team ∧
    (selForm (some ⟨0, 0, 6, 9, 0, 0, 0, 0, 0⟩) ⟨4, 6, 8, 1⟩ S1.team).Ready S1.team ∧ (movForm none ⟨4, 6, 0, 1⟩ S1.team).Ready S1.team ∧
    (fillForm none 126 true 0 0).Ready S1.team ∧ (fillForm none 127 false 13 0).Ready S1.team :=
  ⟨plain_ready _ (by decide), plain_ready _ (by decide), plain_ready _ (by decide), plain_ready _ (by decide),
    plain_ready _ (by decide)⟩

theorem witness_LaneImmediates : (immForm none ⟨5, 6, 0x80⟩ [13] 13 0).Ready S1.team ∧ (fillForm none 5 false 13 0).Ready S1.team :=
  ⟨plain_ready _ (by decide), plain_ready _ (by decide)⟩

theorem witness_LaneFloatArithmetic : (fpForm none ⟨4, 6, 8, 1⟩ false 3).Ready S1.team ∧ (fpForm none ⟨4, 6, 0, 0⟩ false 1).Ready S1.team ∧
    (fpForm none ⟨4, 6, 8, 1⟩ true 2).Ready S1.team ∧ (∀ fl, (fpForm none ⟨4, 6, 8, 1⟩ true 2).Quiet S1.team fl) :=
  ⟨plain_ready _ (by decide), plain_ready _ (by decide), plain_ready _ (by decide), fun _ => plain_quiet _ _⟩

theorem witness_LaneFloatCompares : (compareForm none ⟨5, 6, 8, 1⟩ [tagWide true]).Ready S1.team ∧
    (∀ fl, (compareForm none ⟨5, 6, 8, 1⟩ [tagWide true]).Quiet S1.team fl) ∧ (countForm none ⟨5, 6, 0, 1⟩ [tagWide true]).Ready S1.team :=
  ⟨plain_ready _ (by decide), fun _ => plain_quiet _ _, plain_ready _ (by decide)⟩

theorem witness_LaneErrorPairsAndDoubleWords : (errForm none ⟨4, 6, 8, 1⟩).Ready S1.team ∧ (errForm none ⟨4, 1, 2, 0⟩).Ready S1.team ∧
    (dwForm none ⟨4, 8, 12, 1⟩ 3).Ready S1.team ∧ (dwForm none ⟨4, 8, 0, 0⟩ 1).Ready S1.team ∧
    (∀ fl, (dwForm none ⟨4, 8, 12, 1⟩ 3).Quiet S1.team fl) :=
  ⟨plain_ready _ (by decide), plain_ready _ (by decide), plain_ready _ (by decide), plain_ready _ (by decide),
    fun _ => plain_quiet _ _⟩

theorem witness_LaneFunctionsIssue : (oneForm none ⟨4, 6, 0, 1⟩ [tagWide true] (tagWide true)).Ready S1.team ∧
    (actForm none ⟨5, 6, 0, 1⟩).Ready S1.team ∧ (∀ fl, (actForm none ⟨5, 6, 0, 1⟩).Quiet S1.team fl) :=
  ⟨plain_ready _ (by decide), plain_ready _ (by decide), fun _ => plain_quiet _ _⟩

theorem witness_LaneConversions : cvtCodesOk 1 ⟨6, 2, 8, 1⟩ = true ∧ (cvtForm none 1 ⟨6, 2, 8, 1⟩).Ready S1.team ∧
    cvtmxCodesOk 2 ⟨6, 8, 8, 1⟩ = true ∧ (cvtmxForm (some ⟨0, 0, 6, 40, 0, 0, 0, 0, 0⟩) 2 ⟨6, 8, 8, 1⟩).Ready S1.team ∧
    (mxCode (cvtD 2 ⟨6, 8, 12, 1⟩) && cvtSat ⟨6, 8, 12, 1⟩) = true ∧
    (cvtmxMakeForm (some ⟨0, 0, 6, 40, 0, 0, 0, 0, 0⟩) 2 ⟨6, 8, 12, 1⟩ S1.team).Ready S1.team :=
  ⟨by decide, plain_ready _ (by decide), by decide, plain_ready _ (by decide), by decide, plain_ready _ (by decide +kernel)⟩

theorem witness_LaneExchanges : S1.team.tileOk ∧ (shflForm none ⟨4, 6, 8, 1⟩ S1.team).Ready S1.team ∧
    (countForm none ⟨5, 6, 0, 1⟩ []).Ready S1.team ∧ (pshwForm none ⟨4, 6, 8, 1⟩ S1.team).Ready S1.team ∧
    (voteEqForm none ⟨5, 6, 8, 1⟩).Ready S1.team :=
  ⟨by rw [S1_team]; unfold Team.tileOk; decide +kernel, plain_ready _ (by decide), plain_ready _ (by decide), plain_ready _ (by decide +kernel), plain_ready _ (by decide)⟩

theorem witness_LaneReductions : (movxForm none ⟨5, 6, 0, 1⟩).Ready S1.team ∧ (∀ v, S1.team.s63Bad 5 v = false) ∧
    (credForm none ⟨4, 6, 0, 1⟩).Ready S1.team ∧ (tcredForm none ⟨4, 6, 0, 1⟩).Ready S1.team ∧
    (∀ v, S1.team.s63Bad (4 + 1) v = false) ∧ (tcredSum none ⟨4, 6, 0, 1⟩ S1.team).2 &&& S1.team.te = 0 :=
  ⟨plain_ready _ (by decide), fun _ => rfl, plain_ready _ (by decide), plain_ready _ (by decide), fun _ => rfl, by decide +kernel⟩

/-! ### Witnesses: lane memory -/

/-- The spans a check phase found, none where it stopped. -/
def spans (x : Except Stop (List Span)) : List Span := match x with
  | .ok sp => sp
  | .error _ => []

theorem spans_ok (x : Except Stop (List Span)) (h : x.isOk = true) : x = .ok (spans x) := by
  cases x with
  | ok a => rfl
  | error e => cases h

/-- The spans of `m` bytes at the acting lanes' addresses on a device. -/
def spansAt (s : State) (a : Nat → Nat) (m : Nat) (need : Need) (reads : Bool) (pol : Nat) : List Span :=
  spans (s.checkSpans (s.viaOf s.cur) ((s.team.actors none).map fun l => (a l, m)) need reads pol)

theorem reaches (s : State) (a : Nat → Nat) (n m : Nat) (need : Need) (reads : Bool) (pol : Nat)
    (h1 : ((s.team.actors none).all fun l => decide (a l % n = 0)) = true)
    (h2 : (s.checkSpans (s.viaOf s.cur) ((s.team.actors none).map fun l => (a l, m)) need reads pol).isOk = true) :
    s.Reaches none a n m need reads pol (spansAt s a m need reads pol) :=
  ⟨by simpa using h1, spans_ok _ h2⟩

theorem witness_LaneLoads : (Instr.ld none 14 ⟨4, 5, 1, 3⟩).wf = true ∧ (loadForm none ⟨4, 5, 1, 3⟩ true true 2 {}).Ready S1.team ∧
    (∃ sp, S1.Reaches none (addrVec none ⟨4, 5, 1, 3⟩ S1.team) 8 8 needR true 3 sp) ∧
    (Instr.ldImm none 0 ⟨4, 5, 127, 0⟩).wf = true ∧ (∃ sp, S1.Reaches none (addrImm ⟨4, 5, 127, 0⟩ 4 S1.team) 4 4 needR true 0 sp) ∧
    (Instr.ldAcq none 5 ⟨4, 5, 1, 0⟩).wf = true ∧ (loadForm none ⟨4, 5, 127, 0⟩ false false 2 {}).Ready S1.team :=
  ⟨by decide, plain_ready _ (by decide), ⟨_, reaches _ _ _ _ _ _ _ (by decide +kernel) (by decide +kernel)⟩, by decide,
    ⟨_, reaches _ _ _ _ _ _ _ (by decide +kernel) (by decide +kernel)⟩, by decide, plain_ready _ (by decide)⟩

theorem witness_LaneStores : (Instr.st none 14 ⟨4, 5, 1, 3⟩).wf = true ∧ (storeForm none ⟨4, 5, 1, 3⟩ true true 2 {}).Ready S1.team ∧
    (∃ sp, S1.Reaches none (addrVec none ⟨4, 5, 1, 3⟩ S1.team) 8 8 needW false 3 sp) ∧ (Instr.stImm none 0 ⟨4, 5, 127, 0⟩).wf = true ∧
    (∃ sp, S1.Reaches none (addrImm ⟨4, 5, 127, 0⟩ 4 S1.team) 4 4 needW false 0 sp) ∧ (Instr.stRel none 5 ⟨4, 5, 1, 0⟩).wf = true ∧
    (storeForm none ⟨4, 5, 127, 0⟩ false false 2 {}).Ready S1.team :=
  ⟨by decide, plain_ready _ (by decide), ⟨_, reaches _ _ _ _ _ _ _ (by decide +kernel) (by decide +kernel)⟩, by decide,
    ⟨_, reaches _ _ _ _ _ _ _ (by decide +kernel) (by decide +kernel)⟩, by decide, plain_ready _ (by decide)⟩

/-- The first address of the cluster-memory window (01 R32). -/
def clusterVa : BitVec 64 := 0x1FFFFF800000000

/-- T1 with the cluster-memory window in s5. -/
def T2 : Team := { T1 with sreg := [(5, clusterVa), (6, clusterVa), (63, 0x200000)] }

theorem ready_T2 (x : LaneForm) (h : plain x = true) : x.Ready (on T2).team := by
  have := plain_ready x h
  rw [S1_team] at this
  rw [on_team]
  exact ⟨this.prefixOk, this.even, this.lanes, this.active, this.fresh, this.srcBelow, this.dstBelow, this.srcFull, this.dstFull,
    this.tags⟩

theorem witness_LaneBlockLoads :
    (let b : BlockForm := ⟨8, 32, 1⟩
     (Instr.ldb none 0 ⟨4, 6, 9, 3⟩).wf = true ∧ (blockForm none ⟨4, 6, 9, 3⟩ b (ldbTag 0) 10 (on T2).team).Ready (on T2).team ∧
     ∃ sp, (on T2).checkSpans ((on T2).viaOf (on T2).cur) (b.spans (on T2).team ⟨4, 6, 9, 3⟩ ((on T2).team.actors none)) needR true polSi = .ok sp) ∧
    (let b : BlockForm := ⟨ldwGroup 0 / 4, ldwGroup 0 * ldwBits 0 / 8, 4⟩
     (Instr.ldw none 0 ⟨4, 6, 9, 1⟩).wf = true ∧ (blockForm none ⟨4, 6, 9, 1⟩ b 11 3 (on T2).team).Ready (on T2).team ∧
     ((on T2).team.s (6 + 1)).toNat % 4 = 0 ∧
     ∃ sp, (on T2).checkSpans ((on T2).viaOf (on T2).cur) (b.spans (on T2).team ⟨4, 6, 9, 1⟩ ((on T2).team.actors none)) needR true polSi = .ok sp) ∧
    (Instr.ldt none 0 ⟨4, 5, 1, 0⟩).wf = true ∧ (ldtForm none 0 ⟨4, 5, 1, 0⟩).Ready (on T2).team ∧
    (∃ sp, (on T2).Reaches none (addrVec none ⟨4, 5, 1, 0⟩ (on T2).team) 4 4 needR true 0 sp) ∧
    (∀ l ∈ (on T2).team.actors none, (on T2).ldtStop (addrVec none ⟨4, 5, 1, 0⟩ (on T2).team) l = none) :=
  ⟨⟨by decide, ready_T2 _ (by decide), ok_of _ (by decide +kernel)⟩,
    ⟨by decide, ready_T2 _ (by decide), by decide +kernel, ok_of _ (by decide +kernel)⟩, by decide, ready_T2 _ (by decide),
    ⟨_, reaches _ _ _ _ _ _ _ (by decide +kernel) (by decide +kernel)⟩, by decide +kernel⟩

theorem witness_LaneAtomics : (Instr.atomI64 none 6 ⟨4, 5, 1, 3⟩).wf = true ∧ (atomForm none 6 2 ⟨4, 5, 1, 3⟩).Ready S1.team ∧
    (∃ sp, S1.Reaches none (addrVec none ⟨4, 5, 1, 3⟩ S1.team) 8 8 (needR ||| needW) true polWt sp) ∧
    (Instr.atomCas (some ⟨0, 0, 6, 8, 0, 0, 4, 0, 0⟩) 0 ⟨4, 5, 1, 0⟩).wf = true ∧
    (atomForm (some ⟨0, 0, 6, 8, 0, 0, 4, 0, 0⟩) 7 0 ⟨4, 5, 1, 0⟩).Ready S1.team ∧ ((-1 : BitVec 32).toInt < (0 : BitVec 32).toInt) ∧
    ((0 : BitVec 32).toNat < (-1 : BitVec 32).toNat) :=
  ⟨by decide, plain_ready _ (by decide), ⟨_, reaches _ _ _ _ _ _ _ (by decide +kernel) (by decide +kernel)⟩, by decide,
    plain_ready _ (by decide), by decide, by decide⟩

/-- S1 with an accumulator object of kind `k` at its address in s5 (09 R257). -/
def S1obj (k : Nat) : State := { S1 with mem := S1.mem.writes 0x200000 (leBytes 64 (k * 2 ^ 504)) }

theorem team_mem (s : State) (m : Memory) : ({ s with mem := m } : State).team = s.team := rfl

theorem plain_obj (x : LaneForm) (k : Nat) (h : plain x = true) : x.Ready (S1obj k).team := by
  rw [S1obj, team_mem]
  exact plain_ready x h

theorem witness_LaneAccumulators :
    (Instr.fxacc none 0 ⟨4, 5, 1, 0⟩).wf = true ∧ (fxaccForm none ⟨4, 5, 1, 0⟩ false none).Ready (S1obj 1).team ∧
    ((S1obj 1).Reaches none (addrVec none ⟨4, 5, 1, 0⟩ (S1obj 1).team) 64 64 (needR ||| needW) true polOp
      (spansAt (S1obj 1) (addrVec none ⟨4, 5, 1, 0⟩ (S1obj 1).team) 64 (needR ||| needW) true polOp)) ∧
    (((S1obj 1).objects (spansAt (S1obj 1) (addrVec none ⟨4, 5, 1, 0⟩ (S1obj 1).team) 64 (needR ||| needW) true polOp)).all
      fun k => objKind k == 1) = true ∧
    (((S1obj 2).objects (spansAt (S1obj 2) (addrVec none ⟨4, 5, 1, 0⟩ (S1obj 2).team) 64 needR true polOp)).all
      fun k => objKind k == 2) = true ∧
    (Instr.fxaccSc (some ⟨0, 0, 6, 8, 0, 0, 0, 0, 0⟩) ⟨4, 5, 1, 0⟩).wf = true ∧ (Instr.fxrd none 1 ⟨4, 5, 1, 0⟩).wf = true ∧
    (fxrdForm none ⟨4, 5, 1, 0⟩ true).Ready (S1obj 2).team ∧
    (S1obj 2).Reaches none (addrVec none ⟨4, 5, 1, 0⟩ (S1obj 2).team) 64 64 needR true polOp
      (spansAt (S1obj 2) (addrVec none ⟨4, 5, 1, 0⟩ (S1obj 2).team) 64 needR true polOp) :=
  ⟨by decide, plain_obj _ _ (by decide), reaches _ _ _ _ _ _ _ (by decide +kernel) (by decide +kernel), by decide +kernel,
    by decide +kernel, by decide, by decide, plain_obj _ _ (by decide),
    reaches _ _ _ _ _ _ _ (by decide +kernel) (by decide +kernel)⟩

/-- No part of a range waits. -/
def served (s : State) (xs : List (Nat × Nat)) : Bool := xs.all fun x => match s.rangePage (s.viaOf s.cur) x.1 with
  | .wait => false
  | _ => true

theorem served_ok (s : State) (xs : List (Nat × Nat)) (h : served s xs = true) :
    ∀ x ∈ xs, s.rangePage (s.viaOf s.cur) x.1 ≠ .wait := by
  intro x hx e
  have := List.all_eq_true.mp h x hx
  simp [e] at this

theorem witness_LaneRangeOperations : (rangeForm none ⟨4, 5, 1, 0⟩).Ready S1.team ∧
    (∀ x ∈ rangesOf none ⟨4, 5, 1, 0⟩ S1.team, S1.rangePage (S1.viaOf S1.cur) x.1 ≠ .wait) ∧
    S1.rangeStop S1.cur (rangesOf none ⟨4, 5, 1, 0⟩ S1.team) = none :=
  ⟨plain_ready _ (by decide), served_ok _ _ (by decide +kernel), by decide +kernel⟩

theorem witness_LaneDecode : (decodeForm none ⟨4, 5, 12, 0⟩).Ready (on T2).team ∧
    (on T2).outsideCluster ((on T2).team.s 5).toNat 4 = none ∧
    (on T2).outsideCluster ((on T2).team.s 5).toNat (blockHead ((on T2).clusterByte ((on T2).team.s 5).toNat)).clen = none ∧
    (on T2).team.s63Bad (decodeSd ⟨4, 5, 12, 0⟩) 0 = false ∧ (on T2).team.dtrap = false :=
  ⟨ready_T2 _ (by decide), by decide +kernel, by decide +kernel, by decide +kernel, by decide +kernel⟩

theorem witness_LaneVolumesAndBoxes :
    let dsp := spans ((on T2).checkSpans ((on T2).viaOf (on T2).cur) [(clusterVa.toNat, 32)] needR true 1)
    let u := (volumeAt none (on T2) dsp).1
    let vol := (volumeAt none (on T2) dsp).2
    (vsampForm none ⟨4, 5, 8, 1⟩).Ready (on T2).team ∧ (on T2).team.actors none ≠ [] ∧ ((on T2).team.s 5).toNat % 32 = 0 ∧
    (on T2).checkSpans ((on T2).viaOf (on T2).cur) [(((on T2).team.s 5).toNat, 32)] needR true 1 = .ok dsp ∧ vol.bmode ≠ 3 ∧
    (vol.base % 4 = 0 ∧ vol.pitchY % 4 = 0 ∧ vol.pitchZ % 4 = 0) ∧
    (∃ sp, u.checkSpans ((on T2).viaOf (on T2).cur) ((vol.plan none true ⟨4, 5, 8, 1⟩ (on T2).team).map fun c => (c.1, 4)) needR true 1 = .ok sp) ∧
    (∃ t : Team, (on t).team.actors none = [] ∧ t.exec ≠ 0) ∧
    (rboxForm none ⟨4, 5, 8, 1⟩ true).Ready (on T2).team ∧
    (∃ sp, (on T2).Reaches none (rboxAddr ⟨4, 5, 8, 1⟩ true (on T2).team) 32 32 needR true 1 sp) :=
  ⟨ready_T2 _ (by decide), by decide +kernel, by decide +kernel, spans_ok _ (by decide +kernel), by decide +kernel,
    by decide +kernel, ok_of _ (by decide +kernel), ⟨{ T1 with div := [⟨0, 2 ^ 1000, noAddr⟩] }, by decide +kernel, by decide +kernel⟩, ready_T2 _ (by decide),
    ⟨_, reaches _ _ _ _ _ _ _ (by decide +kernel) (by decide +kernel)⟩⟩

/-! ### Witnesses: scalar work, branches, calls -/

theorem witness_ScalarArithmetic : S1.team.keeps 62 0 ∧ S1.team.keeps 63 (S1.team.spPtr) ∧
    ¬ (on { T1 with spPtr := 1 }).team.keeps 63 0 ∧ (5 : BitVec 4).toNat < 6 ∧ 6 ≤ (6 : BitVec 4).toNat :=
  ⟨fun h => absurd h (by decide), fun _ => Nat.le_refl _, fun h => absurd (h rfl) (by decide +kernel), by decide, by decide⟩

theorem witness_BitCounts : (0 : BitVec 7) = 0#7 ∧ (1 : BitVec 64) ≠ 0#64 ∧ 63 - clzBits (1 : BitVec 64) < 1 ∧ 63 < 64 := by decide

theorem witness_CsrAccess : (Instr.csrr ⟨5, 0x7F⟩).wf = true ∧ (Instr.csrr ⟨5, 0x80⟩).wf = false ∧
    (5 : Word64).toNat % 8 ≤ 5 ∧ (5 : Word64).getLsbD 24 = false ∧ (0x1000005 : Word64).toNat % 8 ≤ 5 ∧ (0x1000005 : Word64).getLsbD 24 = true ∧
    5 < (6 : Word64).toNat % 8 ∧ 1 ≤ (1 : Word64).toNat % 8 ∧ (0 : Word64).toNat % 8 = 0 ∧
    (0x800000000 : Word64).toNat / 2 ^ 32 % 16 ∈ [0, 2, 4, 6, 8] ∧ (0x900000000 : Word64).toNat / 2 ^ 32 % 16 ∉ [0, 2, 4, 6, 8] ∧
    0xFFF ∉ [0x000, 0x001, 0x002, 0x010, 0x011, 0x012, 0x014, 0x020, 0x022] ∧
    (let t : Team := { T1 with spPtr := 0x200000, spBase := 0x200000 }
     (t.spPtr = t.spBase ∧ t.ndsp = 0 ∧ t.nrsp = 0) ∧ (t.s 5 &&& 0x1FFFFFFFFFFFFF0).toNat ≤ (t.s 63).toNat) ∧
    (let t : Team := { T1 with spPtr := 0x200000, spBase := 0x200000, ndsp := 1 }
     ¬ (t.spPtr = t.spBase ∧ t.ndsp = 0 ∧ t.nrsp = 0) ∧ (t.s 5 &&& 0x1FFFFFFFFFFFFF0).toNat ≤ t.spBase.toNat) ∧
    (let t : Team := { T1 with sreg := [(5, 0x10)] }
     (t.spPtr = t.spBase ∧ t.ndsp = 0 ∧ t.nrsp = 0) ∧ (t.s 63).toNat < (t.s 5 &&& 0x1FFFFFFFFFFFFF0).toNat) := by
  decide +kernel

theorem witness_ScalarMemory : (Instr.scalarLd 4 ⟨4, 5, 0x30, 0b0111⟩).wf = true ∧ (Instr.scalarSt 1 ⟨4, 5, 0x30, 0b1011⟩).wf = true ∧
    smAddr ⟨4, 5, 0x3F, 0⟩ (on { T1 with sreg := [(5, 4)] }).team % smSize ⟨4, 5, 0x3F, 0⟩ ≠ 0 ∧
    smAddr ⟨4, 5, 0x30, 7⟩ S1.team % smSize ⟨4, 5, 0x30, 7⟩ = 0 ∧
    (∃ sp, S1.checkSpans (S1.viaOf S1.cur) [(smAddr ⟨4, 5, 0x30, 7⟩ S1.team, 8)] needR true 3 = .ok sp) ∧
    (∃ sp, S1.checkSpans (S1.viaOf S1.cur) [(smAddr ⟨4, 5, 0x30, 7⟩ S1.team, 8)] needW false 3 = .ok sp) ∧ ∀ v, S1.team.keeps 4 v :=
  ⟨by decide, by decide, by decide +kernel, by decide +kernel, ok_of _ (by decide +kernel), ok_of _ (by decide +kernel),
    fun _ h => absurd h (by decide)⟩

theorem witness_ScalarAtomics : (Instr.scalarAtomCas ⟨4, 5, 32, 2⟩).wf = true ∧ (4 : BitVec 6).toNat % 2 = 0 ∧
    (S1.team.s 5).toNat % 8 = 0 ∧ (∃ sp, S1.checkSpans (S1.viaOf S1.cur) [((S1.team.s 5).toNat, 8)] (needR ||| needW) true polWt = .ok sp) ∧
    ((on { T1 with sreg := [(5, 2)] }).team.s 5).toNat % 4 ≠ 0 ∧ ∀ v, S1.team.keeps 4 v :=
  ⟨by decide, by decide, by decide +kernel, ok_of _ (by decide +kernel), by decide +kernel, fun _ h => absurd h (by decide)⟩

/-- BRV at a PC with lanes 0 and 1 executing and lane 0 alone in mask register 1. -/
def B1 : Team := { T1 with div := [⟨0x100000, 3, noAddr⟩], mask := [(1, 1)], rp := 0x100100 }

theorem witness_Branches : S1.team.pc = 0x100000 ∧ (on B1).team.exec &&& (on B1).team.k 1 ≠ 0 ∧
    (on B1).team.exec &&& (on B1).team.k 1 ≠ (on B1).team.exec ∧ (on B1).team.exec &&& (on B1).team.k 2 = 0 := by
  decide +kernel

theorem witness_SplitBranch : (on B1).runs ∧ (on B1).team.div ≠ [] ∧ (on B1).team.rp ≠ noAddr ∧
    (on B1).team.exec &&& (on B1).team.k 1 ≠ 0 ∧ (on B1).team.exec &&& ~~~(on B1).team.k 1 ≠ 0 ∧ (on B1).team.ndsp = 0 ∧
    (on B1).team.div.length ≤ 14 ∧ (on B1).team.exec &&& ~~~(on B1).team.k 0 = 0 ∧ (on B1).team.exec ≠ 0 ∧
    (on B1).team.exec &&& (on B1).team.k 2 = 0 ∧ S1.team.rp = noAddr ∧ (on { T1 with div := [⟨0x100000, 0, noAddr⟩] }).team.exec = 0 := by
  unfold State.runs
  decide +kernel

theorem witness_RecSetsReconvergence : (⟨0, 0x3FFFF⟩ : UB).k = 0 := rfl

theorem witness_CallsAndJoin : S1.runs ∧ S1.team.ret.length < 8 ∧ (on { T1 with ret := List.replicate 7 0 }).team.ret.length < 8 ∧
    (let s := { S1 with iw := 5 * 2 ^ 10 }
     s.runs ∧ (s.team.s (s.iw.extractLsb' 10 6)).toNat % 4 = 0) ∧
    (let s := { on { T1 with sreg := [(5, 2)] } with iw := 5 * 2 ^ 10 }
     s.runs ∧ (s.team.s (s.iw.extractLsb' 10 6)).toNat % 4 ≠ 0) ∧ S1.team.ret = [] ∧
    (on { T1 with ret := [4, 8] }).team.ret = 4 :: [8] ∧ (on { T1 with ret := [4, 8] }).team.nrsp = 0 ∧
    S1.team.div.length + S1.team.ndsp ≤ 1 ∧ 1 < (on { T1 with div := [⟨4, 1, 8⟩, ⟨0, 3, noAddr⟩] }).team.div.length := by
  unfold State.runs
  decide +kernel

/-- CALLV of v4:v5 with lanes 0 and 1 executing and these words in v4. -/
def callvAt (e : Mask) (a b : Word32) : State :=
  { on { T1 with div := [⟨0x100000, e, noAddr⟩], vreg := [(4096, a), (4097, b)] } with iw := 4 }

theorem witness_CallThroughVector :
    (∀ s ∈ [callvAt 0 0 0, callvAt 3 8 8, callvAt 3 8 12, callvAt 3 8 6], s.runs ∧ s.team.div ≠ [] ∧
      (s.iw.extractLsb' 0 16).toNat % 128 = 4 ∧ 4 + 2 ≤ s.team.vregs ∧ callvTags s = true ∧ s.team.rowsFull 4 2 = true ∧
      s.team.ret.length < 8 ∧ s.team.ndsp = 0 ∧ s.team.div.length ≤ 14) ∧
    (callvAt 0 0 0).team.exec = 0 ∧ (callvAt 3 8 8).team.exec ≠ 0 ∧
    ((callvAt 3 8 8).team.v64 4 0, (callvAt 3 8 8).team.v64 4 1) = (8, 8) ∧
    ((callvAt 3 8 12).team.v64 4 0, (callvAt 3 8 12).team.v64 4 1) = (8, 12) ∧
    ((callvAt 3 8 6).team.v64 4 1).toNat % 4 ≠ 0 := by
  unfold State.runs
  decide +kernel

theorem witness_MaskInstructions : maskField 15 = true ∧ maskField 16 = false ∧ 127 % 128 < S1.team.vregs ∧ S1.team.rowsFull 127 1 = true ∧
    15 ≠ 0 ∧ 1024 ≤ 1024 := by
  decide +kernel

theorem witness_FencesAndPacing : (((⟨0, 0, 3, 4⟩ : UR).sb.extractLsb' 0 2).toNat ≠ 0 ∧ ((⟨0, 0, 3, 4⟩ : UR).aux.extractLsb' 0 3).toNat ≤ 4) ∧
    ((⟨0, 0, 4, 0⟩ : UR).sb.extractLsb' 0 2).toNat = 0 ∧ 4 < ((⟨0, 0, 1, 5⟩ : UR).aux.extractLsb' 0 3).toNat := by decide

theorem witness_GroupBarriers :
    (S1.runs ∧ S1.team.arr = false ∧ S1.team.group < S1.groups.length ∧ (S1.group S1.team.group).share < S1.shares.length ∧
      ((S1.release S1.cur 1).groupTeams S1.team.group).all ([S1.cur].contains ·) = true ∧
      ((S1.release S1.cur 2).shareTeams (S1.group S1.team.group).share).all ([S1.cur].contains ·) = true) ∧
    (let s := { S1 with teams := S1.teams ++ [T1] }
     s.runs ∧ s.team.arr = false ∧ ((s.release s.cur 1).groupTeams s.team.group).all ([s.cur].contains ·) = false ∧
       ((s.release s.cur 2).shareTeams (s.group s.team.group).share).all ([s.cur].contains ·) = false) ∧
    (let s := on { T1 with arr := true }
     s.runs ∧ s.team.arr = true ∧ s.cur ∉ (s.group s.team.group).arrivals ∧ s.cur ∉ (s.share (s.group s.team.group).share).arrivals) ∧
    (let s := (on { T1 with arr := true }).setGroup 0 { S1.group 0 with arrivals := [0] }
     s.runs ∧ s.team.arr = true ∧ s.cur ∈ (s.group s.team.group).arrivals) ∧
    (let s := (on { T1 with arr := true }).setShare 0 { S1.share 0 with arrivals := [0] }
     s.runs ∧ s.team.arr = true ∧ s.cur ∈ (s.share (s.group s.team.group).share).arrivals) := by
  unfold State.runs
  decide +kernel

/-! ### Witnesses: matrix work and copies -/

/-- T1 with 1024 lanes and 64 registers, lane 0 alone executing. -/
def M1 : Team := { T1 with lanes := 1024, vregs := 64 }

/-- Two teams of one group, a gang of two with team indexes 0 and 1. -/
def ganged (a b : UE) : State :=
  let t : Team := { M1 with gang := 0x200000008, nteam := 1, status := .resident }
  let s : State := { S0 with teams := [{ t with tix := 0 }, { t with tix := 1, core := 1 }] }
  s.setGroup 0 { s.group 0 with latch := [⟨0, 0, a⟩, ⟨1, 0, b⟩] }

theorem witness_MatrixInstructions : (Instr.mma 7 ⟨0, 2, 0b1001110101⟩).wf = true ∧ mmRegsOk ⟨0, 2, 0b1001110101⟩ (on M1).team = true ∧
    (Instr.mma 0 ⟨0, 8, 0b0001000101⟩).wf = true ∧ mmRegsOk ⟨0, 8, 0b0001000101⟩ (on M1).team = true ∧
    mmTagsOk ⟨0, 8, 0b0001000101⟩ (on M1).team = true ∧ (on M1).cur < (on M1).teams.length ∧ (on M1).arrayHeld (on M1).cur = false ∧
    (on M1).team.allRowsFull (run 0 4 ++ run 16 4) = true ∧ (on M1).team.badWords = [] ∧
    (on { M1 with empty := [(0, 1)] }).team.allRowsFull (run 0 4 ++ run 16 4) = false ∧
    { S1 with teams := [M1, { M1 with holder := true }] }.arrayHeld 0 = true ∧ M1.vregs ≤ 128 ∧ M1.lanes ≤ 1024 ∧ 1023 < M1.lanes ∧
    mmNa ⟨0, 8, 0b0001000101⟩ M1.lanes ≠ 0 ∧ (Instr.mmag 0 ⟨0, 8, 0b0001000101⟩).wf = true ∧ M1.gangOk = false ∧
    (let s := (ganged ⟨0, 0, 0⟩ ⟨0, 0, 0⟩).setGroup 0 (S1.group 0)
     s.team.gangOk = true ∧ s.arrivalOf s.cur = none ∧ s.arrayHeld s.cur = false ∧ (s.group s.team.group).latch = [] ∧
       s.team.allRowsFull (gangReads ⟨0, 8, 0b0001000101⟩ s.team) = true ∧ s.team.badWords = []) ∧
    (∃ m ∈ (on { M1 with matq := [⟨false, 5, 1, false, 1, 0, 1024, []⟩] }).team.matq, m.set = 1) ∧
    (∀ m ∈ (on { M1 with matq := [⟨false, 5, 1, false, 1, 0, 1024, []⟩] }).team.matq, m.set ≠ 0) ∧
    (on { M1 with matq := [⟨false, 5, 1, false, 1, 0, 1024, []⟩] }).arrayHeld 0 = false ∧ (on M1).team.matq = [] := by
  decide +kernel

theorem witness_MatrixDrain : (Instr.mdrain ⟨0, 4, 0b1011101100⟩).wf = true ∧ mdPair ⟨0, 4, 0b1011101100⟩ = true ∧
    mdAmax ⟨0, 4, 0b1011101100⟩ = true ∧ (4 : BitVec 6).toNat % 2 = 0 ∧ (Instr.mdrain ⟨0, 0, 0⟩).wf = true ∧ mdAmax ⟨0, 0, 0⟩ = false ∧
    mdD ⟨28, 0, 0⟩ + fragRegs (ofmtWidth 0) 1024 ≤ M1.vregs ∧ (on M1).team.allRowsFull (run 56 4) = true ∧
    (on M1).team.exc = 0 ∧ (on M1).team.excFlags = 0 ∧ (∀ x : Fl, x &&& (on M1).team.te = 0) ∧
    ((on { M1 with sreg := [(4, 2)] }).team.s 4).toNat % 4 ≠ 0 ∧ ((on M1).team.s 5).toNat % 4 = 0 ∧
    (∃ sp, (on M1).checkSpans ((on M1).viaOf (on M1).cur) [(((on M1).team.s 5).toNat, 4)] (needR ||| needW) true polWt = .ok sp) ∧
    (on M1).arrayHeld 0 = false ∧ (on M1).team.matq = [] ∧
    mdMode ⟨0, 0, 0b0001100000⟩ (on M1).team < 5 :=
  ⟨by decide, by decide, by decide, by decide, by decide, by decide, by decide, by decide +kernel, by decide +kernel, by decide +kernel,
    fun _ => by rw [on_team, show M1.te = 0 from rfl]; exact BitVec.and_zero,
    by decide +kernel, by decide +kernel, ok_of _ (by decide +kernel), by decide +kernel, by decide +kernel, by decide +kernel⟩

/-- A matrix operation in flight. -/
def op1 (gang : Bool) : MatOp := ⟨gang, 5, 1, false, 1, 0, 1024, []⟩

theorem witness_MatrixPasses : (S1.teamAt 0).matq = [] ∧
    (let s := on { M1 with matq := [op1 false] }
     (s.teamAt 0).matq = op1 false :: [] ∧ (s.teamAt 0).status = .resident ∧ s.gangBroken 0 = false) ∧
    (let t : Team := { M1 with matq := [op1 true], gang := 0x200000008, status := .resident }
     let s : State := { S0 with teams := [{ t with tix := 0 }, { t with tix := 1, core := 1, status := .ready }] }
     (s.teamAt 0).matq = op1 true :: [] ∧ (s.teamAt 0).status = .resident ∧ s.gangBroken 0 = true) ∧
    (∀ s ∈ [ganged ⟨0, 8, 0b0001000101⟩ ⟨0, 8, 0b0001000101⟩, ganged ⟨0, 8, 0b0001000101⟩ ⟨0, 8, 0b0010000101⟩],
      let ms := (s.gangMembers 0).filterMap id
      s.gangArrived 0 = true ∧ ms ≠ [] ∧ ∀ j ∈ ms, (s.teamAt j).status = .resident ∧ (s.teamAt j).matq = [] ∧ s.arrayHeld j = false) ∧
    (let arrivals := (((ganged ⟨0, 8, 0b0001000101⟩ ⟨0, 8, 0b0001000101⟩).gangMembers 0).filterMap id).filterMap
        (ganged ⟨0, 8, 0b0001000101⟩ ⟨0, 8, 0b0001000101⟩).arrivalOf
     arrivals.all (fun a => arrivals.all a.agree) = true) ∧
    (let arrivals := (((ganged ⟨0, 8, 0b0001000101⟩ ⟨0, 8, 0b0010000101⟩).gangMembers 0).filterMap id).filterMap
        (ganged ⟨0, 8, 0b0001000101⟩ ⟨0, 8, 0b0010000101⟩).arrivalOf
     arrivals.all (fun a => arrivals.all a.agree) = false) ∧
    (let s : State := { S0 with teams := [{ M1 with matq := [op1 true], gang := 0x200000008, status := .resident, tix := 0 },
        { M1 with matq := [op1 true], gang := 0x200000008, status := .resident, tix := 1, core := 1 }] }
     (s.teamAt 0).matq = op1 true :: [] ∧ s.gangBroken 0 = false ∧ (op1 true).gang = true ∧ ((s.gangMembers 0).filterMap id).Nodup) ∧
    (S1.teamAt 0).prods = [] ∧ (let p : ProdRow := ⟨4, 31, [], some 4, false⟩
      let t := (on { T1 with prods := [p, ⟨5, 0, [], some 4, false⟩] }).teamAt 0
      t.prods ≠ [] ∧ t.landable = [p] ∧ S1.pickFrom 2 [p] = some p) ∧
    (let x : AccElem := ⟨0, 0, 0, false⟩
     x.anchor.toInt ≤ 2 ∧ -(2 : Int) ^ 191 ≤ -2 ^ 189 * 2 ^ (2 - x.anchor.toInt).toNat ∧
       x.acc.toInt + -2 ^ 189 * 2 ^ (2 - x.anchor.toInt).toNat < 2 ^ 191) ∧
    (-16384 ≤ (boundParts 0).2 ∧ (boundParts 0).2 ≤ 16384) ∧ 2 ^ 64 - 1 < 2 ^ 64 := by
  decide +kernel

/-- What a chain of reads found. -/
def readOf (x : Except Stop (State × Nat)) : Option Nat := match x with
  | .ok a => some a.2
  | .error _ => none

/-- The descriptor, and then the two grids it names, as CPYMG reads them. -/
def mgReads (s : State) (a : Nat) : Option (Nat × Nat × Nat) := match (s.release s.cur 2).readBlock a 64 (needR ||| needW) with
  | .error _ => none
  | .ok (s1, d) => match s1.readBlock (bitsAt d 0 57) 32 needR with
    | .error _ => none
    | .ok (s2, xs) => match s2.readBlock (bitsAt d 64 57) 32 needR with
      | .error _ => none
      | .ok (_, xd) => some (d, xs, xd)

/-- The descriptor and the member table as CPYRED reads them. -/
def redReads (s : State) (a : Nat) : Option (Nat × Nat) := match (s.release s.cur 2).readBlock a 64 needR with
  | .error _ => none
  | .ok (s1, d) => match s1.readBlock (bitsAt d 256 64) (8 * (bitsAt d 232 8 + 1)) needR with
    | .error _ => none
    | .ok (_, tab) => some (d, tab)

/-- The device with T2 and a block of 64 bytes at the start of its cluster memory. -/
def C1 (x : Nat) : State := { on T2 with mem := (on T2).mem.writes clusterKey (leBytes 64 x) }

/-- A multigrid descriptor whose two grids lie in cluster memory. -/
def mgDesc : Nat := (clusterVa.toNat + 64) * (1 + 2 ^ 64)

/-- A collective's descriptor whose member table lies in cluster memory, `x` added. -/
def redDesc (x : Nat) : Nat := clusterVa.toNat * 2 ^ 256 + x

theorem witness_CopyIssue : (Instr.cpy 4 ⟨5, 6, 7⟩).wf = true ∧ 2 ^ 36 ≤ ((on { T1 with sreg := [(7, 0x1000000000)] }).team.s 7).toNat ∧
    (S1.team.s 7).toNat = 0 ∧ (S1.team.s 5).toNat < 2 ^ 36 ∧ (S1.team.s 5).toNat ≠ 0 ∧ (Instr.cpymgFw 4 ⟨0, 5, 0b1011001⟩).wf = true ∧
    (on T2).team.s 5 = clusterVa ∧ clusterVa.toNat % 64 = 0 ∧ ((on { T1 with sreg := [(5, 32)] }).team.s 5).toNat % 64 ≠ 0 ∧
    mgReads (C1 mgDesc) clusterVa.toNat = some (mgDesc, 0, 0) ∧ bitsAt mgDesc 128 57 = 0 ∧ (gridOf 0).fmt < 4 ∧
    (gridOf 0).aligned = true ∧ mgShapeOk 1 0 mgDesc (gridOf 0) (gridOf 0) = true ∧
    mgReads (C1 (mgDesc + 2 ^ 200)) clusterVa.toNat = some (mgDesc + 2 ^ 200, 0, 0) ∧ mgShapeOk 1 0 (mgDesc + 2 ^ 200) (gridOf 0) (gridOf 0) = false ∧
    readOf ((C1 1).readBlock clusterVa.toNat 64 (needR ||| needW)) = some 1 ∧ bitsAt 1 0 57 % 32 ≠ 0 ∧
    (Instr.cpyred 4 ⟨0, 5, 0b0101000000⟩).wf = true ∧ redReads (C1 (redDesc 0)) clusterVa.toNat = some (redDesc 0, 0) ∧
    redAligned (redDesc 0) = true ∧ redAligned (redDesc 256) = true ∧ redAligned (redDesc (2 ^ 64)) = false ∧
    redReads (C1 (redDesc (2 ^ 64))) clusterVa.toNat = some (redDesc (2 ^ 64), 0) ∧
    bitsAt (redDesc (2 ^ 240)) 232 8 < bitsAt (redDesc (2 ^ 240)) 240 8 ∧
    redReads (C1 (redDesc (2 ^ 240))) clusterVa.toNat = some (redDesc (2 ^ 240), 0) ∧ (4 ≤ 5 ∧ bitsAt (redDesc (2 ^ 128)) 128 32 % 32 ≠ 0) ∧
    redReads (C1 (redDesc 2)) clusterVa.toNat = some (redDesc 2, 2) ∧ 1 < field (BitVec.ofNat 64 (bitsAt 2 0 64)) 0 8 := by
  decide +kernel

theorem witness_CopyBatches : S1.runs ∧ S1.team.keeps 5 ((S1.team.closed + 1).setWidth 64) ∧
    (let t := (on { T1 with spPtr := 0x200000 }).team
     ¬ t.keeps 63 ((t.closed + 1).setWidth 64)) ∧ 0 < ((1 : BitVec 32) - S1.team.closed).toInt ∧
    (((1 : BitVec 32) - (on { T1 with closed := 1 }).team.closed).toInt ≤ 0 ∧
      ((on { T1 with closed := 1 }).team.done - (1 : BitVec 32)).toInt < 0) ∧
    (((1 : BitVec 32) - (on { T1 with closed := 1, done := 1 }).team.closed).toInt ≤ 0 ∧
      0 ≤ ((on { T1 with closed := 1, done := 1 }).team.done - (1 : BitVec 32)).toInt) :=
  ⟨by unfold State.runs; decide +kernel, fun h => absurd h (by decide), fun h => absurd (h rfl) (by decide +kernel), by decide +kernel,
    ⟨by decide +kernel, by decide +kernel⟩, by decide +kernel, by decide +kernel⟩

/-- A copy of 64 bytes from 0x200000 to 0x300000. -/
def copy1 : Copy := { S1.newCopy (.cpy 0) false false 0 with dst := 0x300000, src := 0x200000, len := 64 }

/-- The address of a protection fault. -/
def protAt (x : Except Stop (List Span)) : Option Nat := match x with
  | .error (.prot va) => some va
  | _ => none

/-- A reduction of one member that has formed, and its contribution. -/
def red1 : Copy := { S1.newCopy (.red 0) false false 0 with src := 0x200000, members := [0], phase := 1 }
def con1 : Contribution := ⟨none, redGroup red1.desc.toNat, 0, 0, 0, 0, red1.die, redRank red1.desc.toNat, []⟩

theorem witness_CopyEngines : (∀ c ∈ S1.copies, c.id ≠ S1.arg.a) ∧
    (let s : State := { S1 with copies := [copy1], arg := { a := copy1.id } }
     s.copies.find? (fun x => x.id == s.arg.a) = some copy1 ∧ copy1.held = none ∧
       field (({ s with ctl := [] } : State).creg 0x18) (8 * copy1.die) 8 = 0 ∧ field (s.creg 0x18) (8 * copy1.die) 8 ≠ 0 ∧
       (∃ a, s.checkSpans copy1.via [(copy1.src.toNat, 64)] needR true polWt = .ok a) ∧
       (∃ b, s.checkSpans copy1.via [(copy1.dst.toNat, 64)] needW false 0 = .ok b) ∧
       protAt (s.checkSpans copy1.via [(2 ^ 60, 64)] needR true polWt) = some (2 ^ 60) ∧ s.mem.wf = true) ∧
    ({ S1 with arg := { con := some con1 } }).arg.con = some con1 ∧ S1.copies.find? (fun c => c.phase == 1 && c.hears con1) = none ∧
    (let s : State := { S1 with copies := [red1], collected := [con1] }
     s.copies.find? (fun c => c.phase == 1 && c.hears con1) = some red1 ∧ mismatch red1 (s.heard red1) = false ∧
       (s.heard red1).length = redNm red1.desc.toNat + 1) :=
  ⟨by decide +kernel, ⟨by decide +kernel, by decide +kernel, by decide +kernel, by decide +kernel, ok_of _ (by decide +kernel), ok_of _ (by decide +kernel),
    by decide +kernel, by decide +kernel⟩, by decide +kernel, by decide +kernel, by decide +kernel, by decide +kernel, by decide +kernel⟩

/-! ### Witnesses: work records, traps, teams, queues -/

/-- A record of one team of 32 lanes and 8 registers with one block of stack, of KIND `kind`, its entry at 0x100000. -/
def rec0 (kind : Nat) : Nat := 0x100000 + 32 * 2 ^ 192 + kind * 2 ^ 208 + 2 ^ 248

/-- A queue-table entry: EN, PROD as given, LOG 4, pool stack 2, two pool slots, BASE 0x30000, HEAD 0 and TAIL `tail`. -/
def qEntry (prod tail : Nat) : Nat :=
  2 * 2 ^ 232 + 2 ^ 171 + prod * 2 ^ 172 + 4 * 2 ^ 173 + 2 * 2 ^ 240 + 0x30000 / 64 * 2 ^ 262 + tail * 2 ^ 480 + 0x400000 * 2 ^ 320

/-- T2's device with queue 0 set up (its table at physical address 0), `r` at its head and at the start of cluster memory. -/
def Q0 (prod tail r : Nat) : State :=
  { on T2 with mem := ((S1.mem.writes 0 (leBytes 64 (qEntry prod tail))).writes 0x30000 (leBytes 64 r)).writes clusterKey (leBytes 64 r) }

/-- A whole chain of SPAWN or EMIT: the record read from `a`. -/
def recRead (s : State) (a : Nat) : Option Nat := readOf (s.readBlock a 64 needR)

theorem witness_WorkRecords : S1.queueOpen 0 = false ∧ (Q0 1 0 (rec0 0)).queueOpen ((Q0 1 0 (rec0 0)).team.s 0).toNat = true ∧
    ((Q0 1 0 0).team.s 5).toNat % 64 = 0 ∧ ((on { T1 with sreg := [(5, 32)] }).team.s 5).toNat % 64 ≠ 0 ∧
    recRead (Q0 1 0 (rec0 0)) clusterVa.toNat = some (rec0 0) ∧ (on T2).team.s 5 = clusterVa ∧ recordOk (rec0 0) 0 = true ∧ recordOk (rec0 1) 0 = false ∧
    (shapeOf (rec0 0)).join = 0 ∧ S1.team.depth ≠ 10 ∧ (Q0 1 0 (rec0 0)).qCount 0 < 2 ^ (Q0 1 0 (rec0 0)).qLog 0 ∧
    2 ^ (Q0 1 16 (rec0 0)).qLog 0 ≤ (Q0 1 16 (rec0 0)).qCount 0 ∧
    (on { T1 with vregs := 8 }).team.vregs < 0 + 9 ∧ 120 + 8 ≤ S1.team.vregs ∧ recordOk (rec0 1) 1 = true ∧
    ¬ ((Q0 1 0 (rec0 1)).qField (Q0 1 0 (rec0 1)).myLaunch.queue 232 8 < (shapeOf (rec0 1)).stk + 1) ∧
    S1.qField S1.myLaunch.queue 232 8 < (shapeOf (rec0 1)).stk + 1 ∧
    (List.range S1.team.lanes).filter (inMask S1.team.exec) = [0] ∧ S1.team.rowsFull 120 8 = true ∧
    (on { T1 with empty := [(127, 1)] }).team.rowsFull 120 8 = false ∧
    ((S1.placeRecord (S1.binKey (rec0 1)) ⟨0, 0, 0⟩).isSome) = true ∧
    (let s : State := { S1 with bins := List.replicate 64 ⟨0, none, 1, 0, 0, 0, [], 0, false⟩ }
     (s.placeRecord (s.binKey (rec0 1)) ⟨0, 0, 0⟩).isNone = true) ∧
    (on { T1 with depth := 10 }).team.depth = 10 ∧ S1.team.emitting = none ∧ S1.team.badWords = [] ∧
    (Q0 1 0 (rec0 0)).appendWait ((Q0 1 0 (rec0 0)).team.s 0).toNat = none ∧
    (let s : State := { S1 with mem := S1.mem.writes 0 (leBytes 64 (qEntry 1 0 + 2 ^ 38 / 64 * 2 ^ 262 - 0x30000 / 64 * 2 ^ 262)) }
     s.queueOpen 0 = true ∧ s.qCount 0 < 2 ^ s.qLog 0 ∧ s.appendWait 0 = some .busy) ∧
    (on { T1 with emit := some (0x100000, BitVec.ofNat 512 (rec0 1), 3) }).team.emitting = some (BitVec.ofNat 512 (rec0 1), 3) ∧
    (S1.checkJoin (shapeOf (rec0 1)).join).isOk = true ∧ [3, 5] ≠ [] ∧ 7 < 8 := by
  decide +kernel

theorem witness_PhaseBarriersAndPrefetch : (S1.team.s 5).toNat % 64 = 0 ∧
    (∃ sp, S1.checkSpans (S1.viaOf S1.cur) [((S1.team.s 5).toNat, 64)] (needR ||| needW) true polOp = .ok sp) ∧
    ¬ (2 < bitsAt 0 296 8 ∨ phNm 0 < S1.team.gix) ∧ 2 < bitsAt (3 * 2 ^ 296) 296 8 ∧ phNm 0 < (on { T1 with gix := 1 }).team.gix ∧
    phMay 0 0 (S1.team.allow.toNat % 8) = true ∧ phMay (1 + 2 ^ 288) 0 0 = false ∧
    0 < (BitVec.ofNat 32 (bitsAt 0 256 32) - ((on { T1 with sreg := [(4, 0xFFFFFFFF)] }).team.s 4).setWidth 32).toInt ∧
    ¬ 0 < (BitVec.ofNat 32 (bitsAt 0 256 32) - (S1.team.s 4).setWidth 32).toInt ∧ 31 < 32 ∧
    (∃ sp, S1.checkSpans (S1.viaOf S1.cur) [((S1.team.s 5).toNat, 64)] needR true polOp = .ok sp) ∧ (S1.team.s 5).toNat % 256 = 0 ∧
    (∃ sp, S1.checkSpans (S1.viaOf S1.cur) [((S1.team.s 5).toNat, 256)] needW false polWt = .ok sp) ∧ S1.team.keeps 4 0 :=
  ⟨by decide +kernel, ok_of _ (by decide +kernel), by decide +kernel, by decide +kernel, by decide +kernel, by decide +kernel,
    by decide +kernel, by decide +kernel, by decide +kernel, by decide, ok_of _ (by decide +kernel), by decide +kernel,
    ok_of _ (by decide +kernel), fun h => absurd h (by decide)⟩

/-- T1 with a trap handler at 0x100800. -/
def H1 : Team := { T1 with tvec := 0x100800 }

theorem witness_TrapDelivery : 65535 < 65536 ∧ (on H1).team.tvec ≠ 0 ∧ (on H1).team.handler = false ∧ (on H1).team.div ≠ [] := by
  decide +kernel

theorem witness_TrapInstructions : S1.runs ∧ (on { T1 with tvec := 0 }).team.tvec = 0 ∧ (on { H1 with tcause := 0x109 }).team.handler = true ∧
    S1.team.handler = false ∧ ({ S1 with arg := { a := 2, b := 3 } } : State).arg.a = 2 ∧
    ({ S1 with arg := { a := 1, b := 3 } } : State).arg.a = 1 ∧ S1.arg.a = 0 := by
  unfold State.runs
  decide +kernel

/-- A team that waits to become resident. -/
def W1 : State := { S1 with teams := [{ T1 with status := .ready }], resq := [(0, 0)] }

/-- A team of 8 registers off its slot with CAUSE 2, and a frame at 4 MiB of one divergence entry, with `l` lanes and `v`
registers and zeros otherwise. -/
def savedAs (l v : Nat) : State :=
  let s : State := (on { T1 with vregs := 8, status := .ready, cause := 2 }).setCreg 0x80 0x1000000000004
  { s with mem := s.mem.writes 0x400000 (leBytes 128 (2 * 2 ^ 220 + 2 ^ 264 + (l + (v / 8 - 1) * 2 ^ 12) * 2 ^ 704)), resq := [(0, 0)] }

def saved : State := savedAs 32 8

/-- Every core of die 0 but the first down, and another team there. -/
def tight (s : State) : State :=
  { s with
    teams := s.teams ++ [{ T1 with tix := 1, group := 7 }]
    coreDown := ((List.range 32).flatMap fun c => (List.range 8).map fun i => (0, c, i)).filter fun x => x != (0, 0, 0) }

/-- The state whose team has read its frame. -/
def loaded (s : State) (k : Nat) : Option State :=
  let u := s.spanTouch (s.teamAt k).die (s.frameAddr (s.teamAt k).die ((s.teamAt k).frameSlot.getD 0)) (2 ^ 20)
  (u.frameTeam k).map fun v => u.setTeam k v

/-- What a restore needs: a valid frame, and a fitting core with a free slot for the team it gives. -/
def restorable (s : State) (k : Nat) : Bool :=
  match loaded s k with
  | none => false
  | some u => u.unitFits k && !(u.fitting k).isEmpty &&
    (u.fitting k).all fun i => !(u.freeSlots (u.teamAt k).die (u.teamAt k).cluster i).isEmpty

/-- What a team brought in needs: it is ready, alone, fits, and no drain holds it; and its CAUSE. -/
def bringable (s : State) (cause : BitVec 4) : Bool :=
  (s.teamAt 0).status == .ready && s.unitOf 0 == [0] && s.unitFits 0 && !s.inDrain (s.teamAt 0).launch && (s.teamAt 0).cause == cause

theorem witness_TeamLifecycle :
    (S1.runs ∧ ∀ a ∈ (S1.group S1.team.group).latch, (S1.teamAt a.team).gangPositions S1.team.tix = []) ∧
    (bringable W1 0 = true ∧ W1.fitting 0 ≠ [] ∧ ∀ i ∈ W1.fitting 0, W1.freeSlots (W1.teamAt 0).die (W1.teamAt 0).cluster i ≠ []) ∧
    (let s : State := { W1 with teams := [{ T1 with status := .ready, cause := 1 }] }
     bringable s 1 = true ∧ s.frameBusy 0 = false ∧ (s.frameLoss 0).isNone = true ∧ (s.frameTeam 0).isNone = true) ∧
    (let s := saved.setCreg 0x80 0x1000000040000
     bringable s 2 = true ∧ s.frameBusy 0 = true) ∧
    (let s := saved.setCreg 0x20 1
     bringable s 2 = true ∧ s.frameBusy 0 = false ∧ (s.frameLoss 0).isSome = true) ∧
    (S1.teamAt 0).status ≠ .ready ∧ S1.arg.a < S1.teams.length ∧ (W1.teamAt 0).status ≠ .resident ∧ 15 < 16 ∧
    (S1.draining (S1.teamAt 0).launch = false ∧ 14 ≠ 3) ∧
    S1.waitingOn 0 = [] ∧ W1.waitingOn 0 = 0 :: [] ∧
    (bringable saved 2 = true ∧ saved.frameBusy 0 = false ∧ (saved.frameLoss 0).isNone = true ∧ (saved.frameTeam 0).isSome = true ∧
      restorable saved 0 = true) ∧
    (let s := tight (savedAs 1024 128)
     bringable s 2 = true ∧ s.frameBusy 0 = false ∧ (s.frameLoss 0).isNone = true ∧ (loaded s 0).isSome = true ∧
       (loaded s 0).all (fun w => !w.unitFits 0) = true) ∧
    (let s : State := { S1 with teams := [{ T1 with status := .ready, vregs := 512, lanes := 1024 }, T1], resq := [(0, 0)], clock := 1000000 }
     s.waitingOn 0 = [0] ∧ s.unitFits 0 = false ∧ s.reservedFor 0 = false ∧
       s.victimOf ((s.teamsWith fun t => t.status == .resident && t.die == 0).filter s.aged) = some 1) ∧
    (let s : State := { S1 with teams := [{ T1 with status := .ready, vregs := 512, lanes := 1024 }], resq := [(0, 0)] }
     s.waitingOn 0 = [0] ∧ s.unitFits 0 = false ∧ s.reservedFor 0 = false ∧
       (s.teamsWith fun t => t.status == .resident && t.die == 0).filter s.aged = []) ∧
    (W1.waitingOn 0 = 0 :: [] ∧ W1.unitFits 0 = true) ∧
    ((S1.freeGroup 0).mayRetire 0 = false ∧ (S1.freeGroup 0).faults = []) ∧
    (let s : State := { S1 with teams := [{ T1 with status := .ended }], faults := [⟨0, 0, 0, true, [], [], [0], [], 0⟩] }
     (s.freeGroup 0).mayRetire 0 = true ∧ (s.freeGroup 0).faults.any (fun f => f.retires.contains 0) = true) ∧
    (let s : State := { S1 with teams := [{ T1 with status := .ended, joins := [0x200000] }] }
     (s.freeGroup 0).mayRetire 0 = true ∧ (s.freeGroup 0).faults = [] ∧ ((s.freeGroup 0).teamAt 0).joins = 0x200000 :: [] ∧
       ((s.freeGroup 0).checkSpans (engineVia ((s.freeGroup 0).launch 0).asid 0 0) [(0x200000, 8)] needW true polWt).isOk = true) ∧
    (let s : State := { S1 with teams := [{ T1 with status := .ended }] }
     (s.freeGroup 0).mayRetire 0 = true ∧ (s.freeGroup 0).faults = [] ∧ (s.teamAt 0).joins = [] ∧
       (s.groupTeams 0).all ((s.group 0).arrivals.contains ·) = true ∧ (s.shareTeams 0).all ((s.share 0).arrivals.contains ·) = true) ∧
    (S1.groupTeams 0).all ((S1.group 0).arrivals.contains ·) = false ∧ (S1.shareTeams 0).all ((S1.share 0).arrivals.contains ·) = false := by
  unfold State.runs
  decide +kernel

/-! ### Witnesses: dispatching and draining -/

/-- Every function and die ready. -/
def up (s : State) : State := s.setCreg 0x10 (BitVec.allOnes 64)

/-- `Q0` with eight frame slots, on a device that is up. -/
def Q1 (prod tail r : Nat) : State := (up (Q0 prod tail r)).setCreg 0x80 0x8000000000040

/-- Queue 0 with one record `r` on a device that is up and has no team. -/
def Q2 (en r : Nat) : State :=
  let m := Memory.writes [] 0 (leBytes 64 (en * 2 ^ 171 + 4 * 2 ^ 173 + 0x30000 / 64 * 2 ^ 262 + 2 ^ 480))
  (up { reset with mem := m.writes 0x30000 (leBytes 64 r) }).setCreg 0x80 0x8000000000040

/-- A closed bin or key of queue 0 with one record. -/
def bin1 (agg : Option Nat) : Bin := ⟨0, agg, 0, 0x100000, BitVec.ofNat 64 (rec0 1 / 2 ^ 192), 1, [⟨BitVec.ofNat 512 (rec0 1), 0, 0⟩], 0, true⟩

/-- Queue 0 is live as `x` says, and no other queue is. -/
def live0 (s : State) (x : Bool) : Bool := (List.range 1024).all fun q => s.queueLive q == (x && q == 0)

theorem live0_iff (s : State) (h : live0 s true = true) (p : Nat) (hp : p < 1024) : s.queueLive p = true ↔ p = 0 := by
  rw [eq_of_beq (List.all_eq_true.mp h p (List.mem_range.mpr hp))]; simp

theorem eligible_iff (s : State) (d : Nat) (h : live0 s true = true) (h0 : s.eligible 0 d = true) (p : Nat) (hp : p < 1024) :
    s.eligible p d = true ↔ p = 0 := by
  constructor
  · intro e
    rw [State.eligible, Bool.and_eq_true] at e
    exact (live0_iff s h p hp).mp e.1
  · rintro rfl
    exact h0

/-- Every core of die 0. -/
def cores0 : List (Nat × Nat × Nat) := (List.range 32).flatMap fun c => (List.range 8).map fun i => (0, c, i)

theorem no_slot (s : State) (h : s.coreDown = cores0) : s.hasFreeSlot 0 = false := by
  rw [State.hasFreeSlot, List.any_eq_false]
  intro c hc
  rw [Bool.not_eq_true, List.any_eq_false]
  intro i hi
  have : (0, c, i) ∈ cores0 := List.mem_flatMap.mpr ⟨c, hc, List.mem_map.mpr ⟨i, hi, rfl⟩⟩
  simp [State.coreUp, h, this]

/-- The device as a decision of die 0 finds it. -/
def seat (s : State) : State := (s.assignClusters 0).assignFrames 0

theorem witness_Dispatching_slots : let s : State := { up S0 with teams := [], groups := [], coreDown := cores0 }
    (seat s).nextIn 0 = none ∧ (seat s).dieWaiting 0 = false ∧ s.stranded 0 = false ∧ (seat s).hasFreeSlot 0 = false :=
  ⟨by decide +kernel, by decide +kernel, by decide +kernel, no_slot _ (by decide +kernel)⟩

/-- The queue table in memory that is not up. -/
def noTable (s : State) : State := s.setCreg 0x40 0x4000000000

theorem witness_Dispatching : (Q0 1 0 0).qProd 0 = true ∧ (Q0 0 0 0).qProd 0 = false ∧
    (let s := Q0 0 5 0
     2 ^ s.qLog 0 < (17 + 2 ^ 32 - s.qHead 0) % 2 ^ 32 ∧ (4 + 2 ^ 32 - s.qHead 0) % 2 ^ 32 < s.qCount 0 ∧
       (16 + 2 ^ 32 - s.qHead 0) % 2 ^ 32 ≤ 2 ^ s.qLog 0 ∧ s.qCount 0 ≤ (16 + 2 ^ 32 - s.qHead 0) % 2 ^ 32) ∧
    (S1.sec.recovery = false ∧ ∀ x ∈ [(0, 4), (4092, 4), (4088, 8)],
      (x.2 = 4 ∨ x.2 = 8) ∧ x.1 % x.2 = 0 ∧ x.1 < 4096 ∧ S1.unitWait ioDie (S1.qAddr (x.1 / 4)) (64 * (x.2 / 4)) true = none) ∧
    ¬ ((4 = 4 ∨ 4 = 8) ∧ 4096 % 4 = 0 ∧ 4096 < 4096) ∧ (noTable S1).unitWait ioDie ((noTable S1).qAddr 0) 64 true = some .busy ∧
    (bitAt ((up S1).creg 0x10).toNat 35 = true ∧ (up S1).dieReady 0 = true) ∧ S1.dieReady 7 = false ∧ S1.stranded 0 = false ∧
    ((seat (up W1)).nextIn 0 = some 0 ∧ (up W1).stranded 0 = false) ∧
    (let s := up { S1 with teams := [{ T1 with status := .ready, vregs := 512, lanes := 1024 }], resq := [(0, 0)] }
     (seat s).nextIn 0 = none ∧ (seat s).dieWaiting 0 = true ∧ s.stranded 0 = false) ∧
    (let u := seat (Q2 1 0)
     u.nextIn 0 = none ∧ u.dieWaiting 0 = false ∧ u.hasFreeSlot 0 = true ∧ u.headWait = none ∧ (Q2 1 0).stranded 0 = false ∧
       (List.range 1024).find? (fun q => u.queueLive q && !recordOk (u.touchHeads.headRec q) 0) = some 0) ∧
    (let u := seat (Q2 1 (rec0 0))
     u.hasFreeSlot 0 = true ∧ u.nextIn 0 = none ∧ u.dieWaiting 0 = false ∧ u.headWait = none ∧ live0 u true = true ∧
       live0 u.touchHeads true = true ∧ u.touchHeads.eligible 0 0 = true ∧ recordOk (u.touchHeads.headRec 0) 0 = true) ∧
    (let u := seat ((Q2 1 (rec0 0)).setCreg 0x10 (BitVec.allOnes 64 - 2 ^ 16))
     u.headWait = some .busy) ∧
    live0 (seat (Q2 0 0)) false = true := by
  decide +kernel

/-- Has a flush room for the teams it forms? -/
def hasRoom (s : State) (b : Bin) : Bool :=
  decide (b.teams ≤ (s.freePool b.die b.queue).length) && decide (b.teams ≤ (s.freeFrames b.die).length)

theorem witness_Dispatching_bins : S1.closedBins 0 false = [] ∧ S1.closedBins 0 true = [] ∧
    (let s : State := { Q1 0 0 0 with bins := [bin1 none] }
     s.closedBins 0 false = [bin1 none] ∧ hasRoom s (bin1 none) = true ∧ 0 ∈ s.freePool 0 0 ∧
       (s.checkSpans (engineVia (s.qAsid 0) 0 0)
         [((s.poolBase 0 0 0 + (shapeOf (bin1 none).first.toNat).stk * 65536) % 2 ^ 64, 64)] needW false polWt).isOk = true) ∧
    (let s : State := { Q0 0 0 0 with bins := [{ bin1 none with queue := 1 }] }
     s.closedBins 0 false = [{ bin1 none with queue := 1 }] ∧ hasRoom s { bin1 none with queue := 1 } = false) ∧
    (let s : State := { Q1 0 0 0 with bins := [bin1 (some 0)] }
     s.closedBins 0 true = [bin1 (some 0)] ∧ hasRoom s (bin1 (some 0)) = true ∧
       (s.checkSpans (engineVia (s.qAsid 0) 0 0) [((s.qField 0 384 64 + 0 * 2 ^ 22 + 0 * 2 ^ 18) % 2 ^ 64, 64)] needW false polWt).isOk = true) ∧
    (let s : State := { Q0 0 0 0 with bins := [{ bin1 (some 0) with queue := 1 }] }
     s.closedBins 0 true = [{ bin1 (some 0) with queue := 1 }] ∧ hasRoom s { bin1 (some 0) with queue := 1 } = false) := by
  decide +kernel

/-- A drain (OP 1) or resume (OP 2) of every queue under way since time 0. -/
def D1 (op : Nat) : State :=
  { (S1.setQueueSt 0 ⟨0, 0, 0, true⟩).setCreg 0x68 0x8000000000000000 with drainNow := BitVec.ofNat 64 (op * 2 ^ 62 + 2 ^ 61) }

/-- The same with its team held. -/
def D2 (op : Nat) : State := { D1 op with teams := [{ T1 with status := .drained }], savedOrder := [0] }

theorem witness_Draining : S1.drainQueued = [] ∧ ({ S1 with drainQueued := [0] } : State).drainQueued = 0 :: [] ∧
    ((D1 1).drainBusy = true ∧ (D1 1).drainNow.extractLsb' 62 2 = 1) ∧ ((D1 2).drainBusy = true ∧ (D1 2).drainNow.extractLsb' 62 2 = 2) ∧
    S1.drainBusy = false ∧ (D1 1).drainNow.getLsbD 61 = true ∧ 0 < (D1 1).teams.length ∧
    (({ D1 1 with teams := [{ T1 with status := .ready }] } : State).teamAt 0).status = .ready ∧
    (0 ∈ (D2 2).savedOrder ∧ ((D2 2).teamAt 0).status = .drained) ∧
    (let late := fun (s : State) => 1000 * ((s.creg 0x58).toNat / 2 ^ 32 % 2 ^ 16) ≤ s.clock.toNat - s.drainSince
     ¬ late (D1 1) ∧ late { D1 1 with clock := 2000000 }) ∧
    ((D1 1).scopeTeams fun t => t.status == .resident || t.status == .ready) = [0] ∧
    ((D2 1).scopeTeams fun t => t.status == .resident || t.status == .ready) = [] ∧ (D2 1).scopeBins = [] ∧ (D2 1).scopeCopies = [] ∧
    ({ D2 1 with bins := [bin1 none] } : State).scopeBins ≠ [] ∧
    (∃ c ∈ ({ D2 1 with copies := [copy1] } : State).scopeCopies, c.held = none) ∧
    (∀ c ∈ ({ D2 1 with copies := [{ copy1 with held := some 0 }] } : State).scopeCopies, c.held ≠ none) := by
  decide +kernel

/-! ### Witnesses: coherence -/

/-- A message about line 100 of die 0 from its core 1. -/
def msg1 : Msg := { noMsg with agent := .core 0 1, site := .die 0, line := 100, mask := 0xFFFF }

/-- An answer of that core to record 7 in a stage. -/
def ack1 (stage : Nat) : Msg := { msg1 with record := 7, seq := BitVec.ofNat 2 stage }

/-- A request record of line 100 in a stage, waiting for core 1. -/
def txn1 (k : ReqKind) (stage : Nat) : Txn := ⟨7, .die 0, 100, k, { msg1 with agent := .core 0 2 }, stage, [.core 0 1], 0, [], .agent⟩

def getting (k : ReqKind) : Miss := ⟨.core 0 1, .die 0, 100, k, msg1, 0, [], 0⟩

/-- A move of the page at 0x200000, in a state, with its leaf at 0x42008. -/
def move1 (st : MigState) : Move := ⟨0x42008, BitVec.ofNat 64 (0x20 * 2 ^ 16 + 3 * 2 ^ 6 + 1), 0x200000, 0, 0x400000, false, st, []⟩

/-- A state in which what an event of line 100 finds is given. -/
def coh (m : Msg) : State := { S1 with arg := { m := some m } }

theorem witness_CoherenceRequests :
    (let s : State := { S1 with seenTags := [(msg1, .getH)] }
     (s.seenTags.find? fun x => x.1.sameTag msg1 && x.2 == .getH) = some (msg1, .getH)) ∧
    (S1.seenTags.find? fun x => x.1.sameTag msg1 && x.2 == .getH) = none ∧ S1.homeState (64 * 100) = none ∧
    (S1.homeState (64 * (2 ^ 38 / 64 * 7))).isSome = true ∧ ReqKind.wb = .wb ∧ ReqKind.getH ≠ .wb ∧
    (let s : State := { S1 with txns := [txn1 .getO 1] }
     s.txnAt (.die 0) 100 = some (txn1 .getO 1) ∧ (txn1 .getO 1).kind ≠ .getH ∧ (txn1 .getO 1).queued = []) ∧
    (let t := { txn1 .getO 1 with queued := [(.getH, msg1)] }
     ∃ x ∈ t.queued, x.1 = .getH ∧ x.2.sameTag msg1 = true) ∧
    S1.txnAt (.die 0) 100 = none ∧ S1.migrating 100 = none ∧
    ((S1.txns.filter fun t => t.site == .die 0).length < 2048 - 64 ∧ S1.buffered = [] ∧ (S1.dirSetOf (.die 0) 100).length < 16) ∧
    ({ S1 with moves := [move1 .copy] }.migrating 0x8000 = some 0 ∧ { S1 with moves := [move1 .copy] }.txnAt (.die 0) 0x8000 = none) ∧
    (∃ x ∈ ({ S1 with buffered := [(.getH, msg1)] } : State).buffered, x.2.site = .die 0 ∧ x.2.line = 100) := by
  decide +kernel

theorem witness_CoherenceRequests_full : let s : State := { S1 with dir := List.replicate 16 (noEntry (.die 0) 100) }
    (s.entry (.die 0) 100).st = 0 ∧ 16 ≤ (s.dirSetOf (.die 0) 100).length ∧ s.buffered = [] ∧ s.txns = [] :=
  ⟨by decide +kernel, by simp [State.dirSetOf, noEntry], rfl, rfl⟩

theorem witness_CoherenceRequests_entry : (noEntry (.die 0) 100).sound ∧ (1 : BitVec 16) ≠ 0 ∧
    ((noEntry (.die 0) 100).release (some .host) 1).victim .host = none ∧
    (let e : DirEntry := { noEntry (.die 0) 100 with o0 := some (.core 0 1), m0 := 0xFF, o1 := some (.core 0 2), m1 := 0xFF00 }
     (e.m0 &&& e.m1 = 0 ∧ e.o0 ≠ e.o1) ∧ (e.release (some (.core 0 3)) 1).victim (.core 0 3) ≠ none) := by
  refine ⟨⟨by decide, fun _ => by decide, fun _ => by decide, fun _ => by decide⟩, by decide, by decide +kernel, by decide +kernel,
    by decide +kernel⟩

theorem witness_CoherenceAnswers :
    (let s : State := { coh msg1 with miss := [getting .getO] }
     (s.miss[0]? = some (getting .getO) ∧ (getting .getO).kind = .getO) ∧ (s.msg.mask &&& ~~~(s.wordsHeld msg1.agent 100) ≠ 0)) ∧
    (coh msg1).miss = [] ∧ (coh msg1).wbuf = [] ∧ (coh { msg1 with agent := .llc 0 }).lineBusyAt (.die 0) 100 = false ∧
    (let w : WBuf := ⟨.strip, msg1, 0, 0⟩
     ({ coh msg1 with wbuf := [w] }).wbuf.find? (fun w => w.kind == BackKind.strip && w.msg.sameTag msg1) = some w) ∧
    (let w : WBuf := ⟨.flush, msg1, 0, 0⟩
     ({ coh msg1 with wbuf := [w] }).wbuf.find? (fun w => w.kind == BackKind.flush && w.msg.sameTag msg1) = some w) ∧
    ({ coh { msg1 with agent := .llc 0 } with txns := [txn1 .getO 1] }).lineBusyAt (.die 0) 100 = true ∧
    (coh msg1).awaiter msg1 1 2 = none ∧ (coh msg1).awaiter msg1 3 3 = none ∧
    (∀ i ∈ [1, 2], ({ coh (ack1 i) with txns := [txn1 .getO i] }).awaiter (ack1 i) 1 2 = some (txn1 .getO i)) ∧
    ({ coh (ack1 3) with txns := [txn1 .getO 3] }).awaiter (ack1 3) 3 3 = some (txn1 .getO 3) ∧
    (let t := { txn1 .getO 3 with awaiting := [.host] }
     ({ coh (ack1 3) with txns := [t] }).awaiter { ack1 3 with agent := .host } 3 3 = some t) ∧
    (coh msg1).awaiter { msg1 with agent := .host } 3 3 = none ∧ 100 ∉ (coh msg1).biWait ∧ 100 ∈ ({ coh msg1 with biWait := [100] }).biWait ∧
    (coh msg1).miss.find? (fun x => x.req.sameTag msg1) = none ∧
    ({ coh msg1 with miss := [getting .putT] }).miss.find? (fun x => x.req.sameTag msg1) = some (getting .putT) ∧
    ({ coh msg1 with miss := [getting .getO] }).miss.find? (fun x => x.req.sameTag msg1) = some (getting .getO) ∧ 63 < 64 ∧
    msg1.block = [] ∧ (getting .getO).kind = .getO ∧ (getting .putT).kind ≠ .getO ∧
    hostLine 0 100 = false ∧ hostLine 0 (2 ^ 44) = true ∧ fget .i ({ S1 with cxl := [(2 ^ 44, .s)] }).cxl (2 ^ 44) = .s ∧
    S1.lineBusyAt .hostProxy (2 ^ 44) = false ∧ ({ S1 with txns := [⟨0, .hostProxy, 2 ^ 44, .getT, msg1, 0, [], 0, [], .snoop⟩] }).lineBusyAt
      .hostProxy (2 ^ 44) = true ∧ (100, 0) ∉ S1.cxlWait ∧
    (∀ w ∈ [0, 1, 2, 3, 4], (2 ^ 44, w) ∈ ({ S1 with cxlWait := [(2 ^ 44, w)] }).cxlWait) ∧ (List.replicate 64 (0 : Byte)).length = 64 := by
  decide +kernel

theorem witness_CoherenceAnswers_merge : S1.mem.wf = true ∧ (∀ i, i < 64 → (∃ e, physRange S1.tc (64 * 100 + i) = .flat e) ∧ S1.packed (64 * 100 + i) = false) ∧
    ∀ c ∈ S1.lines, ∀ i, c.ownsDirty 100 i = false := by
  have h : ∀ i, i < 64 → physRange S1.tc (64 * 100 + i) = .flat 0 ∧ S1.packed (64 * 100 + i) = false := by decide +kernel
  exact ⟨by decide +kernel, fun i hi => ⟨⟨0, (h i hi).1⟩, (h i hi).2⟩, fun c hc => nomatch hc⟩

/-! ### Witnesses: tiers, rings, faults -/

/-- A device with ring `i` of 16 records at 0x50000, its HEAD 0 and TAIL given, all functions up. -/
def ring (i tail : Nat) : State :=
  (((up S1).setRingWord i 0 0x50000).setRingWord i 1 4).setRingTail i tail

/-- The same with a record at the ring's start. -/
def ringWith (i n rec : Nat) : State := { ring i 1 with mem := S1.mem.writes 0x50000 (leBytes n rec) }

/-- The record a ring gives, if it gives one at once. -/
def taken (s : State) (i : Nat) : Option Nat := match s.ringNext i with
  | some (.ok (_, x)) => some x
  | _ => none

/-- The machine after its ring has given a record and moved on. -/
def popped (s : State) (i : Nat) (row : Instr) : State := match s.ringNext i with
  | some (.ok (u, _)) => u.ringPop i row
  | _ => s

/-- Must a ring wait for its record's home? -/
def ringBusy (s : State) (i : Nat) : Bool := match s.ringNext i with
  | some (.error .busy) => true
  | _ => false

/-- A record whose home is not up. -/
def asleep (i : Nat) : State := (ring i 1).setCreg 0x10 (BitVec.allOnes 64 - 2 ^ 16)

/-- A leaf of a 64 KiB page: of HBM at 0x200000, or of Steppe. -/
def leafHbm : Word64 := BitVec.ofNat 64 (0x20 * 2 ^ 16 + 2 ^ 6 + 1)
def leafSteppe : Word64 := BitVec.ofNat 64 (steppeBase + 2 ^ 14 + 2 ^ 6 + 1)

/-- A device all of which is up with an entry at 0x42008, and a frame in the pool. -/
def entryAt (x : Word64) : State := { ring 1 0 with mem := S1.mem.writes 0x42008 (leBytes 8 x.toNat), framePool := [0x400001] }

theorem witness_TiersAndMigration : S1.fillOf 0 = none ∧ { S1 with tcFills := [(0, 0, [100])] }.fillOf 0 = some (0, [100]) ∧
    { S1 with tcFills := [(0, 0, [])] }.fillOf 0 = some (0, []) ∧ S1.migReady = false ∧ (up S1).migReady = true ∧
    (up S1).leafStop 0x42008 = none ∧ isLeaf ((entryAt leafSteppe).tableEntry 0x42008) = true ∧ isLeaf ((up S1).tableEntry 0x42008) = false ∧
    ({ up S1 with txns := [txn1 .getO 1] }).leafStop (64 * 100) = some .busy ∧
    (let x : Word64 := BitVec.ofNat 64 (1 + 1 * 2 ^ 6 + 1 * 2 ^ 14 + 48 * 2 ^ 58)
     isLeaf x = true ∧ field x 14 2 = 1 ∧ field x 57 1 = 0 ∧ field x 6 2 ≠ 3 ∧ field (S1.creg 0x50) 58 6 = 48) ∧
    field ((S1.setCreg 0x50 0).creg 0x50) 46 8 = 0 ∧ S1.clock.toNat - S1.lastHalve < 1000000 * field (S1.creg 0x50) 46 8 ∧
    1000000 * field (S1.creg 0x50) 46 8 ≤ ({ S1 with clock := 20000000 }).clock.toNat - S1.lastHalve ∧
    (S1.unitStop ioDie (S1.asAddr 0) 8 false = none ∧ S1.unitStop ioDie (S1.asAddr 9) 8 false = none ∧ (S1.asEntry 9).getLsbD 0 = false) ∧
    ((S1.asEntry 0).getLsbD 0 = true ∧ (S1.asEntry 0 ||| 2).getLsbD 1 = true) ∧
    physRange S1.tc 0x42008 ≠ .unmapped ∧ (pointerOk 1 0 = true ∧ isLeaf 1 = false ∧ (1 : Word64).getLsbD 0 = true) ∧
    (S1.mem.wf = true ∧ 0x42008 % 8 = 0 ∧ S1.lines = [] ∧ S1.wbuf = []) ∧
    (S1.thrashOf 5).until_ = none ∧ (({ S1 with thrash := [⟨5, [], some 9⟩] }).thrashOf 5).until_ = some 9 ∧
    (S1.ringNext 0).isNone = true ∧ taken (ring 0 1) 0 = some 0 ∧ ringBusy (asleep 0) 0 = true ∧
    (let u := ringWith 0 8 (0x400000 + 1)
     taken u 0 = some 0x400001 ∧ frameOk u.tc 0x400001 1 = true ∧ (physRange u.tc (frameBase 0x400001)).tier = 0) ∧
    (let u := ringWith 0 8 (2 ^ 50)
     taken u 0 = some (2 ^ 50) ∧ frameOk u.tc (BitVec.ofNat 64 (2 ^ 50)) 1 = false ∧ frameOk u.tc (BitVec.ofNat 64 (2 ^ 50)) 2 = false) ∧
    S1.moveOf 0x42008 = none ∧ S1.offers = [] ∧
    ({ S1 with offers := [(0x42000, 0x200000, 0)] }).offers = (0x42000, 0x200000, 0) :: [] ∧ (ring 1 16).ringFull 1 = true ∧
    (ring 1 15).ringFull 1 = false ∧ (ring 1 0).migReady = true ∧ 16 ≤ (List.replicate 16 (move1 .copy)).length := by
  decide +kernel

theorem witness_TiersAndMigration_moves : (entryAt leafHbm).movable 0x42008 leafHbm = false ∧
    (entryAt leafSteppe).movable 0x42008 ((entryAt leafSteppe).tableEntry 0x42008) = true ∧ ((entryAt leafSteppe).admits 0x42008).1 = true ∧
    (let s : State := { entryAt leafSteppe with thrash := [⟨0x42008, [], some (2 ^ 40)⟩] }
     s.movable 0x42008 leafSteppe = true ∧ (s.admits 0x42008).1 = false) ∧
    ((entryAt leafSteppe).framePool.find? fun f => field f 0 2 == field leafSteppe 6 2) = some 0x400001 ∧
    (S1.framePool.find? fun f => field f 0 2 == field leafSteppe 6 2) = none ∧
    S1.pageAtWork (move1 .block) = false ∧ S1.hostShares (move1 .block) = [] ∧
    ({ S1 with txns := [{ txn1 .getO 1 with line := 0x8000 }] }).pageAtWork (move1 .block) = true ∧
    (S1.ringNext 2).isNone = true ∧ ringBusy (asleep 2) 2 = true ∧
    (let u : State := { ring 2 1 with mem := (S1.mem.writes 0x50000 (leBytes 16 (0x42008 + 0x400001 * 2 ^ 64))).writes 0x42008 (leBytes 8 leafHbm.toNat) }
     taken u 2 = some (0x42008 + 0x400001 * 2 ^ 64) ∧ u.leafStop 0x42008 = none ∧ u.migReady = true ∧ u.moves.length < 16 ∧
       (popped u 2 .migrationRequest).mayMove 0x42008 ((popped u 2 .migrationRequest).tableEntry 0x42008) 0x400001 = true) ∧
    (let u : State := ringWith 2 16 (0x42008 + 0x400001 * 2 ^ 64)
     (popped u 2 .migrationRequest).mayMove 0x42008 ((popped u 2 .migrationRequest).tableEntry 0x42008) 0x400001 = false) ∧
    (let u : State := { ringWith 2 16 (6400 + 0x400001 * 2 ^ 64) with txns := [txn1 .getO 1] }
     taken u 2 = some (6400 + 0x400001 * 2 ^ 64) ∧ u.leafStop 6400 = some .busy) ∧
    (∀ st ∈ [MigState.copy, .map, .replay, .abandon], ({ S1 with moves := [move1 st] }).moveOf 0x42008 = some (move1 st)) ∧
    S1.homeState (0x8000 * 64) = none ∧ S1.homeState (frameBase 0x400000) = none ∧ S1.spanBusy 0x400000 (2 ^ 16) = false ∧
    ({ S1 with txns := [{ txn1 .getO 1 with line := 0x10000 }] }).spanBusy 0x400000 (2 ^ 16) = true ∧
    ((S1.setCreg 0x20 0x10000).homeState (0x8000 * 64)).isSome = true ∧ (move1 .map).has (0x42008 / 64) = false ∧ (move1 .map).has 0x8001 = true ∧
    S1.leafStop 0x42008 = none ∧ S1.tableEntry 0x42008 ≠ (move1 .map).leaf ∧
    (let s : State := { S1 with mem := S1.mem.writeLe 0x42008 8 (move1 .map).leaf.toNat }
     s.tableEntry 0x42008 = (move1 .map).leaf) ∧ (move1 .copy).queued = [] := by
  decide +kernel

theorem witness_TiersAndMigration_copy : 0x200000 % 256 = 0 ∧ 0x400000 % 256 = 0 ∧ 256 % 256 = 0 ∧ 0x200000 + 256 ≤ 0x400000 ∧
    ∀ i, i < 256 → (∃ d, physRange S1.tc (0x200000 + i) = .flat d) ∧ ∃ d, physRange S1.tc (0x400000 + i) = .flat d := by
  have h : ∀ i, i < 256 → physRange S1.tc (0x200000 + i) = .flat 0 ∧ physRange S1.tc (0x400000 + i) = .flat 0 := by decide +kernel
  exact ⟨by decide, by decide, by decide, by decide, fun i hi => ⟨⟨0, (h i hi).1⟩, 0, (h i hi).2⟩⟩

/-- A pending fault of number 0. -/
def fault1 : PendFault := ⟨0, 0, 0, true, [], [], [], [], 0⟩

/-- An error record of one team. -/
def err1 : ErrRec := ⟨0, [0], []⟩

/-- Ring 5 with an error record due and a list buffer at `base`. -/
def errs (base : Word64) : State := { (ring 5 0).setCreg 0x78 base with errors := [err1] }

theorem witness_RingsAndFaults : 1 ∉ [0, 2, 4, 6] ∧ 6 ∈ [0, 2, 4, 6] ∧ S1.ringUp 6 = false ∧
    (let s := ring 6 5
     2 ^ s.ringLog 6 < (17 + 2 ^ 32 - s.ringHead 6) % 2 ^ 32 ∧ (4 + 2 ^ 32 - s.ringHead 6) % 2 ^ 32 < s.ringCount 6 ∧ s.ringUp 6 = true ∧
       ¬ (2 ^ s.ringLog 6 < (16 + 2 ^ 32 - s.ringHead 6) % 2 ^ 32) ∧ ¬ ((16 + 2 ^ 32 - s.ringHead 6) % 2 ^ 32 < s.ringCount 6)) ∧
    (doorbellRow 6).isSome = true ∧ 0 ∉ [1, 3, 5] ∧ (∀ i ∈ [1, 3, 5], (ring i 2).ringCount i = 2) ∧
    ((ring 4 1).ringCount 4 ≠ 0 ∧ (ring 4 1).ringUp 4 = true ∧ (ring 4 1).unitWait ioDie ((ring 4 1).ringSlot 4 0) 16 false = none) ∧
    (S1.ringNext 4).isNone = true ∧ ringBusy (asleep 4) 4 = true ∧ taken (ringWith 4 16 0) 4 = some 0 ∧ taken (ringWith 4 16 1) 4 = some 1 ∧
    ((popped { ringWith 4 16 0 with faults := [fault1] } 4 .faultReply).faults.find? fun f => f.fseq == BitVec.ofNat 32 (bitsAt 0 32 32) && f.posted) =
      some fault1 ∧ (S1.faults.find? fun f => f.fseq == 0 && f.posted) = none ∧ 2 ≤ bitsAt 3 0 2 ∧ bitsAt 1 0 2 = 1 ∧
    (S1.ringNext 6).isNone = true ∧ ringBusy (asleep 6) 6 = true ∧ taken (ringWith 6 32 0) 6 = some 0 ∧
    S1.invs = [] ∧ ({ S1 with invs := [⟨1, 0, true, 0, 0⟩] }).invs = ⟨1, 0, true, 0, 0⟩ :: [] := by
  decide +kernel

theorem witness_RingsAndFaults_errors : S1.postFaults.errors = [] ∧ ((errs 0).postFaults.errors = [err1] ∧ (errs 0).postFaults.ringFull 5 = false ∧ (errs 0).postFaults.listBase = 0) ∧
    ({ ring 5 16 with errors := [err1] }).postFaults.ringFull 5 = true ∧
    (let v := (errs 0x70000).postFaults
     let bs := (v.listBytes err1 v.listSize).2
     v.listBase ≠ 0 ∧ bs ≠ [] ∧ v.listPlace bs.length = some 0 ∧ v.unitWait ioDie v.listBase bs.length true = none ∧
       ({ v with txns := [{ txn1 .getO 1 with line := 0x70000 / 64 }] }).unitWait ioDie v.listBase bs.length true = some .busy ∧
       ({ v with listUse := [⟨0, 0, 64, []⟩] }).listPlace bs.length = none) ∧
    S1.sec.recovery = false ∧ (65532 % 4 = 0 ∧ 65532 < 65536 ∧ 65528 % 8 = 0) ∧ ({ S1 with sec := { S1.sec with recovery := true } }).sec.recovery = true ∧
    0x168 / 8 * 8 ≠ 0x1000 ∧ ctlGated 0x40 = true ∧
    (let s : State := { S1 with mem := S1.mem.writes 0 (leBytes 64 (2 ^ 171)) }
     s.quiet = false) ∧ (0 : Word64).extractLsb' 62 2 ≠ 1 ∧ (0x4000000000000000 : Word64).extractLsb' 62 2 = 1 ∧
    ((S1.setCreg 0x1008 0x8000000000000000).creg 0x1008).getLsbD 63 = true ∧ (S1.creg 0x1008).getLsbD 63 = false ∧
    (∀ op ∈ [0, 1, 2, 3, 4, 5], ((S1.setCreg 0x1000 (BitVec.ofNat 64 (op * 2 ^ 56))).creg 0x1000).extractLsb' 56 8 = BitVec.ofNat 8 op) := by
  decide +kernel

/-! ### Witnesses: the package -/

/-- The mailbox busy, its buffer at 0x60000 with 40,000 bytes. -/
def mail : State := ((S1.setCreg 0x1008 0x8000000000000000).setCreg 0x1010 0x60000).setCreg 0x1018 40000

theorem witness_BringUpAndMailbox :
    ({ S1 with config := { S1.config with cxlen := false } }).config.cxlen = false ∧ (let s : State := { S1 with config := { S1.config with cxlen := true }, sec := { S1.sec with hostTrained := true } }
     s.config.cxlen = true ∧ s.sec.hostTrained = true ∧ (s.creg 0x10 ||| s.creg 0x20) &&& 0xFF ≠ 0xFF) ∧
    ((up S1).creg 0x10 ||| (up S1).creg 0x20) &&& 0xFF = 0xFF ∧ bitAt (S1.creg 0x20).toNat 32 = false ∧
    bitAt ((S1.setCreg 0x20 0x100000000).creg 0x20).toNat 32 = true ∧ (up S1).creg 0x10 &&& 0xFFFF0000 = 0xFFFF0000 ∧
    (S1.creg 0x10 &&& 0xFFFF0000 ≠ 0xFFFF0000 ∧ (S1.setCreg 8 (S1.creg 8 ||| 1)).tc ≠ 0) ∧ S1.linkState 7 = 0 ∧ (S1.setLinkState 7 1).linkState 7 = 1 ∧
    (S1.setLinkState 7 2).linkState 7 = 2 ∧ bitAt (mail.creg 0x1008).toNat 63 = true ∧ bitAt (S1.creg 0x1008).toNat 63 = false ∧
    mail.sec.recovery = false ∧ mail.unitWait ioDie mail.mailBuf 64 true = none ∧ 30112 ≤ mail.mailLen ∧ (mail.setCreg 0x1018 64).mailLen < 30112 ∧
    ({ mail with txns := [{ txn1 .getO 1 with line := 0x60000 / 64 }] }).unitWait ioDie mail.mailBuf 64 true = some .busy ∧
    ({ mail with txns := [{ txn1 .getO 1 with line := 0x60000 / 64 }] }).unitWait ioDie mail.mailBuf 64 false = some .busy ∧
    mail.unitWait ioDie mail.mailBuf 64 false = none ∧ ({ S1 with sec := { S1.sec with recovery := true } }).sec.recovery = true := by
  decide +kernel

/-- A flit of traffic, the next in sequence, and one of zeros. -/
def flit1 : Flit := ⟨0x10 :: 1 :: (List.replicate 246 0 ++ leBytes 8 0xa803d79d9c89b303)⟩
def flit0 : Flit := ⟨List.replicate 256 0⟩

/-- Its CRC, 41 bytes of zeros at a time. -/
theorem flit1_crc : flit1.crcOk = true := by
  have h : flit1.bytes.take 248 = ([0x10, 1] : List Byte) ++ (List.replicate 41 0 ++ (List.replicate 41 0 ++ (List.replicate 41 0 ++
    (List.replicate 41 0 ++ (List.replicate 41 0 ++ List.replicate 41 0))))) := by decide +kernel
  have k0 : List.foldl crcByte 0 ([0x10, 1] : List Byte) = 0xa5254803de56729b := by decide +kernel
  have k1 : List.foldl crcByte 0xa5254803de56729b (List.replicate 41 0) = 0x9db481f058901c97 := by decide +kernel
  have k2 : List.foldl crcByte 0x9db481f058901c97 (List.replicate 41 0) = 0x2db45b42722228cb := by decide +kernel
  have k3 : List.foldl crcByte 0x2db45b42722228cb (List.replicate 41 0) = 0x2b9544aa509daeee := by decide +kernel
  have k4 : List.foldl crcByte 0x2b9544aa509daeee (List.replicate 41 0) = 0xdb44fb917bb1d0bf := by decide +kernel
  have k5 : List.foldl crcByte 0xdb44fb917bb1d0bf (List.replicate 41 0) = 0xa75032d56b4b9d02 := by decide +kernel
  have k6 : List.foldl crcByte 0xa75032d56b4b9d02 (List.replicate 41 0) = 0xa803d79d9c89b303 := by decide +kernel
  have e : crc64 (flit1.bytes.take 248) = 0xa803d79d9c89b303 := by
    rw [crc64, h]
    simp only [List.foldl_append, k0, k1, k2, k3, k4, k5, k6]
  have l : (flit1.bytes.length == 256) = true := by decide +kernel
  have w : ((0xa803d79d9c89b303 : BitVec 64) == BitVec.ofNat 64 (flit1.word 248 8)) = true := by decide +kernel
  rw [Flit.crcOk, e, l, w]
  rfl

theorem flit0_crc : flit0.crcOk = true := by
  have k : List.foldl crcByte 0 (List.replicate 31 0) = 0 := by decide +kernel
  have h : flit0.bytes.take 248 = List.replicate 31 0 ++ (List.replicate 31 0 ++ (List.replicate 31 0 ++ (List.replicate 31 0 ++
    (List.replicate 31 0 ++ (List.replicate 31 0 ++ (List.replicate 31 0 ++ List.replicate 31 0)))))) := by decide +kernel
  have e : crc64 (flit0.bytes.take 248) = 0 := by
    rw [crc64, h]
    simp only [List.foldl_append, k]
  have l : (flit0.bytes.length == 256) = true := by decide +kernel
  have w : ((0 : BitVec 64) == BitVec.ofNat 64 (flit0.word 248 8)) = true := by decide +kernel
  rw [Flit.crcOk, e, l, w]
  rfl

/-- Port 0 up with a retry buffer. -/
def port0 (r : List (Flit × Nat × Nat)) : State :=
  (S1.setLinkState 0 3).setPort 0 { S1.port 0 with retry := r }

/-- A launch with a team, and one that no cluster can hold. -/
def spared : State := { S1 with sparesUsed := [(0, 0)] }

theorem witness_FailuresAndLinks : (0, 0) ∉ S1.sparesUsed ∧ S1.onCore 0 0 7 = [] ∧ S1.onCore 0 0 0 = [0] ∧
    ((0, 64) ∈ ({ S1 with remaps := [(0, 64)] }).remaps ∧ (0, 64) ∉ S1.remaps ∧ S1.arg.c < max 1 S1.config.spare ∧ max 1 S1.config.spare ≤ 2 ^ 16) ∧
    (S1.arg.v = 0 ∧ S1.unitFails = []) ∧
    (let s : State := { S1 with unitFails := [(0, 0, 0, 0, 0), (0, 0, 0, 0, 0)], arg := { v := 1 } }
     s.arg.v ≠ 0 ∧ (s.unitFails.filter fun x => decide (x.2.2.2.1 = s.arg.v.toNat - 1) && decide (s.clock.toNat < x.2.2.2.2 + 1000000)).length = 2) ∧
    ((0, 0) ∈ spared.sparesUsed ∧ ({ spared with coreDown := [(0, 0, 7)] }).stranded 0 = false ∧
      ({ spared with coreDown := cores0 }).stranded 0 = true ∧ (spared.group 0).cluster ≠ some 5) ∧
    (8 ≤ 8 ∧ 7 ∉ S1.lostDies ∧ 7 < 8 ∧ 7 ∈ ({ S1 with lostDies := [7] }).lostDies) ∧ S1.txns = [] ∧
    (0 < S1.launches.length ∧ (S1.launch 0).ended = false) ∧ (noEntry (.die 0) 0).m0 = 0 ∧ S1.arg.flit = none ∧
    ((port0 []).linkState 0 = 3 ∧ S1.linkState 0 = 0) ∧ S1.arg.peer = none ∧
    (let r : PeerRequest := ⟨0, false, none, 0, 64, []⟩
     (S1.linkState r.port ≠ 3) ∧ S1.inbound r = false ∧ ((S1.setLinkState 0 3).setCreg 0x818 0x100000000).inbound r = true) ∧
    S1.clock.toNat < 0 + 10000 ∧ 0 + 10000 ≤ ({ S1 with clock := 10000 }).clock.toNat ∧ 16 < 17 ∧ 60 + 5 * 12 ≤ 120 := by
  decide +kernel

theorem witness_FailuresAndLinks_flits : (⟨[]⟩ : Flit).crcOk = false ∧ flit1.type = 1 ∧ flit0.type ≠ 1 ∧
    (let x := ((port0 []).port 0).acked flit1.ack 0
     x.retry = [] ∧ flit1.seq = x.rxSeq + 1 ∧ flit1.seq ≠ ({ x with rxSeq := 5 } : Port).rxSeq + 1) ∧
    (∃ z ∈ (((port0 [(flit1, 0, 16)]).port 0).acked flit1.ack 0).retry, 16 ≤ z.2.2) ∧
    (S1.port 0).retry = [] ∧ (let x := (port0 [(flit1, 0, 16)]).port 0
     x.retry ≠ [] ∧ (∃ y ∈ x.retry, 16 ≤ y.2.2) ∧ ¬ (x.since + 100000 ≤ 99999) ∧ x.since + 100000 ≤ 100000) ∧
    (∀ y ∈ ((port0 [(flit1, 0, 0)]).port 0).retry, ¬ 16 ≤ y.2.2) := by
  decide +kernel

/-! ### Witnesses: reset and steps -/

theorem witness_ResetState : 0x10 / 8 ∉ [0, 10, 11, 64, 65] ∧ 1 < 16 := by decide

theorem witness_StepRuns :
    (S1.pick = some (.team 0) ∧ 0 < S1.teams.length ∧ (S1.teamAt 0).status = .resident) ∧
    (let t := S1.begin.take 0
     (t.teamAt 0).top.pc ≠ (t.teamAt 0).top.reconv ∧ (t.fetch (t.viaOf 0) (t.teamAt 0).pc.toNat).isOk = true) ∧
    (let s : State := { S1 with turn := some (.event 0), events := [⟨.timeSlice, {}⟩] }
     s.pick = some (.event 0) ∧ s.events[0]? = some ⟨.timeSlice, {}⟩) ∧
    (let s : State := { S1 with turn := none, events := [], teams := [] }
     s.pick = none) ∧
    (∃ sp, S1.checkSpans (S1.viaOf 0) [(0x100000, 4)] needX true polWt = .ok sp) ∧
    (S1.checkSpans (S1.viaOf 0) [(2 ^ 60, 4)] needX true polWt).isOk = false ∧ isPrefix 0xFE000000 = false ∧ isPrefix 0x7E000000 = true :=
  ⟨⟨by decide +kernel, by decide +kernel, by decide +kernel⟩, ⟨by decide +kernel, by decide +kernel⟩,
    ⟨by decide +kernel, by decide +kernel⟩, by decide +kernel, ok_of _ (by decide +kernel), by decide +kernel, by decide, by decide⟩

theorem witness_MemoryStaysCanonical : S1.mem.wf = true ∧ (next? (step S1)).isSome = true := by
  decide +kernel

/-! ### One step: lane work, with results from the worked cases of the spec -/

/-- A device whose next step runs the word `w` (or two words, the first the lower) by the team `t`, which stands at its PC. -/
def at_ (nbits w : Nat) (t : Team) : State := (reset.withFetchWord nbits w).withTeam t

/-- A team at the PC with an execute mask, and lanes' registers as triples of register, lane and word. -/
def lanes (e : Mask) (vs : List (Nat × Nat × Word32)) : Team :=
  { T1 with div := [⟨0x100000, e, noAddr⟩], vreg := vs.foldl (fun m x => fput m (x.1 * 1024 + x.2.1) x.2.2) [] }

/-- Does the next step leave these registers, once every row due has landed? -/
def gives (s : State) (vs : List (Nat × Nat × Word32)) : Bool :=
  after (step s) fun u => vs.all fun x => u.team.landAllRows.v x.1 x.2.1 == x.2.2

/-- Does the next step leave these scalar registers? -/
def givesS (s : State) (vs : List (BitVec 6 × Word64)) : Bool := after (step s) fun u => vs.all fun x => u.team.s x.1 == x.2

/-- 05 Table 5.4: `ADD.i32` wraps, and an inactive lane keeps its register (01 R14). -/
theorem test_add_wraps : gives (at_ 32 0x02020104 (lanes 1 [(1, 0, 0x7FFFFFFF), (2, 0, 1), (4, 1, 9), (1, 1, 5)]))
    [(4, 0, 0x80000000), (4, 1, 9)] = true := by decide +kernel

/-- 05 Table 5.4 with signed saturation: the most negative value less 1 stays. -/
theorem test_subs_clamps : gives (at_ 32 (0x02020104 + 7 * 2 ^ 22) (lanes 1 [(1, 0, 0x80000000), (2, 0, 1)])) [(4, 0, 0x80000000)] = true := by
  decide +kernel

/-- A destination that is also a source takes the old value (05 R134). -/
theorem test_source_is_destination : gives (at_ 32 0x02008104 (lanes 1 [(1, 0, 3), (2, 0, 4)])) [(1, 0, 7)] = true := by decide +kernel

/-- 05 R156, its table: 1.0 + 2^-30 as a pair. -/
theorem test_faddx : gives (at_ 32 0x26020104 (lanes 1 [(1, 0, 0x3F800000), (2, 0, 0x30800000)]))
    [(4, 0, 0x3F800000), (5, 0, 0x30800000)] = true := by decide +kernel

/-- 05 R157, its table: (1 + 2^-12) squared; the tie goes to even. -/
theorem test_fmulx : gives (at_ 32 0x26820104 (lanes 1 [(1, 0, 0x3F800800), (2, 0, 0x3F800800)]))
    [(4, 0, 0x3F801000), (5, 0, 0x33800000)] = true := by decide +kernel

/-- 05 R165's worked case: SIGM of 2^-7. -/
theorem test_sigm : exec (.sigm none ⟨4, 1, 0, 0⟩) (on (lanes 1 [(1, 0, 0x3C000000)])) |> (after · fun u =>
    u.team.landAllRows.v 4 0 == 0x3F008000 && u.team.flags == 0) := by decide +kernel

/-- 06 R188 to R191, their worked case: TILE.SIZE 2 and lane 2 not executing. -/
def exch : Team := { lanes 0b1011 [(1, 0, 7), (1, 1, 0), (1, 2, 5), (1, 3, 7), (2, 0, 1), (2, 1, 3), (2, 2, 1), (2, 3, 2),
  (3, 0, 0xFFFFFFFF), (3, 1, 0xFFFFFFFF), (3, 3, 0), (5, 2, 77)] with tile := 2 }

theorem test_shfl_xor : gives (at_ 32 0x32428104 exch) [(5, 0, 0), (5, 1, 5), (5, 2, 77), (5, 3, 0)] = true := by decide +kernel
theorem test_ballot : gives (at_ 32 0x31048100 exch) [(9, 0, 0b1001), (9, 1, 0b1001), (9, 2, 0), (9, 3, 0b1001)] = true := by decide +kernel
theorem test_vote_eq : gives (at_ 32 0x33C50106 exch) [(10, 0, 0b1001), (10, 1, 0b0010), (10, 2, 0), (10, 3, 0b1011)] = true := by
  decide +kernel

/-- 06 R179's worked case. -/
theorem test_ldw : gives { at_ 32 0x560A0C54 { lanes 0xF [] with sreg := [(6, clusterVa + 64), (7, clusterVa)] } with
    mem := ((reset.withFetchWord 32 0x560A0C54).mem.writes clusterKey (leBytes 4 0x00083C00)).writes (clusterKey + 64) [0x3F, 0x80] }
    [(20, 0, 0x00F8FB07), (21, 0, 0x3C00)] = true := by decide +kernel

/-- 06 R182's worked case: four lanes add 1 to one word. -/
theorem test_atom_add : gives { at_ 32 0x5A020404 { lanes 0xF [(4, 0, 1), (4, 1, 1), (4, 2, 1), (4, 3, 1)] with sreg := [(2, clusterVa)] } with
    mem := (reset.withFetchWord 32 0x5A020404).mem.writes clusterKey [10] } [(4, 0, 10), (4, 1, 11), (4, 2, 12), (4, 3, 13)] = true := by
  decide +kernel

/-- 06 R192 to R196, their worked case: the block that expands to "ABABABAB". -/
def abBlock : List (Nat × Byte) :=
  [(0, 0x90), (1, 0x20), (2, 0x08), (36, 0x20), (37, 0x02), (132, 0x02), (134, 0x02), (141, 0x78), (142, 0x00), (143, 0x04)]

theorem test_decode : (decodeBlock (fun i => fget 0 abBlock i) 128).out.reverse.map BitVec.toNat =
      [0x41, 0x42, 0x41, 0x42, 0x41, 0x42, 0x41, 0x42] ∧
    (decodeBlock (fun i => fget 0 abBlock i) 128).status = 0x0000009000080000 := by
  decide +kernel

/-- 06 R197's worked case: the volume i + 2j + 4k sampled at (0.25, 0.5, 0). -/
def volume8 : Memory :=
  let m := (reset.withFetchWord 32 0x68461010).mem
  let m := m.writes (clusterKey + 4) (leBytes 4 0x3F800000)
  let m := m.writes (clusterKey + 32) (leBytes 4 0x40000000)
  m.writes (clusterKey + 36) (leBytes 4 0x40400000)

/-- 06 R200's worked case: the box [0, 1] in each axis, a ray along z from (0.5, 0.5, -2). -/
theorem test_rbox : gives { at_ 32 0x6A0A1008 { lanes 1 [(2, 0, 0x3F000000), (3, 0, 0x3F000000), (4, 0, 0xC0000000), (5, 0, 0x7F800000),
      (6, 0, 0x7F800000), (7, 0, 0x3F800000)] with sreg := [(8, clusterVa)] } with
    mem := (reset.withFetchWord 32 0x6A0A1008).mem.writes clusterKey ((leBytes 4 0 ++ leBytes 4 0 ++ leBytes 4 0 ++
      leBytes 4 0x3F800000 ++ leBytes 4 0x3F800000 ++ leBytes 4 0x3F800000)) }
    [(20, 0, 0x40000000), (21, 0, 0x40400000)] = true := by decide +kernel

theorem test_vsamp_tri : gives { at_ 32 0x68461010 { lanes 1 [(4, 0, 0x3E800000), (5, 0, 0x3F000000)] with sreg := [(8, clusterVa + 0x400)] } with
    mem := volume8.writes (clusterKey + 0x400) (leBytes 32 (clusterVa.toNat + 7 * 2 ^ 64 + 7 * 2 ^ 80 + 7 * 2 ^ 96 + 32 * 2 ^ 128 + 256 * 2 ^ 160)) }
    [(12, 0, 0x3FA00000)] = true := by decide +kernel

/-- 02 R49's worked example: an MXFP4 block of 5.0, -0.3, 0.75, 1.25 and zeros; the scale code is 0x7F,
NX and UF are raised: two of the four are tiny (02 Table 2.5; notes/assumptions/66.md). -/
theorem test_cvtmx_fp4 : after (exec (.cvtmx (some ⟨0, 0, 6, 40, 0, 0, 0, 0, 0⟩) 4 ⟨6, 8, 12, 1⟩) (on (lanes 0xF
    [(8, 0, 0x40A00000), (9, 0, 0xBE99999A), (10, 0, 0x3F400000), (11, 0, 0x3FA00000)]))) (fun u =>
      u.team.v 6 0 == 0x2296 && (u.team.v 40 0).toNat % 256 == 0x7F && u.team.flags == 0x3) = true := by decide +kernel

/-- 02 R60's example: with SEED 0 the generators of lanes 0 and 1. -/
theorem test_gen_seed : genSeedOf 0 0 = 0x9E3779B9 ∧ genSeedOf 0 1 = 0x3C6EF372 := by decide +kernel

/-! ### One step: scalar work, control, traps, memory -/

/-- 04 Table 4.1: a zero divisor gives all ones and the dividend as remainder. -/
theorem test_div_zero : givesS (at_ 32 (0x83400000 + 4 * 2 ^ 16 + 5 * 2 ^ 10 + 6 * 2 ^ 4) { T1 with sreg := [(5, 7)] }) [(4, BitVec.allOnes 64)] = true := by
  decide +kernel

/-- 01 R12, 04 R112, Table 4.4: the BRV of `split40`, its code placed at 0x100000. -/
theorem test_brv_split40 :
    let lo : Mask := maskOf 64 fun n => decide (n < 40)
    let hi : Mask := maskOf 64 fun n => decide (40 ≤ n) && decide (n < 64)
    let t : Team := { T1 with lanes := 64, rp := 0x100010, mask := [(1, lo)], div := [⟨0x100000, allLanes 64, noAddr⟩] }
    after (step (at_ 32 0xA2040003 t)) (fun u =>
      u.team.div == [⟨0x10000C, lo, 0x100010⟩, ⟨0x100004, hi, 0x100010⟩, ⟨0x100010, allLanes 64, noAddr⟩]) = true := by decide +kernel

/-- 04 R111: at its reconvergence address a path is popped before the fetch. -/
theorem test_reconvergence :
    let t : Team := { T1 with div := [⟨0x100000, 1, 0x100000⟩, ⟨0x100000, 3, noAddr⟩] }
    after (step (at_ 32 0xB2C00001 t)) (fun u => u.team.exec == 3 && u.team.div.length == 1) = true := by decide +kernel

/-- 04 R129, R130: TRAP 0x55 with a handler: cause 9, ARG 0x55, NEXT and H set. -/
theorem test_trap : after (step (at_ 32 0xAA000055 T1)) (fun u =>
    u.team.pc == 0x110000 && u.team.tepc == 0x100004 && u.team.tcause == 0x5500000309) = true := by decide +kernel

/-- 04 R131: RFT goes to TEPC and clears H. -/
theorem test_rft : after (step (at_ 32 0xA9800000 { T1 with tepc := 0x100040, tcause := 0x309 })) (fun u =>
    u.team.pc == 0x100040 && u.team.handler == false) = true := by decide +kernel

/-- 04 R104's example word: FENCE.rel.dev goes on to the next word. -/
theorem test_fence : after (step (at_ 32 0xB2000023 T1)) (fun u => u.team.pc == 0x100004 && u.team.iwarn == 0) = true := by decide +kernel

/-- 04 R116: CALL pushes the next address; RET comes back. -/
theorem test_call : after (step (at_ 32 0xA4000004 T1)) (fun u => u.team.pc == 0x100010 && u.team.ret == [0x100004]) = true := by
  decide +kernel

theorem test_ret_empty : after (step (at_ 32 0xA8000000 T1)) (fun u => u.team.pc == 0x110000 && (u.team.tcause.toNat % 256) == 1) = true := by
  decide +kernel

/-- 01 R36: s63 below the spill pointer is the stack-limit trap; the register keeps its value. -/
theorem test_stack_limit : after (step (at_ 32 0x8A3F0000 T1)) (fun u => u.team.s 63 == 0x200000 && u.team.pc == 0x110000) = true := by
  decide +kernel

/-- 06 R167, R169: a misaligned lane store stores nothing. -/
theorem test_misaligned_store : after (step (at_ 32 0x44000A04 { lanes 1 [(1, 0, 2)] with sreg := [(5, 0x200000)] })) (fun u =>
    u.team.pc == 0x110000 && u.mem.read 0x200002 == 0) = true := by decide +kernel

/-- 04 R98, R99: a scalar store of 8 bytes is little-endian. -/
theorem test_scalar_store : after (exec (.scalarSt 0 ⟨4, 5, 0x31, 0⟩) (on { T1 with sreg := [(4, 0x0102030405060708), (5, clusterVa)] })) (fun u =>
    u.mem.read (clusterKey + 8) == 8 && u.mem.read (clusterKey + 15) == 1) = true := by decide +kernel

/-- 03 R84: a word of set 0 and major 0 is no instruction. -/
theorem test_illegal : after (step (at_ 32 0 T1)) (fun u => u.team.pc == 0x110000 && u.team.tcause.toNat % 256 == 1) = true := by
  decide +kernel

/-- 01 R32: a fetch outside the mapped gigabyte page-faults, and the team leaves its slot. -/
theorem test_fetch_fault : after (step (at_ 32 0 { T1 with div := [⟨0x80000000, 1, noAddr⟩], frameSlot := none })) (fun u =>
    u.team.status == .faulted && u.faults.length == 1) = true := by decide +kernel

/-- 04 R115: END makes the retirement of its team due. -/
theorem test_end : after (step (at_ 32 0xA9000000 T1)) (fun u =>
    u.team.status == .ended && u.events.contains ⟨.teamRetire, { a := 0 }⟩) = true := by decide +kernel

/-! ### One step: events -/

/-- 16 R384: a record pushed to a returned ring, then TAIL, then vector 2. -/
theorem test_ring_push : ((ring 1 3).ringPush 1 0x123).ringTail 1 = 4 ∧ ((ring 1 3).ringPush 1 0x123).msix = 4 ∧
    ((ring 1 3).ringPush 1 0x123).mem.readLe 0x50018 8 = 0x123 := by decide +kernel

/-- 16 R384: a TAIL beyond the ring sets ERR and vector 3. -/
theorem test_ring_overfill : after (exec .ringTailWrite { ring 6 0 with arg := { a := 6, v := 17 } }) (fun u =>
    u.msix == 8 && u.ringTail 6 == 0 && (u.ringWord 6 1).getLsbD 7) = true := by decide +kernel

/-- 01 R39's worked case: with 64 blocks free, C (256 lanes, 128 registers) waits and D (32, 16) fits. -/
theorem test_residency :
    let a : Team := { T1 with lanes := 1024, vregs := 64 }
    let b : Team := { T1 with lanes := 512, vregs := 96, slot := 1 }
    let c : Team := { T1 with lanes := 256, vregs := 128, status := .ready, group := 0 }
    let d : Team := { T1 with lanes := 32, vregs := 16, status := .ready, group := 0 }
    let s : State := { S1 with teams := [{ a with group := 1 }, { b with group := 2 }, c, { d with group := 3 }] }
    (s.coreFits c 2 0, s.coreFits d 3 0) = (false, true) := by decide +kernel

/-- 16 R392: a flit whose CRC fails leaves no trace but the NAK sent. -/
theorem test_flit_nak : (let s : State := { port0 [] with arg := { flit := some ⟨[]⟩ } }
    after (exec .abfortFlitReceive s) fun u => (u.port 0).rxSeq == (s.port 0).rxSeq && (u.port 0).received == [] &&
      (u.port 0).sent.any (fun f => f.type == 2 && f.nak) && u.events == s.events) = true := by decide +kernel

/-- At reset memory lists nothing and bring-up is due (16 R388); the clock stands at 120 tens of MHz (16 R396). -/
theorem test_reset : reset.mem = [] ∧ reset.events = [⟨.coldReset, {}⟩] ∧ reset.creg 0x208 = 0x0007800000000000 := by
  decide +kernel

/-! ### Ill-formed terms, one for each check -/

/-- A word with RND and SCOPE as given and nothing else. -/
def pfx (rnd scope : BitVec 3) : Pfx := ⟨0, 0, rnd, 0, 0, 0, scope, 0, 0⟩

theorem refuses_prefix_fields : (Instr.addI32 (some (pfx 7 0)) ⟨0, 0, 0, 0⟩).wf = false ∧ (Instr.addI32 (some (pfx 6 5)) ⟨0, 0, 0, 0⟩).wf = false ∧
    (Instr.ld (some (pfx 0 7)) 0 ⟨0, 0, 0, 0⟩).wf = false ∧ (Instr.addI32 (some (pfx 6 4)) ⟨0, 0, 0, 0⟩).wf = true := by decide

theorem refuses_missing_prefix : (Instr.atomCas none 0 ⟨0, 0, 0, 0⟩).wf = false ∧ (Instr.fxaccSc none ⟨0, 0, 0, 0⟩).wf = false ∧
    (Instr.cvtmx none 4 ⟨0, 0, 12, 1⟩).wf = false := by decide

theorem refuses_types : (Instr.ld none 6 ⟨0, 0, 0, 0⟩).wf = false ∧ (Instr.ld none 15 ⟨0, 0, 0, 0⟩).wf = false ∧
    (Instr.st none 7 ⟨0, 0, 0, 0⟩).wf = false ∧ (Instr.ldImm none 6 ⟨0, 0, 0, 0⟩).wf = false ∧ (Instr.stImm none 15 ⟨0, 0, 0, 0⟩).wf = false ∧
    (Instr.ldAcq none 6 ⟨0, 0, 0, 0⟩).wf = false ∧ (Instr.stRel none 7 ⟨0, 0, 0, 0⟩).wf = false ∧ (Instr.ldb none 6 ⟨0, 0, 0, 0⟩).wf = false ∧
    (Instr.ldw none 3 ⟨0, 0, 0, 0⟩).wf = false ∧ (Instr.ldw none 7 ⟨0, 0, 0, 0⟩).wf = false ∧ (Instr.ldt none 7 ⟨0, 0, 0, 0⟩).wf = false := by
  decide

theorem refuses_atomic_op : (Instr.atomI32 none 7 ⟨0, 0, 0, 0⟩).wf = false ∧ (Instr.atomN32 none 7 ⟨0, 0, 0, 0⟩).wf = false ∧
    (Instr.atomI64 none 7 ⟨0, 0, 0, 0⟩).wf = false ∧ (Instr.atomN64 none 7 ⟨0, 0, 0, 0⟩).wf = false := by decide

theorem refuses_conversion_codes : (Instr.cvt none 0 ⟨0, 0, 8, 0⟩).wf = false ∧ (Instr.cvt none 5 ⟨0, 0, 8, 0⟩).wf = false ∧
    (Instr.cvt none 0 ⟨0, 0, 120, 1⟩).wf = false ∧ (Instr.cvt none 7 ⟨0, 0, 8, 1⟩).wf = false ∧
    (Instr.cvtmx (some (pfx 6 0)) 0 ⟨0, 0, 16, 1⟩).wf = false ∧ (Instr.cvtmx (some (pfx 6 0)) 4 ⟨0, 0, 40, 1⟩).wf = false := by decide

theorem refuses_scalar_fields : (Instr.scalarIcmp ⟨0, 0, 0, 6⟩).wf = false ∧ (Instr.scalarLd 5 ⟨0, 0, 0, 0⟩).wf = false ∧
    (Instr.scalarSt 7 ⟨0, 0, 0, 0⟩).wf = false ∧ (Instr.scalarAtomAdd ⟨0, 0, 40, 0⟩).wf = false ∧ (Instr.csrr ⟨0, 0x80⟩).wf = false ∧
    (Instr.csrw ⟨0, 3⟩).wf = false ∧ (Instr.csrw ⟨0, 0x21⟩).wf = false ∧ (Instr.fence ⟨0, 0, 0, 0⟩).wf = false ∧
    (Instr.fence ⟨0, 0, 3, 5⟩).wf = false := by decide

theorem refuses_engine_fields : (Instr.mma 0 ⟨0, 0, 0b0000000000⟩).wf = false ∧ (Instr.mma 0 ⟨0, 0, 0b1010000000⟩).wf = false ∧
    (Instr.mmag 0 ⟨0, 0, 0b0001001111⟩).wf = false ∧ (Instr.mdrain ⟨0, 0, 0b1100000000⟩).wf = false ∧
    (Instr.mdrain ⟨0, 0, 0b0001110000⟩).wf = false ∧ (Instr.cpy 5 ⟨0, 0, 0⟩).wf = false ∧ (Instr.cpymgFw 0 ⟨0, 0, 0b1100000⟩).wf = false ∧
    (Instr.cpymgCvt 0 ⟨0, 0, 0b0011100⟩).wf = false ∧ (Instr.cpymgInj 6 ⟨0, 0, 0⟩).wf = false ∧
    (Instr.cpyred 0 ⟨0, 0, 0b0110000000⟩).wf = false ∧ (Instr.cpyred 5 ⟨0, 0, 0⟩).wf = false := by decide

end Sys2Proof.Tests
end

/-! PROOFS. Lane arithmetic (05): the statements O6 to O15 and O17. First, for each shape the statements use, the lemma that
an instruction whose meaning runs the shape's shared operation does what the shape says; then the statements, which name for
each instruction the equation of its meaning. -/

section

namespace Sys2Proof.Machine

/-! ### The unsigned clamp without integers -/

/-- A natural number clamped to the unsigned range from above. -/
theorem satU_natCast (w n : Nat) : satU w n = BitVec.ofNat w (min (2 ^ w - 1) n) := by
  have pos : 1 ≤ 2 ^ w := Nat.one_le_two_pow
  have limit : ((2 ^ w : Nat) : Int) = 2 ^ w := Int.natCast_pow 2 w
  have clamp : max 0 (min (2 ^ w - 1) (n : Int)) = ((min (2 ^ w - 1) n : Nat) : Int) := by
    rw [← limit]
    omega
  rw [satU, clamp, BitVec.ofInt_natCast]

/-- The unsigned saturating sum of 05 Table 5.4. -/
theorem satU_add {w : Nat} (a b : BitVec w) :
    satU w ((a.toNat : Int) + b.toNat) = BitVec.ofNat w (min (2 ^ w - 1) (a.toNat + b.toNat)) := by
  rw [← Int.natCast_add, satU_natCast]

/-- The unsigned saturating difference of 05 Table 5.4: the truncated one, which never reaches the upper limit. -/
theorem satU_sub {w : Nat} (a b : BitVec w) :
    satU w ((a.toNat : Int) - b.toNat) = BitVec.ofNat w (a.toNat - b.toNat) := by
  have low : satU w ((a.toNat : Int) - b.toNat) = satU w ((a.toNat - b.toNat : Nat) : Int) := by
    have limit : ((2 ^ w : Nat) : Int) = 2 ^ w := Int.natCast_pow 2 w
    have pos : 1 ≤ 2 ^ w := Nat.one_le_two_pow
    have clamp : max 0 (min (2 ^ w - 1) ((a.toNat : Int) - b.toNat)) =
        max 0 (min (2 ^ w - 1) ((a.toNat - b.toNat : Nat) : Int)) := by
      rw [← limit]
      omega
    rw [satU, clamp, ← satU]
  have high : a.toNat - b.toNat ≤ 2 ^ w - 1 := by have := a.isLt; omega
  rw [low, satU_natCast, Nat.min_eq_right high]

/-! ### An 8-bit immediate as a lane value -/

/-- The sign-extended immediate is the integer the immediate stands for (05 R146). -/
theorem imm8S_toInt (f : LI) : (imm8S f).toInt = f.imm.toInt :=
  BitVec.toInt_signExtend_of_le (by omega)

theorem flag32_decide (P : Prop) [Decidable P] : flag32 (decide P) = if P then 1 else 0 := by
  simp only [flag32, decide_eq_true_eq]

/-! ### From the meaning of an instruction to its shape -/

theorem intDone_of_exec {i : Option Pfx → LR → Instr} {op : (w : Nat) → BitVec w → BitVec w → BitVec w}
    (h : ∀ p f s, exec (i p f) s = laneInt p f op s) : IntDone i op := by
  intro p f s x t hr
  rw [h]
  exact laneTwo_done p f _ _ op s hr

theorem packedDone_of_exec {i : Option Pfx → LR → Instr} {op : (w : Nat) → BitVec w → BitVec w → BitVec w}
    (h : ∀ p f s, exec (i p f) s = lanePacked p f op s) : PackedDone i op := by
  intro p f s x t hr
  rw [h]
  exact lanePacked_done p f op s hr

theorem bitsDone_of_exec {i : Option Pfx → LR → Instr} {op : (w : Nat) → BitVec w → BitVec w → BitVec w}
    (h : ∀ p f s, exec (i p f) s = laneBits p f op s) : BitsDone i op := by
  intro p f s x t hr
  rw [h]
  exact laneTwo_done p f _ _ op s hr

theorem unaryDone_of_exec {i : Option Pfx → LR → Instr} {typed : Bool} {op : (w : Nat) → BitVec w → BitVec w}
    (h : ∀ p f s, exec (i p f) s =
      laneOne p f (if typed then [intTag f.wide] else []) (if typed then intTag f.wide else 0) op s) :
    UnaryDone i typed op := by
  intro p f s x t hr
  rw [h]
  exact laneOne_done p f _ _ op s hr

theorem countDone_of_exec {i : Option Pfx → LR → Instr} {op : (w : Nat) → BitVec w → Nat}
    (h : ∀ p f s, exec (i p f) s = laneCount p f op s) : CountDone i op := by
  intro p f s x t hr
  rw [h]
  exact laneCount_done p f op s hr

theorem compareDone_of_exec {i : Option Pfx → LR → Instr} {test : (w : Nat) → BitVec w → BitVec w → Bool}
    (h : ∀ p f s, exec (i p f) s = laneCompare p f test s) : CompareDone i test := by
  intro p f s x t hr
  rw [h]
  exact laneCompare_done p f test s hr

theorem immDone_of_exec {i : Option Pfx → LI → Instr} {typed : Bool} {warn : LI → Nat} {op : LI → Word32 → Word32}
    (h : ∀ p f s, exec (i p f) s =
      laneImm p f (if typed then [13] else []) (if typed then 13 else 0) (warn f) (op f) s) : ImmDone i typed warn op := by
  intro p f s x hr
  rw [h]
  exact laneImm_done p f _ _ _ (op f) s hr

/-- A signed compare with the immediate: `test` on the lane and the sign-extended immediate says what `P` says of the two
integers. -/
theorem immCompareDone_of_exec {i : Option Pfx → LI → Instr} {test : Word32 → Word32 → Bool} {P : Int → Int → Prop}
    [∀ a b, Decidable (P a b)] (h : ∀ p f s, exec (i p f) s = laneImm p f [13] 13 0 (fun a => flag32 (test a (imm8S f))) s)
    (ht : ∀ a b : Word32, test a b = decide (P a.toInt b.toInt)) :
    ImmDone i true (fun _ => 0) (fun f a => if P a.toInt f.imm.toInt then 1 else 0) := by
  refine immDone_of_exec fun p f s => ?_
  have op : (fun a : Word32 => flag32 (test a (imm8S f))) = fun a => if P a.toInt f.imm.toInt then 1 else 0 := by
    funext a
    rw [ht, imm8S_toInt, flag32_decide]
  rw [h, op]
  rfl

theorem fcmpDone_of_exec {i : Option Pfx → LR → Instr} {test : Int → Bool} {un quiet : Bool}
    (h : ∀ p f s, exec (i p f) s = fcmpLane p f test un quiet s) : FcmpDone i test un quiet := by
  intro p f s x res hr hq
  rw [h]
  exact fcmpLane_done p f test un quiet s res (fun _ => rfl) hr hq

theorem errPairDone_of_exec {i : Option Pfx → LR → Instr} {op : Fmt → FV → FV → HiLo × Fl}
    (h : ∀ p f s, exec (i p f) s = errPair p f op s) : ErrPairDone i op := by
  intro p f s x get res hr hq
  rw [h]
  exact errPair_done p f op s hr res (fun _ => rfl) hq

theorem dwDone_of_exec {i : Option Pfx → LR → Instr} {op : DwOp} (h : ∀ p f s, exec (i p f) s = dwLane p f op s) :
    DwDone i op op.operands := by
  intro p f s x t res hr hq
  rw [h]
  exact dwLane_done p f op s hr res (fun _ => rfl) hq

theorem specialDone_of_exec {i : Option Pfx → LR → Instr} {fn : SpecialFn}
    (h : ∀ p f s, exec (i p f) s = specialLane p f fn s) : SpecialDone i fn := by
  intro p f s x res hr hq
  rw [h]
  exact specialLane_done p f fn s hr hq

theorem actDone_of_exec {i : Option Pfx → LR → Instr} {fn : ActFn}
    (h : ∀ p f s, exec (i p f) s = actLane p f fn s) : ActDone i fn := by
  intro p f s x res hr hq
  rw [h]
  exact actLane_done p f fn s hr hq

/-! ### Integers -/

/-- Settles O6: each operation runs `laneInt`; the unsigned clamps are `satU_add` and `satU_sub`. -/
theorem laneIntegerArithmetic : Obligations.LaneIntegerArithmetic := by
  refine ⟨intDone_of_exec fun _ _ s => exec_addI32 s, intDone_of_exec fun _ _ s => exec_subI32 s,
    intDone_of_exec fun _ _ s => exec_mulI32 s, intDone_of_exec fun _ _ s => exec_mulhI32 s,
    intDone_of_exec fun _ _ s => exec_minI32 s, intDone_of_exec fun _ _ s => exec_maxI32 s,
    intDone_of_exec fun _ _ s => exec_addsI32 s, intDone_of_exec fun _ _ s => exec_subsI32 s,
    intDone_of_exec fun _ _ s => exec_addN32 s, intDone_of_exec fun _ _ s => exec_subN32 s,
    intDone_of_exec fun _ _ s => exec_mulN32 s, intDone_of_exec fun _ _ s => exec_mulhN32 s,
    intDone_of_exec fun _ _ s => exec_minN32 s, intDone_of_exec fun _ _ s => exec_maxN32 s, ?addsN32, ?subsN32⟩
  case addsN32 =>
    simp only [← satU_add]
    exact intDone_of_exec fun _ _ s => exec_addsN32 s
  case subsN32 =>
    simp only [← satU_sub]
    exact intDone_of_exec fun _ _ s => exec_subsN32 s

/-- Settles O7: each operation runs `lanePacked`, with the same operations as O6 on narrower elements. -/
theorem lanePackedArithmetic : Obligations.LanePackedArithmetic := by
  refine ⟨packedDone_of_exec fun _ _ s => exec_addI16 s, packedDone_of_exec fun _ _ s => exec_subI16 s,
    packedDone_of_exec fun _ _ s => exec_mulI16 s, packedDone_of_exec fun _ _ s => exec_mulhI16 s,
    packedDone_of_exec fun _ _ s => exec_minI16 s, packedDone_of_exec fun _ _ s => exec_maxI16 s,
    packedDone_of_exec fun _ _ s => exec_addsI16 s, packedDone_of_exec fun _ _ s => exec_subsI16 s,
    packedDone_of_exec fun _ _ s => exec_addN16 s, packedDone_of_exec fun _ _ s => exec_subN16 s,
    packedDone_of_exec fun _ _ s => exec_mulN16 s, packedDone_of_exec fun _ _ s => exec_mulhN16 s,
    packedDone_of_exec fun _ _ s => exec_minN16 s, packedDone_of_exec fun _ _ s => exec_maxN16 s, ?addsN16, ?subsN16⟩
  case addsN16 =>
    simp only [← satU_add]
    exact packedDone_of_exec fun _ _ s => exec_addsN16 s
  case subsN16 =>
    simp only [← satU_sub]
    exact packedDone_of_exec fun _ _ s => exec_subsN16 s

/-- Settles O8: bitwise work runs `laneBits`, the unary instructions `laneOne` or `laneCount`; for IABS the sign bit is the
sign of the integer. -/
theorem laneBitwise : Obligations.LaneBitwise := by
  refine ⟨bitsDone_of_exec fun _ _ s => exec_andB32 s, bitsDone_of_exec fun _ _ s => exec_orB32 s,
    bitsDone_of_exec fun _ _ s => exec_xorB32 s, bitsDone_of_exec fun _ _ s => exec_andnB32 s,
    bitsDone_of_exec fun _ _ s => exec_shlB32 s, bitsDone_of_exec fun _ _ s => exec_shrB32 s,
    bitsDone_of_exec fun _ _ s => exec_sraB32 s, bitsDone_of_exec fun _ _ s => exec_rolB32 s,
    unaryDone_of_exec fun _ _ s => exec_notB s, unaryDone_of_exec fun _ _ s => exec_brev s, ?iabs,
    unaryDone_of_exec fun _ _ s => exec_ineg s, countDone_of_exec fun _ _ s => exec_popc s,
    countDone_of_exec fun _ _ s => exec_clz s, countDone_of_exec fun _ _ s => exec_ctz s⟩
  case iabs =>
    have sign : (fun (w : Nat) (a : BitVec w) => if a.toInt < 0 then -a else a) = fun _ a => if a.msb then -a else a := by
      funext w a
      simp only [BitVec.msb_eq_toInt, decide_eq_true_eq]
    rw [sign]
    exact unaryDone_of_exec fun _ _ s => exec_iabs s

/-- Settles O9: the compares run `laneCompare`, SEL and MOV their own operations, MOVS and IDX `laneFill`. -/
theorem laneCompareAndSelect : Obligations.LaneCompareAndSelect := by
  refine ⟨compareDone_of_exec fun _ _ s => exec_icmpEq s, ?ne, compareDone_of_exec fun _ _ s => exec_icmpLtI s,
    compareDone_of_exec fun _ _ s => exec_icmpLeI s, compareDone_of_exec fun _ _ s => exec_icmpLtN s,
    compareDone_of_exec fun _ _ s => exec_icmpLeN s, ?sel, ?mov, ?movs, ?idx⟩
  case ne =>
    have test : (fun (w : Nat) (a b : BitVec w) => decide (a ≠ b)) = fun _ a b => a != b := by
      funext w a b
      exact decide_not
    rw [test]
    exact compareDone_of_exec fun _ _ s => exec_icmpNe s
  case sel =>
    intro p f s hr
    rw [exec_selLane]
    exact execSelLane_done p f s hr
  case mov =>
    intro p f s hr
    rw [exec_mov]
    exact execMov_done p f s hr
  case movs =>
    intro p f s x v hr
    rw [exec_movs]
    exact laneFill_done p f.vd f.wide 0 _ (fun t _ => t.s (f.va.setWidth 6)) (fun _ _ _ _ _ _ => rfl) s hr
  case idx =>
    intro p f s x hr
    rw [exec_idx]
    refine (laneFill_done p f.vd false 13 _ (fun _ l => BitVec.ofNat 64 l) (fun _ _ _ _ _ _ => rfl) s hr).congr ?_
    intro r l _ _
    exact BitVec.setWidth_ofNat_of_le (show 32 ≤ 64 by decide) l

/-- Settles O10: every form runs `laneImm`; the compares with the sign-extended immediate are compares of integers. -/
theorem laneImmediates : Obligations.LaneImmediates := by
  refine ⟨immDone_of_exec fun _ _ s => exec_addImm s, immDone_of_exec fun _ _ s => exec_mulImm s,
    immDone_of_exec fun _ _ s => exec_andImm s, immDone_of_exec fun _ _ s => exec_orImm s,
    immDone_of_exec fun _ _ s => exec_xorImm s, immDone_of_exec fun _ _ s => exec_shlImm s,
    immDone_of_exec fun _ _ s => exec_shrImm s, immDone_of_exec fun _ _ s => exec_sraImm s,
    immCompareDone_of_exec (P := fun a b => a = b) (fun _ _ s => exec_icmpEqImm s) ?eq,
    immCompareDone_of_exec (P := fun a b => a ≠ b) (fun _ _ s => exec_icmpNeImm s) ?ne,
    immCompareDone_of_exec (P := fun a b => a < b) (fun _ _ s => exec_icmpLtImm s) fun _ _ => rfl,
    immCompareDone_of_exec (P := fun a b => a ≤ b) (fun _ _ s => exec_icmpLeImm s) fun _ _ => rfl,
    immCompareDone_of_exec (P := fun a b => b < a) (test := fun a b => b.slt a) (fun _ _ s => exec_icmpGtImm s) fun _ _ => rfl,
    immCompareDone_of_exec (P := fun a b => b ≤ a) (test := fun a b => b.sle a) (fun _ _ s => exec_icmpGeImm s) fun _ _ => rfl,
    ?movi⟩
  case eq =>
    intro a b
    exact decide_eq_decide.mpr BitVec.toInt_inj.symm
  case ne =>
    intro a b
    rw [decide_not, bne]
    exact congrArg (!·) (decide_eq_decide.mpr BitVec.toInt_inj.symm)
  case movi =>
    intro p f s x hr
    rw [exec_movi]
    refine (laneFill_done p f.vd false 13 _ (fun _ _ => (imm8S f).setWidth 64) (fun _ _ _ _ _ _ => rfl) s hr).congr ?_
    intro r l _ _
    exact (BitVec.setWidth_setWidth_of_le (imm8S f) (show 32 ≤ 64 by decide)).trans (BitVec.setWidth_eq _)

/-! ### Floating point -/

/-- Settles O11: every instruction runs `fpArith`, on one, two or three operands. -/
theorem laneFloatArithmetic : Obligations.LaneFloatArithmetic :=
  ⟨wideFp_done _ 2 _ _ (by decide) fun _ _ s => exec_fadd s, wideFp_done _ 2 _ _ (by decide) fun _ _ s => exec_fsub s,
    wideFp_done _ 2 _ _ (by decide) fun _ _ s => exec_fmul s, wideFp_done _ 3 _ _ (by decide) fun _ _ s => exec_fma s,
    wideFp_done _ 2 _ _ (by decide) fun _ _ s => exec_fmin s, wideFp_done _ 2 _ _ (by decide) fun _ _ s => exec_fmax s,
    wideFp_done _ 1 _ _ (by decide) fun _ _ s => exec_fabs s, wideFp_done _ 1 _ _ (by decide) fun _ _ s => exec_fneg s,
    halfFp_done _ 2 _ _ (by decide) fun _ _ s => exec_faddBf16 s, halfFp_done _ 2 _ _ (by decide) fun _ _ s => exec_fsubBf16 s,
    halfFp_done _ 2 _ _ (by decide) fun _ _ s => exec_fmulBf16 s, halfFp_done _ 3 _ _ (by decide) fun _ _ s => exec_fmaBf16 s,
    halfFp_done _ 2 _ _ (by decide) fun _ _ s => exec_fminBf16 s, halfFp_done _ 2 _ _ (by decide) fun _ _ s => exec_fmaxBf16 s,
    halfFp_done _ 1 _ _ (by decide) fun _ _ s => exec_fabsBf16 s, halfFp_done _ 1 _ _ (by decide) fun _ _ s => exec_fnegBf16 s⟩

/-- Settles O12: the compares run `fcmpLane`, each with its test, its answer for a NaN and the NaNs that raise NV. -/
theorem laneFloatCompares : Obligations.LaneFloatCompares := by
  refine ⟨fcmpDone_of_exec fun _ _ s => exec_fcmpEq s, fcmpDone_of_exec fun _ _ s => exec_fcmpNe s,
    fcmpDone_of_exec fun _ _ s => exec_fcmpLt s, fcmpDone_of_exec fun _ _ s => exec_fcmpLe s,
    fcmpDone_of_exec fun _ _ s => exec_fcmpGt s, fcmpDone_of_exec fun _ _ s => exec_fcmpGe s,
    fcmpDone_of_exec fun _ _ s => exec_fcmpUn s, ?fclass⟩
  case fclass =>
    intro p f s hr
    rw [exec_fclass]
    exact execFclass_done p f s hr

/-- Settles O13: error pairs run `errPair`, double-word arithmetic `dwLane`. -/
theorem laneErrorPairsAndDoubleWords : Obligations.LaneErrorPairsAndDoubleWords :=
  ⟨errPairDone_of_exec fun _ _ s => exec_faddx s, errPairDone_of_exec fun _ _ s => exec_fsubx s,
    errPairDone_of_exec fun _ _ s => exec_fmulx s, dwDone_of_exec (op := .add) fun _ _ s => exec_dwadd s,
    dwDone_of_exec (op := .mul) fun _ _ s => exec_dwmul s, dwDone_of_exec (op := .fma) fun _ _ s => exec_dwfma s,
    dwDone_of_exec (op := .div) fun _ _ s => exec_dwdiv s, dwDone_of_exec (op := .sqrt) fun _ _ s => exec_dwsqrt s⟩

/-- Settles O14: special functions run `specialLane`, activations `actLane`, both as producers (01 R22). -/
theorem laneFunctionsIssue : Obligations.LaneFunctionsIssue :=
  ⟨specialDone_of_exec fun _ _ s => exec_rcp s, specialDone_of_exec fun _ _ s => exec_rsq s,
    specialDone_of_exec fun _ _ s => exec_exp2 s, specialDone_of_exec fun _ _ s => exec_log2 s,
    specialDone_of_exec fun _ _ s => exec_sin s, specialDone_of_exec fun _ _ s => exec_cos s,
    actDone_of_exec fun _ _ s => exec_gelu s, actDone_of_exec fun _ _ s => exec_silu s,
    actDone_of_exec fun _ _ s => exec_splus s, actDone_of_exec fun _ _ s => exec_tanh s,
    actDone_of_exec fun _ _ s => exec_sigm s⟩

/-! ### Conversions and reductions -/

/-- Settles O15: CVTMX reads its block scales in vc, or, into MX with bit [3], makes them. -/
theorem laneConversions : Obligations.LaneConversions := by
  refine ⟨?cvt, ?cvtmx⟩
  case cvt =>
    intro p c f s x out hc hr hq
    rw [exec_cvt]
    exact execCvt_done p c f s hc hr hq
  case cvtmx =>
    intro p c f s x out hp hc hr hq
    rw [exec_cvtmx]
    cases makes : mxCode (cvtD c f) && cvtSat f
    case false =>
      have form : x = cvtmxForm p c f := by simp only [x, makes, Bool.false_eq_true, if_false]
      rw [form] at hr hq ⊢
      exact execCvtmx_done p c f s hp hc makes hr hq
    case true =>
      have form : x = cvtmxMakeForm p c f s.team := by simp only [x, makes, if_true]
      rw [form] at hr hq ⊢
      exact execCvtmx_make p c f s hp hc makes hr hq

/-- Settles O17: MOVX and TCRED retire with a scalar result, CRED with one of each tile. -/
theorem laneReductions : Obligations.LaneReductions := by
  refine ⟨?movx, ?cred, ?tcred⟩
  case movx =>
    intro p f s hr keeps
    rw [exec_movx]
    exact execMovx_done p f s hr keeps
  case cred =>
    intro p f s htile hr hq
    obtain ⟨atLeast, atMost⟩ := htile
    rw [exec_cred]
    exact execCred_done p f s atLeast atMost hr hq
  case tcred =>
    intro p f s hr keeps hq
    rw [exec_tcred]
    exact execTcred_done p f s hr keeps hq

end Sys2Proof.Machine

end

/-! PROOFS. Lane memory and exchange (06): the statements O16 and O18 to O25. First, for each shape the statements use, the
lemma that an instruction whose meaning runs the shape's shared operation does what the shape says; then the statements,
which name for each instruction the equation of its meaning. -/

section

namespace Sys2Proof.Machine

/-! ### From the meaning of an instruction to its shape -/

/-- A shuffle whose meaning `e` has its effect wherever `TILE` holds a size. -/
theorem shflDone_of_exec {i : Option Pfx → LR → Instr} {src : LR → Team → Nat → Nat} {e : Option Pfx → LR → State → Out}
    (h : ∀ p f s, exec (i p f) s = e p f s)
    (done : ∀ p f s, 1 ≤ field s.team.tile 0 3 → field s.team.tile 0 3 ≤ 5 → (shflForm p f s.team).Ready s.team →
      (shflForm p f s.team).Done s (shflVal f s.team (src f s.team)) (e p f s)) : ShflDone i src := by
  intro p f s x ⟨atLeast, atMost⟩ hr
  rw [h]
  exact done p f s atLeast atMost hr

/-- The same of a vote. -/
theorem voteDone_of_exec {i : Option Pfx → LR → Instr} {val : Option Pfx → LR → Team → Nat → Word32}
    {e : Option Pfx → LR → State → Out} (h : ∀ p f s, exec (i p f) s = e p f s)
    (done : ∀ p f s, 1 ≤ field s.team.tile 0 3 → field s.team.tile 0 3 ≤ 5 → (countForm p f []).Ready s.team →
      (countForm p f []).Done s (fun _ l => val p f s.team l) (e p f s)) : VoteDone i val := by
  intro p f s x ⟨atLeast, atMost⟩ hr
  rw [h]
  exact done p f s atLeast atMost hr

theorem atomIssues_of_exec {i : Instr} {p : Option Pfx} {op ty : Nat} {f : LM} {s : State} {sp : List Span}
    (h : exec i s = laneAtom p i.wf op ty f s) (hwf : i.wf = true) : AtomIssues p op ty f s sp (exec i s) := by
  intro hr hs
  rw [h, hwf]
  exact atom_done p op ty f s sp hr hs _ rfl

theorem atomDone_of_exec {i : Option Pfx → BitVec 3 → LM → Instr} {ty : Nat}
    (h : ∀ p op f s, exec (i p op f) s = laneAtom p (i p op f).wf op.toNat ty f s) : AtomDone i ty :=
  fun p op f s _ hwf => atomIssues_of_exec (h p op f s) hwf

theorem accumDone_of_exec {i : Instr} {p : Option Pfx} {f : LM} {wide : Bool} {kreg : Option Nat} {s : State} {sp : List Span}
    (h : exec i s = laneFxacc p i.wf f wide kreg s) (hwf : i.wf = true) : AccumDone p f wide kreg s sp (exec i s) := by
  intro hr hs kinds
  rw [h, hwf]
  exact fxacc_done p f wide kreg s sp hr hs kinds

theorem rangeDone_of_exec {i : Option Pfx → LM → Instr} {op : RangeOp}
    (h : ∀ p f s, exec (i p f) s = rangeLane p op f s) : RangeDone i op := by
  intro p f s hr noWait noStop
  rw [h]
  exact range_done p op f s hr noWait noStop

theorem vsampDone_of_exec {i : Option Pfx → LM → Instr} {tri : Bool}
    (h : ∀ p f s, exec (i p f) s = vsamp p tri f s) : VsampDone i tri := by
  intro p f s hr
  rw [h]
  refine ⟨fun idle val => vsamp_idle p tri f s hr idle val, ?_⟩
  intro dsp sp u vol out acting aligned descriptor volume mode wordAligned voxels quiet
  exact vsamp_done p tri f s hr dsp sp u vol acting aligned descriptor volume mode wordAligned voxels quiet

theorem rboxDone_of_exec {i : Option Pfx → LM → Instr} {idx : Bool}
    (h : ∀ p f s, exec (i p f) s = rboxLane p idx f s) : RboxDone i idx := by
  intro p f s sp x out hr hs hq
  rw [h]
  exact rbox_done p f idx s sp hr hs hq

/-! ### The meaning of a well-formed load or store -/

theorem exec_ld_wf {p : Option Pfx} {ty : BitVec 4} {f : LM} (hwf : (Instr.ld p ty f).wf = true) (s : State) :
    exec (.ld p ty f) s =
      laneLoad p true f (ldWide ty) (ldTag ty) true none { wa := true, reuse := true, os := true } s := by
  rw [exec_ld, execLd, hwf]

theorem exec_ldImm_wf {p : Option Pfx} {ty : BitVec 4} {f : LM} (hwf : (Instr.ldImm p ty f).wf = true) (s : State) :
    exec (.ldImm p ty f) s = laneLoad p true f (ldWide ty) (ldTag ty) false none { reuse := true } s := by
  rw [exec_ldImm, execLdImm, hwf]

theorem exec_ldAcq_wf {p : Option Pfx} {ty : BitVec 3} {f : LM} (hwf : (Instr.ldAcq p ty f).wf = true) (s : State) :
    exec (.ldAcq p ty f) s =
      laneLoad p true f (ldWide (acqType ty)) (ldTag (acqType ty)) true (some (pscope p))
        { wa := true, scope := true, reuse := true, os := true } s := by
  rw [exec_ldAcq, execLdAcq, hwf]

theorem exec_st_wf {p : Option Pfx} {ty : BitVec 4} {f : LM} (hwf : (Instr.st p ty f).wf = true) (s : State) :
    exec (.st p ty f) s =
      laneStore p true f (ldWide ty) (ldTag ty) true none { z := false, wa := true, wb := true, os := true } s := by
  rw [exec_st, execSt, hwf]

theorem exec_stImm_wf {p : Option Pfx} {ty : BitVec 4} {f : LM} (hwf : (Instr.stImm p ty f).wf = true) (s : State) :
    exec (.stImm p ty f) s = laneStore p true f (ldWide ty) (ldTag ty) false none { z := false, wb := true } s := by
  rw [exec_stImm, execStImm, hwf]

theorem exec_stRel_wf {p : Option Pfx} {ty : BitVec 3} {f : LM} (hwf : (Instr.stRel p ty f).wf = true) (s : State) :
    exec (.stRel p ty f) s =
      laneStore p true f (ldWide (acqType ty)) (ldTag (acqType ty)) true (some (pscope p))
        { z := false, wa := true, wb := true, scope := true, os := true } s := by
  rw [exec_stRel, execStRel, hwf]

theorem exec_ldb_wf {p : Option Pfx} {ty : BitVec 3} {f : LM} (hwf : (Instr.ldb p ty f).wf = true) (s : State) :
    let lam := if ldbWidth ty = 4 then 4 else 8
    exec (.ldb p ty f) s =
      blockLoad p true f ⟨lam, 4 * ldbWidth ty, 1⟩ (ldbTag ty) 10 (fun q _ j => blockElems (ldbWidth ty) (32 / lam) q j)
        (fun v h => putBits v (8 * f.pol.toNat) 8 h) s := by
  rw [exec_ldb, execLdb, hwf]

theorem exec_ldw_wf {p : Option Pfx} {ty : BitVec 3} {f : LM} (hwf : (Instr.ldw p ty f).wf = true) (s : State) :
    exec (.ldw p ty f) s =
      blockLoad p true f ⟨ldwGroup ty / 4, ldwGroup ty * ldwBits ty / 8, 4⟩ 11 3 (fun q h j => weightElems (ldwBits ty) q h j)
        (fun v h => putBits v (16 * (f.pol.toNat % 2)) 16 (h % 65536)) s := by
  rw [exec_ldw, execLdw, hwf]

/-! ### The operation of an atomic (04 R100) -/

/-- The order the minimum and the maximum of an atomic use: that of the integers or of the natural numbers. -/
def atomLess {w : Nat} (signed : Bool) (a b : BitVec w) : Bool := if signed then a.slt b else a.ult b

theorem atomLess_iff {w : Nat} (signed : Bool) (a b : BitVec w) :
    atomLess signed a b = true ↔ if signed then a.toInt < b.toInt else a.toNat < b.toNat := by
  cases signed
  case false => exact BitVec.ult_iff_lt
  case true => exact BitVec.slt_iff_toInt_lt

theorem atomLess_asymm {w : Nat} {signed : Bool} {a b : BitVec w} (h : atomLess signed a b = true) :
    atomLess signed b a = false := by
  rw [← Bool.not_eq_true]
  intro h'
  rw [atomLess_iff] at h h'
  cases signed
  case false => exact Nat.lt_asymm h h'
  case true => exact Int.lt_asymm h h'

theorem atomFn_min {w : Nat} (signed : Bool) (old x c : BitVec w) :
    atomFn 1 signed old x c = some (if atomLess signed old x then old else x) := by
  cases signed <;> rfl

theorem atomFn_max {w : Nat} (signed : Bool) (old x c : BitVec w) :
    atomFn 2 signed old x c = some (if atomLess signed old x then x else old) := by
  cases signed <;> rfl

theorem atomFn_cas {w : Nat} (signed : Bool) (old x c : BitVec w) :
    atomFn 7 signed old x c = if old = c then some x else none := rfl

/-! ### Exchanges -/

/-- Settles O16: in a tile of 2 to 32 lanes what a lane takes lies in its own row, so that the rows swept before it do not
change it. -/
theorem laneExchanges : Obligations.LaneExchanges := by
  refine ⟨shflDone_of_exec (fun _ _ s => exec_shflIdx s) execShflIdx_done,
    shflDone_of_exec (fun _ _ s => exec_shflXor s) execShflXor_done,
    shflDone_of_exec (fun _ _ s => exec_shflUp s) execShflUp_done,
    shflDone_of_exec (fun _ _ s => exec_shflDn s) execShflDn_done,
    voteDone_of_exec (fun _ _ s => exec_voteAny s) execVoteAny_done,
    voteDone_of_exec (fun _ _ s => exec_voteAll s) execVoteAll_done,
    voteDone_of_exec (fun _ _ s => exec_ballot s) execBallot_done, ?pshw, ?eq⟩
  case pshw =>
    intro p f s ⟨atLeast, atMost⟩ hr
    rw [exec_pshw]
    exact execPshw_done p f s atLeast atMost hr
  case eq =>
    intro p f s ⟨atLeast, atMost⟩ hr
    rw [exec_voteEq]
    exact execVoteEq_done p f s atLeast atMost hr

/-! ### Loads and stores -/

/-- Settles O18: the three forms run `laneLoad`, with a vector or an immediate offset, and with an acquire or none. -/
theorem laneLoads : Obligations.LaneLoads := by
  refine ⟨?vector, ?immediate, ?acquire⟩
  case vector =>
    intro p ty f s sp x n hwf hr hs
    rw [exec_ld_wf hwf]
    exact load_done p f (ldWide ty) (ldTag ty) true none _ s sp hr hs
  case immediate =>
    intro p ty f s sp x n hwf hr hs
    rw [exec_ldImm_wf hwf]
    exact load_done p f (ldWide ty) (ldTag ty) false none _ s sp hr hs
  case acquire =>
    intro p ty f s sp x n hwf hr hs
    rw [exec_ldAcq_wf hwf]
    exact load_done p f (ldWide (acqType ty)) (ldTag (acqType ty)) true (some (pscope p)) _ s sp hr hs

/-- Settles O19: the three forms run `laneStore`, with a vector or an immediate offset, and with a release or none. -/
theorem laneStores : Obligations.LaneStores := by
  refine ⟨?vector, ?immediate, ?release⟩
  case vector =>
    intro p ty f s sp x n after hwf hr hs
    rw [exec_st_wf hwf]
    exact store_done p f (ldWide ty) (ldTag ty) true none _ s sp hr hs
  case immediate =>
    intro p ty f s sp x n after hwf hr hs
    rw [exec_stImm_wf hwf]
    exact store_done p f (ldWide ty) (ldTag ty) false none _ s sp hr hs
  case release =>
    intro p ty f s sp wide x after hwf hr hs
    rw [exec_stRel_wf hwf]
    exact store_done p f (ldWide (acqType ty)) (ldTag (acqType ty)) true (some (pscope p)) _ s sp hr hs

/-- Settles O20: LDB and LDW run `blockLoad`; only the 4-byte headers of LDW have to be aligned. -/
theorem laneBlockLoads : Obligations.LaneBlockLoads := by
  refine ⟨?ldb, ?ldw, ?ldt⟩
  case ldb =>
    intro p ty f s sp w b x hwf hr hs
    rw [exec_ldb_wf hwf]
    have oneByteScale : b.head ≠ 4 := show 1 ≠ 4 by decide
    exact block_done p f b (ldbTag ty) 10 _ _ s sp hr (fun h => absurd h oneByteScale) hs
  case ldw =>
    intro p ty f s sp m b x hwf hr aligned hs
    rw [exec_ldw_wf hwf]
    exact block_done p f b 11 3 _ _ s sp hr (fun _ => aligned) hs
  case ldt =>
    intro p ty f s sp hwf hr hs noStop
    rw [exec_ldt]
    exact ldt_done p ty f s sp hwf hr hs noStop

/-! ### Atomics and accumulators -/

/-- Settles O21: every form runs `laneAtom`; the minimum and the maximum take the order of the type. -/
theorem laneAtomics : Obligations.LaneAtomics := by
  refine ⟨atomDone_of_exec fun _ _ _ s => exec_atomI32 s, atomDone_of_exec fun _ _ _ s => exec_atomN32 s,
    atomDone_of_exec fun _ _ _ s => exec_atomI64 s, atomDone_of_exec fun _ _ _ s => exec_atomN64 s,
    fun _ _ _ s _ hwf => atomIssues_of_exec (exec_atomCas s) hwf, ?update⟩
  intro w signed old x c less
  have lt : ∀ {a b : BitVec w}, less a b → atomLess signed a b = true := fun h => (atomLess_iff signed _ _).mpr h
  have ge : ∀ {a b : BitVec w}, less b a → atomLess signed a b = false := fun h => atomLess_asymm (lt h)
  refine ⟨rfl, ?minOld, ?minNew, ?maxNew, ?maxOld, rfl, rfl, rfl, rfl, ?swap, ?keep⟩
  case minOld => intro h; simp [atomFn_min, lt h]
  case minNew => intro h; simp [atomFn_min, ge h]
  case maxNew => intro h; simp [atomFn_max, lt h]
  case maxOld => intro h; simp [atomFn_max, ge h]
  case swap => intro h; rw [atomFn_cas, if_pos h]
  case keep => intro h; rw [atomFn_cas, if_neg h]

/-- Settles O22: both accumulates run `laneFxacc`, the scaled one with its exponents in vc. -/
theorem laneAccumulators : Obligations.LaneAccumulators := by
  refine ⟨fun _ _ _ s _ hwf => accumDone_of_exec (exec_fxacc s) hwf,
    fun _ _ s _ hwf => accumDone_of_exec (exec_fxaccSc s) hwf, ?fxrd⟩
  intro p w f s sp x out hwf hr hs kinds hq
  rw [exec_fxrd]
  exact fxrd_done p w f s sp hwf hr hs kinds hq

/-! ### Ranges, compressed blocks, volumes and boxes -/

/-- Settles O23: the three operations run `rangeLane`. -/
theorem laneRangeOperations : Obligations.LaneRangeOperations :=
  ⟨rangeDone_of_exec fun _ _ s => exec_rwb s, rangeDone_of_exec fun _ _ s => exec_rinv s,
    rangeDone_of_exec fun _ _ s => exec_rdisc s⟩

/-- Settles O24: with its head and its bytes in cluster memory DECODE stops nowhere before it issues. -/
theorem laneDecode : Obligations.LaneDecode := by
  intro p f s r hr headInside bytesInside decoded keeps noTrap
  rw [exec_decode]
  exact decode_done p f s hr headInside bytesInside r decoded keeps noTrap

/-- Settles O25: both samples run `vsamp`, both box tests `rboxLane`. -/
theorem laneVolumesAndBoxes : Obligations.LaneVolumesAndBoxes :=
  ⟨vsampDone_of_exec fun _ _ s => exec_vsampNear s, vsampDone_of_exec fun _ _ s => exec_vsampTri s,
    rboxDone_of_exec fun _ _ s => exec_rbox s, rboxDone_of_exec fun _ _ s => exec_rboxIdx s⟩

end Sys2Proof.Machine

end

/-! PROOFS. The decoder on words put together from their fields (03): the statement O5. First, which word takes which half of
the decoder; then one family for each of Tables 3.2, 3.5 and 3.8 that O5 samples, for every value of its fields. -/

section

namespace Sys2Proof

/-! ### Which half of the decoder reads a word -/

theorem isPrefix_laneWord {m : BitVec 6} (hm : m ≠ 0x3F#6) (u : BitVec 3) (b : BitVec 22) :
    isPrefix (wordOf 0#1 m u b) = false := by
  simp [isPrefix, hm]

theorem isPrefix_uniformWord (m : BitVec 6) (u : BitVec 3) (b : BitVec 22) : isPrefix (wordOf 1#1 m u b) = false := by
  simp [isPrefix]

theorem decodeWords_laneWord {m : BitVec 6} (hm : m ≠ 0x3F#6) (u : BitVec 3) (b : BitVec 22) (w : Word32) :
    decodeWords (wordOf 0#1 m u b) w = (decLane none (wordOf 0#1 m u b)).map fun i => (i, 4) := by
  simp [decodeWords, decodeWord, isPrefix_laneWord hm]

theorem decodeWords_uniformWord (m : BitVec 6) (u : BitVec 3) (b : BitVec 22) (w : Word32) :
    decodeWords (wordOf 1#1 m u b) w = (decUniform (wordOf 1#1 m u b)).map fun i => (i, 4) := by
  simp [decodeWords, decodeWord, isPrefix_uniformWord]

/-- A prefix binds the lane word after it (03 R72). -/
theorem decodeWords_prefixedWord (p : Pfx) {m : BitVec 6} (hm : m ≠ 0x3F#6) (u : BitVec 3) (b : BitVec 22) :
    decodeWords p.word (wordOf 0#1 m u b) = (decLane (some p) (wordOf 0#1 m u b)).map fun i => (i, 8) := by
  simp [decodeWords, decodeWord, isPrefix_laneWord hm]

/-! ### Families of the tables -/

theorem decodeWords_addI32 (f : LR) (w : Word32) :
    decodeWords (wordOf 0#1 0x01 0 f.bits) w = .ok (.addI32 none f, 4) := by
  rw [decodeWords_laneWord (by decide)]
  simp [decLane, decLane01, Except.map]

theorem decodeWords_prefixed_fma (p : Pfx) (f : LR) :
    decodeWords p.word (wordOf 0#1 0x10 3 f.bits) = .ok (.fma (some p) f, 8) := by
  rw [decodeWords_prefixedWord p (by decide)]
  simp [decLane, decLane10, Except.map]

theorem decodeWords_ldB32 (f : LM) (w : Word32) :
    decodeWords (wordOf 0#1 0x20 0 f.bits) w = .ok (.ld none 0 f, 4) := by
  rw [decodeWords_laneWord (by decide)]
  simp [decLane, decLane20, tyOf, Except.map]

theorem decodeWords_scalarAdd (f : UR) (w : Word32) :
    decodeWords (wordOf 1#1 0x01 0 f.bits) w = .ok (.scalarAdd f, 4) := by
  rw [decodeWords_uniformWord]
  simp [decUniform, decUniform01, Except.map]

theorem decodeWords_bra (f : UB) (w : Word32) :
    decodeWords (wordOf 1#1 0x10 0 f.bits) w = .ok (.bra f, 4) := by
  rw [decodeWords_uniformWord]
  simp [decUniform, decUniform10, Except.map]

theorem decodeWords_join (b : BitVec 22) (w : Word32) : decodeWords (wordOf 1#1 0x14 3 b) w = .ok (.join, 4) := by
  rw [decodeWords_uniformWord]
  simp [decUniform, decUniform14, Except.map]

/-- Settles O5: each word is its family's with the fields that stand in it. -/
theorem decodedWords : Obligations.DecodedWords :=
  ⟨decodeWords_addI32 ⟨3, 1, 2, 0⟩ 0,
    decodeWords_prefixed_fma ⟨2, 1, 1, 8, 1, 0, 2, 0, 3⟩ ⟨4, 6, 10, 1⟩,
    decodeWords_ldB32 ⟨5, 9, 7, 2⟩ 0,
    decodeWords_scalarAdd ⟨7, 5, 6, 0⟩ 0,
    decodeWords_bra ⟨0, 0x3FFFE⟩ 0,
    decodeWords_join 0 0⟩

end Sys2Proof

end
